-- ==== Sys2Proof/Word.lean ====
section
/-!
DEFINITION. The word types of the GQ-1024: bytes, general 64-bit words, 128-bit register data,
9-bit operand specifiers, and the 129-bit value (128 data bits and a tag) of spec/05 R98.
-/

namespace Sys2Proof

/-- One byte of memory (00 R5). -/
abbrev Byte := BitVec 8

/-- A 64-bit word: integer sources and results (06 R121), status registers (05 R112). -/
abbrev Word := BitVec 64

/-- The 128 data bits of a register or of a 16-byte granule (05 R98). -/
abbrev Quad := BitVec 128

/-- A 9-bit operand specifier (03 R50). -/
abbrev Opn := BitVec 9

/-- 128 data bits and the tag: what a register holds and a granule of memory stores (05 R98, R99). -/
structure Val where
  bits : Quad
  tag  : Bool
  deriving DecidableEq, Repr

/-- The value read from z (03 R50): every data bit 0, tag clear. -/
def Val.zero : Val := ⟨0, false⟩

/-- Untagged data. -/
def Val.data (q : Quad) : Val := ⟨q, false⟩

/-- An untagged 64-bit result, zero-extended into all 128 data bits (06 R121). -/
def Val.ofWord (w : Word) : Val := ⟨w.setWidth 128, false⟩

/-- Bits [63:0] of a value, which the integer family reads (06 R121). -/
def Val.lo (v : Val) : Word := v.bits.setWidth 64

/-- Bits [127:64] of a value. -/
def Val.hi (v : Val) : Word := v.bits.extractLsb' 64 64

@[simp] theorem Val.zero_bits : Val.zero.bits = 0 := rfl
@[simp] theorem Val.zero_tag : Val.zero.tag = false := rfl
@[simp] theorem Val.data_bits (q : Quad) : (Val.data q).bits = q := rfl
@[simp] theorem Val.data_tag (q : Quad) : (Val.data q).tag = false := rfl
@[simp] theorem Val.ofWord_tag (w : Word) : (Val.ofWord w).tag = false := rfl
@[simp] theorem Val.ofWord_bits (w : Word) : (Val.ofWord w).bits = w.setWidth 128 := rfl

theorem Val.lo_ofWord (w : Word) : (Val.ofWord w).lo = w := by
  simp only [Val.lo, Val.ofWord]
  exact BitVec.setWidth_setWidth_of_le _ (by decide) |>.trans (BitVec.setWidth_eq _)

end Sys2Proof
end

