-- ==== Sys2Proof/Syntax.lean ====
section
/-!
DEFINITION. The abstract syntax: fault codes, prefixes, operand shapes, and the one inductive Instr with a
constructor for every row of spec/opcode_table.json. The first 185 constructors are instructions, issued by a
thread; the others are the events of cores, homes, stations, engines and the outside world.
-/

namespace Sys2Proof

/-- The fault codes of 15 R365. -/
inductive Code where
  | illegalOpcode | illegalEncoding | illegalOperand | orphanPrefix | misalignedTarget | linkAbsent
  | tag | bounds | boundsInexact | perm | sealed | align | region
  | lease | leaseRevoked | race | doubleFill | wrongClass | viewReadonly
  | abandonedOperand | formatMismatch | senseTooLarge | curveHeader | curveDimMismatch
  | budget | badHeader | repartBusy | handlerOverrun
  | breakpoint | syscall | privilege | poison | machine
  deriving DecidableEq, Repr

/-- The 8-bit number of a fault code (15 R365). -/
def Code.num : Code → BitVec 8
  | .illegalOpcode => 0x01 | .illegalEncoding => 0x02 | .illegalOperand => 0x03
  | .orphanPrefix => 0x04 | .misalignedTarget => 0x05 | .linkAbsent => 0x08
  | .tag => 0x10 | .bounds => 0x11 | .boundsInexact => 0x12 | .perm => 0x13
  | .sealed => 0x14 | .align => 0x15 | .region => 0x16
  | .lease => 0x20 | .leaseRevoked => 0x21 | .race => 0x22 | .doubleFill => 0x23
  | .wrongClass => 0x24 | .viewReadonly => 0x25
  | .abandonedOperand => 0x30 | .formatMismatch => 0x31 | .senseTooLarge => 0x38
  | .curveHeader => 0x39 | .curveDimMismatch => 0x3A
  | .budget => 0x40 | .badHeader => 0x41 | .repartBusy => 0x42 | .handlerOverrun => 0x43
  | .breakpoint => 0x50 | .syscall => 0x51 | .privilege => 0x52
  | .poison => 0xF0 | .machine => 0xF1

/-- Every fault code of 15 R365, in the order of its number. -/
def Code.all : List Code :=
  [.illegalOpcode, .illegalEncoding, .illegalOperand, .orphanPrefix, .misalignedTarget, .linkAbsent,
   .tag, .bounds, .boundsInexact, .perm, .sealed, .align, .region,
   .lease, .leaseRevoked, .race, .doubleFill, .wrongClass, .viewReadonly,
   .abandonedOperand, .formatMismatch, .senseTooLarge, .curveHeader, .curveDimMismatch,
   .budget, .badHeader, .repartBusy, .handlerOverrun,
   .breakpoint, .syscall, .privilege, .poison, .machine]

/-- The code with a given number, none where R365 lists none. -/
def Code.ofNum (n : BitVec 8) : Option Code := Code.all.find? (fun c => c.num == n)

/-- Kind 0x02 prefix (03 R57): the predicate register and its sense (`ifz`: execute iff kp = 0). -/
structure Pred where
  kp  : Opn
  ifz : Bool
  deriving DecidableEq, Repr

/-- Kind 0x01 prefix (03 R56). -/
structure Arith where
  round : BitVec 3
  sat   : Bool
  pass  : Bool
  deriving DecidableEq, Repr

/-- Kind 0x03 prefix (03 R58): an element type (0: none) and a scale register. -/
structure Wide where
  type : BitVec 6
  sx   : Option Opn
  deriving DecidableEq, Repr

/-- The prefixes of a unit (03 R60); their order in the unit has no meaning. -/
structure Pfx where
  arith : Option Arith
  pred  : Option Pred
  wide  : Option Wide
  deriving DecidableEq, Repr

/-- No prefix. -/
def Pfx.empty : Pfx := ⟨none, none, none⟩

/-- The sat bit in effect (03 R56). -/
def Pfx.sat (p : Pfx) : Bool := match p.arith with | some a => a.sat | none => false
/-- The pass bit in effect (03 R56). -/
def Pfx.pass (p : Pfx) : Bool := match p.arith with | some a => a.pass | none => false
/-- The round code of the prefix, 0 without one (03 R56, 04 R86). -/
def Pfx.round (p : Pfx) : BitVec 3 := match p.arith with | some a => a.round | none => 0

/-- Register b or the 16-bit immediate that replaces it (03 R71). -/
inductive SrcB where
  | reg (b : Opn)
  | imm (v : BitVec 16)
  deriving DecidableEq, Repr

/-- Register b or a 32-bit immediate (06 R128). -/
inductive SrcW where
  | reg (b : Opn)
  | imm (v : BitVec 32)
  deriving DecidableEq, Repr

/-- Operands of a two-source integer instruction (06 R124). `la` is nonzero on the division members only. -/
structure IntOps where
  p  : Pfx
  la : BitVec 4
  d  : Opn
  a  : Opn
  b  : SrcB
  deriving DecidableEq, Repr

/-- Destination and one source. -/
structure UnOps where
  p : Pfx
  d : Opn
  a : Opn
  deriving DecidableEq, Repr

/-- Destination and two register sources. -/
structure BinOps where
  p : Pfx
  d : Opn
  a : Opn
  b : Opn
  deriving DecidableEq, Repr

/-- BFX (06 R127). -/
structure BfxOps where
  p   : Pfx
  sx  : Bool
  d   : Opn
  a   : Opn
  pos : BitVec 6
  len : BitVec 6
  deriving DecidableEq, Repr

/-- BFI (06 R127). -/
structure BfiOps where
  p   : Pfx
  d   : Opn
  a   : Opn
  b   : Opn
  pos : BitVec 6
  len : BitVec 6
  deriving DecidableEq, Repr

/-- SEL (06 R128). -/
structure SelOps where
  p : Pfx
  d : Opn
  a : Opn
  b : SrcW
  c : Opn
  deriving DecidableEq, Repr

/-- The common fields of a packed instruction (03 R72): element type, group size code, d and a. -/
structure Pk where
  p  : Pfx
  ty : BitVec 4
  g  : BitVec 2
  d  : Opn
  a  : Opn
  deriving DecidableEq, Repr

/-- A lane-slice instruction (07 R172, R173): data group (d of LLD, a of LST and LADD) and offset. -/
structure LaneOps where
  p  : Pfx
  la : BitVec 4
  ty : BitVec 4
  g  : BitVec 2
  d  : Opn
  a  : Opn
  b  : SrcB
  deriving DecidableEq, Repr

/-- Axis operand of CQEXT (08 R181). -/
inductive AxisSrc where
  | reg (b : Opn)
  | imm (axis : BitVec 3)
  deriving DecidableEq, Repr

/-- Second operand of CQADD and CQSUB (08 R182): a code, or one axis and a step. -/
inductive CurveStep where
  | reg (b : Opn)
  | step (axis : BitVec 3) (delta : BitVec 8)
  deriving DecidableEq, Repr

/-- Level count of CQTRUNC (08 R191). -/
inductive LevelSrc where
  | reg (b : Opn)
  | imm (m : BitVec 7)
  deriving DecidableEq, Repr

/-- Three-source curve instruction (08 R184, R185). -/
structure BoxOps where
  p  : Pfx
  la : BitVec 4
  d  : Opn
  a  : Opn
  b  : Opn
  c  : Opn
  deriving DecidableEq, Repr

/-- CQSPLIT (08 R186). -/
structure SplitOps where
  p     : Pfx
  la    : BitVec 4
  d     : Opn
  a     : Opn
  b     : Opn
  c     : Opn
  e     : Opn
  limit : BitVec 9
  gap   : BitVec 48
  deriving DecidableEq, Repr

/-- Fields of an S-format access (11 R254); `off` is imm16 or register b. -/
structure MemOps where
  p   : Pfx
  la  : BitVec 4
  d   : Opn
  a   : Opn
  off : SrcB
  deriving DecidableEq, Repr

/-- Orders of AMO and CAS (11 R263). -/
inductive Ord where
  | rlx | acq | rel | acqrel
  deriving DecidableEq, Repr

/-- The release part of an order (13 R306). -/
def Ord.isRel : Ord → Bool
  | .rel | .acqrel => true
  | .rlx | .acq => false
/-- The acquire part of an order (13 R306). -/
def Ord.isAcq : Ord → Bool
  | .acq | .acqrel => true
  | .rlx | .rel => false

/-- Operations of AMO (11 R263). -/
inductive AmoFn where
  | add | and | or | xor | max | min | maxu | minu | swap
  deriving DecidableEq, Repr

/-- AMO (11 R263). -/
structure AmoOps where
  p    : Pfx
  la   : BitVec 4
  d    : Opn
  a    : Opn
  b    : Opn
  off  : BitVec 16
  fn   : AmoFn
  ord  : Ord
  size8 : Bool
  deriving DecidableEq, Repr

/-- CAS (11 R264). -/
structure CasOps where
  p    : Pfx
  la   : BitVec 4
  d    : Opn
  a    : Opn
  b    : Opn
  c    : Opn
  off  : BitVec 32
  ord  : Ord
  size8 : Bool
  deriving DecidableEq, Repr

/-- TOPKINS (11 R266). -/
structure TopkOps where
  p   : Pfx
  la  : BitVec 4
  d   : Opn
  a   : Opn
  b   : Opn
  c   : Opn
  off : BitVec 32
  deriving DecidableEq, Repr

/-- WAITNE (11 R269). -/
structure WaitneOps where
  p   : Pfx
  d   : Opn
  a   : Opn
  b   : Opn
  off : BitVec 16
  deriving DecidableEq, Repr

/-- Kinds of FENCE (11 R262). -/
inductive FenceKind where
  | rel | acq | full
  deriving DecidableEq, Repr

/-- Scopes of FENCE (11 R262). -/
inductive FenceScope where
  | core | clu | dev | sys
  deriving DecidableEq, Repr

/-- Completion modes of engines (11 R272). -/
inductive Compl where
  | none | write | fill
  deriving DecidableEq, Repr

/-- COPY and ARCOUT (11 R274, R279). -/
structure EngOps where
  p    : Pfx
  d    : Opn
  a    : Opn
  b    : Opn
  c    : Opn
  e    : Opn
  mode : Compl
  v    : Word
  deriving DecidableEq, Repr

/-- ARCIN (11 R280). -/
structure ArcinOps where
  p : Pfx
  d : Opn
  a : Opn
  b : Opn
  c : Opn
  e : Opn
  v : Word
  deriving DecidableEq, Repr

/-- ARCDROP (11 R281). -/
structure DropOps where
  p    : Pfx
  d    : Opn
  a    : Opn
  b    : Opn
  mode : Compl
  v    : BitVec 16
  deriving DecidableEq, Repr

/-- ENGST (11 R273). -/
structure EngstOps where
  p  : Pfx
  la : BitVec 4
  d  : Opn
  b  : SrcB
  deriving DecidableEq, Repr

/-- A mark operation on one cell (12 R293). -/
structure MarkOps where
  p   : Pfx
  la  : BitVec 4
  d   : Opn
  a   : Opn
  b   : Opn
  dom : BitVec 6
  deriving DecidableEq, Repr

/-- MSENSE and MSAMP (12 R293). -/
structure SenseOps where
  p   : Pfx
  la  : BitVec 4
  d   : Opn
  a   : Opn
  b   : Opn
  c   : Opn
  dom : BitVec 6
  deriving DecidableEq, Repr

/-- MTICK, MBIND (12 R293); MUNBIND reads no capability. -/
structure DomOps where
  p   : Pfx
  d   : Opn
  a   : Opn
  dom : BitVec 6
  deriving DecidableEq, Repr

/-- Predicates of a verdict (09 R214). -/
inductive Verd where
  | none | sign | ge | topk
  deriving DecidableEq, Repr

/-- MMA and SMMA (09 R206). -/
structure MmaOps where
  p    : Pfx
  d    : Opn
  a    : Opn
  b    : Opn
  c    : Opn
  e    : Opn
  sta  : BitVec 16
  stb  : BitVec 16
  fa   : BitVec 6
  fb   : BitVec 6
  ba   : BitVec 2
  bb   : BitVec 2
  verd : Verd
  need : Bool
  zero : Bool
  deriving DecidableEq, Repr

/-- MACLD (09 R220). -/
structure MacldOps where
  p     : Pfx
  d     : Opn
  a     : Opn
  bf16  : Bool
  shape : BitVec 3
  st    : BitVec 16
  deriving DecidableEq, Repr

/-- MACST (09 R220). -/
structure MacstOps where
  p    : Pfx
  d    : Opn
  a    : Opn
  bf16 : Bool
  rel  : Bool
  st   : BitVec 16
  deriving DecidableEq, Repr

/-- VBOUND (09 R218). -/
structure VboundOps where
  p   : Pfx
  d   : Opn
  a   : Opn
  b   : Opn
  c   : Opn
  acc : Bool
  fa  : BitVec 6
  fb  : BitVec 6
  bs  : BitVec 2
  n   : BitVec 4
  deriving DecidableEq, Repr

/-- The operand fields of a scheduling instruction: the unused ones are checked to be 256 (14 R356). -/
structure SchedOps where
  d : Opn
  a : Opn
  b : Opn
  deriving DecidableEq, Repr

/-- GANG (15 R379). -/
structure GangOps where
  d  : Opn
  a  : Opn
  b  : Opn
  c  : Opn
  e  : Opn
  ts : Word
  deriving DecidableEq, Repr

/-- LEASE in its five forms (16 R393): the fields b, c and e are checked to be 256; `dom` is imm64 [15:0], which `.dom`
alone uses (03 R49). -/
structure LeaseOps where
  d   : Opn
  a   : Opn
  b   : Opn
  c   : Opn
  e   : Opn
  dom : BitVec 16
  deriving DecidableEq, Repr

/-- Scopes of PLBINV (16 R394). -/
inductive PlbScope where
  | page | dom | all
  deriving DecidableEq, Repr

/-- Sides of a core (01 R26). -/
inductive Side where
  | n | e | s | w
  deriving DecidableEq, Repr

/-- A BAR of a host link (18 R412). -/
structure HostBar where
  link : Nat
  bar  : Nat
  deriving DecidableEq, Repr

/-- One instruction of a thread, or one event of the device. Threads are named by their thread number
128·core + slot (12 R289), messages and operations by the number they were given, cores, homes, stations, stacks,
ports and queues by their numbers in the manual. -/
inductive Instr where
  -- integer and scalar (06 R124)
  | add (o : IntOps) | sub (o : IntOps) | mul (o : IntOps) | mulh (o : IntOps) | mulhu (o : IntOps)
  | div (o : IntOps) | divu (o : IntOps) | rem (o : IntOps) | remu (o : IntOps)
  | and (o : IntOps) | or (o : IntOps) | xor (o : IntOps) | andn (o : IntOps)
  | shl (o : IntOps) | shr (o : IntOps) | sra (o : IntOps) | rotr (o : IntOps)
  | min (o : IntOps) | max (o : IntOps) | minu (o : IntOps) | maxu (o : IntOps)
  | clz (o : UnOps) | ctz (o : UnOps) | popc (o : UnOps) | abs (o : UnOps)
  | sext (o : IntOps) | zext (o : IntOps) | bfx (o : BfxOps) | bfi (o : BfiOps)
  | cmpeq (o : IntOps) | cmpne (o : IntOps) | cmplt (o : IntOps) | cmpltu (o : IntOps)
  | cmple (o : IntOps) | cmpleu (o : IntOps)
  | sel (o : SelOps) | mov (o : UnOps)
  | li (p : Pfx) (d : Opn) (zx : Bool) (imm : BitVec 32)
  | liw (p : Pfx) (d : Opn) (hi : Bool) (imm : BitVec 64)
  | time (p : Pfx) (d : Opn) | rand (p : Pfx) (d : Opn)
  -- control (06 R132)
  | br (off : BitVec 16)
  | beq (a b : Opn) (off : BitVec 32) | bne (a b : Opn) (off : BitVec 32)
  | blt (a b : Opn) (off : BitVec 32) | bge (a b : Opn) (off : BitVec 32)
  | bltu (a b : Opn) (off : BitVec 32) | bgeu (a b : Opn) (off : BitVec 32)
  | bz (a : Opn) (off : BitVec 16) | bnz (a : Opn) (off : BitVec 16)
  | call (d : Opn) (off : BitVec 32) | jmpc (d a : Opn) | loop (d : Opn) (off : BitVec 16) | nop
  -- capabilities (06 R136)
  | cgeta (o : UnOps) | cgetb (o : UnOps) | cgett (o : UnOps) | cgetp (o : UnOps)
  | cseta (o : BinOps) | cinc (o : IntOps) | csetb (o : IntOps) | candp (o : IntOps)
  | cseal (o : BinOps) (entry : Bool) | cunseal (o : BinOps)
  | ctest (o : UnOps) | cclrt (o : UnOps) | csub (o : BinOps)
  -- packed groups and lanes (07 R149)
  | vadd (k : Pk) (b : Opn) (bs : Bool) | vsub (k : Pk) (b : Opn) (bs : Bool)
  | vmul (k : Pk) (b : Opn) (bs : Bool) | vfma (k : Pk) (b c : Opn) (bs : Bool)
  | vmin (k : Pk) (b : Opn) (bs : Bool) | vmax (k : Pk) (b : Opn) (bs : Bool)
  | vabs (k : Pk) | vneg (k : Pk)
  | vand (k : Pk) (b : Opn) (bs : Bool) | vor (k : Pk) (b : Opn) (bs : Bool)
  | vxor (k : Pk) (b : Opn) (bs : Bool)
  | vshl (k : Pk) (b : SrcB) | vshr (k : Pk) (b : SrcB)
  | vcmp (k : Pk) (b : Opn) (bs : Bool) (cond : BitVec 3)
  | vsel (k : Pk) (b c : Opn)
  | vcvt (k : Pk) (c : Opn) (src : BitVec 6) (mask scl : Bool)
  | vscale (k : Pk) (b : Opn) | vred (k : Pk) (op : BitVec 2)
  | vexp2 (k : Pk) (la : BitVec 4) | vrcp (k : Pk) (la : BitVec 4) | vrsq (k : Pk) (la : BitVec 4)
  | vperm (k : Pk) (b : Opn) | vbcast (k : Pk) (b : SrcB)
  | vpack (k : Pk) (b : Opn) | vunpk (k : Pk) (hi : Bool)
  | plnenc (k : Pk) | plndec (k : Pk) (planes : BitVec 4) | vverd (k : Pk) (blk : Bool)
  | lld (o : LaneOps) | lst (o : LaneOps) | ladd (o : LaneOps)
  -- curve codes (08 R179)
  | cqpack (p : Pfx) (d a : Opn) (dims : BitVec 4)
  | cqext (p : Pfx) (d a : Opn) (k : AxisSrc) (signed : Bool)
  | cqadd (p : Pfx) (d a : Opn) (b : CurveStep) (signed : Bool)
  | cqsub (p : Pfx) (d a : Opn) (b : CurveStep) (signed : Bool)
  | cqcmp (o : BinOps) | cqinbox (o : BoxOps) | cqnext (o : BoxOps) | cqsplit (o : SplitOps)
  | cqsetd (p : Pfx) (d a : Opn) (dims : BitVec 4)
  | cqtrunc (p : Pfx) (d a : Opn) (m : LevelSrc) (up : Bool) | cqflags (o : UnOps)
  -- memory (11)
  | ld (m : MemOps) (sz : BitVec 3) (sx go : Bool) | st (m : MemOps) (sz : BitVec 3) (go : Bool)
  | lda (m : MemOps) (sz : BitVec 3) | stl (m : MemOps) (sz : BitVec 3)
  | ldcap (m : MemOps) | stcap (m : MemOps) | amo (o : AmoOps) | cas (o : CasOps)
  | wld (m : MemOps) (take : Bool) | fill (m : MemOps) | empty (m : MemOps) | fest (m : MemOps)
  | waitne (o : WaitneOps) | fence (p : Pfx) (kind : FenceKind) (scope : FenceScope)
  | pref (m : MemOps) (home : Bool) | zline (m : MemOps) | topkins (o : TopkOps)
  | copy (o : EngOps) | arcout (o : EngOps) | arcin (o : ArcinOps) | arcdrop (o : DropOps)
  | engst (o : EngstOps) | mig (m : MemOps) | wayconv (p : Pfx) (d a : Opn) (ways : BitVec 4)
  -- marks (12 R293)
  | mdep (o : MarkOps) | msense (o : SenseOps) | msamp (o : SenseOps) | mread (o : MarkOps)
  | merase (o : MarkOps) | mtick (o : DomOps) | mbind (o : DomOps)
  | munbind (p : Pfx) (d : Opn) (dom : BitVec 6)
  -- matrix (09 R229)
  | mmaT32 (o : MmaOps) | mmaT64 (o : MmaOps) | mmaT128 (o : MmaOps) | mmaW (o : MmaOps)
  | mmaH (o : MmaOps) | mmaQ (o : MmaOps) | mmaQ8 (o : MmaOps) | mmaT16 (o : MmaOps)
  | smmaT32 (o : MmaOps) | smmaT64 (o : MmaOps) | smmaQ (o : MmaOps)
  | macz (p : Pfx) (d : Opn) (rel : Bool) | macld (o : MacldOps) | macst (o : MacstOps)
  | mdrain (p : Pfx) (d a : Opn) (id : BitVec 16) | mhset (p : Pfx) (a b : Opn) | hend
  | vbound (o : VboundOps)
  -- scheduling (14 R357)
  | spawn (o : SchedOps) (c : Opn) (cl : BitVec 8) | yield (o : SchedOps) | endTask (o : SchedOps)
  | join (o : SchedOps) | leave (o : SchedOps) | gbar (o : SchedOps)
  | crew (o : SchedOps) (n : Option (BitVec 16)) | qstatSet (o : SchedOps) | qstatTask (o : SchedOps)
  | sleep (o : SchedOps) (ns64 : Option (BitVec 16))
  -- system (15, 16, 06 R141, 05 R109)
  | trap (imm : BitVec 16) | rte (a : Opn) | rds (d : Opn) (n : BitVec 12) | wrs (a : Opn) (n : BitVec 12)
  | repart (d : Opn) (split : Bool) | plbinv (d a b : Opn) (scope : PlbScope) | gang (o : GangOps)
  | dump (d : Opn) | halt (b : SrcB) | brk (imm : BitVec 16)
  | leaseAdd (o : LeaseOps) | leaseDrop (o : LeaseOps) | leaseUnmap (o : LeaseOps)
  | leaseUnmapForce (o : LeaseOps) | leaseDom (o : LeaseOps) | pgmove (d a b : Opn)
  -- events of threads and cores
  | threadTurn (t : Nat) | budgetTrap (t : Nat) | trapEntry (t : Nat)
  | resultArrival (t op : Nat) | postedAck (t op : Nat) | homeRefusal (t op : Nat)
  | homeAcknowledgement (t op : Nat)
  -- events of the ordering machinery
  | homeAccess (m : Nat) | registration (m : Nat) | probe (m : Nat) | probeEcho (m : Nat)
  | pull (m : Nat) | pullReply (m : Nat) | writeBack (m : Nat)
  | releaseStoreWritten (home sector : Nat) | hbmFill (home line : Nat) (ecc : BitVec 8)
  | plbFill (t : Nat) | homeWalk (m : Nat) | waitRecordDelivery (m : Nat) | waitResend (t : Nat)
  | parkResume (t : Nat)
  -- events of the queues
  | swapOut (t : Nat) | swappedWake (cluster entry : Nat) | sleepExpiry (t : Nat)
  | intakeRecord (queue link off : Nat) (bytes : List Byte) | stagingDone (cluster : Nat) (task : Word)
  | slotOffer (core slot : Nat) | crewMemberStart (core slot : Nat) | travelArrival (m : Nat)
  | stealRequest (cluster : Nat) | stealReply (m : Nat)
  -- events of engines, tiles and drains
  | engineStart (core : Nat) | engineCompletion (core id : Nat) | matrixCompletion (core : Nat)
  | macldRowArrival (t op : Nat) | rowHandlerDispatch (core slot : Nat) | handlerOverrun (core slot : Nat)
  | repartComplete (core : Nat) | wayconvCompletion (home : Nat)
  -- events of mark domains
  | timedTick (home dom : Nat) | tickMessage (m : Nat) | coolingSweep (home dom cell : Nat)
  | mbindRewrite (home dom : Nat) | munbindHome (home dom : Nat)
  -- gang switch, links and loops
  | gangStop (part : Nat) | falloutCapture (m : Nat) | gangLoad (part : Nat)
  | linkDelivery (core : Nat) (side : Side) | loopInsertion (m : Nat) | slotReservation (m : Nat)
  -- DRAM, repair, a drive given up and samples, on their own
  | hbmRefresh (home bank : Nat) | alertBackOffEnd (home bank : Nat) | liveShift (stack lane : Nat)
  | liveShiftDone (home : Nat) | archiveTimeout (core id : Nat)
  | capturePeriodicSample (home : Bool) (place chan : Nat)
  -- resets and errors
  | deviceReset | maintenanceReset | alertBackOff (home bank : Nat) | linkCrcError (stack lane : Nat)
  -- the outside world
  | hostWindowAccess (place : HostBar) (off len : Nat) (data : Option (List Byte))
  | peerWindowAccess (port off len : Nat) (data : Option (List Byte))
  | peerLinkUp (port : Nat) (serial : BitVec 32) | peerLinkLoss (port : Nat)
  | archiveDriveCompletion (core id : Nat) (status : BitVec 32) (folio : List Byte)
  | d3hotEntry | powerLimit (watts : Nat)
  | attgo | attestReady | nonceWrite (off : Nat) (v : Word)
  -- management writes
  | counterClear (off : Nat) | captureSnap (off : Nat) (v : Word) | captureEnable (off : Nat) (v : Word)
  | inqcfgWrite (queue : Nat) (v : Word) | areaRegisterWrite (off : Nat) (v : Word)
  | formatWindowWrite (off : Nat) (v : Word) | pmapWrite (off : Nat) (v : Word) | hwinWrite (v : Word)
  | arqcfgWrite (drive : Nat) (v : Word) | pwrlimWrite (v : Word) | lanecrcClear (stack lane : Nat)
  | mgmtRegisterWrite (off : Nat) (v : Word)
  | d3hotExit | powerBelowLimit (watts : Nat)
  deriving DecidableEq, Repr

end Sys2Proof
end

