-- ==== Sys2Proof/Config.lean ====
section
/-!
DEFINITION. What one part or one run fixes and the manual leaves open: constants with no body (free values), and
the figures of the package that the manual states.
-/

namespace Sys2Proof.Config

/-- DESIGN CHOICE (log 2): how many core-clock cycles pass before step n. The manual fixes no latency. -/
opaque elapse : Nat → Nat

/-- DESIGN CHOICE (log 1): which of the enabled turns and events comes next at step n, when the agenda names none. -/
opaque choice : Nat → Nat

/-- DESIGN CHOICE (log 2): the constant distance, taken modulo 3, by which place p reads the timebase late
(06 R130, 17 R404: readings differ by at most 2 ns). -/
opaque skew : Nat → Nat

/-- Free 64-bit value number n, for a value the manual leaves open (log 3). -/
opaque freeWord : Nat → BitVec 64

/-- Whether the host answers read number n through region 0xFC with an error completion (18 R415, log 7). -/
opaque hostFails : Nat → Bool

/-- The byte host memory returns: draw number, link, bus address (18 R415, log 7). -/
opaque hostByte : Nat → Nat → Nat → BitVec 8

/-- How a peer answers access number n: 0 performed, 1 Unsupported Request on a bound mark cell, else Unsupported
Request (18 R419, log 7). -/
opaque peerAnswer : Nat → Nat

/-- The byte a peer's memory window returns: draw number, port, offset (18 R419, log 7). -/
opaque peerByte : Nat → Nat → Nat → BitVec 8

/-- The errors the device's check code meets in line read number n from HBM: two bits a sector, 1 corrected,
2 uncorrectable (10 R242, R243, log 7). -/
opaque eccErrors : Nat → BitVec 8

/-- Whether a fused multiply-add of an infinity by a zero with a quiet NaN addend sets NV: IEEE 754-2019 7.2, which
04 R77 follows, leaves it to the implementation (log 8). -/
opaque fmaInvalid : Bool

/-- The bank of a line of a pseudo-channel (10 R250 names banks and no mapping, log 8). -/
opaque bankOf : Nat → Nat

/-- AMAX after a block addition whose sum is a NaN: 09 R216 gives the largest magnitude only (log 16). -/
opaque amaxOfNan : BitVec 32 → BitVec 32

/-- How many slots beyond 16 a loop has (01 R22 gives the width of a slot and no length of a loop, log 54). -/
opaque loopSlots : Nat → Nat

/-- DEVID.SERIAL (18 R414, log 8). -/
opaque serial : BitVec 32

/-- DEVID.STEP (18 R414, log 8). -/
opaque stepping : BitVec 8

/-- Which physical cores a part would like disabled: die, then px + 17·py (01 R19, 16 R403, log 8). -/
opaque faulty : Nat → Nat → Bool
/-- Which of the equally good placements the reset map of a die is (01 R19, log 8). -/
opaque mapChoice : Nat → Nat

/-- Physical cores of a die (01 R19, 16 R403). -/
def dieCores : Nat := 272
/-- Whether physical core px + 17·py of die d is disabled: at most 16 of a die are (01 R19). -/
def disabled (d p : Nat) : Bool := faulty d p && decide (((List.range p).filter (faulty d)).length < 16)
/-- Whether two physical cores of a die are neighbours (16 R403). -/
def physNear (p q : Nat) : Bool :=
  let far (a b : Nat) : Nat := (a - b) + (b - a)
  far (p % 17) (q % 17) + far (p / 17) (q / 17) == 1
/-- Every way to place the first n logical cores of a die, row by row of its 16 by 16 grid, on enabled cores each used once
(01 R19). -/
def placements (d : Nat) : Nat → List (List Nat)
  | 0 => [[]]
  | n + 1 => (placements d n).flatMap (fun l =>
      ((List.range dieCores).filter (fun p => !disabled d p && !l.contains p)).map (fun p => l ++ [p]))
/-- How many neighbours of the logical grid a placement makes physical neighbours. -/
def nearPairs (l : List Nat) : Nat :=
  let at_ (n : Nat) : Nat := l.getD n 0
  ((List.range l.length).map (fun n =>
    (n % 16 != 0 && physNear (at_ n) (at_ (n - 1))).toNat + (decide (16 ≤ n) && physNear (at_ n) (at_ (n - 16))).toNat)).sum
/-- The reset map of a die: of the placements, one that makes as many neighbours of the logical grid physical neighbours as the
disabled set allows (01 R19; DEDUCED, log 8: which one is free). -/
def placeCores (d : Nat) : List Nat :=
  let all := placements d 256
  let best := all.filter (fun l => nearPairs l == (all.map nearPairs).foldl max 0)
  best.getD (mapChoice d % best.length) []
/-- The physical core (px + 17·py) of its die that carries logical core c (01 R15, R16; 16 R403). -/
def physicalCore (c : Nat) : Nat :=
  let x := c % 32
  let y := c / 32 % 32
  (placeCores (x / 16 + 2 * (y / 16))).getD (16 * (y % 16) + x % 16) 0

/-- The device's Ed25519 private key, of which IDKEY is the public half (18 R425, R426, log 8). -/
opaque deviceKey : BitVec 256

/-- SHA-512 digest of the running firmware (18 R425, log 8). -/
opaque firmwareDigest : BitVec 512

/-- The bus address of BAR 4 on a link, which the host assigns (18 R412, R421; log 57). -/
opaque bar4Address : Nat → BitVec 64

/-- Dwords 0 to 2 of completion entry number n, which a drive writes (18 R420; log 57). -/
opaque driveDwords : Nat → BitVec 96

/-- Whether the boot ROM finds the firmware genuine (18 R424, log 8). -/
opaque firmwareBad : Bool

/-- SPARES of stack k after the training that follows draw number d, as number k + 16·d (17 R410, log 6). -/
opaque sparesAfterTraining : Nat → BitVec 64

/-- The bytes memory holds after a reset that follows draw number d, as addresses and bytes (10 R252 keeps none after a
maintenance reset, and the manual says nothing of a device reset; log 25). -/
opaque bytesAfterReset : Nat → List (Nat × BitVec 8)

/-- The attestation counter at reset number n (18 R426: kept across resets, log 6). -/
opaque attestationCount : BitVec 64

/-- Logical cores (01 R15). -/
def cores : Nat := 1024
/-- Frames of 256 KiB in each pseudo-channel (01 R14). -/
def framesPerHome : Nat := 2861
/-- Bytes of a frame and of the smallest page (01 R14, 16 R385). -/
def pageBytes : Nat := 262144
/-- Bytes of a core's scratchpad (01 R21). -/
def spadBytes : Nat := 196608
/-- Entries of a write registry (13 R312). -/
def registrySize : Nat := 8192
/-- Entries of a release directory (16 R399). -/
def directorySize : Nat := 1024
/-- Posted accesses a thread may have outstanding (11 R256). -/
def postedMax : Nat := 32
/-- Slots a trap frame has for entries (15 R367, R368). -/
def entriesMax : Nat := 16
/-- Entries of a crew queue (01 R21). -/
def crewQueueSize : Nat := 16
/-- Entries of a link inbox (05 R110). -/
def inboxSize : Nat := 4
/-- Entries of an arrival queue (14 R348). -/
def arrivalSize : Nat := 8
/-- Operations of an engine queue, and how many run at once (11 R271). -/
def engineQueueSize : Nat := 16
/-- Engine operations that run at once (11 R271). -/
def engineRunning : Nat := 4
/-- Completed operations an engine remembers (11 R273). -/
def engineRemembers : Nat := 64
/-- Entries of a PLB (16 R388). -/
def plbSize : Nat := 64
/-- Wait records a home keeps in SRAM (14 R343). -/
def waitSram : Nat := 2048
/-- Entries of a ready set's heap (14 R333). -/
def heapSize : Nat := 256
/-- Cycles a row handler has to reach HEND (09 R227). -/
def handlerCycles : Nat := 65536
/-- Bytes of a dump record (15 R374). -/
def dumpBytes : Nat := 9216

end Sys2Proof.Config
end

