-- ==== Sys2Proof/WellFormed.lean ====
section
/-!
DEFINITION. The checks of step 6 of 03 R67 that can be made on the instruction alone: accepted prefixes, lookahead,
element types that do not come from FMTR, and the fields each description restricts. An event is never well formed.
-/

namespace Sys2Proof

/-- 03 R56, R58, R59: no reserved round or type code, no empty kind 0x03 prefix, at most two prefixes (R60). -/
def Pfx.ok (p : Pfx) : Bool :=
  p.round != 7
  && (match p.wide with | none => true | some w => w.type.toNat ≤ 26 && !(w.type == 0 && w.sx.isNone))
  && !(p.arith.isSome && p.pred.isSome && p.wide.isSome)

/-- Accepts no prefix at all (03 R69). -/
def Pfx.accNone (p : Pfx) : Bool := p.arith.isNone && p.pred.isNone && p.wide.isNone

/-- Accepts kind 0x02 only. -/
def Pfx.accPred (p : Pfx) : Bool := p.arith.isNone && p.wide.isNone

/-- Accepts kind 0x02, and kind 0x01 for the listed fields (06 R123, 07 R148, 09 R229); kind 0x03 for a type and for
a scale register as listed. -/
def Pfx.acc (p : Pfx) (round sat pass type sx : Bool) : Bool :=
  (match p.arith with
    | none => true
    | some a => (round || sat || pass) && (round || a.round == 0) && (sat || !a.sat) && (pass || !a.pass))
  && (match p.wide with
    | none => true
    | some w => type && (sx || w.sx.isNone))

/-- Long-latency LA (03 R53, R62): 0 where d names z, a link or a crew queue. -/
def laOk (la : BitVec 4) (d : Opn) : Bool := la == 0 || !(256 ≤ d.toNat && d.toNat ≤ 268)

/-- Type set Int of 07 R145. -/
def isIntType (t : BitVec 6) : Bool := (1 ≤ t.toNat && t.toNat ≤ 8) || (16 ≤ t.toNat && t.toNat ≤ 19)
/-- Type set Float of 07 R145. -/
def isFloatType (t : BitVec 6) : Bool := 9 ≤ t.toNat && t.toNat ≤ 11
/-- Plane views pl2 to pl8 (03 R59). -/
def isPlaneType (t : BitVec 6) : Bool := 20 ≤ t.toNat && t.toNat ≤ 26
/-- Types that take a block scale (04 R92). -/
def isBlockScaled (t : BitVec 6) : Bool :=
  t == 1 || t == 2 || (12 ≤ t.toNat && t.toNat ≤ 14) || (16 ≤ t.toNat && t.toNat ≤ 19) || isPlaneType t

/-- Element width in bits (04 R73, R76, R79 to R81); a plane view has its container's width (R83). -/
def typeWidth (t : BitVec 6) : Nat :=
  match t.toNat with
  | 1 | 2 | 12 | 13 | 15 | 23 | 24 | 25 | 26 => 8
  | 3 | 4 | 10 | 11 => 16
  | 5 | 6 | 9 => 32
  | 7 | 8 => 64
  | 14 | 16 | 17 | 21 | 22 => 4
  | 18 | 19 | 20 => 2
  | _ => 8

/-- Registers of a group (03 R72). -/
def groupSize (g : BitVec 2) : Nat := 2 ^ g.toNat

/-- The type prefix of a unit, 0 for none (03 R58). -/
def Pfx.type (p : Pfx) : BitVec 6 := match p.wide with | some w => w.type | none => 0
/-- The scale register of a unit's kind 0x03 prefix (03 R58). -/
def Pfx.sx (p : Pfx) : Option Opn := match p.wide with | some w => w.sx | none => none

/-- Whether the element type does not come from FMTR (07 R144). -/
def Pk.fixed (k : Pk) : Bool := k.p.type != 0 || k.ty != 0
/-- The resolved element type (07 R144). -/
def Pk.resolve (k : Pk) (fmtr : BitVec 6) : BitVec 6 :=
  if k.p.type != 0 then k.p.type else if k.ty != 0 then k.ty.setWidth 6 else fmtr

/-- The encoding rules of VCVT (07 R156 to R159) for the type `dst`. DEDUCED (log 35): under `.mask` a kind 0x03 prefix is
refused like a nonzero width field, since it would name the type that field must leave open. -/
def vcvtLegal (k : Pk) (c : Opn) (src dst : BitVec 6) (mask scl : Bool) : Bool :=
  let n := 128 * groupSize k.g / typeWidth src
  src != 0 && src.toNat ≤ 26
  && (if mask then k.ty == 0 && k.p.wide.isNone && !scl && n ≤ 128
      else dst != 0 && dst.toNat ≤ 19 && n * typeWidth dst ≤ 1024)
  && (if scl then (isBlockScaled src != isBlockScaled dst) && (k.p.sx.isNone || c == 256)
      else c == 256 && k.p.sx.isNone)

/-- Whether a packed instruction accepts the resolved type t (07 R144, R149 to R170); true of every other row. -/
def typeLegal (i : Instr) (t : BitVec 6) : Bool :=
  match i with
  | .vadd .. | .vsub .. | .vmul .. | .vfma .. | .vmin .. | .vmax .. | .vabs .. | .vneg .. | .vred .. =>
    isIntType t || isFloatType t
  | .vcmp _ _ _ cond => (isIntType t && cond.toNat < 6) || isFloatType t
  | .vshl .. | .vshr .. | .vsel .. | .vperm .. | .vbcast .. => isIntType t
  | .vcvt k c src mask scl => vcvtLegal k c src t mask scl
  | .vscale .. => isFloatType t
  | .vexp2 .. | .vrcp .. | .vrsq .. => t == 9
  | .plndec .. => t == 1
  | .vpack .. => (1 ≤ t.toNat && t.toNat ≤ 8) || t == 16 || t == 17
  | .vunpk .. => (1 ≤ t.toNat && t.toNat ≤ 6) || (16 ≤ t.toNat && t.toNat ≤ 19)
  | .vverd _ blk => t == 9 || (t == 11 && !blk)
  | .ladd _ => t == 5 || t == 6 || t == 9
  | _ => true

/-- The common fields of a typed packed instruction; none for an untyped one and for every other row. LADD's type
stands in the same field. -/
def Instr.typed : Instr → Option Pk
  | .vadd k _ _ | .vsub k _ _ | .vmul k _ _ | .vfma k _ _ _ | .vmin k _ _ | .vmax k _ _ | .vabs k | .vneg k
  | .vshl k _ | .vshr k _ | .vcmp k _ _ _ | .vsel k _ _ | .vscale k _ | .vred k _
  | .vexp2 k _ | .vrcp k _ | .vrsq k _ | .vperm k _ | .vbcast k _ | .vpack k _ | .vunpk k _ | .plndec k _ | .vverd k _ =>
    some k
  | .vcvt k _ _ mask _ => if mask then none else some k
  | .ladd o => some ⟨o.p, o.ty, o.g, o.d, o.a⟩
  | _ => none

/-- The resolved type of an instruction on a core with the given FMTR, 0 where it has none (07 R144). -/
def Instr.elemType (i : Instr) (fmtr : BitVec 6) : BitVec 6 :=
  match i.typed with | some k => k.resolve fmtr | none => 0

/-- The operand formats an MMA may name (09 R202). -/
def mmaFormat (f : BitVec 6) : Bool :=
  f == 0 || f == 1 || f == 2 || (10 ≤ f.toNat && f.toNat ≤ 14) || (16 ≤ f.toNat && f.toNat ≤ 26)
/-- The A formats of SMMA (09 R211). -/
def smmaFormat (f : BitVec 6) : Bool :=
  f == 1 || f == 2 || f == 16 || f == 17 || (12 ≤ f.toNat && f.toNat ≤ 14)
/-- The integer class with e2m1 counted in it (09 R202, R218). -/
def isIntegerClass (f : BitVec 6) : Bool :=
  f == 1 || f == 2 || f == 14 || (16 ≤ f.toNat && f.toNat ≤ 26)

/-- M, N, K and output shape code of an MMA or SMMA row (09 R200). -/
structure MmaShape where
  m      : Nat
  n      : Nat
  k      : Nat
  code   : BitVec 3
  sparse : Bool
  deriving DecidableEq, Repr

/-- Elements of a K block (09 R203). -/
def blockSize (b : BitVec 2) : Nat := 16 * 2 ^ b.toNat

/-- The encoding rules of MMA and SMMA (09 R202, R203, R206, R211). -/
def mmaLegal (sh : MmaShape) (o : MmaOps) : Bool :=
  o.p.acc true false true false false && o.p.round != 6
  && (if sh.sparse then smmaFormat o.fa else mmaFormat o.fa) && mmaFormat o.fb
  && blockSize o.ba ≤ sh.k && blockSize o.bb ≤ sh.k
  && (!(o.fa == 10 || o.fa == 11) || o.ba == 0) && (!(o.fb == 10 || o.fb == 11) || o.bb == 0)
  && (o.verd != .none || !o.need)

/-- The shapes of 09 R200. -/
def shapeT32 : MmaShape := ⟨32, 32, 32, 0, false⟩
def shapeT64 : MmaShape := ⟨32, 32, 64, 0, false⟩
def shapeT128 : MmaShape := ⟨32, 32, 128, 0, false⟩
def shapeW : MmaShape := ⟨16, 64, 64, 1, false⟩
def shapeH : MmaShape := ⟨64, 16, 64, 2, false⟩
def shapeQ : MmaShape := ⟨1, 32, 256, 3, false⟩
def shapeQ8 : MmaShape := ⟨8, 32, 128, 4, false⟩
def shapeT16 : MmaShape := ⟨32, 32, 16, 0, false⟩
def shapeST32 : MmaShape := ⟨32, 32, 32, 0, true⟩
def shapeST64 : MmaShape := ⟨32, 32, 64, 0, true⟩
def shapeSQ : MmaShape := ⟨1, 32, 256, 3, true⟩

/-- The status registers that RDS and WRS name (05 R112). -/
def isStatusNumber (n : BitVec 12) : Bool := n.toNat ≤ 0xB || (0x100 ≤ n.toNat && n.toNat ≤ 0x107)

/-- Two-source integer members: LA only on division, prefix by R123. -/
def IntOps.legal (o : IntOps) (sat div : Bool) : Bool :=
  o.p.acc false sat false false false && (if div then laOk o.la o.d else o.la == 0)

/-- Type field and prefix of a packed instruction (03 R58, 07 R149). -/
def Pk.legal (k : Pk) (round sat pass type sx : Bool) : Bool :=
  k.p.acc round sat pass type sx && (k.p.type == 0 || k.ty == 0)

/-- Size, LA and prefix of an S-format access (11 R254, R256). -/
def MemOps.plain (m : MemOps) : Bool := m.p.accPred && m.la == 0

/-- The rules of each row other than the type set (R67 step 6). -/
def rowLegal : Instr → Bool
  | .add o | .sub o | .mul o => o.legal true false
  | .div o | .divu o | .rem o | .remu o => o.legal false true
  | .mulh o | .mulhu o | .and o | .or o | .xor o | .andn o | .shl o | .shr o | .sra o | .rotr o
  | .min o | .max o | .minu o | .maxu o
  | .cmpeq o | .cmpne o | .cmplt o | .cmpltu o | .cmple o | .cmpleu o => o.legal false false
  | .sext o | .zext o =>
    o.legal false false && (match o.b with | .imm v => v.toNat < 64 | .reg _ => true)
  | .abs o => o.p.acc false true false false false
  | .clz o | .ctz o | .popc o | .mov o | .cgeta o | .cgetb o | .cgett o | .cgetp o | .ctest o | .cclrt o
  | .cqflags o => o.p.accPred
  | .bfx o => o.p.accPred && o.pos.toNat + o.len.toNat + 1 ≤ 64
  | .bfi o => o.p.accPred && o.pos.toNat + o.len.toNat + 1 ≤ 64
  | .sel o => o.p.accPred
  | .li p _ _ _ | .liw p _ _ _ | .time p _ | .rand p _ => p.accPred
  | .cseta o | .cunseal o | .csub o | .cqcmp o => o.p.accPred
  | .cseal o _ => o.p.accPred
  | .cinc o | .csetb o => o.legal false false
  | .candp o => o.legal false false && (match o.b with | .imm v => v.toNat < 4096 | .reg _ => true)
  | .vadd k _ _ | .vsub k _ _ | .vmul k _ _ | .vfma k _ _ _ | .vmin k _ _ | .vmax k _ _ =>
    k.legal true true true true false
  | .vabs k | .vneg k => k.legal false true true true false
  | .vand k _ _ | .vor k _ _ | .vxor k _ _ => k.legal false false false false false && k.ty == 0
  | .vshl k b | .vshr k b =>
    k.legal false false false true false && (match b with | .imm v => v.toNat < 64 | .reg _ => true)
  | .vcmp k _ _ _ => k.legal false false true true false
  | .vsel k _ _ => k.legal false false false true false
  | .vcvt k _ _ _ _ => k.legal true true true true true
  | .vscale k b => k.legal true true true true true && (k.p.sx.isNone || b == 256)
  | .vred k op => k.legal true true true true false && op != 3
  | .vexp2 k la | .vrcp k la | .vrsq k la => k.legal false false true false false && laOk la k.d
  | .vperm k _ | .vbcast k _ | .vunpk k _ => k.legal false false false true false
  | .vpack k _ => k.legal false true false true false
  | .plnenc k => k.legal false false false false false && k.ty == 1 && k.g == 3
  | .plndec k n =>
    k.legal false false false false false && k.g == 3 && 2 ≤ n.toNat && n.toNat ≤ 8
  | .vverd k _ => k.legal false false false false false
  | .lld o =>
    o.p.accPred && o.ty == 0 && laOk o.la o.d && (match o.b with | .imm v => v.toNat < 1024 | .reg _ => true)
  | .lst o =>
    o.p.accPred && o.ty == 0 && o.la == 0 && (match o.b with | .imm v => v.toNat < 1024 | .reg _ => true)
  | .ladd o =>
    o.p.acc true true true false false && o.la == 0 && (match o.b with | .imm v => v.toNat < 1024 | .reg _ => true)
  | .cqpack p _ _ dims | .cqsetd p _ _ dims => p.accPred && 2 ≤ dims.toNat && dims.toNat ≤ 8
  | .cqext p _ _ _ _ | .cqadd p _ _ _ _ | .cqsub p _ _ _ _ | .cqtrunc p _ _ _ _ => p.accPred
  | .cqinbox o => o.p.accPred && o.la == 0
  | .cqnext o => o.p.accPred && laOk o.la o.d
  | .cqsplit o => o.p.accPred && laOk o.la o.d && 1 ≤ o.limit.toNat && o.limit.toNat ≤ 256
  | .ld m sz sx go =>
    m.p.accPred && sz.toNat ≤ 5 && (!sx || sz.toNat ≤ 3) && (if go then m.la == 0 else laOk m.la m.d)
  | .st m sz _ => m.plain && sz.toNat ≤ 5
  | .lda m sz | .stl m sz => m.plain && sz.toNat ≤ 4
  | .ldcap m => m.p.accPred && laOk m.la m.d
  | .stcap m | .wld m _ | .fill m | .empty m | .fest m | .pref m _ | .zline m | .mig m => m.plain
  | .amo o => o.p.accPred && (if o.ord == .rlx then laOk o.la o.d else o.la == 0)
  | .cas o => o.p.accPred && (if o.ord == .rlx then laOk o.la o.d else o.la == 0)
  | .waitne o => o.p.accPred
  | .fence p _ _ => p.accPred
  | .topkins o => o.p.accPred && laOk o.la o.d
  | .copy o | .arcout o => o.p.accPred
  | .arcin o => o.p.accPred
  | .arcdrop o => o.p.accPred
  | .engst o => o.p.accPred && laOk o.la o.d
  | .wayconv p _ _ n => p.accPred && n.toNat ≤ 8
  | .mdep o | .merase o => o.p.accPred && o.la == 0
  | .mread o => o.p.accPred && laOk o.la o.d
  | .msense o | .msamp o => o.p.accPred && laOk o.la o.d
  | .mtick o | .mbind o => o.p.accPred
  | .munbind p _ _ => p.accPred
  | .mmaT32 o => mmaLegal shapeT32 o | .mmaT64 o => mmaLegal shapeT64 o | .mmaT128 o => mmaLegal shapeT128 o
  | .mmaW o => mmaLegal shapeW o | .mmaH o => mmaLegal shapeH o | .mmaQ o => mmaLegal shapeQ o
  | .mmaQ8 o => mmaLegal shapeQ8 o | .mmaT16 o => mmaLegal shapeT16 o | .smmaT32 o => mmaLegal shapeST32 o
  | .smmaT64 o => mmaLegal shapeST64 o | .smmaQ o => mmaLegal shapeSQ o
  | .macz p _ _ => p.accPred
  | .macld o => o.p.acc false false true false false && o.shape.toNat ≤ 4
  | .macst o => o.p.acc true true false false false && o.p.round != 6
  | .mdrain p _ _ _ | .mhset p _ _ => p.accPred
  | .vbound o => o.p.accPred && isIntegerClass o.fa && isIntegerClass o.fb
  | .spawn _ _ cl => cl.toNat ≤ 63 || cl == 255
  | .crew _ (some n) => 2 ≤ n.toNat && n.toNat ≤ 8
  | .halt (.imm v) => v.toNat < 256
  | .rds _ n | .wrs _ n => isStatusNumber n
  | .br .. | .beq .. | .bne .. | .blt .. | .bge .. | .bltu .. | .bgeu .. | .bz .. | .bnz ..
  | .call .. | .jmpc .. | .loop .. | .nop | .hend | .yield .. | .endTask .. | .join .. | .leave .. | .gbar ..
  | .crew _ none | .qstatSet .. | .qstatTask .. | .sleep .. | .trap .. | .rte .. | .repart .. | .plbinv ..
  | .gang .. | .dump .. | .halt (.reg _) | .brk .. | .leaseAdd .. | .leaseDrop ..
  | .leaseUnmap .. | .leaseUnmapForce .. | .leaseDom .. | .pgmove .. => true
  | _ => false

/-- The prefixes of an instruction; no prefix where it can have none. -/
def Instr.pfx : Instr → Pfx
  | .add o | .sub o | .mul o | .mulh o | .mulhu o | .div o | .divu o | .rem o | .remu o
  | .and o | .or o | .xor o | .andn o | .shl o | .shr o | .sra o | .rotr o | .min o | .max o | .minu o | .maxu o
  | .sext o | .zext o | .cmpeq o | .cmpne o | .cmplt o | .cmpltu o | .cmple o | .cmpleu o
  | .cinc o | .csetb o | .candp o => o.p
  | .clz o | .ctz o | .popc o | .abs o | .mov o | .cgeta o | .cgetb o | .cgett o | .cgetp o | .ctest o | .cclrt o
  | .cqflags o => o.p
  | .bfx o => o.p | .bfi o => o.p | .sel o => o.p
  | .li p _ _ _ | .liw p _ _ _ | .time p _ | .rand p _ => p
  | .cseta o | .cunseal o | .csub o | .cqcmp o => o.p
  | .cseal o _ => o.p
  | .vadd k _ _ | .vsub k _ _ | .vmul k _ _ | .vfma k _ _ _ | .vmin k _ _ | .vmax k _ _ | .vabs k | .vneg k
  | .vand k _ _ | .vor k _ _ | .vxor k _ _ | .vshl k _ | .vshr k _ | .vcmp k _ _ _ | .vsel k _ _
  | .vcvt k _ _ _ _ | .vscale k _ | .vred k _ | .vexp2 k _ | .vrcp k _ | .vrsq k _ | .vperm k _ | .vbcast k _
  | .vpack k _ | .vunpk k _ | .plnenc k | .plndec k _ | .vverd k _ => k.p
  | .lld o | .lst o | .ladd o => o.p
  | .cqpack p _ _ _ | .cqext p _ _ _ _ | .cqadd p _ _ _ _ | .cqsub p _ _ _ _ | .cqsetd p _ _ _
  | .cqtrunc p _ _ _ _ => p
  | .cqinbox o | .cqnext o => o.p | .cqsplit o => o.p
  | .ld m _ _ _ | .st m _ _ | .lda m _ | .stl m _ | .ldcap m | .stcap m | .wld m _ | .fill m | .empty m
  | .fest m | .pref m _ | .zline m | .mig m => m.p
  | .amo o => o.p | .cas o => o.p | .waitne o => o.p | .fence p _ _ => p | .topkins o => o.p
  | .copy o | .arcout o => o.p | .arcin o => o.p | .arcdrop o => o.p | .engst o => o.p | .wayconv p _ _ _ => p
  | .mdep o | .merase o | .mread o => o.p | .msense o | .msamp o => o.p | .mtick o | .mbind o => o.p
  | .munbind p _ _ => p
  | .mmaT32 o | .mmaT64 o | .mmaT128 o | .mmaW o | .mmaH o | .mmaQ o | .mmaQ8 o | .mmaT16 o
  | .smmaT32 o | .smmaT64 o | .smmaQ o => o.p
  | .macz p _ _ => p | .macld o => o.p | .macst o => o.p | .mdrain p _ _ _ | .mhset p _ _ => p
  | .vbound o => o.p
  | _ => Pfx.empty

/-- The checks of step 6 of R67 that do not need FMTR. -/
def wellFormed (i : Instr) : Bool :=
  i.pfx.ok && rowLegal i
  && (match i with
      | .vcvt _ _ _ true _ => typeLegal i 0
      | _ => match i.typed with
        | some k => !k.fixed || typeLegal i (k.resolve 0)
        | none => true)

end Sys2Proof
end

