-- ==== Sys2Proof/Decode.lean ====
section
/-!
DEFINITION. Decoding of a unit from the bytes of its fetch block in the order of 03 R67 (steps 1 to 6; operand
numbers are step 7, made at issue), the boundaries of a block (R63 to R66), and the encoder.
-/

namespace Sys2Proof

/-- The number stored in little-endian bytes (00 R5). -/
def leNat : List Byte → Nat
  | [] => 0
  | b :: r => b.toNat + 256 * leNat r

/-- n little-endian bytes of a number (00 R5). -/
def leBytes : Nat → Nat → List Byte
  | 0, _ => []
  | n + 1, v => BitVec.ofNat 8 v :: leBytes n (v / 256)

/-- The first eight bytes as a word. -/
def leWord (l : List Byte) : Word := BitVec.ofNat 64 (leNat (l.take 8))

/-- Instruction formats (03 R47). -/
inductive Fmt where
  | s | m | l
  deriving DecidableEq, Repr

/-- Bytes of an instruction word (03 R47). -/
def Fmt.len : Fmt → Nat
  | .s => 8 | .m => 12 | .l => 16

/-- Bytes of the word whose first byte has these length bits (03 R47). -/
def lengthOf (b : Byte) : Nat :=
  match (b.toNat % 4) with
  | 0 => 8 | 1 => 8 | 2 => 12 | _ => 16

/-- The format of an assigned opcode (03 R68). -/
def formatOf (op : Nat) : Option Fmt :=
  if op ∈ [0x1C, 0x1D, 0x24, 0x26, 0x31, 0x32, 0x33, 0x34, 0x35, 0x36, 0x39, 0x53, 0x5E, 0x5F, 0x70, 0x75, 0x76,
      0x87, 0x90, 0xA1, 0xA2, 0xCC, 0xCD, 0xCF, 0xD1, 0xE0] then some .m
  else if op ∈ [0x27, 0x77, 0x91, 0x92, 0x93, 0xC0, 0xC1, 0xC2, 0xC3, 0xC4, 0xC5, 0xC6, 0xC7, 0xC8, 0xC9, 0xCA,
      0xF6, 0xFA] then some .l
  else if (1 ≤ op && op ≤ 0x29) || (0x30 ≤ op && op ≤ 0x3C) || (0x40 ≤ op && op ≤ 0x4C) || (0x50 ≤ op && op ≤ 0x6E)
      || (0x70 ≤ op && op ≤ 0x7A) || (0x80 ≤ op && op ≤ 0x97) || (0xA0 ≤ op && op ≤ 0xA7)
      || (0xC0 ≤ op && op ≤ 0xD1) || (0xE0 ≤ op && op ≤ 0xE8) || (0xF0 ≤ op && op ≤ 0xFB) then some .s
  else none

/-- The families before which any prefix is ORPHAN_PREFIX (03 R60). -/
def noPrefixFamily (op : Nat) : Bool :=
  (0x30 ≤ op && op ≤ 0x3C) || (0xE0 ≤ op && op ≤ 0xE8) || (0xF0 ≤ op && op ≤ 0xFB)

/-- An instruction word cut into the fields of 03 R48. -/
inductive Raw where
  | s (op : BitVec 8) (la : BitVec 4) (d a b : Opn) (md : BitVec 7) (imm : BitVec 16)
  | m (op : BitVec 8) (la : BitVec 4) (d a b c : Opn) (md : BitVec 14) (imm : BitVec 32)
  | l (op : BitVec 8) (la : BitVec 4) (d a b c e : Opn) (md : BitVec 5) (imm : Word)
  deriving DecidableEq, Repr

/-- The first 64 bits of a word (03 R48). -/
def Raw.lo : Raw → Word
  | .s op la d a b md imm => imm ++ md ++ b ++ a ++ d ++ la ++ op ++ (1 : BitVec 2)
  | .m op la d a b c md _ => md ++ c ++ b ++ a ++ d ++ la ++ op ++ (2 : BitVec 2)
  | .l op la d a b c e md _ => md ++ e ++ c ++ b ++ a ++ d ++ la ++ op ++ (3 : BitVec 2)

/-- The bytes of a word (03 R48, 00 R5). -/
def Raw.bytes (r : Raw) : List Byte :=
  leBytes 8 r.lo.toNat ++
    match r with
    | .s .. => []
    | .m _ _ _ _ _ _ _ imm => leBytes 4 imm.toNat
    | .l _ _ _ _ _ _ _ _ imm => leBytes 8 imm.toNat

/-- The opcode of a word, bits [9:2] (03 R48). -/
def opcodeOf (w : Word) : Nat := (w.extractLsb' 2 8).toNat

/-- A word cut into its fields; the bytes are those from the word's first. -/
def rawOf (f : Fmt) (l : List Byte) : Raw :=
  let w := leWord l
  let op := w.extractLsb' 2 8
  let la := w.extractLsb' 10 4
  let d := w.extractLsb' 14 9
  let a := w.extractLsb' 23 9
  let b := w.extractLsb' 32 9
  match f with
  | .s => .s op la d a b (w.extractLsb' 41 7) (w.extractLsb' 48 16)
  | .m => .m op la d a b (w.extractLsb' 41 9) (w.extractLsb' 50 14) (BitVec.ofNat 32 (leNat ((l.drop 8).take 4)))
  | .l => .l op la d a b (w.extractLsb' 41 9) (w.extractLsb' 50 9) (w.extractLsb' 59 5) (leWord (l.drop 8))

/-- The prefix words that begin a unit, and the bytes after them. -/
def scanPrefixes : List Byte → List Word × List Byte
  | b0 :: b1 :: b2 :: b3 :: b4 :: b5 :: b6 :: b7 :: r =>
    if b0.toNat % 4 = 0 then
      let x := scanPrefixes r
      (leWord [b0, b1, b2, b3, b4, b5, b6, b7] :: x.1, x.2)
    else ([], b0 :: b1 :: b2 :: b3 :: b4 :: b5 :: b6 :: b7 :: r)
  | l => ([], l)

/-- Whether a prefix kind is assigned (03 R55). -/
def kindAssigned (w : Word) : Bool := 1 ≤ opcodeOf w && opcodeOf w ≤ 3

/-- One prefix word added to the prefixes of a unit; none where R55 to R60 make it ILLEGAL_ENCODING. -/
def addPrefix (w : Word) (p : Pfx) : Option Pfx :=
  match opcodeOf w with
  | 1 =>
    if p.arith.isSome || w.extractLsb' 15 49 != 0 then none
    else some { p with arith := some ⟨w.extractLsb' 10 3, w.getLsbD 13, w.getLsbD 14⟩ }
  | 2 =>
    if p.pred.isSome || w.extractLsb' 20 44 != 0 then none
    else some { p with pred := some ⟨w.extractLsb' 11 9, w.getLsbD 10⟩ }
  | 3 =>
    if p.wide.isSome || w.extractLsb' 26 38 != 0 || (!w.getLsbD 16 && w.extractLsb' 17 9 != 0) then none
    else
      let v : Wide := ⟨w.extractLsb' 10 6, if w.getLsbD 16 then some (w.extractLsb' 17 9) else none⟩
      some { p with wide := some v }
  | _ => none

/-- The prefixes of a unit. -/
def pfxOf : List Word → Option Pfx
  | [] => some Pfx.empty
  | [w] => addPrefix w Pfx.empty
  | [w, x] => (addPrefix w Pfx.empty).bind (addPrefix x)
  | _ => none

/-- The word of a kind 0x01 prefix (03 R56). -/
def Arith.word (a : Arith) : Word :=
  (0 : BitVec 49) ++ BitVec.ofBool a.pass ++ BitVec.ofBool a.sat ++ a.round ++ (1 : BitVec 8) ++ (0 : BitVec 2)
/-- The word of a kind 0x02 prefix (03 R57). -/
def Pred.word (p : Pred) : Word :=
  (0 : BitVec 44) ++ p.kp ++ BitVec.ofBool p.ifz ++ (2 : BitVec 8) ++ (0 : BitVec 2)
/-- The word of a kind 0x03 prefix (03 R58). -/
def Wide.word (w : Wide) : Word :=
  (0 : BitVec 38) ++ (match w.sx with | some r => r | none => 0) ++ BitVec.ofBool w.sx.isSome ++ w.type
    ++ (3 : BitVec 8) ++ (0 : BitVec 2)

/-- The prefix words of a unit, in ascending kind order. -/
def Pfx.words (p : Pfx) : List Word :=
  (match p.arith with | some a => [a.word] | none => []) ++
  (match p.pred with | some q => [q.word] | none => []) ++
  (match p.wide with | some v => [v.word] | none => [])

/-- Register b or imm16 by the immediate bit (03 R71). -/
def srcB (im : Bool) (b : Opn) (imm : BitVec 16) : SrcB := if im then .imm imm else .reg b
/-- The b field of a source: 256 where an immediate replaces it (03 R49). -/
def SrcB.fld : SrcB → Opn | .reg b => b | .imm _ => 256
/-- The imm16 field of a source. -/
def SrcB.im : SrcB → BitVec 16 | .reg _ => 0 | .imm v => v
/-- Whether a source is an immediate. -/
def SrcB.isImm : SrcB → Bool | .reg _ => false | .imm _ => true

/-- AMO operations by their code (11 R263). -/
def AmoFn.all : List AmoFn := [.add, .and, .or, .xor, .max, .min, .maxu, .minu, .swap]
/-- The code of an AMO operation (11 R263). -/
def AmoFn.code : AmoFn → BitVec 4
  | .add => 0 | .and => 1 | .or => 2 | .xor => 3 | .max => 4 | .min => 5 | .maxu => 6 | .minu => 7 | .swap => 8
/-- Orders by their code (11 R263). -/
def Ord.ofCode (c : BitVec 2) : Ord := match c.toNat with | 0 => .rlx | 1 => .acq | 2 => .rel | _ => .acqrel
/-- The code of an order (11 R263). -/
def Ord.code : Ord → BitVec 2 | .rlx => 0 | .acq => 1 | .rel => 2 | .acqrel => 3
/-- Kinds of FENCE by their code (11 R262). -/
def FenceKind.ofCode (c : BitVec 2) : Option FenceKind :=
  match c.toNat with | 0 => some .rel | 1 => some .acq | 2 => some .full | _ => none
/-- The code of a FENCE kind (11 R262). -/
def FenceKind.code : FenceKind → BitVec 2 | .rel => 0 | .acq => 1 | .full => 2
/-- Scopes of FENCE by their code (11 R262). -/
def FenceScope.ofCode (c : BitVec 2) : FenceScope :=
  match c.toNat with | 0 => .core | 1 => .clu | 2 => .dev | _ => .sys
/-- The code of a FENCE scope (11 R262). -/
def FenceScope.code : FenceScope → BitVec 2 | .core => 0 | .clu => 1 | .dev => 2 | .sys => 3
/-- Completion modes by their code (11 R272). -/
def Compl.ofCode (c : BitVec 2) : Option Compl :=
  match c.toNat with | 0 => some .none | 1 => some .write | 2 => some .fill | _ => Option.none
/-- The code of a completion mode (11 R272). -/
def Compl.code : Compl → BitVec 2 | .none => 0 | .write => 1 | .fill => 2
/-- Predicates by their code (09 R206). -/
def Verd.ofCode (c : BitVec 2) : Verd := match c.toNat with | 0 => .none | 1 => .sign | 2 => .ge | _ => .topk
/-- The code of a predicate (09 R206). -/
def Verd.code : Verd → BitVec 2 | .none => 0 | .sign => 1 | .ge => 2 | .topk => 3
/-- Scopes of PLBINV by their code (16 R394). -/
def PlbScope.ofCode (c : BitVec 2) : Option PlbScope :=
  match c.toNat with | 0 => some .page | 1 => some .dom | 2 => some .all | _ => none
/-- The code of a PLBINV scope (16 R394). -/
def PlbScope.code : PlbScope → BitVec 2 | .page => 0 | .dom => 1 | .all => 2

/-- The optional instruction under a condition on bits that must be 0. -/
def ifz (c : Bool) (i : Instr) : Option Instr := if c then some i else none

/-- The fields of an MMA or SMMA from imm64 (09 R206). -/
def mmaOps (p : Pfx) (d a b c e : Opn) (imm : Word) : MmaOps :=
  ⟨p, d, a, b, c, e, imm.extractLsb' 0 16, imm.extractLsb' 16 16, imm.extractLsb' 32 6, imm.extractLsb' 38 6,
    imm.extractLsb' 44 2, imm.extractLsb' 46 2, Verd.ofCode (imm.extractLsb' 48 2), imm.getLsbD 50, imm.getLsbD 51⟩
/-- imm64 of an MMA or SMMA (09 R206). -/
def MmaOps.imm (o : MmaOps) : Word :=
  (0 : BitVec 12) ++ BitVec.ofBool o.zero ++ BitVec.ofBool o.need ++ o.verd.code ++ o.bb ++ o.ba ++ o.fb ++ o.fa
    ++ o.stb ++ o.sta

/-- Format S: integer, control and capability families (06 R124, R132, R136). -/
def buildScalar (op : Nat) (p : Pfx) (la : BitVec 4) (d a b : Opn) (md : BitVec 7) (imm : BitVec 16) : Option Instr :=
  match op with
  | 0x01 => ifz (md.extractLsb' 1 6 == 0) (.add ⟨p, la, d, a, srcB (md.getLsbD 0) b imm⟩)
  | 0x02 => ifz (md.extractLsb' 1 6 == 0) (.sub ⟨p, la, d, a, srcB (md.getLsbD 0) b imm⟩)
  | 0x03 => ifz (md.extractLsb' 1 6 == 0) (.mul ⟨p, la, d, a, srcB (md.getLsbD 0) b imm⟩)
  | 0x04 => ifz (md.extractLsb' 1 6 == 0) (.mulh ⟨p, la, d, a, srcB (md.getLsbD 0) b imm⟩)
  | 0x05 => ifz (md.extractLsb' 1 6 == 0) (.mulhu ⟨p, la, d, a, srcB (md.getLsbD 0) b imm⟩)
  | 0x06 => ifz (md.extractLsb' 1 6 == 0) (.div ⟨p, la, d, a, srcB (md.getLsbD 0) b imm⟩)
  | 0x07 => ifz (md.extractLsb' 1 6 == 0) (.divu ⟨p, la, d, a, srcB (md.getLsbD 0) b imm⟩)
  | 0x08 => ifz (md.extractLsb' 1 6 == 0) (.rem ⟨p, la, d, a, srcB (md.getLsbD 0) b imm⟩)
  | 0x09 => ifz (md.extractLsb' 1 6 == 0) (.remu ⟨p, la, d, a, srcB (md.getLsbD 0) b imm⟩)
  | 0x0A => ifz (md.extractLsb' 1 6 == 0) (.and ⟨p, la, d, a, srcB (md.getLsbD 0) b imm⟩)
  | 0x0B => ifz (md.extractLsb' 1 6 == 0) (.or ⟨p, la, d, a, srcB (md.getLsbD 0) b imm⟩)
  | 0x0C => ifz (md.extractLsb' 1 6 == 0) (.xor ⟨p, la, d, a, srcB (md.getLsbD 0) b imm⟩)
  | 0x0D => ifz (md.extractLsb' 1 6 == 0) (.andn ⟨p, la, d, a, srcB (md.getLsbD 0) b imm⟩)
  | 0x0E => ifz (md.extractLsb' 1 6 == 0) (.shl ⟨p, la, d, a, srcB (md.getLsbD 0) b imm⟩)
  | 0x0F => ifz (md.extractLsb' 1 6 == 0) (.shr ⟨p, la, d, a, srcB (md.getLsbD 0) b imm⟩)
  | 0x10 => ifz (md.extractLsb' 1 6 == 0) (.sra ⟨p, la, d, a, srcB (md.getLsbD 0) b imm⟩)
  | 0x11 => ifz (md.extractLsb' 1 6 == 0) (.rotr ⟨p, la, d, a, srcB (md.getLsbD 0) b imm⟩)
  | 0x12 => ifz (md.extractLsb' 1 6 == 0) (.min ⟨p, la, d, a, srcB (md.getLsbD 0) b imm⟩)
  | 0x13 => ifz (md.extractLsb' 1 6 == 0) (.max ⟨p, la, d, a, srcB (md.getLsbD 0) b imm⟩)
  | 0x14 => ifz (md.extractLsb' 1 6 == 0) (.minu ⟨p, la, d, a, srcB (md.getLsbD 0) b imm⟩)
  | 0x15 => ifz (md.extractLsb' 1 6 == 0) (.maxu ⟨p, la, d, a, srcB (md.getLsbD 0) b imm⟩)
  | 0x16 => ifz (md == 0 && la == 0) (.clz ⟨p, d, a⟩)
  | 0x17 => ifz (md == 0 && la == 0) (.ctz ⟨p, d, a⟩)
  | 0x18 => ifz (md == 0 && la == 0) (.popc ⟨p, d, a⟩)
  | 0x19 => ifz (md == 0 && la == 0) (.abs ⟨p, d, a⟩)
  | 0x1A => ifz (md.extractLsb' 1 6 == 0) (.sext ⟨p, la, d, a, srcB (md.getLsbD 0) b imm⟩)
  | 0x1B => ifz (md.extractLsb' 1 6 == 0) (.zext ⟨p, la, d, a, srcB (md.getLsbD 0) b imm⟩)
  | 0x1E => ifz (md.extractLsb' 1 6 == 0) (.cmpeq ⟨p, la, d, a, srcB (md.getLsbD 0) b imm⟩)
  | 0x1F => ifz (md.extractLsb' 1 6 == 0) (.cmpne ⟨p, la, d, a, srcB (md.getLsbD 0) b imm⟩)
  | 0x20 => ifz (md.extractLsb' 1 6 == 0) (.cmplt ⟨p, la, d, a, srcB (md.getLsbD 0) b imm⟩)
  | 0x21 => ifz (md.extractLsb' 1 6 == 0) (.cmpltu ⟨p, la, d, a, srcB (md.getLsbD 0) b imm⟩)
  | 0x22 => ifz (md.extractLsb' 1 6 == 0) (.cmple ⟨p, la, d, a, srcB (md.getLsbD 0) b imm⟩)
  | 0x23 => ifz (md.extractLsb' 1 6 == 0) (.cmpleu ⟨p, la, d, a, srcB (md.getLsbD 0) b imm⟩)
  | 0x25 => ifz (md == 0 && la == 0) (.mov ⟨p, d, a⟩)
  | 0x28 => ifz (md == 0 && la == 0) (.time p d)
  | 0x29 => ifz (md == 0 && la == 0) (.rand p d)
  | 0x30 => ifz (md == 0 && la == 0) (.br imm)
  | 0x37 => ifz (md == 0 && la == 0) (.bz a imm)
  | 0x38 => ifz (md == 0 && la == 0) (.bnz a imm)
  | 0x3A => ifz (md == 0 && la == 0) (.jmpc d a)
  | 0x3B => ifz (md == 0 && la == 0) (.loop d imm)
  | 0x3C => ifz (md == 0 && la == 0 && d == 0 && a == 0 && b == 0 && imm == 0) .nop
  | 0x40 => ifz (md == 0 && la == 0) (.cgeta ⟨p, d, a⟩)
  | 0x41 => ifz (md == 0 && la == 0) (.cgetb ⟨p, d, a⟩)
  | 0x42 => ifz (md == 0 && la == 0) (.cgett ⟨p, d, a⟩)
  | 0x43 => ifz (md == 0 && la == 0) (.cgetp ⟨p, d, a⟩)
  | 0x44 => ifz (md == 0 && la == 0) (.cseta ⟨p, d, a, b⟩)
  | 0x45 => ifz (md.extractLsb' 1 6 == 0) (.cinc ⟨p, la, d, a, srcB (md.getLsbD 0) b imm⟩)
  | 0x46 => ifz (md.extractLsb' 1 6 == 0) (.csetb ⟨p, la, d, a, srcB (md.getLsbD 0) b imm⟩)
  | 0x47 => ifz (md.extractLsb' 1 6 == 0) (.candp ⟨p, la, d, a, srcB (md.getLsbD 0) b imm⟩)
  | 0x48 => ifz ((md == 0 || md == 2) && la == 0) (.cseal ⟨p, d, a, b⟩ (md.getLsbD 1))
  | 0x49 => ifz (md == 0 && la == 0) (.cunseal ⟨p, d, a, b⟩)
  | 0x4A => ifz (md == 0 && la == 0) (.ctest ⟨p, d, a⟩)
  | 0x4B => ifz (md == 0 && la == 0) (.cclrt ⟨p, d, a⟩)
  | 0x4C => ifz (md == 0 && la == 0) (.csub ⟨p, d, a, b⟩)
  | _ => none

/-- Format S: packed and curve families (07 R149, 08 R179). -/
def buildPacked (op : Nat) (p : Pfx) (la : BitVec 4) (d a b : Opn) (md : BitVec 7) (imm : BitVec 16) : Option Instr :=
  match op with
  | 0x50 => ifz (la == 0 && imm == 0) (.vadd ⟨p, md.extractLsb' 0 4, md.extractLsb' 4 2, d, a⟩ b (md.getLsbD 6))
  | 0x51 => ifz (la == 0 && imm == 0) (.vsub ⟨p, md.extractLsb' 0 4, md.extractLsb' 4 2, d, a⟩ b (md.getLsbD 6))
  | 0x52 => ifz (la == 0 && imm == 0) (.vmul ⟨p, md.extractLsb' 0 4, md.extractLsb' 4 2, d, a⟩ b (md.getLsbD 6))
  | 0x54 => ifz (la == 0 && imm == 0) (.vmin ⟨p, md.extractLsb' 0 4, md.extractLsb' 4 2, d, a⟩ b (md.getLsbD 6))
  | 0x55 => ifz (la == 0 && imm == 0) (.vmax ⟨p, md.extractLsb' 0 4, md.extractLsb' 4 2, d, a⟩ b (md.getLsbD 6))
  | 0x56 => ifz (la == 0 && imm == 0 && !md.getLsbD 6) (.vabs ⟨p, md.extractLsb' 0 4, md.extractLsb' 4 2, d, a⟩)
  | 0x57 => ifz (la == 0 && imm == 0 && !md.getLsbD 6) (.vneg ⟨p, md.extractLsb' 0 4, md.extractLsb' 4 2, d, a⟩)
  | 0x58 => ifz (la == 0 && imm == 0) (.vand ⟨p, md.extractLsb' 0 4, md.extractLsb' 4 2, d, a⟩ b (md.getLsbD 6))
  | 0x59 => ifz (la == 0 && imm == 0) (.vor ⟨p, md.extractLsb' 0 4, md.extractLsb' 4 2, d, a⟩ b (md.getLsbD 6))
  | 0x5A => ifz (la == 0 && imm == 0) (.vxor ⟨p, md.extractLsb' 0 4, md.extractLsb' 4 2, d, a⟩ b (md.getLsbD 6))
  | 0x5B => ifz (la == 0 && (md.getLsbD 6 || imm == 0)) (.vshl ⟨p, md.extractLsb' 0 4, md.extractLsb' 4 2, d, a⟩ (srcB (md.getLsbD 6) b imm))
  | 0x5C => ifz (la == 0 && (md.getLsbD 6 || imm == 0)) (.vshr ⟨p, md.extractLsb' 0 4, md.extractLsb' 4 2, d, a⟩ (srcB (md.getLsbD 6) b imm))
  | 0x5D => ifz (la == 0 && imm.extractLsb' 3 13 == 0) (.vcmp ⟨p, md.extractLsb' 0 4, md.extractLsb' 4 2, d, a⟩ b (md.getLsbD 6) (imm.extractLsb' 0 3))
  | 0x60 => ifz (la == 0 && imm == 0 && !md.getLsbD 6) (.vscale ⟨p, md.extractLsb' 0 4, md.extractLsb' 4 2, d, a⟩ b)
  | 0x61 => ifz (la == 0 && imm.extractLsb' 2 14 == 0 && !md.getLsbD 6) (.vred ⟨p, md.extractLsb' 0 4, md.extractLsb' 4 2, d, a⟩ (imm.extractLsb' 0 2))
  | 0x62 => ifz (imm == 0 && !md.getLsbD 6) (.vexp2 ⟨p, md.extractLsb' 0 4, md.extractLsb' 4 2, d, a⟩ la)
  | 0x63 => ifz (imm == 0 && !md.getLsbD 6) (.vrcp ⟨p, md.extractLsb' 0 4, md.extractLsb' 4 2, d, a⟩ la)
  | 0x64 => ifz (imm == 0 && !md.getLsbD 6) (.vrsq ⟨p, md.extractLsb' 0 4, md.extractLsb' 4 2, d, a⟩ la)
  | 0x65 => ifz (la == 0 && imm == 0 && !md.getLsbD 6) (.vperm ⟨p, md.extractLsb' 0 4, md.extractLsb' 4 2, d, a⟩ b)
  | 0x66 => ifz (la == 0 && (md.getLsbD 6 || imm == 0)) (.vbcast ⟨p, md.extractLsb' 0 4, md.extractLsb' 4 2, d, a⟩ (srcB (md.getLsbD 6) b imm))
  | 0x67 => ifz (la == 0 && imm == 0 && !md.getLsbD 6) (.vpack ⟨p, md.extractLsb' 0 4, md.extractLsb' 4 2, d, a⟩ b)
  | 0x68 => ifz (la == 0 && imm == 0) (.vunpk ⟨p, md.extractLsb' 0 4, md.extractLsb' 4 2, d, a⟩ (md.getLsbD 6))
  | 0x69 => ifz (la == 0 && imm == 0 && !md.getLsbD 6) (.plnenc ⟨p, md.extractLsb' 0 4, md.extractLsb' 4 2, d, a⟩)
  | 0x6A => ifz (la == 0 && imm.extractLsb' 4 12 == 0 && !md.getLsbD 6) (.plndec ⟨p, md.extractLsb' 0 4, md.extractLsb' 4 2, d, a⟩ (imm.extractLsb' 0 4))
  | 0x6B => ifz (la == 0 && imm == 0) (.vverd ⟨p, md.extractLsb' 0 4, md.extractLsb' 4 2, d, a⟩ (md.getLsbD 6))
  | 0x6C => ifz (md.getLsbD 6 || imm == 0) (.lld ⟨p, la, md.extractLsb' 0 4, md.extractLsb' 4 2, d, a, srcB (md.getLsbD 6) b imm⟩)
  | 0x6D => ifz (md.getLsbD 6 || imm == 0) (.lst ⟨p, la, md.extractLsb' 0 4, md.extractLsb' 4 2, d, a, srcB (md.getLsbD 6) b imm⟩)
  | 0x6E => ifz (md.getLsbD 6 || imm == 0) (.ladd ⟨p, la, md.extractLsb' 0 4, md.extractLsb' 4 2, d, a, srcB (md.getLsbD 6) b imm⟩)
  | 0x71 => if md.getLsbD 0 then ifz (md.extractLsb' 2 5 == 0 && la == 0 && imm.extractLsb' 3 13 == 0) (.cqext p d a (.imm (imm.extractLsb' 0 3)) (md.getLsbD 1))
    else ifz (md.extractLsb' 2 5 == 0 && la == 0 && imm.extractLsb' 3 13 == 0) (.cqext p d a (.reg b) (md.getLsbD 1))
  | 0x72 => if md.getLsbD 0 then ifz (md.extractLsb' 2 5 == 0 && la == 0 && imm.extractLsb' 3 5 == 0) (.cqadd p d a (.step (imm.extractLsb' 0 3) (imm.extractLsb' 8 8)) (md.getLsbD 1))
    else ifz (md.extractLsb' 2 5 == 0 && la == 0 && imm.extractLsb' 3 5 == 0) (.cqadd p d a (.reg b) (md.getLsbD 1))
  | 0x73 => if md.getLsbD 0 then ifz (md.extractLsb' 2 5 == 0 && la == 0 && imm.extractLsb' 3 5 == 0) (.cqsub p d a (.step (imm.extractLsb' 0 3) (imm.extractLsb' 8 8)) (md.getLsbD 1))
    else ifz (md.extractLsb' 2 5 == 0 && la == 0 && imm.extractLsb' 3 5 == 0) (.cqsub p d a (.reg b) (md.getLsbD 1))
  | 0x74 => ifz (md == 0 && la == 0 && imm == 0) (.cqcmp ⟨p, d, a, b⟩)
  | 0x78 => ifz (md == 0 && la == 0 && imm.extractLsb' 4 12 == 0) (.cqsetd p d a (imm.extractLsb' 0 4))
  | 0x79 => if md.getLsbD 0 then ifz (md.extractLsb' 2 5 == 0 && la == 0 && imm.extractLsb' 7 9 == 0) (.cqtrunc p d a (.imm (imm.extractLsb' 0 7)) (md.getLsbD 1))
    else ifz (md.extractLsb' 2 5 == 0 && la == 0 && imm.extractLsb' 7 9 == 0) (.cqtrunc p d a (.reg b) (md.getLsbD 1))
  | 0x7A => ifz (md == 0 && la == 0 && imm == 0) (.cqflags ⟨p, d, a⟩)
  | _ => none

/-- Format S: memory, mark and matrix families (11 R254, 12 R293, 09 R229). -/
def buildMemory (op : Nat) (p : Pfx) (la : BitVec 4) (d a b : Opn) (md : BitVec 7) (imm : BitVec 16) : Option Instr :=
  match op with
  | 0x80 => ifz (!md.getLsbD 6) (.ld ⟨p, la, d, a, srcB (md.getLsbD 0) b imm⟩ (md.extractLsb' 2 3) (md.getLsbD 5) (md.getLsbD 1))
  | 0x81 => ifz (!md.getLsbD 6 && !md.getLsbD 5) (.st ⟨p, la, d, a, srcB (md.getLsbD 0) b imm⟩ (md.extractLsb' 2 3) (md.getLsbD 1))
  | 0x82 => ifz (!md.getLsbD 6 && !md.getLsbD 5 && !md.getLsbD 1) (.lda ⟨p, la, d, a, srcB (md.getLsbD 0) b imm⟩ (md.extractLsb' 2 3))
  | 0x83 => ifz (!md.getLsbD 6 && !md.getLsbD 5 && !md.getLsbD 1) (.stl ⟨p, la, d, a, srcB (md.getLsbD 0) b imm⟩ (md.extractLsb' 2 3))
  | 0x84 => ifz (md.extractLsb' 1 6 == 0) (.ldcap ⟨p, la, d, a, srcB (md.getLsbD 0) b imm⟩)
  | 0x85 => ifz (md.extractLsb' 1 6 == 0) (.stcap ⟨p, la, d, a, srcB (md.getLsbD 0) b imm⟩)
  | 0x86 => match AmoFn.all[(md.extractLsb' 0 4).toNat]? with
    | some fn => some (.amo ⟨p, la, d, a, b, imm, fn, Ord.ofCode (md.extractLsb' 4 2), md.getLsbD 6⟩)
    | none => none
  | 0x88 => ifz (md.extractLsb' 1 5 == 0) (.wld ⟨p, la, d, a, srcB (md.getLsbD 0) b imm⟩ (md.getLsbD 6))
  | 0x89 => ifz (md.extractLsb' 1 6 == 0) (.fill ⟨p, la, d, a, srcB (md.getLsbD 0) b imm⟩)
  | 0x8A => ifz (md.extractLsb' 1 6 == 0) (.empty ⟨p, la, d, a, srcB (md.getLsbD 0) b imm⟩)
  | 0x8B => ifz (md.extractLsb' 1 6 == 0) (.fest ⟨p, la, d, a, srcB (md.getLsbD 0) b imm⟩)
  | 0x8C => ifz (md == 0 && la == 0) (.waitne ⟨p, d, a, b, imm⟩)
  | 0x8D => match FenceKind.ofCode (md.extractLsb' 0 2) with
    | some kd => ifz (md.extractLsb' 4 3 == 0 && la == 0) (.fence p kd (FenceScope.ofCode (md.extractLsb' 2 2)))
    | none => none
  | 0x8E => ifz (md.extractLsb' 1 5 == 0) (.pref ⟨p, la, d, a, srcB (md.getLsbD 0) b imm⟩ (md.getLsbD 6))
  | 0x8F => ifz (md.extractLsb' 1 6 == 0) (.zline ⟨p, la, d, a, srcB (md.getLsbD 0) b imm⟩)
  | 0x94 => match Compl.ofCode (md.extractLsb' 0 2) with
    | some cm => ifz (md.extractLsb' 2 5 == 0 && la == 0) (.arcdrop ⟨p, d, a, b, cm, imm⟩)
    | none => none
  | 0x95 => ifz (md.extractLsb' 1 6 == 0) (.engst ⟨p, la, d, srcB (md.getLsbD 0) b imm⟩)
  | 0x96 => ifz (md.extractLsb' 1 6 == 0) (.mig ⟨p, la, d, a, srcB (md.getLsbD 0) b imm⟩)
  | 0x97 => ifz (md == 0 && la == 0 && imm.extractLsb' 4 12 == 0) (.wayconv p d a (imm.extractLsb' 0 4))
  | 0xA0 => ifz (md == 0 && imm.extractLsb' 6 10 == 0) (.mdep ⟨p, la, d, a, b, imm.extractLsb' 0 6⟩)
  | 0xA3 => ifz (md == 0 && imm.extractLsb' 6 10 == 0) (.mread ⟨p, la, d, a, b, imm.extractLsb' 0 6⟩)
  | 0xA4 => ifz (md == 0 && imm.extractLsb' 6 10 == 0) (.merase ⟨p, la, d, a, b, imm.extractLsb' 0 6⟩)
  | 0xA5 => ifz (md == 0 && imm.extractLsb' 6 10 == 0 && la == 0) (.mtick ⟨p, d, a, imm.extractLsb' 0 6⟩)
  | 0xA6 => ifz (md == 0 && imm.extractLsb' 6 10 == 0 && la == 0) (.mbind ⟨p, d, a, imm.extractLsb' 0 6⟩)
  | 0xA7 => ifz (md == 0 && imm.extractLsb' 6 10 == 0 && la == 0) (.munbind p d (imm.extractLsb' 0 6))
  | 0xCB => ifz (md.extractLsb' 1 6 == 0 && la == 0 && imm == 0) (.macz p d (md.getLsbD 0))
  | 0xCE => ifz (md == 0 && la == 0) (.mdrain p d a imm)
  | 0xD0 => ifz (md == 0 && la == 0 && p == Pfx.empty) .hend
  | _ => none

/-- Format S: scheduling and system families (14 R357, 15, 16). -/
def buildSystem (op : Nat) (p : Pfx) (la : BitVec 4) (d a b : Opn) (md : BitVec 7) (imm : BitVec 16) : Option Instr :=
  match op with
  | 0xE1 => ifz (md == 0 && la == 0 && imm == 0) (.yield ⟨d, a, b⟩)
  | 0xE2 => ifz (md == 0 && la == 0 && imm == 0) (.endTask ⟨d, a, b⟩)
  | 0xE3 => ifz (md == 0 && la == 0 && imm == 0) (.join ⟨d, a, b⟩)
  | 0xE4 => ifz (md == 0 && la == 0 && imm == 0) (.leave ⟨d, a, b⟩)
  | 0xE5 => ifz (md == 0 && la == 0 && imm == 0) (.gbar ⟨d, a, b⟩)
  | 0xE6 => if md.getLsbD 0 then ifz (md.extractLsb' 1 6 == 0 && la == 0) (.crew ⟨d, a, b⟩ (some imm))
    else ifz (md.extractLsb' 1 6 == 0 && la == 0 && imm == 0) (.crew ⟨d, a, b⟩ none)
  | 0xE7 => match md.toNat with
    | 0 => ifz (la == 0 && imm == 0) (.qstatSet ⟨d, a, b⟩)
    | 1 => ifz (la == 0 && imm == 0) (.qstatTask ⟨d, a, b⟩)
    | _ => none
  | 0xE8 => if md.getLsbD 0 then ifz (md.extractLsb' 1 6 == 0 && la == 0) (.sleep ⟨d, a, b⟩ (some imm))
    else ifz (md.extractLsb' 1 6 == 0 && la == 0 && imm == 0) (.sleep ⟨d, a, b⟩ none)
  | 0xF0 => ifz (md == 0 && la == 0) (.trap imm)
  | 0xF1 => ifz (md == 0 && la == 0 && imm == 0) (.rte a)
  | 0xF2 => ifz (md == 0 && la == 0 && imm.extractLsb' 12 4 == 0) (.rds d (imm.extractLsb' 0 12))
  | 0xF3 => ifz (md == 0 && la == 0 && imm.extractLsb' 12 4 == 0) (.wrs a (imm.extractLsb' 0 12))
  | 0xF4 => ifz (md.extractLsb' 1 6 == 0 && la == 0 && imm == 0) (.repart d (md.getLsbD 0))
  | 0xF5 => match PlbScope.ofCode (md.extractLsb' 0 2) with
    | some sc => ifz (md.extractLsb' 2 5 == 0 && la == 0 && imm == 0) (.plbinv d a b sc)
    | none => none
  | 0xF7 => ifz (md == 0 && la == 0 && imm == 0) (.dump d)
  | 0xF8 => ifz (md.extractLsb' 1 6 == 0 && la == 0) (.halt (srcB (md.getLsbD 0) b imm))
  | 0xF9 => ifz (md == 0 && la == 0) (.brk imm)
  | 0xFB => ifz (md == 0 && la == 0 && imm == 0) (.pgmove d a b)
  | _ => none

/-- Format M of every family. -/
def buildM (op : Nat) (p : Pfx) (la : BitVec 4) (d a b c : Opn) (md : BitVec 14) (imm : BitVec 32) : Option Instr :=
  match op with
  | 0x1C => ifz (la == 0 && md.extractLsb' 1 13 == 0 && imm.extractLsb' 6 2 == 0 && imm.extractLsb' 14 18 == 0) (.bfx ⟨p, md.getLsbD 0, d, a, imm.extractLsb' 0 6, imm.extractLsb' 8 6⟩)
  | 0x1D => ifz (la == 0 && md == 0 && imm.extractLsb' 6 2 == 0 && imm.extractLsb' 14 18 == 0) (.bfi ⟨p, d, a, b, imm.extractLsb' 0 6, imm.extractLsb' 8 6⟩)
  | 0x24 => ifz (la == 0 && md.extractLsb' 1 13 == 0) (.sel ⟨p, d, a, if md.getLsbD 0 then .imm imm else .reg b, c⟩)
  | 0x26 => ifz (la == 0 && md.extractLsb' 1 13 == 0) (.li p d (md.getLsbD 0) imm)
  | 0x31 => ifz (la == 0 && md == 0) (.beq a b imm)
  | 0x32 => ifz (la == 0 && md == 0) (.bne a b imm)
  | 0x33 => ifz (la == 0 && md == 0) (.blt a b imm)
  | 0x34 => ifz (la == 0 && md == 0) (.bge a b imm)
  | 0x35 => ifz (la == 0 && md == 0) (.bltu a b imm)
  | 0x36 => ifz (la == 0 && md == 0) (.bgeu a b imm)
  | 0x39 => ifz (la == 0 && md == 0) (.call d imm)
  | 0x53 => ifz (la == 0 && imm == 0 && md.extractLsb' 7 7 == 0) (.vfma ⟨p, md.extractLsb' 0 4, md.extractLsb' 4 2, d, a⟩ b c (md.getLsbD 6))
  | 0x5E => ifz (la == 0 && imm == 0 && md.extractLsb' 6 8 == 0) (.vsel ⟨p, md.extractLsb' 0 4, md.extractLsb' 4 2, d, a⟩ b c)
  | 0x5F => ifz (la == 0 && imm == 0) (.vcvt ⟨p, md.extractLsb' 0 4, md.extractLsb' 4 2, d, a⟩ c (md.extractLsb' 6 6) (md.getLsbD 12) (md.getLsbD 13))
  | 0x70 => ifz (la == 0 && md == 0 && imm.extractLsb' 4 28 == 0) (.cqpack p d a (imm.extractLsb' 0 4))
  | 0x75 => ifz (md == 0 && imm == 0) (.cqinbox ⟨p, la, d, a, b, c⟩)
  | 0x76 => ifz (md == 0 && imm == 0) (.cqnext ⟨p, la, d, a, b, c⟩)
  | 0x87 => ifz (md.extractLsb' 3 11 == 0) (.cas ⟨p, la, d, a, b, c, imm, Ord.ofCode (md.extractLsb' 0 2), md.getLsbD 2⟩)
  | 0x90 => ifz (md == 0) (.topkins ⟨p, la, d, a, b, c, imm⟩)
  | 0xA1 => ifz (md == 0 && imm.extractLsb' 6 26 == 0) (.msense ⟨p, la, d, a, b, c, imm.extractLsb' 0 6⟩)
  | 0xA2 => ifz (md == 0 && imm.extractLsb' 6 26 == 0) (.msamp ⟨p, la, d, a, b, c, imm.extractLsb' 0 6⟩)
  | 0xCC => match (imm.extractLsb' 16 6).toNat with
    | 9 => ifz (la == 0 && md == 0 && imm.extractLsb' 25 7 == 0) (.macld ⟨p, d, a, false, imm.extractLsb' 22 3, imm.extractLsb' 0 16⟩)
    | 11 => ifz (la == 0 && md == 0 && imm.extractLsb' 25 7 == 0) (.macld ⟨p, d, a, true, imm.extractLsb' 22 3, imm.extractLsb' 0 16⟩)
    | _ => none
  | 0xCD => match (imm.extractLsb' 16 6).toNat with
    | 9 => ifz (la == 0 && md == 0 && imm.extractLsb' 23 9 == 0) (.macst ⟨p, d, a, false, imm.getLsbD 22, imm.extractLsb' 0 16⟩)
    | 11 => ifz (la == 0 && md == 0 && imm.extractLsb' 23 9 == 0) (.macst ⟨p, d, a, true, imm.getLsbD 22, imm.extractLsb' 0 16⟩)
    | _ => none
  | 0xCF => ifz (la == 0 && md == 0 && imm == 0) (.mhset p a b)
  | 0xD1 => ifz (la == 0 && md.extractLsb' 1 13 == 0 && imm.extractLsb' 18 14 == 0) (.vbound ⟨p, d, a, b, c, md.getLsbD 0, imm.extractLsb' 0 6, imm.extractLsb' 6 6, imm.extractLsb' 12 2, imm.extractLsb' 14 4⟩)
  | 0xE0 => ifz (la == 0 && md == 0 && imm.extractLsb' 8 24 == 0) (.spawn ⟨d, a, b⟩ c (imm.extractLsb' 0 8))
  | _ => none

/-- Format L of every family. -/
def buildL (op : Nat) (p : Pfx) (la : BitVec 4) (d a b c e : Opn) (md : BitVec 5) (imm : Word) : Option Instr :=
  match op with
  | 0x27 => ifz (la == 0 && md.extractLsb' 1 4 == 0) (.liw p d (md.getLsbD 0) imm)
  | 0x77 => ifz (md == 0 && imm.extractLsb' 9 7 == 0) (.cqsplit ⟨p, la, d, a, b, c, e, imm.extractLsb' 0 9, imm.extractLsb' 16 48⟩)
  | 0x91 => match Compl.ofCode (md.extractLsb' 0 2) with
    | some cm => ifz (la == 0 && md.extractLsb' 2 3 == 0) (.copy ⟨p, d, a, b, c, e, cm, imm⟩)
    | none => none
  | 0x92 => match Compl.ofCode (md.extractLsb' 0 2) with
    | some cm => ifz (la == 0 && md.extractLsb' 2 3 == 0) (.arcout ⟨p, d, a, b, c, e, cm, imm⟩)
    | none => none
  | 0x93 => ifz (la == 0 && md == 0) (.arcin ⟨p, d, a, b, c, e, imm⟩)
  | 0xC0 => ifz (la == 0 && md == 0 && imm.extractLsb' 52 12 == 0) (.mmaT32 (mmaOps p d a b c e imm))
  | 0xC1 => ifz (la == 0 && md == 0 && imm.extractLsb' 52 12 == 0) (.mmaT64 (mmaOps p d a b c e imm))
  | 0xC2 => ifz (la == 0 && md == 0 && imm.extractLsb' 52 12 == 0) (.mmaT128 (mmaOps p d a b c e imm))
  | 0xC3 => ifz (la == 0 && md == 0 && imm.extractLsb' 52 12 == 0) (.mmaW (mmaOps p d a b c e imm))
  | 0xC4 => ifz (la == 0 && md == 0 && imm.extractLsb' 52 12 == 0) (.mmaH (mmaOps p d a b c e imm))
  | 0xC5 => ifz (la == 0 && md == 0 && imm.extractLsb' 52 12 == 0) (.mmaQ (mmaOps p d a b c e imm))
  | 0xC6 => ifz (la == 0 && md == 0 && imm.extractLsb' 52 12 == 0) (.mmaQ8 (mmaOps p d a b c e imm))
  | 0xC7 => ifz (la == 0 && md == 0 && imm.extractLsb' 52 12 == 0) (.mmaT16 (mmaOps p d a b c e imm))
  | 0xC8 => ifz (la == 0 && md == 0 && imm.extractLsb' 52 12 == 0) (.smmaT32 (mmaOps p d a b c e imm))
  | 0xC9 => ifz (la == 0 && md == 0 && imm.extractLsb' 52 12 == 0) (.smmaT64 (mmaOps p d a b c e imm))
  | 0xCA => ifz (la == 0 && md == 0 && imm.extractLsb' 52 12 == 0) (.smmaQ (mmaOps p d a b c e imm))
  | 0xF6 => ifz (la == 0 && md == 0) (.gang ⟨d, a, b, c, e, imm⟩)
  | 0xFA => if imm.extractLsb' 16 48 != 0 || la != 0 then none else
    let o : LeaseOps := ⟨d, a, b, c, e, imm.extractLsb' 0 16⟩
    match md.toNat with
    | 0 => some (.leaseAdd o)
    | 1 => some (.leaseDrop o)
    | 2 => some (.leaseUnmap o)
    | 3 => some (.leaseUnmapForce o)
    | 4 => some (.leaseDom o)
    | _ => none
  | _ => none

/-- The instruction that prefixes and fields name, none where a bit that must be 0 is set or a code is reserved. -/
def build (p : Pfx) : Raw → Option Instr
  | .s op la d a b md imm =>
    let n := op.toNat
    if n < 0x50 then buildScalar n p la d a b md imm
    else if n < 0x80 then buildPacked n p la d a b md imm
    else if n < 0xE0 then buildMemory n p la d a b md imm
    else buildSystem n p la d a b md imm
  | .m op la d a b c md imm => buildM op.toNat p la d a b c md imm
  | .l op la d a b c e md imm => buildL op.toNat p la d a b c e md imm

/-- Decodes the unit that begins the given bytes, which run to the end of its fetch block. The answer is the
instruction and the bytes of the unit, or the fault of 03 R67. -/
def decodeUnit (l : List Byte) : Except Code (Instr × Nat) :=
  let x := scanPrefixes l
  if x.1.any (fun w => !kindAssigned w) then .error .illegalOpcode
  else if x.2.length < 8 then .error (if x.1.isEmpty then .illegalEncoding else .orphanPrefix)
  else
    let op := opcodeOf (leWord x.2)
    match formatOf op with
    | none => .error .illegalOpcode
    | some f =>
      if (leWord x.2).toNat % 4 ≠ (match f with | .s => 1 | .m => 2 | .l => 3) || x.2.length < f.len then
        .error .illegalEncoding
      else if noPrefixFamily op && !x.1.isEmpty then .error .orphanPrefix
      else match pfxOf x.1 with
        | none => .error .illegalEncoding
        | some p => match build p (rawOf f x.2) with
          | none => .error .illegalEncoding
          | some i => if wellFormed i then .ok (i, 8 * x.1.length + f.len) else .error .illegalEncoding

/-- Bytes from a unit's first word to the next boundary, by length bits alone (03 R47, R63). -/
def unitLen (l : List Byte) : Nat :=
  let x := scanPrefixes l
  8 * x.1.length + (match x.2 with | [] => 0 | b :: _ => lengthOf b)

/-- The address of the unit that 03 R65 places after the unit at `addr` of `len` bytes. -/
def nextUnit (addr : Nat) (len : Nat) : Nat :=
  let o := addr % 32 + len
  if 28 ≤ o then addr - addr % 32 + 32 else addr + len

/-- Whether offset `target` of a fetch block is a boundary, and whether it directly follows a prefix (03 R63, R66).
`fuel` counts words. -/
def boundaryAt (blk : List Byte) : Nat → Nat → Bool → Nat → Option Bool
  | 0, _, _, _ => none
  | fuel + 1, off, afterPrefix, target =>
    if 28 ≤ off then none
    else if off = target then some afterPrefix
    else
      let b := blk.getD off 0
      boundaryAt blk fuel (off + lengthOf b) (b.toNat % 4 == 0) target

/-- The prefixes and fields of an instruction (03 R48, R49: unused operand fields hold 256, unused immediates 0);
none for an event. -/
def fieldsOf : Instr → Option (Pfx × Raw)
  | .add o => some (o.p, .s 0x01 o.la o.d o.a o.b.fld ((0 : BitVec 6) ++ BitVec.ofBool o.b.isImm) o.b.im)
  | .sub o => some (o.p, .s 0x02 o.la o.d o.a o.b.fld ((0 : BitVec 6) ++ BitVec.ofBool o.b.isImm) o.b.im)
  | .mul o => some (o.p, .s 0x03 o.la o.d o.a o.b.fld ((0 : BitVec 6) ++ BitVec.ofBool o.b.isImm) o.b.im)
  | .mulh o => some (o.p, .s 0x04 o.la o.d o.a o.b.fld ((0 : BitVec 6) ++ BitVec.ofBool o.b.isImm) o.b.im)
  | .mulhu o => some (o.p, .s 0x05 o.la o.d o.a o.b.fld ((0 : BitVec 6) ++ BitVec.ofBool o.b.isImm) o.b.im)
  | .div o => some (o.p, .s 0x06 o.la o.d o.a o.b.fld ((0 : BitVec 6) ++ BitVec.ofBool o.b.isImm) o.b.im)
  | .divu o => some (o.p, .s 0x07 o.la o.d o.a o.b.fld ((0 : BitVec 6) ++ BitVec.ofBool o.b.isImm) o.b.im)
  | .rem o => some (o.p, .s 0x08 o.la o.d o.a o.b.fld ((0 : BitVec 6) ++ BitVec.ofBool o.b.isImm) o.b.im)
  | .remu o => some (o.p, .s 0x09 o.la o.d o.a o.b.fld ((0 : BitVec 6) ++ BitVec.ofBool o.b.isImm) o.b.im)
  | .and o => some (o.p, .s 0x0A o.la o.d o.a o.b.fld ((0 : BitVec 6) ++ BitVec.ofBool o.b.isImm) o.b.im)
  | .or o => some (o.p, .s 0x0B o.la o.d o.a o.b.fld ((0 : BitVec 6) ++ BitVec.ofBool o.b.isImm) o.b.im)
  | .xor o => some (o.p, .s 0x0C o.la o.d o.a o.b.fld ((0 : BitVec 6) ++ BitVec.ofBool o.b.isImm) o.b.im)
  | .andn o => some (o.p, .s 0x0D o.la o.d o.a o.b.fld ((0 : BitVec 6) ++ BitVec.ofBool o.b.isImm) o.b.im)
  | .shl o => some (o.p, .s 0x0E o.la o.d o.a o.b.fld ((0 : BitVec 6) ++ BitVec.ofBool o.b.isImm) o.b.im)
  | .shr o => some (o.p, .s 0x0F o.la o.d o.a o.b.fld ((0 : BitVec 6) ++ BitVec.ofBool o.b.isImm) o.b.im)
  | .sra o => some (o.p, .s 0x10 o.la o.d o.a o.b.fld ((0 : BitVec 6) ++ BitVec.ofBool o.b.isImm) o.b.im)
  | .rotr o => some (o.p, .s 0x11 o.la o.d o.a o.b.fld ((0 : BitVec 6) ++ BitVec.ofBool o.b.isImm) o.b.im)
  | .min o => some (o.p, .s 0x12 o.la o.d o.a o.b.fld ((0 : BitVec 6) ++ BitVec.ofBool o.b.isImm) o.b.im)
  | .max o => some (o.p, .s 0x13 o.la o.d o.a o.b.fld ((0 : BitVec 6) ++ BitVec.ofBool o.b.isImm) o.b.im)
  | .minu o => some (o.p, .s 0x14 o.la o.d o.a o.b.fld ((0 : BitVec 6) ++ BitVec.ofBool o.b.isImm) o.b.im)
  | .maxu o => some (o.p, .s 0x15 o.la o.d o.a o.b.fld ((0 : BitVec 6) ++ BitVec.ofBool o.b.isImm) o.b.im)
  | .sext o => some (o.p, .s 0x1A o.la o.d o.a o.b.fld ((0 : BitVec 6) ++ BitVec.ofBool o.b.isImm) o.b.im)
  | .zext o => some (o.p, .s 0x1B o.la o.d o.a o.b.fld ((0 : BitVec 6) ++ BitVec.ofBool o.b.isImm) o.b.im)
  | .cmpeq o => some (o.p, .s 0x1E o.la o.d o.a o.b.fld ((0 : BitVec 6) ++ BitVec.ofBool o.b.isImm) o.b.im)
  | .cmpne o => some (o.p, .s 0x1F o.la o.d o.a o.b.fld ((0 : BitVec 6) ++ BitVec.ofBool o.b.isImm) o.b.im)
  | .cmplt o => some (o.p, .s 0x20 o.la o.d o.a o.b.fld ((0 : BitVec 6) ++ BitVec.ofBool o.b.isImm) o.b.im)
  | .cmpltu o => some (o.p, .s 0x21 o.la o.d o.a o.b.fld ((0 : BitVec 6) ++ BitVec.ofBool o.b.isImm) o.b.im)
  | .cmple o => some (o.p, .s 0x22 o.la o.d o.a o.b.fld ((0 : BitVec 6) ++ BitVec.ofBool o.b.isImm) o.b.im)
  | .cmpleu o => some (o.p, .s 0x23 o.la o.d o.a o.b.fld ((0 : BitVec 6) ++ BitVec.ofBool o.b.isImm) o.b.im)
  | .cinc o => some (o.p, .s 0x45 o.la o.d o.a o.b.fld ((0 : BitVec 6) ++ BitVec.ofBool o.b.isImm) o.b.im)
  | .csetb o => some (o.p, .s 0x46 o.la o.d o.a o.b.fld ((0 : BitVec 6) ++ BitVec.ofBool o.b.isImm) o.b.im)
  | .candp o => some (o.p, .s 0x47 o.la o.d o.a o.b.fld ((0 : BitVec 6) ++ BitVec.ofBool o.b.isImm) o.b.im)
  | .clz o => some (o.p, .s 0x16 0 o.d o.a 256 0 0)
  | .ctz o => some (o.p, .s 0x17 0 o.d o.a 256 0 0)
  | .popc o => some (o.p, .s 0x18 0 o.d o.a 256 0 0)
  | .abs o => some (o.p, .s 0x19 0 o.d o.a 256 0 0)
  | .mov o => some (o.p, .s 0x25 0 o.d o.a 256 0 0)
  | .cgeta o => some (o.p, .s 0x40 0 o.d o.a 256 0 0)
  | .cgetb o => some (o.p, .s 0x41 0 o.d o.a 256 0 0)
  | .cgett o => some (o.p, .s 0x42 0 o.d o.a 256 0 0)
  | .cgetp o => some (o.p, .s 0x43 0 o.d o.a 256 0 0)
  | .ctest o => some (o.p, .s 0x4A 0 o.d o.a 256 0 0)
  | .cclrt o => some (o.p, .s 0x4B 0 o.d o.a 256 0 0)
  | .cqflags o => some (o.p, .s 0x7A 0 o.d o.a 256 0 0)
  | .cseta o => some (o.p, .s 0x44 0 o.d o.a o.b 0 0)
  | .cunseal o => some (o.p, .s 0x49 0 o.d o.a o.b 0 0)
  | .csub o => some (o.p, .s 0x4C 0 o.d o.a o.b 0 0)
  | .cqcmp o => some (o.p, .s 0x74 0 o.d o.a o.b 0 0)
  | .time p d => some (p, .s 0x28 0 d 256 256 0 0)
  | .rand p d => some (p, .s 0x29 0 d 256 256 0 0)
  | .br off => some (Pfx.empty, .s 0x30 0 256 256 256 0 off)
  | .bz a off => some (Pfx.empty, .s 0x37 0 256 a 256 0 off)
  | .bnz a off => some (Pfx.empty, .s 0x38 0 256 a 256 0 off)
  | .jmpc d a => some (Pfx.empty, .s 0x3A 0 d a 256 0 0)
  | .loop d off => some (Pfx.empty, .s 0x3B 0 d 256 256 0 off)
  | .nop => some (Pfx.empty, .s 0x3C 0 0 0 0 0 0)
  | .cseal o entry => some (o.p, .s 0x48 0 o.d o.a o.b ((0 : BitVec 5) ++ BitVec.ofBool entry ++ (0 : BitVec 1)) 0)
  | .vadd k b bs => some (k.p, .s 0x50 0 k.d k.a b (BitVec.ofBool bs ++ k.g ++ k.ty) 0)
  | .vsub k b bs => some (k.p, .s 0x51 0 k.d k.a b (BitVec.ofBool bs ++ k.g ++ k.ty) 0)
  | .vmul k b bs => some (k.p, .s 0x52 0 k.d k.a b (BitVec.ofBool bs ++ k.g ++ k.ty) 0)
  | .vmin k b bs => some (k.p, .s 0x54 0 k.d k.a b (BitVec.ofBool bs ++ k.g ++ k.ty) 0)
  | .vmax k b bs => some (k.p, .s 0x55 0 k.d k.a b (BitVec.ofBool bs ++ k.g ++ k.ty) 0)
  | .vand k b bs => some (k.p, .s 0x58 0 k.d k.a b (BitVec.ofBool bs ++ k.g ++ k.ty) 0)
  | .vor k b bs => some (k.p, .s 0x59 0 k.d k.a b (BitVec.ofBool bs ++ k.g ++ k.ty) 0)
  | .vxor k b bs => some (k.p, .s 0x5A 0 k.d k.a b (BitVec.ofBool bs ++ k.g ++ k.ty) 0)
  | .vabs k => some (k.p, .s 0x56 0 k.d k.a 256 ((0 : BitVec 1) ++ k.g ++ k.ty) 0)
  | .vneg k => some (k.p, .s 0x57 0 k.d k.a 256 ((0 : BitVec 1) ++ k.g ++ k.ty) 0)
  | .plnenc k => some (k.p, .s 0x69 0 k.d k.a 256 ((0 : BitVec 1) ++ k.g ++ k.ty) 0)
  | .vshl k b => some (k.p, .s 0x5B 0 k.d k.a b.fld (BitVec.ofBool b.isImm ++ k.g ++ k.ty) b.im)
  | .vshr k b => some (k.p, .s 0x5C 0 k.d k.a b.fld (BitVec.ofBool b.isImm ++ k.g ++ k.ty) b.im)
  | .vbcast k b => some (k.p, .s 0x66 0 k.d k.a b.fld (BitVec.ofBool b.isImm ++ k.g ++ k.ty) b.im)
  | .vcmp k b bs cond => some (k.p, .s 0x5D 0 k.d k.a b (BitVec.ofBool bs ++ k.g ++ k.ty) ((0 : BitVec 13) ++ cond))
  | .vscale k b => some (k.p, .s 0x60 0 k.d k.a b ((0 : BitVec 1) ++ k.g ++ k.ty) 0)
  | .vperm k b => some (k.p, .s 0x65 0 k.d k.a b ((0 : BitVec 1) ++ k.g ++ k.ty) 0)
  | .vpack k b => some (k.p, .s 0x67 0 k.d k.a b ((0 : BitVec 1) ++ k.g ++ k.ty) 0)
  | .vred k op => some (k.p, .s 0x61 0 k.d k.a 256 ((0 : BitVec 1) ++ k.g ++ k.ty) ((0 : BitVec 14) ++ op))
  | .vexp2 k la => some (k.p, .s 0x62 la k.d k.a 256 ((0 : BitVec 1) ++ k.g ++ k.ty) 0)
  | .vrcp k la => some (k.p, .s 0x63 la k.d k.a 256 ((0 : BitVec 1) ++ k.g ++ k.ty) 0)
  | .vrsq k la => some (k.p, .s 0x64 la k.d k.a 256 ((0 : BitVec 1) ++ k.g ++ k.ty) 0)
  | .vunpk k x => some (k.p, .s 0x68 0 k.d k.a 256 (BitVec.ofBool x ++ k.g ++ k.ty) 0)
  | .vverd k x => some (k.p, .s 0x6B 0 k.d k.a 256 (BitVec.ofBool x ++ k.g ++ k.ty) 0)
  | .plndec k n => some (k.p, .s 0x6A 0 k.d k.a 256 ((0 : BitVec 1) ++ k.g ++ k.ty) ((0 : BitVec 12) ++ n))
  | .lld o => some (o.p, .s 0x6C o.la o.d o.a o.b.fld (BitVec.ofBool o.b.isImm ++ o.g ++ o.ty) o.b.im)
  | .lst o => some (o.p, .s 0x6D o.la o.d o.a o.b.fld (BitVec.ofBool o.b.isImm ++ o.g ++ o.ty) o.b.im)
  | .ladd o => some (o.p, .s 0x6E o.la o.d o.a o.b.fld (BitVec.ofBool o.b.isImm ++ o.g ++ o.ty) o.b.im)
  | .cqext p d a (.imm k) sg => some (p, .s 0x71 0 d a 256 ((0 : BitVec 5) ++ BitVec.ofBool sg ++ (1 : BitVec 1)) ((0 : BitVec 13) ++ k))
  | .cqext p d a (.reg b) sg => some (p, .s 0x71 0 d a b ((0 : BitVec 5) ++ BitVec.ofBool sg ++ (0 : BitVec 1)) 0)
  | .cqadd p d a (.step k v) sg => some (p, .s 0x72 0 d a 256 ((0 : BitVec 5) ++ BitVec.ofBool sg ++ (1 : BitVec 1)) (v ++ (0 : BitVec 5) ++ k))
  | .cqadd p d a (.reg b) sg => some (p, .s 0x72 0 d a b ((0 : BitVec 5) ++ BitVec.ofBool sg ++ (0 : BitVec 1)) 0)
  | .cqsub p d a (.step k v) sg => some (p, .s 0x73 0 d a 256 ((0 : BitVec 5) ++ BitVec.ofBool sg ++ (1 : BitVec 1)) (v ++ (0 : BitVec 5) ++ k))
  | .cqsub p d a (.reg b) sg => some (p, .s 0x73 0 d a b ((0 : BitVec 5) ++ BitVec.ofBool sg ++ (0 : BitVec 1)) 0)
  | .cqsetd p d a n => some (p, .s 0x78 0 d a 256 0 ((0 : BitVec 12) ++ n))
  | .cqtrunc p d a (.imm m) up => some (p, .s 0x79 0 d a 256 ((0 : BitVec 5) ++ BitVec.ofBool up ++ (1 : BitVec 1)) ((0 : BitVec 9) ++ m))
  | .cqtrunc p d a (.reg b) up => some (p, .s 0x79 0 d a b ((0 : BitVec 5) ++ BitVec.ofBool up ++ (0 : BitVec 1)) 0)
  | .ld m sz sx go => some (m.p, .s 0x80 m.la m.d m.a m.off.fld ((0 : BitVec 1) ++ BitVec.ofBool sx ++ sz ++ BitVec.ofBool go ++ BitVec.ofBool m.off.isImm) m.off.im)
  | .st m sz go => some (m.p, .s 0x81 m.la m.d m.a m.off.fld ((0 : BitVec 1) ++ (0 : BitVec 1) ++ sz ++ BitVec.ofBool go ++ BitVec.ofBool m.off.isImm) m.off.im)
  | .lda m sz => some (m.p, .s 0x82 m.la m.d m.a m.off.fld ((0 : BitVec 1) ++ (0 : BitVec 1) ++ sz ++ (0 : BitVec 1) ++ BitVec.ofBool m.off.isImm) m.off.im)
  | .stl m sz => some (m.p, .s 0x83 m.la m.d m.a m.off.fld ((0 : BitVec 1) ++ (0 : BitVec 1) ++ sz ++ (0 : BitVec 1) ++ BitVec.ofBool m.off.isImm) m.off.im)
  | .ldcap m => some (m.p, .s 0x84 m.la m.d m.a m.off.fld ((0 : BitVec 1) ++ (0 : BitVec 1) ++ (0 : BitVec 3) ++ (0 : BitVec 1) ++ BitVec.ofBool m.off.isImm) m.off.im)
  | .stcap m => some (m.p, .s 0x85 m.la m.d m.a m.off.fld ((0 : BitVec 1) ++ (0 : BitVec 1) ++ (0 : BitVec 3) ++ (0 : BitVec 1) ++ BitVec.ofBool m.off.isImm) m.off.im)
  | .fill m => some (m.p, .s 0x89 m.la m.d m.a m.off.fld ((0 : BitVec 1) ++ (0 : BitVec 1) ++ (0 : BitVec 3) ++ (0 : BitVec 1) ++ BitVec.ofBool m.off.isImm) m.off.im)
  | .empty m => some (m.p, .s 0x8A m.la m.d m.a m.off.fld ((0 : BitVec 1) ++ (0 : BitVec 1) ++ (0 : BitVec 3) ++ (0 : BitVec 1) ++ BitVec.ofBool m.off.isImm) m.off.im)
  | .fest m => some (m.p, .s 0x8B m.la m.d m.a m.off.fld ((0 : BitVec 1) ++ (0 : BitVec 1) ++ (0 : BitVec 3) ++ (0 : BitVec 1) ++ BitVec.ofBool m.off.isImm) m.off.im)
  | .zline m => some (m.p, .s 0x8F m.la m.d m.a m.off.fld ((0 : BitVec 1) ++ (0 : BitVec 1) ++ (0 : BitVec 3) ++ (0 : BitVec 1) ++ BitVec.ofBool m.off.isImm) m.off.im)
  | .mig m => some (m.p, .s 0x96 m.la m.d m.a m.off.fld ((0 : BitVec 1) ++ (0 : BitVec 1) ++ (0 : BitVec 3) ++ (0 : BitVec 1) ++ BitVec.ofBool m.off.isImm) m.off.im)
  | .wld m x => some (m.p, .s 0x88 m.la m.d m.a m.off.fld (BitVec.ofBool x ++ (0 : BitVec 1) ++ (0 : BitVec 3) ++ (0 : BitVec 1) ++ BitVec.ofBool m.off.isImm) m.off.im)
  | .pref m x => some (m.p, .s 0x8E m.la m.d m.a m.off.fld (BitVec.ofBool x ++ (0 : BitVec 1) ++ (0 : BitVec 3) ++ (0 : BitVec 1) ++ BitVec.ofBool m.off.isImm) m.off.im)
  | .amo o => some (o.p, .s 0x86 o.la o.d o.a o.b (BitVec.ofBool o.size8 ++ o.ord.code ++ o.fn.code) o.off)
  | .waitne o => some (o.p, .s 0x8C 0 o.d o.a o.b 0 o.off)
  | .fence p kd sc => some (p, .s 0x8D 0 256 256 256 ((0 : BitVec 3) ++ sc.code ++ kd.code) 0)
  | .arcdrop o => some (o.p, .s 0x94 0 o.d o.a o.b ((0 : BitVec 5) ++ o.mode.code) o.v)
  | .engst o => some (o.p, .s 0x95 o.la o.d 256 o.b.fld ((0 : BitVec 6) ++ BitVec.ofBool o.b.isImm) o.b.im)
  | .wayconv p d a n => some (p, .s 0x97 0 d a 256 0 ((0 : BitVec 12) ++ n))
  | .mdep o => some (o.p, .s 0xA0 o.la o.d o.a o.b 0 ((0 : BitVec 10) ++ o.dom))
  | .mread o => some (o.p, .s 0xA3 o.la o.d o.a o.b 0 ((0 : BitVec 10) ++ o.dom))
  | .merase o => some (o.p, .s 0xA4 o.la o.d o.a o.b 0 ((0 : BitVec 10) ++ o.dom))
  | .mtick o => some (o.p, .s 0xA5 0 o.d o.a 256 0 ((0 : BitVec 10) ++ o.dom))
  | .mbind o => some (o.p, .s 0xA6 0 o.d o.a 256 0 ((0 : BitVec 10) ++ o.dom))
  | .munbind p d dm => some (p, .s 0xA7 0 d 256 256 0 ((0 : BitVec 10) ++ dm))
  | .macz p d rl => some (p, .s 0xCB 0 d 256 256 ((0 : BitVec 6) ++ BitVec.ofBool rl) 0)
  | .mdrain p d a n => some (p, .s 0xCE 0 d a 256 0 n)
  | .hend => some (Pfx.empty, .s 0xD0 0 256 256 256 0 0)
  | .yield o => some (Pfx.empty, .s 0xE1 0 o.d o.a o.b 0 0)
  | .endTask o => some (Pfx.empty, .s 0xE2 0 o.d o.a o.b 0 0)
  | .join o => some (Pfx.empty, .s 0xE3 0 o.d o.a o.b 0 0)
  | .leave o => some (Pfx.empty, .s 0xE4 0 o.d o.a o.b 0 0)
  | .gbar o => some (Pfx.empty, .s 0xE5 0 o.d o.a o.b 0 0)
  | .crew o (some n) => some (Pfx.empty, .s 0xE6 0 o.d o.a o.b 1 n)
  | .crew o none => some (Pfx.empty, .s 0xE6 0 o.d o.a o.b 0 0)
  | .qstatSet o => some (Pfx.empty, .s 0xE7 0 o.d o.a o.b 0 0)
  | .qstatTask o => some (Pfx.empty, .s 0xE7 0 o.d o.a o.b 1 0)
  | .sleep o (some n) => some (Pfx.empty, .s 0xE8 0 o.d o.a o.b 1 n)
  | .sleep o none => some (Pfx.empty, .s 0xE8 0 o.d o.a o.b 0 0)
  | .trap n => some (Pfx.empty, .s 0xF0 0 256 256 256 0 n)
  | .brk n => some (Pfx.empty, .s 0xF9 0 256 256 256 0 n)
  | .rte a => some (Pfx.empty, .s 0xF1 0 256 a 256 0 0)
  | .rds d n => some (Pfx.empty, .s 0xF2 0 d 256 256 0 ((0 : BitVec 4) ++ n))
  | .wrs a n => some (Pfx.empty, .s 0xF3 0 256 a 256 0 ((0 : BitVec 4) ++ n))
  | .repart d sp => some (Pfx.empty, .s 0xF4 0 d 256 256 ((0 : BitVec 6) ++ BitVec.ofBool sp) 0)
  | .plbinv d a b sc => some (Pfx.empty, .s 0xF5 0 d a b ((0 : BitVec 5) ++ sc.code) 0)
  | .dump d => some (Pfx.empty, .s 0xF7 0 d 256 256 0 0)
  | .halt b => some (Pfx.empty, .s 0xF8 0 256 256 b.fld ((0 : BitVec 6) ++ BitVec.ofBool b.isImm) b.im)
  | .pgmove d a b => some (Pfx.empty, .s 0xFB 0 d a b 0 0)
  | .bfx o => some (o.p, .m 0x1C 0 o.d o.a 256 256 ((0 : BitVec 13) ++ BitVec.ofBool o.sx) ((0 : BitVec 18) ++ o.len ++ (0 : BitVec 2) ++ o.pos))
  | .bfi o => some (o.p, .m 0x1D 0 o.d o.a o.b 256 0 ((0 : BitVec 18) ++ o.len ++ (0 : BitVec 2) ++ o.pos))
  | .sel ⟨p, d, a, .imm v, c⟩ => some (p, .m 0x24 0 d a 256 c 1 v)
  | .sel ⟨p, d, a, .reg b, c⟩ => some (p, .m 0x24 0 d a b c 0 0)
  | .li p d zx v => some (p, .m 0x26 0 d 256 256 256 ((0 : BitVec 13) ++ BitVec.ofBool zx) v)
  | .beq a b off => some (Pfx.empty, .m 0x31 0 256 a b 256 0 off)
  | .bne a b off => some (Pfx.empty, .m 0x32 0 256 a b 256 0 off)
  | .blt a b off => some (Pfx.empty, .m 0x33 0 256 a b 256 0 off)
  | .bge a b off => some (Pfx.empty, .m 0x34 0 256 a b 256 0 off)
  | .bltu a b off => some (Pfx.empty, .m 0x35 0 256 a b 256 0 off)
  | .bgeu a b off => some (Pfx.empty, .m 0x36 0 256 a b 256 0 off)
  | .call d off => some (Pfx.empty, .m 0x39 0 d 256 256 256 0 off)
  | .vfma k b c bs => some (k.p, .m 0x53 0 k.d k.a b c ((0 : BitVec 7) ++ BitVec.ofBool bs ++ k.g ++ k.ty) 0)
  | .vsel k b c => some (k.p, .m 0x5E 0 k.d k.a b c ((0 : BitVec 8) ++ k.g ++ k.ty) 0)
  | .vcvt k c src mask scl => some (k.p, .m 0x5F 0 k.d k.a 256 c (BitVec.ofBool scl ++ BitVec.ofBool mask ++ src ++ k.g ++ k.ty) 0)
  | .cqpack p d a n => some (p, .m 0x70 0 d a 256 256 0 ((0 : BitVec 28) ++ n))
  | .cqinbox o => some (o.p, .m 0x75 o.la o.d o.a o.b o.c 0 0)
  | .cqnext o => some (o.p, .m 0x76 o.la o.d o.a o.b o.c 0 0)
  | .cas o => some (o.p, .m 0x87 o.la o.d o.a o.b o.c ((0 : BitVec 11) ++ BitVec.ofBool o.size8 ++ o.ord.code) o.off)
  | .topkins o => some (o.p, .m 0x90 o.la o.d o.a o.b o.c 0 o.off)
  | .msense o => some (o.p, .m 0xA1 o.la o.d o.a o.b o.c 0 ((0 : BitVec 26) ++ o.dom))
  | .msamp o => some (o.p, .m 0xA2 o.la o.d o.a o.b o.c 0 ((0 : BitVec 26) ++ o.dom))
  | .macld o => some (o.p, .m 0xCC 0 o.d o.a 256 256 0 ((0 : BitVec 7) ++ o.shape ++ (if o.bf16 then (11 : BitVec 6) else 9) ++ o.st))
  | .macst o => some (o.p, .m 0xCD 0 o.d o.a 256 256 0 ((0 : BitVec 9) ++ BitVec.ofBool o.rel ++ (if o.bf16 then (11 : BitVec 6) else 9) ++ o.st))
  | .mhset p a b => some (p, .m 0xCF 0 256 a b 256 0 0)
  | .vbound o => some (o.p, .m 0xD1 0 o.d o.a o.b o.c ((0 : BitVec 13) ++ BitVec.ofBool o.acc) ((0 : BitVec 14) ++ o.n ++ o.bs ++ o.fb ++ o.fa))
  | .spawn o c cl => some (Pfx.empty, .m 0xE0 0 o.d o.a o.b c 0 ((0 : BitVec 24) ++ cl))
  | .liw p d hi v => some (p, .l 0x27 0 d 256 256 256 256 ((0 : BitVec 4) ++ BitVec.ofBool hi) v)
  | .cqsplit o => some (o.p, .l 0x77 o.la o.d o.a o.b o.c o.e 0 (o.gap ++ (0 : BitVec 7) ++ o.limit))
  | .copy o => some (o.p, .l 0x91 0 o.d o.a o.b o.c o.e ((0 : BitVec 3) ++ o.mode.code) o.v)
  | .arcout o => some (o.p, .l 0x92 0 o.d o.a o.b o.c o.e ((0 : BitVec 3) ++ o.mode.code) o.v)
  | .arcin o => some (o.p, .l 0x93 0 o.d o.a o.b o.c o.e 0 o.v)
  | .mmaT32 o => some (o.p, .l 0xC0 0 o.d o.a o.b o.c o.e 0 o.imm)
  | .mmaT64 o => some (o.p, .l 0xC1 0 o.d o.a o.b o.c o.e 0 o.imm)
  | .mmaT128 o => some (o.p, .l 0xC2 0 o.d o.a o.b o.c o.e 0 o.imm)
  | .mmaW o => some (o.p, .l 0xC3 0 o.d o.a o.b o.c o.e 0 o.imm)
  | .mmaH o => some (o.p, .l 0xC4 0 o.d o.a o.b o.c o.e 0 o.imm)
  | .mmaQ o => some (o.p, .l 0xC5 0 o.d o.a o.b o.c o.e 0 o.imm)
  | .mmaQ8 o => some (o.p, .l 0xC6 0 o.d o.a o.b o.c o.e 0 o.imm)
  | .mmaT16 o => some (o.p, .l 0xC7 0 o.d o.a o.b o.c o.e 0 o.imm)
  | .smmaT32 o => some (o.p, .l 0xC8 0 o.d o.a o.b o.c o.e 0 o.imm)
  | .smmaT64 o => some (o.p, .l 0xC9 0 o.d o.a o.b o.c o.e 0 o.imm)
  | .smmaQ o => some (o.p, .l 0xCA 0 o.d o.a o.b o.c o.e 0 o.imm)
  | .gang o => some (Pfx.empty, .l 0xF6 0 o.d o.a o.b o.c o.e 0 o.ts)
  | .leaseAdd o => some (Pfx.empty, .l 0xFA 0 o.d o.a o.b o.c o.e 0 ((0 : BitVec 48) ++ o.dom))
  | .leaseDrop o => some (Pfx.empty, .l 0xFA 0 o.d o.a o.b o.c o.e 1 ((0 : BitVec 48) ++ o.dom))
  | .leaseUnmap o => some (Pfx.empty, .l 0xFA 0 o.d o.a o.b o.c o.e 2 ((0 : BitVec 48) ++ o.dom))
  | .leaseUnmapForce o => some (Pfx.empty, .l 0xFA 0 o.d o.a o.b o.c o.e 3 ((0 : BitVec 48) ++ o.dom))
  | .leaseDom o => some (Pfx.empty, .l 0xFA 0 o.d o.a o.b o.c o.e 4 ((0 : BitVec 48) ++ o.dom))
  | _ => none

/-- The bytes of an instruction's unit; none for an event. -/
def encode (i : Instr) : List Byte :=
  match fieldsOf i with
  | some (p, r) => (p.words.map (fun w => leBytes 8 w.toNat)).flatten ++ r.bytes
  | none => []

/-- The instruction this decoder reads from bits numbered as opcode_table.json numbers them: the bytes of w, lowest
first, at the start of a fetch block whose other bytes are 0. -/
def decodeTableWord (nbits w : Nat) : Option Instr :=
  match decodeUnit (leBytes 32 (w % 2 ^ nbits)) with
  | .ok (i, _) => some i
  | .error _ => none

end Sys2Proof
end

