-- ==== Sys2Proof/Machine/Ed25519.lean ====
section
/-!
DEFINITION. SHA-512 and the pure Ed25519 signatures of RFC 8032, by which the trust block signs a report (18 R425, R426).
-/

namespace Sys2Proof.Machine

/-! ### SHA-512 -/

/-- The least divisor test behind the primes below n. -/
def isPrime (n : Nat) : Bool := decide (2 ≤ n) && (List.range n).all (fun d => d < 2 || n % d != 0)
/-- The largest number whose k-th power is at most n, found from the bit below 2^bits down. -/
def rootOf (k n : Nat) : Nat → Nat → Nat
  | 0, r => r
  | b + 1, r => let x := r + 2 ^ b; rootOf k n b (if x ^ k ≤ n then x else r)
/-- First 64 bits of the fractional part of a prime's k-th root. -/
def rootBits (k p : Nat) : Nat := rootOf k (p * 2 ^ (64 * k)) 70 0 % 2 ^ 64
/-- The first 80 primes. -/
def primes80 : List Nat := (List.range 410).filter isPrime
/-- The round constants and the initial state. -/
def shaConstants : List Nat := primes80.map (rootBits 3)
def shaInit : List Nat := (primes80.take 8).map (rootBits 2)
/-- Rotation and addition of 64-bit words. -/
def ror64 (x n : Nat) : Nat := (x / 2 ^ n) ||| (x * 2 ^ (64 - n) % 2 ^ 64)
def add64 (l : List Nat) : Nat := l.sum % 2 ^ 64
/-- n bytes as a big-endian number. -/
def beNat (l : List Byte) : Nat := l.foldl (fun n b => 256 * n + b.toNat) 0
def beBytes (n v : Nat) : List Byte := (leBytes n v).reverse
/-- The message schedule of a block, latest word first, n more words. -/
def shaSchedule : Nat → List Nat → List Nat
  | 0, w => w
  | n + 1, w =>
    let g (i : Nat) : Nat := w.getD (i - 1) 0
    let s0 := ror64 (g 15) 1 ^^^ ror64 (g 15) 8 ^^^ (g 15 / 2 ^ 7)
    let s1 := ror64 (g 2) 19 ^^^ ror64 (g 2) 61 ^^^ (g 2 / 2 ^ 6)
    shaSchedule n (add64 [g 16, s0, g 7, s1] :: w)
/-- One round: the state a to h with a round constant and a schedule word. -/
def shaRound (s : List Nat) (kw : Nat × Nat) : List Nat :=
  match s with
  | [a, b, c, d, e, f, g, h] =>
    let s1 := ror64 e 14 ^^^ ror64 e 18 ^^^ ror64 e 41
    let ch := (e &&& f) ^^^ ((2 ^ 64 - 1 - e) &&& g)
    let t1 := add64 [h, s1, ch, kw.1, kw.2]
    let s0 := ror64 a 28 ^^^ ror64 a 34 ^^^ ror64 a 39
    let maj := (a &&& b) ^^^ (a &&& c) ^^^ (b &&& c)
    [add64 [t1, s0, maj], a, b, c, add64 [d, t1], e, f, g]
  | x => x
/-- A block of 128 bytes taken into the state. -/
def shaBlock (s : List Nat) (block : List Byte) : List Nat :=
  let w := (List.range 16).map (fun i => beNat ((block.drop (8 * i)).take 8))
  let ws := (shaSchedule 64 w.reverse).reverse
  List.zipWith (fun x y => add64 [x, y]) s ((shaConstants.zip ws).foldl shaRound s)
/-- The SHA-512 digest of a message, as 64 bytes. -/
def sha512 (m : List Byte) : List Byte :=
  let pad := (111 + 128 - m.length % 128) % 128
  let l := m ++ [0x80] ++ List.replicate pad 0 ++ beBytes 16 (8 * m.length)
  ((List.range (l.length / 128)).foldl (fun s i => shaBlock s ((l.drop (128 * i)).take 128)) shaInit).flatMap (beBytes 8)

/-! ### The curve edwards25519 (RFC 8032, 5.1) -/

def edP : Nat := 2 ^ 255 - 19
def edL : Nat := 2 ^ 252 + 27742317777372353535851937790883648493
/-- A power modulo p, from its n low exponent bits. -/
def powP (x e : Nat) : Nat → Nat
  | 0 => 1
  | n + 1 => let y := powP (x * x % edP) (e / 2) n; if e % 2 = 1 then x * y % edP else y
def invP (x : Nat) : Nat := powP x (edP - 2) 255
def edD : Nat := (edP - 121665) * invP 121666 % edP
/-- A point in extended coordinates X, Y, Z, T. -/
structure EdPoint where
  x : Nat
  y : Nat
  z : Nat
  t : Nat
  deriving DecidableEq, Repr
def edZero : EdPoint := ⟨0, 1, 1, 0⟩
/-- The base point. -/
def edBase : EdPoint :=
  let x := 15112221349535400772501151409588531511454012693041857206046113283949847762202
  let y := 46316835694926478169428394003475163141307993866256225615783033603165251855960
  ⟨x, y, 1, x * y % edP⟩
def edAdd (p q : EdPoint) : EdPoint :=
  let a := (p.y + edP - p.x) * (q.y + edP - q.x) % edP
  let b := (p.y + p.x) * (q.y + q.x) % edP
  let c := 2 * p.t * q.t * edD % edP
  let d := 2 * p.z * q.z % edP
  let e := b + edP - a
  let f := d + edP - c
  let g := d + c
  let h := b + a
  ⟨e * f % edP, g * h % edP, f * g % edP, e * h % edP⟩
/-- A multiple of a point, from the n low bits of the number. -/
def edMul (k : Nat) (p : EdPoint) : Nat → EdPoint
  | 0 => edZero
  | n + 1 => let q := edMul (k / 2) (edAdd p p) n; if k % 2 = 1 then edAdd p q else q
/-- The 32 bytes of a point. -/
def edEncode (p : EdPoint) : List Byte :=
  let i := invP p.z
  leBytes 32 (p.y * i % edP + p.x * i % edP % 2 * 2 ^ 255)
/-- The secret number of a private key's digest. -/
def edClamp (h : List Byte) : Nat := leNat (h.take 32) % 2 ^ 254 / 8 * 8 + 2 ^ 254
/-- The public key of a private key of 32 bytes. -/
def edPublic (key : List Byte) : List Byte := edEncode (edMul (edClamp (sha512 key)) edBase 256)
/-- The signature of a message by a private key (RFC 8032, 5.1.6). -/
def edSign (key m : List Byte) : List Byte :=
  let h := sha512 key
  let a := edClamp h
  let r := leNat (sha512 (h.drop 32 ++ m)) % edL
  let big := edEncode (edMul r edBase 256)
  let k := leNat (sha512 (big ++ edPublic key ++ m)) % edL
  big ++ leBytes 32 ((r + k * a) % edL)

/-! ### The device key (18 R425, R426) -/

/-- IDKEY: the public key of the device key, bytes 0 first. -/
@[irreducible] def idKey : BitVec 256 := BitVec.ofNat 256 (leNat (edPublic (leBytes 32 Config.deviceKey.toNat)))
/-- SIG: the signature of REPORT's 128 bytes under the device key. -/
@[irreducible] def signReport (report : BitVec 1024) : BitVec 512 :=
  BitVec.ofNat 512 (leNat (edSign (leBytes 32 Config.deviceKey.toNat) (leBytes 128 report.toNat)))

end Sys2Proof.Machine
end

