-- ==== Sys2Proof/Machine/Caps.lean ====
section
/-!
DEFINITION. Capabilities as bits: fields, bounds, cursor moves, encoding and access checks (05 R102 to R107).
-/

namespace Sys2Proof.Machine

/-- Bits [hi:lo] of a wide value as a number (00 R4). -/
def bitsOf (q : BitVec w) (lo n : Nat) : Nat := (q.extractLsb' lo n).toNat

/-- A number read as an n-bit two's complement value. -/
def signed (n v : Nat) : Int := if v % 2 ^ n < 2 ^ (n - 1) then (v % 2 ^ n : Nat) else ((v % 2 ^ n : Nat) : Int) - 2 ^ n

/-- An integer as w bits, modulo 2^w. -/
def ofInt (w : Nat) (x : Int) : BitVec w := BitVec.ofInt w x

/-- Bit positions of the permissions in the 12-bit field (05 R103). -/
def permR : BitVec 12 := 0x001
def permW : BitVec 12 := 0x002
def permX : BitVec 12 := 0x004
def permLC : BitVec 12 := 0x008
def permSC : BitVec 12 := 0x010
def permAT : BitVec 12 := 0x020
def permFE : BitVec 12 := 0x040
def permEN : BitVec 12 := 0x080
def permSE : BitVec 12 := 0x100
def permUS : BitVec 12 := 0x200
def permGL : BitVec 12 := 0x400
def permSY : BitVec 12 := 0x800

/-- Whether every permission of `need` is granted. -/
def grants (have_ need : BitVec 12) : Bool := need &&& ~~~have_ == 0

/-- Capability fields of 128 data bits (05 R102). -/
def capKind (q : Quad) : Nat := bitsOf q 124 4
def capPerms (q : Quad) : BitVec 12 := q.extractLsb' 112 12
def capE (q : Quad) : Nat := bitsOf q 106 6
def capDL (q : Quad) : Int := signed 20 (bitsOf q 86 20)
def capDT (q : Quad) : Int := signed 20 (bitsOf q 66 20)
def capCursor (q : Quad) : Word := q.setWidth 64

/-- Base of a capability (05 R104). -/
def capBase (q : Quad) : Int := ((((capCursor q).toNat / 2 ^ capE q : Nat) : Int) - capDL q) * 2 ^ capE q
/-- Top of a capability (05 R104). -/
def capTop (q : Quad) : Int := ((((capCursor q).toNat / 2 ^ capE q : Nat) : Int) + capDT q) * 2 ^ capE q

/-- The 128 bits of a capability with the given fields (05 R102). -/
def capMake (kind : Nat) (perms : BitVec 12) (e : Nat) (dl dt : Int) (cursor : Word) : Quad :=
  BitVec.ofNat 4 kind ++ perms ++ BitVec.ofNat 6 e ++ ofInt 20 dl ++ ofInt 20 dt ++ (0 : BitVec 2) ++ cursor

/-- a with another kind. -/
def capWithKind (q : Quad) (kind : Nat) : Quad := BitVec.ofNat 4 kind ++ q.extractLsb' 0 124
/-- a with other permissions. -/
def capWithPerms (q : Quad) (p : BitVec 12) : Quad := q.extractLsb' 124 4 ++ p ++ q.extractLsb' 0 112

/-- Smallest exponent with len < 2^(E + 19) (05 R105, 06 R138). -/
def capExp (len : Nat) : Nat := if len < 2 ^ 19 then 0 else Nat.log2 len - 18

/-- A cursor move with its tag rule (05 R105): the tag survives inside the representable window; DL, DT and the cursor
change and nothing else. -/
def capMove (v : Val) (c : Word) : Val :=
  let q := v.bits
  let e := capE q
  let delta : Int := ((c.toNat / 2 ^ e : Nat) : Int) - ((capCursor q).toNat / 2 ^ e : Nat)
  let dl := capDL q + delta
  let dt := capDT q - delta
  let ok := -(2 ^ 19 : Int) ≤ dl && dl < 2 ^ 19 && -(2 ^ 19 : Int) ≤ dt && dt < 2 ^ 19
  ⟨q.extractLsb' 106 22 ++ ofInt 20 dl ++ ofInt 20 dt ++ q.extractLsb' 64 2 ++ c, v.tag && ok⟩

/-- The encoding of exact bounds [b, t) with the smallest exponent and the cursor at b (05 R105). -/
def capBounds (perms : BitVec 12) (b t : Nat) : Quad :=
  let e := capExp (t - b)
  capMake 0 perms e 0 ((t - b) / 2 ^ e : Nat) (BitVec.ofNat 64 b)

/-- A tagged slot no instruction can have made (05 R107). -/
def capForged (q : Quad) : Bool :=
  3 ≤ capKind q || 46 < capE q || capDL q + capDT q < 0 || capBase q < 0 || (2 ^ 64 : Int) < capTop q
    || bitsOf q 64 2 != 0

/-- The checks of 05 R106 on n bytes at `addr`: none when all pass. `align` 1 asks nothing. -/
def capCheck (v : Val) (need : BitVec 12) (addr : Nat) (n align : Nat) : Option Code :=
  if !v.tag then some .tag
  else if capKind v.bits != 0 then some .sealed
  else if !grants (capPerms v.bits) need then some .perm
  else if (addr : Int) < capBase v.bits || capTop v.bits < (addr : Int) + n then some .bounds
  else if addr % align != 0 then some .align
  else none

end Sys2Proof.Machine
end

