-- ==== Sys2Proof/Machine/State.lean ====
section
/-!
DEFINITION. The state of the device as plain data: threads, cores, homes, stations, messages, memory, tables and
management registers, the reasons a step can stop, and the state right after reset.
-/

namespace Sys2Proof.Machine

/-- Faults that stop the machine: none. Every fault the spec describes is a trap, a record or an answer, after which the machine goes
on (15 R364 to R375). -/
inductive Fault where
  deriving DecidableEq, Repr

/-- Why an instruction or event has no next state. -/
inductive Refusal where
  /-- Raised only by exec, for a row with no meaning yet. Safe. -/
  | notModelled (mnemonic : String)
  /-- Raised by an event that cannot happen in this state (no such message, operation or thread, or its
  conditions do not hold), and by an instruction when no thread has the turn. Safe: the device performs no such
  event there. -/
  | notEnabled
  deriving DecidableEq, Repr

/-- A table from numbers to values: a number not listed has the value its reader names. -/
abbrev Table (α : Type) := List (Nat × α)

/-- One general register: data, tag and presence bit (05 R98). -/
structure Reg where
  v       : Val
  present : Bool
  deriving DecidableEq, Repr

/-- The owner number by which homes know a thread (13 R303): class and bits [63:0]. -/
structure Owner where
  cls : BitVec 2
  num : Word
  deriving DecidableEq, Repr

/-- TSTAT.MODE (05 R113). -/
inductive Mode where
  | ordinary | travel | handler
  deriving DecidableEq, Repr

/-- The sticky flags of FPST, or the flags one instruction raises (05 R114, 04 R88). -/
structure Flags where
  nv : Bool
  dz : Bool
  of : Bool
  uf : Bool
  nx : Bool
  deriving DecidableEq, Repr

/-- The four state words of xoshiro128** (05 R115). -/
structure Prng where
  s0 : BitVec 32
  s1 : BitVec 32
  s2 : BitVec 32
  s3 : BitVec 32
  deriving DecidableEq, Repr

/-- A cause as dump records hold it (15 R374). -/
structure Cause where
  pc   : Word
  addr : Word
  time : Word
  code : Code
  deriving DecidableEq, Repr

/-- A task control block (14 R330). -/
structure Tcb where
  entry    : Val
  param    : Val
  deadline : Word
  budget   : BitVec 32
  regs     : BitVec 16
  flags    : BitVec 8
  lanes    : BitVec 8
  group    : Word
  fanout   : BitVec 32
  nrange   : BitVec 16
  zero     : BitVec 16
  deriving DecidableEq, Repr

/-- How an issued instruction lets its thread go on (11 R256). -/
inductive OpClass where
  | posted | longLat | out
  deriving DecidableEq, Repr

/-- Kinds of engine operation (11 R271). -/
inductive EngKind where
  | copy | arcout | arcin | arcdrop
  deriving DecidableEq, Repr

/-- One dimension of a COPY shape block (11 R275). -/
structure Dim where
  ext  : Nat
  sstr : Int
  dstr : Int
  deriving DecidableEq, Repr

/-- An operation of a core's engine (11 R271, R272). -/
structure EngOp where
  id       : BitVec 16
  kind     : EngKind
  taskid   : Word
  domain   : BitVec 16
  ranges   : List Quad
  a        : Val
  b        : Val
  c        : Val
  e        : Val
  mode     : Compl
  v        : Word
  esize    : Nat
  dims     : List Dim
  running  : Bool
  progress : Nat
  failed   : Option Code
  answered : Bool
  revoked  : Bool
  since    : Nat
  /-- Of an archive operation: its drive, its LBA there, the 4 KiB blocks of the drive's staging area that it holds, from `stage` on,
  and the blocks of its folio (18 R420, R421). `progress` is 1 while its first command is outstanding, 2 while an ARCIN that has read the
  header block wants the rest, and 3 while that command is outstanding. -/
  drive    : Nat
  lba      : Word
  stage    : Nat
  held     : Nat
  blocks   : Nat
  deriving DecidableEq, Repr

/-- A format window (16 R396). -/
structure FormatWindow where
  base  : Word
  len   : Word
  view  : Word
  scale : Word
  cfg   : Word
  deriving DecidableEq, Repr

/-- Verdict states (09 R196). -/
inductive Vst where
  | isOpen | isFalse | isTrue | kept
  deriving DecidableEq, Repr

/-- The verdict state word of a tile element (09 R195). -/
structure VerdictWord where
  amax  : BitVec 32
  nadd  : Nat
  nodec : Bool
  vst   : Vst
  deriving DecidableEq, Repr

/-- How far a matrix operation has come: the elements of its shape as they stand, the matrix cycles' work so far, the fault met,
which of the threshold's values was sampled last, and the block that comes next (09 R209, R210, R215, R216). -/
structure MatAcc where
  elems : List (BitVec 32 × VerdictWord)
  work  : Nat
  fault : Option (Code × Word)
  theta : Nat
  next  : Nat
  deriving DecidableEq, Repr

/-- An MMA or SMMA with its captured operands (09 R206): the opcode less 0xC0, the formats in force, block sizes, the
windows its operands lie in, the threshold capability; and, once it has started, the scale bytes it read by address (R204)
and how far it has come. -/
structure MatrixJob where
  kind   : Nat
  tile   : Nat
  round  : Nat
  pass   : Bool
  a      : Val
  b      : Val
  c      : Val
  e      : Val
  thr    : Val
  sta    : Nat
  stb    : Nat
  fa     : BitVec 6
  fb     : BitVec 6
  ba     : Nat
  bb     : Nat
  winA   : Option FormatWindow
  winB   : Option FormatWindow
  verd   : Verd
  need   : Bool
  zero   : Bool
  fpsnap : BitVec 9
  scales : Table Nat
  acc    : MatAcc
  deriving DecidableEq, Repr

/-- What an issued instruction still asks of a home, a station or the device. -/
inductive Act where
  | nothing
  | load (size : Nat) (sx : Bool) | loadCap (keep : Bool) | loadAcq (size : Nat)
  | placed
  | store (size : Nat) (v w : Val)
  | storeRel (size : Nat) (v : Val)
  | amo (fn : AmoFn) (size : Nat) (v : Word) (ord : Ord)
  | cas (size : Nat) (old new : Word) (ord : Ord)
  | wld (take : Bool) | fill (v : Word) | empty | fest | waitne (cmp : Word)
  | topkins (score id : BitVec 32)
  | fence (kind : FenceKind) (scope : FenceScope)
  | mdep (dom cell : Nat) (amount : BitVec 32) | merase (dom cell : Nat) | mread (dom cell : Nat)
  | msense (dom : Nat) (lo hi : Quad) | msamp (dom : Nat) (lo hi : Quad) (u : BitVec 32)
  | mtick (dom : Nat) | mbind (dom : Nat) | munbind (dom : Nat)
  | join | leave | gbar
  | split (v w : Val)
  | rows (tile : Nat) (bf16 pass : Bool) (shape : BitVec 3) (stride : Nat)
  | spawn (a : Val) (count : Word) (cluster : Nat)
  | pref (home : Bool)
  | yield (deadline : Word) | endTask | hend
  | engine (e : EngOp) | matrix (m : MatrixJob) | mdrain (tile : Nat) (id : BitVec 16) (compl : Val)
  | dump | lease (op : Nat) (a : Val) (dom : BitVec 16) | plbinv (scope : PlbScope) (arg : Word)
  | pgmove (page : Nat) (home frame : Nat)
  deriving DecidableEq, Repr

/-- Where an issued instruction stands. -/
inductive Phase where
  /-- Release probes on their way: echoes still to come (13 R318). -/
  | probing (left : Nat)
  /-- Eager release: write-backs still to be acknowledged (13 R320). -/
  | flushing (left : Nat)
  /-- Messages at homes still to be performed. -/
  | sent (left : Nat)
  /-- A record waits on a word's chain (14 R343). -/
  | waiting
  /-- Refused for lack of wait records; sent again (14 R343). -/
  | resend
  /-- Performed: the values of the destination registers, in order. -/
  | done (vs : List Val)
  /-- Refused at a home, the refusal on its way; the cause address (11 R256). -/
  | refusing (code : Code) (addr : Word)
  /-- The refusal has arrived. -/
  | refused (code : Code) (addr : Word)
  deriving DecidableEq, Repr

/-- One issued unfinished instruction with the sources captured for replay (15 R369, R370). `capture` says that a refusal
is held as FAULTED, not as ISSUE; `mask`, `held` and `tags` are the bytes of its sector that the near slice held at issue.
`cells` and `ticks` gather what a box operation read, or the elements a MACLD received; in a tile instruction `ticks` is 1
when it claimed its tile. -/
structure Op where
  id      : Nat
  cls     : OpClass
  act     : Act
  phase   : Phase
  va      : Word
  addr    : Word
  first   : Word
  word    : Word
  wordHi  : Word
  arith   : Word
  slot1   : Val
  slot2   : Val
  slot3   : Val
  cont    : Quad
  capture : Bool
  dests   : List Opn
  flags   : Flags
  cells   : List (Nat × Nat)
  ticks   : Nat
  acquire : Bool
  mask    : BitVec 32
  held    : BitVec 256
  tags    : BitVec 2
  issued  : Nat
  deriving DecidableEq, Repr

/-- A replay entry of a trap frame (15 R369). -/
structure Entry where
  pcw  : Word
  word : Word
  s1   : Val
  s2   : Val
  s3   : Val
  deriving DecidableEq, Repr

/-- Why a thread is parked or held outside the rotation (14 R340). -/
inductive Park where
  | operand | plb (page : Nat) (va : Word) | tile (i : Nat) | matrixUnit | engineQueue | postedRoom
  | sleep (target : Word) | store | range | own | leave
  deriving DecidableEq, Repr

/-- What a thread does at its turns. -/
inductive Status where
  | ready
  | parked (why : Park) (since : Nat)
  | out (op : Nat) (since : Nat)
  /-- A trap waits for the issued instructions: the cause of R366 step 2 or 3, the entries that hold its unit, the
  addresses of the unit and of the one after it, whether it was re-injected, and whether it is fatal. -/
  | trapping (code : Option Code) (cause : Word) (held : List Entry) (fpc next : Word) (again fatal : Bool)
  deriving DecidableEq, Repr

/-- An open lookahead window (03 R61). -/
structure Window where
  regs : List Nat
  left : Nat
  deriving DecidableEq, Repr

/-- A row handler's dispatch (09 R225, 13 R303). -/
structure Dispatch where
  tile  : Nat
  row   : Nat
  start : Nat
  count : Nat
  deriving DecidableEq, Repr

/-- The state of one thread slot that holds a thread (01 R29, 05 R112 to R116). `epoch` and `shed` are the sectors registered
and made write-through in its epoch (13 R305, R312, R316), `written` those it registered since its last release. `spare` are the
values of DONE entries beyond their two slots, by the instruction's address (log 14). `fullSince` names the park for which a
full parked-TCB store was counted (17 R406). `revoked` says that a revocation came while a trap waited (15 R375). -/
structure Thread where
  count    : Nat
  regs     : Table Reg
  pcc      : Val
  sup      : Bool
  mode     : Mode
  crew     : Bool
  lead     : Bool
  drm      : BitVec 3
  flags    : Flags
  prng     : Prng
  turns    : BitVec 32
  deadline : Word
  taskid   : Word
  group    : Word
  trapcap  : Val
  bankmask : Word
  domain   : BitVec 16
  record   : BitVec 16
  edits    : BitVec 8
  moves    : BitVec 8
  trapActive : Option Cause
  status   : Status
  ops      : List Op
  reinject : List Entry
  resuming : Bool
  spare    : List (Word × List Val)
  windows  : List Window
  epoch    : List Nat
  written  : List Nat
  shed     : List Nat
  ranges   : List Quad
  lanes    : List Nat
  tcb      : Tcb
  link     : Nat
  queue    : Option Nat
  travelGo : Bool
  dispatch : Option Dispatch
  fullSince : Option Nat
  revoked  : Bool
  deriving DecidableEq, Repr

/-- States of a near-slice sector (10 R235). -/
inductive SecState where
  | invalid | clean | dirty | released
  deriving DecidableEq, Repr

/-- A 32-byte sector of the near slice (10 R235). `whole` says that bytes outside the mask of a dirty or released sector have
been fetched and merged. -/
structure Sector where
  st      : SecState
  mask    : BitVec 32
  data    : BitVec 256
  tags    : BitVec 2
  owner   : Owner
  whole   : Bool
  deriving DecidableEq, Repr

/-- A 128-byte line of the near slice (10 R235, R236). -/
structure NearLine where
  line    : Nat
  domain  : BitVec 16
  sectors : Table Sector
  pins    : Nat
  deriving DecidableEq, Repr

/-- A PLB entry (16 R388). -/
structure PlbEntry where
  slot   : Nat
  level  : Nat
  vpn    : Nat
  home   : Nat
  frame  : Nat
  rights : BitVec 12
  deriving DecidableEq, Repr

/-- One value in a link inbox or a crew queue (05 R110, R111). -/
structure QueueEntry where
  v      : Val
  domain : BitVec 16
  deriving DecidableEq, Repr

/-- An accumulator tile (09 R193, R194). -/
structure Tile where
  elems  : Table (BitVec 32)
  verd   : Table VerdictWord
  owner  : Word
  domain : BitVec 16
  fpsnap : BitVec 9
  shape  : BitVec 3
  drain  : Bool
  busy   : Bool
  free   : Bool
  deriving DecidableEq, Repr

/-- A drain in issue order (09 R224 to R228), `armed` once its MDRAIN has been accepted. Deadline, lease record and ranges are
those of its owner when it ended, and count only then (R225, R228). -/
structure Drain where
  tile     : Nat
  id       : BitVec 16
  compl    : Val
  rows     : Nat
  next     : Nat
  ended    : Nat
  failed   : Option Code
  taskid   : Word
  deadline : Word
  domain   : BitVec 16
  record   : BitVec 32
  ranges   : List Quad
  armed    : Bool
  deriving DecidableEq, Repr

/-- A completed engine operation as ENGST reports it (11 R273). -/
structure EngDone where
  id   : BitVec 16
  code : BitVec 8
  deriving DecidableEq, Repr

/-- The live or shadow totals of a capture channel (17 R407). -/
structure Totals where
  count : Word
  sum   : Word
  min   : Word
  max   : Word
  bins  : Table Word
  deriving DecidableEq, Repr

/-- What a place has counted and sampled in one cycle, by counter and by source: a register write of that cycle comes before it
(17 R405, R409). -/
structure Recent where
  cycle   : Nat
  counts  : Table Nat
  samples : List (Nat × Nat)
  deriving DecidableEq, Repr

/-- A capture channel (17 R407). `before` are its live totals at the start of the cycle of its last sample (R409). -/
structure Capture where
  source : BitVec 8
  enable : Bool
  edges  : Table Word
  live   : Totals
  shadow : Totals
  before : Nat × Totals
  deriving DecidableEq, Repr

/-- A packed travel context (14 R349) as data: the thread it carries, its partition id and the core it left. -/
structure Packed where
  thread : Thread
  part   : Nat
  src    : Nat
  deriving DecidableEq, Repr

/-- The crew a core holds (14 R346); `size` is the number of members CREW asked for. -/
structure CrewState where
  leader   : Word
  entry    : Val
  size     : Nat
  members  : List Nat
  reserved : Nat
  waiting  : Option Nat
  template : Thread
  deriving DecidableEq, Repr

/-- One core (01 R21). `claims` are the TASKIDs that claimed the matrix unit and wait for it, in order, each with the tile that
it claimed with the unit (09 R198, R208); `theta` is the storage address of the threshold of the running matrix operation and
the values it has had since the start, oldest first (R215); `pending` the sectors whose release stores their homes still hold
in their write buffers (13 R318). -/
structure Core where
  partn    : BitVec 2
  fmtr     : BitVec 6
  parklim  : BitVec 32
  hentry   : Val
  hparam   : Val
  hdomain  : BitVec 16
  linkdisc : Word
  inN      : List QueueEntry
  inE      : List QueueEntry
  inS      : List QueueEntry
  inW      : List QueueEntry
  flyN     : List QueueEntry
  flyE     : List QueueEntry
  flyS     : List QueueEntry
  flyW     : List QueueEntry
  tiles    : Table Tile
  drains   : List Drain
  matrix   : Option (Nat × Nat)
  claims   : List (Word × Option Nat)
  theta    : Option (Nat × List (BitVec 32))
  crew     : Option CrewState
  queues   : Table (List QueueEntry)
  engine   : List EngOp
  engNext  : BitVec 16
  engDone  : List EngDone
  near     : List NearLine
  pending  : List (Nat × Owner)
  plb      : List PlbEntry
  arrivals : List Packed
  repart   : Option Nat
  lanesOut : List Nat
  counters : Table Word
  captures : Table Capture
  recent   : Recent
  dispatches : Table Nat
  stopped  : Bool
  deriving DecidableEq, Repr

/-- An entry of the release directory (16 R399). -/
structure DirEntry where
  sector : Nat
  cores  : List Nat
  pulling : Bool
  deriving DecidableEq, Repr

/-- A release store in a home's write buffer (13 R318, R329). -/
structure BufStore where
  va     : Word
  sector : Nat
  loc    : Nat
  size   : Nat
  v      : Val
  owner  : Owner
  core   : Nat
  deriving DecidableEq, Repr

/-- A line of the home cache: its tag entry (10 R237, R239). `line` is the physical line, or the view line. -/
structure CacheLine where
  line    : Nat
  view    : Bool
  row     : Nat
  sectors : Nat
  dirty   : Bool
  deriving DecidableEq, Repr

/-- Kinds of wait record (14 R343). -/
inductive WaitKind where
  | wld | take | waitne (cmp : Word) | gbar
  deriving DecidableEq, Repr

/-- Whom a wait record serves (14 R343). -/
inductive Waiter where
  | slot (t : Nat)
  | entry (cluster idx : Nat)
  deriving DecidableEq, Repr

/-- A wait record of a home (14 R343); `word` is the storage address of its word. -/
structure WaitRec where
  word    : Nat
  kind    : WaitKind
  who     : Waiter
  op      : Nat
  spilled : Bool
  deriving DecidableEq, Repr

/-- A home frame table entry (16 R389). -/
structure HomeFrame where
  valid : Bool
  pins  : Nat
  vpn   : Nat
  deriving DecidableEq, Repr

/-- A way conversion in progress (10 R247). -/
structure Conversion where
  target : Nat
  compl  : Val
  domain : BitVec 16
  owner  : Word
  deriving DecidableEq, Repr

/-- Work a home still has to do for a binding or unbinding of a mark domain (12 R300, R301). -/
structure BindWork where
  dom  : Nat
  bind : Bool
  t    : Nat
  op   : Nat
  deriving DecidableEq, Repr

/-- One home (01 R18). `parked` are the messages that a live shift has held up, in the order in which they arrived (10 R252). -/
structure Home where
  registry  : List (Nat × Owner)
  directory : List DirEntry
  wbuf      : List BufStore
  cache     : List CacheLine
  frames    : Table HomeFrame
  waits     : List WaitRec
  waitovf   : Word
  ways      : Nat
  conv      : Option Conversion
  ticks     : Table Nat
  work      : List BindWork
  debt      : Table Nat
  backoff   : Table Nat
  shift     : Bool
  parked    : List Nat
  counters  : Table Word
  captures  : Table Capture
  recent    : Recent
  deriving DecidableEq, Repr

/-- States of a ready-set entry (14 R333). -/
inductive EntryState where
  | staging | eligible | noFit | stored
  deriving DecidableEq, Repr

/-- A ready-set entry (14 R333): a TCB, or a started task with its parked-TCB store entry. -/
structure ReadyEntry where
  tcb    : Tcb
  taskid : Word
  seq    : Nat
  key    : Word
  state  : EntryState
  domain : BitVec 16
  ranges : List Quad
  link   : Nat
  queue  : Option Nat
  store  : Option Nat
  bound  : Option Nat
  deriving DecidableEq, Repr

/-- An entry of a parked-TCB store (14 R341): the saved thread, where it ran, whether its wait is over, whether it must
resume on its own core (R342), whether it stands in the ready set, and the 512 granules written to its storage. -/
structure StoreEntry where
  thread : Thread
  core   : Nat
  slot   : Nat
  woken  : Bool
  bound  : Bool
  queued : Bool
  image  : List Val
  deriving DecidableEq, Repr

/-- One station (14 R333 to R335). -/
structure Station where
  heap     : List ReadyEntry
  overflow : List ReadyEntry
  seq      : Nat
  nextTask : Nat
  rsovf    : Word
  pkstore  : Word
  store    : Table StoreEntry
  steal    : Option Nat
  counters : Table Word
  recent   : Recent
  stopped  : Bool
  deriving DecidableEq, Repr

/-- Where a message goes or comes from. -/
inductive Place where
  | core (c : Nat)
  | station (s : Nat)
  deriving DecidableEq, Repr

/-- Who reaches the memory window from outside: a host link, or a peer port (18 R416, R419). -/
inductive Outside where
  | link (n : Nat)
  | port (n : Nat)
  deriving DecidableEq, Repr

/-- What a message asks or carries. -/
inductive Payload where
  /-- An access, atomic, wait or mark operation of operation op of thread t. -/
  | access (t op : Nat)
  /-- The read of an element of an engine operation, and its write with the bytes read (11 R276). -/
  | engRead (core : Nat) (id : BitVec 16) (va : Word)
  | engWrite (core : Nat) (id : BitVec 16) (va : Word) (v : BitVec 256)
  /-- A masked write of operation op at address va, with the tag it stores for STCAP. -/
  | write (t op : Nat) (va : Word) (mask : BitVec 32) (data : BitVec 256) (tag : Option Bool)
  /-- A registration of the sector at va for bytes placed in the near slice (13 R312). -/
  | register (t op : Nat) (va : Word) (mask : BitVec 32)
  | probe (t op : Nat)
  | echo (t op : Nat)
  /-- Masked bytes of a sector written back; whether the registration is cleared; who awaits the acknowledgement. -/
  | wback (core : Nat) (va : Word) (mask : BitVec 32) (data : BitVec 256) (tags : BitVec 2) (owner : Owner)
      (clear : Bool) (waiter : Option (Nat × Nat))
  /-- A home asks a core for all its released sectors (13 R319): `sent` once the core has sent them. -/
  | pull (home sector : Nat) (sent : Bool)
  | pullReply (home sector core : Nat)
  /-- A served wait record on its way (14 R344). -/
  | wake (who : Waiter) (op : Nat) (v : Word) (acq : Bool)
  | tick (dom gen n : Nat) (t op : Nat)
  | travel (ctx : Packed)
  | stealReply (entries : List ReadyEntry)
  /-- Bytes of one sector that a window write from outside stores, and their offset in the window (18 R416). -/
  | window (src : Outside) (off : Nat) (va : Word) (bytes : List Byte)
  deriving DecidableEq, Repr

/-- Where a message is on its way (16 R401). -/
inductive Ride where
  | waiting (since : Nat) (reserved : Bool)
  | onLoop (hops : Nat)
  | arrived
  deriving DecidableEq, Repr

/-- A message (01 R22 to R25); `owner` is the thread whose order it keeps (01 R18), `born` and `entered` the cycles at
which it was made and put on its first loop (17 R408), `leg` the loops behind it on its way, `reached` the cycle of its arrival.
Arrived messages stand in the list in the order of their arrival. -/
structure Msg where
  id      : Nat
  born    : Nat
  entered : Nat
  src     : Place
  dst     : Place
  part    : Nat
  ride    : Ride
  leg     : Nat
  reached : Nat
  owner   : Owner
  payload : Payload
  deriving DecidableEq, Repr

/-- A bound or unbound entry of the mark domain table (12 R284, 16 R398); `gen` counts its bindings. -/
structure MarkDomain where
  bound  : Bool
  tick   : Nat
  domain : BitVec 16
  dhome  : Nat
  desc   : List Byte
  base   : Nat
  top    : Nat
  gen    : Nat
  deriving DecidableEq, Repr

/-- An intake queue (14 R352). -/
structure IntakeQueue where
  cfg  : Word
  root : Quad
  stat : Word
  deriving DecidableEq, Repr

/-- An archive drive's registers (18 R421); `closing` is the write that clears EN while commands are outstanding. `tail`, `head` and
`phase` are the engine's places in the submission and the completion queue and the phase of the next completion entry (R420). -/
structure ArcQueue where
  cfg     : Word
  sqdb    : Word
  cqdb    : Word
  sqaddr  : Word
  cqaddr  : Word
  lbabase : Word
  stage   : Word
  st      : Word
  closing : Option Word
  tail    : Nat
  head    : Nat
  phase   : Bool
  deriving DecidableEq, Repr

/-- A stack's repair state (10 R251, 17 R410, R411). -/
structure Stack where
  repairmode : Word
  spares     : Word
  lanecrc    : Table Nat
  log        : List (BitVec 128)
  deriving DecidableEq, Repr

/-- The trust block (18 R425, R426). -/
structure Trust where
  nonce  : BitVec 256
  busy   : BitVec 2
  report : BitVec 1024
  sig    : BitVec 512
  count  : Word
  deriving DecidableEq, Repr

/-- An armed GANG (15 R379). -/
structure Gang where
  part    : Nat
  save    : Val
  load    : Option Val
  rect    : Quad
  compl   : Val
  ts      : Word
  domain  : BitVec 16
  ranges  : List Quad
  stopped : Bool
  deriving DecidableEq, Repr

/-- A saved partition (15 R381) as data: what its save area's bytes stand for, those bytes by their offset, the core and address by
which the area was written with the offsets of its threads' contexts, and the metadata of its scratchpads by storage address. -/
structure Saved where
  part     : Nat
  rect     : Nat
  ts       : Word
  cores    : Table Core
  threads  : Table Thread
  stations : Table Station
  image    : List Host.Cell
  area     : Nat × Word
  places   : Table Nat
  feEmpty  : List Nat
  tags     : List Nat
  poison   : List Nat
  owners   : Table Owner
  deriving DecidableEq, Repr

/-- What the device has sent out of the package, newest first (18). -/
inductive Output where
  | msix (vector link : Nat) (address : Word) (data : BitVec 32)
  | hostWrite (link : Nat) (addr : Nat) (bytes : List Byte)
  | hostReply (link bar off : Nat) (bytes : List Byte)
  | unsupported (link bar off : Nat)
  | peerWrite (port off : Nat) (bytes : List Byte)
  | peerReply (port off : Nat) (bytes : List Byte)
  | peerAck (port off : Nat)
  | peerUnsupported (port off : Nat)
  deriving DecidableEq, Repr

/-- The unit a thread is issuing: its first word's address, the address of the unit after it (03 R65), its
instruction word, bytes 8 to 15 of it, its kind 0x01 prefix word, whether its bytes could be fetched and whether
it is re-injected with captured sources (15 R372). -/
structure UnitWords where
  addr    : Word
  iaddr   : Word
  next    : Word
  first   : Word
  word    : Word
  wordHi  : Word
  arith   : Word
  bytes   : Nat
  replay  : Option (Val × Val × Val × Quad)
  deriving DecidableEq, Repr

/-- Management and device registers (18 R413). `busyRegs` are the offsets of registers whose last write was ignored and reads
back BUSY (14 R334, R352). `msix` holds the MSI-X table of each link, vector v of link l at 128·l + v, and `pba` the pending vectors
under the same numbers (18 R412). -/
structure Device where
  devstat : Word
  ptroot  : Word
  ltbase  : Word
  ltcount : Word
  pmap    : Table Word
  pmfo    : Table Word
  windows : Table FormatWindow
  marks   : Table MarkDomain
  intake  : Table IntakeQueue
  hwin    : Word
  pwrlim  : Word
  arcq    : Table ArcQueue
  ppstat  : Table Word
  trust   : Trust
  hbm  : Table Stack
  throttled : Bool
  busyRegs : List Nat
  msix     : Table Quad
  pba      : List Nat
  deriving DecidableEq, Repr

/-- The whole device. `stalled` says that the event in hand would have to read a line from a bank that is stalled, or bytes that a
way conversion still raises: such an event does not happen yet (10 R247, R250, R252; log 90). -/
structure State where
  steps    : Nat
  cycle    : Nat
  agenda   : List Instr
  cur      : Nat
  issuing  : Bool
  unit     : UnitWords
  draws    : Nat
  nextId   : Nat
  threads  : Table Thread
  cores    : Table Core
  homes    : Table Home
  stations : Table Station
  msgs     : List Msg
  fallout  : Table (List Msg)
  mem      : List Host.Cell
  feEmpty  : List Nat
  tags     : List Nat
  poison   : List Nat
  owners   : Table Owner
  dev      : Device
  gangs    : List Gang
  saved    : List Saved
  loaded   : List Saved
  out      : List Output
  stalled  : Bool
  deriving DecidableEq, Repr

/-- No flag raised. -/
def Flags.none : Flags := ⟨false, false, false, false, false⟩

/-- The owner field of storage nobody owns: class 3 is never used (13 R303). -/
def Owner.nobody : Owner := ⟨3, 0⟩

/-- Totals at reset: MIN all ones, the others 0 (17 R407). -/
def Totals.reset : Totals := ⟨0, 0, BitVec.allOnes 64, 0, []⟩

/-- A capture channel at reset (17 R407). -/
def Capture.reset : Capture := ⟨0, false, [], Totals.reset, Totals.reset, (0, Totals.reset)⟩

/-- A verdict state word at reset (09 R195). -/
def VerdictWord.reset : VerdictWord := ⟨0, 0, false, .isOpen⟩

/-- A tile at reset (09 R194). -/
def Tile.reset : Tile := ⟨[], [], 0, 0, 0, 0, false, false, true⟩
/-- A tile released: FPSNAP, which only MMA and SMMA write, stays (09 R194, R199). -/
def Tile.release (x : Tile) : Tile := { Tile.reset with fpsnap := x.fpsnap }

/-- A near-slice sector that is not held. -/
def Sector.invalid : Sector := ⟨.invalid, 0, 0, 0, Owner.nobody, false⟩

/-- A core at reset (05 R117, 09 R194, R223, 17 R406, R407). -/
def Core.reset : Core where
  partn := 1
  fmtr := 9
  parklim := 4096
  hentry := Val.zero
  hparam := Val.zero
  hdomain := 0
  linkdisc := 0
  inN := []
  inE := []
  inS := []
  inW := []
  flyN := []
  flyE := []
  flyS := []
  flyW := []
  tiles := []
  drains := []
  matrix := none
  claims := []
  theta := none
  crew := none
  queues := []
  engine := []
  engNext := 0
  engDone := []
  near := []
  pending := []
  plb := []
  arrivals := []
  repart := none
  lanesOut := []
  counters := []
  captures := []
  recent := ⟨0, [], []⟩
  dispatches := []
  stopped := false

/-- A home frame table entry at reset (16 R389). -/
def HomeFrame.reset : HomeFrame := ⟨false, 0, 0⟩

/-- A home at reset (10 R247, 14 R334, 16 R389, 17 R406). -/
def Home.reset : Home where
  registry := []
  directory := []
  wbuf := []
  cache := []
  frames := []
  waits := []
  waitovf := 0
  ways := 0
  conv := none
  ticks := []
  work := []
  debt := []
  backoff := []
  shift := false
  parked := []
  counters := []
  captures := []
  recent := ⟨0, [], []⟩

/-- A station at reset (14 R333 to R335). -/
def Station.reset : Station := ⟨[], [], 0, 1, 0, 0, [], none, [], ⟨0, [], []⟩, false⟩

/-- A mark domain entry at reset (16 R398). -/
def MarkDomain.reset : MarkDomain := ⟨false, 0, 0, 0, List.replicate 128 0, 0, 0, 0⟩

/-- A format window at reset (16 R396). -/
def FormatWindow.reset : FormatWindow := ⟨0, 0, 0, 0, 0⟩

/-- An intake queue at reset (14 R352). -/
def IntakeQueue.reset : IntakeQueue := ⟨0, 0, 0⟩

/-- An archive drive's registers at reset (18 R421). -/
def ArcQueue.reset : ArcQueue := ⟨0, 0, 0, 0, 0, 0, 0, 0, none, 0, 0, true⟩

/-- Bit 63 of SPARES where either field is 0 (17 R410). -/
def sparesMark (w : Word) : Word :=
  if w.extractLsb' 0 16 == 0 || w.extractLsb' 16 16 == 0 then w ||| 0x8000000000000000 else w
/-- SPARES of stack k after the training that follows draw number d: the fields are free (log 6), bit 63 follows them. -/
def trainedSpares (d k : Nat) : Word := sparesMark (Config.sparesAfterTraining (k + 16 * d) &&& 0x7FFFFFFFFFFFFFFF)
/-- A stack at reset (10 R251: CRCTHR 16, LIVE 1, TRAIN 1, PPR 0; SPARES by training, log 6). -/
def Stack.reset (k : Nat) : Stack := ⟨0x1006, trainedSpares 0 k, [], []⟩

/-- The unit record when no unit has been fetched. -/
def UnitWords.zero : UnitWords := ⟨0, 0, 0, 0, 0, 0, 0, 0, none⟩

/-- Whether training at reset left a stack with no spare lane or no spare row (17 R410). -/
def sparesGone : Bool := (List.range 16).any (fun k => (Stack.reset k).spares.getLsbD 63)
/-- An MSI-X table entry at reset: masked, address and data 0 (PRESUMED, log 102). -/
def msixReset : Quad := 2 ^ 96
/-- The device's registers at reset. FWBAD is what the boot ROM found; SPARE follows the SPARES that training left, and vector 121 is
pending where it is set (18 R414, R417, R424). -/
def Device.reset : Device where
  devstat := (if Config.firmwareBad then 1 else 0) ||| (if sparesGone then 2 else 0)
  ptroot := 0
  ltbase := 0
  ltcount := 0
  pmap := []
  pmfo := []
  windows := []
  marks := []
  intake := []
  hwin := 0
  pwrlim := 1800
  arcq := []
  ppstat := []
  trust := ⟨0, 0, 0, 0, Config.attestationCount⟩
  hbm := []
  throttled := false
  busyRegs := []
  msix := []
  pba := if sparesGone then [121] else []

/-- The device right after reset: the timestamp is 0 (17 R404), no slot holds a thread, nothing is in flight and
memory lists nothing (log 4, 5). -/
def State.reset : State where
  steps := 0
  cycle := 0
  agenda := []
  cur := 0
  issuing := false
  unit := UnitWords.zero
  draws := 0
  nextId := 1
  threads := []
  cores := []
  homes := []
  stations := []
  msgs := []
  fallout := []
  mem := []
  feEmpty := []
  tags := []
  poison := []
  owners := []
  dev := Device.reset
  gangs := []
  saved := []
  loaded := []
  out := []
  stalled := false

end Sys2Proof.Machine
end

