-- ==== Sys2Proof/Machine/Store.lean ====
section
/-!
DEFINITION. Number tables, memory by storage address in its canonical form, the metadata of words, granules and
sectors, the numbering of the package (01), time, and reads and writes of threads, cores, homes and stations.
-/

namespace Sys2Proof.Machine

/-- Why an issue does not complete in its turn: a trap with its cause address, a hold on a presence bit, a wait for something else in
the rotation, a park, or the travel of its task to core h, where it issues anew. -/
inductive Stop where
  | trap (code : Code) (cause : Word)
  | hold
  | wait
  | park (why : Park)
  | travel (h : Nat)
  deriving DecidableEq, Repr

/-- The entry of a number, if listed. -/
def tfind (t : Table α) (k : Nat) : Option α := t.lookup k
/-- The entry of a number, or the default. -/
def tget (t : Table α) (k : Nat) (d : α) : α := (t.lookup k).getD d
/-- Sets an entry, keeping rising order. -/
def tput : Table α → Nat → α → Table α
  | [], k, v => [(k, v)]
  | (j, w) :: r, k, v =>
    if k < j then (k, v) :: (j, w) :: r else if k = j then (k, v) :: r else (j, w) :: tput r k v
/-- Removes an entry. -/
def tdel (t : Table α) (k : Nat) : Table α := t.filter (fun x => x.1 != k)
/-- Changes an entry, starting from the default. -/
def tmod (t : Table α) (k : Nat) (d : α) (f : α → α) : Table α := tput t k (f (tget t k d))

/-- A number added to a rising list without repeats. -/
def linsert : List Nat → Nat → List Nat
  | [], k => [k]
  | j :: r, k => if k < j then k :: j :: r else if k = j then j :: r else j :: linsert r k

/-- What a byte that memory does not list reads as (log 5). -/
def unlistedByte : Byte := 0

/-- The byte at a storage address. -/
def memByte (m : List Host.Cell) (a : Nat) : Byte := tget m a unlistedByte
/-- A byte written; writing what an unlisted byte reads as removes the entry. -/
def memPut (m : List Host.Cell) (a : Nat) (b : Byte) : List Host.Cell :=
  if b = unlistedByte then tdel m a else tput m a b
/-- The canonical form: addresses strictly rising and no entry equal to what an unlisted address reads as. -/
def memWf (m : List Host.Cell) : Bool :=
  (m.map Prod.fst).Pairwise (· < ·) && m.all (fun c => c.2 != unlistedByte)

/-- n bytes at a storage address as a little-endian number (00 R5). -/
def State.load (s : State) (a : Nat) : Nat → Nat
  | 0 => 0
  | n + 1 => (memByte s.mem a).toNat + 256 * s.load (a + 1) n

/-- n little-endian bytes stored into a memory (00 R5). -/
def memStore (m : List Host.Cell) (a : Nat) : Nat → Nat → List Host.Cell
  | 0, _ => m
  | n + 1, v => memStore (memPut m a (BitVec.ofNat 8 v)) (a + 1) n (v / 256)

/-- The tags of the granules that hold any of n bytes at a, cleared (10 R241). -/
def clearTags (tags : List Nat) (a n : Nat) : List Nat :=
  tags.filter (fun g => !(decide (g < a + n) && decide (a < g + 16)))

/-- n bytes stored at a storage address: TAG of every granule touched is cleared, FE stays (10 R241). -/
def State.store (s : State) (a n v : Nat) : State :=
  { s with mem := memStore s.mem a n v, tags := clearTags s.tags a n }

/-- The TAG bit of the granule at a storage address (10 R241). -/
def State.tagAt (s : State) (a : Nat) : Bool := s.tags.contains (a / 16 * 16)
/-- The TAG bit of a granule, set. -/
def State.setTag (s : State) (a : Nat) (b : Bool) : State :=
  if b then { s with tags := linsert s.tags (a / 16 * 16) }
  else { s with tags := s.tags.filter (· != a / 16 * 16) }
/-- A 16-byte granule stored with its tag, as STCAP stores it (11 R259). -/
def State.storeCap (s : State) (a : Nat) (v : Val) : State := (s.store a 16 v.bits.toNat).setTag a v.tag
/-- A 16-byte granule with its tag; a pattern no instruction can make reads untagged (05 R107). -/
def State.loadCap (s : State) (a : Nat) : Val :=
  let q := BitVec.ofNat 128 (s.load a 16)
  ⟨q, s.tagAt a && !capForged q⟩
/-- The FE bit of the word at a storage address (10 R241). -/
def State.feAt (s : State) (a : Nat) : Bool := !s.feEmpty.contains (a / 8 * 8)
/-- The FE bit of a word, set. -/
def State.setFe (s : State) (a : Nat) (full : Bool) : State :=
  if full then { s with feEmpty := s.feEmpty.filter (· != a / 8 * 8) }
  else { s with feEmpty := linsert s.feEmpty (a / 8 * 8) }
/-- The poison mark of the sector at a storage address (10 R243). -/
def State.poisonAt (s : State) (a : Nat) : Bool := s.poison.contains (a / 32)
/-- The poison mark of a sector, set. -/
def State.setPoison (s : State) (a : Nat) (b : Bool) : State :=
  if b then { s with poison := linsert s.poison (a / 32) }
  else { s with poison := s.poison.filter (· != a / 32) }

/-- Storage zeroed on a change of owner (10 R249): data zero, FE full, TAG, owner and poison clear. -/
def State.zeroRange (s : State) (a n : Nat) : State :=
  let out (x : Nat) : Bool := x < a || a + n ≤ x
  { s with
    mem := s.mem.filter (fun c => out c.1)
    feEmpty := s.feEmpty.filter out
    tags := s.tags.filter out
    poison := s.poison.filter (fun x => out (32 * x))
    owners := s.owners.filter (fun x => out (32 * x.1)) }

/-- First storage address of core c's scratchpad (10 R230). -/
def spadLoc (c off : Nat) : Nat := 2 ^ 40 + c * 2 ^ 18 + off
/-- First storage address of home h's chip scratchpad (10 R230, R247). -/
def chipLoc (h off : Nat) : Nat := 2 ^ 41 + h * 2 ^ 18 + off
/-- A byte of a unit of lane l's slice on core c (07 R171). -/
def laneLoc (c l unit off : Nat) : Nat := 2 ^ 42 + c * 2 ^ 15 + l * 1024 + unit * 256 + off
/-- A byte of HBM by its physical address (16 R384). -/
def isHbm (loc : Nat) : Bool := loc < 2 ^ 40
/-- The core that holds a storage address: the home of an HBM byte, else the core of the scratchpad (01 R18). -/
def holder (loc : Nat) : Nat := if loc < 2 ^ 40 then loc / 2 ^ 30 else loc / 2 ^ 18 % 1024

/-- Core number to grid position and groups (01 R15, R16). -/
def coreX (c : Nat) : Nat := c % 32
def coreY (c : Nat) : Nat := c / 32 % 32
def clusterOf (c : Nat) : Nat := 8 * (coreY c / 4) + coreX c / 4
def dieOf (c : Nat) : Nat := coreX c / 16 + 2 * (coreY c / 16)
def stackOf (c : Nat) : Nat := 4 * dieOf c + (coreX c % 16 / 8 + 2 * (coreY c % 16 / 8))
/-- Core-in-cluster position (01 R23). -/
def inCluster (c : Nat) : Nat := 4 * (coreY c % 4) + coreX c % 4
/-- The core at a position of a cluster. -/
def coreAt (cl j : Nat) : Nat := 32 * (4 * (cl / 8) + j / 4) + (4 * (cl % 8) + j % 4)
/-- The neighbour on a side, none where the link is absent (01 R26). -/
def neighbour (c : Nat) : Side → Option Nat
  | .n => if coreY c = 0 then none else some (c - 32)
  | .e => if coreX c = 31 then none else some (c + 1)
  | .s => if coreY c = 31 then none else some (c + 32)
  | .w => if coreX c = 0 then none else some (c - 1)
/-- The side by which a value arrives (01 R26). -/
def Side.opposite : Side → Side | .n => .s | .e => .w | .s => .n | .w => .e

/-- Thread number to core and slot (12 R289). -/
def tcore (t : Nat) : Nat := t / 128
def tslot (t : Nat) : Nat := t % 128
def tnum (c slot : Nat) : Nat := 128 * c + slot

def State.thread (s : State) (t : Nat) : Option Thread := tfind s.threads t
def State.setThread (s : State) (t : Nat) (th : Thread) : State := { s with threads := tput s.threads t th }
def State.dropThread (s : State) (t : Nat) : State := { s with threads := tdel s.threads t }
def State.modThread (s : State) (t : Nat) (f : Thread → Thread) : State :=
  match s.thread t with | some th => s.setThread t (f th) | none => s
def State.core (s : State) (c : Nat) : Core := tget s.cores c Core.reset
def State.setCore (s : State) (c : Nat) (k : Core) : State := { s with cores := tput s.cores c k }
def State.modCore (s : State) (c : Nat) (f : Core → Core) : State := s.setCore c (f (s.core c))
def State.home (s : State) (h : Nat) : Home := tget s.homes h Home.reset
def State.setHome (s : State) (h : Nat) (k : Home) : State := { s with homes := tput s.homes h k }
def State.modHome (s : State) (h : Nat) (f : Home → Home) : State := s.setHome h (f (s.home h))
def State.station (s : State) (c : Nat) : Station := tget s.stations c Station.reset
def State.setStation (s : State) (c : Nat) (k : Station) : State := { s with stations := tput s.stations c k }
def State.modStation (s : State) (c : Nat) (f : Station → Station) : State := s.setStation c (f (s.station c))
def State.modDev (s : State) (f : Device → Device) : State := { s with dev := f s.dev }
/-- Something sent out of the package, newest first. -/
def State.emit (s : State) (o : Output) : State := { s with out := o :: s.out }
/-- The MSI-X table entry of a vector on a link (18 R412): message address in bits [63:0], data in [95:64], mask in bit 96. -/
def State.msixEntry (s : State) (vector link : Nat) : Quad := tget s.dev.msix (128 * link + vector) msixReset
/-- A vector signalled on a link (18 R412, R417): its message goes out, or stays pending while the vector is masked. -/
def State.signal (s : State) (vector link : Nat) : State :=
  let e := s.msixEntry vector link
  let n := 128 * link + vector
  if !e.getLsbD 96 then s.emit (.msix vector link (e.extractLsb' 0 64) (e.extractLsb' 64 32))
  else if s.dev.pba.contains n then s
  else { s with dev := { s.dev with pba := n :: s.dev.pba } }

/-- The timestamp: ns since reset of a 1.5 GHz cycle count (00 R7, 01 R20, 17 R404). -/
def State.ts (s : State) : Nat := 2 * s.cycle / 3
/-- The reading of a place, at most 2 ns behind (17 R404, log 2). -/
def State.tsAt (s : State) (place : Nat) : Nat := s.ts - Config.skew place % 3

/-- A free 64-bit value (log 3). -/
def State.draw (s : State) : Word × State := (Config.freeWord s.draws, { s with draws := s.draws + 1 })

/-- Saturating count (17 R405). -/
def satAdd (w : Word) (n : Nat) : Word := BitVec.ofNat 64 (min (2 ^ 64 - 1) (w.toNat + n))
/-- An event counter of a core, home or station, by its place in the table of 17 R406. -/
def countIn (t : Table Word) (k n : Nat) : Table Word := tmod t k 0 (fun w => satAdd w n)
/-- What was counted and sampled in cycle n, nothing where that was an earlier one. -/
def Recent.at (r : Recent) (n : Nat) : Recent := if r.cycle = n then r else ⟨n, [], []⟩
def Recent.count (r : Recent) (k n : Nat) : Recent := { r with counts := tmod r.counts k 0 (· + n) }
def State.countCore (s : State) (c k n : Nat) : State :=
  s.modCore c (fun x => { x with counters := countIn x.counters k n, recent := (x.recent.at s.cycle).count k n })
def State.countHome (s : State) (h k n : Nat) : State :=
  s.modHome h (fun x => { x with counters := countIn x.counters k n, recent := (x.recent.at s.cycle).count k n })
def State.countStation (s : State) (h k n : Nat) : State :=
  s.modStation h (fun x => { x with counters := countIn x.counters k n, recent := (x.recent.at s.cycle).count k n })

/-- Places of the counters in the table of 17 R406. -/
def cISSUED : Nat := 0
def cHELD : Nat := 1
def cPLBMISS : Nat := 2
def cBYPASS : Nat := 3
def cMACCYC : Nat := 4
def cABANDON : Nat := 5
def cLATESTART : Nat := 0
def cSTOREFULL : Nat := 1
def cDONATED : Nat := 2
def cHCMISS : Nat := 0
def cCASCADE : Nat := 1
def cSHED : Nat := 2
def cFPULL : Nat := 3
def cWSPILL : Nat := 4
def cWREFUSE : Nat := 5
def cREFSTALL : Nat := 6
def cECCCOR : Nat := 7
def cECCUNC : Nat := 8

/-- A sample added to the totals (17 R409). -/
def Totals.add (x : Totals) (edges : Table Word) (v : Word) : Totals :=
  let j := ((List.range 15).map (· + 1)).foldl (fun b i => if tget edges i 0 ≤ v then i else b) 0
  ⟨satAdd x.count 1, satAdd x.sum v.toNat, if v < x.min then v else x.min, if x.max < v then v else x.max,
    tmod x.bins j 0 (fun w => satAdd w 1)⟩
/-- A sample of a source taken by a channel in cycle n (17 R407, R409). -/
def Capture.take (x : Capture) (n source v : Nat) : Capture :=
  if x.enable && x.source.toNat == source then
    { x with live := x.live.add x.edges (BitVec.ofNat 64 v), before := if x.before.1 = n then x.before else (n, x.live) }
  else x
def Recent.sample (r : Recent) (source v : Nat) : Recent := { r with samples := r.samples ++ [(source, v)] }
/-- A sample of a source offered to the channels of a place (17 R407, R408). -/
def sampleIn (caps : Table Capture) (n source v : Nat) : Table Capture := caps.map (fun x => (x.1, x.2.take n source v))
def State.sampleCore (s : State) (c source v : Nat) : State :=
  s.modCore c (fun x => { x with captures := sampleIn x.captures s.cycle source v, recent := (x.recent.at s.cycle).sample source v })
def State.sampleHome (s : State) (h source v : Nat) : State :=
  s.modHome h (fun x => { x with captures := sampleIn x.captures s.cycle source v, recent := (x.recent.at s.cycle).sample source v })

/-- The clusters of a rectangle word (15 R379, 16 R402): cx0, cy0, cx1, cy1 in three bits each. -/
def inRect (r : Nat) (cl : Nat) : Bool :=
  r % 8 ≤ cl % 8 && cl % 8 ≤ r / 64 % 8 && r / 8 % 8 ≤ cl / 8 && cl / 8 ≤ r / 512 % 8
/-- The partition of a cluster (16 R402). -/
def State.partOf (s : State) (cl : Nat) : Nat :=
  (((List.range 15).map (· + 1)).find? (fun n =>
    let w := (tget s.dev.pmap n 0).toNat
    w % 2 == 1 && inRect (w / 2 % 4096) cl)).getD 0

/-- Registers of a partition slot (05 R108). -/
def slotSize (partn : BitVec 2) : Nat := 32 * 2 ^ partn.toNat
/-- Partition slots of a core (05 R108). -/
def slotCount (partn : BitVec 2) : Nat := 64 / 2 ^ partn.toNat

/-- A register of a thread; one never written is zero, untagged, present (05 R118, R119). -/
def Thread.reg (th : Thread) (k : Nat) : Reg := tget th.regs k ⟨Val.zero, true⟩
def Thread.setReg (th : Thread) (k : Nat) (v : Val) : Thread := { th with regs := tput th.regs k ⟨v, true⟩ }
/-- Presence of a register, data and tag unchanged (05 R100). -/
def Thread.setPresent (th : Thread) (k : Nat) (p : Bool) : Thread :=
  { th with regs := tput th.regs k ⟨(th.reg k).v, p⟩ }
/-- A value written to a destination that names a register or z (03 R50). -/
def Thread.write (th : Thread) (d : Opn) (v : Val) : Thread := if d.toNat < 256 then th.setReg d.toNat v else th
/-- The value of a source that names a register or z (03 R50). -/
def Thread.read (th : Thread) (a : Opn) : Val := if a.toNat < 256 then (th.reg a.toNat).v else Val.zero

/-- The data of a group as one string, kN lowest; z reads zeros (03 R54, 04 R74). -/
def Thread.groupBits (th : Thread) (a : Opn) : Nat → Nat
  | 0 => 0
  | n + 1 => (th.read a).bits.toNat + 2 ^ 128 * (if a.toNat < 256 then th.groupBits (a + 1) n else 0)
/-- A string of data written into a group, tags clear; z discards it (03 R54, 07 R146). -/
def Thread.writeGroup (th : Thread) (d : Opn) : Nat → Nat → Thread
  | 0, _ => th
  | n + 1, v =>
    if d.toNat < 256 then
      (th.setReg d.toNat (Val.data (BitVec.ofNat 128 v))).writeGroup (d + 1) n (v / 2 ^ 128)
    else th

/-- The program counter of a thread. -/
def Thread.pc (th : Thread) : Nat := (capCursor th.pcc.bits).toNat
/-- PCC with its cursor at an address. -/
def Thread.setPc (th : Thread) (a : Nat) : Thread :=
  let v := capMove ⟨th.pcc.bits, true⟩ (BitVec.ofNat 64 a)
  { th with pcc := v }

/-- The owner number of a thread (13 R303). -/
def Thread.owner (t : Nat) (th : Thread) : Owner :=
  match th.dispatch with
  | some d =>
    ⟨2, BitVec.ofNat 64 (tcore t % 1024 * 2 ^ 32 + (if tslot t == 65 then 2 ^ 31 else 0) + d.count % 2 ^ 31)⟩
  | none => ⟨0, th.taskid⟩
/-- The owner number of an engine operation (13 R303). -/
def engineOwner (c : Nat) (id : BitVec 16) : Owner := ⟨1, BitVec.ofNat 64 (c % 1024 * 2 ^ 16 + id.toNat)⟩
/-- The owner number of a matrix operation (13 R303). -/
def matrixOwner (c : Nat) : Owner := ⟨1, BitVec.ofNat 64 (2 ^ 26 + c % 1024 * 2 ^ 16)⟩

/-- Operations of a thread. -/
def Thread.op (th : Thread) (id : Nat) : Option Op := th.ops.find? (fun o => o.id == id)
def Thread.modOp (th : Thread) (id : Nat) (f : Op → Op) : Thread :=
  { th with ops := th.ops.map (fun o => if o.id == id then f o else o) }
def Thread.dropOp (th : Thread) (id : Nat) : Thread := { th with ops := th.ops.filter (fun o => o.id != id) }

/-- The fields of FPST as its five flag bits (05 R114). -/
def Flags.bits (f : Flags) : BitVec 5 :=
  BitVec.ofBool f.nv ++ BitVec.ofBool f.dz ++ BitVec.ofBool f.of ++ BitVec.ofBool f.uf ++ BitVec.ofBool f.nx
def Flags.ofBits (b : BitVec 5) : Flags := ⟨b.getLsbD 4, b.getLsbD 3, b.getLsbD 2, b.getLsbD 1, b.getLsbD 0⟩

end Sys2Proof.Machine
end

