-- ==== Sys2Proof/Machine/Access.lean ====
section
/-!
DEFINITION. How an address becomes storage and who may touch it: regions, views, page walks, leases, the PLB, the
near slice, messages, probes and write-backs (10, 11 R255, 13, 16).
-/

namespace Sys2Proof.Machine

/-- The region selector of an address (10 R230). -/
def selector (va : Word) : Nat := va.toNat / 2 ^ 56
/-- Bits [55:0] of an address. -/
def va56 (va : Word) : Nat := va.toNat % 2 ^ 56
/-- The sector address of an address. -/
def sectorVa (va : Word) : Word := BitVec.ofNat 64 (va.toNat / 32 * 32)

/-- A valid leaf met by a walk (16 R386). -/
structure Leaf where
  level  : Nat
  entry  : Nat
  word   : Nat
  home   : Nat
  frame  : Nat
  domain : BitVec 16
  deriving DecidableEq, Repr

/-- log2 of the bytes a leaf of a level maps (16 R385). -/
def Leaf.bits (level : Nat) : Nat := if level = 1 then 30 else if level = 2 then 24 else 18

/-- A word of a line as a read finds it: buffered release stores of its home are in the line first (13 R329). -/
def State.loadFresh (s : State) (a n : Nat) : Nat :=
  let h := s.home (holder a)
  leNat ((List.range n).map (fun i =>
    match h.wbuf.reverse.find? (fun b => decide (b.loc ≤ a + i) && decide (a + i < b.loc + b.size)) with
    | some b => BitVec.ofNat 8 (b.v.bits.toNat / 2 ^ (8 * (a + i - b.loc)))
    | none => memByte s.mem (a + i)))
/-- The walk from one level on (16 R387); the list holds level, shift and index bits. -/
def walkFrom (s : State) (va : Nat) (table : Nat) : List (Nat × Nat × Nat) → Option Leaf
  | [] => none
  | (level, shift, bits) :: rest =>
    let a := table + 8 * (va / 2 ^ shift % 2 ^ bits)
    let w := s.loadFresh a 8
    match w / 2 ^ 62 with
    | 1 => if w / 2 ^ 40 % 2 ^ 22 != 0 || w % 512 != 0 then none else walkFrom s va (w % 2 ^ 40) rest
    | 2 =>
      let frame := w / 2 ^ 24 % 4096
      let span := 2 ^ (shift - 18)
      if level = 0 || w % 2 ^ 24 != 0 || Config.framesPerHome ≤ frame + (span - 1) / 1024 then none
      else some ⟨level, a, w, w / 2 ^ 36 % 1024, frame, BitVec.ofNat 16 (w / 2 ^ 46)⟩
    | _ => none

/-- Level, shift and index bits of each level (16 R385). -/
def walkLevels : List (Nat × Nat × Nat) := [(0, 42, 14), (1, 30, 12), (2, 24, 6), (3, 18, 6)]
/-- A page walk (16 R385, R387), as its tables stand; the relaxed reads that it makes are State.walkReads. -/
def walk (s : State) (va : Nat) : Option Leaf :=
  walkFrom s va (s.dev.ptroot.toNat % 2 ^ 40 / 2 ^ 17 * 2 ^ 17) walkLevels

/-- The storage address a leaf gives an address of its page (16 R386). -/
def leafLoc (home frame level va : Nat) : Nat :=
  let i := va % 2 ^ Leaf.bits level / 2 ^ 18
  (home + i) % 1024 * 2 ^ 30 + (frame + i / 1024) * 2 ^ 18 + va % 2 ^ 18

/-- Whether format window n is in force (16 R396). -/
def windowValid (w : FormatWindow) : Bool := w.cfg.getLsbD 0
/-- The format of a window (16 R396). -/
def windowFormat (w : FormatWindow) : BitVec 6 := w.cfg.extractLsb' 8 6
/-- View bytes of a unit of 1,024 elements (04 R83). -/
def viewBytes (f : BitVec 6) : Nat := 128 * typeWidth f
/-- The windows in ascending number (10 R244). -/
def State.windows (s : State) : List FormatWindow := (List.range 16).map (fun n => tget s.dev.windows n FormatWindow.reset)
/-- Ends of a window's stored and view ranges (10 R244, R245). -/
def storedEnd (w : FormatWindow) : Nat := w.base.toNat + w.len.toNat * 2 ^ 18
def viewEnd (w : FormatWindow) : Nat := w.view.toNat + w.len.toNat * 2 ^ 18 / 1024 * viewBytes (windowFormat w)
/-- Whether a valid window's stored range, or a valid plane window's view range, holds an address. -/
def inStored (w : FormatWindow) (va : Nat) : Bool := windowValid w && w.base.toNat ≤ va && va < storedEnd w
def inView (w : FormatWindow) (va : Nat) : Bool :=
  windowValid w && isPlaneType (windowFormat w) && w.view.toNat ≤ va && va < viewEnd w
/-- The window that applies at an address: of those that hold it, the one of lowest number (10 R244). -/
def windowOf (s : State) (va : Nat) : Option FormatWindow := s.windows.find? (fun w => inView w va || inStored w va)
/-- The plane window in whose view an address lies (10 R245). -/
def viewOf (s : State) (va : Nat) : Option FormatWindow := (windowOf s va).filter (fun w => inView w va)
/-- The window in whose stored range an address lies (10 R244). -/
def storedIn (s : State) (va : Nat) : Option FormatWindow := (windowOf s va).filter (fun w => inStored w va)
/-- Whether any of n bytes from an address on lies in a view: the first byte, or one where a window's range begins or
ends. -/
def viewMeets (s : State) (va n : Nat) : Bool :=
  let ends := ((s.windows.filter windowValid).map (fun w => [w.base.toNat, storedEnd w, w.view.toNat, viewEnd w])).flatten
  (va :: ends.filter (fun e => decide (va < e) && decide (e < va + n))).any (fun b => (viewOf s b).isSome)
/-- The stored address of the unit that holds a view address (10 R245). -/
def viewUnit (w : FormatWindow) (va : Nat) : Nat := w.base.toNat + 1024 * ((va - w.view.toNat) / viewBytes (windowFormat w))

/-- Addresses of the sectors of n bytes at an address. -/
def sectorsOf (va : Word) (n : Nat) : List Word :=
  (List.range ((va.toNat % 32 + n + 31) / 32)).map (fun i => sectorVa va + BitVec.ofNat 64 (32 * i))
/-- The sectors whose stored bytes a read at an address reaches: those of the plane lines of a view's unit, p plane lines of
128 bytes each (10 R246), else its own. -/
def readSectors (s : State) (va : Word) (n : Nat) : List Word :=
  match selector va, viewOf s (va56 va) with
  | 0, some w => sectorsOf (BitVec.ofNat 64 (viewUnit w (va56 va))) (128 * ((windowFormat w).toNat - 18))
  | _, _ => sectorsOf va n
/-- Whether a PLB entry covers bits [55:0] of an address (16 R388). -/
def PlbEntry.covers (e : PlbEntry) (va : Nat) : Bool := e.vpn == va / 2 ^ Leaf.bits e.level
/-- The physical address of bits [55:0] of an address of region 0x00, for core c: by HOME and FRAME of the PLB entry that covers
it and was used last (16 R388), else by a walk (R387). -/
def mapped (s : State) (c : Nat) (va : Nat) : Option Nat :=
  match (s.core c).plb.reverse.find? (fun e => e.covers va) with
  | some e => some (leafLoc e.home e.frame e.level va)
  | none => (walk s va).map (fun l => leafLoc l.home l.frame l.level va)
/-- The number by which the device itself looks up storage: of no core, so that no PLB answers (16 R387). -/
def noCore : Nat := Config.cores
/-- The storage address of an address, for a thread on core c; none where no frame or storage stands behind it. -/
def storage (s : State) (c : Nat) (va : Word) : Option Nat :=
  let o := va56 va
  match selector va with
  | 0 => mapped s c o
  | 0xF0 => some (spadLoc c (o % 2 ^ 18))
  | 0xF1 => some (spadLoc (coreAt (clusterOf c) (o / 2 ^ 16 % 16)) (0x20000 + o % 2 ^ 16))
  | 0xF2 => some (chipLoc (o / 2 ^ 18 % 1024) (o % 2 ^ 18))
  | 0xF3 => some (spadLoc (o / 2 ^ 18 % 1024) (o % 2 ^ 18))
  | _ => none

/-- Ways of a home that offsets of region 0xF2 may name: from the issue of a conversion on, its target (10 R247). -/
def Home.chipWays (k : Home) : Nat := match k.conv with | some v => v.target | none => k.ways
/-- Step 1 of 10 R231 for n > 0 bytes. -/
def regionOk (s : State) (va : Word) (n : Nat) : Bool :=
  let a := va.toNat
  let b := a + n - 1
  let o := va56 va
  let f := b % 2 ^ 56
  a / 2 ^ 56 == b / 2 ^ 56 &&
  match selector va with
  | 0 => true
  | 0xF0 => f < 0x30000
  | 0xF1 => f < 2 ^ 20 && o / 2 ^ 16 == f / 2 ^ 16
  | 0xF2 => f < 2 ^ 28 && o / 2 ^ 18 == f / 2 ^ 18 && f % 2 ^ 18 < 32768 * (s.home (o / 2 ^ 18)).chipWays
  | 0xF3 => f < 2 ^ 28 && o / 2 ^ 18 == f / 2 ^ 18 && f % 2 ^ 18 < 0x30000
  | 0xF8 => o / 2 ^ 53 == f / 2 ^ 53
  | 0xFC => o / 2 ^ 54 == f / 2 ^ 54 && (o < 2 ^ 55 || f < 2 ^ 55 + 2 ^ 27)
  | _ => false

/-- A lease range that holds byte a and grants `need` by itself (10 R232): its top. -/
def rangeTop (ranges : List Quad) (need : BitVec 12) (a : Nat) : Nat :=
  ranges.foldl (fun best q =>
    if capBase q ≤ (a : Int) && (a : Int) < capTop q && grants (capPerms q) need then max best (capTop q).toNat
    else best) 0
/-- Every byte of [a, b) lies in a range that grants `need` (10 R231 step 3). `fuel` counts ranges. -/
def covered (ranges : List Quad) (need : BitVec 12) : Nat → Nat → Nat → Bool
  | _, 0, a => decide (a = 0)
  | 0, b, a => decide (b ≤ a)
  | fuel + 1, b, a => decide (b ≤ a) || (decide (a < rangeTop ranges need a) && covered ranges need fuel b (rangeTop ranges need a))
/-- Whether n bytes at an address lie in ranges that grant `need`. -/
def leased (ranges : List Quad) (need : BitVec 12) (va : Word) (n : Nat) : Bool :=
  covered ranges need (ranges.length + 1) (va.toNat + n) va.toNat

/-- What an access asks: permissions of its capability and of its lease range (10 R232), whether it may read a view
(10 R246), reach host memory and management space (18 R415), or a peer (18 R419). -/
structure Want where
  need  : BitVec 12
  lease : BitVec 12
  view  : Bool
  host  : Bool
  peer  : Bool
  deriving DecidableEq, Repr

/-- Steps 1 to 4 of 10 R231 for a thread with supervisor bit `sup` and ranges `ranges`. -/
def regionCheck (s : State) (sup : Bool) (ranges : List Quad) (w : Want) (va : Word) (n : Nat) : Option Code :=
  let sel := selector va
  if !regionOk s va n then some .region
  else if sel == 0xF8 && (!w.peer || 32 < n || !(tget s.dev.ppstat (va56 va / 2 ^ 53) 0).getLsbD 0) then some .region
  else if sel == 0xFC && (!w.host || 32 < n) then some .region
  else if (sel == 0xF3 || (sel == 0xFC && va.getLsbD 55)) && !sup then some .privilege
  else if !leased ranges w.lease va n then some .lease
  else if sel == 0 && !w.view && viewMeets s (va56 va) n then some .viewReadonly
  else none

/-- Permissions with SY where the region asks it (05 R103). -/
def withSy (need : BitVec 12) (va : Word) : BitVec 12 :=
  if selector va == 0xF3 || selector va == 0xF8 || selector va == 0xFC then need ||| permSY else need

/-- Steps 2 and 3 of 11 R255: R106 through capability v, then R231. -/
def accessCheck (s : State) (th : Thread) (v : Val) (w : Want) (va : Word) (n align : Nat) : Option Code :=
  match capCheck v (withSy w.need va) va.toNat n align with
  | some c => some c
  | none => regionCheck s th.sup th.ranges w va n

/-- The PLB entry of a slot that covers an address (16 R388). -/
def plbHit (e : PlbEntry) (slot va : Nat) : Bool := e.slot == slot && e.covers va
def plbFind (k : Core) (slot va : Nat) : Option PlbEntry := k.plb.find? (fun e => plbHit e slot va)
/-- An entry used becomes the most recent. -/
def plbTouch (k : Core) (e : PlbEntry) : Core := { k with plb := k.plb.filter (· != e) ++ [e] }

/-- The address whose translation an access needs: a view address is mapped to its stored unit first (10 R246). -/
def translated (s : State) (va : Word) : Nat :=
  match viewOf s (va56 va) with | some w => viewUnit w (va56 va) | none => va56 va

/-- The address at which an access finds its home: that of the stored unit for a view address (10 R246). -/
def storedVa (s : State) (va : Word) : Word := if selector va == 0 then BitVec.ofNat 64 (translated s va) else va
/-- An access to offsets of a home that a conversion still raises parks until it ends (10 R247). -/
def converting (s : State) (va : Word) (n : Nat) : Bool :=
  selector va == 0xF2 && decide (32768 * (s.home (va56 va / 2 ^ 18)).ways < va56 va % 2 ^ 18 + n)
/-- An event that reaches such offsets in one go waits (10 R247). -/
def State.waitRaise (s : State) (va : Word) (n : Nat) : State := if converting s va n then { s with stalled := true } else s
/-- Translation of an address for thread t: a PLB miss parks (16 R388); regions other than 0x00 need none. -/
def translate (s : State) (t : Nat) (va : Word) : Except Stop State :=
  if selector va != 0 then .ok s
  else
    let a := translated s va
    match plbFind (s.core (tcore t)) (tslot t) a with
    | some e => .ok (s.modCore (tcore t) (fun k => plbTouch k e))
    | none => .error (.park (.plb (a / 2 ^ 18) va))

/-- Translation of k further pages of a span, each after the one before. -/
def translatePages (s : State) (t : Nat) (va : Word) : Nat → Except Stop State
  | 0 => .ok s
  | k + 1 =>
    match translate s t va with
    | .error e => .error e
    | .ok s => translatePages s t (BitVec.ofNat 64 ((va.toNat / 2 ^ 18 + 1) * 2 ^ 18)) k
/-- Translation of every page that n bytes at an address touch. -/
def translateSpan (s : State) (t : Nat) (va : Word) (n : Nat) : Except Stop State :=
  translatePages s t va ((va.toNat % 2 ^ 18 + n - 1) / 2 ^ 18 + 1)

/-- The bound mark domain whose cells meet n bytes at an address (12 R290), as home h has it: once it has rewritten them
(12 R300), and until it has updated them for an unbinding (R301). -/
def markAt (s : State) (va : Word) (n : Nat) (h : Nat) : Bool :=
  selector va == 0 && s.dev.marks.any (fun x =>
    let rewriting := (s.home h).work.any (fun w => w.dom == x.1 && w.bind)
    let undone := (s.home h).work.any (fun w => w.dom == x.1 && !w.bind)
    ((x.2.bound && !rewriting) || undone)
      && decide (x.2.base < va56 va + n) && decide (va56 va < x.2.top))

/-- The BANKMASK bit of a core number (01 R18, 13 R317). -/
def bankBit (h : Nat) : Word := (1 : Word) <<< (h % 64)

/-- The cycle of an arrival at a place: a thread's messages reach one in different cycles (12 R289). -/
def State.arrival (s : State) (dst : Place) (owner : Owner) : Nat :=
  s.msgs.foldl (fun n m =>
    if m.ride == .arrived && m.dst == dst && m.owner == owner && owner != Owner.nobody then max n (m.reached + 1) else n) s.cycle
/-- A message given to the loops; one that stays on its core arrives at once (01 R25). -/
def State.send (s : State) (src dst : Place) (owner : Owner) (p : Payload) : State :=
  let cl := match src with | .core c => clusterOf c | .station x => x
  let m : Msg :=
    ⟨s.nextId, s.cycle, s.cycle, src, dst, s.partOf cl, if src = dst then .arrived else .waiting s.cycle false, 0, s.arrival dst owner, owner, p⟩
  { s with msgs := s.msgs ++ [m], nextId := s.nextId + 1 }
/-- A message of partition `part` on the loops (15 R380, 14 R349). -/
def State.sendIn (s : State) (part : Nat) (src dst : Place) (owner : Owner) (p : Payload) : State :=
  let m : Msg :=
    ⟨s.nextId, s.cycle, s.cycle, src, dst, part, if src = dst then .arrived else .waiting s.cycle false, 0, s.arrival dst owner, owner, p⟩
  { s with msgs := s.msgs ++ [m], nextId := s.nextId + 1 }
def State.msg (s : State) (id : Nat) : Option Msg := s.msgs.find? (fun m => m.id == id)
def State.dropMsg (s : State) (id : Nat) : State := { s with msgs := s.msgs.filter (fun m => m.id != id) }
/-- Bytes that a release covered, on their way home: they precede in issue order every access of their owner that is on its
way, so they wait for none, and a pull that such an access waits for can end (13 R318, R319; log 29). -/
def Msg.covered (m : Msg) : Bool := match m.payload with | .wback _ _ _ _ _ _ clear _ => clear | _ => false
/-- Whether an earlier message of the same owner to the same place keeps m back (01 R18). -/
def Msg.before (x m : Msg) : Bool :=
  decide (x.id < m.id) && x.owner == m.owner && x.dst == m.dst && m.owner != Owner.nobody && !m.covered
/-- Whether a message is the next its owner's order at its destination lets be performed (01 R18): one that a gang switch has
caught goes before (15 R382). -/
def State.inOrder (s : State) (m : Msg) : Bool :=
  m.ride == .arrived && !s.msgs.any (fun x => x.before m) && !s.fallout.any (fun y => y.2.any (fun x => x.before m))
/-- The messages that arrived before m where m goes, in the order of their arrival (10 R233, R238). -/
def State.ahead (s : State) (m : Msg) : List Msg :=
  (s.msgs.takeWhile (fun x => x.id != m.id)).filter (fun x => x.ride == .arrived && x.dst == m.dst)
/-- Whether messages of a thread are on their way. What its core reads in one go waits for them (01 R18, 13 R310; log 31). -/
def ownWaits (s : State) (t : Nat) (th : Thread) : Bool := s.msgs.any (fun m => m.owner == th.owner t)

/-! ### The near slice (10 R235, R236) -/

/-- Line number and sector index of an address. -/
def lineOf (va : Word) : Nat := va.toNat / 128
def sectorIx (va : Word) : Nat := va.toNat / 32 % 4
/-- The near-slice line that holds an address for a lease domain. -/
def nearLine (k : Core) (va : Word) (dom : BitVec 16) : Option NearLine :=
  k.near.find? (fun l => l.line == lineOf va && l.domain == dom)
def nearSector (k : Core) (va : Word) (dom : BitVec 16) : Sector :=
  match nearLine k va dom with | some l => tget l.sectors (sectorIx va) Sector.invalid | none => Sector.invalid
/-- A sector of a held line changed. -/
def nearPut (k : Core) (va : Word) (dom : BitVec 16) (x : Sector) : Core :=
  { k with near := k.near.map (fun l =>
      if l.line == lineOf va && l.domain == dom then { l with sectors := tput l.sectors (sectorIx va) x } else l) }
/-- A line that an access uses becomes the most recent (10 R235). -/
def nearTouch (k : Core) (va : Word) (dom : BitVec 16) : Core :=
  let hit (l : NearLine) : Bool := l.line == lineOf va && l.domain == dom
  { k with near := k.near.filter (fun l => !hit l) ++ k.near.filter hit }

/-- Address of a sector of a line. -/
def lineSectorVa (line ix : Nat) : Word := BitVec.ofNat 64 (line * 128 + ix * 32)

/-- Whether a sector holds bytes not yet written back. -/
def Sector.holds (x : Sector) : Bool := x.st == .dirty || x.st == .released

/-- The station at which each peer port stands (18 R418). -/
def portStation (port : Nat) : Nat := [0, 3, 7, 24, 39, 56, 60, 63].getD port 0
/-- Core that performs accesses to an address: the core behind its storage, else the issuing core. -/
def targetCore (s : State) (c : Nat) (va : Word) : Nat :=
  match storage s c (storedVa s va) with
  | some loc => holder loc
  | none => c

/-- Where an access to an address is performed: a peer's at the station of its port (18 R418), any other at a core. -/
def accessPlace (s : State) (c : Nat) (va : Word) : Place :=
  if selector va == 0xF8 then .station (portStation (va56 va / 2 ^ 53 % 8)) else .core (targetCore s c va)

/-- A dirty or released sector sent back to its home and no longer held (10 R235). -/
def State.writeBack (s : State) (c : Nat) (va : Word) (dom : BitVec 16) (clear : Bool)
    (waiter : Option (Nat × Nat)) : State :=
  let x := nearSector (s.core c) va dom
  let s1 := s.modCore c (fun k => nearPut k va dom Sector.invalid)
  s1.send (.core c) (.core (targetCore s c va)) x.owner
    (.wback c (sectorVa va) x.mask x.data x.tags x.owner clear waiter)

/-- Every held sector of a line written back as on eviction: a released sector's registration is cleared, a dirty
one's stays (13 R313, 11 R263). -/
def State.evictLine (s : State) (c : Nat) (l : NearLine) : State :=
  let s1 := l.sectors.foldl (fun s x =>
    if x.2.holds then s.writeBack c (lineSectorVa l.line x.1) l.domain (x.2.st == .released) none else s) s
  s1.modCore c (fun k => { k with near := k.near.filter (fun y => !(y.line == l.line && y.domain == l.domain)) })

/-- The held sectors of a near slice sent back at a gang stop, registrations kept (15 R380); the rest is dropped. -/
def State.writeBackAll (s : State) (c : Nat) : State :=
  let xs := (s.core c).near.flatMap (fun l => (l.sectors.filter (fun x => x.2.holds)).map (fun x => (lineSectorVa l.line x.1, l.domain)))
  (xs.foldl (fun s x => s.writeBack c x.1 x.2 false none) s).modCore c (fun k => { k with near := [] })
/-- A line made present for an address and the most recent, evicting the least recent unpinned line of a full set (10 R235); none when
every way is pinned (10 R236). -/
def State.ensureLine (s : State) (c : Nat) (va : Word) (dom : BitVec 16) : Option State :=
  let k := s.core c
  if (nearLine k va dom).isSome then some (s.modCore c (fun k => nearTouch k va dom))
  else
    let set := k.near.filter (fun l => l.line % 128 == lineOf va % 128)
    let add (s : State) : State := s.modCore c (fun k => { k with near := k.near ++ [⟨lineOf va, dom, [], 0⟩] })
    if set.length < 8 then some (add s)
    else match set.find? (fun l => l.pins == 0) with
      | some l => some (add (s.evictLine c l))
      | none => none

/-- Bytes of `old` replaced by `new` under a byte mask. -/
def mergeBytes (mask : BitVec 32) (old new : Nat) : Nat :=
  leNat ((List.range 32).map (fun i =>
    BitVec.ofNat 8 ((if mask.getLsbD i then new else old) / 2 ^ (8 * i))))
/-- Mask of n bytes from byte i of a sector. -/
def byteMask (i n : Nat) : BitVec 32 := BitVec.ofNat 32 ((2 ^ n - 1) * 2 ^ i)
/-- Granule tags after bytes under a mask are written with an optional capability tag (10 R241). -/
def mergeTags (mask : BitVec 32) (old : BitVec 2) (tag : Option Bool) : BitVec 2 :=
  let g (i : Nat) : Bool :=
    if mask.extractLsb' (16 * i) 16 == 0 then old.getLsbD i else tag.getD false
  BitVec.ofBool (g 1) ++ BitVec.ofBool (g 0)

/-- What the near slice can answer of n bytes in one sector: the number and the granule's tag (10 R235). -/
def nearRead (k : Core) (dom : BitVec 16) (va : Word) (n : Nat) : Option (Nat × Bool) :=
  let x := nearSector k va dom
  let i := va.toNat % 32
  let hit := match x.st with
    | .invalid => false
    | .clean => true
    | _ => x.whole || (byteMask i n) &&& ~~~x.mask == 0
  if hit then some (x.data.toNat / 2 ^ (8 * i) % 2 ^ (8 * n), x.tags.getLsbD (i / 16)) else none

/-- Bytes of the near slice's own copy removed from its mask, and from its contents (13 R318 step 3). -/
def State.dropBytes (s : State) (c : Nat) (va : Word) (dom : BitVec 16) (mask : BitVec 32) : State :=
  s.modCore c (fun k =>
    let x := nearSector k va dom
    let left := x.mask &&& ~~~mask
    nearPut k va dom (if x.holds && left != 0 then { x with mask := left, whole := false } else Sector.invalid))
/-- Bytes that a core has sent back for an owner and that are not home yet, removed from their messages. -/
def State.dropSent (s : State) (c : Nat) (va : Word) (me : Owner) (mask : BitVec 32) : State :=
  { s with msgs := s.msgs.map (fun m => match m.payload with
      | .wback k a old data tags w clear waiter =>
        if k == c && a == sectorVa va && w == me then { m with payload := .wback k a (old &&& ~~~mask) data tags w clear waiter } else m
      | _ => m) }

/-- The clean lines of a near slice invalidated (13 R321), in a set of homes (R322), and with them the fetched bytes of dirty
sectors. -/
def State.acquireInv (s : State) (c : Nat) (inScope : Nat → Bool) : State :=
  s.modCore c (fun k => { k with near := k.near.map (fun l =>
    { l with sectors := l.sectors.map (fun x =>
      (x.1, if !inScope (targetCore s c (lineSectorVa l.line x.1)) then x.2
        else if x.2.st == .clean then Sector.invalid else { x.2 with whole := false })) }) })

/-- Bytes of a sector that plain writes of thread t on their way home will write. -/
def writesOut (s : State) (t : Nat) (va : Word) : BitVec 32 :=
  s.msgs.foldl (fun b m => match m.payload with
    | .write u _ a mask _ _ => if u == t && sectorVa a == sectorVa va then b ||| mask else b
    | _ => b) 0
/-- Whether a release store of an owner to a sector still stands in a write buffer (13 R318 step 3). -/
def pendingAt (k : Core) (va : Word) (me : Owner) : Bool := k.pending.contains (va.toNat / 32, me)

/-- A sector that a thread's write has registered, noted for its epoch and for its next release (13 R312, R313). -/
def Thread.wroteSector (th : Thread) (key : Nat) : Thread :=
  { th with
    epoch := if th.epoch.contains key then th.epoch else key :: th.epoch
    written := if th.written.contains key then th.written else key :: th.written }
/-- Whether a registration of a sector by thread t is on its way to its home. -/
def registering (s : State) (t : Nat) (va : Word) : Bool :=
  s.msgs.any (fun m => match m.payload with | .register u _ a _ => u == t && sectorVa a == sectorVa va | _ => false)
/-- One sector of a plain store by thread t: the near slice takes it and registers it once an epoch (13 R312), or it
goes through to the storage it names: for a sector that is shed, pending, held for another thread, or part of a bound mark
domain. Bytes of its own that it passes go home before it. Answers the messages the store now waits for. -/
def State.plainStore (s : State) (t opId : Nat) (va : Word) (mask : BitVec 32) (data : BitVec 256)
    (tag : Option Bool) : State × Nat :=
  match s.thread t with
  | none => (s, 0)
  | some th =>
    let c := tcore t
    let dom := th.domain
    let me := th.owner t
    let h := targetCore s c va
    let bank (s : State) : State := s.modThread t (fun x => { x with bankmask := x.bankmask ||| bankBit h })
    let through (s : State) : State × Nat :=
      (bank (s.send (.core c) (.core h) me (.write t opId va mask data tag)), 1)
    if selector va != 0 then through s
    else
      let x := nearSector (s.core c) va dom
      let key := va.toNat / 32
      if th.shed.contains key || pendingAt (s.core c) va me || (x.holds && x.owner != me) || markAt s (sectorVa va) 32 h then
        through (if x.holds && x.owner != me then s
          else if x.holds then s.writeBack c va dom (x.st == .released) none
          else s.modCore c (fun k => nearPut k va dom Sector.invalid))
      else
        let s := if x.st == .released then s.writeBack c va dom true none else s
        match s.ensureLine c va dom with
        | none => through (s.countCore c cBYPASS 1)
        | some s =>
          let y := nearSector (s.core c) va dom
          let z : Sector :=
            { y with
              st := .dirty
              mask := (if y.st == .dirty then y.mask else 0) ||| mask
              data := BitVec.ofNat 256 (mergeBytes mask y.data.toNat data.toNat)
              tags := mergeTags mask (if y.st == .invalid then 0 else y.tags) tag
              owner := me
              whole := y.st == .clean || (y.st == .dirty && y.whole) }
          let s := bank (s.modCore c (fun k => nearPut k va dom z))
          -- a store that finds the registration on its way waits for the home's answer as well (13 R314)
          if th.epoch.contains key && !registering s t va then (s, 0)
          else
            let s := s.modThread t (fun w => w.wroteSector key)
            (s.send (.core c) (.core h) me (.register t opId va mask), 1)

/-- A run of bytes stored plainly, sector by sector in ascending order (10 R238). `fuel` counts sectors. -/
def State.plainRun (s : State) (t opId : Nat) (tag : Option Bool) : Nat → Word → Nat → Nat → State × Nat
  | 0, _, _, _ => (s, 0)
  | fuel + 1, va, n, v =>
    if n = 0 then (s, 0)
    else
      let i := va.toNat % 32
      let m := min n (32 - i)
      let x := s.plainStore t opId va (byteMask i m) (BitVec.ofNat 256 (v % 2 ^ (8 * m) * 2 ^ (8 * i))) tag
      let y := x.1.plainRun t opId tag fuel (va + BitVec.ofNat 64 m) (n - m) (v / 2 ^ (8 * m))
      (y.1, x.2 + y.2)

/-- The core writes back what it holds of a sector and drops its copy, before an atomic (11 R263). -/
def State.surrender (s : State) (c : Nat) (va : Word) (dom : BitVec 16) : State :=
  let x := nearSector (s.core c) va dom
  if x.holds then s.writeBack c va dom (x.st == .released) none
  else s.modCore c (fun k => nearPut k va dom Sector.invalid)

/-! ### Releases (13 R318, R320, R322) -/

/-- The homes and scratchpads a fence scope covers, for a thread on core c (11 R262). -/
def scopeHomes (c : Nat) : FenceScope → Nat → Bool
  | .core, h => h == c
  | .clu, h => clusterOf h == clusterOf c
  | .dev, _ => true
  | .sys, _ => true

/-- The cores that get a probe for a mask (01 R18, 13 R318). -/
def probed (mask : Word) (inScope : Nat → Bool) : List Nat :=
  (List.range 1024).filter (fun h => mask.getLsbD (h % 64) && inScope h)

/-- The thread's dirty sectors become released (13 R318 step 2). -/
def State.markReleased (s : State) (c : Nat) (me : Owner) : State :=
  s.modCore c (fun k => { k with near := k.near.map (fun l =>
    { l with sectors := l.sectors.map (fun x =>
      (x.1, if x.2.st == .dirty && x.2.owner == me then { x.2 with st := .released } else x.2)) }) })

/-- The dirty and released sectors of a thread in a set of homes: address and domain. -/
def heldBy (s : State) (c : Nat) (me : Owner) (inScope : Nat → Bool) : List (Word × BitVec 16) :=
  ((s.core c).near.map (fun l =>
    (l.sectors.filter (fun x => x.2.holds && x.2.owner == me)).map
      (fun x => (lineSectorVa l.line x.1, l.domain)))).flatten.filter
    (fun x => inScope (targetCore s c x.1))

end Sys2Proof.Machine
end

