-- ==== Sys2Proof/Machine/Num.lean ====
section
/-!
DEFINITION. Number formats, exact values, rounding, overflow and NaN choice (04 R73 to R97), the generator of 05 R115,
and the stepwise functions of 07 R162 to R165.
-/

namespace Sys2Proof.Machine

/-- An exact value: sign, magnitude m·2^e; an infinity; or a NaN with its type code and bits. -/
inductive Fp where
  | nan (t : BitVec 6) (bits : Nat)
  | inf (neg : Bool)
  | fin (neg : Bool) (m : Nat) (e : Int)
  deriving DecidableEq, Repr

/-- A floating layout (04 R76, R79, R80): fraction bits, bias, code of the largest finite value, code of infinity. -/
structure Layout where
  width : Nat
  frac  : Nat
  bias  : Int
  maxc  : Nat
  infc  : Option Nat
  deriving DecidableEq, Repr

/-- The layout of a floating type code. -/
def layout (t : BitVec 6) : Layout :=
  match t.toNat with
  | 10 => ⟨16, 10, 15, 0x7BFF, some 0x7C00⟩
  | 11 => ⟨16, 7, 127, 0x7F7F, some 0x7F80⟩
  | 12 => ⟨8, 3, 7, 0x7E, none⟩
  | 13 => ⟨8, 2, 15, 0x7B, some 0x7C⟩
  | 14 => ⟨4, 1, 1, 7, none⟩
  | _ => ⟨32, 23, 127, 0x7F7FFFFF, some 0x7F800000⟩

/-- Exponent of the least quantum of a layout. -/
def Layout.emin (l : Layout) : Int := 1 - l.bias - l.frac

/-- FP32, the type of accumulators and thresholds. -/
def f32 : BitVec 6 := 9

/-- Signed integer types and plane views (04 R73, R83). -/
def isSignedType (t : BitVec 6) : Bool :=
  t == 1 || t == 3 || t == 5 || t == 7 || t == 16 || t == 18 || isPlaneType t

/-- The integer an element of an integer type or a plane-view container holds. -/
def intVal (t : BitVec 6) (bits : Nat) : Int :=
  if isSignedType t then signed (typeWidth t) bits else ((bits % 2 ^ typeWidth t : Nat) : Int)

/-- An exact integer. -/
def Fp.ofInt (x : Int) : Fp := .fin (x < 0) x.natAbs 0

/-- The value of an element under its type (04 R73 to R83); a plane view's value carries its factor 2^(8-p). -/
def decodeFp (t : BitVec 6) (bits : Nat) : Fp :=
  if isPlaneType t then
    let v := intVal t bits
    .fin (v < 0) v.natAbs (8 - ((t.toNat : Int) - 18))
  else if isIntType t then .ofInt (intVal t bits)
  else if t == 15 then (if bits % 256 == 255 then .nan t 255 else .fin false 1 (((bits % 256 : Nat) : Int) - 127))
  else
    let l := layout t
    let c := bits % 2 ^ (l.width - 1)
    let neg := bits / 2 ^ (l.width - 1) % 2 == 1
    let special : Bool := match l.infc with | some i => decide (i ≤ c) | none => t == 12 && c == 0x7F
    if special then (if l.infc == some c then .inf neg else .nan t (bits % 2 ^ l.width))
    else if c < 2 ^ l.frac then .fin neg c l.emin
    else .fin neg (2 ^ l.frac + c % 2 ^ l.frac) (l.emin + (c / 2 ^ l.frac : Nat) - 1)

/-- The sign of a NaN's bits. -/
def nanNeg (t : BitVec 6) (bits : Nat) : Bool := t != 15 && bits / 2 ^ ((layout t).width - 1) % 2 == 1

/-- The fraction of a NaN, left-aligned to 23 bits; E8M0 has none. -/
def nanFrac (t : BitVec 6) (bits : Nat) : Nat :=
  if t == 15 then 2 ^ 22 else let l := layout t; bits % 2 ^ l.frac * 2 ^ (23 - l.frac)

/-- A signalling NaN: top fraction bit 0 (04 R76). DEDUCED (log 77): E5M2 is read the same way, and the NaNs of E4M3 and
E8M0 are quiet. -/
def isSignalling : Fp → Bool
  | .nan t bits => nanFrac t bits < 2 ^ 22
  | _ => false

/-- Whether a value is a NaN. -/
def Fp.isNan : Fp → Bool | .nan .. => true | _ => false

/-- An abandoned encoding of FP32 or BF16 (04 R89). -/
def isAbandoned (t : BitVec 6) (bits : Nat) : Bool :=
  (t == 9 && bits / 256 == 0x7FA000) || (t == 11 && (bits == 0x7FA0 || bits == 0x7FA1))

/-- A NaN quieted in a type with infinities (04 R78). -/
def quietBits (t : BitVec 6) (neg : Bool) (frac23 : Nat) : Nat :=
  let l := layout t
  (if neg then 2 ^ (l.width - 1) else 0) + l.infc.getD 0
    + (2 ^ 22 ||| frac23) / 2 ^ (23 - l.frac) % 2 ^ l.frac

/-- The default NaN of a type (04 R78, R87). -/
def defaultNan (t : BitVec 6) : Nat := if t == 12 then 0x7F else quietBits t false 0

/-- The default NaN as a value. -/
def Fp.default : Fp := .nan f32 0x7FC00000

/-- Invalid alone. -/
def flagNV : Flags := ⟨true, false, false, false, false⟩
/-- Divide by zero alone. -/
def flagDZ : Flags := ⟨false, true, false, false, false⟩
/-- Overflow with inexact (04 R87). -/
def flagOF : Flags := ⟨false, false, true, false, true⟩
/-- Underflow with inexact. -/
def flagUF : Flags := ⟨false, false, false, true, true⟩
/-- Inexact alone. -/
def flagNX : Flags := ⟨false, false, false, false, true⟩

/-- Flags of both (04 R88). -/
def Flags.or (a b : Flags) : Flags :=
  ⟨a.nv || b.nv, a.dz || b.dz, a.of || b.of, a.uf || b.uf, a.nx || b.nx⟩

/-- NV when the condition holds. -/
def nvIf (c : Bool) : Flags := if c then flagNV else Flags.none

/-- The next output of the generator, and the state after it (05 R115). -/
def Prng.next (p : Prng) : BitVec 32 × Prng :=
  let out := (p.s1 * 5).rotateLeft 7 * 9
  let t := p.s1 <<< 9
  let s2 := p.s2 ^^^ p.s0
  let s3 := p.s3 ^^^ p.s1
  let s1 := p.s1 ^^^ s2
  let s0 := p.s0 ^^^ s3
  (out, ⟨s0, s1, s2 ^^^ t, s3.rotateLeft 11⟩)

/-- Which neighbour R84 takes for magnitude lo + rem/2^sh: lo or lo + 1. Under stochastic rounding `u` is the draw of
R85, whose lo and hi are signed. -/
def chooseMag (mode : Nat) (neg : Bool) (lo rem sh : Nat) (u : BitVec 32) : Nat :=
  if rem == 0 then lo
  else match mode with
    | 1 => if 2 ^ sh < 2 * rem || (2 ^ sh == 2 * rem && lo % 2 == 1) then lo + 1 else lo
    | 2 => lo
    | 3 => if neg then lo else lo + 1
    | 4 => if neg then lo + 1 else lo
    | 5 => if 2 ^ sh ≤ 2 * rem then lo + 1 else lo
    | _ =>
      let f := (if neg then 2 ^ sh - rem else rem) * 2 ^ 32 / 2 ^ sh
      if u.toNat < f then (if neg then lo else lo + 1) else (if neg then lo + 1 else lo)

/-- m·2^e on the grid of quantum 2^q: chosen multiple of the quantum, and whether it is inexact. -/
def onGrid (mode : Nat) (neg : Bool) (m : Nat) (e q : Int) (u : BitVec 32) : Nat × Bool :=
  if q ≤ e then (m * 2 ^ (e - q).toNat, false)
  else
    let sh := (q - e).toNat
    (chooseMag mode neg (m / 2 ^ sh) (m % 2 ^ sh) sh u, m % 2 ^ sh != 0)

/-- Bits of ±code in a layout. -/
def signedCode (l : Layout) (neg : Bool) (c : Nat) : Nat := (if neg then 2 ^ (l.width - 1) else 0) + c

/-- A result that overflows (04 R87). -/
def overflowBits (t : BitVec 6) (mode : Nat) (sat neg : Bool) : Nat :=
  let l := layout t
  match l.infc with
  | some i =>
    if sat || mode == 2 || (mode == 3 && neg) || (mode == 4 && !neg) then signedCode l neg l.maxc
    else signedCode l neg i
  | none => if t == 12 && !sat then signedCode l neg 0x7F else signedCode l neg l.maxc

/-- A finite exact value rounded into a floating type (04 R84, R87): bits, flags, and the generator afterwards. -/
def roundFin (t : BitVec 6) (mode : Nat) (sat neg : Bool) (m : Nat) (e : Int) (g : Prng) : Nat × Flags × Prng :=
  let l := layout t
  if m == 0 then (signedCode l neg 0, Flags.none, g)
  else
    let top := (Nat.log2 m : Int) + e
    let q := max (top - l.frac) l.emin
    let inexact := q > e && m % 2 ^ (q - e).toNat != 0
    let draw := g.next
    let u := if mode == 6 && inexact then draw.1 else 0
    let g' := if mode == 6 && inexact then draw.2 else g
    let n := (onGrid mode neg m e q u).1
    let c := (q - l.emin).toNat * 2 ^ l.frac + n
    if l.maxc < c then (overflowBits t mode sat neg, flagOF, g')
    else
      let wide := (onGrid mode neg m e (top - l.frac) u).1
      let tiny := wide == 0 || ((Nat.log2 wide : Nat) : Int) + (top - l.frac) < 1 - l.bias
      (signedCode l neg c, if inexact then (if tiny then flagUF else flagNX) else Flags.none, g')

/-- A NaN delivered in a type (04 R78, R87). -/
def nanBits (t : BitVec 6) (nt : BitVec 6) (bits : Nat) : Nat × Flags :=
  match t.toNat with
  | 12 => (signedCode (layout t) (nanNeg nt bits) 0x7F, flagNV)
  | 14 => (0, flagNV)
  | 15 => (255, flagNV)
  | _ => (quietBits t (nanNeg nt bits) (nanFrac nt bits), nvIf (isSignalling (.nan nt bits)))

/-- An exact value rounded into a floating type (04 R84, R87). Flags of a NaN operand are the caller's. -/
def roundFp (t : BitVec 6) (mode : Nat) (sat : Bool) (x : Fp) (g : Prng) : Nat × Flags × Prng :=
  match x with
  | .nan nt bits => ((nanBits t nt bits).1, Flags.none, g)
  | .inf neg =>
    let l := layout t
    match l.infc with
    | some i => (signedCode l neg i, Flags.none, g)
    | none => (if t == 12 && !sat then signedCode l neg 0x7F else signedCode l neg l.maxc, flagOF, g)
  | .fin neg m e => roundFin t mode sat neg m e g

/-- The negative of a value (04 R77: a difference is a sum with the operand negated). -/
def Fp.negate : Fp → Fp
  | .nan t b => .nan t b
  | .inf n => .inf (!n)
  | .fin n m e => .fin (!n) m e

/-- The integer numerator of a finite value at exponent e0 ≤ e. -/
def numAt (neg : Bool) (m : Nat) (e e0 : Int) : Int :=
  let x : Int := m * 2 ^ (e - e0).toNat
  if neg then -x else x

/-- Exact sum with the zero signs of 04 R77 and whether it is invalid; `rdn` is rounding mode RDN. -/
def Fp.add (rdn : Bool) : Fp → Fp → Fp × Bool
  | .nan t b, _ => (.nan t b, false)
  | _, .nan t b => (.nan t b, false)
  | .inf a, .inf b => if a == b then (.inf a, false) else (.default, true)
  | .inf a, _ => (.inf a, false)
  | _, .inf b => (.inf b, false)
  | .fin na ma ea, .fin nb mb eb =>
    let e0 := min ea eb
    let s := numAt na ma ea e0 + numAt nb mb eb e0
    if s == 0 then (.fin (if na == nb then na else rdn) 0 e0, false) else (.fin (s < 0) s.natAbs e0, false)

/-- Exact product and whether it is invalid. -/
def Fp.mul : Fp → Fp → Fp × Bool
  | .nan t b, _ => (.nan t b, false)
  | _, .nan t b => (.nan t b, false)
  | .inf a, .inf b => (.inf (a != b), false)
  | .inf a, .fin b m _ => if m == 0 then (.default, true) else (.inf (a != b), false)
  | .fin a m _, .inf b => if m == 0 then (.default, true) else (.inf (a != b), false)
  | .fin a ma ea, .fin b mb eb => (.fin (a != b) (ma * mb) (ea + eb), false)

/-- a < b, neither a NaN; equal values are not less. -/
def Fp.lt : Fp → Fp → Bool
  | .inf a, .inf b => a && !b
  | .inf a, .fin .. => a
  | .fin .., .inf b => !b
  | .fin na ma ea, .fin nb mb eb => let e0 := min ea eb; numAt na ma ea e0 < numAt nb mb eb e0
  | _, _ => false

/-- a = b, neither a NaN; −0 equals +0. -/
def Fp.eq (a b : Fp) : Bool := !a.isNan && !b.isNan && !a.lt b && !b.lt a

/-- A value scaled by 2^k, exactly. -/
def Fp.scale (k : Int) : Fp → Fp
  | .fin n m e => .fin n m (e + k)
  | x => x

/-- The sign of a value, −0 included. -/
def Fp.neg? : Fp → Bool
  | .nan t b => nanNeg t b
  | .inf n => n
  | .fin n _ _ => n

/-- The result of an operation of a floating type: NV for signalling operands and invalid operations, else rounding
(04 R78, R84, R87). -/
def fpResult (t : BitVec 6) (mode : Nat) (sat : Bool) (ops : List Fp) (r : Fp × Bool) (g : Prng) :
    Nat × Flags × Prng :=
  let nv := nvIf (ops.any isSignalling)
  match ops.find? Fp.isNan with
  | some (.nan nt b) => ((nanBits t nt b).1, nv, g)
  | _ =>
    if r.2 then (defaultNan t, flagNV, g)
    else
      let x := roundFp t mode sat r.1 g
      (x.1, nv.or x.2.1, x.2.2)

/-- minimum and maximum of IEEE 754-2019 (07 R151). -/
def fpMinMax (t : BitVec 6) (isMax : Bool) (a b : Nat) : Nat × Flags :=
  let x := decodeFp t a
  let y := decodeFp t b
  match [x, y].find? Fp.isNan with
  | some (.nan nt bits) => (quietBits t (nanNeg nt bits) (nanFrac nt bits), nvIf ([x, y].any isSignalling))
  | _ =>
    let aLess := x.lt y || (x.eq y && x.neg? && !y.neg?)
    let bLess := y.lt x || (x.eq y && y.neg? && !x.neg?)
    (if isMax then (if aLess then b else a) else (if bLess then b else a), Flags.none)

/-- An exact integer fitted to w bits: wrapped, or clamped under sat (04 R75). -/
def fitInt (t : BitVec 6) (sat : Bool) (x : Int) : Nat :=
  let w := typeWidth t
  let lo : Int := if isSignedType t then -(2 ^ (w - 1) : Int) else 0
  let hi : Int := if isSignedType t then 2 ^ (w - 1) - 1 else 2 ^ w - 1
  let y := if sat then max lo (min hi x) else x
  (y % 2 ^ w).toNat

/-- An exact value rounded to an integer: the integer, whether it changed, and the generator afterwards. -/
def roundInt (mode : Nat) (neg : Bool) (m : Nat) (e : Int) (g : Prng) : Int × Bool × Prng :=
  let inexact := e < 0 && m % 2 ^ (-e).toNat != 0
  let draw := g.next
  let u := if mode == 6 && inexact then draw.1 else 0
  let n := (onGrid mode neg m e 0 u).1
  ((if neg then -(n : Int) else n), inexact, if mode == 6 && inexact then draw.2 else g)

/-- A value converted from a floating type to an integer type: always saturating (04 R87). -/
def floatToInt (t : BitVec 6) (mode : Nat) (x : Fp) (g : Prng) : Nat × Flags × Prng :=
  match x with
  | .nan .. => (0, flagNV, g)
  | .inf neg => (fitInt t true (if neg then -(2 ^ 200 : Int) else 2 ^ 200), flagNV, g)
  | .fin neg m e =>
    let r := roundInt mode neg m e g
    let v := fitInt t true r.1
    if intVal t v != r.1 then (v, flagNV, r.2.2)
    else (v, if r.2.1 then flagNX else Flags.none, r.2.2)

/-- floor(log2 |val|) + 127 as a scale code (07 R158, 04 R87). -/
def toE8m0 (sat : Bool) (x : Fp) : Nat × Flags :=
  match x with
  | .nan .. => (255, flagNV)
  | .inf _ => (if sat then 254 else 255, flagOF)
  | .fin _ m e =>
    if m == 0 then (0, flagUF)
    else
      let k := (Nat.log2 m : Int) + e
      if k < -127 then (0, flagUF)
      else if 127 < k then (if sat then 254 else 255, flagOF)
      else ((k + 127).toNat, if m == 2 ^ Nat.log2 m then Flags.none else flagNX)

/-- round_FP32 of an exact value, with no flags, as matrix sums use it (04 R94, R95). -/
def round32 (mode : Nat) (x : Fp) : Nat := (roundFp f32 mode false x ⟨0, 0, 0, 0⟩).1

/-- rne() of 07 R162 on exact values. -/
def rne32 (x : Fp) : Fp := decodeFp f32 (round32 1 x)

/-- Exact sum, rounding mode other than RDN. -/
def Fp.plus (a b : Fp) : Fp := (Fp.add false a b).1
/-- Exact product. -/
def Fp.times (a b : Fp) : Fp := (Fp.mul a b).1

/-- VEXP2 of one element (07 R163). -/
def vexp2Elem (bits : Nat) : Nat × Flags :=
  match decodeFp f32 bits with
  | .nan nt b => ((nanBits f32 nt b).1, nvIf (isSignalling (.nan nt b)))
  | .inf neg => (if neg then 0 else 0x7F800000, Flags.none)
  | .fin neg m e =>
    let x := Fp.fin neg m e
    if !x.lt (.fin false 128 0) then (0x7F800000, flagOF)
    else if x.lt (.fin true 151 0) then (0, flagUF)
    else
      let n := (roundInt 1 neg m e ⟨0, 0, 0, 0⟩).1
      let f := x.plus (Fp.ofInt (-n))
      let c (b : Nat) := decodeFp f32 b
      let p := [0x3AAEC3FC, 0x3C1D955C, 0x3D635847, 0x3E75FDF2, 0x3F317218, 0x3F800000].foldl
        (fun p k => rne32 ((rne32 (p.times f)).plus (c k))) (c 0x39218488)
      let r := roundFp f32 1 false (p.scale n) ⟨0, 0, 0, 0⟩
      let fZero := match f with | .fin _ 0 _ => true | _ => false
      (r.1, (if fZero then Flags.none else flagNX).or r.2.1)

/-- VRCP of one element (07 R164). -/
def vrcpElem (bits : Nat) : Nat × Flags :=
  match decodeFp f32 bits with
  | .nan nt b => ((nanBits f32 nt b).1, nvIf (isSignalling (.nan nt b)))
  | .inf neg => (signedCode (layout f32) neg 0, Flags.none)
  | .fin neg 0 _ => (signedCode (layout f32) neg 0x7F800000, flagDZ)
  | .fin neg m e =>
    let l := Nat.log2 m
    let x := Fp.fin false m (-(l : Int))
    let one := Fp.fin false 1 0
    let y0 := rne32 ((decodeFp f32 0x3FB4B4B5).plus (rne32 ((decodeFp f32 0x3EF0F0F1).times x)).negate)
    let step (y : Fp) : Fp :=
      let h := rne32 (one.plus (rne32 (x.times y)).negate)
      rne32 (y.plus (rne32 (y.times h)))
    let y := step (step (step y0))
    let v := match y with | .fin _ ym ye => Fp.fin neg ym (ye - (l : Int) - e) | z => z
    let r := roundFp f32 1 false v ⟨0, 0, 0, 0⟩
    let exact := ((decodeFp f32 r.1).times (.fin neg m e)).eq one
    (r.1, (if exact then Flags.none else flagNX).or r.2.1)

/-- VRSQ of one element (07 R165). -/
def vrsqElem (bits : Nat) : Nat × Flags :=
  match decodeFp f32 bits with
  | .nan nt b => ((nanBits f32 nt b).1, nvIf (isSignalling (.nan nt b)))
  | .inf neg => if neg then (0x7FC00000, flagNV) else (0, Flags.none)
  | .fin neg 0 _ => (signedCode (layout f32) neg 0x7F800000, flagDZ)
  | .fin true _ _ => (0x7FC00000, flagNV)
  | .fin false m e =>
    let k := (Nat.log2 m : Int) + e
    let e2 := 2 * (k / 2)
    let x := Fp.fin false m (e - e2)
    let y0 := rne32 ((Fp.fin false 5 (-2)).plus (rne32 ((Fp.fin false 3 (-4)).times x)).negate)
    let step (y : Fp) : Fp :=
      let t := rne32 ((rne32 (y.times y)).times x)
      let t := rne32 ((Fp.fin false 1 (-1)).times t)
      rne32 (y.times (rne32 ((Fp.fin false 3 (-1)).plus t.negate)))
    let y := step (step (step (step (step y0))))
    let r := y.scale (-(k / 2))
    let bitsR := round32 1 r
    let exact := (((decodeFp f32 bitsR).times (decodeFp f32 bitsR)).times (.fin false m e)).eq (.fin false 1 0)
    (bitsR, if exact then Flags.none else flagNX)

end Sys2Proof.Machine
end

