-- ==== Sys2Proof/Machine/Homes.lean ====
section
/-!
DEFINITION. What a home does: its cache of compressed lines, the write registry, the release directory and pulls, the
write buffer, wait chains, mark cells, and the checks that decide an access there (10, 12, 13, 14 R343, R344).
-/

namespace Sys2Proof.Machine

/-! ### Views and lines (04 R82, R83; 10 R237 to R246) -/

/-- The container bits of element e of the view through window w (04 R83): plane j of the unit holds bit 7 − j. -/
def viewContainer (s : State) (w : FormatWindow) (unit e : Nat) : Nat :=
  let p := (windowFormat w).toNat - 18
  let cw := typeWidth (windowFormat w)
  let base := w.base.toNat + 1024 * unit
  let bit (j : Nat) : Nat :=
    match storage s noCore (BitVec.ofNat 64 (base + 128 * j + e / 8)) with
    | some loc => (memByte s.mem loc).toNat / 2 ^ (e % 8) % 2
    | none => 0
  let v := (List.range p).foldl (fun acc j => 2 * acc + bit j) 0
  (signed p v % 2 ^ cw).toNat

/-- One byte of a view (10 R245). -/
def viewByte (s : State) (w : FormatWindow) (va : Nat) : Byte :=
  let cw := typeWidth (windowFormat w)
  let v := viewBytes (windowFormat w)
  let o := (va - w.view.toNat) % v
  let unit := (va - w.view.toNat) / v
  BitVec.ofNat 8 ((List.range (8 / cw)).foldr (fun i acc => acc * 2 ^ cw + viewContainer s w unit (o * (8 / cw) + i)) 0)

/-- n bytes at a view address. -/
def viewLoad (s : State) (w : FormatWindow) (va : Nat) : Nat → Nat
  | 0 => 0
  | n + 1 => (viewByte s w va).toNat + 256 * viewLoad s w (va + 1) n

/-- Sectors of the smallest code that holds a line (10 R239). -/
def codeSectors (words : List Nat) (tagged : Bool) : Nat :=
  if tagged then 4
  else if words.all (· == 0) then 0
  else
    let base := words.headD 0
    let d (w : Nat) : Int := signed 64 (w + 2 ^ 64 - base)
    if words.all (fun w => -128 ≤ d w && d w ≤ 127) then 1
    else if words.all (fun w => -32768 ≤ d w && d w ≤ 32767) then 2 else 4

/-- Sectors a line needs now: a physical line by its bytes and tags, a view line by its decoded bytes. -/
def lineSectors (s : State) (line : Nat) (view : Bool) : Nat :=
  if view then
    match viewOf s (128 * line) with
    | some w => codeSectors ((List.range 16).map (fun i => viewLoad s w (128 * line + 8 * i) 8)) false
    | none => 4
  else codeSectors ((List.range 16).map (fun i => s.load (128 * line + 8 * i) 8))
    ((List.range 8).any (fun i => s.tagAt (128 * line + 16 * i)))

/-- Set of a line: bits [14:7] of the offset in the pseudo-channel (10 R237). -/
def lineSet (line : Nat) : Nat := line % 256
def sameLine (x : CacheLine) (line : Nat) (view : Bool) : Bool := x.line == line && x.view == view
def Home.cached (k : Home) (line : Nat) (view : Bool) : Bool := k.cache.any (fun x => sameLine x line view)
/-- A line used becomes the most recent. -/
def Home.touch (k : Home) (line : Nat) (view : Bool) : Home :=
  { k with cache := k.cache.filter (fun x => !sameLine x line view) ++ k.cache.filter (fun x => sameLine x line view) }
/-- Sectors in use in a physical line of a set. -/
def rowUse (cache : List CacheLine) (set row : Nat) : Nat :=
  (cache.filter (fun x => lineSet x.line == set && x.row == row)).foldl (fun n x => n + x.sectors) 0
/-- Physical lines of a set outside converted and converting ways (10 R237, R247). -/
def Home.rows (k : Home) : Nat := 16 - max k.ways (match k.conv with | some v => v.target | none => 0)
/-- Whether an access finds its line: a write that meets it in a converting way finds it written back and gone (10 R247). -/
def Home.serves (k : Home) (line : Nat) (view write : Bool) : Bool :=
  k.cache.any (fun x => sameLine x line view && (!write || decide (x.row < k.rows)))
/-- Evicts the least recent line of a set that passes a test; HBM already holds its bytes. -/
def evictFirst (cache : List CacheLine) (p : CacheLine → Bool) : List CacheLine :=
  match cache.find? p with
  | some x => cache.filter (· != x)
  | none => cache
/-- Room for `need` sectors in a physical line, evicting its lines least recent first, at most `fuel` of them:
the cache and the evictions made (10 R240 step 2). -/
def makeRoom (cache : List CacheLine) (set row need : Nat) (keep : CacheLine → Bool) : Nat → List CacheLine × Nat
  | 0 => (cache, 0)
  | fuel + 1 =>
    let inUse := rowUse (cache.filter (fun x => !keep x)) set row
    if inUse + need ≤ 4 then (cache, 0)
    else
      let c := evictFirst cache (fun x => lineSet x.line == set && x.row == row && !keep x)
      let r := makeRoom c set row need keep fuel
      (r.1, r.2 + 1)

/-- A line a home cache holds or lacks: home, number, and whether it is a view line (10 R246). -/
structure LineKey where
  home : Nat
  line : Nat
  view : Bool
  deriving DecidableEq, Repr

/-- A line installed (10 R237, R240): a tag entry is freed if all are in use, then room in a physical line. A copy in a
converting way is gone by then (10 R247). DESIGN CHOICE (log 99): where no physical line has room, the one that holds the set's
least recently used entry gives up its lines. -/
def Home.install (k : Home) (s : State) (line : Nat) (view : Bool) : Home :=
  if k.serves line view true then k
  else
    let set := lineSet line
    let need := lineSectors s line view
    let rows := k.rows
    let c0 := k.cache.filter (fun x => !sameLine x line view)
    let full := 2 * rows ≤ (c0.filter (fun x => lineSet x.line == set && decide (x.row < rows))).length
    let c1 := if full then evictFirst c0 (fun x => lineSet x.line == set && decide (x.row < rows)) else c0
    let row := match (List.range rows).find? (fun r => rowUse c1 set r + need ≤ 4) with
      | some r => r
      | none => ((c1.find? (fun x => lineSet x.line == set && x.row < rows)).map CacheLine.row).getD 0
    let c2 := (makeRoom c1 set row need (fun _ => false) 4).1
    { k with cache := c2 ++ [⟨line, view, row, need, false⟩] }

/-- After a write on a line: its code is chosen again; a growing line moves or evicts its neighbours (10 R239, R240). -/
def State.lineWritten (s : State) (loc : Nat) : State :=
  if !isHbm loc then s
  else
    let h := holder loc
    let line := loc / 128
    let k := s.home h
    match k.cache.find? (fun x => sameLine x line false) with
    | none => s
    | some x =>
      let need := lineSectors s line false
      let set := lineSet line
      let keep (y : CacheLine) : Bool := sameLine y line false
      let others := k.cache.filter (fun y => !keep y)
      if k.rows ≤ x.row then s.setHome h (k.install s line false)
      else if need ≤ x.sectors then
        s.setHome h { k with cache := others ++ [{ x with sectors := need, dirty := true }] }
      else match (List.range k.rows).find? (fun r => rowUse others set r + need ≤ 4) with
        | some r => s.setHome h { k with cache := others ++ [{ x with row := r, sectors := need, dirty := true }] }
        | none =>
          let m := makeRoom others set x.row need keep 3
          (s.setHome h { k with cache := m.1 ++ [{ x with sectors := need, dirty := true }] }).countHome h cCASCADE m.2

/-- Whether a view line is decoded through a window from a unit that holds one of the n bytes at a stored address. -/
def decodesFrom (w : FormatWindow) (va n line : Nat) : Bool :=
  let unit := viewUnit w (128 * line)
  inView w (128 * line) && decide (unit < va + n) && decide (va < unit + 1024)
/-- View lines decoded from the units of n stored bytes dropped at a home, through whatever windows (10 R246). -/
def State.dropViews (s : State) (h : Nat) (va : Word) (n : Nat) : State :=
  let ws := s.windows.filter (fun w => windowValid w && isPlaneType (windowFormat w))
  if selector va == 0 && !ws.isEmpty then
    s.modHome h (fun k => { k with cache := k.cache.filter (fun x => !(x.view && ws.any (fun w => decodesFrom w (va56 va) n x.line))) })
  else s

/-! ### Registry, owners, mark domains (13 R312 to R317, 12 R290) -/

/-- Whether another party has the sector registered or owns it (13 R314, R317). -/
def raceAt (s : State) (loc : Nat) (me : Owner) : Bool :=
  if isHbm loc then
    (s.home (holder loc)).registry.any (fun e => e.1 == loc / 32 && e.2 != me)
  else
    let o := tget s.owners (loc / 32) Owner.nobody
    o != Owner.nobody && o != me
/-- The registration of a sector cleared (13 R313). -/
def State.unregister (s : State) (loc : Nat) (me : Owner) : State :=
  s.modHome (holder loc) (fun k => { k with registry := k.registry.filter (fun e => !(e.1 == loc / 32 && e.2 == me)) })
/-- Every registration and scratchpad owner field of an owner cleared. -/
def State.forget (s : State) (me : Owner) : State :=
  { s with
    homes := s.homes.map (fun x => (x.1, { x.2 with registry := x.2.registry.filter (fun e => e.2 != me) }))
    owners := s.owners.filter (fun x => x.2 != me) }

/-- Base and top of a bound domain's cells (12 R284). -/
def MarkDomain.cells (d : MarkDomain) : Nat := (d.top - d.base) / 8
/-- Checks at the home for a plain, synchronising or relaxed access (10 R231): WRONG_CLASS, POISON unless all 32
bytes are written, RACE. -/
def homeCheck (s : State) (va : Word) (loc n : Nat) (me : Owner) (whole : Bool) : Option Code :=
  if markAt s va n (holder loc) then some .wrongClass
  else if !whole && s.poisonAt loc then some .poison
  else if raceAt s loc me then some .race
  else none

/-- A registration performed at the home (13 R312, R315, R316): registered, shed, or RACE. -/
inductive RegResult where
  | kept | shed | race
  deriving DecidableEq, Repr
def State.register (s : State) (loc : Nat) (me : Owner) : State × RegResult :=
  let h := holder loc
  let k := s.home h
  if raceAt s loc me then (s, .race)
  else if k.registry.any (fun e => e.1 == loc / 32) then (s, .kept)
  else if Config.registrySize ≤ k.registry.length then (s.countHome h cSHED 1, .shed)
  else (s.setHome h { k with registry := k.registry ++ [(loc / 32, me)] }, .kept)

/-! ### Wait chains (11 R267 to R269, 14 R343, R344) -/

/-- A served record sent to its thread or store entry. -/
def State.wakeUp (s : State) (h : Nat) (r : WaitRec) (v : Word) (acq : Bool) : State :=
  let dst := match r.who with | .slot t => Place.core (tcore t) | .entry cl _ => Place.station cl
  s.send (.core h) dst Owner.nobody (.wake r.who r.op v acq)

/-- Every WAITNE record whose comparand the word now differs from completes (14 R344). -/
def State.serveWaitne (s : State) (loc : Nat) : State :=
  let h := holder loc
  let word := loc / 8 * 8
  let v := BitVec.ofNat 64 (s.load word 8)
  let hit (r : WaitRec) : Bool := r.word == word && (match r.kind with | .waitne c => v != c | _ => false)
  let rs := (s.home h).waits.filter hit
  let s := s.modHome h (fun k => { k with waits := k.waits.filter (fun r => !hit r) })
  rs.foldl (fun s r => s.wakeUp h r v false) s

/-- The WLD records of a word that a FILL serves, in chain order up to the first taker (11 R268). -/
def servedByFill (word : Nat) : List WaitRec → List WaitRec × Bool
  | [] => ([], false)
  | r :: rest =>
    if r.word == word then
      match r.kind with
      | .take => ([r], true)
      | .wld => let x := servedByFill word rest; (r :: x.1, x.2)
      | _ => servedByFill word rest
    else servedByFill word rest

/-- A new value of a threshold that a running matrix operation samples (09 R215). -/
def Core.noteTheta (k : Core) (s : State) (loc n : Nat) : Core :=
  match k.theta with
  | some (a, vs) =>
    let v : BitVec 32 := BitVec.ofNat 32 (s.load a 4)
    if a < loc + n && loc < a + 4 && vs.getLast? != some v then { k with theta := some (a, vs ++ [v]) } else k
  | none => k
/-- After any write performed on n bytes of storage: thresholds being sampled, the codes of their lines, WAITNE records of the
words touched. -/
def State.wroteAt (s : State) (loc n : Nat) : State :=
  let s := { s with cores := s.cores.map (fun x => (x.1, x.2.noteTheta s loc n)) }
  let s := (List.range ((loc + n - 1) / 128 - loc / 128 + 1)).foldl (fun s i => s.lineWritten ((loc / 128 + i) * 128)) s
  (List.range ((loc + n - 1) / 8 - loc / 8 + 1)).foldl (fun s i => s.serveWaitne ((loc / 8 + i) * 8)) s
/-- After a write performed on n bytes at an address: the view lines decoded from them go as well. -/
def State.wrote (s : State) (va : Word) (loc n : Nat) : State := (s.wroteAt loc n).dropViews (holder loc) va n

/-- FILL of a word by any party (11 R267, R268): DOUBLE_FILL leaves it unchanged. -/
def State.fillWord (s : State) (va : Word) (loc : Nat) (v : Word) : Option State :=
  if s.feAt loc then none
  else
    let h := holder loc
    let s := ((s.store loc 8 v.toNat).setFe loc true).wrote va loc 8
    let x := servedByFill loc (s.home h).waits
    let s := s.modHome h (fun k => { k with waits := k.waits.filter (fun r => !x.1.contains r) })
    let s := x.1.foldl (fun s r => s.wakeUp h r v true) s
    some (if x.2 then s.setFe loc false else s)

/-- A new wait record: SRAM, then the overflow area, else refused (14 R343). -/
def State.addWait (s : State) (h : Nat) (r : WaitRec) : Option State :=
  let k := s.home h
  let sram := (k.waits.filter (fun x => !x.spilled)).length
  let spilled := (k.waits.filter (fun x => x.spilled)).length
  if sram < Config.waitSram then some (s.setHome h { k with waits := k.waits ++ [{ r with spilled := false }] })
  else if spilled < 16384 * (k.waitovf.toNat % 2 ^ 16) then
    some ((s.setHome h { k with waits := k.waits ++ [{ r with spilled := true }] }).countHome h cWSPILL 1)
  else none

/-! ### Masked writes, the write buffer and pulls (13 R318, R319, R329) -/

/-- Bytes of a sector stored under a mask, with the granule tags of R241; a full mask clears poison (10 R243). -/
def State.storeMasked (s : State) (loc : Nat) (mask : BitVec 32) (data : BitVec 256) (tags : BitVec 2) : State :=
  let base := loc / 32 * 32
  let old := s.load base 32
  let s1 := { s with mem := memStore s.mem base 32 (mergeBytes mask old data.toNat) }
  let setG (s : State) (i : Nat) : State :=
    if mask.extractLsb' (16 * i) 16 == 0 then s else s.setTag (base + 16 * i) (tags.getLsbD i)
  let s2 := setG (setG s1 0) 1
  if mask == BitVec.allOnes 32 then s2.setPoison loc false else s2

/-- Buffered release stores of a sector written into the line; each is reported to its core (13 R318, R329). -/
def State.flushBuffer (s : State) (h sector : Nat) : State :=
  let hit (b : BufStore) : Bool := b.sector == sector
  let rs := (s.home h).wbuf.filter hit
  let s := s.modHome h (fun k => { k with wbuf := k.wbuf.filter (fun b => !hit b) })
  rs.foldl (fun s b =>
    let s := (if b.v.tag then s.storeCap b.loc b.v else s.store b.loc b.size b.v.bits.toNat).wrote b.va b.loc b.size
    s.modCore b.core (fun k => { k with pending := k.pending.erase (b.va.toNat / 32, b.owner) })) s

/-- Cores named by the release directory for a sector (16 R399). -/
def dirCores (k : Home) (sector : Nat) : List Nat :=
  match k.directory.find? (fun e => e.sector == sector) with | some e => e.cores | none => []

/-- Pull messages to some of the cores an entry names (13 R319): the entry is being pulled until they have answered. -/
def State.pullFrom (s : State) (h sector : Nat) (cores : List Nat) : State :=
  let s1 := cores.foldl (fun s c => s.send (.core h) (.core c) Owner.nobody (.pull h sector false)) s
  s1.modHome h (fun k => { k with directory := k.directory.map (fun e =>
    if e.sector == sector then { e with pulling := true } else e) })
/-- Pull messages to every core an entry names. -/
def State.startPull (s : State) (h sector : Nat) : State := s.pullFrom h sector (dirCores (s.home h) sector)

/-- What stands in the way of recording a core in the entry of a sector (16 R399): the oldest core of an entry that names four
others, or the least recent entry of a full directory. Answers the entry, the cores to pull, and whether they are being
pulled already. -/
def dirBlock (k : Home) (sector core : Nat) : Option (DirEntry × List Nat) :=
  match k.directory.find? (fun e => e.sector == sector) with
  | some e => if e.cores.contains core || e.cores.length < 4 then none else some (e, e.cores.take 1)
  | none =>
    if k.directory.length < Config.directorySize then none
    else match k.directory with | e :: _ => some (e, e.cores) | [] => none
/-- The forced pull that makes room, counted by FPULL (13 R319, 16 R399). -/
def State.forcePull (s : State) (h : Nat) (b : DirEntry × List Nat) : State :=
  (s.pullFrom h b.1.sector b.2).countHome h cFPULL 1
/-- A core recorded in the release directory entry of a sector, which becomes the most recent (13 R318, 16 R399). -/
def State.recordRelease (s : State) (h sector core : Nat) : State :=
  s.modHome h (fun k =>
    let e := (k.directory.find? (fun e => e.sector == sector)).getD ⟨sector, [], false⟩
    { k with directory := k.directory.filter (fun e => e.sector != sector)
        ++ [if e.cores.contains core then e else { e with cores := e.cores ++ [core] }] })

end Sys2Proof.Machine
end

