-- ==== Sys2Proof/Machine/Mgmt.lean ====
section
/-!
DEFINITION. Management space: what a read of an offset returns and what a write does (18 R413 and the rules that own
each register), and the route table (16 R400).
-/

namespace Sys2Proof.Machine

/-- Bits of v under a mask of writable fields (00 R9: reserved bits read as zero). -/
def keep (mask v : Word) : Word := v &&& mask

/-! ### Routes (01 R24, 16 R400) -/

/-- Multiplication in GF(8) modulo x³ + x + 1 (01 R24). -/
def gfMul (a b : Nat) : Nat :=
  let p := (if b % 2 == 1 then a else 0) ^^^ (if b / 2 % 2 == 1 then 2 * a else 0) ^^^ (if b / 4 % 2 == 1 then 4 * a else 0)
  let p := if p / 16 % 2 == 1 then p ^^^ 22 else p
  if p / 8 % 2 == 1 then p ^^^ 11 else p
/-- Loop number and hops from station s to a different station t (16 R400). -/
def route (s t : Nat) : Nat × Nat :=
  let sx := s % 8
  let sy := s / 8
  let tx := t % 8
  let ty := t / 8
  let pick (f b hf : Nat) : Nat × Nat := if hf ≤ 4 then (f, hf) else (b, 8 - hf)
  if sy == ty then pick sy (72 + sy) ((tx + 8 - sx) % 8)
  else if sx == tx then pick (64 + sx) (80 + sx) ((ty + 8 - sy) % 8)
  else
    let m := ((List.range 8).find? (fun m => (gfMul m sx ^^^ sy) == (gfMul m tx ^^^ ty))).getD 0
    (8 * m + (gfMul m sx ^^^ sy), (tx + 8 - sx) % 8)

/-! ### Capture channels (17 R407 to R409) -/

/-- Whether a source code belongs to a core (true) or a home (17 R408). -/
def sourceOf (home : Bool) (src : Nat) : Bool := if home then src == 0 || (7 ≤ src && src ≤ 10) else src ≤ 6
/-- Edges that do not decrease (17 R409). -/
def edgesOk (c : Capture) : Bool := (List.range 14).all (fun i => tget c.edges (i + 1) 0 ≤ tget c.edges (i + 2) 0)
/-- Whether a write at offset off of a channel is ignored (17 R409). -/
def capBusy (home : Bool) (c : Capture) (off : Nat) (v : Word) : Bool :=
  let src := v.extractLsb' 8 8
  if off == 0 then (c.enable && src != c.source) || (v.getLsbD 0 && (!sourceOf home src.toNat || !edgesOk c))
  else decide (8 ≤ off) && decide (off ≤ 120) && c.enable && tget c.edges (off / 8) 0 != v
/-- A write of CAPCFG (17 R407, R409), at a place with its recent samples: those of the cycle of the write count where it sets EN, and
do not where it clears EN. -/
def capCfgWrite (home : Bool) (r : Recent) (c : Capture) (v : Word) : Capture :=
  let src := v.extractLsb' 8 8
  let en := v.getLsbD 0
  if capBusy home c 0 v then c
  else
    let now := (r.samples.filter (fun x => x.1 == src.toNat)).foldl (fun t x => t.add c.edges (BitVec.ofNat 64 x.2)) Totals.reset
    let c1 := if en && !c.enable then { c with live := now, before := (r.cycle, Totals.reset) }
      else if !en && c.enable && c.before.1 == r.cycle then { c with live := c.before.2 } else c
    let c2 := { c1 with source := src, enable := en }
    if v.getLsbD 1 then { c2 with shadow := c2.live } else c2
/-- A write to offset off of a channel (18 R413). -/
def capWrite (home : Bool) (r : Recent) (c : Capture) (off : Nat) (v : Word) : Capture :=
  if off == 0 then capCfgWrite home r c v
  else if 8 ≤ off && off ≤ 120 && !c.enable then { c with edges := tput c.edges (off / 8) v }
  else c
/-- A read at offset off of a channel (17 R407: totals come from the shadow set). -/
def capRead (c : Capture) (off : Nat) : Word :=
  if off == 0 then BitVec.ofNat 64 (c.source.toNat * 256 + c.enable.toNat)
  else if off ≤ 120 then tget c.edges (off / 8) 0
  else if off == 128 then c.shadow.count
  else if off == 136 then c.shadow.sum
  else if off == 144 then c.shadow.min
  else if off == 152 then c.shadow.max
  else if off < 288 then tget c.shadow.bins ((off - 160) / 8) 0 else 0

/-! ### Registers with rules of their own -/

/-- Whether a write of an area register is ignored: its area holds entries (14 R334). -/
def areaBusy (old v : Word) (held : Bool) : Bool :=
  held && (old.toNat / 2 ^ 18 != v.toNat / 2 ^ 18 || decide (v.toNat % 2 ^ 16 < old.toNat % 2 ^ 16))
/-- RSOVF, PKSTORE or WAITOVF written (14 R334). -/
def areaWrite (old v : Word) (held : Bool) : Word := if areaBusy old v held then old else keep 0xFFFFFFFFFFFCFFFF v

/-- Whether a write of INQCFG is ignored: its vector lies above 119 (14 R352). -/
def inqcfgBusy (v : Word) : Bool := decide (119 < (v.extractLsb' 32 8).toNat)
/-- INQCFG (14 R352). -/
def inqcfgWrite (q : IntakeQueue) (v : Word) : IntakeQueue :=
  if inqcfgBusy v then q else { q with cfg := keep 0x000000FFFFFF03F5 v }

/-- Overlap of [a, a+n) and [b, b+m). -/
def overlaps (a n b m : Nat) : Bool := decide (a < b + m) && decide (b < a + n)
/-- Whether a window may be set valid (16 R397). -/
def windowOk (ws : List FormatWindow) (w : FormatWindow) : Bool :=
  let f := windowFormat w
  let vlen (x : FormatWindow) : Nat := viewEnd x - x.view.toNat
  (f == 1 || f == 2 || (12 ≤ f.toNat && f.toNat ≤ 14) || (16 ≤ f.toNat && f.toNat ≤ 26))
  && (!isPlaneType f ||
    (!overlaps w.base.toNat (w.len.toNat * 2 ^ 18) w.view.toNat (vlen w)
      && ws.all (fun x => !(windowValid x && isPlaneType (windowFormat x))
        || (!overlaps w.base.toNat (w.len.toNat * 2 ^ 18) x.view.toNat (vlen x)
          && !overlaps w.view.toNat (vlen w) x.view.toNat (vlen x)))))
/-- Whether a write to register r of a window is ignored (16 R397). -/
def windowBusy (ws : List FormatWindow) (w : FormatWindow) (r : Nat) (v : Word) : Bool :=
  if windowValid w then !(r == 4 && !v.getLsbD 0) else r == 4 && v.getLsbD 0 && !windowOk ws { w with cfg := keep 0x3F07 v }
/-- A write to register r (0 to 4) of a format window (16 R396, R397). -/
def windowWrite (ws : List FormatWindow) (w : FormatWindow) (r : Nat) (v : Word) : FormatWindow :=
  if windowBusy ws w r v then w
  else match r with
    | 0 => { w with base := keep 0x00FFFFFFFFFC0000 v }
    | 1 => { w with len := keep 0x0000003FFFFFFFFF v }
    | 2 => { w with view := keep 0x00FFFFFFFFFC0000 v }
    | 3 => { w with scale := keep 0x00FFFFFFFFFFFFFF v }
    | 4 => { w with cfg := keep 0x3F07 v }
    | _ => w

/-- Whether a cluster of a rectangle holds a started thread, in a slot or in its store (16 R402). -/
def rectBusy (s : State) (r : Nat) : Bool :=
  s.threads.any (fun x => inRect r (clusterOf (tcore x.1))) || s.stations.any (fun st => inRect r st.1 && !st.2.store.isEmpty)
/-- Whether a write of PMAP n is ignored (16 R402): on overlap, on started threads, or under an armed GANG. -/
def pmapBusy (s : State) (n : Nat) (v : Word) : Bool :=
  let v := keep 0x00FFFFFFFFFF1FFF v
  let old := tget s.dev.pmap n 0
  let r := v.toNat / 2 % 4096
  let clash := v.getLsbD 0 && (List.range 64).any (fun cl => inRect r cl &&
    ((List.range 15).map (· + 1)).any (fun k => k != n &&
      (tget s.dev.pmap k 0).getLsbD 0 && inRect ((tget s.dev.pmap k 0).toNat / 2 % 4096) cl))
  let busy := old.getLsbD 0 && v != old
    && (rectBusy s (old.toNat / 2 % 4096) || s.gangs.any (fun g => g.part == n))
  clash || busy
/-- PMAP n (16 R402). -/
def pmapWrite (s : State) (n : Nat) (v : Word) : State :=
  if pmapBusy s n v then s else s.modDev (fun d => { d with pmap := tput d.pmap n (keep 0x00FFFFFFFFFF1FFF v) })
/-- Whether a write of PMFO n is ignored (16 R402). -/
def pmfoBusy (s : State) (n : Nat) (v : Word) : Bool :=
  let old := tget s.dev.pmap n 0
  old.getLsbD 0 && (rectBusy s (old.toNat / 2 % 4096) || s.gangs.any (fun g => g.part == n))
    && tget s.dev.pmfo n 0 != keep 0xFFFF v
/-- PMFO n (16 R402). -/
def pmfoWrite (s : State) (n : Nat) (v : Word) : State :=
  if pmfoBusy s n v then s
  else s.modDev (fun d => { d with pmfo := tput d.pmfo n (keep 0xFFFF v) })

/-- Whether a write to register off of an archive drive is ignored (18 R421). -/
def arqBusy (q : ArcQueue) (off : Nat) (v : Word) : Bool :=
  let depth := v.toNat / 2 ^ 10 % 2 ^ 11
  let ok := 2 ≤ depth && depth ≤ 1024 && q.sqaddr.toNat % 4096 == 0 && q.cqaddr.toNat % 4096 == 0
    && q.stage.toNat % 4096 == 0
  off != 0x38 && (if q.cfg.getLsbD 0 then !(off == 0 && !v.getLsbD 0) else off == 0 && v.getLsbD 0 && !ok)
/-- A write to register off of an archive drive (18 R421). -/
def arqWrite (q : ArcQueue) (off : Nat) (v : Word) : ArcQueue :=
  if arqBusy q off v then q
  else if off == 0x38 then (if v == 0 then { q with st := keep 0xFFFFFFFFFFFF0000 q.st } else q)
  else if q.cfg.getLsbD 0 then
    (if (q.st.extractLsb' 16 16) == 0 then { q with cfg := keep 0xFFFFFFFF001FFC03 v, closing := none }
      else { q with closing := some (keep 0xFFFFFFFF001FFC03 v) })
  else match off with
    -- the host has created fresh queues (log 57)
    | 0x00 => { q with cfg := keep 0xFFFFFFFF001FFC03 v, tail := 0, head := 0, phase := true }
    | 0x08 => { q with sqdb := v }
    | 0x10 => { q with cqdb := v }
    | 0x18 => { q with sqaddr := v }
    | 0x20 => { q with cqaddr := v }
    | 0x28 => { q with lbabase := v }
    | 0x30 => { q with stage := v }
    | _ => q

/-- Enabled drives in ascending number (18 R420). -/
def drives (s : State) : List Nat :=
  (List.range 16).filter (fun n => (tget s.dev.arcq n ArcQueue.reset).cfg.getLsbD 0)
/-- The drive and LBA of a shelf (18 R420). -/
def shelfPlace (s : State) (shelf : Nat) : Option (Nat × Word) :=
  let l := drives s
  match l[shelf % max 1 l.length]? with
  | some n => some (n, (tget s.dev.arcq n ArcQueue.reset).lbabase + BitVec.ofNat 64 (65 * (shelf / l.length)))
  | none => none
/-- The shelf of an archive operation (11 R279 to R281). -/
def EngOp.shelf (e : EngOp) : Nat := (e.b.bits.extractLsb' 0 64).toNat
/-- Whether an operation is queued for a drive: its next command is not sent (18 R421). -/
def EngOp.queuedFor (s : State) (e : EngOp) (n : Nat) : Bool :=
  e.kind != .copy && e.failed.isNone && !e.revoked && !e.answered
  && (if e.progress = 0 then (shelfPlace s e.shelf).map Prod.fst == some n else e.progress == 2 && e.drive == n)
/-- EN of a drive is cleared: operations queued for it fail with MACHINE (18 R421). -/
def State.failQueued (s : State) (n : Nat) : State :=
  { s with cores := s.cores.map (fun x => (x.1, { x.2 with engine := x.2.engine.map (fun e =>
    if e.queuedFor s n then { e with failed := some .machine } else e) })) }
/-- A write to a register of drive n performed (18 R421). -/
def State.arqStore (s : State) (n off : Nat) (v : Word) : State :=
  let q := tget s.dev.arcq n ArcQueue.reset
  let x := arqWrite q off v
  let s := if q.cfg.getLsbD 0 && !x.cfg.getLsbD 0 then s.failQueued n else s
  s.modDev (fun d => { d with arcq := tput d.arcq n x })
/-- OUT of a drive changed; a pending clear of EN takes effect at 0 (18 R421). -/
def State.driveOut (s : State) (n : Nat) (up : Bool) : State :=
  let q := tget s.dev.arcq n ArcQueue.reset
  let out := (q.st.extractLsb' 16 16).toNat
  let out2 := if up then min 65535 (out + 1) else out - 1
  let st := (q.st &&& ~~~(0xFFFF0000 : Word)) ||| BitVec.ofNat 64 (out2 * 2 ^ 16)
  match q.closing with
  | some v =>
    if out2 = 0 then (s.failQueued n).modDev (fun d => { d with arcq := tput d.arcq n { q with st := st, cfg := v, closing := none } })
    else s.modDev (fun d => { d with arcq := tput d.arcq n { q with st := st } })
  | none => s.modDev (fun d => { d with arcq := tput d.arcq n { q with st := st } })

/-- PWRLIM (18 R423): a LIMIT out of range stores 1,800. DEDUCED (log 60): LIMIT, bits [15:0], is judged alone, and the bits
above it, to which the rule gives no field, are not kept. -/
def pwrlimValue (v : Word) : Word :=
  let limit := keep 0xFFFF v
  if 600 ≤ limit.toNat && limit.toNat ≤ 1800 then limit else 1800
/-- ATTGO (18 R425): ignored while a report is made; a write of any value but 1 asks nothing. -/
def attgoWrite (x : Trust) (v : Word) : Trust := if x.busy == 1 || v != 1 then x else { x with busy := 1 }
/-- NONCE word i (18 R425): ignored while busy. -/
def nonceWord (x : Trust) (i : Nat) (v : Word) : Trust :=
  if x.busy == 1 then x
  else
    let m : BitVec 256 := (BitVec.allOnes 64).setWidth 256 <<< (64 * i)
    { x with nonce := (x.nonce &&& ~~~m) ||| (v.setWidth 256 <<< (64 * i)) }
/-- A stack's state, by number. -/
def State.stack (s : State) (k : Nat) : Stack := tget s.dev.hbm k (Stack.reset k)
def State.setStack (s : State) (k : Nat) (x : Stack) : State := s.modDev (fun d => { d with hbm := tput d.hbm k x })

/-- An event counter write: 0 clears, so that what was counted in the same cycle stands, and anything else is ignored (17 R405). -/
def counterWrite (t : Table Word) (r : Recent) (i : Nat) (v : Word) : Table Word :=
  if v != 0 then t else match tget r.counts i 0 with | 0 => tdel t i | n => tput t i (satAdd 0 n)

/-- Lines of a window's view range leave a home's cache when the window's validity changes (16 R396). -/
def dropWindowViews (w : FormatWindow) (h : Nat × Home) : Nat × Home :=
  let keepLine (l : CacheLine) : Bool :=
    !(l.view && isPlaneType (windowFormat w) && decide (w.view.toNat ≤ 128 * l.line) && decide (128 * l.line < viewEnd w))
  (h.1, { h.2 with cache := h.2.cache.filter (fun l => keepLine l) })

/-- The effect of an aligned 8-byte write of management space (18 R413). -/
def mgmtStore (s : State) (off : Nat) (v : Word) : State :=
  if off % 8 != 0 then s
  else if off < 0x10000 then
    if off == 0x200 then s.modDev (fun d => { d with ptroot := keep 0x000000FFFFFE0000 v })
    else if off == 0x208 then s.modDev (fun d => { d with ltbase := keep 0x000000FFFFFFFF80 v })
    else if off == 0x210 then s.modDev (fun d => { d with ltcount := keep 0xFFFF v })
    else if 0x408 ≤ off && off < 0x480 then pmapWrite s ((off - 0x400) / 8) v
    else if 0x488 ≤ off && off < 0x500 then pmfoWrite s ((off - 0x480) / 8) v
    else if 0x800 ≤ off && off < 0xC00 then
      let n := (off - 0x800) / 0x40
      let w := tget s.dev.windows n FormatWindow.reset
      let x := windowWrite (s.windows.eraseIdx n) w (off % 0x40 / 8) v
      let s1 := s.modDev (fun d => { d with windows := tput d.windows n x })
      let drop (s : State) : State := { s with homes := s.homes.map (dropWindowViews w) }
      if windowValid w != windowValid x then drop s1
      else s1
    else if off == 0x1000 then s.modDev (fun d => { d with pwrlim := pwrlimValue v })
    else if off == 0x3000 then s.modDev (fun d => { d with hwin := keep 0xFFFFFFFFFFFC0001 v })
    else if 0x5000 ≤ off && off < 0x5400 then
      s.arqStore ((off - 0x5000) / 0x40) (off % 0x40) v
    else if 0x6060 ≤ off && off < 0x6080 then s.modDev (fun d => { d with trust := nonceWord d.trust ((off - 0x6060) / 8) v })
    else if off == 0x6080 then s.modDev (fun d => { d with trust := attgoWrite d.trust v })
    else s
  else if off < 0x11000 then
    let q := (off - 0x10000) / 0x40
    let f (k : IntakeQueue) : IntakeQueue :=
      match off % 0x40 with
      | 0x00 => inqcfgWrite k v
      | 0x10 => { k with root := k.root.extractLsb' 64 64 ++ v }
      | 0x18 => { k with root := v ++ k.root.extractLsb' 0 64 }
      | 0x20 => { k with stat := keep 0x000000FFFFFFFFFF v }
      | _ => k
    s.modDev (fun d => { d with intake := tmod d.intake q IntakeQueue.reset f })
  else if 0x1000000 ≤ off && off < 0x2000000 then
    let c := (off - 0x1000000) / 0x4000
    let o := off % 0x4000
    if 0x100 ≤ o && o < 0x130 then s.modCore c (fun k => { k with counters := counterWrite k.counters (k.recent.at s.cycle) ((o - 0x100) / 8) v })
    else if 0x1000 ≤ o && o < 0x1800 then
      let f (x : Capture) : Capture := capWrite false ((s.core c).recent.at s.cycle) x (o % 0x200) v
      s.modCore c (fun k => { k with captures := tmod k.captures ((o - 0x1000) / 0x200) Capture.reset f })
    else s
  else if 0x2000000 ≤ off && off < 0x2100000 then
    let c := (off - 0x2000000) / 0x4000
    let o := off % 0x4000
    let st := s.station c
    if o == 0 then s.setStation c { st with rsovf := areaWrite st.rsovf v (!st.overflow.isEmpty) }
    else if o == 8 then s.setStation c { st with pkstore := areaWrite st.pkstore v (!st.store.isEmpty) }
    else if 0x100 ≤ o && o < 0x118 then s.setStation c { st with counters := counterWrite st.counters (st.recent.at s.cycle) ((o - 0x100) / 8) v }
    else s
  else if 0x3000000 ≤ off && off < 0x4000000 then
    let h := (off - 0x3000000) / 0x4000
    let o := off % 0x4000
    if o == 0 then s.modHome h (fun k => { k with waitovf := areaWrite k.waitovf v (k.waits.any (fun r => r.spilled)) })
    else if 0x100 ≤ o && o < 0x148 then s.modHome h (fun k => { k with counters := counterWrite k.counters (k.recent.at s.cycle) ((o - 0x100) / 8) v })
    else if 0x1000 ≤ o && o < 0x1800 then
      let f (x : Capture) : Capture := capWrite true ((s.home h).recent.at s.cycle) x (o % 0x200) v
      s.modHome h (fun k => { k with captures := tmod k.captures ((o - 0x1000) / 0x200) Capture.reset f })
    else s
  else if 0x7000000 ≤ off && off < 0x7100000 then
    let k := (off - 0x7000000) / 0x10000
    let o := off % 0x10000
    let x := s.stack k
    if o == 0 then s.setStack k { x with repairmode := keep 0xFF07 v }
    else if 0x100 ≤ o && o < 0x8000 && v == 0 then s.setStack k { x with lanecrc := tdel x.lanecrc ((o - 0x100) / 8) }
    else s
  else s

/-- Whether an aligned write of management space is one that is ignored and reads back BUSY (14 R334, R352; 16 R397, R402;
17 R409; 18 R421). -/
def busyWrite (s : State) (off : Nat) (v : Word) : Bool :=
  let o := off % 0x4000
  let unit (base : Nat) : Nat := (off - base) / 0x4000
  let cap (k : Table Capture) : Capture := tget k ((o - 0x1000) / 0x200) Capture.reset
  let inCaps : Bool := decide (0x1000 ≤ o) && decide (o < 0x1800)
  if off % 8 != 0 then false
  else if 0x408 ≤ off && off < 0x480 then pmapBusy s ((off - 0x400) / 8) v
  else if 0x488 ≤ off && off < 0x500 then pmfoBusy s ((off - 0x480) / 8) v
  else if 0x800 ≤ off && off < 0xC00 then
    let n := (off - 0x800) / 0x40
    decide (off % 0x40 < 0x28) && windowBusy (s.windows.eraseIdx n) (tget s.dev.windows n FormatWindow.reset) (off % 0x40 / 8) v
  else if 0x5000 ≤ off && off < 0x5400 then arqBusy (tget s.dev.arcq ((off - 0x5000) / 0x40) ArcQueue.reset) (off % 0x40) v
  else if 0x10000 ≤ off && off < 0x11000 then off % 0x40 == 0 && inqcfgBusy v
  else if 0x1000000 ≤ off && off < 0x2000000 then inCaps && capBusy false (cap (s.core (unit 0x1000000)).captures) (o % 0x200) v
  else if 0x2000000 ≤ off && off < 0x2100000 then
    let st := s.station (unit 0x2000000)
    if o == 0 then areaBusy st.rsovf v (!st.overflow.isEmpty) else o == 8 && areaBusy st.pkstore v (!st.store.isEmpty)
  else if 0x3000000 ≤ off && off < 0x4000000 then
    let k := s.home (unit 0x3000000)
    if o == 0 then areaBusy k.waitovf v (k.waits.any (fun r => r.spilled)) else inCaps && capBusy true (cap k.captures) (o % 0x200) v
  else false
/-- An aligned 8-byte write of management space (18 R413): an ignored one leaves its register to read back BUSY until a write
of it is taken (log 69). -/
def mgmtWrite (s : State) (off : Nat) (v : Word) : State :=
  if busyWrite s off v then s.modDev (fun d => { d with busyRegs := linsert d.busyRegs off })
  else (mgmtStore s off v).modDev (fun d => { d with busyRegs := d.busyRegs.filter (· != off) })

/-- The word i of a wide register, low bits first. -/
def wideWord (q : BitVec w) (i : Nat) : Word := q.extractLsb' (64 * i) 64

/-- The 272 bits of DISMAP d (16 R403, log 8). -/
def dismapWord (d i : Nat) : Word :=
  BitVec.ofNat 64 ((List.range 64).foldr (fun j acc => 2 * acc + (64 * i + j < 272 && Config.disabled d (64 * i + j)).toNat) 0)

/-- DEVID (18 R414, log 8). -/
def devid : Word := (0x1024 : BitVec 16) ++ Config.stepping ++ (0 : BitVec 8) ++ Config.serial

/-- A mark domain's state word bits (16 R398). -/
def MarkDomain.stateWord (d : MarkDomain) (i : Nat) : Word :=
  if i == 0 then BitVec.ofNat 64 (d.domain.toNat * 2 ^ 48 + d.dhome % 1024 * 2 ^ 38 + d.bound.toNat)
  else BitVec.ofNat 64 d.tick

/-- The contents of a register of management space (18 R413): undefined offsets return zero. -/
def mgmtLoad (s : State) (off : Nat) : Word :=
  if off % 8 != 0 then 0
  else if off < 0x10000 then
    if off == 0 then devid
    else if off == 8 then s.dev.devstat
    else if 0x100 ≤ off && off < 0x120 then BitVec.ofNat 64 (s.tsAt (2048 + (off - 0x100) / 8))
    else if off == 0x200 then s.dev.ptroot
    else if off == 0x208 then s.dev.ltbase
    else if off == 0x210 then s.dev.ltcount
    else if 0x408 ≤ off && off < 0x480 then tget s.dev.pmap ((off - 0x400) / 8) 0
    else if 0x488 ≤ off && off < 0x500 then tget s.dev.pmfo ((off - 0x480) / 8) 0
    else if 0x800 ≤ off && off < 0xC00 then
      let w := tget s.dev.windows ((off - 0x800) / 0x40) FormatWindow.reset
      match off % 0x40 / 8 with
      | 0 => w.base | 1 => w.len | 2 => w.view | 3 => w.scale | 4 => w.cfg | _ => 0
    else if 0xC00 ≤ off && off < 0xD00 then
      if off % 0x40 / 8 < 5 then dismapWord ((off - 0xC00) / 0x40) (off % 0x40 / 8) else 0
    else if off == 0x1000 then s.dev.pwrlim
    else if off == 0x3000 then s.dev.hwin
    else if 0x4000 ≤ off && off < 0x4040 then tget s.dev.ppstat ((off - 0x4000) / 8) 0
    else if 0x5000 ≤ off && off < 0x5400 then
      let q := tget s.dev.arcq ((off - 0x5000) / 0x40) ArcQueue.reset
      match off % 0x40 / 8 with
      | 0 => q.cfg | 1 => q.sqdb | 2 => q.cqdb | 3 => q.sqaddr | 4 => q.cqaddr | 5 => q.lbabase | 6 => q.stage | _ => q.st
    else if 0x6000 ≤ off && off < 0x6020 then wideWord idKey ((off - 0x6000) / 8)
    else if 0x6020 ≤ off && off < 0x6060 then wideWord Config.firmwareDigest ((off - 0x6020) / 8)
    else if off == 0x6088 then s.dev.trust.busy.setWidth 64
    else if 0x6100 ≤ off && off < 0x6180 then wideWord s.dev.trust.report ((off - 0x6100) / 8)
    else if 0x6180 ≤ off && off < 0x61C0 then wideWord s.dev.trust.sig ((off - 0x6180) / 8)
    else if 0x8000 ≤ off && off < 0xC000 then
      let m := tget s.dev.marks ((off - 0x8000) / 0x100) MarkDomain.reset
      let o := off % 0x100
      if o < 128 then BitVec.ofNat 64 (leNat ((m.desc.drop o).take 8))
      else if o < 144 then m.stateWord ((o - 128) / 8) else 0
    else 0
  else if off < 0x11000 then
    let k := tget s.dev.intake ((off - 0x10000) / 0x40) IntakeQueue.reset
    match off % 0x40 with
    | 0x00 => k.cfg | 0x10 => k.root.extractLsb' 0 64 | 0x18 => k.root.extractLsb' 64 64 | 0x20 => k.stat | _ => 0
  else if 0x1000000 ≤ off && off < 0x2000000 then
    let c := (off - 0x1000000) / 0x4000
    let o := off % 0x4000
    if o == 0 then BitVec.ofNat 64 (dieOf c * 2 ^ 16 + Config.physicalCore c % 17 * 256 + Config.physicalCore c / 17 % 16)
    else if 0x100 ≤ o && o < 0x130 then tget (s.core c).counters ((o - 0x100) / 8) 0
    else if 0x1000 ≤ o && o < 0x1800 then
      capRead (tget (s.core c).captures ((o - 0x1000) / 0x200) Capture.reset) (o % 0x200)
    else 0
  else if 0x2000000 ≤ off && off < 0x2100000 then
    let c := (off - 0x2000000) / 0x4000
    let o := off % 0x4000
    if o == 0 then (s.station c).rsovf
    else if o == 8 then (s.station c).pkstore
    else if 0x100 ≤ o && o < 0x118 then tget (s.station c).counters ((o - 0x100) / 8) 0
    else if 0x800 ≤ o && o < 0xA00 && (o - 0x800) / 8 != c then
      BitVec.ofNat 64 ((route c ((o - 0x800) / 8)).1 + 256 * (route c ((o - 0x800) / 8)).2)
    else 0
  else if 0x3000000 ≤ off && off < 0x4000000 then
    let h := (off - 0x3000000) / 0x4000
    let o := off % 0x4000
    if o == 0 then (s.home h).waitovf
    else if 0x100 ≤ o && o < 0x148 then tget (s.home h).counters ((o - 0x100) / 8) 0
    else if 0x1000 ≤ o && o < 0x1800 then
      capRead (tget (s.home h).captures ((o - 0x1000) / 0x200) Capture.reset) (o % 0x200)
    else 0
  else if 0x7000000 ≤ off && off < 0x7100000 then
    let k := (off - 0x7000000) / 0x10000
    let o := off % 0x10000
    let x := s.stack k
    if o == 0 then x.repairmode
    else if o == 8 then x.spares
    else if 0x100 ≤ o && o < 0x8000 then BitVec.ofNat 64 (tget x.lanecrc ((o - 0x100) / 8) 0)
    else if 0x8000 ≤ o && o < 0x9000 then wideWord (x.log.getD ((o - 0x8000) / 16) 0) (o % 16 / 8)
    else 0
  else 0
/-- The status BUSY as a register reads it back: LEASE's code of it (16 R393; log 69). -/
def busyStatus : Word := 1
/-- An aligned 8-byte read of management space (18 R413). -/
def mgmtRead (s : State) (off : Nat) : Word := if s.dev.busyRegs.contains off then busyStatus else mgmtLoad s off

end Sys2Proof.Machine
end

