-- ==== Sys2Proof/Machine/Ops.lean ====
section
/-!
DEFINITION. Shared operations of threads: status registers as words (05 R112 to R117), the lease table (16 R390),
memory read or written in one go by the core, the end of a thread (14 R360), dump records and saved contexts (15 R374,
R378), taking a trap (15 R366 to R370, R373, R375) and returning from one (15 R372).
-/

namespace Sys2Proof.Machine

/-! ### Status registers -/

/-- Slot numbers 64 and 65 belong to handlers (05 R108). -/
def isHandler (t : Nat) : Bool := decide (64 ≤ tslot t)
/-- MODE code (05 R113). -/
def Mode.code : Mode → Nat | .ordinary => 0 | .travel => 1 | .handler => 2
/-- TSTAT (05 R113). -/
def tstatWord (t : Nat) (th : Thread) : Word :=
  BitVec.ofNat 64 (tslot t * 256 + th.lead.toNat * 16 + th.crew.toNat * 8 + th.mode.code * 2 + th.sup.toNat)
/-- FPST (05 R114). -/
def fpstWord (th : Thread) : Word := BitVec.ofNat 64 (th.drm.toNat * 64 + th.flags.bits.toNat)
/-- PRNG0 and PRNG1 (05 R115). -/
def prng0Word (p : Prng) : Word := p.s1 ++ p.s0
def prng1Word (p : Prng) : Word := p.s3 ++ p.s2
/-- The generator that two words describe; all zero makes S3 0x9E37_79B9 (05 R115). -/
def Prng.ofWords (a b : Word) : Prng :=
  let s3 : BitVec 32 := b.extractLsb' 32 32
  ⟨a.setWidth 32, a.extractLsb' 32 32, b.setWidth 32, if a == 0 && b == 0 then 0x9E3779B9 else s3⟩
/-- LEASE (05 R116, 16 R391). -/
def leaseWord (th : Thread) : Word :=
  th.domain ++ (0 : BitVec 16) ++ th.moves ++ th.edits ++ th.record
/-- The ten status words of saved contexts (15 R378). -/
def statusWords (t : Nat) (th : Thread) : List Word :=
  [tstatWord t th, fpstWord th, prng0Word th.prng, prng1Word th.prng, th.turns.setWidth 64, th.deadline, th.taskid,
   th.group, th.bankmask, leaseWord th]
/-- COREID (05 R117). -/
def coreidWord (c : Nat) : Word := BitVec.ofNat 64 (dieOf c * 2 ^ 16 + clusterOf c * 2 ^ 10 + c % 1024)
/-- LINKST (05 R117). -/
def linkstWord (s : State) (c : Nat) : Word :=
  let k := s.core c
  let ab (x : Side) : Nat := (neighbour c x).isNone.toNat
  BitVec.ofNat 64 ((ab .n + 2 * ab .e + 4 * ab .s + 8 * ab .w) * 2 ^ 16
    + k.inW.length * 2 ^ 12 + k.inS.length * 2 ^ 8 + k.inE.length * 2 ^ 4 + k.inN.length)
/-- The timestamp of a core, which each of its threads reads (06 R130). -/
def State.now (s : State) (t : Nat) : Nat := s.tsAt (tcore t)

/-! ### The lease table (16 R390) -/

/-- Physical address of a domain's entry, none where the domain does not exist. DESIGN CHOICE (log 95): bytes 73 to 127 of an entry,
of which the table says zero and states no response where they are not, are not looked at. -/
def leaseEntry (s : State) (dom : BitVec 16) : Option Nat :=
  let a := s.dev.ltbase.toNat + 128 * dom.toNat
  if dom.toNat ≤ s.dev.ltcount.toNat && s.loadFresh (a + 72) 1 == 1 then some a else none
/-- The trap entry of a domain: none unless tagged (15 R367). -/
def trapEntryOf (s : State) (dom : BitVec 16) : Option Val :=
  match leaseEntry s dom with
  | some a => let v := s.loadCap a; if v.tag then some v else none
  | none => none
/-- The initial TRAPCAP of a domain's tasks (05 R116). -/
def trapcapOf (s : State) (dom : BitVec 16) : Val :=
  match leaseEntry s dom with | some a => s.loadCap (a + 16) | none => Val.zero

/-! ### Fills from HBM (10 R237, R242, 17 R411) -/

/-- Stack of a home's pseudo-channel (01 R14). -/
def stackOfHome (h : Nat) : Nat := stackOf h
/-- Pseudo-channel of its stack that a home owns, from 0 to 63 (01 R17). -/
def pseudoChannel (h : Nat) : Nat := 8 * (coreY h % 8) + coreX h % 8
/-- A repair log entry of a line's row (17 R411): row, bank and pseudo-channel, kind, time. Byte 4 holds the bank and byte 5 the
pseudo-channel; the number of a row and this order are a DESIGN CHOICE (log 83). -/
def logEntry (s : State) (h line kind : Nat) : BitVec 128 :=
  BitVec.ofNat 128 (line / 8 % 2 ^ 32 + (Config.bankOf line % 256) * 2 ^ 32 + pseudoChannel h * 2 ^ 40 + kind * 2 ^ 48
    + s.tsAt h * 2 ^ 64)
/-- A row logged once; a full log loses its last entry (17 R411). -/
def addLog (log : List (BitVec 128)) (e : BitVec 128) : List (BitVec 128) :=
  if log.any (fun x => x.setWidth 48 == e.setWidth 48) then log
  else if log.length < 256 then log ++ [e] else log.take 255 ++ [e]
/-- An error met in sector i of a line: 1 corrected and counted, 2 uncorrectable, which poisons it. DESIGN CHOICE (log 90): errors
of the SRAM codes, of which the spec states no effect but their correction, change nothing. -/
def State.eccError (s : State) (h line i : Nat) (e : Nat) : State :=
  let log (s : State) (kind : Nat) : State :=
    let k := stackOfHome h
    s.setStack k { s.stack k with log := addLog (s.stack k).log (logEntry s h line kind) }
  if e = 1 then (s.countHome h cECCCOR 1) |> (log · 1)
  else if e = 2 then
    let loc := 128 * line + 32 * i
    if s.poisonAt loc then s else ((s.countHome h cECCUNC 1).setPoison loc true) |> (log · 2)
  else s
/-- Physical lines that a fill reads from HBM: of a view line, the plane lines of its unit (10 R246). -/
def LineKey.reads (s : State) (x : LineKey) : List Nat :=
  if x.view then
    match viewOf s (128 * x.line) with
    | some w => (List.range ((windowFormat w).toNat - 18)).filterMap (fun j =>
        (storage s noCore (BitVec.ofNat 64 (viewUnit w (128 * x.line) + 128 * j))).map (· / 128))
    | none => []
  else [x.line]
/-- Errors met in the sectors of a line read from HBM, two bits each (10 R242). -/
def State.eccLine (s : State) (h line : Nat) (ecc : BitVec 8) : State :=
  (List.range 4).foldl (fun s i => s.eccError h line i (ecc.toNat / 4 ^ i % 4)) s
/-- A line read from HBM and installed, its DRAM latency sampled (17 R408: a free value, log 3); `ecc` are the errors of the
first line read. -/
def State.fillLine (s : State) (x : LineKey) (ecc : BitVec 8) : State :=
  let ls := x.reads s
  let s := ((List.range ls.length).zip ls).foldl (fun s y =>
    s.eccLine x.home y.2 (if y.1 = 0 then ecc else Config.eccErrors (s.draws + y.1))) s
  let d := s.draw
  ((d.2.modHome x.home (fun k => k.install s x.line x.view)).countHome x.home cHCMISS 1).sampleHome x.home 7 d.1.toNat
/-- Whether no line of a bank can be read now: alert back-off blocks its activates, or a live shift its home's misses (10 R250,
R252). -/
def lineStalled (s : State) (h line : Nat) : Bool :=
  (s.home h).shift || (tfind (s.home h).backoff (Config.bankOf line)).isSome
/-- The line behind a storage address read or written in one go: filled where its home cache lacks it (10 R237), but for a stalled
bank, for which the event waits. -/
def State.needLine (s : State) (loc : Nat) (write : Bool) : State :=
  let h := holder loc
  if !isHbm loc then s
  else if (s.home h).serves (loc / 128) false write then s.modHome h (fun k => k.touch (loc / 128) false)
  else if lineStalled s h (loc / 128) then { s with stalled := true }
  else s.fillLine ⟨h, loc / 128, false⟩ (Config.eccErrors s.draws)

/-! ### Reads and writes the core makes in one go (log 13) -/

/-- Bytes of a sector overlaid with a held sector's bytes. -/
def overlay (x : Sector) (q : BitVec 256 × BitVec 2) : BitVec 256 × BitVec 2 :=
  if x.holds then
    let keepTag (i : Nat) : Bool :=
      if x.mask.extractLsb' (16 * i) 16 == 0 then q.2.getLsbD i else x.tags.getLsbD i
    (BitVec.ofNat 256 (mergeBytes x.mask q.1.toNat x.data.toNat), BitVec.ofBool (keepTag 1) ++ BitVec.ofBool (keepTag 0))
  else q
/-- The current bytes and tags of the sector of an address as a read through its home finds them: buffered release stores
and the released bytes of the cores its release directory names included (13 R319, R329). -/
def homeSector (s : State) (va : Word) (loc : Nat) : BitVec 256 × BitVec 2 :=
  let base := loc / 32 * 32
  let h := holder loc
  let q0 : BitVec 256 × BitVec 2 :=
    (BitVec.ofNat 256 (s.load base 32), BitVec.ofBool (s.tagAt (base + 16)) ++ BitVec.ofBool (s.tagAt base))
  let q1 := (s.home h).wbuf.foldl (fun q b =>
    if b.sector == loc / 32 then
      let m := byteMask (b.loc % 32) b.size
      (BitVec.ofNat 256 (mergeBytes m q.1.toNat (b.v.bits.toNat * 2 ^ (8 * (b.loc % 32)))), mergeTags m q.2 (some b.v.tag))
    else q) q0
  let held := (dirCores (s.home h) (loc / 32)).map (fun k => (s.core k).near.filter (fun l => l.line == lineOf va))
  held.flatten.foldl (fun q l =>
    let x := tget l.sectors (sectorIx va) Sector.invalid
    if x.st == .released then overlay x q else q) q1
/-- The sector of an address as thread t reads it: its near slice first (10 R235). -/
def threadSector (s : State) (t : Nat) (th : Thread) (va : Word) (loc : Nat) : BitVec 256 × BitVec 2 :=
  let x := nearSector (s.core (tcore t)) va th.domain
  let q := homeSector s va loc
  if x.st == .clean then (x.data, x.tags) else overlay x q

/-- Registrations of an owner dropped where a test on home and sector says so. -/
def State.unregisterAll (s : State) (me : Owner) (gone : Nat → Nat → Bool) : State :=
  { s with homes := s.homes.map (fun (x : Nat × Home) =>
      (x.1, { x.2 with registry := x.2.registry.filter (fun e => !(e.2 == me && gone x.1 e.1)) })) }
/-- Sectors whose bytes a core has sent back for an owner and that are not home yet. -/
def sentBack (s : State) (c : Nat) (me : Owner) : List Word :=
  s.msgs.filterMap (fun m => match m.payload with
    | .wback k va _ _ _ w _ _ => if k == c && w == me then some va else none
    | _ => none)
/-- Registrations that a thread's last lazy release covered are cleared where its core no longer holds the sector and its
bytes are home: the pull answers for bytes that eviction or an atomic wrote back before the release (13 R313, R319; log 30). -/
def State.settleRegs (s : State) (t : Nat) (th : Thread) : State :=
  let c := tcore t
  let me := th.owner t
  let mine := (heldBy s c me (fun _ => true)).map Prod.fst ++ sentBack s c me
    ++ th.written.map (fun (k : Nat) => BitVec.ofNat 64 (32 * k))
  let keep := mine.filterMap (fun va => (storage s c va).map (· / 32))
  s.unregisterAll me (fun _ sector => !keep.contains sector)
/-- That of every thread of a core, swapped-out ones and those of a saved partition among them (14 R341, 15 R381). -/
def State.settleCore (s : State) (c : Nat) : State :=
  let inStore (st : Nat × Station) : List (Nat × Thread) := st.2.store.map (fun e => (tnum e.2.core e.2.slot, e.2.thread))
  let stored := s.stations.flatMap inStore ++ s.saved.flatMap (fun v => v.threads ++ v.stations.flatMap inStore)
  (s.threads ++ stored).foldl (fun s x => if tcore x.1 == c then s.settleRegs x.1 x.2 else s) s
/-- The bytes of a sector that are words of bound mark cells at home h. -/
def markMask (s : State) (h : Nat) (va : Word) : BitVec 32 :=
  (List.range 4).foldl (fun m i =>
    if markAt s (sectorVa va + BitVec.ofNat 64 (8 * i)) 8 h then m ||| byteMask (8 * i) 8 else m) 0
/-- The bytes of a write-back stored at its home, but for words that have become mark cells since (12 R290; log 79). -/
def State.wbackAt (s : State) (core : Nat) (va : Word) (mask : BitVec 32) (data : BitVec 256) (tags : BitVec 2)
    (owner : Owner) (clear : Bool) : State :=
  match storage s core va with
  | some loc =>
    let h := holder loc
    let s := (((s.needLine loc true).flushBuffer h (loc / 32)).storeMasked loc (mask &&& ~~~markMask s h va) data tags).wrote va loc 32
    if clear then s.unregister loc owner else s
  | none => s
/-- Bytes on their way home stored at once, those of the cores and owners that `hit` names, given whether a release covers them:
their messages carry none any more. -/
def State.landSent (s : State) (hit : Nat → Owner → Bool → Bool) : State :=
  let clean (m : Msg) : Msg := match m.payload with
    | .wback k va _ data tags owner clear w =>
      if hit k owner clear then { m with payload := .wback k va 0 data tags owner clear w } else m
    | _ => m
  let s1 := s.msgs.foldl (fun s m => match m.payload with
    | .wback k va mask data tags owner clear _ => if hit k owner clear then s.wbackAt k va mask data tags owner clear else s
    | _ => s) s
  { s1 with msgs := s1.msgs.map clean }
/-- A held sector stored at its home at once and held no longer; `clear` drops its registration. -/
def State.landHeld (s : State) (c : Nat) (va : Word) (dom : BitVec 16) (clear : Bool) : State :=
  let x := nearSector (s.core c) va dom
  (s.modCore c (fun k => nearPut k va dom Sector.invalid)).wbackAt c va x.mask x.data x.tags x.owner clear
/-- The released sectors of a core written back at once and their registrations cleared (13 R313, R319; log 13). -/
def State.pullCore (s : State) (c : Nat) : State :=
  let xs := ((s.core c).near.map (fun l => (l.sectors.filter (fun x => x.2.st == .released)).map
    (fun x => (lineSectorVa l.line x.1, l.domain)))).flatten
  xs.foldl (fun s x => s.landHeld c x.1 x.2 true) ((s.landSent (fun k _ clear => k == c && clear)).settleCore c)
/-- What a core holds of a thread, and what it has sent back for it, stored before the thread goes on elsewhere, so that it reads
its own writes and its later releases have nothing to await there (13 R310, R320): a released sector's registration is cleared, a
dirty one's stays (log 20). -/
def State.spill (s : State) (t : Nat) (th : Thread) : State :=
  let c := tcore t
  let s := s.landSent (fun k w _ => k == c && w == th.owner t)
  (heldBy s c (th.owner t) (fun _ => true)).foldl (fun s x =>
    s.landHeld c x.1 x.2 ((nearSector (s.core c) x.1 x.2).st == .released)) (s.settleRegs t th)
/-- The pull of R319 made at once for a read the core makes in one go: the cores that a sector's entry names (log 13). -/
def State.pullNow (s : State) (h sector : Nat) : State :=
  let s1 := (dirCores (s.home h) sector).foldl (fun s c => s.pullCore c) s
  s1.modHome h (fun k => { k with directory := k.directory.filter (fun e => e.sector != sector) })
/-- What precedes a read of the sector of a storage address at its home: the pull, the buffered release stores, and the fill of a
line that is not cached (10 R237, 13 R319, R329). -/
def State.homeRead (s : State) (loc : Nat) : State :=
  let h := holder loc
  let s := if (dirCores (s.home h) (loc / 32)).isEmpty then s else s.pullNow h (loc / 32)
  (s.flushBuffer h (loc / 32)).needLine loc false
/-- What precedes a read of n bytes at an address by core c, in every sector that it reaches (10 R246). -/
def State.pullSpan (s : State) (c : Nat) (va : Word) (n : Nat) : State :=
  ((sectorsOf va n).flatMap (fun a => readSectors s a 32)).foldl (fun s a =>
    match storage s c a with
    | some loc => s.homeRead loc
    | none => s) (s.waitRaise va n)
/-- What precedes a read of n bytes at a physical address by the device (16 R387, R390). -/
def State.readPhys (s : State) (loc n : Nat) : State :=
  (List.range ((loc % 32 + n + 31) / 32)).foldl (fun s i => s.homeRead (loc / 32 * 32 + 32 * i)) s
/-- The relaxed reads of a walk from one level on, through the home caches of its tables (16 R387). -/
def State.walkReads (s : State) (va table : Nat) : List (Nat × Nat × Nat) → State
  | [] => s
  | (_, shift, bits) :: rest =>
    let a := table + 8 * (va / 2 ^ shift % 2 ^ bits)
    let s := s.readPhys a 8
    let w := s.load a 8
    if w / 2 ^ 62 == 1 && w / 2 ^ 40 % 2 ^ 22 == 0 && w % 512 == 0 then s.walkReads va (w % 2 ^ 40) rest else s
/-- The reads of a walk for bits [55:0] of an address: the walk that follows finds the words as they are then. -/
def State.walkNow (s : State) (va : Nat) : State :=
  s.walkReads va (s.dev.ptroot.toNat % 2 ^ 40 / 2 ^ 17 * 2 ^ 17) walkLevels
/-- The walks for pages of 256 KiB. -/
def State.walkPages (s : State) (pages : List Nat) : State := pages.foldl (fun s p => s.walkNow (p * 2 ^ 18)) s
/-- The relaxed read of a domain's lease table entry (16 R390). -/
def State.leaseRead (s : State) (dom : BitVec 16) : State :=
  if dom.toNat ≤ s.dev.ltcount.toNat then s.readPhys (s.dev.ltbase.toNat + 128 * dom.toNat) 128 else s

/-- A granule of 16 bytes as LDCAP would read it by thread t: its tag only where the lease grants LC (10 R232, 11 R259); home
checks included (10 R231). -/
def readGranule (s : State) (t : Nat) (th : Thread) (va : Word) : Except Code Val :=
  match storage s (tcore t) va with
  | none => .error (if selector va == 0 then .machine else .region)
  | some loc =>
    match homeCheck s va loc 16 (th.owner t) false with
    | some c => .error c
    | none =>
      let q := threadSector s t th va loc
      let bits : Quad := q.1.extractLsb' (128 * (loc / 16 % 2)) 128
      .ok ⟨bits, q.2.getLsbD (loc / 16 % 2) && leased th.ranges (permR ||| permLC) va 16 && !capForged bits⟩
/-- n granules from an address on. -/
def readGranules (s : State) (t : Nat) (th : Thread) (va : Word) : Nat → Except Code (List Val)
  | 0 => .ok []
  | n + 1 =>
    match readGranule s t th va with
    | .error c => .error c
    | .ok v =>
      match readGranules s t th (va + 16) n with
      | .error c => .error c
      | .ok r => .ok (v :: r)

/-- One 32-byte sector stored whole by thread t and at once written through, its registration made: a plain store
followed by an eviction (13 R312, R313, R316, R317), or the code with which it is refused. -/
def writeSector (s : State) (t : Nat) (va : Word) (g0 g1 : Val) : Except Code State :=
  match s.thread t with
  | none => .error .machine
  | some th =>
    let c := tcore t
    let me := th.owner t
    match storage s c va with
    | none => .error .machine
    | some loc =>
      match homeCheck s va loc 32 me true with
      | some f => .error f
      | none =>
        let s := (let x := nearSector (s.core c) va th.domain
          if x.holds && x.owner != me then s else s.dropBytes c va th.domain (BitVec.allOnes 32)).dropSent c va me (BitVec.allOnes 32)
        let tags : BitVec 2 := BitVec.ofBool g1.tag ++ BitVec.ofBool g0.tag
        let s := ((((s.waitRaise va 32).needLine loc true).flushBuffer (holder loc) (loc / 32)).storeMasked loc (BitVec.allOnes 32)
          (g1.bits ++ g0.bits) tags).wrote va loc 32
        let s := s.modThread t (fun x => { x with bankmask := x.bankmask ||| bankBit (holder loc) })
        if selector va == 0 then
          let key := va.toNat / 32
          let r := s.register loc me
          match r.2 with
          | .race => .error .race
          | .kept => .ok (r.1.modThread t (fun x => x.wroteSector key))
          | .shed => .ok (r.1.modThread t (fun x => { x with shed := if x.shed.contains key then x.shed else key :: x.shed }))
        else .ok { s with owners := tput s.owners (loc / 32) me }
/-- Granules written from an address on, two a sector. -/
def writeGranules (s : State) (t : Nat) (va : Word) : List Val → Except Code State
  | [] => .ok s
  | [a] => writeSector s t va a Val.zero
  | a :: b :: rest =>
    match writeSector s t va a b with
    | .error f => .error f
    | .ok s => writeGranules s t (va + 32) rest

/-- Granules stored from a storage address on. -/
def State.rawGranules (s : State) (loc : Nat) : List Val → State
  | [] => s
  | v :: rest => (if v.tag then s.storeCap loc v else s.store loc 16 v.bits.toNat).rawGranules (loc + 16) rest
/-- A run of granules stored at a storage address by the device itself (15 R374, R378; 14 R341): lines that are not cached are
filled, buffered release stores come first, sectors written whole lose their poison (10 R243). -/
def State.putGranules (s : State) (loc : Nat) (l : List Val) : State :=
  let n := 16 * l.length
  if l.isEmpty then s
  else
    let s := (List.range ((loc % 128 + n + 127) / 128)).foldl (fun s i => s.needLine (loc / 128 * 128 + 128 * i) true) s
    let s := (List.range ((loc % 32 + n + 31) / 32)).foldl (fun s i =>
      if (s.home (holder loc)).wbuf.isEmpty then s else s.flushBuffer (holder loc) (loc / 32 + i)) s
    let s := { s with poison := s.poison.filter (fun x => !(decide (loc ≤ 32 * x) && decide (32 * x + 32 ≤ loc + n))) }
    (s.rawGranules loc l).wroteAt loc n

/-! ### Leases, spans and lanes -/

/-- The pages of 256 KiB a range of region 0x00 covers. -/
def pagesOf (q : Quad) : List Nat :=
  let b := (capBase q).toNat
  let e := (capTop q).toNat
  if b / 2 ^ 56 != 0 || e ≤ b then [] else (List.range ((e - 1) / 2 ^ 18 - b / 2 ^ 18 + 1)).map (fun i => b / 2 ^ 18 + i)
/-- PINS of a page's home frame entry changed, saturating (16 R389). -/
def State.pinPage (s : State) (up : Bool) (page : Nat) : State :=
  match walk s (page * 2 ^ 18) with
  | none => s
  | some l =>
    let loc := leafLoc l.home l.frame l.level (page * 2 ^ 18)
    let f := loc / 2 ^ 18 % 4096
    s.modHome (holder loc) (fun h => { h with frames := tmod h.frames f HomeFrame.reset (fun e =>
      { e with pins := if up then min 65535 (e.pins + 1) else e.pins - 1 }) })
/-- Every page of the ranges pinned or unpinned. -/
def State.pinRanges (s : State) (up : Bool) (ranges : List Quad) : State :=
  let pages := (ranges.map pagesOf).flatten
  pages.foldl (fun s p => s.pinPage up p) (s.walkPages pages)
/-- Storage spans of a scratchpad or chip scratchpad range, for a task on core c (10 R230). -/
def spansOf (c : Nat) (q : Quad) : List (Nat × Nat) :=
  let b := BitVec.ofNat 64 (capBase q).toNat
  let n := (capTop q - capBase q).toNat
  let o := va56 b
  match selector b with
  | 0xF0 => [(spadLoc c (o % 2 ^ 18), n)]
  | 0xF1 => (List.range 16).filterMap (fun j =>
      let lo := max o (j * 2 ^ 16)
      let hi := min (o + n) ((j + 1) * 2 ^ 16)
      if lo < hi then some (spadLoc (coreAt (clusterOf c) j) (0x20000 + lo % 2 ^ 16), hi - lo) else none)
  | 0xF2 => [(chipLoc 0 0 + o, n)]
  | _ => []
/-- The scratchpad spans of ranges zeroed (10 R249). -/
def State.zeroSpans (s : State) (c : Nat) (ranges : List Quad) : State :=
  ((ranges.map (spansOf c)).flatten).foldl (fun s x => s.zeroRange x.1 x.2) s
/-- Lane units of a core zeroed in every lane (07 R171, 10 R249). -/
def State.zeroLanes (s : State) (c : Nat) (units : List Nat) : State :=
  units.foldl (fun s u => (List.range 32).foldl (fun s l => s.zeroRange (laneLoc c l u 0) 256) s) s
/-- The PLB entries of a slot removed (16 R388). -/
def State.dropPlb (s : State) (t : Nat) : State :=
  s.modCore (tcore t) (fun k => { k with plb := k.plb.filter (fun e => e.slot != tslot t) })

/-! ### Group words (14 R345) -/

/-- Every GBAR record of a group word served with the new generation (14 R344, R345). -/
def State.servePhase (s : State) (h loc gen : Nat) : State :=
  let hit (r : WaitRec) : Bool := r.word == loc && r.kind == .gbar
  let rs := (s.home h).waits.filter hit
  let s := s.modHome h (fun k => { k with waits := k.waits.filter (fun r => !hit r) })
  rs.foldl (fun s r => s.wakeUp h r (BitVec.ofNat 64 gen) true) s
/-- Test of completion: a phase ends when ARRIVALS > 0 and ARRIVALS ≥ MEMBERS. -/
def State.groupTest (s : State) (va : Word) (loc : Nat) : State :=
  let m := s.load loc 4
  let a := s.load (loc + 4) 4
  if 0 < a && m ≤ a then
    let gen := (s.load (loc + 8) 8 + 1) % 2 ^ 64
    (((s.store (loc + 4) 4 0).store (loc + 8) 8 gen).wrote va loc 16).servePhase (holder loc) loc gen
  else s
/-- LEAVE at the word of an address (14 R361): the status, and whether GROUP becomes 0. -/
def State.groupLeave (s : State) (va : Word) (loc : Nat) : State × Nat :=
  let m := s.load loc 4
  if m == 0 then (s, 2)
  else (((s.store loc 4 (m - 1)).wrote va loc 16).groupTest va loc, 0)

/-! ### Replay entries (15 R369, R370, R447) -/

/-- WORD with KIND in place of LA (15 R369). -/
def kindWord (w : Word) (kind : Nat) : Word :=
  (w &&& 0xFFFFFFFFFFFFC3FF) ||| BitVec.ofNat 64 (kind % 16 * 2 ^ 10)
/-- KIND of an entry (15 R369). -/
def Entry.kind (e : Entry) : Nat := e.word.toNat / 2 ^ 10 % 16
/-- PCW (15 R369). -/
def pcWord (code : Option Code) (addr : Word) : Word :=
  (match code with | some c => c.num | none => 0) ++ (addr.setWidth 56 : BitVec 56)
/-- The entry of a refused or pending operation and its continuation. -/
def Op.entries (o : Op) (kind : Nat) (code : Option Code) : List Entry :=
  [⟨pcWord code o.addr, kindWord o.word kind, o.slot1, o.slot2, o.slot3⟩,
   ⟨o.wordHi, o.arith, Val.data o.cont, Val.zero, Val.zero⟩]
/-- The DONE entry of an operation with its values. -/
def Op.doneEntry (o : Op) (vs : List Val) : Entry :=
  ⟨pcWord none o.addr, kindWord o.word 1, vs.headD Val.zero, vs.getD 1 Val.zero, Val.zero⟩
/-- Entries of operations once nothing is outstanding: DONE for a result not yet in its register; FAULTED for a refused
one of the table of R370, ISSUE for any other refused one; none for a posted access acknowledged (15 R367). -/
def Op.settled (o : Op) : List Entry :=
  let refused (c : Code) : List Entry :=
    if o.capture then o.entries 2 (some c) else [⟨pcWord (some c) o.addr, kindWord o.first 0, Val.zero, Val.zero, Val.zero⟩]
  match o.phase with
  | .done vs => if o.cls == .longLat then [o.doneEntry vs] else []
  | .refused c _ => refused c
  | .refusing c _ => refused c
  | _ => o.entries 4 none
/-- The entry of a unit that faulted at its issue (15 R447). -/
def issueEntry (u : UnitWords) (code : Code) : Entry :=
  ⟨pcWord (some code) u.addr, kindWord u.first 0, Val.zero, Val.zero, Val.zero⟩

/-- Whether an operation asks nothing more of anyone. -/
def Op.isSettled (o : Op) : Bool := match o.phase with | .done _ => true | .refused .. => true | _ => false
/-- The refused operation of lowest sequence. -/
def oldestRefused (ops : List Op) : Option Op := ops.find? (fun o => match o.phase with | .refused .. => true | _ => false)
/-- Values written into the destinations of an operation, which become present. -/
def Thread.deliver (th : Thread) (dests : List Opn) (vs : List Val) : Thread :=
  (dests.zip vs).foldl (fun th x => th.write x.1 x.2) th
/-- Values of a group beyond the slots of a DONE entry, kept until the entry is taken (log 14). -/
def Thread.keepRest (th : Thread) (o : Op) (vs : List Val) : Thread :=
  if 2 < vs.length then { th with spare := th.spare ++ [((o.addr.setWidth 56 : BitVec 56).setWidth 64, vs.drop 2)] } else th

/-- Whether a link of a destination is a push (05 R110, R111), with its neighbour or queue. -/
def sideOf (d : Opn) : Option Side :=
  match d.toNat with | 257 => some .n | 258 => some .e | 259 => some .s | 260 => some .w | _ => none
def queueOf (d : Opn) : Option Nat := if 261 ≤ d.toNat && d.toNat ≤ 268 then some (d.toNat - 261) else none
/-- Values on their way from core c to a side, in order (01 R26). -/
def Core.flying (k : Core) : Side → List QueueEntry | .n => k.flyN | .e => k.flyE | .s => k.flyS | .w => k.flyW
def Core.setFlying (k : Core) (x : Side) (l : List QueueEntry) : Core :=
  match x with
  | .n => { k with flyN := l } | .e => { k with flyE := l } | .s => { k with flyS := l } | .w => { k with flyW := l }
def Core.inbox (k : Core) : Side → List QueueEntry | .n => k.inN | .e => k.inE | .s => k.inS | .w => k.inW
def Core.setInbox (k : Core) (x : Side) (l : List QueueEntry) : Core :=
  match x with
  | .n => { k with inN := l } | .e => { k with inE := l } | .s => { k with inS := l } | .w => { k with inW := l }
/-- The pusher's owner fields on its own core cleared (13 R326). -/
def State.clearOwners (s : State) (c : Nat) (me : Owner) : State :=
  { s with owners := s.owners.filter (fun x => !(holder (32 * x.1) == c && x.2 == me)) }
/-- A value pushed to a link or crew queue by a thread of core c (03 R52, 05 R111, 13 R326). -/
def State.push (s : State) (c : Nat) (me : Owner) (dom : BitVec 16) (d : Opn) (v : Val) : State :=
  match sideOf d, queueOf d with
  | some x, _ => (s.clearOwners c me).modCore c (fun k => k.setFlying x (k.flying x ++ [⟨v, dom⟩]))
  | none, some q => (s.clearOwners c me).modCore c (fun k => { k with queues := tmod k.queues q [] (fun l => l ++ [⟨v, dom⟩]) })
  | none, none => s
/-- Entries a push would find before it, the instruction's own pops taken off (03 R52). -/
def occupied (s : State) (c : Nat) (pops : List Opn) (x : Opn) : Nat :=
  match sideOf x, queueOf x with
  | some sd, _ =>
    let n := (neighbour c sd).getD c
    ((s.core n).inbox (Side.opposite sd)).length + ((s.core c).flying sd).length
  | none, some q => (tget (s.core c).queues q []).length - (pops.filter (· == x)).length
  | none, none => 0
/-- Room of a link inbox or crew queue. -/
def roomOf (x : Opn) : Nat := if x.toNat ≤ 260 then Config.inboxSize else Config.crewQueueSize
/-- Whether operations of a core issued before operation `id` still have to push to a link or queue (03 R52). -/
def pushBefore (s : State) (c id : Nat) (x : Opn) : Bool :=
  s.threads.any (fun y => tcore y.1 == c && y.2.ops.any (fun o => decide (o.id < id) && o.dests.contains x))
/-- Whether accesses of a thread to its own core's scratchpads, issued before operation `id`, are still on their way: a push
comes after them (13 R326; log 80). -/
def padOut (s : State) (t : Nat) (th : Thread) (id : Nat) : Bool :=
  let here (va : Word) : Bool := selector va != 0
  s.msgs.any (fun m => m.owner == th.owner t && m.dst == .core (tcore t) && (match m.payload with
    | .access _ op => decide (op < id) && (match th.op op with | some o => here o.va | none => false)
    | .write _ op va _ _ _ => decide (op < id) && here va
    | _ => false))
/-- Whether operation `id` of a thread can put its value now: a push finds room, follows the earlier pushes of its core and
its thread's earlier accesses there. -/
def pushClear (s : State) (t : Nat) (th : Thread) (id : Nat) (d : Opn) : Bool :=
  d.toNat ≤ 256
  || (decide (occupied s (tcore t) [] d < roomOf d) && !pushBefore s (tcore t) id d && !padOut s t th id)

/-- An operation of the unit being issued. -/
def State.newOp (s : State) (cls : OpClass) (act : Act) (phase : Phase) (va : Word) : Op where
  id := s.nextId
  cls := cls
  act := act
  phase := phase
  va := va
  addr := s.unit.addr
  first := s.unit.first
  word := s.unit.word
  wordHi := s.unit.wordHi
  arith := s.unit.arith
  slot1 := Val.zero
  slot2 := Val.zero
  slot3 := Val.zero
  cont := 0
  capture := false
  dests := []
  flags := Flags.none
  cells := []
  ticks := 0
  acquire := false
  mask := 0
  held := 0
  tags := 0
  issued := s.cycle

/-- The registers among destinations. -/
def regsOf (ds : List Opn) : List Nat := (ds.filter (fun d => d.toNat < 256)).map BitVec.toNat
/-- An operation entered: a long-latency one clears the presence of its registers and opens its window; one that leaves
the rotation takes the thread out (03 R61, 11 R256). -/
def State.startOp (s : State) (t : Nat) (o : Op) (la : Nat) : State :=
  let s := { s with nextId := s.nextId + 1 }
  s.modThread t (fun th =>
    let th := { th with ops := th.ops ++ [o] }
    match o.cls with
    | .posted => th
    | .out => { th with status := .out o.id s.cycle }
    | .longLat =>
      let rs := regsOf o.dests
      let th := rs.foldl (fun th r => th.setPresent r false) th
      if rs.isEmpty then th
      else { th with windows := th.windows ++ [⟨rs, if th.resuming then 0 else la⟩] })

/-- A value written to a register or z, or pushed at once. -/
def State.putNow (s : State) (t : Nat) (d : Opn) (v : Val) : State :=
  if d.toNat ≤ 256 then s.modThread t (fun th => th.write d v)
  else match s.thread t with
    | some th => s.push (tcore t) (th.owner t) th.domain d v
    | none => s
/-- The value of the unit being issued put to its destination: register, z, link or crew queue. A push that must wait stays
behind as an operation of its own, and the thread goes on (03 R52, 13 R326; log 80). -/
def State.putDest (s : State) (t : Nat) (d : Opn) (v : Val) : State :=
  match s.thread t with
  | some th =>
    if pushClear s t th s.nextId d then s.putNow t d v
    else s.startOp t { s.newOp .posted .nothing (.done [v]) 0 with dests := [d] } 0
  | none => s
/-- Whether an operation stands ready to push: it is done, every instruction before it is done, and it names a link or queue. -/
def Thread.pushDue (th : Thread) (o : Op) : Bool :=
  let isDone (x : Op) : Bool := match x.phase with | .done _ => true | _ => false
  o.dests.any (fun d => 257 ≤ d.toNat) && isDone o && th.ops.all (fun x => decide (o.id ≤ x.id) || isDone x)
/-- Whether a trap must let pushes be made first: of instructions older than the one it is taken for, and of single-cycle ones
(15 R367). -/
def pushesLeft (th : Thread) : Bool :=
  th.ops.any (fun o => th.pushDue o || (o.cls == .posted && o.act == .nothing))

/-! ### Saved contexts and dump records (15 R374, R378) -/

/-- A task bound to its core by what it holds or waits for there (14 R342). -/
def boundTask (s : State) (t : Nat) (th : Thread) : Bool :=
  (s.core (tcore t)).tiles.any (fun x => x.2.owner == th.taskid && !x.2.free) || !th.lanes.isEmpty
  || th.ranges.any (fun q => selector (BitVec.ofNat 64 (capBase q).toNat) == 0xF0)
  || (match th.status with
    | .parked (.tile _) _ => true | .parked .matrixUnit _ => true | .parked .engineQueue _ => true
    | .parked .postedRoom _ => true | _ => false)
/-- COUNT code of a register count (15 R378). -/
def countCode (n : Nat) : Nat := if n ≤ 16 then 0 else Nat.log2 n - 4
/-- The granules of the layout of R378 with the given entries. -/
def contextGranules (s : State) (t : Nat) (th : Thread) (entries : List Entry) : List Val :=
  let w2 (a b : Word) : Val := Val.data (b ++ a)
  let st := statusWords t th
  let g (i : Nat) : Word := st.getD i 0
  let parked := match th.status with | .parked _ since => some since | .out _ since => some since | _ => none
  let flags : Nat := th.trapActive.isSome.toNat + 2 * parked.isSome.toNat + 4 * (boundTask s t th).toNat + 8 * th.crew.toNat
  let info : Nat := countCode th.count + 256 * min 16 entries.length + 2 ^ 16 * flags + 2 ^ 24 * th.lanes.length
  let present : Nat := (List.range 256).foldl (fun n i => if (th.reg i).present && i < th.count then n + 2 ^ i else n) 0
  let es := (entries.map (fun e => [w2 e.pcw e.word, e.s1, e.s2, e.s3])).flatten
  let pad (n : Nat) (l : List Val) : List Val := l.take n ++ List.replicate (n - l.length) Val.zero
  [th.pcc, w2 (g 0) (g 1), w2 (g 2) (g 3), w2 (g 4) (g 5), w2 (g 6) (g 7), w2 (g 8) (g 9), th.trapcap,
   w2 (BitVec.ofNat 64 info) (BitVec.ofNat 64 ((parked.map (fun c => 2 * c / 3)).getD 0)),
   Val.data (BitVec.ofNat 128 present), Val.data (BitVec.ofNat 128 (present / 2 ^ 128)), Val.zero, Val.zero]
  ++ pad 64 es ++ List.replicate 180 Val.zero
  ++ (List.range 256).map (fun i => if i < th.count then (th.reg i).v else Val.zero)

/-- The granules of a dump record's first 1,024 bytes (15 R374). -/
def dumpHead (owner : Owner) (time : Word) (kind core : Nat) (causes : List Cause) : List Val :=
  let cs := (causes.take 8).map (fun c => [Val.data (c.addr ++ c.pc), Val.data ((c.code.num.setWidth 64 : Word) ++ c.time)])
  let meta_ : Nat := kind + 256 * min 8 causes.length + 2 ^ 16 * core + 2 ^ 32 * owner.cls.toNat
  [Val.data (time ++ owner.num), Val.data (BitVec.ofNat 128 meta_), Val.zero, Val.zero] ++ cs.flatten
/-- A dump record written into the ring of a domain (15 R374): the state and DUMP's status (R376). -/
def State.dump (s : State) (dom : BitVec 16) (owner : Owner) (kind core : Nat) (causes : List Cause) (context : List Val) :
    State × Nat :=
  let s := s.leaseRead dom
  match leaseEntry s dom with
  | none => (s, 2)
  | some a =>
    let n := s.load (a + 40) 4
    let next := s.load (a + 44) 4
    let read := s.load (a + 52) 4
    if n == 0 then (s, 2)
    else if n ≤ (next + 2 ^ 32 - read) % 2 ^ 32 then
      -- a counter of the kind of 17 R405
      ((s.store (a + 48) 4 (min (2 ^ 32 - 1) (s.load (a + 48) 4 + 1))).wroteAt (a + 48) 4, 1)
    else
      let base := s.load (a + 32) 8 % 2 ^ 40 + Config.dumpBytes * (next % n)
      let pad (k : Nat) (l : List Val) : List Val := l.take k ++ List.replicate (k - l.length) Val.zero
      let s := s.putGranules base
        (pad 64 (dumpHead owner (BitVec.ofNat 64 (s.tsAt core)) kind core causes) ++ pad 512 context)
      (((s.store (a + 44) 4 ((next + 1) % 2 ^ 32)).wroteAt (a + 44) 4).signal 120 0, 0)
/-- A record of KIND 3 for a cause that belongs to no chain (15 R374). -/
def State.causeRecord (s : State) (dom : BitVec 16) (owner : Owner) (core : Nat) (c : Cause) : State :=
  (s.dump dom owner 3 core [c] []).1

/-! ### The end of a thread (14 R347, R354, R360; 15 R375) -/

/-- The dirty and released sectors of a thread written back, what its core has sent back among them, and their registrations
cleared at once, with its owner fields (13 R313; log 13). -/
def State.flushThread (s : State) (t : Nat) (th : Thread) : State :=
  let c := tcore t
  let me := th.owner t
  let s := s.landSent (fun k w _ => k == c && w == me)
  ((heldBy s c me (fun _ => true)).foldl (fun s x => s.landHeld c x.1 x.2 true) s).forget me
/-- The completion record of R354, and the signal of its queue's vector. -/
def State.completionRecord (s : State) (t : Nat) (th : Thread) (status : BitVec 8) : State :=
  if th.tcb.flags.getLsbD 3 then
    let a := th.tcb.group
    -- a 32-byte write to management space is ignored (18 R413)
    let bytes := leBytes 8 th.taskid.toNat ++ leBytes 8 (s.now t) ++ leBytes 4 status.toNat
      ++ leBytes 4 th.turns.toNat ++ leBytes 4 th.tcb.fanout.toNat ++ leBytes 4 0
    let s := if a.getLsbD 55 then s else s.emit (.hostWrite (va56 a / 2 ^ 54 % 2) (va56 a % 2 ^ 54) bytes)
    match th.queue with
    | some q => s.signal ((tget s.dev.intake q IntakeQueue.reset).cfg.extractLsb' 32 8).toNat th.link
    | none => s
  else s
/-- A thread's wait records removed from every home (14 R344). -/
def State.dropWaits (s : State) (w : Waiter) : State :=
  { s with homes := s.homes.map (fun x => (x.1, { x.2 with waits := x.2.waits.filter (fun r => r.who != w) })) }
/-- Whether a drain of the core still uses a task's lease (09 R228). -/
def drainHolds (k : Core) (task : Word) : Bool := k.drains.any (fun d => d.taskid == task)
/-- Step 2 of R360: the LEAVE of a thread that ends on core c, at the home of its group word; `pc` is the address that a
skipped one records. One that its home refuses is skipped and recorded with that code (log 81). -/
def State.endLeave (s : State) (t : Nat) (th : Thread) (pc : Word) : State :=
  let c := tcore t
  let skip (s : State) (f : Code) : State :=
    s.causeRecord th.domain (th.owner t) c ⟨pc, th.group, BitVec.ofNat 64 (s.now t), f⟩
  if th.group == 0 then s
  else if !(leased th.ranges (permW ||| permAT) th.group 16 && regionOk s th.group 16) then skip s .lease
  else
    let s := s.pullSpan c th.group 16
    match storage s c th.group with
    | none => skip s .machine
    | some loc =>
      match homeCheck s th.group loc 16 (th.owner t) false with
      | some f => skip s f
      | none => ((s.flushBuffer (holder loc) (loc / 32)).groupLeave th.group loc).1
/-- What the drains of an ended task go on with: its deadline, lease record and ranges (09 R225, R228). -/
def Drain.takeOver (d : Drain) (th : Thread) : Drain :=
  if d.taskid == th.taskid then
    { d with deadline := th.deadline, record := th.moves ++ th.edits ++ th.record, ranges := th.ranges }
  else d
/-- The tiles of an ended task released, but those its drains still hand over (09 R199, 14 R360 step 3). -/
def Core.dropTiles (k : Core) (th : Thread) : Core :=
  { k with
    tiles := k.tiles.map (fun x =>
      (x.1, if x.2.owner == th.taskid && !x.2.drain && !x.2.busy && !x.2.free then x.2.release else x.2))
    drains := (k.drains.filter (fun d => d.armed || d.taskid != th.taskid)).map (fun d => d.takeOver th)
    claims := k.claims.filter (fun x => x.1 != th.taskid) }
/-- Steps 2 to 6 of R360: LEAVE, tiles, pins, the record of R354, lanes, spans and the slot. `status` is 0 for END and `pc` the
address that a skipped LEAVE records. -/
def State.endThread (s : State) (t : Nat) (status : BitVec 8) (pc : Word) : State :=
  match s.thread t with
  | none => s
  | some th =>
    let c := tcore t
    let s := (s.endLeave t th pc).modCore c (fun k => k.dropTiles th)
    let s := if drainHolds (s.core c) th.taskid then s else s.pinRanges false th.ranges
    let s := s.completionRecord t th status
    let s := s.modCore c (fun k => { k with lanesOut := k.lanesOut.filter (fun u => !th.lanes.contains u) })
    let s := s.zeroLanes c th.lanes
    let s := (s.dropPlb t).dropWaits (.slot t)
    let s :=
      if th.crew || th.lead then
        match (s.core c).crew with
        | some w =>
          if w.members.contains t then
            let rest := w.members.filter (· != t)
            if rest.isEmpty then
              (s.modCore c (fun k => { k with crew := none, queues := [] })).zeroSpans c w.template.ranges
            else s.modCore c (fun k => { k with crew := some { w with members := rest } })
          else s.zeroSpans c th.ranges
        | none => s.zeroSpans c th.ranges
      else s.zeroSpans c th.ranges
    s.dropThread t

/-! ### Tiles (09 R194 to R199) -/

def Core.tile (k : Core) (i : Nat) : Tile := tget k.tiles i Tile.reset
def State.modTile (s : State) (c i : Nat) (f : Tile → Tile) : State :=
  s.modCore c (fun k => { k with tiles := tmod k.tiles i Tile.reset f })
/-- A FREE tile claimed (09 R198): whether it was. -/
def State.claimTile (s : State) (t : Nat) (th : Thread) (i : Nat) : State × Bool :=
  let free := ((s.core (tcore t)).tile i).free
  (if free then s.modTile (tcore t) i (fun x => { x with owner := th.taskid, domain := th.domain, free := false }) else s, free)
/-- A task that must wait for the matrix unit: it has claimed the unit and its tile (09 R198, R208). -/
def State.queueClaim (s : State) (t : Nat) (th : Thread) (i : Nat) : State :=
  if (s.core (tcore t)).claims.any (fun x => x.1 == th.taskid) then s
  else
    let r := s.claimTile t th i
    r.1.modCore (tcore t) (fun k => { k with claims := k.claims ++ [(th.taskid, if r.2 then some i else none)] })

/-! ### Traps (15 R366 to R373) -/

/-- A task's wait for the matrix unit given up, and the tile that it claimed with the unit (09 R207, R208). -/
def Core.dropClaim (k : Core) (task : Word) : Core :=
  { k with
    claims := k.claims.filter (fun x => x.1 != task)
    tiles := k.claims.foldl (fun ts x => match x.2 with
      | some i => if x.1 == task then tmod ts i Tile.reset (fun y => { y with owner := 0, domain := 0, free := true }) else ts
      | none => ts) k.tiles }
/-- Stop of a unit: the thread waits for its issued instructions before the trap is entered (15 R367). -/
def State.startTrap (s : State) (t : Nat) (code : Option Code) (cause : Word) (held : List Entry) (fpc next : Word)
    (again fatal : Bool) : State :=
  match s.thread t with
  | none => s
  | some th =>
    let s := if th.dispatch.isNone then s.modCore (tcore t) (fun k => k.dropClaim th.taskid) else s
    s.setThread t { th with status := .trapping code cause held fpc next again fatal }

/-- What the trap of a settled thread records: code, cause address, FPC, entries and RPCC. -/
structure TrapPlan where
  code    : Code
  cause   : Word
  fpc     : Word
  entries : List Entry
  rpcc    : Val
  th      : Thread
  deriving DecidableEq, Repr

/-- The plan of R367 for a thread whose instructions are all settled. F is the oldest refused operation; without one,
the cause held in the status. Operations older than F deliver their results. -/
def trapPlan (th : Thread) (code : Option Code) (cause : Word) (held : List Entry) (fpc next : Word) (again : Bool) :
    TrapPlan :=
  let finish (th : Thread) (ops : List Op) : Thread := ops.foldl (fun th o =>
    match o.phase with
    | .done vs => let x := th.deliver o.dests vs; { x with flags := x.flags.or o.flags }
    | _ => th) th
  match oldestRefused th.ops with
  | some f =>
    let older := th.ops.filter (fun o => o.id < f.id)
    let later := th.ops.filter (fun o => f.id ≤ o.id)
    let rest := (later.filter (fun o => match o.phase with | .done _ => true | _ => false)).foldl (fun th o =>
      match o.phase with
      | .done vs => let x := th.keepRest o vs; { x with flags := x.flags.or o.flags }
      | _ => th) (finish th older)
    let tail := if again then held ++ th.reinject else th.reinject
    let cd := match f.phase with | .refused c a => (c, a) | _ => (.machine, 0)
    ⟨cd.1, cd.2, f.addr, (later.map Op.settled).flatten ++ tail,
      if code.isSome && !again then (th.setPc fpc.toNat).pcc else th.pcc, rest⟩
  | none =>
    ⟨code.getD .machine, cause, fpc, held ++ th.reinject,
      if again then th.pcc else (th.setPc next.toNat).pcc, finish th th.ops⟩

/-- The granules of a trap frame (15 R368, R369). -/
def frameGranules (s : State) (t : Nat) (p : TrapPlan) : List Val :=
  let w2 (a b : Word) : Val := Val.data (b ++ a)
  let k (i : Nat) : Val := (p.th.reg i).v
  let head : Nat := p.code.num.toNat + 256 * p.entries.length + 2 ^ 16 * p.th.sup.toNat + 2 ^ 32 * p.th.turns.toNat
  [p.rpcc, k 0, k 1, k 2, k 3, w2 (BitVec.ofNat 64 head) p.cause,
   w2 (BitVec.ofNat 64 (s.now t)) p.th.taskid, w2 p.fpc 0]
  ++ (p.entries.map (fun e => [w2 e.pcw e.word, e.s1, e.s2, e.s3])).flatten

/-- The causes of a trap, oldest first: its own; where a HALT or a revocation displaced nothing but an older instruction was refused,
its own after that one's; and a revocation that came while it waited (15 R375). -/
def TrapPlan.causes (p : TrapPlan) (now : Word) (ops : List Op) (code : Option Code) (cause fpc : Word) (fatal : Bool) : List Cause :=
  let me : Cause := ⟨p.fpc, p.cause, now, p.code⟩
  if p.th.revoked then [me, ⟨BitVec.ofNat 64 p.th.pc, 0, now, .leaseRevoked⟩]
  else match code, oldestRefused ops with
    | some x, some _ => if fatal then [me, ⟨fpc, cause, now, x⟩] else [me]
    | _, _ => [me]

/-- What a frame needs of TRAPCAP (15 R367). -/
def wantFrame : Want := let need := permW ||| permSC; ⟨need, need, false, false, false⟩
/-- The frame written at TRAPCAP's cursor (15 R367), or why it cannot be; too many entries are no cause of their own. -/
def writeFrame (s : State) (t : Nat) (p : TrapPlan) : Except (Option Code) State :=
  let a := capCursor p.th.trapcap.bits
  let n := 128 + 64 * p.entries.length
  if 16 < p.entries.length then .error none
  else match accessCheck s p.th p.th.trapcap wantFrame a n 128 with
    | some f => .error (some f)
    | none => match writeGranules s t a (frameGranules s t p) with
      | .error f => .error (some f)
      | .ok s => .ok s

/-- Fatal end of a thread (15 R375): record, write-back, and steps 2 to 6 of R360; the last cause of the chain gives STATUS. -/
def State.fatalEnd (s : State) (t : Nat) (p : TrapPlan) (chain : List Cause) : State :=
  let code := match chain.getLast? with | some x => x.code | none => p.code
  let s := s.setThread t { p.th with ops := [] }
  let r := s.dump p.th.domain (p.th.owner t) 0 (tcore t) chain (contextGranules s t p.th p.entries)
  (r.1.flushThread t p.th).endThread t code.num p.fpc

/-- A drain that ends with a fault (09 R227): the handler's slot is freed, the drain keeps the code. -/
def State.failDrain (s : State) (t : Nat) (th : Thread) (code : Code) (pc addr : Word) : State :=
  let c := tcore t
  let fail (d : Drain) : Drain := if d.failed.isSome then d else { d with failed := some code }
  let s := match th.dispatch with
    | some x => s.modCore c (fun k => { k with drains := k.drains.map (fun (d : Drain) => if d.tile == x.tile then fail d else d) })
    | none => s
  let cause : Cause := ⟨pc, addr, BitVec.ofNat 64 (s.now t), code⟩
  let s := (s.dump th.domain (th.owner t) 2 c [cause] (contextGranules s t th [])).1
  ((s.flushThread t th).dropPlb t).dropThread t

/-- Codes that are always fatal (15 R365). -/
def codeFatal : Code → Bool | .lease | .leaseRevoked | .machine => true | _ => false

/-- Opcodes whose round trip is sampled: LD, LDCAP, AMO, CAS (17 R408). -/
def isLoadWord (w : Word) : Bool := [0x80, 0x84, 0x86, 0x87].contains (opcodeOf w)
/-- The round trips of the loads whose results a trap finds there, sampled at its entry (17 R408). -/
def State.sampleLoads (s : State) (t : Nat) (ops : List Op) : State :=
  ops.foldl (fun s o => match o.phase with
    | .done _ => if isLoadWord o.word && o.cls == .longLat then s.sampleCore (tcore t) 1 (s.cycle - o.issued) else s
    | _ => s) s
/-- Entering a trap once every issued instruction is settled (15 R367, R375): the frame is written, k0 to k3, PCC, SUP
and the trap-active flag are set, and the thread goes on in the handler; or the thread ends fatally. -/
def State.enterTrap (s : State) (t : Nat) : State :=
  match s.thread t with
  | none => s
  | some th =>
    match th.status with
    | .trapping code cause held fpc next again fatal =>
      let p := trapPlan th code cause held fpc next again
      let now := BitVec.ofNat 64 (s.now t)
      let me : Cause := ⟨p.fpc, p.cause, now, p.code⟩
      let s := (s.sampleLoads t th.ops).setThread t { p.th with ops := [], reinject := [], windows := [], status := .ready }
      let own := p.causes now th.ops code cause fpc fatal
      if (th.dispatch).isSome then s.failDrain t p.th p.code p.fpc p.cause
      else match th.trapActive with
        | some old => s.fatalEnd t p (old :: own)
        | none =>
          if fatal || codeFatal p.code then s.fatalEnd t p own
          else
            let s := s.leaseRead th.domain
            match trapEntryOf s th.domain with
            | none => s.fatalEnd t p [me]
            | some entry =>
              match writeFrame s t p with
              | .error none => s.fatalEnd t p [me]
              | .error (some f) => s.fatalEnd t p [me, ⟨p.fpc, capCursor p.th.trapcap.bits, now, f⟩]
              | .ok s =>
                s.modThread t (fun x =>
                  let x := (((x.setReg 0 entry).setReg 1 p.th.trapcap).setReg 2
                    (Val.ofWord (p.code.num.setWidth 64))).setReg 3 (Val.ofWord p.cause)
                  { x with pcc := entry, sup := true, trapActive := some me, resuming := false })
    | _ => s

/-- A trap taken now if nothing is outstanding, else when the last instruction settles (15 R367); the failure of a row
handler is always an event of its own, since it may end its drain. -/
def State.trapNow (s : State) (t : Nat) : State :=
  match s.thread t with
  | some th => if th.ops.all Op.isSettled && !pushesLeft th && th.dispatch.isNone then s.enterTrap t else s
  | none => s
/-- The trap of a unit that faulted at its issue (15 R366 step 3): it is held as an ISSUE entry, or as the replayed entry
again (15 R372). -/
def State.faultUnit (s : State) (t : Nat) (th : Thread) (code : Code) (cause : Word) : State :=
  let u := s.unit
  let again := u.replay.isSome || th.resuming && !th.reinject.isEmpty
  let held : List Entry :=
    match u.replay, th.reinject with
    | some _, e :: k :: _ => [{ e with pcw := pcWord (some code) u.addr, word := kindWord e.word 2 }, k]
    | _, _ => [issueEntry u code]
  let rest := if again then th.reinject.drop (if u.replay.isSome then 2 else 1) else th.reinject
  let s := s.setThread t { th with reinject := rest }
  (s.startTrap t (some code) cause held u.addr u.next again false).trapNow t
/-- A trap that leaves no entry (15 R373): TRAP and BRK. `again` says that the unit was re-injected. -/
def State.softTrap (s : State) (t : Nat) (again : Bool) (code : Code) (imm : Word) : State :=
  (s.startTrap t (some code) imm [] s.unit.addr s.unit.next again false).trapNow t

/-! ### Return from a trap (15 R372) -/

/-- Entries of a frame from its granules. -/
def entriesOf : List Val → List Entry
  | g :: a :: b :: c :: rest => ⟨g.lo, g.hi, a, b, c⟩ :: entriesOf rest
  | _ => []
/-- Length bits of an opcode's format (03 R47). -/
def formatBits (w : Word) : Option Nat := (formatOf (opcodeOf w)).map (fun f => match f with | .s => 1 | .m => 2 | .l => 3)
/-- Whether the entries of a frame form a valid queue (15 R372). -/
def entriesOk : List Entry → Bool
  | [] => true
  | e :: rest =>
    let fits := some (e.word.toNat % 4) == formatBits e.word
    match e.kind with
    | 0 => entriesOk rest
    | 1 => fits && entriesOk rest
    | 3 => entriesOk rest
    | 2 => fits && (match rest with | [] => false | _ :: r => entriesOk r)
    | 4 => fits && (match rest with | [] => false | _ :: r => entriesOk r)
    | 5 => fits && (match rest with | [] => false | _ :: r => entriesOk r)
    | _ => false
/-- What RTE asks of its capability (15 R372). -/
def wantRte : Want := let need := permR ||| permLC; ⟨need, need, false, false, false⟩

/-- The destinations of a long-latency instruction, from its word (03 R72, 11 R254): registers only. -/
def destsOf (w : Word) : List Opn :=
  let d : Opn := w.extractLsb' 14 9
  let op := opcodeOf w
  let n : Nat :=
    if op == 0x80 then (if w.extractLsb' 43 3 == 5 then 2 else 1)
    else if op == 0x62 || op == 0x63 || op == 0x64 || op == 0x6C then groupSize (w.extractLsb' 45 2)
    else if op == 0xA1 || op == 0xA2 || op == 0x77 then 2 else 1
  if d.toNat < 256 then (List.range n).map (fun i => d + BitVec.ofNat 9 i) else [d]

/-- The address an entry's instruction stands at (15 R369). -/
def Entry.addr (e : Entry) : Word := (e.pcw.setWidth 56 : BitVec 56).setWidth 64
/-- One DONE, DROPPED or SKIPPED entry at the head of the queue taken (15 R372): DONE writes and pushes, the others only
set presence. -/
def State.flushEntry (s : State) (t : Nat) (e : Entry) : State :=
  let ds := destsOf e.word
  let rest := match s.thread t with | some th => (th.spare.lookup e.addr).getD [] | none => []
  let s := s.modThread t (fun th =>
    let th := { th with spare := th.spare.filter (fun x => x.1 != e.addr) }
    ds.foldl (fun th d => if d.toNat < 256 then th.setPresent d.toNat true else th) th)
  if e.kind == 1 then (ds.zip ([e.s1, e.s2] ++ rest)).foldl (fun s x => s.putNow t x.1 x.2) s else s
/-- Whether a DONE entry must wait to push (03 R52, 13 R326). -/
def entryHeld (s : State) (t : Nat) (th : Thread) (e : Entry) : Bool :=
  e.kind == 1 && !(destsOf e.word).all (fun d => pushClear s t th s.nextId d)
/-- Leading entries that issue nothing flushed in order, up to a DONE entry that must wait; `fuel` counts them. -/
def State.flushEntries (s : State) (t : Nat) : Nat → State
  | 0 => s
  | fuel + 1 =>
    match s.thread t with
    | none => s
    | some th =>
      match th.reinject with
      | e :: rest =>
        if entryHeld s t th e then s
        else if e.kind == 1 || e.kind == 3 then
          ((s.setThread t { th with reinject := rest }).flushEntry t e).flushEntries t fuel
        else if e.kind == 5 then
          ((s.setThread t { th with reinject := rest.drop 1 }).flushEntry t e).flushEntries t fuel
        else s
      | [] => s

/-- RTE through capability v (15 R372): the frame read and checked, k0 to k3, SUP and PCC restored, the entries queued for
re-injection. DESIGN CHOICE (log 97): the frame's read sets no BANKMASK bit. -/
def State.returnFromTrap (s : State) (t : Nat) (th : Thread) (v : Val) : Except Stop State :=
  let a := capCursor v.bits
  let bad (c : Code) : Except Stop State := .error (.trap c a)
  match accessCheck s th v wantRte a 128 128 with
  | some c => bad c
  | none => if ownWaits s t th then .error (.park .own) else
    let s := s.pullSpan (tcore t) a 128
    match readGranules s t th a 8 with
    | .error c => bad c
    | .ok head =>
      let info := (head.getD 5 Val.zero).lo.toNat
      let n := info / 256 % 256
      match accessCheck s th v wantRte a (128 + 64 * n) 128 with
      | some c => bad c
      | none =>
        let s := s.pullSpan (tcore t) (a + 128) (64 * n)
        match readGranules s t th (a + 128) (4 * n) with
        | .error c => bad c
        | .ok gs =>
          let es := entriesOf gs
          if 16 < n || !entriesOk es then bad .formatMismatch
          else
            let k (i : Nat) : Val := head.getD (i + 1) Val.zero
            let th1 := (((((s.thread t).getD th).setReg 0 (k 0)).setReg 1 (k 1)).setReg 2 (k 2)).setReg 3 (k 3)
            let th2 := { th1 with
              sup := info / 2 ^ 16 % 2 == 1, trapActive := none, pcc := head.headD Val.zero
              reinject := es, resuming := true }
            .ok ((s.setThread t th2).flushEntries t 16)

end Sys2Proof.Machine
end

