-- ==== Sys2Proof/Machine/Operands.lean ====
section
/-!
DEFINITION. Operand forms (03 R50 to R54, 05 R110, R111) and the issue of a unit: the checks of 03 R67 that need the
thread, presence, pops, the turn's charge, lookahead windows, and what becomes of a unit that cannot complete.
-/

namespace Sys2Proof

/-- What a field of an instruction holds (03 R50, R51, R54; the field lists of each family). -/
inductive Role where
  /-- Not checked and not read (R49). -/
  | unused
  /-- Must hold 256. -/
  | is256
  /-- A source or destination that may be a link or crew queue. -/
  | src | dst
  /-- A register or z, read or written. -/
  | rdz | wrz
  /-- A register, read, written, or both. -/
  | rdk | wrk | rwk
  /-- A register, z, link or crew queue, read and written (06 R129). -/
  | srcDst
  /-- A tile. -/
  | tile
  /-- A group of n registers or z, read (only the first m of them) or written. -/
  | grp (n m : Nat) | wgrp (n : Nat)
  deriving DecidableEq, Repr

/-- A field's role and number. -/
structure Field where
  role : Role
  x    : Opn
  deriving DecidableEq, Repr

/-- The fields of an instruction. -/
structure Fields where
  d : Field := ⟨.unused, 256⟩
  a : Field := ⟨.unused, 256⟩
  b : Field := ⟨.unused, 256⟩
  c : Field := ⟨.unused, 256⟩
  e : Field := ⟨.unused, 256⟩
  deriving DecidableEq, Repr

/-- The values an instruction reads from its fields, d + 1 of a pair, its offset, and the captured continuation value
of a re-injected one (15 R370). -/
structure Vals where
  d    : Val
  d1   : Val
  a    : Val
  b    : Val
  c    : Val
  e    : Val
  off  : Word
  cont : Option Quad
  deriving DecidableEq, Repr

/-- A b field or its immediate. -/
def SrcB.field (r : Role) : SrcB → Field | .reg b => ⟨r, b⟩ | .imm _ => ⟨.unused, 256⟩
/-- A group of n registers. -/
def group (n : Nat) (x : Opn) : Field := ⟨.grp n n, x⟩
/-- Registers of the destination group of VCVT (07 R156). -/
def vcvtDest (k : Pk) (src dst : BitVec 6) : Nat :=
  (128 * groupSize k.g / typeWidth src * typeWidth dst + 127) / 128
/-- Registers of the axis group of CQPACK (08 R180). -/
def axisGroup (dims : BitVec 4) : Nat := if dims.toNat ≤ 2 then 1 else if dims.toNat ≤ 4 then 2 else 4

/-- Fields of the two-source shape. -/
def IntOps.fields (o : IntOps) : Fields := { d := ⟨.dst, o.d⟩, a := ⟨.src, o.a⟩, b := SrcB.field .src o.b }
def UnOps.fields (o : UnOps) : Fields := { d := ⟨.dst, o.d⟩, a := ⟨.src, o.a⟩ }
def BinOps.fields (o : BinOps) : Fields := { d := ⟨.dst, o.d⟩, a := ⟨.src, o.a⟩, b := ⟨.src, o.b⟩ }
/-- Fields of an access: data role, capability, offset register. -/
def MemOps.fields (m : MemOps) (r : Role) : Fields := { d := ⟨r, m.d⟩, a := ⟨.rdk, m.a⟩, b := SrcB.field .rdz m.off }
/-- Element-wise packed instruction with b a group, or a single register under `.bs` (07 R147). -/
def Pk.fields2 (k : Pk) (b : Opn) (bs : Bool) : Fields :=
  let n := groupSize k.g
  { d := ⟨.wgrp n, k.d⟩, a := group n k.a, b := if bs then ⟨.rdz, b⟩ else group n b }
def MmaOps.fields (o : MmaOps) : Fields :=
  { d := ⟨.tile, o.d⟩, a := ⟨.rdk, o.a⟩, b := ⟨.rdk, o.b⟩, c := ⟨.rdz, o.c⟩
    e := if o.verd == .none then ⟨.wrz, 256⟩ else ⟨.rdz, o.e⟩ }
/-- A completion capability: z under mode none (11 R272). -/
def complField (m : Compl) (x : Opn) : Field := if m == .none then ⟨.is256, x⟩ else ⟨.rdk, x⟩
def LeaseOps.fields (o : LeaseOps) : Fields :=
  { d := ⟨.wrz, o.d⟩, a := ⟨.src, o.a⟩, b := ⟨.is256, o.b⟩, c := ⟨.is256, o.c⟩, e := ⟨.is256, o.e⟩ }
def SchedOps.fields (o : SchedOps) (d a b : Role) : Fields := { d := ⟨d, o.d⟩, a := ⟨a, o.a⟩, b := ⟨b, o.b⟩ }

/-- The fields of every instruction; `t` is its resolved element type (06 R123, 07 R146, R149, 08 R178, 11 R253,
12 R291, 09 R206, R218 to R224, 14 R356, R357, 15, 16). -/
def Instr.fields (i : Instr) (t : BitVec 6) : Fields :=
  match i with
  | .add o | .sub o | .mul o | .mulh o | .mulhu o | .div o | .divu o | .rem o | .remu o
  | .and o | .or o | .xor o | .andn o | .shl o | .shr o | .sra o | .rotr o | .min o | .max o | .minu o | .maxu o
  | .sext o | .zext o | .cmpeq o | .cmpne o | .cmplt o | .cmpltu o | .cmple o | .cmpleu o
  | .cinc o | .csetb o | .candp o => o.fields
  | .clz o | .ctz o | .popc o | .abs o | .mov o | .cgeta o | .cgetb o | .cgett o | .cgetp o | .ctest o | .cclrt o =>
    o.fields
  | .bfx o => { d := ⟨.dst, o.d⟩, a := ⟨.src, o.a⟩ }
  | .bfi o => { d := ⟨.dst, o.d⟩, a := ⟨.src, o.a⟩, b := ⟨.src, o.b⟩ }
  | .sel o =>
    { d := ⟨.dst, o.d⟩, a := ⟨.src, o.a⟩, b := (match o.b with | .reg b => ⟨.src, b⟩ | .imm _ => ⟨.unused, 256⟩)
      c := ⟨.src, o.c⟩ }
  | .li _ d _ _ => { d := ⟨.dst, d⟩ }
  | .liw _ d hi _ => { d := ⟨if hi then .srcDst else .dst, d⟩ }
  | .time _ d | .rand _ d => { d := ⟨.dst, d⟩ }
  | .br .. | .nop | .hend | .trap .. | .brk .. => {}
  | .beq a b _ | .bne a b _ | .blt a b _ | .bge a b _ | .bltu a b _ | .bgeu a b _ => { a := ⟨.src, a⟩, b := ⟨.src, b⟩ }
  | .bz a _ | .bnz a _ => { a := ⟨.src, a⟩ }
  | .call d _ => { d := ⟨.wrz, d⟩ }
  | .jmpc d a => { d := ⟨.wrz, d⟩, a := ⟨.src, a⟩ }
  | .loop d _ => { d := ⟨.rwk, d⟩ }
  | .cseta o | .cunseal o | .csub o => o.fields
  | .cseal o _ => o.fields
  | .vadd k b bs | .vsub k b bs | .vmul k b bs | .vmin k b bs | .vmax k b bs | .vand k b bs | .vor k b bs
  | .vxor k b bs | .vcmp k b bs _ => k.fields2 b bs
  | .vfma k b c bs => { k.fields2 b bs with c := group (groupSize k.g) c }
  | .vabs k | .vneg k | .vexp2 k _ | .vrcp k _ | .vrsq k _ | .plnenc k =>
    { d := ⟨.wgrp (groupSize k.g), k.d⟩, a := group (groupSize k.g) k.a }
  | .vshl k b | .vshr k b =>
    { d := ⟨.wgrp (groupSize k.g), k.d⟩, a := group (groupSize k.g) k.a, b := SrcB.field (.grp (groupSize k.g) (groupSize k.g)) b }
  | .vsel k b c =>
    { d := ⟨.wgrp (groupSize k.g), k.d⟩, a := group (groupSize k.g) k.a, b := group (groupSize k.g) b
      c := group (groupSize k.g) c }
  | .vcvt k c src mask scl =>
    { d := ⟨.wgrp (if mask then 1 else vcvtDest k src t), k.d⟩, a := group (groupSize k.g) k.a
      c := if scl && k.p.sx.isNone then ⟨.rdk, c⟩ else ⟨.unused, 256⟩ }
  | .vscale k b =>
    { d := ⟨.wgrp (groupSize k.g), k.d⟩, a := group (groupSize k.g) k.a
      b := if k.p.sx.isNone then ⟨.rdk, b⟩ else ⟨.unused, 256⟩ }
  | .vred k _ => { d := ⟨.wrz, k.d⟩, a := group (groupSize k.g) k.a }
  | .vperm k b | .vpack k b =>
    { d := ⟨.wgrp (groupSize k.g), k.d⟩, a := group (groupSize k.g) k.a, b := group (groupSize k.g) b }
  | .vbcast k b => { d := ⟨.wgrp (groupSize k.g), k.d⟩, a := ⟨.rdz, k.a⟩, b := SrcB.field .rdz b }
  | .vunpk k _ => { d := ⟨.wgrp (groupSize k.g), k.d⟩, a := group (groupSize k.g) k.a }
  | .plndec k p => { d := ⟨.wgrp 8, k.d⟩, a := ⟨.grp 8 p.toNat, k.a⟩ }
  | .vverd k blk => { d := if blk then ⟨.wgrp (groupSize k.g), k.d⟩ else ⟨.wrz, k.d⟩, a := group (groupSize k.g) k.a }
  | .lld o => { d := ⟨.wgrp (groupSize o.g), o.d⟩, b := SrcB.field (.grp (groupSize o.g) (groupSize o.g)) o.b }
  | .lst o | .ladd o =>
    { d := ⟨.is256, o.d⟩, a := group (groupSize o.g) o.a, b := SrcB.field (.grp (groupSize o.g) (groupSize o.g)) o.b }
  | .cqpack _ d a dims => { d := ⟨.wrz, d⟩, a := group (axisGroup dims) a }
  | .cqext _ d a k _ =>
    { d := ⟨.wrz, d⟩, a := ⟨.rdz, a⟩, b := (match k with | .reg b => ⟨.rdz, b⟩ | .imm _ => ⟨.unused, 256⟩) }
  | .cqadd _ d a b _ | .cqsub _ d a b _ =>
    { d := ⟨.wrz, d⟩, a := ⟨.rdz, a⟩, b := (match b with | .reg b => ⟨.rdz, b⟩ | .step .. => ⟨.unused, 256⟩) }
  | .cqcmp o => { d := ⟨.wrz, o.d⟩, a := ⟨.rdz, o.a⟩, b := ⟨.rdz, o.b⟩ }
  | .cqinbox o | .cqnext o => { d := ⟨.wrz, o.d⟩, a := ⟨.rdz, o.a⟩, b := ⟨.rdz, o.b⟩, c := ⟨.rdz, o.c⟩ }
  | .cqsplit o =>
    { d := ⟨.wgrp 2, o.d⟩, a := ⟨.rdk, o.a⟩, b := ⟨.rdz, o.b⟩, c := ⟨.rdz, o.c⟩, e := ⟨.rdz, o.e⟩ }
  | .cqsetd _ d a _ => { d := ⟨.wrz, d⟩, a := ⟨.rdz, a⟩ }
  | .cqtrunc _ d a m _ =>
    { d := ⟨.wrz, d⟩, a := ⟨.rdz, a⟩, b := (match m with | .reg b => ⟨.rdz, b⟩ | .imm _ => ⟨.unused, 256⟩) }
  | .cqflags o => { d := ⟨.wgrp 2, o.d⟩, a := ⟨.rdz, o.a⟩ }
  | .ld m sz _ _ => m.fields (if sz == 5 then .wgrp 2 else .dst)
  | .st m sz _ => m.fields (if sz == 5 then .grp 2 2 else .src)
  | .lda m _ | .ldcap m | .wld m _ | .fest m => m.fields .dst
  | .stl m _ | .stcap m | .fill m => m.fields .src
  | .empty m | .pref m _ | .zline m | .mig m => m.fields .unused
  | .amo o => { d := ⟨.dst, o.d⟩, a := ⟨.rdk, o.a⟩, b := ⟨.src, o.b⟩ }
  | .cas o => { d := ⟨.dst, o.d⟩, a := ⟨.rdk, o.a⟩, b := ⟨.src, o.b⟩, c := ⟨.src, o.c⟩ }
  | .waitne o => { d := ⟨.dst, o.d⟩, a := ⟨.rdk, o.a⟩, b := ⟨.src, o.b⟩ }
  | .fence .. => {}
  | .topkins o => { d := ⟨.dst, o.d⟩, a := ⟨.rdk, o.a⟩, b := ⟨.src, o.b⟩, c := ⟨.src, o.c⟩ }
  | .copy o =>
    { d := ⟨.dst, o.d⟩, a := ⟨.rdk, o.a⟩, b := ⟨.rdk, o.b⟩, c := ⟨.rdk, o.c⟩, e := complField o.mode o.e }
  | .arcout o =>
    { d := ⟨.dst, o.d⟩, a := ⟨.rdk, o.a⟩, b := ⟨.src, o.b⟩, c := ⟨.src, o.c⟩, e := complField o.mode o.e }
  | .arcin o => { d := ⟨.dst, o.d⟩, a := ⟨.rdk, o.a⟩, b := ⟨.src, o.b⟩, c := ⟨.src, o.c⟩, e := ⟨.rdk, o.e⟩ }
  | .arcdrop o => { d := ⟨.dst, o.d⟩, a := complField o.mode o.a, b := ⟨.src, o.b⟩ }
  | .engst o => { d := ⟨.dst, o.d⟩, b := SrcB.field .src o.b }
  | .wayconv _ d a _ => { d := ⟨.dst, d⟩, a := ⟨.rdz, a⟩ }
  | .mdep o => { d := ⟨.src, o.d⟩, a := ⟨.rdk, o.a⟩, b := ⟨.rdz, o.b⟩ }
  | .msense o | .msamp o => { d := ⟨.wgrp 2, o.d⟩, a := ⟨.rdk, o.a⟩, b := ⟨.rdz, o.b⟩, c := ⟨.rdz, o.c⟩ }
  | .mread o => { d := ⟨.dst, o.d⟩, a := ⟨.rdk, o.a⟩, b := ⟨.rdz, o.b⟩ }
  | .merase o => { a := ⟨.rdk, o.a⟩, b := ⟨.rdz, o.b⟩ }
  | .mtick o | .mbind o => { d := ⟨.dst, o.d⟩, a := ⟨.rdk, o.a⟩ }
  | .munbind _ d _ => { d := ⟨.dst, d⟩ }
  | .mmaT32 o | .mmaT64 o | .mmaT128 o | .mmaW o | .mmaH o | .mmaQ o | .mmaQ8 o | .mmaT16 o
  | .smmaT32 o | .smmaT64 o | .smmaQ o => o.fields
  | .macz _ d _ => { d := ⟨.tile, d⟩ }
  | .macld o => { d := ⟨.tile, o.d⟩, a := ⟨.rdk, o.a⟩ }
  | .macst o => { d := ⟨.tile, o.d⟩, a := ⟨.rdk, o.a⟩ }
  | .mdrain _ d a _ => { d := ⟨.tile, d⟩, a := ⟨.rdz, a⟩ }
  | .mhset _ a b => { a := ⟨.rdz, a⟩, b := ⟨.rdz, b⟩ }
  | .vbound o =>
    { d := ⟨.wrk, o.d⟩, a := ⟨.rdz, o.a⟩, b := ⟨.rdz, o.b⟩, c := ⟨if o.acc then .rdz else .unused, o.c⟩ }
  | .spawn o c _ => { o.fields .wrz .rdk .rdz with c := ⟨.is256, c⟩ }
  | .yield o => o.fields .is256 .is256 .rdz
  | .endTask o => o.fields .is256 .is256 .is256
  | .join o | .leave o | .gbar o => o.fields .wrz .rdk .is256
  | .crew o n => o.fields .wrz .rdk (if n.isSome then .is256 else .rdk)
  | .qstatSet o | .qstatTask o => o.fields .wrk .rdz .is256
  | .sleep o n => o.fields .is256 .is256 (if n.isSome then .is256 else .rdk)
  | .rte a => { a := ⟨.rdk, a⟩ }
  | .rds d _ => { d := ⟨.wrz, d⟩ }
  | .wrs a _ => { a := ⟨.rdz, a⟩ }
  | .repart d _ => { d := ⟨.wrz, d⟩ }
  | .plbinv d a b sc => { d := ⟨.wrz, d⟩, a := ⟨if sc == .all then .is256 else .src, a⟩, b := ⟨.is256, b⟩ }
  | .gang o => { d := ⟨.wrz, o.d⟩, a := ⟨.rdk, o.a⟩, b := ⟨.rdz, o.b⟩, c := ⟨.src, o.c⟩, e := ⟨.rdz, o.e⟩ }
  | .dump d => { d := ⟨.wrz, d⟩ }
  | .halt b => { b := SrcB.field .src b }
  | .leaseAdd o | .leaseDrop o | .leaseUnmap o | .leaseUnmapForce o | .leaseDom o => o.fields
  | .pgmove d a b => { d := ⟨.wrz, d⟩, a := ⟨.src, a⟩, b := ⟨.src, b⟩ }
  | _ => {}

/-- The predicate of an instruction (03 R57). -/
def Instr.pred (i : Instr) : Option Pred := i.pfx.pred
/-- The offset an access adds to its cursor (11 R254). -/
def Instr.offset (i : Instr) (b : Val) : Word :=
  let ofB (x : SrcB) : Word := match x with | .imm v => v.signExtend 64 | .reg _ => b.lo
  match i with
  | .ld m _ _ _ | .st m _ _ | .lda m _ | .stl m _ | .ldcap m | .stcap m | .wld m _ | .fill m | .empty m | .fest m
  | .pref m _ | .zline m | .mig m => ofB m.off
  | .amo o => o.off.signExtend 64
  | .cas o => o.off.signExtend 64
  | .topkins o => o.off.signExtend 64
  | .waitne o => o.off.signExtend 64
  | _ => 0

/-- The registers a field reads. -/
def fieldReads (f : Field) : List Nat :=
  let n := f.x.toNat
  if 256 ≤ n then []
  else match f.role with
    | .src | .rdz | .rdk | .rwk | .srcDst => [n]
    | .grp _ m => (List.range m).map (fun i => n + i)
    | _ => []
/-- The registers a field writes. -/
def fieldWrites (f : Field) : List Nat :=
  let n := f.x.toNat
  if 256 ≤ n then []
  else match f.role with
    | .dst | .wrz | .wrk | .rwk | .srcDst => [n]
    | .wgrp g => (List.range g).map (fun i => n + i)
    | _ => []
/-- The link or queue a field pops. -/
def fieldPop (f : Field) : List Opn := if (f.role == .src || f.role == .srcDst) && 257 ≤ f.x.toNat then [f.x] else []
/-- The link or queue a field pushes. -/
def fieldPush (f : Field) : List Opn := if (f.role == .dst || f.role == .srcDst) && 257 ≤ f.x.toNat then [f.x] else []
/-- The fields in pop order: a source in d first, then a, b, c, e (03 R52, 11 R253). -/
def fieldsAll (f : Fields) : List Field := [f.d, f.a, f.b, f.c, f.e]
def Fields.pops (f : Fields) : List Opn := ((fieldsAll f).map fieldPop).flatten
def Fields.pushes (f : Fields) : List Opn := ((fieldsAll f).map fieldPush).flatten
def Fields.reads (f : Fields) : List Nat := ((fieldsAll f).map fieldReads).flatten
def Fields.writes (f : Fields) : List Nat := ((fieldsAll f).map fieldWrites).flatten

end Sys2Proof

namespace Sys2Proof.Machine

/-- Whether a field holds a number its role admits, for a thread of `count` registers (03 R50, R51, R54; 14 R346). -/
def fieldOk (count : Nat) (crew : Bool) (f : Field) : Bool :=
  let n := f.x.toNat
  let reg := decide (n < count)
  match f.role with
  | .unused => true
  | .is256 => f.x == 256
  | .src | .dst | .srcDst => reg || n == 256 || (257 ≤ n && n ≤ 260) || (crew && 261 ≤ n && n ≤ 268)
  | .rdz | .wrz => reg || n == 256
  | .rdk | .wrk | .rwk => reg
  | .tile => n < 4
  | .grp g _ | .wgrp g => n == 256 || (n % g == 0 && n + g ≤ count)
/-- Step 7 of 03 R67: every field, the predicate register, the scale register, and the rules of single instructions. -/
def operandsOk (i : Instr) (f : Fields) (th : Thread) : Bool :=
  (fieldsAll f).all (fieldOk th.count th.crew)
  && (match i.pred with | some p => decide (p.kp.toNat < th.count) | none => true)
  && (match i.pfx.sx with | some x => decide (x.toNat < th.count) | none => true)
  && (match i with
    | .mmaT32 o | .mmaT64 o | .mmaT128 o | .mmaW o | .mmaH o | .mmaQ o | .mmaQ8 o | .mmaT16 o
    | .smmaT32 o | .smmaT64 o | .smmaQ o =>
      !(o.c == 256 && (o.verd == .ge || o.verd == .topk)) && (o.e.toNat ≤ 256 && (256 ≤ o.e.toNat || o.e.toNat < th.count))
    | _ => true)

/-- Whether the predicate turns the instruction off: all 128 data bits of kp are tested (03 R57). -/
def predOff (i : Instr) (th : Thread) : Bool :=
  match i.pred with
  | some p => ((th.reg p.kp.toNat).v.bits != 0) == p.ifz
  | none => false

/-! ### Links and queues -/

/-- Entries of the popping thread's domain an inbox or queue holds (05 R111). -/
def available (k : Core) (dom : BitVec 16) (x : Opn) : Nat :=
  let l := match sideOf x, queueOf x with
    | some sd, _ => k.inbox sd
    | none, some q => tget k.queues q []
    | none, none => []
  (l.filter (fun e => e.domain == dom)).length
/-- Whether pops and pushes can all be made (03 R52). -/
def linksReady (s : State) (c : Nat) (dom : BitVec 16) (f : Fields) : Bool :=
  f.pops.all (fun x => (f.pops.filter (· == x)).length ≤ available (s.core c) dom x)
  && f.pushes.all (fun x => decide (occupied s c f.pops x < roomOf x))
/-- A named link whose side is absent (05 R110). -/
def linkMissing (c : Nat) (f : Fields) : Bool :=
  (f.pops ++ f.pushes).any (fun x => match sideOf x with | some sd => (neighbour c sd).isNone | none => false)

/-- Foreign entries before the first of the thread's domain (05 R111). -/
def foreignHead (dom : BitVec 16) : List QueueEntry → Nat
  | e :: r => if e.domain == dom then 0 else foreignHead dom r + 1
  | [] => 0
/-- A pop (05 R111): foreign entries are discarded, and counted for an inbox. -/
def State.pop (s : State) (c : Nat) (dom : BitVec 16) (x : Opn) : Val × State :=
  let k := s.core c
  let go (l : List QueueEntry) : Val × List QueueEntry × Nat :=
    let n := foreignHead dom l
    match l.drop n with
    | e :: r => (e.v, r, n)
    | [] => (Val.zero, [], n)
  match sideOf x, queueOf x with
  | some sd, _ =>
    let r := go (k.inbox sd)
    (r.1, s.setCore c { k.setInbox sd r.2.1 with linkdisc := satAdd k.linkdisc r.2.2 })
  | none, some q =>
    let r := go (tget k.queues q [])
    (r.1, s.setCore c { k with queues := tput k.queues q r.2.1 })
  | none, none => (Val.zero, s)
/-- Foreign entries discarded from inboxes that hold nothing of the thread's domain, when it parks (05 R111). -/
def State.purge (s : State) (c : Nat) (dom : BitVec 16) (f : Fields) : State :=
  f.pops.foldl (fun s x => if available (s.core c) dom x == 0 then (s.pop c dom x).2 else s) s

/-- The value of a field: popped, read, or zero. -/
def readField (s : State) (t : Nat) (th : Thread) (f : Field) : Val × State :=
  if (f.role == .src || f.role == .srcDst) && 257 ≤ f.x.toNat then s.pop (tcore t) th.domain f.x
  else match f.role with
    | .src | .srcDst | .rdz | .rdk | .rwk | .grp .. => (th.read f.x, s)
    | _ => (Val.zero, s)

/-- The values of a fresh issue. -/
def readVals (s : State) (t : Nat) (th : Thread) (i : Instr) (f : Fields) : Vals × State :=
  let d := readField s t th f.d
  let a := readField d.2 t th f.a
  let b := readField a.2 t th f.b
  let c := readField b.2 t th f.c
  let e := readField c.2 t th f.e
  let d1 := match f.d.role with | .grp 2 _ => if f.d.x.toNat < 256 then th.read (f.d.x + 1) else Val.zero | _ => Val.zero
  (⟨d.1, d1, a.1, b.1, c.1, e.1, i.offset b.1, none⟩, e.2)
/-- The values of a re-injected instruction, from its slots (15 R370). -/
def replayVals (i : Instr) (r : Val × Val × Val × Quad) : Vals :=
  let z := Val.zero
  let v : Vals := ⟨z, z, r.1, r.2.1, r.2.2.1, z, 0, some r.2.2.2⟩
  match i with
  | .st .. | .stl .. | .stcap .. | .fill .. => { v with d := r.2.1, d1 := r.2.2.1, b := z, c := z }
  | .mdep .. => { v with d := r.2.2.1, c := z }
  | .msense .. | .msamp .. => v
  | .cqsplit .. => { v with e := Val.data r.2.2.2 }
  | _ => v

/-! ### The turn -/

/-- One rotation turn charged; handlers and trap-active threads are not (14 R339, 15 R367, 05 R119). -/
def Thread.charge (t : Nat) (th : Thread) : Thread :=
  if isHandler t || th.trapActive.isSome then th else { th with turns := if th.turns == 0 then 0 else th.turns - 1 }
/-- Lookahead windows after an issue: those whose registers are all present close, the others count down (03 R61). -/
def Thread.tickWindows (th : Thread) : Thread :=
  let live := th.windows.filter (fun w => !w.regs.all (fun r => (th.reg r).present))
  { th with windows := live.map (fun w => { w with left := w.left - 1 }) }
/-- PCC moved past the unit, or the re-injected entry taken off the queue (15 R372). -/
def Thread.advance (u : UnitWords) (th : Thread) : Thread :=
  if th.reinject.isEmpty then th.setPc u.next.toNat
  else { th with reinject := th.reinject.drop (if u.replay.isSome then 2 else 1) }
/-- Whether the unit being issued was re-injected. -/
def isReplay (u : UnitWords) (th : Thread) : Bool := u.replay.isSome || !th.reinject.isEmpty

/-- Fetch faults of a unit (06 R133, 10 R232): its bytes lie in PCC's bounds, PCC grants X, a lease range grants X. -/
def fetchFault (s : State) (th : Thread) (addr : Word) (n : Nat) : Option Code :=
  let q := th.pcc.bits
  if (addr.toNat : Int) < capBase q || capTop q < ((addr.toNat + n : Nat) : Int) then some .bounds
  else if !grants (capPerms q) permX then some .perm
  else if !regionOk s addr n then some .lease
  else if !leased th.ranges permX addr n then some .lease
  else none

/-- Registers that an instruction writes beside its fields: an RTE restores k0 to k3 (15 R372). -/
def implied : Instr → List Nat | .rte _ => [0, 1, 2, 3] | _ => []
/-- What decides whether a unit issues in this turn, in order: steps 6 and 7 of 03 R67, the fetch (06 R133), the
predicate's register (03 R57), absent links (05 R110), presence (05 R100), links and queues (03 R52). -/
def issueCheck (s : State) (t : Nat) (th : Thread) (i : Instr) : Option Stop :=
  let fm := (s.core (tcore t)).fmtr
  let f := i.fields (i.elemType fm)
  let u := s.unit
  let absent (r : Nat) : Bool := !(th.reg r).present
  let predReg : List Nat := match i.pred with | some p => [p.kp.toNat] | none => []
  let sxReg : List Nat := match i.pfx.sx with | some x => [x.toNat] | none => []
  if !typeLegal i (i.elemType fm) then some (.trap .illegalEncoding u.addr)
  else if !operandsOk i f th then some (.trap .illegalOperand u.addr)
  else if u.replay.isSome then none
  else match fetchFault s th u.addr u.bytes with
    | some c => some (.trap c u.addr)
    | none =>
      if predReg.any absent then some .hold
      else if predOff i th then none
      else if linkMissing (tcore t) f then some (.trap .linkAbsent 0)
      else if (f.reads ++ f.writes ++ sxReg ++ implied i).any absent then some .hold
      else if !linksReady s (tcore t) th.domain f then some (.park .operand)
      else none

/-- A task packed and sent to a core's arrival queue (11 R270): its PCC stands at the unit that moved it, which has popped nothing
and issues there. -/
def State.depart (s : State) (t : Nat) (th : Thread) (h : Nat) : State :=
  let c := tcore t
  let part := s.partOf (clusterOf c)
  let x : Thread := { th.charge t with
    windows := [], travelGo := true, status := .ready, regs := th.regs.filter (fun r => r.1 < 16) }
  ((((s.spill t th).dropPlb t)).dropThread t).sendIn part (.core c) (.core h) Owner.nobody (.travel ⟨x, part, c⟩)
/-- A unit that does not complete in its turn: a trap, a charged hold (14 R339), which HELD counts where it is on a presence bit (17 R406),
a park, or a departure. -/
def State.stopUnit (s : State) (t : Nat) (th : Thread) (i : Instr) (stop : Stop) : State :=
  match stop with
  | .trap code cause => s.faultUnit t th code cause
  | .hold => (s.setThread t (th.charge t)).countCore (tcore t) cHELD 1
  | .wait => s.setThread t (th.charge t)
  | .park why =>
    let f := i.fields (i.elemType (s.core (tcore t)).fmtr)
    let s := if why == .operand then s.purge (tcore t) th.domain f else s
    let s := match why with
      | .plb _ _ => s.countCore (tcore t) cPLBMISS 1
      | .matrixUnit => s.queueClaim t th f.d.x.toNat
      | _ => s
    s.setThread t { th with status := .parked why s.cycle }
  | .travel h => s.depart t th h

/-- The thread whose turn it is. -/
def State.issuer (s : State) : Option Thread := if s.issuing then s.thread s.cur else none

/-- The state in which an instruction's own effect begins: the turn is charged, windows count down, PCC stands at the
next unit, and pops have been made. -/
def State.begin (s : State) (t : Nat) (th : Thread) (i : Instr) : Vals × State :=
  let s0 := { s with issuing := false }
  let f := i.fields (i.elemType (s.core (tcore t)).fmtr)
  let r := match s.unit.replay with
    | some x => (replayVals i x, s0)
    | none => readVals s0 t th i f
  (r.1, (r.2.setThread t (((th.charge t).tickWindows).advance s.unit)).countCore (tcore t) cISSUED 1)

/-- A unit turned off by its predicate uses its turn (03 R57). -/
def State.skip (s : State) (t : Nat) (th : Thread) : State :=
  (({ s with issuing := false }).setThread t (((th.charge t).tickWindows).advance s.unit)).countCore (tcore t) cISSUED 1

/-- An instruction's effect: from the values read, the thread before the issue and the begun state. -/
abbrev Effect := Vals → Thread → State → Except Stop State

/-- The state after the issue of instruction i by thread t. -/
def State.issueBy (s : State) (t : Nat) (th : Thread) (i : Instr) (eff : Effect) : State :=
  let s0 := { s with issuing := false }
  match issueCheck s t th i with
  | some stop => s0.stopUnit t th i stop
  | none =>
    if s.unit.replay.isNone && predOff i th then s.skip t th
    else
      let b := s.begin t th i
      match eff b.1 th b.2 with
      | .ok s' => s'
      | .error stop => s0.stopUnit t th i stop

/-- The meaning of an instruction with the given effect: nothing is issued when no thread has the turn. -/
def issue (i : Instr) (s : State) (eff : Effect) : Host.Outcome State Fault Refusal :=
  match s.issuer with
  | none => .refused .notEnabled
  | some th => .next (s.issueBy s.cur th i eff)

/-! ### Operations that outlive their issue -/

/-- A long-latency result computed at issue: it reaches its registers at a RESULT_ARRIVAL (03 R61). -/
def State.deferResult (s : State) (t : Nat) (dests : List Opn) (vs : List Val) (fl : Flags) (la : BitVec 4) : State :=
  let o := s.newOp .longLat .nothing (.done vs) 0
  s.startOp t { o with dests := dests, flags := fl } la.toNat
/-- Registers of a group destination; z alone discards. -/
def destGroup (d : Opn) (n : Nat) : List Opn :=
  if d.toNat < 256 then (List.range n).map (fun i => d + BitVec.ofNat 9 i) else []

/-- A result of at most 16 bytes written or pushed. -/
def finish (t : Nat) (d : Opn) (v : Val) (s : State) : Except Stop State := .ok (s.putDest t d v)
/-- FPST flags or-ed in (04 R88). -/
def State.raise (s : State) (t : Nat) (f : Flags) : State := s.modThread t (fun th => { th with flags := th.flags.or f })

end Sys2Proof.Machine
end

