-- ==== Sys2Proof/Machine/Fetch.lean ====
section
/-!
DEFINITION. Fetching and decoding the unit of a turn (03 R63 to R67, 06 R133), or taking it from the replay queue
(15 R372); and where a program is placed (log 11).
-/

namespace Sys2Proof.Machine

/-- The 32 bytes of the fetch block of an address, or the fault of its read: it lies in a view, none stand behind it, or its home
refuses the read as it would a load's (10 R231, R243, R246; log 12). -/
def blockAt (s : State) (t : Nat) (th : Thread) (addr : Word) : Except Code (List Byte) :=
  let va := sectorVa addr
  if selector va == 0 && (viewOf s (va56 va)).isSome then .error .viewReadonly
  else match storage s (tcore t) va with
  | some loc =>
    (match (if (nearRead (s.core (tcore t)) th.domain va 32).isSome then none else homeCheck s va loc 32 (th.owner t) false) with
    | some f => .error f
    | none => .ok (leBytes 32 (threadSector s t th va loc).1.toNat))
  | none => .error .machine

/-- What a turn fetched: the decoded instruction, or the fault of 03 R67 or 16 R387. -/
structure Fetched where
  unit  : UnitWords
  instr : Except Code Instr
  deriving Repr

/-- The instruction word of a unit, after its prefixes. -/
def prefixWord (l : List Byte) : Word :=
  match (scanPrefixes l).1.find? (fun w => opcodeOf w == 1) with | some w => w | none => 0
/-- The unit at an address, fetched and decoded. DESIGN CHOICE (log 28): an address that is no boundary of its block, of
which the spec says nothing for a PCC, is checked as a transfer's target is (06 R134): the bounds first, then its place. Its
recorded first word is 0 where its bytes could not be fetched (15 R447). -/
def fetchAt (s : State) (t : Nat) (th : Thread) (addr : Word) : Fetched :=
  match blockAt s t th addr with
  | .error f =>
    let u : UnitWords := ⟨addr, addr, BitVec.ofNat 64 (nextUnit addr.toNat 8), 0, 0, 0, 0, 8, none⟩
    ⟨u, .error ((fetchFault s th addr 8).getD f)⟩
  | .ok blk =>
    let l := blk.drop (addr.toNat % 32)
    let pre := 8 * (scanPrefixes l).1.length
    let rest := l.drop pre
    let n := unitLen l
    let shown := if (fetchFault s th addr n).isSome then (0 : Word) else leWord l
    let u : UnitWords :=
      ⟨addr, addr + BitVec.ofNat 64 pre, BitVec.ofNat 64 (nextUnit addr.toNat n), shown, leWord rest,
        leWord ((rest.take (n - pre)).drop 8), prefixWord l, n, none⟩
    match boundaryAt blk 32 0 false (addr.toNat % 32), decodeUnit l with
    | none, _ => ⟨u, .error ((fetchFault s th addr n).getD .misalignedTarget)⟩
    | some _, .ok (i, _) => ⟨u, .ok i⟩
    | some _, .error c => ⟨u, .error c⟩

/-- The unit of a FAULTED or PENDING entry, decoded from its captured words with LA 0 (15 R372). -/
def fetchEntry (th : Thread) (e k : Entry) : Fetched :=
  let w := e.word &&& 0xFFFFFFFFFFFFC3FF
  let addr : Word := th.pcc.bits.extractLsb' 56 8 ++ (e.pcw.setWidth 56 : BitVec 56)
  let pre := if k.word == 0 then [] else leBytes 8 k.word.toNat
  let l := pre ++ leBytes 8 w.toNat ++ leBytes 8 k.pcw.toNat
  let u : UnitWords := ⟨addr, addr, BitVec.ofNat 64 th.pc, w, w, k.pcw, k.word, l.length, some (e.s1, e.s2, e.s3, k.s1.bits)⟩
  match decodeUnit l with
  | .ok (i, _) => ⟨u, .ok i⟩
  | .error c => ⟨u, .error c⟩

/-- The address from which the unit of a thread's turn is fetched: that of the next entry to re-inject, else PCC's; none where the
entry holds the captured words (15 R372). -/
def fetchAddr (th : Thread) : Option Word :=
  let at_ (e : Entry) : Word := th.pcc.bits.extractLsb' 56 8 ++ (e.pcw.setWidth 56 : BitVec 56)
  match th.reinject with
  | e :: _ :: _ => if e.kind == 2 || e.kind == 4 then none else some (at_ e)
  | [e] => some (at_ e)
  | [] => some (BitVec.ofNat 64 th.pc)
/-- The unit of thread t's turn: the next entry to re-inject, else the unit at PCC. -/
def fetchNext (s : State) (t : Nat) (th : Thread) : Fetched :=
  match fetchAddr th, th.reinject with
  | none, e :: k :: _ => fetchEntry th e k
  | a, _ => fetchAt s t th (a.getD (BitVec.ofNat 64 th.pc))

/-! ### A refused firmware -/

/-- Whether an event acts on management space or the trust block only (18 R424). -/
def isManagement : Instr → Bool
  | .attgo | .attestReady | .nonceWrite .. | .counterClear .. | .captureSnap .. | .captureEnable .. | .inqcfgWrite ..
  | .areaRegisterWrite .. | .formatWindowWrite .. | .pmapWrite .. | .hwinWrite .. | .arqcfgWrite .. | .pwrlimWrite ..
  | .lanecrcClear .. | .mgmtRegisterWrite .. | .deviceReset | .maintenanceReset => true
  | .hostWindowAccess place .. => place.bar == 0
  | _ => false
/-- Whether the firmware was refused (18 R414, R424). -/
def State.refusedFirmware (s : State) : Bool := s.dev.devstat.getLsbD 0
/-- Whether the device does not respond to an event: its firmware was refused, and the event is not of management (18 R424). -/
def State.silent (s : State) (i : Instr) : Bool := s.refusedFirmware && !isManagement i

/-! ### A program for the host to place (log 11) -/

/-- Where withFetchWord places its instruction: the scratchpad of core 0. -/
def placeVa : Word := 0xF000000000000000
/-- A capability over the first 32 bytes of the scratchpad, for PCC and the lease range. -/
def placeCap : Quad := capBounds (permR ||| permX) placeVa.toNat (placeVa.toNat + 32)
/-- An ordinary task record with 64 registers in slot 0 of core 0. -/
def Thread.blank : Thread where
  count := 64
  regs := []
  pcc := ⟨placeCap, true⟩
  sup := false
  mode := .ordinary
  crew := false
  lead := false
  drm := 1
  flags := Flags.none
  prng := ⟨1, 0, 0, 0x9E3779B9⟩
  turns := 1000
  deadline := 0
  taskid := 1
  group := 0
  trapcap := Val.zero
  bankmask := 0
  domain := 0
  record := 0
  edits := 0
  moves := 0
  trapActive := none
  status := .ready
  ops := []
  reinject := []
  resuming := false
  spare := []
  windows := []
  epoch := []
  written := []
  shed := []
  ranges := [placeCap]
  lanes := []
  tcb := ⟨Val.zero, Val.zero, 0, 1000, 0, 0, 0, 0, 0, 0, 0⟩
  link := 0
  queue := none
  travelGo := false
  dispatch := none
  fullSince := none
  revoked := false

end Sys2Proof.Machine
end

