-- ==== Sys2Proof/Machine/Flags.lean ====
section
/-!
DEFINITION. Rounding and exception flags of a thread (04 R84 to R90, 05 R114): the effective mode, the trap on abandoned
operands, and results that carry flags.
-/

namespace Sys2Proof.Machine

/-- The effective rounding mode (04 R86): the prefix's code, else DRM. A DRM of 0, which only a row handler of a tile that nothing
has written holds, is left as it is (DESIGN CHOICE, log 43). -/
def roundMode (p : Pfx) (th : Thread) : Nat := if p.round == 0 then th.drm.toNat else p.round.toNat
/-- Whether any element of a list is an abandoned encoding that traps: no pass bit (04 R90, 07 R147). -/
def abandonedIn (p : Pfx) (t : BitVec 6) (elems : List Nat) : Bool := !p.pass && elems.any (isAbandoned t)
/-- The trap of an abandoned operand (04 R90): no element is written, ABANDON counts it. -/
def abandonTrap : Except Stop State := .error (.trap .abandonedOperand 0)
/-- Flags gathered by the thread and the generator after an instruction's draws (04 R88, 05 R115). -/
def State.settleFloat (s : State) (t : Nat) (f : Flags) (g : Prng) : State :=
  s.modThread t (fun th => { th with flags := th.flags.or f, prng := g })
/-- The flags of a result and the running flags joined. -/
def joinFlags (fs : List Flags) : Flags := fs.foldl Flags.or Flags.none

end Sys2Proof.Machine
end

