-- ==== Sys2Proof/Machine/Integer.lean ====
section
/-!
DEFINITION. The integer and scalar family (06 R121 to R131).
-/

namespace Sys2Proof.Machine

/-- The second source: register bits [63:0], or imm16 sign- or zero-extended (06 R122). -/
def srcWord (sx : Bool) (b : SrcB) (v : Val) : Word :=
  match b with | .reg _ => v.lo | .imm x => if sx then x.signExtend 64 else x.setWidth 64
/-- Effect of a two-source member with result r of the two 64-bit sources (06 R121). -/
def intEffect (o : IntOps) (sx : Bool) (f : Word → Word → Word) : Effect :=
  fun v _ s => finish s.cur o.d (Val.ofWord (f v.a.lo (srcWord sx o.b v.b))) s
/-- Effect of a division member: its result arrives later (06 R123). -/
def divEffect (o : IntOps) (sx : Bool) (f : Word → Word → Word) : Effect :=
  fun v _ s => .ok (s.deferResult s.cur [o.d] [Val.ofWord (f v.a.lo (srcWord sx o.b v.b))] Flags.none o.la)
/-- Effect of a one-source member. -/
def unEffect (o : UnOps) (f : Word → Word) : Effect :=
  fun v _ s => finish s.cur o.d (Val.ofWord (f v.a.lo)) s

/-- An exact signed result wrapped, or clamped under sat (06 R124). -/
def satWord (sat : Bool) (x : Int) : Word :=
  ofInt 64 (if sat then max (-(2 ^ 63 : Int)) (min (2 ^ 63 - 1) x) else x)
def addWord (sat : Bool) (a b : Word) : Word := if sat then satWord true (a.toInt + b.toInt) else a + b
def subWord (sat : Bool) (a b : Word) : Word := if sat then satWord true (a.toInt - b.toInt) else a - b
def mulWord (sat : Bool) (a b : Word) : Word := if sat then satWord true (a.toInt * b.toInt) else a * b
def mulhWord (a b : Word) : Word := ofInt 64 (a.toInt * b.toInt / 2 ^ 64)
def mulhuWord (a b : Word) : Word := BitVec.ofNat 64 (a.toNat * b.toNat / 2 ^ 64)
/-- Quotients and remainders (06 R125). -/
def divWord (a b : Word) : Word := if b == 0 then BitVec.allOnes 64 else a.sdiv b
def remWord (a b : Word) : Word := if b == 0 then a else a.srem b
def divuWord (a b : Word) : Word := if b == 0 then BitVec.allOnes 64 else a / b
def remuWord (a b : Word) : Word := if b == 0 then a else a % b
/-- Shifts by a count read from all 64 bits (06 R126). -/
def shlWord (a c : Word) : Word := if 64 ≤ c.toNat then 0 else a <<< c.toNat
def shrWord (a c : Word) : Word := if 64 ≤ c.toNat then 0 else a >>> c.toNat
def sraWord (a c : Word) : Word := a.sshiftRight (min c.toNat 64)
def rotrWord (a c : Word) : Word := a.rotateRight (c.toNat % 64)
def minWord (a b : Word) : Word := if b.slt a then b else a
def maxWord (a b : Word) : Word := if a.slt b then b else a
def minuWord (a b : Word) : Word := if b < a then b else a
def maxuWord (a b : Word) : Word := if a < b then b else a
/-- Leading zeros, trailing zeros and ones (06 R124). -/
def clzWord (a : Word) : Word := if a == 0 then 64 else BitVec.ofNat 64 (63 - Nat.log2 a.toNat)
def ctzWord (a : Word) : Word :=
  BitVec.ofNat 64 (((List.range 64).find? (fun i => a.getLsbD i)).getD 64)
def popcWord (a : Word) : Word := BitVec.ofNat 64 (((List.range 64).filter (fun i => a.getLsbD i)).length)
def absWord (sat : Bool) (a : Word) : Word :=
  if a.slt 0 then (if sat && a == BitVec.intMin 64 then BitVec.intMax 64 else -a) else a
/-- Width b mod 64, 0 meaning 64 (06 R127). -/
def extWidth (b : Word) : Nat := if b.toNat % 64 == 0 then 64 else b.toNat % 64
def zextWord (a b : Word) : Word := BitVec.ofNat 64 (a.toNat % 2 ^ extWidth b)
def sextWord (a b : Word) : Word := ofInt 64 (signed (extWidth b) a.toNat)
def bitWord (c : Bool) : Word := if c then 1 else 0
/-- BFX and BFI (06 R127); `len` is the length minus 1. -/
def bfxWord (sx : Bool) (pos len : Nat) (a : Word) : Word :=
  let f := a.toNat / 2 ^ pos % 2 ^ (len + 1)
  if sx then ofInt 64 (signed (len + 1) f) else BitVec.ofNat 64 f
def bfiWord (pos len : Nat) (a b : Word) : Word :=
  let m : Word := BitVec.ofNat 64 ((2 ^ (len + 1) - 1) * 2 ^ pos)
  (a &&& ~~~m) ||| ((b <<< pos) &&& m)

def execAdd (o : IntOps) (s : State) := issue (.add o) s (intEffect o true (addWord o.p.sat))
def execSub (o : IntOps) (s : State) := issue (.sub o) s (intEffect o true (subWord o.p.sat))
def execMul (o : IntOps) (s : State) := issue (.mul o) s (intEffect o true (mulWord o.p.sat))
def execMulh (o : IntOps) (s : State) := issue (.mulh o) s (intEffect o true mulhWord)
def execMulhu (o : IntOps) (s : State) := issue (.mulhu o) s (intEffect o false mulhuWord)
def execDiv (o : IntOps) (s : State) := issue (.div o) s (divEffect o true divWord)
def execDivu (o : IntOps) (s : State) := issue (.divu o) s (divEffect o false divuWord)
def execRem (o : IntOps) (s : State) := issue (.rem o) s (divEffect o true remWord)
def execRemu (o : IntOps) (s : State) := issue (.remu o) s (divEffect o false remuWord)
def execAnd (o : IntOps) (s : State) := issue (.and o) s (intEffect o false (fun a b => a &&& b))
def execOr (o : IntOps) (s : State) := issue (.or o) s (intEffect o false (fun a b => a ||| b))
def execXor (o : IntOps) (s : State) := issue (.xor o) s (intEffect o false (fun a b => a ^^^ b))
def execAndn (o : IntOps) (s : State) := issue (.andn o) s (intEffect o false (fun a b => a &&& ~~~b))
def execShl (o : IntOps) (s : State) := issue (.shl o) s (intEffect o false shlWord)
def execShr (o : IntOps) (s : State) := issue (.shr o) s (intEffect o false shrWord)
def execSra (o : IntOps) (s : State) := issue (.sra o) s (intEffect o false sraWord)
def execRotr (o : IntOps) (s : State) := issue (.rotr o) s (intEffect o false rotrWord)
def execMin (o : IntOps) (s : State) := issue (.min o) s (intEffect o true minWord)
def execMax (o : IntOps) (s : State) := issue (.max o) s (intEffect o true maxWord)
def execMinu (o : IntOps) (s : State) := issue (.minu o) s (intEffect o false minuWord)
def execMaxu (o : IntOps) (s : State) := issue (.maxu o) s (intEffect o false maxuWord)
def execClz (o : UnOps) (s : State) := issue (.clz o) s (unEffect o clzWord)
def execCtz (o : UnOps) (s : State) := issue (.ctz o) s (unEffect o ctzWord)
def execPopc (o : UnOps) (s : State) := issue (.popc o) s (unEffect o popcWord)
def execAbs (o : UnOps) (s : State) := issue (.abs o) s (unEffect o (absWord o.p.sat))
def execSext (o : IntOps) (s : State) := issue (.sext o) s (intEffect o false sextWord)
def execZext (o : IntOps) (s : State) := issue (.zext o) s (intEffect o false zextWord)
def execBfx (o : BfxOps) (s : State) :=
  issue (.bfx o) s (fun v _ s => finish s.cur o.d (Val.ofWord (bfxWord o.sx o.pos.toNat o.len.toNat v.a.lo)) s)
def execBfi (o : BfiOps) (s : State) :=
  issue (.bfi o) s (fun v _ s => finish s.cur o.d (Val.ofWord (bfiWord o.pos.toNat o.len.toNat v.a.lo v.b.lo)) s)
def execCmpeq (o : IntOps) (s : State) := issue (.cmpeq o) s (intEffect o true (fun a b => bitWord (a == b)))
def execCmpne (o : IntOps) (s : State) := issue (.cmpne o) s (intEffect o true (fun a b => bitWord (a != b)))
def execCmplt (o : IntOps) (s : State) := issue (.cmplt o) s (intEffect o true (fun a b => bitWord (a.slt b)))
def execCmpltu (o : IntOps) (s : State) := issue (.cmpltu o) s (intEffect o false (fun a b => bitWord (a.ult b)))
def execCmple (o : IntOps) (s : State) := issue (.cmple o) s (intEffect o true (fun a b => bitWord (a.sle b)))
def execCmpleu (o : IntOps) (s : State) := issue (.cmpleu o) s (intEffect o false (fun a b => bitWord (a.ule b)))
/-- SEL: the whole of a or b by all 128 data bits of c (06 R128). -/
def selVal (o : SelOps) (v : Vals) : Val :=
  if v.c.bits != 0 then v.a else match o.b with | .reg _ => v.b | .imm x => Val.data (x.signExtend 128)
def execSel (o : SelOps) (s : State) := issue (.sel o) s (fun v _ s => finish s.cur o.d (selVal o v) s)
def execMov (o : UnOps) (s : State) := issue (.mov o) s (fun v _ s => finish s.cur o.d v.a s)
def execLi (p : Pfx) (d : Opn) (zx : Bool) (imm : BitVec 32) (s : State) :=
  issue (.li p d zx imm) s (fun _ _ s =>
    finish s.cur d (Val.ofWord (if zx then imm.setWidth 64 else imm.signExtend 64)) s)
def execLiw (p : Pfx) (d : Opn) (hi : Bool) (imm : BitVec 64) (s : State) :=
  issue (.liw p d hi imm) s (fun v _ s =>
    finish s.cur d (if hi then Val.data (imm ++ v.d.lo) else Val.ofWord imm) s)
def execTime (p : Pfx) (d : Opn) (s : State) :=
  issue (.time p d) s (fun _ _ s => finish s.cur d (Val.ofWord (BitVec.ofNat 64 (s.now s.cur))) s)
/-- RAND (06 R131): two draws, the first in bits [31:0]. -/
def execRand (p : Pfx) (d : Opn) (s : State) :=
  issue (.rand p d) s (fun _ th s =>
    let x := th.prng.next
    let y := x.2.next
    finish s.cur d (Val.ofWord (y.1 ++ x.1)) (s.modThread s.cur (fun t => { t with prng := y.2 })))

end Sys2Proof.Machine
end

