-- ==== Sys2Proof/Machine/Packed.lean ====
section
/-!
DEFINITION. Packed groups (07 R144 to R170) over the formats of 04.
-/

namespace Sys2Proof.Machine

/-- Elements of w bits of a data string, element 0 lowest (04 R74). -/
def elemsOf (w n bits : Nat) : List Nat := (List.range n).map (fun i => bits / 2 ^ (w * i) % 2 ^ w)
/-- Elements of w bits joined to a data string. -/
def joinElems (w : Nat) (l : List Nat) : Nat := l.foldr (fun x acc => x % 2 ^ w + 2 ^ w * acc) 0
/-- A destination group written (07 R146). -/
def State.putGroup (s : State) (d : Opn) (n bits : Nat) : State := s.modThread s.cur (fun th => th.writeGroup d n bits)

/-- One element's result with its flags and the generator after its draw. -/
abbrev ElemFn := Prng → Nat × Flags × Prng
/-- Elements computed in ascending order (04 R85, R88). -/
def runElems : List ElemFn → Prng → List Nat × Flags × Prng
  | [], g => ([], Flags.none, g)
  | f :: rest, g =>
    let x := f g
    let y := runElems rest x.2.2
    (x.1 :: y.1, x.2.1.or y.2.1, y.2.2)

/-- The resolved element type on the issuing core (07 R144). -/
def State.elemTypeOf (s : State) (i : Instr) : BitVec 6 := i.elemType (s.core (tcore s.cur)).fmtr
/-- Whether a type is one whose elements are floating. -/
def isFloating (t : BitVec 6) : Bool := isFloatType t || (12 ≤ t.toNat && t.toNat ≤ 15)

/-- Elements of b: its group, or element 0 of one register for every element under `.bs` (07 R150). -/
def secondElems (th : Thread) (w n g : Nat) (b : Opn) (bs : Bool) : List Nat :=
  if bs then List.replicate n ((th.read b).bits.toNat % 2 ^ w) else elemsOf w n (th.groupBits b g)

/-- A packed result: abandoned operands trap first (07 R147), else elements, flags and generator are set. -/
def packedResult (p : Pfx) (t : BitVec 6) (w : Nat) (scan : List Nat) (fs : List ElemFn) (d : Opn) (n : Nat)
    (th : Thread) (s : State) : Except Stop State :=
  if isFloatType t && abandonedIn p t scan then abandonTrap
  else
    let r := runElems fs th.prng
    .ok ((s.putGroup d n (joinElems w r.1)).settleFloat s.cur r.2.1 r.2.2)

/-- Exact operations of 07 R150. -/
inductive ArithFn where
  | add | sub | mul | min | max
  deriving DecidableEq, Repr

/-- One element of VADD, VSUB, VMUL, VMIN or VMAX (07 R150, R151). -/
def arithElem (fn : ArithFn) (t : BitVec 6) (mode : Nat) (sat : Bool) (a b : Nat) : ElemFn := fun g =>
  if isFloatType t then
    let x := decodeFp t a
    let y := decodeFp t b
    match fn with
    | .add => fpResult t mode sat [x, y] (Fp.add (mode == 4) x y) g
    | .sub => fpResult t mode sat [x, y] (Fp.add (mode == 4) x y.negate) g
    | .mul => fpResult t mode sat [x, y] (Fp.mul x y) g
    | .min => let r := fpMinMax t false a b; (r.1, r.2, g)
    | .max => let r := fpMinMax t true a b; (r.1, r.2, g)
  else
    let x := intVal t a
    let y := intVal t b
    let v := match fn with
      | .add => x + y | .sub => x - y | .mul => x * y | .min => min x y | .max => max x y
    (fitInt t sat v, Flags.none, g)
/-- Effect of an element-wise two-source instruction. -/
def arithEffect (i : Instr) (fn : ArithFn) (k : Pk) (b : Opn) (bs : Bool) : Effect := fun _ th s =>
  let t := s.elemTypeOf i
  let w := typeWidth t
  let g := groupSize k.g
  let n := 128 * g / w
  let xs := elemsOf w n (th.groupBits k.a g)
  let ys := secondElems th w n g b bs
  let mode := roundMode k.p th
  packedResult k.p t w (xs ++ ys) ((xs.zip ys).map (fun z => arithElem fn t mode k.p.sat z.1 z.2)) k.d g th s
def execVadd (k : Pk) (b : Opn) (bs : Bool) (s : State) := issue (.vadd k b bs) s (arithEffect (.vadd k b bs) .add k b bs)
def execVsub (k : Pk) (b : Opn) (bs : Bool) (s : State) := issue (.vsub k b bs) s (arithEffect (.vsub k b bs) .sub k b bs)
def execVmul (k : Pk) (b : Opn) (bs : Bool) (s : State) := issue (.vmul k b bs) s (arithEffect (.vmul k b bs) .mul k b bs)
def execVmin (k : Pk) (b : Opn) (bs : Bool) (s : State) := issue (.vmin k b bs) s (arithEffect (.vmin k b bs) .min k b bs)
def execVmax (k : Pk) (b : Opn) (bs : Bool) (s : State) := issue (.vmax k b bs) s (arithEffect (.vmax k b bs) .max k b bs)

/-- One element of VFMA: one rounding of the exact product plus addend (04 R96, 07 R150). -/
def fmaElem (t : BitVec 6) (mode : Nat) (sat : Bool) (a b c : Nat) : ElemFn := fun g =>
  if isFloatType t then
    let x := decodeFp t a
    let y := decodeFp t b
    let z := decodeFp t c
    let m := Fp.mul x y
    let r := Fp.add (mode == 4) m.1 z
    let open_ : Flags := nvIf (m.2 && z.isNan && Config.fmaInvalid)
    let q := fpResult t mode sat [x, y, z] (r.1, m.2 || r.2) g
    (q.1, q.2.1.or open_, q.2.2)
  else (fitInt t sat (intVal t a * intVal t b + intVal t c), Flags.none, g)
def execVfma (k : Pk) (b c : Opn) (bs : Bool) (s : State) :=
  issue (.vfma k b c bs) s (fun _ th s =>
    let t := s.elemTypeOf (.vfma k b c bs)
    let w := typeWidth t
    let g := groupSize k.g
    let n := 128 * g / w
    let xs := elemsOf w n (th.groupBits k.a g)
    let ys := secondElems th w n g b bs
    let zs := elemsOf w n (th.groupBits c g)
    let mode := roundMode k.p th
    packedResult k.p t w (xs ++ ys ++ zs)
      ((xs.zip (ys.zip zs)).map (fun z => fmaElem t mode k.p.sat z.1 z.2.1 z.2.2)) k.d g th s)

/-- One element of VABS or VNEG (07 R151). -/
def signElem (neg : Bool) (t : BitVec 6) (sat : Bool) (a : Nat) : ElemFn := fun g =>
  if isFloatType t then
    let w := typeWidth t
    let top := 2 ^ (w - 1)
    if isAbandoned t a then (quietBits t (nanNeg t a) (nanFrac t a), flagNV, g)
    else (if neg then (a + top) % 2 ^ w else a % top, Flags.none, g)
  else
    let x := intVal t a
    (if neg || (isSignedType t && x < 0) then fitInt t sat (-x) else a, Flags.none, g)
/-- Effect of VABS or VNEG. -/
def signEffect (i : Instr) (neg : Bool) (k : Pk) : Effect := fun _ th s =>
  let t := s.elemTypeOf i
  let w := typeWidth t
  let g := groupSize k.g
  let xs := elemsOf w (128 * g / w) (th.groupBits k.a g)
  packedResult k.p t w xs (xs.map (signElem neg t k.p.sat)) k.d g th s
def execVabs (k : Pk) (s : State) := issue (.vabs k) s (signEffect (.vabs k) false k)
def execVneg (k : Pk) (s : State) := issue (.vneg k) s (signEffect (.vneg k) true k)

/-- Effect of a bitwise instruction on all 128·G bits (07 R152). -/
def bitsEffect (k : Pk) (b : Opn) (bs : Bool) (f : Nat → Nat → Nat) : Effect := fun _ th s =>
  let g := groupSize k.g
  let y := if bs then joinElems 128 (List.replicate g (th.read b).bits.toNat) else th.groupBits b g
  .ok (s.putGroup k.d g (f (th.groupBits k.a g) y))
def execVand (k : Pk) (b : Opn) (bs : Bool) (s : State) := issue (.vand k b bs) s (bitsEffect k b bs (fun x y => x &&& y))
def execVor (k : Pk) (b : Opn) (bs : Bool) (s : State) := issue (.vor k b bs) s (bitsEffect k b bs (fun x y => x ||| y))
def execVxor (k : Pk) (b : Opn) (bs : Bool) (s : State) := issue (.vxor k b bs) s (bitsEffect k b bs (fun x y => x ^^^ y))

/-- One element shifted (07 R153). -/
def shiftElem (right : Bool) (t : BitVec 6) (a c : Nat) : Nat :=
  let w := typeWidth t
  if right then
    if isSignedType t then (intVal t a / 2 ^ min c w % 2 ^ w).toNat
    else if w ≤ c then 0 else a / 2 ^ c
  else if w ≤ c then 0 else a * 2 ^ c % 2 ^ w
/-- Effect of VSHL or VSHR. -/
def shiftEffect (i : Instr) (right : Bool) (k : Pk) (b : SrcB) : Effect := fun _ th s =>
  let t := s.elemTypeOf i
  let w := typeWidth t
  let g := groupSize k.g
  let n := 128 * g / w
  let cs := match b with | .imm v => List.replicate n v.toNat | .reg r => elemsOf w n (th.groupBits r g)
  .ok (s.putGroup k.d g (joinElems w
    (((elemsOf w n (th.groupBits k.a g)).zip cs).map (fun z => shiftElem right t z.1 z.2))))
def execVshl (k : Pk) (b : SrcB) (s : State) := issue (.vshl k b) s (shiftEffect (.vshl k b) false k b)
def execVshr (k : Pk) (b : SrcB) (s : State) := issue (.vshr k b) s (shiftEffect (.vshr k b) true k b)

/-- One comparison (07 R154): whether it holds, and its flags. -/
def cmpElem (cond : Nat) (t : BitVec 6) (a b : Nat) : Bool × Flags :=
  if isFloatType t then
    let x := decodeFp t a
    let y := decodeFp t b
    let nan := x.isNan || y.isNan
    let snan := isSignalling x || isSignalling y
    match cond with
    | 0 => (x.eq y, nvIf snan)
    | 1 => (!x.eq y, nvIf snan)
    | 2 => (x.lt y, nvIf nan)
    | 3 => (x.lt y || x.eq y, nvIf nan)
    | 4 => (y.lt x, nvIf nan)
    | 5 => (y.lt x || x.eq y, nvIf nan)
    | 6 => (nan, nvIf snan)
    | _ => (!nan, nvIf snan)
  else
    let x := intVal t a
    let y := intVal t b
    (match cond with
      | 0 => x == y | 1 => x != y | 2 => decide (x < y) | 3 => decide (x ≤ y) | 4 => decide (y < x)
      | _ => decide (y ≤ x), Flags.none)
def execVcmp (k : Pk) (b : Opn) (bs : Bool) (cond : BitVec 3) (s : State) :=
  issue (.vcmp k b bs cond) s (fun _ th s =>
    let t := s.elemTypeOf (.vcmp k b bs cond)
    let w := typeWidth t
    let g := groupSize k.g
    let n := 128 * g / w
    let xs := elemsOf w n (th.groupBits k.a g)
    let ys := secondElems th w n g b bs
    let one (z : Nat × Nat) : ElemFn := fun r =>
      let c := cmpElem cond.toNat t z.1 z.2
      (if c.1 then 2 ^ w - 1 else 0, c.2, r)
    packedResult k.p t w (xs ++ ys) ((xs.zip ys).map one) k.d g th s)
def execVsel (k : Pk) (b c : Opn) (s : State) :=
  issue (.vsel k b c) s (fun _ th s =>
    let w := typeWidth (s.elemTypeOf (.vsel k b c))
    let g := groupSize k.g
    let n := 128 * g / w
    let xs := elemsOf w n (th.groupBits k.a g)
    let ys := elemsOf w n (th.groupBits b g)
    let zs := elemsOf w n (th.groupBits c g)
    .ok (s.putGroup k.d g (joinElems w ((xs.zip (ys.zip zs)).map (fun z => if z.2.2 != 0 then z.1 else z.2.1)))))

/-! ### Conversion and scale (07 R156 to R160) -/

/-- An exact value rounded to a type, where the source type was `src` (07 R158). -/
def convTo (src dst : BitVec 6) (mode : Nat) (sat : Bool) (x : Fp) : ElemFn := fun g =>
  if isIntType dst then
    match x with
    | .fin neg m e =>
      if isFloating src then floatToInt dst mode x g
      else
        let r := roundInt mode neg m e g
        (fitInt dst sat r.1, if r.2.1 then flagNX else Flags.none, r.2.2)
    | _ => floatToInt dst mode x g
  else if dst == 15 then let r := toE8m0 sat x; (r.1, r.2, g)
  else match x with
    | .nan nt bits => let r := nanBits dst nt bits; (r.1, r.2, g)
    | _ => roundFp dst mode sat x g
/-- A block scale applied: 0xFF gives the default NaN (04 R92). -/
def scaled (s : Nat) (inverse : Bool) (x : Fp) : Fp :=
  if s == 255 then .default else x.scale (if inverse then 127 - (s : Int) else (s : Int) - 127)
/-- Scale byte of element i (04 R92). -/
def scaleByte (v : Val) (i : Nat) : Nat := v.bits.toNat / 2 ^ (8 * (i / 32)) % 256
/-- The bit of one element under `.mask` (07 R159). DEDUCED (log 35): an element of a plane view, of which the rule says
nothing, counts as an integer. DESIGN CHOICE (log 89): an abandoned encoding gives its verdict bit and no flag under the
pass-through bit too. -/
def maskBit (src : BitVec 6) (a : Nat) : Bool :=
  if isAbandoned src a then a % 2 == 1
  else match decodeFp src a with
    | .nan .. => false
    | .inf _ => true
    | .fin _ m _ => m != 0
/-- The flags of `.mask` (04 R78, 07 R147, R159): invalid for a signalling NaN that is no abandoned encoding. -/
def maskFlags (src : BitVec 6) (xs : List Nat) : Flags :=
  nvIf (xs.any (fun x => !isAbandoned src x && isSignalling (decodeFp src x)))
/-- The scale register's value: that of the prefix, else of the instruction's own field (07 R148). -/
def scaleVal (k : Pk) (th : Thread) (own : Opn) : Val := th.read (k.p.sx.getD own)
def execVcvt (k : Pk) (c : Opn) (src : BitVec 6) (mask scl : Bool) (s : State) :=
  issue (.vcvt k c src mask scl) s (fun _ th s =>
    let g := groupSize k.g
    let w := typeWidth src
    let n := 128 * g / w
    let xs := elemsOf w n (th.groupBits k.a g)
    if mask then
      .ok ((s.putGroup k.d 1 (joinElems 1 (xs.map (fun x => (maskBit src x).toNat)))).settleFloat s.cur (maskFlags src xs) th.prng)
    else if isFloatType src && abandonedIn k.p src xs then abandonTrap
    else
      let t := s.elemTypeOf (.vcvt k c src mask scl)
      let mode := roundMode k.p th
      let sv := scaleVal k th c
      let one (z : Nat × Nat) : ElemFn := fun r =>
        let x0 := decodeFp src z.2
        let x := if scl && isBlockScaled src then scaled (scaleByte sv z.1) false x0 else x0
        let x := if scl && isBlockScaled t then scaled (scaleByte sv z.1) true x else x
        let y := convTo src t mode k.p.sat x r
        (y.1, (nvIf (isSignalling x0)).or y.2.1, y.2.2)
      let r := runElems (((List.range n).zip xs).map one) th.prng
      .ok ((s.putGroup k.d (vcvtDest k src t) (joinElems (typeWidth t) r.1)).settleFloat s.cur r.2.1 r.2.2))
def execVscale (k : Pk) (b : Opn) (s : State) :=
  issue (.vscale k b) s (fun _ th s =>
    let t := s.elemTypeOf (.vscale k b)
    let g := groupSize k.g
    let w := typeWidth t
    let xs := elemsOf w (128 * g / w) (th.groupBits k.a g)
    let mode := roundMode k.p th
    let sv := scaleVal k th b
    let one (z : Nat × Nat) : ElemFn := fun r =>
      let x := decodeFp t z.2
      let sc := scaleByte sv z.1
      if sc == 255 then (defaultNan t, nvIf (isSignalling x), r)
      else fpResult t mode k.p.sat [x] (scaled sc false x, false) r
    packedResult k.p t w xs (((List.range xs.length).zip xs).map one) k.d g th s)

/-! ### Reduction and stepwise functions (07 R161 to R165) -/

/-- One level of the tree of 04 R96: pairs combined in order, an odd last element passing up. -/
def redLevel (f : Nat → Nat → ElemFn) : List Nat → Prng → List Nat × Flags × Prng
  | a :: b :: rest, g =>
    let x := f a b g
    let y := redLevel f rest x.2.2
    (x.1 :: y.1, x.2.1.or y.2.1, y.2.2)
  | l, g => (l, Flags.none, g)
/-- The tree; `fuel` counts levels. -/
def redTree (f : Nat → Nat → ElemFn) : Nat → List Nat → Prng → Nat × Flags × Prng
  | 0, l, g => (l.headD 0, Flags.none, g)
  | fuel + 1, l, g =>
    if l.length ≤ 1 then (l.headD 0, Flags.none, g)
    else
      let x := redLevel f l g
      let y := redTree f fuel x.1 x.2.2
      (y.1, x.2.1.or y.2.1, y.2.2)
def execVred (k : Pk) (op : BitVec 2) (s : State) :=
  issue (.vred k op) s (fun _ th s =>
    let t := s.elemTypeOf (.vred k op)
    let w := typeWidth t
    let g := groupSize k.g
    let xs := elemsOf w (128 * g / w) (th.groupBits k.a g)
    let mode := roundMode k.p th
    let fn : ArithFn := match op.toNat with | 0 => .add | 1 => .min | _ => .max
    let one : ElemFn := fun r =>
      if op == 0 && !isFloatType t then (fitInt t k.p.sat (xs.foldl (fun a x => a + intVal t x) 0), Flags.none, r)
      else redTree (arithElem fn t mode k.p.sat) 10 xs r
    packedResult k.p t w xs [one] k.d 1 th s)
/-- Effect of a stepwise function: its result arrives later with its flags (07 R147). -/
def stepwiseEffect (k : Pk) (la : BitVec 4) (f : Nat → Nat × Flags) : Effect := fun _ th s =>
  let g := groupSize k.g
  let xs := elemsOf 32 (4 * g) (th.groupBits k.a g)
  if abandonedIn k.p f32 xs then abandonTrap
  else
    let rs := xs.map f
    let bits := joinElems 32 (rs.map Prod.fst)
    let vs := (List.range g).map (fun i => Val.data (BitVec.ofNat 128 (bits / 2 ^ (128 * i))))
    .ok (s.deferResult s.cur (destGroup k.d g) vs (joinFlags (rs.map Prod.snd)) la)
def execVexp2 (k : Pk) (la : BitVec 4) (s : State) := issue (.vexp2 k la) s (stepwiseEffect k la vexp2Elem)
def execVrcp (k : Pk) (la : BitVec 4) (s : State) := issue (.vrcp k la) s (stepwiseEffect k la vrcpElem)
def execVrsq (k : Pk) (la : BitVec 4) (s : State) := issue (.vrsq k la) s (stepwiseEffect k la vrsqElem)

/-! ### Moving elements (07 R166, R167) -/

def execVperm (k : Pk) (b : Opn) (s : State) :=
  issue (.vperm k b) s (fun _ th s =>
    let w := typeWidth (s.elemTypeOf (.vperm k b))
    let g := groupSize k.g
    let n := 128 * g / w
    let xs := elemsOf w n (th.groupBits k.a g)
    .ok (s.putGroup k.d g (joinElems w ((elemsOf w n (th.groupBits b g)).map (fun i => xs.getD (i % n) 0)))))
def execVbcast (k : Pk) (b : SrcB) (s : State) :=
  issue (.vbcast k b) s (fun v th s =>
    let w := typeWidth (s.elemTypeOf (.vbcast k b))
    let g := groupSize k.g
    let i := match b with | .imm x => x.toNat | .reg _ => v.b.lo.toNat
    let x := (elemsOf w (128 / w) (th.read k.a).bits.toNat).getD (i % (128 / w)) 0
    .ok (s.putGroup k.d g (joinElems w (List.replicate (128 * g / w) x))))
/-- An exact integer fitted to w bits of a signedness (04 R75). -/
def fitBits (sgn : Bool) (w : Nat) (sat : Bool) (x : Int) : Nat :=
  let lo : Int := if sgn then -(2 ^ (w - 1) : Int) else 0
  let hi : Int := if sgn then 2 ^ (w - 1) - 1 else 2 ^ w - 1
  ((if sat then max lo (min hi x) else x) % 2 ^ w).toNat
def execVpack (k : Pk) (b : Opn) (s : State) :=
  issue (.vpack k b) s (fun _ th s =>
    let t := s.elemTypeOf (.vpack k b)
    let w := typeWidth t
    let g := groupSize k.g
    let n := 128 * g / w
    let xs := elemsOf w n (th.groupBits k.a g) ++ elemsOf w n (th.groupBits b g)
    .ok (s.putGroup k.d g (joinElems (w / 2) (xs.map (fun x => fitBits (isSignedType t) (w / 2) k.p.sat (intVal t x))))))
def execVunpk (k : Pk) (hi : Bool) (s : State) :=
  issue (.vunpk k hi) s (fun _ th s =>
    let t := s.elemTypeOf (.vunpk k hi)
    let w := typeWidth t
    let g := groupSize k.g
    let n := 128 * g / w
    let xs := elemsOf w n (th.groupBits k.a g)
    let half := if hi then xs.drop (n / 2) else xs.take (n / 2)
    .ok (s.putGroup k.d g (joinElems (2 * w) (half.map (fun x => fitBits true (2 * w) false (intVal t x))))))

/-! ### Planes and verdicts (07 R168 to R170) -/

def execPlnenc (k : Pk) (s : State) :=
  issue (.plnenc k) s (fun _ th s =>
    let xs := elemsOf 8 128 (th.groupBits k.a 8)
    let plane (j : Nat) : Nat := joinElems 1 (xs.map (fun x => x / 2 ^ (7 - j) % 2))
    .ok (s.putGroup k.d 8 (joinElems 128 ((List.range 8).map plane))))
def execPlndec (k : Pk) (planes : BitVec 4) (s : State) :=
  issue (.plndec k planes) s (fun _ th s =>
    let p := planes.toNat
    let regs := (List.range p).map (fun j => if k.a == 256 then 0 else (th.read (k.a + BitVec.ofNat 9 j)).bits.toNat)
    let elem (t : Nat) : Nat :=
      regs.foldl (fun acc r => 2 * acc + r / 2 ^ t % 2) 0 * 2 ^ (8 - p)
    .ok (s.putGroup k.d 8 (joinElems 8 ((List.range 128).map elem))))
/-- The verdict code of an element (07 R170). -/
def verdictCode (t : BitVec 6) (x : Nat) : Nat :=
  if isAbandoned t x then (if x % 2 == 1 then 3 else 1) else if (decodeFp t x).isNan then 2 else 0
/-- The word of `.blk` (07 R170). -/
def verdictBlock (x : Nat) : Nat := if isAbandoned f32 x then 2 ^ 31 + x % 2 * 256 + x / 2 % 128 else 0
def execVverd (k : Pk) (blk : Bool) (s : State) :=
  issue (.vverd k blk) s (fun _ th s =>
    let t := s.elemTypeOf (.vverd k blk)
    let w := typeWidth t
    let g := groupSize k.g
    let xs := elemsOf w (128 * g / w) (th.groupBits k.a g)
    .ok (if blk then s.putGroup k.d g (joinElems 32 (xs.map verdictBlock))
      else s.putGroup k.d 1 (joinElems 2 (xs.map (verdictCode t)))))

end Sys2Proof.Machine
end

