-- ==== Sys2Proof/Machine/Curve.lean ====
section
/-!
DEFINITION. Curve codes (08 R175 to R192); CQSPLIT's stores stand in Memory.lean.
-/

namespace Sys2Proof.Machine

/-- Fields of a code (08 R176). -/
def codeDim (q : Quad) : Nat := bitsOf q 116 4
def codeFlags (q : Quad) : Nat := bitsOf q 120 8
def codeDigits (q : Quad) : Nat := bitsOf q 0 112
/-- Bits of an axis (08 R176). -/
def axisBits (dims : Nat) : Nat := 112 / dims
/-- A code from its fields. -/
def codeMake (flags dims digits : Nat) : Quad := BitVec.ofNat 128 (flags % 256 * 2 ^ 120 + dims % 16 * 2 ^ 116 + digits % 2 ^ 112)
/-- Axis i of digits (08 R176); `n` counts levels. -/
def axisOf (dims digits i : Nat) : Nat → Nat
  | 0 => 0
  | n + 1 => axisOf dims digits i n + digits / 2 ^ (n * dims + i) % 2 * 2 ^ n
def axisVal (dims digits i : Nat) : Nat := axisOf dims digits i (axisBits dims)
/-- Digits of axis values. -/
def digitsOf (dims : Nat) (axes : List Nat) : Nat :=
  ((List.range (axisBits dims)).map (fun l =>
    ((List.range dims).map (fun i => axes.getD i 0 / 2 ^ l % 2 * 2 ^ (l * dims + i))).sum)).sum
def axesOf (dims digits : Nat) : List Nat := (List.range dims).map (axisVal dims digits)
/-- A well-formed code (08 R177). -/
def codeOk (q : Quad) : Bool :=
  let n := codeDim q
  2 ≤ n && n ≤ 8 && bitsOf q 112 4 == 0 && codeDigits q < 2 ^ (n * axisBits n) && codeFlags q < 2 ^ n
/-- The end marker of a dimension (08 R185). -/
def endMarker (dims : Nat) : Quad := BitVec.ofNat 128 (dims * 2 ^ 116 + 15 * 2 ^ 112)
def isMarker (q : Quad) : Bool := 2 ≤ codeDim q && codeDim q ≤ 8 && q == endMarker (codeDim q)
/-- CURVE_HEADER, then CURVE_DIM_MISMATCH (08 R177, R178): cause address 0. -/
def curveCheck (codes : List Quad) : Option Code :=
  if codes.any (fun q => !codeOk q) then some .curveHeader
  else if codes.any (fun q => codeDim q != codeDim (codes.headD 0)) then some .curveDimMismatch
  else none
/-- Effect after the checks of the codes read. -/
def curveEffect (d : Opn) (codes : Vals → List Quad) (k : Vals → Except Code Quad) : Effect := fun v _ s =>
  match curveCheck (codes v) with
  | some c => .error (.trap c 0)
  | none => match k v with
    | .ok q => finish s.cur d (Val.data q) s
    | .error c => .error (.trap c 0)

def execCqpack (p : Pfx) (d a : Opn) (dims : BitVec 4) (s : State) :=
  issue (.cqpack p d a dims) s (fun _ th s =>
    let n := dims.toNat
    let w := axisBits n
    let bits := th.groupBits a (axisGroup dims)
    let xs := (List.range n).map (fun i => bits / 2 ^ (64 * i) % 2 ^ 64)
    let flags := ((List.range n).map (fun i => if 2 ^ w ≤ xs.getD i 0 then 2 ^ i else 0)).sum
    finish s.cur d (Val.data (codeMake flags n (digitsOf n xs))) s)
/-- CQEXT (08 R181). -/
def execCqext (p : Pfx) (d a : Opn) (k : AxisSrc) (sgn : Bool) (s : State) :=
  issue (.cqext p d a k sgn) s (curveEffect d (fun v => [v.a.bits]) (fun v =>
    let n := codeDim v.a.bits
    let i := match k with | .imm x => x.toNat | .reg _ => v.b.lo.toNat
    if n ≤ i then .error .curveDimMismatch
    else
      let x := axisVal n (codeDigits v.a.bits) i
      let r : Word := if sgn then ofInt 64 (signed (axisBits n) x) else BitVec.ofNat 64 x
      .ok (r.setWidth 128)))
/-- CQADD and CQSUB (08 R182). -/
def curveAdd (sub sgn : Bool) (b : CurveStep) (v : Vals) : Except Code Quad :=
  let q := v.a.bits
  let n := codeDim q
  let w := axisBits n
  let k := match b with | .step x _ => x.toNat | .reg _ => 0
  if n ≤ k then .error .curveDimMismatch
  else
    let sum (i : Nat) : Int :=
      let x0 := axisVal n (codeDigits q) i
      let x : Int := if sgn then signed w x0 else (x0 : Int)
      let y : Int := match b with
        | .step _ delta => if i = k then delta.toInt else 0
        | .reg _ => let y0 := axisVal n (codeDigits v.b.bits) i; if sgn then signed w y0 else (y0 : Int)
      if sub then x - y else x + y
    let ovf (i : Nat) : Bool :=
      if sgn then sum i < -(2 ^ (w - 1) : Int) || (2 ^ (w - 1) : Int) ≤ sum i else sum i < 0 || (2 ^ w : Int) ≤ sum i
    let old := codeFlags q ||| (match b with | .step .. => 0 | .reg _ => codeFlags v.b.bits)
    let new := ((List.range n).map (fun i => if ovf i then 2 ^ i else 0)).sum
    .ok (codeMake (old ||| new) n (digitsOf n ((List.range n).map (fun i => (sum i % 2 ^ w).toNat))))
/-- The codes CQADD and CQSUB read. -/
def stepCodes (b : CurveStep) (v : Vals) : List Quad := match b with | .reg _ => [v.a.bits, v.b.bits] | .step .. => [v.a.bits]
def execCqadd (p : Pfx) (d a : Opn) (b : CurveStep) (sgn : Bool) (s : State) :=
  issue (.cqadd p d a b sgn) s (curveEffect d (stepCodes b) (curveAdd false sgn b))
def execCqsub (p : Pfx) (d a : Opn) (b : CurveStep) (sgn : Bool) (s : State) :=
  issue (.cqsub p d a b sgn) s (curveEffect d (stepCodes b) (curveAdd true sgn b))
/-- CQCMP (08 R183): markers are admitted, and are greater than every code of their D. -/
def curveCompare (a b : Quad) : Except Code Quad :=
  let good (q : Quad) : Bool := codeOk q || isMarker q
  if !good a || !good b then .error .curveHeader
  else if codeDim a != codeDim b then .error .curveDimMismatch
  else
    let key (q : Quad) : Nat := if isMarker q then 2 ^ 112 else codeDigits q
    .ok (if key a < key b then (BitVec.allOnes 64).setWidth 128 else if key a = key b then 0 else 1)
def execCqcmp (o : BinOps) (s : State) :=
  issue (.cqcmp o) s (curveEffect o.d (fun _ => []) (fun v => curveCompare v.a.bits v.b.bits))
/-- Whether digits lie in a box, axis by axis (08 R184). -/
def inBox (dims lo hi x : Nat) : Bool :=
  (List.range dims).all (fun i => axisVal dims lo i ≤ axisVal dims x i && axisVal dims x i ≤ axisVal dims hi i)
def boxTest (a b c : Quad) : Except Code Quad :=
  if !(codeOk a || isMarker a) || !codeOk b || !codeOk c then .error .curveHeader
  else if codeDim a != codeDim b || codeDim a != codeDim c then .error .curveDimMismatch
  else .ok (if !isMarker a && inBox (codeDim a) (codeDigits b) (codeDigits c) (codeDigits a) then 1 else 0)
def execCqinbox (o : BoxOps) (s : State) :=
  issue (.cqinbox o) s (curveEffect o.d (fun _ => []) (fun v => boxTest v.a.bits v.b.bits v.c.bits))

/-- Range of axis i over the 2^j digits that follow p: low value and number of free bits. -/
def axisSpan (dims p j i : Nat) : Nat × Nat :=
  let free := (j + dims - 1 - i) / dims
  (axisVal dims p i / 2 ^ free * 2 ^ free, 2 ^ free - 1)
/-- Whether some, or every, code of the block of 2^j digits at p lies in the box. -/
def someIn (dims lo hi p j : Nat) : Bool :=
  (List.range dims).all (fun i =>
    let x := axisSpan dims p j i
    max x.1 (axisVal dims lo i) ≤ min (x.1 + x.2) (axisVal dims hi i))
def allIn (dims lo hi p j : Nat) : Bool :=
  (List.range dims).all (fun i =>
    let x := axisSpan dims p j i
    axisVal dims lo i ≤ x.1 && x.1 + x.2 ≤ axisVal dims hi i)
/-- The blocks after x in rising order: bit j of x is 0 and becomes 1. -/
def laterBlocks (bits x : Nat) : List (Nat × Nat) :=
  ((List.range bits).filter (fun j => x / 2 ^ j % 2 == 0)).map (fun j => (x / 2 ^ j * 2 ^ j + 2 ^ j, j))
/-- The first digits of the box at or after x (08 R185). -/
def nextIn (dims lo hi x : Nat) : Option Nat :=
  let bits := dims * axisBits dims
  if 2 ^ bits ≤ x then none
  else if inBox dims lo hi x then some x
  else match (laterBlocks bits x).find? (fun b => someIn dims lo hi b.1 b.2) with
    | some b => some (digitsOf dims ((List.range dims).map (fun i => max (axisSpan dims b.1 b.2 i).1 (axisVal dims lo i))))
    | none => none
/-- The first digits outside the box in a block that is not all inside. -/
def firstOutIn (dims lo hi : Nat) : Nat → Nat → Nat
  | p, 0 => p
  | p, j + 1 => if allIn dims lo hi p j then firstOutIn dims lo hi (p + 2 ^ j) j else firstOutIn dims lo hi p j
/-- The last digits of the run of box codes that holds x (08 R186). -/
def runEnd (dims lo hi x : Nat) : Nat :=
  let bits := dims * axisBits dims
  match (laterBlocks bits x).find? (fun b => !allIn dims lo hi b.1 b.2) with
  | some b => firstOutIn dims lo hi b.1 b.2 - 1
  | none => 2 ^ bits - 1
/-- CQNEXT's result (08 R185). -/
def nextCode (a b c : Quad) : Quad :=
  let n := codeDim a
  match nextIn n (codeDigits b) (codeDigits c) (codeDigits a) with
  | some x => codeMake 0 n x
  | none => endMarker n
def execCqnext (o : BoxOps) (s : State) :=
  issue (.cqnext o) s (fun v _ s =>
    match curveCheck [v.a.bits, v.b.bits, v.c.bits] with
    | some c => .error (.trap c 0)
    | none => .ok (s.deferResult s.cur [o.d] [Val.data (nextCode v.a.bits v.b.bits v.c.bits)] Flags.none o.la))

/-- The end of the entry whose run ends at h: runs are merged across gaps of at most g codes (08 R186). -/
def mergeRuns (dims lo hi g : Nat) : Nat → Nat → Nat
  | 0, h => h
  | fuel + 1, h =>
    match nextIn dims lo hi (h + 1) with
    | some y => if g < y - h - 1 then h else mergeRuns dims lo hi g fuel (runEnd dims lo hi y)
    | none => h
/-- The entries from x on and the resume digits; the second argument counts entries (08 R186). -/
def splitFrom (dims lo hi g : Nat) : Nat → Option Nat → List (Nat × Nat) × Option Nat
  | 0, x => ([], x)
  | _ + 1, none => ([], none)
  | n + 1, some x =>
    let h := mergeRuns dims lo hi g (2 ^ 112) (runEnd dims lo hi x)
    let r := splitFrom dims lo hi g n (nextIn dims lo hi (h + 1))
    ((x, h) :: r.1, r.2)

def execCqsetd (p : Pfx) (d a : Opn) (dims : BitVec 4) (s : State) :=
  issue (.cqsetd p d a dims) s (fun v _ s =>
    let n := dims.toNat
    finish s.cur d (Val.data (codeMake 0 n (codeDigits v.a.bits % 2 ^ (n * axisBits n)))) s)
/-- CQTRUNC (08 R191). -/
def truncCode (q : Quad) (m : Nat) (up : Bool) : Quad :=
  let n := codeDim q
  let x := codeDigits q
  let y := if axisBits n ≤ m then 0 else if up then x / 2 ^ (m * n) else x / 2 ^ (m * n) * 2 ^ (m * n)
  codeMake (codeFlags q) n y
def execCqtrunc (p : Pfx) (d a : Opn) (m : LevelSrc) (up : Bool) (s : State) :=
  issue (.cqtrunc p d a m up) s (curveEffect d (fun v => [v.a.bits]) (fun v =>
    .ok (truncCode v.a.bits (match m with | .imm x => x.toNat | .reg _ => v.b.lo.toNat) up)))
def execCqflags (o : UnOps) (s : State) :=
  issue (.cqflags o) s (fun v _ s =>
    match curveCheck [v.a.bits] with
    | some c => .error (.trap c 0)
    | none =>
      let q := v.a.bits
      .ok (s.putGroup o.d 2 (codeMake 0 (codeDim q) (codeDigits q)).toNat |>.modThread s.cur (fun th =>
        th.writeGroup (if o.d == 256 then 256 else o.d + 1) 1 (codeFlags q))))

end Sys2Proof.Machine
end

