-- ==== Sys2Proof/Machine/MarkHome.lean ====
section
/-!
DEFINITION. Mark cells at their homes: tick numbers, temper curve, cooling, and the operations on cells (12 R283 to R298).
-/

namespace Sys2Proof.Machine

/-- n bytes of a descriptor at an offset (12 R284). -/
def MarkDomain.field (d : MarkDomain) (off n : Nat) : Nat := leNat ((d.desc.drop off).take n)
def MarkDomain.origin (d : MarkDomain) : Nat := d.field 16 8
def MarkDomain.period (d : MarkDomain) : Nat := d.field 24 8
def MarkDomain.dims (d : MarkDomain) : Nat := d.field 32 1
def MarkDomain.keepN (d : MarkDomain) : Nat := d.field 33 1 + 1
def MarkDomain.stepped (d : MarkDomain) : Bool := d.field 34 1 == 1
/-- A mark domain by number. -/
def State.mark (s : State) (dom : Nat) : MarkDomain := tget s.dev.marks dom MarkDomain.reset
def State.modMark (s : State) (dom : Nat) (f : MarkDomain → MarkDomain) : State :=
  s.modDev (fun d => { d with marks := tmod d.marks dom MarkDomain.reset f })
/-- The tick number a timestamp gives a timed domain (12 R285). -/
def timedTick (d : MarkDomain) (ts : Nat) : Nat := if ts < d.origin then 0 else (ts - d.origin) / d.period
/-- The tick number of a domain at a home (12 R285). -/
def homeTick (s : State) (h dom : Nat) : Nat :=
  let d := s.mark dom
  if d.stepped then tget (s.home h).ticks dom 0 else timedTick d (s.tsAt h)
/-- Point i of the temper curve: PTICK and PTEMP (12 R284). -/
def MarkDomain.ptick (d : MarkDomain) (i : Nat) : Nat := d.field (64 + 8 * i) 4
def MarkDomain.ptemp (d : MarkDomain) (i : Nat) : Nat := d.field (68 + 8 * i) 4
/-- The temperature at tick n (12 R286). -/
def MarkDomain.temper (d : MarkDomain) (n : Nat) : Nat :=
  match ((List.range 8).reverse.find? (fun i => d.ptick i ≤ n)) with
  | none => d.ptemp 0
  | some i =>
    if i = 7 then d.ptemp 7
    else
      let num : Int := ((d.ptemp (i + 1) : Int) - d.ptemp i) * ((n : Int) - d.ptick i)
      let den : Int := (d.ptick (i + 1) : Int) - d.ptick i
      ((d.ptemp i : Int) + num.fdiv den).toNat

/-- k cooling steps (12 R287). -/
def coolSteps (keep : Nat) : Nat → Nat → Nat
  | 0, v => v
  | k + 1, v => coolSteps keep k (v * keep / 256)
/-- A cell word updated at tick n: its cooled VALUE and new word (12 R287). -/
def coolWord (keep n w : Nat) : Nat := coolSteps keep ((n % 2 ^ 24 + 2 ^ 24 - w / 2 ^ 40 % 2 ^ 24) % 2 ^ 24) (w % 2 ^ 40)
/-- A cell word of a VALUE at tick n (12 R283). -/
def cellWord (n v : Nat) : Nat := n % 2 ^ 24 * 2 ^ 40 + v % 2 ^ 40

/-- Address of cell c of a domain (12 R284). -/
def cellVa (d : MarkDomain) (c : Nat) : Word := BitVec.ofNat 64 (d.base + 8 * c)
/-- The home of a cell. -/
def cellHome (s : State) (d : MarkDomain) (c : Nat) : Nat := targetCore s noCore (cellVa d c)
/-- Cells of a domain homed at a home. -/
def cellsAt (s : State) (h : Nat) (d : MarkDomain) : List Nat :=
  (List.range d.cells).filter (fun c => cellHome s d c == h)
/-- The stamp of a cell. -/
def cellStamp (s : State) (d : MarkDomain) (c : Nat) : Nat :=
  match storage s noCore (cellVa d c) with | some loc => s.load (loc + 5) 3 | none => 0
/-- Homes that hold a cell of a domain. -/
def homesOf (s : State) (d : MarkDomain) : List Nat :=
  ((List.range d.cells).map (fun c => cellHome s d c)).foldl linsert []
/-- A word of a cell written: TAG, FE and owners stay (12 R283, 10 R241). -/
def State.putCell (s : State) (va : Word) (loc w : Nat) : State :=
  ({ s with mem := memStore s.mem loc 8 w }).wrote va loc 8
/-- A cell updated at home h: its cooled VALUE, changed by f, is stored with the current stamp (12 R283, R287). -/
def State.updateCell (s : State) (h dom c : Nat) (f : Nat → Nat) : State × Nat :=
  let d := s.mark dom
  let va := cellVa d c
  match storage s noCore va with
  | none => (s, 0)
  | some loc =>
    let s := (s.homeRead loc).needLine loc true
    let n := homeTick s h dom
    let v := f (coolWord d.keepN n (s.load loc 8))
    (s.putCell va loc (cellWord n v), v)
/-- Cells updated in turn, with their cooled values. -/
def State.updateCells (s : State) (h dom : Nat) : List Nat → State × List (Nat × Nat)
  | [] => (s, [])
  | c :: rest =>
    let x := s.updateCell h dom c id
    let y := x.1.updateCells h dom rest
    (y.1, (c, x.2) :: y.2)
/-- Whether the sector of a cell is poisoned (12 R292 step 8). -/
def cellPoisoned (s : State) (d : MarkDomain) (c : Nat) : Bool :=
  match storage s noCore (cellVa d c) with | some loc => s.poisonAt loc | none => false

/-- The codes of a box from x on, in ascending order, at most `fuel` of them (12 R297, 08 R185). -/
def boxCells (dims lo hi : Nat) : Nat → Nat → List Nat
  | 0, _ => []
  | fuel + 1, x => match nextIn dims lo hi x with | some y => y :: boxCells dims lo hi fuel (y + 1) | none => []
/-- Cells of a box: the product of its sides, 0 where lo lies above hi on an axis (12 R292). -/
def boxCount (dims lo hi : Nat) : Nat :=
  ((List.range dims).map (fun i => axisVal dims hi i + 1 - axisVal dims lo i)).foldl (· * ·) 1

/-- Greatest value first met in ascending code order (12 R297). -/
def senseBest : List (Nat × Nat) → Option (Nat × Nat)
  | [] => none
  | x :: rest => match senseBest rest with
    | none => some x
    | some y => some (if x.2 < y.2 || (x.2 == y.2 && y.1 < x.1) then y else x)
/-- The results of a box no cell of which exists (12 R297). -/
def emptySense : List Val := [Val.data (0x8000000000000000 : Quad), Val.zero]
/-- MSENSE's results (12 R297). -/
def senseVals (dims : Nat) (cells : List (Nat × Nat)) : List Val :=
  match senseBest cells with
  | none => emptySense
  | some x => [Val.data (BitVec.ofNat 128 x.2), Val.data (codeMake 0 dims x.1)]
/-- Weight of a cell (12 R298). -/
def sampWeight (t vmax v : Nat) : Nat :=
  if t = 0 then (if v = vmax then 65536 else 0) else 65536 / 2 ^ min 16 ((vmax - v) / t)
/-- The first cell whose running sum of weights exceeds the target (12 R298). -/
def sampWalk (t vmax target : Nat) : Nat → List (Nat × Nat) → Option (Nat × Nat)
  | _, [] => none
  | acc, x :: rest =>
    let a := acc + sampWeight t vmax x.2
    if target < a then some x else sampWalk t vmax target a rest
/-- MSAMP's results at temperature t (12 R298); the cells stand in ascending code. -/
def sampVals (dims t u : Nat) (cells : List (Nat × Nat)) : List Val :=
  let vmax := cells.foldl (fun m x => max m x.2) 0
  let total := (cells.map (fun x => sampWeight t vmax x.2)).sum
  match sampWalk t vmax (u * total / 2 ^ 32) 0 cells with
  | none => emptySense
  | some x => [Val.data (BitVec.ofNat 128 (t * 2 ^ 64 + x.2)), Val.data (codeMake 0 dims x.1)]

end Sys2Proof.Machine
end

