-- ==== Sys2Proof/Machine/Perform.lean ====
section
/-!
DEFINITION. Access messages performed at their homes (10 R231, R233, R237 to R243; 11 R258 to R269; 12; 14 R345, R361),
at ports and in management space (18 R415, R419): what each reaches, what it does and what it answers.
-/

namespace Sys2Proof.Machine

/-- What a performed message answers: values, a refusal with its cause address, a wait record left, or no room for one. -/
inductive Reply where
  | answer (vs : List Val)
  | refuse (code : Code) (addr : Word)
  | waits
  | full
  deriving DecidableEq, Repr

/-! ### What a message reaches -/

/-- Bytes an access reaches (11, 14 R361): of a top-k list its header, and as much more as its capacity says. -/
def Act.span (a : Act) : Nat :=
  match a with
  | .load n _ | .loadAcq n | .store n _ _ | .storeRel n _ => n
  | .loadCap _ => 16
  | .amo _ n _ _ | .cas n _ _ _ => n
  | .pref _ => 128
  | .join | .leave | .gbar => 16
  | _ => 8
/-- Whole sectors checked at the home for a read, in order: the first refusal (10 R231, R246). -/
def readCheck (s : State) (c : Nat) (me : Owner) : List Word → Option Code
  | [] => none
  | va :: rest =>
    match storage s c va with
    | none => some .machine
    | some loc => match homeCheck s va loc 32 me false with
      | some f => some f
      | none => readCheck s c me rest
/-- Whether the line of a PREF can be had at its home: one whose mapping or checks fail does nothing (11 R260); the registry does
not check it (13 R304, R314). -/
def prefWorks (s : State) (c : Nat) (va : Word) : Bool :=
  (readSectors s va 128).all (fun a => match storage s c a with
    | some loc => !markAt s a 32 (holder loc) && !s.poisonAt loc
    | none => false)
/-- The cells of a box at a home. -/
def boxAt (s : State) (h dom : Nat) (lo hi : Quad) : List Nat :=
  let d := s.mark dom
  (boxCells d.dims (codeDigits lo) (codeDigits hi) 4096 (codeDigits lo)).filter (fun c => cellHome s d c == h)
/-- Bytes of the list whose header is stored at loc, within its page; of a header no list has, its own 8 (11 R265, R266). -/
def listBytes (s : State) (loc : Nat) : Nat :=
  let k := s.loadFresh (loc + 4) 2
  if k = 0 || 64 < k then 8 else min (8 + 8 * k) (2 ^ 18 - loc % 2 ^ 18)
/-- The sectors an operation of core c reaches at home h. -/
def Op.reaches (s : State) (h c : Nat) (o : Op) : List Word :=
  match o.act with
  | .mdep dom c _ | .merase dom c | .mread dom c => [sectorVa (cellVa (s.mark dom) c)]
  | .msense dom lo hi | .msamp dom lo hi _ => (boxAt s h dom lo hi).map (fun c => sectorVa (cellVa (s.mark dom) c))
  | .mtick _ | .mbind _ | .munbind _ => []
  | .load n _ => readSectors s o.va n
  | .pref _ => if prefWorks s c o.va then readSectors s o.va 128 else []
  | .topkins .. => sectorsOf o.va (match storage s c o.va with | some loc => listBytes s loc | none => 8)
  | a => sectorsOf o.va a.span
/-- Whether an operation reads the words it reaches, so that a pull comes first (13 R319). -/
def Act.readsWords : Act → Bool
  | .pref _ | .load .. | .loadCap _ | .loadAcq _ | .amo .. | .cas .. | .wld _ | .fest | .waitne _ | .topkins .. | .join | .leave
  | .gbar => true
  | _ => false
/-- The bytes an operation may reach: of a list those of the largest (11 R266). -/
def Act.extent (a : Act) : Nat := match a with | .topkins .. => 520 | _ => a.span
/-- Whether an operation may write what it reaches. -/
def Act.alters : Act → Bool
  | .store .. | .storeRel .. | .amo .. | .cas .. | .fill _ | .topkins .. | .join | .leave | .gbar => true
  | _ => false
/-- Whether an operation writes a word that it need not read: the buffered stores before it come first (13 R329). -/
def Act.fills : Act → Bool | .fill _ => true | _ => false
/-- The core that sent a message: its address goes by that core's translation (16 R388). -/
def Msg.asker (m : Msg) : Nat := match m.src with | .core c => c | .station _ => noCore
/-- The sectors a message reaches at home h, and whether it reads them. -/
def Msg.reaches (s : State) (h : Nat) (m : Msg) : List Word × Bool :=
  match m.payload with
  | .access t op => match (s.thread t).bind (fun th => th.op op) with
    | some o => (o.reaches s h m.asker, o.act.readsWords)
    | none => ([], false)
  | .write _ _ va _ _ _ => ([sectorVa va], false)
  | .register _ _ va _ => ([sectorVa va], false)
  | .wback _ va _ _ _ _ _ _ => ([sectorVa va], false)
  | .engRead _ _ va => (readSectors s va 32, true)
  | .engWrite _ _ va _ => ([sectorVa va], false)
  | .window _ _ va _ => ([sectorVa va], false)
  | _ => ([], false)

/-- The view address a message reads, if it reads a view. -/
def Msg.viewRead (s : State) (m : Msg) : Option Word :=
  let test (va : Word) : Option Word := if selector va == 0 && (viewOf s (va56 va)).isSome then some va else none
  match m.payload with
  | .access t op => match (s.thread t).bind (fun th => th.op op) with
    | some o => (match o.act with | .load .. => test o.va | .pref _ => test o.va | _ => none)
    | none => none
  | .engRead _ _ va => test va
  | _ => none
/-- Lines a message needs in the home cache; scratchpads have none (10 R233, R237). -/
def Msg.lines (s : State) (h : Nat) (m : Msg) : List LineKey :=
  match m.viewRead s with
  | some va => [⟨h, va56 va / 128, true⟩]
  | none => (m.reaches s h).1.filterMap (fun va =>
      if selector va != 0 then none
      else match storage s m.asker va with
        | some loc => if holder loc == h then some ⟨h, loc / 128, false⟩ else none
        | none => none)
/-- Whether a message writes what it reaches. -/
def Msg.writes (s : State) (m : Msg) : Bool :=
  match m.payload with
  | .access t op => match (s.thread t).bind (fun th => th.op op) with
    | some o => (match o.act with
      | .load .. | .loadCap _ | .loadAcq _ | .wld _ | .fest | .waitne _ | .pref _ => false
      | _ => true)
    | none => false
  | .engRead .. => false
  | _ => true
/-- Lines a message waits for at home h (10 R237, R247). -/
def missingLines (s : State) (h : Nat) (m : Msg) : List LineKey :=
  (m.lines s h).filter (fun x => !(s.home h).serves x.line x.view (m.writes s))
/-- Pages of a message whose lines its home cache lacks and that have no valid home frame entry at home h (16 R389). -/
def unwalkedPages (s : State) (h : Nat) (m : Msg) : List Word :=
  let missing := missingLines s h m
  let cached (loc : Nat) : Bool := (m.viewRead s).isNone && !missing.contains ⟨h, loc / 128, false⟩
  if (m.viewRead s).isSome && missing.isEmpty then []
  else (m.reaches s h).1.filter (fun va =>
    selector va == 0 && (match storage s m.asker va with
      | some loc => holder loc == h && !cached loc && (
          let e := tget (s.home h).frames (loc / 2 ^ 18 % 4096) HomeFrame.reset
          !(e.valid && e.vpn == va56 va / 2 ^ 18))
      | none => true))
/-- An awaited FILL: it finds its word empty and WLD records on it, so its value is read as soon as it is written (11 R268,
13 R306). Answers the sector and the operation. -/
def fillAwaited (s : State) (h : Nat) (m : Msg) : Option (Nat × Nat × Op) :=
  match m.payload with
  | .access t op => (match (s.thread t).bind (fun (th : Thread) => th.op op) with
    | some o => (match o.act, storage s m.asker o.va with
      | .fill _, some loc =>
        if s.feAt loc || (servedByFill loc (s.home h).waits).1.isEmpty then none else some (loc / 32, t, o)
      | _, _ => none)
    | none => none)
  | _ => none
/-- The sectors of a reading message whose release directory entries name cores (13 R319): home, sector, pull under way. -/
def pullsNeeded (s : State) (h : Nat) (m : Msg) : List (Nat × Nat × Bool) :=
  let x := m.reaches s h
  if x.2 || (fillAwaited s h m).isSome then
    x.1.filterMap (fun va => match storage s m.asker va with
      | some loc =>
        match (s.home (holder loc)).directory.find? (fun e => e.sector == loc / 32) with
        | some e => some (holder loc, loc / 32, e.pulling)
        | none => none
      | none => none)
  else []
/-- An awaited FILL that its home's release directory does not name yet: named once, so that the waiters' read pulls what the
FILL released (13 R318, R319; log 29). -/
def State.noteAwaited (s : State) (h : Nat) (m : Msg) : Option State :=
  match fillAwaited s h m with
  | some (sector, t, o) =>
    if o.ticks == 0 then
      some ((s.recordRelease h sector (tcore t)).modThread t (fun th => th.modOp o.id (fun (y : Op) => { y with ticks := 1 })))
    else none
  | none => none

/-! ### Reads -/

/-- The 32 bytes of a sector at its home, or of a view (10 R245), once buffered stores are in the line (13 R329). -/
def homeBytes (s : State) (va : Word) (loc : Nat) : Nat :=
  match selector va, viewOf s (va56 va) with
  | 0, some w => viewLoad s w (va56 va / 32 * 32) 32
  | _, _ => s.load (loc / 32 * 32) 32
/-- Bytes of an operation's sector with those the near slice held at its issue (10 R235, 13 R310). -/
def Op.seen (o : Op) (bytes : Nat) : Nat := mergeBytes o.mask bytes o.held.toNat
/-- n bytes of a sector at an address. -/
def sectorField (bytes : Nat) (va : Word) (n : Nat) : Nat := bytes / 2 ^ (8 * (va.toNat % 32)) % 2 ^ (8 * n)
/-- The values of an LD of n bytes (11 R258). -/
def loadVals (n : Nat) (sx : Bool) (x : Nat) : List Val :=
  if n = 32 then [Val.data (BitVec.ofNat 128 x), Val.data (BitVec.ofNat 128 (x / 2 ^ 128))]
  else if n = 16 then [Val.data (BitVec.ofNat 128 x)]
  else [Val.ofWord (if sx then ofInt 64 (signed (8 * n) x) else BitVec.ofNat 64 x)]
/-- The value of an LDCAP (11 R259, 05 R107). -/
def capVal (keep : Bool) (bits : Quad) (tag : Bool) : Val := ⟨bits, tag && keep && !capForged bits⟩
/-- The granule tag of a read, its near-slice bytes first (10 R241). -/
def Op.seenTag (o : Op) (tag : Bool) : Bool :=
  let i := o.va.toNat % 32 / 16
  if o.mask.extractLsb' (16 * i) 16 == 0 then tag else o.tags.getLsbD i
/-- n bytes at an address, sector by sector: addresses and lengths. -/
def pieces (va : Word) (n : Nat) : List (Word × Nat) :=
  (sectorsOf va n).map (fun x =>
    let lo := max va.toNat x.toNat
    (BitVec.ofNat 64 lo, min (va.toNat + n) (x.toNat + 32) - lo))
/-- Pieces checked at their home, in order: the first refusal (10 R231). -/
def piecesCheck (s : State) (c : Nat) (me : Owner) : List (Word × Nat) → Option Code
  | [] => none
  | x :: rest =>
    match storage s c x.1 with
    | none => some .machine
    | some loc => match homeCheck s x.1 loc x.2 me false with
      | some f => some f
      | none => piecesCheck s c me rest
/-- The check of n bytes of an operation at its home (10 R231). -/
def opCheck (s : State) (c : Nat) (me : Owner) (va : Word) (n : Nat) : Except Code Nat :=
  match storage s c va with
  | none => .error .machine
  | some loc => match piecesCheck s c me (pieces va n) with
    | some f => .error f
    | none => .ok loc
/-- Buffered release stores of every sector of a list written (13 R329). -/
def State.flushAll (s : State) (c : Nat) (vas : List Word) : State :=
  vas.foldl (fun s va => match storage s c va with
    | some loc => s.flushBuffer (holder loc) (loc / 32)
    | none => s) s
/-- Whether a core has writes, atomics or bytes of a sector on their way to its home: what a read finds there is older (13 R310,
R311). -/
def sectorOut (s : State) (c : Nat) (va : Word) : Bool :=
  s.msgs.any (fun m => m.src == .core c && (match m.payload with
    | .write _ _ a _ _ _ => sectorVa a == sectorVa va
    | .wback _ a _ _ _ _ _ _ => a == sectorVa va
    | .access t op => (match (s.thread t).bind (fun th => th.op op) with
      | some o => o.act.alters && (sectorsOf o.va o.act.extent).contains (sectorVa va)
      | none => false)
    | _ => false))
/-- A fetched sector installed in the near slice where its line is still there: clean, or merged into the bytes that a dirty or
released sector does not hold (10 R235). -/
def State.installClean (s : State) (c : Nat) (va : Word) (dom : BitVec 16) (bytes : Nat) (tags : BitVec 2) : State :=
  if selector va != 0 || sectorOut s c va then s
  else
    let x := nearSector (s.core c) va dom
    let keepTag (i : Nat) : Bool := if x.mask.extractLsb' (16 * i) 16 == 0 then tags.getLsbD i else x.tags.getLsbD i
    let y : Sector :=
      if x.holds then
        { x with
          data := BitVec.ofNat 256 (mergeBytes x.mask bytes x.data.toNat)
          tags := BitVec.ofBool (keepTag 1) ++ BitVec.ofBool (keepTag 0)
          whole := true }
      else ⟨.clean, 0, BitVec.ofNat 256 bytes, tags, Owner.nobody, false⟩
    s.modCore c (fun k => nearPut k va dom y)
/-- The granule tags of a sector in storage. -/
def State.tagPair (s : State) (loc : Nat) : BitVec 2 :=
  BitVec.ofBool (s.tagAt (loc / 32 * 32 + 16)) ++ BitVec.ofBool (s.tagAt (loc / 32 * 32))

/-! ### Atomics and lists -/

/-- AMO's new value of s bytes (11 R263). -/
def amoVal (fn : AmoFn) (n old v : Nat) : Nat :=
  let m := 2 ^ (8 * n)
  let so := signed (8 * n) old
  let sv := signed (8 * n) v
  match fn with
  | .add => (old + v) % m | .and => old &&& v | .or => old ||| v | .xor => old ^^^ v
  | .max => if so < sv then v else old | .min => if sv < so then v else old
  | .maxu => max old v | .minu => min old v | .swap => v
/-- FP32 comparison a > b of two patterns; false with a NaN, −0 equals +0 (11 R266). -/
def fpGreater (a b : BitVec 32) : Bool := (decodeFp f32 b.toNat).lt (decodeFp f32 a.toNat)
/-- Entries of a top-k list: score and id (11 R265). -/
def topkEntries (s : State) (loc n : Nat) : List (Nat × Nat) :=
  (List.range n).map (fun i => (s.load (loc + 8 + 8 * i) 4, s.load (loc + 12 + 8 * i) 4))
/-- The place of a score: before the first lower one (11 R266). -/
def topkPlace (sc : BitVec 32) (l : List (Nat × Nat)) : Nat :=
  ((List.range l.length).find? (fun i => fpGreater sc (BitVec.ofNat 32 (l.getD i (0, 0)).1))).getD l.length
/-- Entries stored back. -/
def State.putTopk (s : State) (loc : Nat) (l : List (Nat × Nat)) : State :=
  ((List.range l.length).zip l).foldl (fun s x =>
    (s.store (loc + 8 + 8 * x.1) 4 x.2.1).store (loc + 12 + 8 * x.1) 4 x.2.2) s
/-- TOPKINS at the home of a list that lies at loc (11 R266). DESIGN CHOICE (log 100): the checks of the list's sectors after the
header's come after FORMAT_MISMATCH, BOUNDS and ALIGN and before a score is turned away; and where N = K, the score exceeds THR and no
entry lies below it, no entry is written and p = K is the answer. -/
def State.topkInsert (s : State) (c : Nat) (me : Owner) (va : Word) (loc : Nat) (top : Int) (sc id : BitVec 32) : State × Reply :=
  let thr := s.load loc 4
  let k := s.load (loc + 4) 2
  let n := s.load (loc + 6) 1
  if k = 0 || 64 < k || k < n || s.load (loc + 7) 1 != 0 then (s, .refuse .formatMismatch va)
  else if top < (va.toNat : Int) + 8 + 8 * k then (s, .refuse .bounds va)
  else if 2 ^ 18 < va.toNat % 2 ^ 18 + 8 + 8 * k then (s, .refuse .align va)
  else match piecesCheck s c me (pieces va (8 + 8 * k)) with
  | some f => (s, .refuse f va)
  | none =>
  if !fpGreater sc (BitVec.ofNat 32 thr) then
    (s, .answer [Val.ofWord (BitVec.ofNat 64 (0xFFFF * 2 ^ 32 + thr))])
  else
    let s := s.flushAll c (sectorsOf va (8 + 8 * k))
    let l := topkEntries s loc n
    let p := topkPlace sc l
    let l2 := (l.take p ++ [(sc.toNat, id.toNat)] ++ l.drop p).take k
    let s := (s.putTopk loc l2).store (loc + 6) 1 l2.length
    let last := (l2.getD (k - 1) (0, 0)).1
    let thr2 := if l2.length = k && fpGreater (BitVec.ofNat 32 last) (BitVec.ofNat 32 thr) then last else thr
    let s := (s.store loc 4 thr2).wrote va loc (8 + 8 * k)
    (s, .answer [Val.ofWord (BitVec.ofNat 64 (p * 2 ^ 32 + thr2))])

/-! ### Ports and management space (18 R415, R419, R327) -/

/-- Bytes of n draws. -/
def drawnBytes (f : Nat → Byte) (n : Nat) : Nat := leNat ((List.range n).map f)
/-- The result of a load of n bytes with the given bits: LD or LDCAP, whose tag is clear there. -/
def portVals (act : Act) (x : Nat) : List Val :=
  match act with
  | .load n sx => loadVals n sx x
  | _ => [Val.data (BitVec.ofNat 128 x)]
/-- An access of region 0xFC or 0xF8 performed. -/
def State.portAccess (s : State) (o : Op) : State × Reply :=
  let off := va56 o.va
  let n := o.act.span
  let s1 := { s with draws := s.draws + 1 }
  let bytes (v w : Val) : List Byte := (leBytes 16 v.bits.toNat ++ leBytes 16 w.bits.toNat).take n
  if selector o.va == 0xFC then
    if o.va.getLsbD 55 then
      match o.act with
      | .store n v _ => (if n = 8 then mgmtWrite s (off % 2 ^ 27) v.lo else s, .answer [])
      | a => (s, .answer (portVals a (if n = 8 then (mgmtRead s (off % 2 ^ 27)).toNat else 0)))
    else
      let link := off / 2 ^ 54 % 2
      match o.act with
      | .store _ v w => (s.emit (.hostWrite link (off % 2 ^ 54) (bytes v w)), .answer [])
      | a => (s1, if Config.hostFails s.draws then .refuse .machine o.va
        else .answer (portVals a (drawnBytes (fun i => Config.hostByte s.draws link (off % 2 ^ 54 + i)) n)))
  else
    let port := off / 2 ^ 53
    let a := Config.peerAnswer s.draws
    if !(tget s.dev.ppstat port 0).getLsbD 0 then (s, .refuse .machine o.va)
    else if a == 1 then (s1, .refuse .wrongClass o.va)
    else if a != 0 then (s1, .refuse .machine o.va)
    else match o.act with
      | .store _ v w => (s1.emit (.peerWrite port (off % 2 ^ 53) (bytes v w)), .answer [])
      | a => (s1, .answer (portVals a (drawnBytes (fun i => Config.peerByte s.draws port (off % 2 ^ 53 + i)) n)))

/-! ### An access performed -/

/-- A core recorded in the release directory by the release part of an atomic or a release store (13 R318, 11 R264). -/
def State.noteRelease (s : State) (rel : Bool) (loc core : Nat) : State :=
  if rel then s.recordRelease (holder loc) (loc / 32) core else s
/-- A wait record of an operation left at its word, or the instruction refused for lack of records (14 R343). -/
def State.leaveWait (s : State) (h loc : Nat) (kind : WaitKind) (t : Nat) (o : Op) : State × Reply :=
  match s.addWait h ⟨loc / 8 * 8, kind, .slot t, o.id, false⟩ with
  | some s => (s, .waits)
  | none => (s.countHome h cWREFUSE 1, .full)
/-- A group word instruction at its home, GROUP written with the word (14 R361, R345). -/
def State.groupAct (s : State) (h t : Nat) (th : Thread) (o : Op) (loc : Nat) : State × Reply :=
  let ans (n : Nat) : Reply := .answer [Val.ofWord (BitVec.ofNat 64 n)]
  match o.act with
  | .join =>
    let m := s.load loc 4
    if th.group != 0 then (s, ans 1)
    else if m = 2 ^ 32 - 1 then (s, ans 2)
    else (((s.store loc 4 (m + 1)).wrote o.va loc 16).modThread t (fun x => { x with group := o.va }), ans 0)
  | .leave =>
    if th.group != o.va then (s, ans 1)
    else let r := s.groupLeave o.va loc; (r.1.modThread t (fun x => { x with group := 0 }), ans r.2)
  | _ =>
    let a := s.load (loc + 4) 4
    let m := s.load loc 4
    if m ≤ a + 1 || a = 2 ^ 32 - 1 then
      let gen := (s.load (loc + 8) 8 + 1) % 2 ^ 64
      let s := ((s.store (loc + 4) 4 0).store (loc + 8) 8 gen).wrote o.va loc 16
      (s.servePhase h loc gen, ans gen)
    else
      match s.addWait h ⟨loc, .gbar, .slot t, o.id, false⟩ with
      | some s => ((s.store (loc + 4) 4 (a + 1)).wrote o.va loc 16, .waits)
      | none => (s.countHome h cWREFUSE 1, .full)

/-- Whether a binding or unbinding of a domain has yet to reach a home (12 R300, R301). -/
def bindPending (s : State) (h dom : Nat) (bind : Bool) : Bool := (s.home h).work.any (fun w => w.dom == dom && w.bind == bind)
/-- Whether mark operations on a domain are performed at a home: its binding has reached the home (12 R300), and its unbinding
has not (12 R301). -/
def markLive (s : State) (h dom : Nat) : Bool :=
  !bindPending s h dom true && ((s.mark dom).bound || bindPending s h dom false)
/-- An operation on a mark cell or a box at home h (12 R294 to R298): cells read are gathered in the operation. -/
def State.markAct (s : State) (h t : Nat) (o : Op) : State × Reply :=
  let cell (dom c : Nat) (f : Nat → Nat) (k : State × Nat → State × Reply) : State × Reply :=
    if !markLive s h dom then (s, .refuse .wrongClass (cellVa (s.mark dom) c))
    else if cellPoisoned s (s.mark dom) c then (s, .refuse .poison (cellVa (s.mark dom) c))
    else k (s.updateCell h dom c f)
  let gather (dom : Nat) (lo hi : Quad) : State × Reply :=
    let d := s.mark dom
    let cells := boxAt s h dom lo hi
    if !markLive s h dom then (s, .refuse .wrongClass o.va)
    else match cells.find? (fun c => cellPoisoned s d c) with
      | some c => (s, .refuse .poison (cellVa d c))
      | none =>
        let r := s.updateCells h dom cells
        let n := homeTick s h dom
        (r.1.modThread t (fun th => th.modOp o.id (fun x =>
          { x with
            cells := r.2.foldl (fun l y => tput l y.1 y.2) x.cells
            ticks := if cells.contains (codeDigits lo) then n else x.ticks })), .answer [])
  match o.act with
  | .mdep dom c amount =>
    cell dom c (fun v => min (2 ^ 40 - 1) (v + amount.toNat)) (fun r => (r.1.sampleHome h 9 r.2, .answer []))
  | .merase dom c => cell dom c (fun _ => 0) (fun r => (r.1, .answer []))
  | .mread dom c =>
    let n := homeTick s h dom
    cell dom c id (fun r => (r.1, .answer [Val.data (BitVec.ofNat 128 (n * 2 ^ 64 + cellWord n r.2))]))
  | .msense dom lo hi => gather dom lo hi
  | .msamp dom lo hi _ => gather dom lo hi
  | _ => (s, .answer [])

/-- A PREF performed (11 R260): its line, which is in the home cache by now, comes to the near slice unless `.home` asks for no
more. -/
def State.prefetch (s : State) (c : Nat) (dom : BitVec 16) (home : Bool) (va : Word) : State :=
  if home || !prefWorks s c va then s
  else
    let s := s.flushAll c (readSectors s va 128)
    let view := (viewOf s (va56 va)).isSome
    match s.ensureLine c va dom with
    | none => s
    | some s => (sectorsOf va 128).foldl (fun s a =>
        match storage s c (storedVa s a) with
        | some loc => s.installClean c a dom (homeBytes s a loc) (if view then 0 else s.tagPair loc)
        | none => s) s
/-- What the writer's core still holds of a written sector that is older than the write, dropped, so that no later load there
finds it: a clean copy, and bytes that another thread holds and that are not registered (13 R310, R311, R315). -/
def State.dropOthers (s : State) (t : Nat) (va : Word) (mask : BitVec 32) : State :=
  match s.thread t with
  | some th =>
    let x := nearSector (s.core (tcore t)) va th.domain
    if selector va == 0 && x.st != .invalid && (!x.holds || x.owner != th.owner t) then
      s.dropBytes (tcore t) va th.domain mask
    else s
  | none => s
/-- That for every sector of n bytes at an address. -/
def State.dropSpan (s : State) (t : Nat) (va : Word) (n : Nat) : State :=
  (sectorsOf va n).foldl (fun s a => s.dropOthers t a (BitVec.allOnes 32)) s
/-- The access of operation o of thread t performed at home h as one event (10 R238). -/
def State.perform (s : State) (h t : Nat) (th : Thread) (o : Op) : State × Reply :=
  let c := tcore t
  let me := th.owner t
  let dom := th.domain
  let word (n : Nat) : Reply := .answer [Val.ofWord (BitVec.ofNat 64 n)]
  let n := o.act.span
  if selector o.va == 0xF8 || selector o.va == 0xFC then s.portAccess o
  else match o.act with
    | .mdep .. | .merase .. | .mread .. | .msense .. | .msamp .. => s.markAct h t o
    | .pref home => (s.prefetch c dom home o.va, .answer [])
    | .load n sx =>
      let view := selector o.va == 0 && (viewOf s (va56 o.va)).isSome
      let chk := if view then readCheck s c me (readSectors s o.va n) else
        (match opCheck s c me o.va n with | .error f => some f | .ok _ => none)
      match chk, storage s c (storedVa s o.va) with
      | some f, _ => (s, .refuse f o.va)
      | none, none => (s, .refuse .machine o.va)
      | none, some loc =>
        let s := s.flushAll c (readSectors s o.va n)
        let bytes := homeBytes s o.va loc
        (s.installClean c o.va dom bytes (if view then 0 else s.tagPair loc),
          .answer (loadVals n sx (sectorField (o.seen bytes) o.va n)))
    | a =>
      match opCheck s c me o.va n with
      | .error f => (s, .refuse f o.va)
      | .ok loc =>
        let s := if a.readsWords || a.fills then s.flushAll c (sectorsOf o.va n) else s
        let bytes := s.load (loc / 32 * 32) 32
        match a with
        | .loadCap keep =>
          let v := capVal keep (BitVec.ofNat 128 (sectorField (o.seen bytes) o.va 16)) (o.seenTag (s.tagAt loc))
          (s.installClean c o.va dom bytes (s.tagPair loc), .answer [v])
        | .loadAcq n => (s, .answer (loadVals n false (sectorField (o.seen bytes) o.va n)))
        | .storeRel n v =>
          let s := (s.dropOthers t o.va (byteMask (o.va.toNat % 32) n)).noteRelease true loc c
          (s.modHome (holder loc) (fun k =>
            { k with wbuf := k.wbuf ++ [⟨o.va, loc / 32, loc, n, v, me, c⟩] }), .answer [])
        | .amo fn n v ord =>
          let s := s.dropSpan t o.va n
          let old := s.load loc n
          let s := ((s.store loc n (amoVal fn n old (v.toNat % 2 ^ (8 * n)))).wrote o.va loc n).noteRelease ord.isRel loc c
          (s, word old)
        | .cas n old new ord =>
          let s := s.dropSpan t o.va n
          let cur := s.load loc n
          let s := if cur = old.toNat % 2 ^ (8 * n) then (s.store loc n new.toNat).wrote o.va loc n else s
          (s.noteRelease ord.isRel loc c, word cur)
        | .wld take =>
          if s.feAt loc then
            (if take then s.setFe loc false else s, word (sectorField (o.seen bytes) o.va 8))
          else s.leaveWait h loc (if take then .take else .wld) t o
        | .fill v =>
          match s.fillWord o.va loc v with
          | some s => ((s.dropOthers t o.va (byteMask (o.va.toNat % 32) 8)).noteRelease true loc c, .answer [])
          | none => (s, .refuse .doubleFill o.va)
        | .empty => (s.setFe loc false, .answer [])
        | .fest => (s, word (s.feAt loc).toNat)
        | .waitne cmp =>
          let x := sectorField (o.seen bytes) o.va 8
          if BitVec.ofNat 64 x != cmp then (s, word x) else s.leaveWait h loc (.waitne cmp) t o
        | .topkins sc id => (s.dropSpan t o.va (listBytes s loc)).topkInsert c me o.va loc (capTop o.slot1.bits) sc id
        | .join | .leave | .gbar => (s.dropSpan t o.va 16).groupAct h t th o loc
        | _ => (s, .answer [])

/-- The values of an operation once its last message is performed: a box is judged then (12 R297, R298). -/
def Op.finalVals (s : State) (o : Op) (vs : List Val) : List Val :=
  match o.act with
  | .msense dom _ _ => senseVals (s.mark dom).dims o.cells
  | .msamp dom _ _ u => sampVals (s.mark dom).dims ((s.mark dom).temper o.ticks) u.toNat o.cells
  | .split v w => [v, w]
  | _ => vs
/-- One message of an operation performed: the last one completes it (11 R256). -/
def State.opStep (s : State) (t op : Nat) (vs : List Val) : State :=
  s.modThread t (fun th => th.modOp op (fun o =>
    match o.phase with
    | .sent n => if n ≤ 1 then { o with phase := .done (o.finalVals s vs) } else { o with phase := .sent (n - 1) }
    | _ => o))
/-- An operation refused at its home: a release store is no longer pending (13 R318), and a PREF is simply done (11 R260). -/
def State.refuseOp (s : State) (t op : Nat) (c : Code) (a : Word) : State :=
  match s.thread t, (s.thread t).bind (fun th => th.op op) with
  | some th, some o =>
    let s := match o.act with
      | .storeRel .. => s.modCore (tcore t) (fun k => { k with pending := k.pending.erase (o.va.toNat / 32, th.owner t) })
      | _ => s
    s.modThread t (fun th => th.modOp op (fun o => { o with phase := match o.act with | .pref _ => .done [] | _ => .refusing c a }))
  | _, _ => s
/-- A reply taken to its operation. -/
def State.takeReply (s : State) (t op : Nat) (r : Reply) : State :=
  match r with
  | .answer vs => s.opStep t op vs
  | .refuse c a => s.refuseOp t op c a
  | .waits => s.modThread t (fun th => th.modOp op (fun o => { o with phase := .waiting }))
  | .full => s.modThread t (fun th => th.modOp op (fun o => { o with phase := .resend }))

/-- The check of a masked write at its home, on the words it touches (10 R231, R243). -/
def writeCheck (s : State) (va : Word) (loc : Nat) (mask : BitVec 32) (me : Owner) : Option Code :=
  let touched (i : Nat) : Bool := mask.extractLsb' (8 * i) 8 != 0
  if (List.range 4).any (fun i => touched i && markAt s (sectorVa va + BitVec.ofNat 64 (8 * i)) 8 (holder loc)) then
    some .wrongClass
  else if mask != BitVec.allOnes 32 && s.poisonAt loc then some .poison
  else if raceAt s loc me then some .race
  else none

/-- A masked write of a plain store performed at home h (10 R235, R236, R238; 13 R316, R317, R329): merged with a buffered
release store that covers it, else written through and registered; the home's checks come before either (R314). -/
def State.performWrite (s : State) (m : Msg) (t : Nat) (va : Word) (mask : BitVec 32) (data : BitVec 256)
    (tag : Option Bool) : State × Reply :=
  let me := m.owner
  match storage s (tcore t) va with
  | none => (s, .refuse .machine va)
  | some loc =>
    let h := holder loc
    let covers (b : BufStore) : Bool :=
      b.sector == loc / 32 && b.owner == me && (mask &&& ~~~(byteMask (b.loc % 32) b.size)) == 0
    match writeCheck s va loc mask me with
    | some c => (s, .refuse c va)
    | none =>
    match (s.home h).wbuf.filter (fun b => b.sector == loc / 32 && b.owner == me
        && (mask &&& byteMask (b.loc % 32) b.size) != 0) with
    | [b] =>
      if covers b then
        let old := b.v.bits.toNat * 2 ^ (8 * (b.loc % 32))
        let v := mergeBytes mask old data.toNat / 2 ^ (8 * (b.loc % 32))
        (s.modHome h (fun k => { k with wbuf := k.wbuf.map (fun x =>
          if x == b then { b with v := ⟨BitVec.ofNat 128 v, tag.getD false⟩ } else x) }), .answer [])
      else alone h loc
    | _ => alone h loc
where
  alone (h loc : Nat) : State × Reply :=
    let key := va.toNat / 32
    let s := (s.dropOthers t va mask).flushBuffer h (loc / 32)
    let s := (s.storeMasked loc mask data (mergeTags mask 0 tag)).wrote va loc 32
    let shed := match s.thread t with | some th => th.shed.contains key | none => false
    if selector va == 0 then
      if shed then (s, .answer [])
      else
        let r := s.register loc m.owner
        (r.1.modThread t (fun x => if r.2 == .shed then { x with shed := key :: x.shed } else x.wroteSector key), .answer [])
    else ({ s with owners := tput s.owners (loc / 32) m.owner }, .answer [])

end Sys2Proof.Machine
end

