-- ==== Sys2Proof/Machine/Engine.lean ====
section
/-!
DEFINITION. The engines of a core (11 R271 to R281, 18 R420): issue checks, acceptance, elements of a COPY, folios, and
completion writes.
-/

namespace Sys2Proof.Machine

/-! ### Checks at issue -/

/-- What an engine's span or completion word asks (10 R232, 11 R272). -/
def wantRead : Want := ⟨permR ||| permEN, permR ||| permEN, true, false, false⟩
def wantWrite : Want := ⟨permW ||| permEN, permW ||| permEN, false, false, false⟩
def wantCompl (fill : Bool) : Want :=
  let need := if fill then permW ||| permFE else permW
  ⟨need, need, false, false, false⟩
/-- The fault of a span's check, with its cause address. -/
def spanCheck (s : State) (th : Thread) (v : Val) (w : Want) (va : Word) (n align : Nat) : Option Stop :=
  if n = 0 then none
  else match accessCheck s th v w va n align with | some c => some (.trap c va) | none => none
/-- The check of a completion capability (11 R272). -/
def complCheck (s : State) (th : Thread) (mode : Compl) (v : Val) : Option Stop :=
  match mode with
  | .none => none
  | .write => spanCheck s th v (wantCompl false) (capCursor v.bits) 8 8
  | .fill => spanCheck s th v (wantCompl true) (capCursor v.bits) 8 8
/-- The park of a full engine queue, operations on their way to it counted (11 R271). -/
def engineFull (s : State) (c : Nat) : Bool :=
  let coming := (s.threads.filter (fun x => tcore x.1 == c)).map (fun x =>
    (x.2.ops.filter (fun o => match o.act with | .engine _ => true | _ => false)).length)
  Config.engineQueueSize ≤ (s.core c).engine.length + coming.sum

/-! ### COPY (11 R275, R276) -/

/-- Elements of a shape. -/
def dimsTotal (ds : List Dim) : Nat := (ds.map Dim.ext).foldl (· * ·) 1
/-- The offset of element i of a shape by one of its strides, dimension 0 fastest. -/
def dimsOffset (stride : Dim → Int) : List Dim → Nat → Int
  | [], _ => 0
  | d :: r, i => ((i % d.ext : Nat) : Int) * stride d + dimsOffset stride r (i / d.ext)
/-- The lowest and highest offset of an element (11 R275). -/
def dimsLow (stride : Dim → Int) (ds : List Dim) : Int := (ds.map (fun d => min 0 (((d.ext : Int) - 1) * stride d))).sum
def dimsHigh (stride : Dim → Int) (ds : List Dim) : Int := (ds.map (fun d => max 0 (((d.ext : Int) - 1) * stride d))).sum
/-- A shape block from its bytes: element size and dimensions, or FORMAT_MISMATCH (11 R275). -/
def shapeOf (bytes : List Byte) : Option (Nat × List Dim) :=
  let f (off n : Nat) : Nat := leNat ((bytes.drop off).take n)
  let nd := f 0 1
  let sz := f 1 1
  if nd = 0 || 7 < nd || 5 < sz || f 2 14 != 0 then none
  else
    let ds := (List.range nd).map (fun m =>
      (⟨f (16 + 24 * m) 4, signed 64 (f (24 + 24 * m) 8), signed 64 (f (32 + 24 * m) 8)⟩ : Dim))
    if (List.range nd).any (fun m => f (20 + 24 * m) 4 != 0) || 2 ^ 40 < dimsTotal ds * 2 ^ sz then none
    else some (2 ^ sz, ds)
/-- ALIGN and the span checks of both sides (11 R275). -/
def copyCheck (s : State) (th : Thread) (a b : Val) (esz : Nat) (ds : List Dim) : Option Stop :=
  let ca := (capCursor a.bits).toNat
  let cb := (capCursor b.bits).toNat
  let off (x : Int) : Bool := x % (esz : Int) != 0
  let side (v : Val) (w : Want) (stride : Dim → Int) : Option Stop :=
    let lo := dimsLow stride ds
    let n := (dimsHigh stride ds - lo).toNat + esz
    let at_ : Int := ((capCursor v.bits).toNat : Int) + lo
    if at_ < 0 || (2 ^ 64 : Int) < at_ + n then
      -- TAG, SEALED and PERM come first (05 R106)
      some (.trap (match capCheck v w.need 0 0 1 with | some c => c | none => .bounds) (ofInt 64 at_))
    else spanCheck s th v w (ofInt 64 at_) n 1
  if ca % esz != 0 || cb % esz != 0 || ds.any (fun d => off d.sstr || off d.dstr) then
    some (.trap .align (capCursor a.bits))
  else if dimsTotal ds = 0 then none
  else match side a wantWrite Dim.dstr with
    | some f => some f
    | none => side b wantRead Dim.sstr

/-! ### Operations of an engine -/

def Core.engOp (k : Core) (id : BitVec 16) : Option EngOp := k.engine.find? (fun e => e.id == id)
def State.modEng (s : State) (c : Nat) (id : BitVec 16) (f : EngOp → EngOp) : State :=
  s.modCore c (fun k => { k with engine := k.engine.map (fun e => if e.id == id then f e else e) })
/-- An operation accepted: it takes the next ID (11 R271). Answers d. -/
def State.acceptEngine (s : State) (c : Nat) (e : EngOp) : State × Val :=
  let id := (s.core c).engNext
  (s.modCore c (fun k => { k with engine := k.engine ++ [{ e with id := id, since := s.cycle }], engNext := id + 1 }),
    Val.ofWord (BitVec.ofNat 64 (c * 2 ^ 16 + id.toNat)))
/-- Source and destination of element i (11 R276). -/
def EngOp.source (e : EngOp) (i : Nat) : Word := ofInt 64 (((capCursor e.b.bits).toNat : Int) + dimsOffset Dim.sstr e.dims i)
def EngOp.target (e : EngOp) (i : Nat) : Word := ofInt 64 (((capCursor e.a.bits).toNat : Int) + dimsOffset Dim.dstr e.dims i)
/-- The read of the next element sent to its home; a stopped core's engine sends none (15 R380). -/
def State.nextElement (s : State) (c : Nat) (e : EngOp) : State :=
  if e.progress < dimsTotal e.dims && e.failed.isNone && !(s.core c).stopped then
    let va := e.source e.progress
    s.send (.core c) (.core (targetCore s c va)) (engineOwner c e.id) (.engRead c e.id va)
  else s
/-- A failure found by the engine (11 R272, R276): the first one stands. -/
def State.failEng (s : State) (c : Nat) (id : BitVec 16) (code : Code) : State :=
  s.modEng c id (fun e => if e.failed.isSome then e else { e with failed := some code })
/-- An element read at its home, and sent on to be written (11 R276). -/
def State.elementRead (s : State) (c : Nat) (id : BitVec 16) (va : Word) : State :=
  match (s.core c).engOp id with
  | none => s
  | some e =>
    let me := engineOwner c id
    let view := selector va == 0 && (viewOf s (va56 va)).isSome
    let bad := if view then readCheck s c me (readSectors s va e.esize) else
      (match opCheck s c me va e.esize with | .error f => some f | .ok _ => none)
    match bad, storage s c (storedVa s va) with
    | some f, _ => s.failEng c id f
    | none, none => s.failEng c id .machine
    | none, some loc =>
      let s := s.flushAll c (readSectors s va e.esize)
      let v := sectorField (homeBytes s va loc) va e.esize
      let dst := e.target e.progress
      s.send (.core c) (.core (targetCore s c dst)) me (.engWrite c id dst (BitVec.ofNat 256 v))
/-- A payload write of an engine at its home (10 R241, 13 R312, R316, R317). -/
def State.payloadWrite (s : State) (c : Nat) (id : BitVec 16) (va : Word) (n v : Nat) : State × Option Code :=
  let me := engineOwner c id
  match storage s c va with
  | none => (s, some .machine)
  | some loc =>
    let i := va.toNat % 32
    match writeCheck s va loc (byteMask i n) me with
    | some f => (s, some f)
    | none =>
      let s := s.flushBuffer (holder loc) (loc / 32)
      let s := (s.storeMasked loc (byteMask i n) (BitVec.ofNat 256 (v * 2 ^ (8 * i))) 0).wrote va loc n
      (if selector va == 0 then (s.register loc me).1 else { s with owners := tput s.owners (loc / 32) me }, none)
/-- An element written at its home; the next one follows (11 R276). -/
def State.elementWrite (s : State) (c : Nat) (id : BitVec 16) (va : Word) (v : Nat) : State :=
  match (s.core c).engOp id with
  | none => s
  | some e =>
    let r := s.payloadWrite c id va e.esize v
    match r.2 with
    | some f => r.1.failEng c id f
    | none =>
      let e2 := { e with progress := e.progress + 1 }
      (r.1.modEng c id (fun _ => e2)).nextElement c e2

/-! ### Folios (11 R278) -/

/-- One step of CRC-32C on a bit. -/
def crcBit (c : Nat) : Nat := if c % 2 = 1 then (c / 2) ^^^ 0x82F63B78 else c / 2
/-- CRC-32C (Castagnoli) of bytes. -/
def crc32c (bytes : List Byte) : Nat :=
  (bytes.foldl (fun c b =>
    crcBit (crcBit (crcBit (crcBit (crcBit (crcBit (crcBit (crcBit (c ^^^ b.toNat))))))))) 0xFFFFFFFF) ^^^ 0xFFFFFFFF
/-- Whether a page lies in a plane window's stored range, so that its image is plane-major. -/
def planeMajor (s : State) (va : Word) : Bool :=
  match storedIn s (va56 va) with | some w => isPlaneType (windowFormat w) | none => false
/-- Offset in the page of byte i of a plane-major image: plane line j of unit u. -/
def planeOffset (i : Nat) : Nat := i % 32768 / 128 * 1024 + i / 32768 * 128 + i % 128
/-- The image of 4 KiB chunk i of a page's bytes. -/
def chunkOf (major : Bool) (page : Nat → Byte) (i : Nat) : List Byte :=
  (List.range 4096).map (fun k => page (if major then planeOffset (4096 * i + k) else 4096 * i + k))
/-- The chunks a folio holds: not all zero and, plane-major, of a kept plane. -/
def presentChunks (major : Bool) (planes : Nat) (page : Nat → Byte) : List Nat :=
  (List.range 64).filter (fun i => (!major || planes / 2 ^ (i / 8) % 2 == 1) && (chunkOf major page i).any (· != 0))
/-- A folio of a page (11 R278). -/
def folioOf (major : Bool) (planes : Nat) (va : Word) (session : Quad) (page : Nat → Byte) : List Byte :=
  let cs := presentChunks major planes page
  let head := leBytes 4 0x314C4F46 ++ leBytes 2 1 ++ leBytes 1 planes ++ leBytes 1 major.toNat ++ leBytes 8 va.toNat
    ++ leBytes 16 session.toNat ++ leBytes 8 (cs.map (2 ^ ·)).sum ++ leBytes 4 (4096 * cs.length) ++ leBytes 16 0
  let payload := (cs.map (chunkOf major page)).flatten
  head ++ leBytes 4 (crc32c (head ++ payload)) ++ payload
/-- The fields of a folio's header. -/
def folioField (l : List Byte) (off n : Nat) : Nat := leNat ((l.drop off).take n)
/-- Chunks named by CHUNKS. -/
def folioChunks (l : List Byte) : List Nat := (List.range 64).filter (fun i => folioField l 32 8 / 2 ^ i % 2 == 1)
/-- The checks of a folio's header alone (11 R280). -/
def headerOk (l : List Byte) : Bool :=
  folioField l 0 4 == 0x314C4F46 && folioField l 4 2 == 1 && folioField l 7 1 < 2 && folioField l 44 16 == 0
  && folioField l 40 4 == 4096 * (folioChunks l).length
/-- The checks of ARCIN (11 R280); a session of z accepts any. -/
def folioOk (l : List Byte) (session : Option Quad) : Bool :=
  let len := folioField l 40 4
  headerOk l && 64 + len ≤ l.length
  && folioField l 60 4 == crc32c (l.take 60 ++ (l.drop 64).take len)
  && (match session with | some q => folioField l 16 16 == q.toNat | none => true)
/-- Byte i of the page a folio restores (11 R280). -/
def folioByte (l : List Byte) (i : Nat) : Byte :=
  let major := folioField l 7 1 == 1
  let at_ := if major then i / 128 % 8 * 32768 + i / 1024 * 128 + i % 128 else i
  let cs := folioChunks l
  match (List.range cs.length).find? (fun r => cs.getD r 64 == at_ / 4096) with
  | some r => l.getD (64 + 4096 * r + at_ % 4096) 0
  | none => 0

/-! ### Drives (18 R420, R421) -/

/-- Whether a shelf lies in a domain's shelf range (11 R277, 16 R390). -/
def shelfLeased (s : State) (dom : BitVec 16) (shelf : Nat) : Bool :=
  match leaseEntry s dom with
  | some a => s.loadFresh (a + 56) 8 ≤ shelf && shelf < s.loadFresh (a + 56) 8 + s.loadFresh (a + 64) 8
  | none => false
/-- A failed command counted (18 R421). -/
def State.driveFail (s : State) (n : Nat) (dword : BitVec 32) : State :=
  s.modDev (fun d => { d with arcq := tmod d.arcq n ArcQueue.reset (fun q =>
    { q with st := dword ++ q.st.extractLsb' 16 16 ++ BitVec.ofNat 16 (min 65535 ((q.st.extractLsb' 0 16).toNat + 1)) }) })
/-- The address of window offset 0 (18 R416). -/
def windowBase (s : State) : Nat := s.dev.hwin.toNat % 2 ^ 48 / 2 ^ 18 * 2 ^ 18
/-- The pages of n bytes. -/
def spanPages (va : Word) (n : Nat) : List Nat :=
  (List.range ((va.toNat + n - 1) / 2 ^ 18 - va.toNat / 2 ^ 18 + 1)).map (fun i => va.toNat / 2 ^ 18 + i)
/-- Whether n bytes lie inside the memory window, in pages of its domain or of every domain (18 R416, R421). -/
def inWindow (s : State) (va : Word) (n : Nat) : Bool :=
  let dom : BitVec 16 := s.dev.hwin.extractLsb' 48 16
  s.dev.hwin.getLsbD 0 && decide (windowBase s ≤ va.toNat) && n != 0 && decide (va.toNat + n ≤ windowBase s + 2 ^ 40)
  && (spanPages va n).all (fun p =>
    match walk s (p * 2 ^ 18) with
    | some l => l.domain == dom || l.domain == 0xFFFF
    | none => false)
/-- The bytes at an address, as their homes hold them. -/
def spanBytes (s : State) (va : Word) (n : Nat) : List Byte :=
  (List.range n).map (fun i =>
    match storage s noCore (va + BitVec.ofNat 64 i) with | some loc => memByte s.mem loc | none => 0)
/-- Bytes of one sector written by a party outside, or by the archive engine: tags cleared, never registered (18 R416). -/
def State.putPiece (s : State) (va : Word) (bytes : List Byte) : State :=
  match storage s noCore va with
  | some loc =>
    let i := va.toNat % 32
    let s := s.flushBuffer (holder loc) (loc / 32)
    (s.storeMasked loc (byteMask i bytes.length) (BitVec.ofNat 256 (leNat bytes * 2 ^ (8 * i))) 0).wrote (sectorVa va) (loc / 32 * 32) 32
  | none => s
/-- Bytes written sector by sector. -/
def State.putSpan (s : State) (va : Word) (bytes : List Byte) : State :=
  (pieces va bytes.length).foldl (fun s x =>
    let s := match storage s noCore x.1 with | some loc => s.needLine loc true | none => s
    s.putPiece x.1 ((bytes.drop (x.1.toNat - va.toNat)).take x.2)) s
/-- Blocks of a drive's staging area that operations hold: first and number. -/
def stageUse (s : State) (n : Nat) : List (Nat × Nat) :=
  s.cores.flatMap (fun x => (x.2.engine.filter (fun e => e.kind != .copy && e.progress != 0 && !e.answered && e.drive == n)).map
    (fun e => (e.stage, e.held)))
/-- The first run of free blocks of a drive's staging area (log 57). -/
def stageRoom (s : State) (n need : Nat) : Option Nat :=
  (List.range (257 - need)).find? (fun b => (stageUse s n).all (fun u => decide (b + need ≤ u.1) || decide (u.1 + u.2 ≤ b)))
/-- An entry of the submission queue: Read or Write of the NVM command set (18 R420; its layout is that standard's, log 57). -/
def sqEntry (write : Bool) (cid nsid : Nat) (prp1 prp2 lba : Word) (blocks : Nat) : List Byte :=
  leBytes 1 (if write then 1 else 2) ++ leBytes 1 0 ++ leBytes 2 cid ++ leBytes 4 nsid ++ leBytes 16 0
  ++ leBytes 8 prp1.toNat ++ leBytes 8 prp2.toNat ++ leBytes 8 lba.toNat ++ leBytes 4 (blocks - 1) ++ leBytes 12 0
/-- Whether a drive can take one more command: EN stands, and a queue of DEPTH entries holds one fewer. -/
def driveOpen (q : ArcQueue) : Bool :=
  q.cfg.getLsbD 0 && q.closing.isNone
  && decide ((q.st.extractLsb' 16 16).toNat + 1 < (q.cfg.extractLsb' 10 11).toNat)
/-- A command for blocks `first` to `first + count − 1` of an operation's staging blocks: its PRP entries and its queue entry are
written in device memory and the doorbell is rung (18 R420, R421). Queues and staging outside the window fail it (log 57). -/
def State.sendCommand (s : State) (c : Nat) (e : EngOp) (first count progress : Nat) : State :=
  let q := tget s.dev.arcq e.drive ArcQueue.reset
  let link := (q.cfg.extractLsb' 1 1).toNat
  let depth := (q.cfg.extractLsb' 10 11).toNat
  let at_ (i : Nat) : Word := q.stage + BitVec.ofNat 64 (4096 * (e.stage + i))
  let bus (va : Word) : Word := Config.bar4Address link + (va - BitVec.ofNat 64 (windowBase s))
  let list := at_ (e.held - 1)
  let sq := q.sqaddr + BitVec.ofNat 64 (64 * q.tail)
  if !(inWindow s q.stage (2 ^ 20) && inWindow s q.sqaddr (64 * depth) && inWindow s q.cqaddr (16 * depth)) then
    s.failEng c e.id .machine
  else
    let prp2 : Word := if count ≤ 1 then 0 else if count = 2 then bus (at_ (first + 1)) else bus list
    let s := if count ≤ 2 then s else
      s.putSpan list ((List.range (count - 1)).flatMap (fun i => leBytes 8 (bus (at_ (first + 1 + i))).toNat))
    let s := s.putSpan sq (sqEntry (e.kind != .arcin) e.stage (q.cfg.extractLsb' 32 32).toNat (bus (at_ first)) prp2
      (e.lba + BitVec.ofNat 64 first) count)
    let tail := (q.tail + 1) % max 1 depth
    let s := s.modDev (fun d => { d with arcq := tput d.arcq e.drive { q with tail := tail } })
    let s := s.modEng c e.id (fun _ => { e with progress := progress, since := s.cycle })
    (s.driveOut e.drive true).emit (.hostWrite link q.sqdb.toNat (leBytes 4 tail))
/-- The bytes of a page as its homes hold them for an engine. -/
def pageByte (s : State) (va : Word) (i : Nat) : Byte :=
  match storage s noCore va with
  | some loc => memByte s.mem (loc + i)
  | none => 0
/-- The first refusal of an engine's read of a page (10 R231, R243). -/
def pageCheck (s : State) (c : Nat) (me : Owner) (va : Word) : Option Code :=
  readCheck s c me ((List.range 8192).map (fun i => va + BitVec.ofNat 64 (32 * i)))
/-- The folio an ARCOUT writes, its page read by the engine; the header block of an ARCDROP; nothing for an ARCIN. -/
def State.folioFor (s : State) (c : Nat) (e : EngOp) : State × Except Code (List Byte) :=
  match e.kind with
  | .arcout =>
    let va := capCursor e.a.bits
    let s := s.pullSpan c va (2 ^ 18)
    (match pageCheck s c (engineOwner c e.id) va with
    | some f => (s, .error f)
    | none =>
      let s := s.flushAll c ((List.range 8192).map (fun i => va + BitVec.ofNat 64 (32 * i)))
      (s, .ok (folioOf (planeMajor s va) (bitsOf e.b.bits 64 8) va e.c.bits (pageByte s va))))
  -- the rest of the block is zero as well (log 57)
  | .arcdrop => (s, .ok (List.replicate 4096 0))
  | _ => (s, .ok [])
/-- Blocks of a folio of n bytes (18 R420). -/
def folioBlocks (n : Nat) : Nat := (n + 4095) / 4096
/-- The first command of an archive operation sent to the drive of its shelf, once that has room in its queue and its staging area;
none enabled fails it. -/
def State.submit (s : State) (c : Nat) (e : EngOp) : Option State :=
  match shelfPlace s e.shelf with
  | none => some (s.failEng c e.id .machine)
  | some (n, lba) =>
    let q := tget s.dev.arcq n ArcQueue.reset
    if !driveOpen q then none
    else
      let r := s.folioFor c e
      (match r.2 with
      | .error f => some (r.1.failEng c e.id f)
      | .ok folio =>
        let blocks := if e.kind == .arcin then 65 else folioBlocks folio.length
        let need := if 2 < blocks then blocks + 1 else blocks
        (stageRoom s n need).map (fun b =>
          let e1 := { e with drive := n, lba := lba, stage := b, held := need, blocks := blocks }
          let s1 := if e.kind == .arcin then r.1 else
            r.1.putSpan (q.stage + BitVec.ofNat 64 (4096 * b)) (folio ++ List.replicate (4096 * blocks - folio.length) 0)
          s1.sendCommand c e1 0 (if e.kind == .arcin then 1 else blocks) 1))
/-- The command for the blocks after the header's of an ARCIN (18 R420). -/
def State.submitRest (s : State) (c : Nat) (e : EngOp) : Option State :=
  if driveOpen (tget s.dev.arcq e.drive ArcQueue.reset) then some (s.sendCommand c e 1 (e.blocks - 1) 3) else none
/-- Whether a running archive operation has a command to send. -/
def EngOp.wantsDrive (e : EngOp) : Bool :=
  e.kind != .copy && e.running && e.failed.isNone && !e.revoked && !e.answered && e.progress % 2 == 0
/-- The next command of such an operation, where its drive has room. -/
def State.nextCommand (s : State) (c : Nat) (e : EngOp) : Option State :=
  if !e.wantsDrive then none else if e.progress == 0 then s.submit c e else s.submitRest c e
/-- An operation started (11 R271): the first element of a COPY, or the first command of an archive operation, which else waits for
its drive. -/
def State.startEngine (s : State) (c : Nat) (e : EngOp) : State :=
  let e := { e with running := true, since := s.cycle }
  let s := s.modEng c e.id (fun _ => e)
  match e.kind with
  | .copy => s.nextElement c e
  | _ => (s.nextCommand c e).getD s
/-- The page of a folio written, sector by sector, metadata reset (11 R280, 10 R241); stops at a refusal. -/
def State.restorePage (s : State) (c : Nat) (id : BitVec 16) (va : Word) (l : List Byte) : State × Option Code :=
  (List.range 8192).foldl (fun r i =>
    match r.2 with
    | some _ => r
    | none =>
      let v := leNat ((List.range 32).map (fun k => folioByte l (32 * i + k)))
      let a := va + BitVec.ofNat 64 (32 * i)
      let x := r.1.payloadWrite c id a 32 v
      match x.2, storage x.1 c a with
      | none, some loc => ((List.range 4).foldl (fun s w => s.setFe (loc + 8 * w) true) x.1, none)
      | f, _ => (x.1, f)) (s, none)

/-! ### Completion (11 R272, 13 R313, R324) -/

/-- A completion FILL or release store of a value by a party: the code of a refusal (10 R231, 11 R267). -/
def State.completeWord (s : State) (c : Nat) (me : Owner) (mode : Compl) (va : Word) (v : Word) : State × Option Code :=
  match mode, storage s c va with
  | .none, _ => (s, none)
  | _, none => (s, some .machine)
  | m, some loc =>
    match homeCheck s va loc 8 me false with
    | some f => (s, some f)
    | none =>
      let s := ((s.waitRaise va 8).needLine loc true).flushBuffer (holder loc) (loc / 32)
      if m == .fill then
        match s.fillWord va loc v with
        | some s => (s, none)
        | none => (s, some .doubleFill)
      else ((s.store loc 8 v.toNat).wrote va loc 8, none)
/-- The failure value of a completion word (11 R272). -/
def failValue (code : Code) (id : BitVec 16) : Word :=
  BitVec.ofNat 64 (2 ^ 63 + code.num.toNat * 2 ^ 48 + id.toNat)
/-- The completion word's address: the capability of field e, or of field a of ARCDROP. -/
def EngOp.compl (e : EngOp) : Val := if e.kind == .arcdrop then e.a else e.e
/-- The end of an operation: registrations cleared, the completion write, the status remembered (11 R272, R273). -/
def State.endEngine (s : State) (c : Nat) (e : EngOp) : State :=
  let me := engineOwner c e.id
  let s := s.forget me
  let va := capCursor e.compl.bits
  let v := match e.failed with | some f => failValue f e.id | none => e.v
  let r := s.completeWord c me e.mode va v
  let s := if r.2 == some .doubleFill then
      r.1.causeRecord e.domain me c ⟨0, va, BitVec.ofNat 64 (s.tsAt c), .doubleFill⟩
    else r.1
  let code := match r.2, e.failed with | some f, _ => f.num | none, some f => f.num | none, none => 0
  s.modCore c (fun k => { k with
    engine := k.engine.filter (fun x => x.id != e.id)
    engDone := (⟨e.id, code⟩ :: k.engDone).take Config.engineRemembers })
/-- Whether a command of an archive operation is outstanding at its drive. -/
def EngOp.outstanding (e : EngOp) : Bool := e.kind != .copy && e.running && e.progress % 2 == 1 && !e.answered
/-- Whether an operation has come to its end; one whose command is outstanding waits for its drive. -/
def EngOp.ended (e : EngOp) : Bool :=
  e.running && !e.outstanding && (e.failed.isSome || e.revoked ||
    (match e.kind with | .copy => decide (dimsTotal e.dims ≤ e.progress) | _ => e.answered))

/-! ### ENGST (11 R273) -/

/-- The report on an ID. -/
def engstWord (k : Core) (id : BitVec 16) : Word :=
  let st : Nat × Nat := match k.engOp id, k.engDone.find? (fun d => d.id == id) with
    | some e, _ => (if e.running then 2 else 1, 0)
    | none, some d => (if d.code == 0 then 3 else 4, d.code.toNat)
    | none, none => (0, 0)
  BitVec.ofNat 64 (min 16 k.engine.length * 2 ^ 32 + id.toNat * 2 ^ 16 + st.2 * 2 ^ 8 + st.1)

end Sys2Proof.Machine
end

