-- ==== Sys2Proof/Machine/Matrix.lean ====
section
/-!
DEFINITION. Matrix operations (09 R200 to R217, 04 R92 to R95): operands, block scales, the order of sums, the verdict
monitor, the checks at issue and the completion that commits a tile.
-/

namespace Sys2Proof.Machine

/-! ### The verdict monitor (09 R214, R216) -/

/-- Rounded once to FP32 toward +inf. -/
def rup32 (x : Fp) : Fp := decodeFp f32 (round32 3 x)
/-- Mag and Err of a format (09 R216). -/
def magErr (t : BitVec 6) : Nat × Nat :=
  if isPlaneType t then (128, 2 ^ (8 - (t.toNat - 18)) - 1)
  else match t.toNat with
    | 1 => (128, 0) | 2 => (255, 0) | 16 => (8, 0) | 17 => (15, 0) | 18 => (2, 0) | 19 => (3, 0) | 14 => (6, 0)
    | _ => (0, 0)
/-- A term n·2^(sa + sb − 254); a scale code of 0xFF makes it +inf (log 16). -/
def scaledTerm (n sa sb : Nat) : Fp :=
  if sa = 255 || sb = 255 then .inf false else .fin false n ((sa : Int) + sb - 254)
/-- The exact sum of terms. -/
def sumFp (l : List Fp) : Fp := l.foldl Fp.plus (.fin false 0 0)
/-- rem(q): the terms of the blocks after q. -/
def remBound (ma mb b : Nat) (scales : List (Nat × Nat)) (q : Nat) : Fp :=
  rup32 (sumFp ((scales.drop (q + 1)).map (fun x => scaledTerm (ma * mb * b) x.1 x.2)))
/-- trunc(q): the view errors of the blocks up to q. -/
def truncBound (a b : Nat × Nat) (bs : Nat) (scales : List (Nat × Nat)) (q : Nat) : Fp :=
  let n := bs * (a.2 * b.1 + a.1 * b.2 + a.2 * b.2)
  if n = 0 then .fin false 0 0 else rup32 (sumFp ((scales.take (q + 1)).map (fun x => scaledTerm n x.1 x.2)))
/-- The tail bound of a register (09 R216). -/
def tailOf (bits : BitVec 32) : Fp :=
  match decodeFp f32 bits.toNat with
  | .nan .. => .inf false
  | .inf _ => .inf false
  | .fin neg m e => if m = 0 then .fin false 0 0 else if neg then .inf false else .fin false m e
/-- What the monitor knows at one block of one element. -/
structure Monitor where
  verd  : Verd
  need  : Bool
  theta : Fp
  q     : Nat
  rem   : Fp
  trunc : Fp
  tail  : Fp
  deriving DecidableEq, Repr
/-- AMAX after a block addition. -/
def amaxNext (old c : BitVec 32) : BitVec 32 :=
  if (decodeFp f32 c.toNat).isNan then Config.amaxOfNan c
  else if old.toNat < c.toNat % 2 ^ 31 then c &&& 0x7FFFFFFF else old
/-- The false and true tests of R214. -/
def falseTest (v : Verd) (x theta : Fp) : Bool :=
  match v with | .sign => x.lt (.fin false 0 0) | .ge => x.lt theta | .topk => x.lt theta || x.eq theta | .none => false
def trueTest (v : Verd) (x theta : Fp) : Bool :=
  match v with
  | .sign => (Fp.fin false 0 0).lt x || (Fp.fin false 0 0).eq x
  | .ge => theta.lt x || theta.eq x
  | .topk => theta.lt x
  | .none => false
/-- The bound of R216. -/
def monitorBound (x : Monitor) (w : VerdictWord) : Fp :=
  rup32 (sumFp [x.rem, x.trunc, x.tail, (Fp.fin false w.nadd (-24)).times (decodeFp f32 w.amax.toNat)])
/-- One block of a verdict (09 R216): the sum c with f added, and the decision. `f` is the rounded block sum, `open_` says
that it forbids decisions from here on. -/
def monitorStep (x : Monitor) (f : BitVec 32) (open_ : Bool) (c : BitVec 32) (w : VerdictWord) : BitVec 32 × VerdictWord :=
  match w.vst with
  | .isFalse | .isTrue => (c, w)
  | _ =>
    let c := BitVec.ofNat 32 (round32 1 ((decodeFp f32 c.toNat).plus (decodeFp f32 f.toNat)))
    let w := { w with nadd := min 65535 (w.nadd + 1), amax := amaxNext w.amax c, nodec := w.nodec || open_ }
    if w.vst == .kept || w.nodec then (c, w)
    else
      let s := decodeFp f32 c.toNat
      let b := monitorBound x w
      if falseTest x.verd (s.plus b) x.theta then (BitVec.ofNat 32 (0x7FA00000 + 2 * x.q), { w with vst := .isFalse })
      else if trueTest x.verd (s.plus b.negate) x.theta then
        (if x.verd == .topk || x.need then (c, { w with vst := .kept })
        else (BitVec.ofNat 32 (0x7FA00000 + 2 * x.q + 1), { w with vst := .isTrue }))
      else (c, w)

/-- VBOUND (09 R218): the sum of n scaled terms and v, rounded once toward +inf. -/
def vboundVal (fa fb : BitVec 6) (bs n : Nat) (a b : Quad) (v : Fp) : BitVec 32 :=
  let term (q : Nat) : Fp := scaledTerm ((magErr fa).1 * (magErr fb).1 * bs) (bitsOf a (8 * q) 8) (bitsOf b (8 * q) 8)
  BitVec.ofNat 32 (round32 3 (sumFp (v :: (List.range n).map term)))

/-! ### Operands (09 R201 to R204, R211) -/

/-- The shape of a job. -/
def MatrixJob.shape (m : MatrixJob) : MmaShape :=
  [shapeT32, shapeT64, shapeT128, shapeW, shapeH, shapeQ, shapeQ8, shapeT16, shapeST32, shapeST64, shapeSQ].getD m.kind shapeT32
/-- One operand: capability, stride, rows, format, block size, window, offset of its scales in the scale block, layout. -/
structure MatSide where
  v       : Val
  stride  : Nat
  rows    : Nat
  fmt     : BitVec 6
  block   : Nat
  win     : Option FormatWindow
  scaleAt : Nat
  sparse  : Bool
  deriving DecidableEq, Repr
def MatrixJob.sideA (m : MatrixJob) : MatSide := ⟨m.a, m.sta, m.shape.m, m.fa, m.ba, m.winA, 0, m.shape.sparse⟩
def MatrixJob.sideB (m : MatrixJob) : MatSide := ⟨m.b, m.stb, m.shape.n, m.fb, m.bb, m.winB, 512, false⟩
/-- Elements of a block of the sum: the smaller block size, at most K (09 R203). -/
def MatrixJob.blk (m : MatrixJob) : Nat := min m.shape.k (min m.ba m.bb)
/-- Address of row i (09 R201). -/
def MatSide.row (x : MatSide) (i : Nat) : Word := capCursor x.v.bits + BitVec.ofNat 64 (16 * x.stride * i)
/-- Bytes of the span of an operand with K elements a row (09 R207, R211). -/
def MatSide.bytes (x : MatSide) (k width : Nat) : Nat :=
  16 * x.stride * (x.rows - 1) + (if x.sparse then 16 + k else k * width / 8)
/-- The window an operand lies in: by its stored range, or by its view range for a plane window (09 R204, log 17). -/
def operandWindow (s : State) (v : Val) : Option FormatWindow :=
  let a := capCursor v.bits
  if selector a != 0 then none
  else s.windows.find? (fun w => windowValid w &&
    (if isPlaneType (windowFormat w) then
      decide (w.view.toNat ≤ va56 a) && decide (va56 a < w.view.toNat + w.len.toNat * 2 ^ 18 / 1024 * viewBytes (windowFormat w))
    else decide (w.base.toNat ≤ va56 a) && decide (va56 a < w.base.toNat + w.len.toNat * 2 ^ 18)))
/-- First address of the range in which a window's elements are counted (10 R244, R245). -/
def windowStart (w : FormatWindow) : Nat := if isPlaneType (windowFormat w) then w.view.toNat else w.base.toNat
/-- Block size of a window (16 R396). -/
def windowBlock (w : FormatWindow) : Nat := blockSize (w.cfg.extractLsb' 1 2)

/-- A byte as the matrix unit reads it, through the near slice in the issuer's lease domain (09 R210). -/
def matByte (s : State) (t : Nat) (th : Thread) (va : Word) : Nat :=
  let x := nearSector (s.core (tcore t)) va th.domain
  if x.st == .clean then x.data.toNat / 2 ^ (8 * (va.toNat % 32)) % 256
  else match viewOf s (va56 va), selector va with
    | some w, 0 => (viewByte s w (va56 va)).toNat
    | _, _ => match storage s (tcore t) va with
      | some loc => (threadSector s t th va loc).1.toNat / 2 ^ (8 * (va.toNat % 32)) % 256
      | none => 0
/-- n bytes as the matrix unit reads them. -/
def matBytes (s : State) (t : Nat) (th : Thread) (va : Word) (n : Nat) : Nat :=
  (List.range n).foldr (fun i acc => matByte s t th (va + BitVec.ofNat 64 i) + 256 * acc) 0
/-- Element k of a packed run at an address (04 R74). -/
def packedElem (s : State) (t : Nat) (th : Thread) (base : Word) (w k : Nat) : Nat :=
  matBytes s t th (base + BitVec.ofNat 64 (k * w / 8)) (max 1 (w / 8)) / 2 ^ (k * w % 8) % 2 ^ w
/-- Chunk mask of a row of an SMMA operand, bits at or above K/16 ignored (09 R211). -/
def chunkMask (s : State) (t : Nat) (th : Thread) (x : MatSide) (i k : Nat) : Nat :=
  matBytes s t th (x.row i) 2 % 2 ^ (k / 16)
/-- Kept chunks below chunk q. -/
def keptBelow (mask q : Nat) : Nat := ((List.range q).filter (fun j => mask / 2 ^ j % 2 == 1)).length
/-- Address of the record of chunk q. -/
def recordVa (x : MatSide) (i mask q : Nat) : Word := x.row i + BitVec.ofNat 64 (16 + 16 * keptBelow mask q)
/-- Position code p_t of a record. -/
def posCode (s : State) (t : Nat) (th : Thread) (rec_ : Word) (j : Nat) : Nat := matBytes s t th rec_ 2 / 2 ^ (2 * j) % 4
/-- Whether a record's positions rise within each pair (09 R211). -/
def recordOk (s : State) (t : Nat) (th : Thread) (rec_ : Word) : Bool :=
  (List.range 4).all (fun g => posCode s t th rec_ (2 * g) < posCode s t th rec_ (2 * g + 1))
/-- Bits of element k of row i; none for an element an SMMA operand elides. -/
def elemBits (s : State) (t : Nat) (th : Thread) (x : MatSide) (kk i k : Nat) : Option Nat :=
  let w := typeWidth x.fmt
  if x.sparse then
    let mask := chunkMask s t th x i kk
    if mask / 2 ^ (k / 16) % 2 = 0 then none
    else
      let r := recordVa x i mask (k / 16)
      match (List.range 8).find? (fun j => 4 * (j / 2) + posCode s t th r j == k % 16) with
      | some j => some (packedElem s t th (r + 8) w j)
      | none => none
  else some (packedElem s t th (x.row i) w k)
/-- The scale code of element k of row i (04 R92, R93; 09 R204; 10 R244): the address of its byte, none where it is 127. -/
def scaleVa (m : MatrixJob) (x : MatSide) (i k : Nat) : Option Word :=
  if !isBlockScaled x.fmt then none
  else match x.win with
    | some w =>
      let e := ((x.row i).toNat % 2 ^ 56 - windowStart w) * 8 / typeWidth x.fmt + k
      some (w.scale + BitVec.ofNat 64 (e / x.block))
    | none =>
      if m.c.tag then some (capCursor m.c.bits + BitVec.ofNat 64 (x.scaleAt + i * (m.shape.k / x.block) + k / x.block))
      else none
/-- As it was read at the start (09 R204). -/
def scaleCode (m : MatrixJob) (x : MatSide) (i k : Nat) : Nat :=
  match scaleVa m x i k with | some a => tget m.scales a.toNat 127 | none => 127

/-! ### Sums (04 R94, R95) -/

/-- The integer value of an element in an integer-class sum, of E2M1 twice its value (04 R80), and the exponent that goes
with its format (04 R95). -/
def intElem (t : BitVec 6) (bits : Nat) : Int :=
  if t == 14 then (match decodeFp t bits with
    | .fin neg m e => let v : Int := (m * 2 ^ (e + 1).toNat : Nat); if neg then -v else v
    | _ => 0)
  else intVal t bits
def intExp (t : BitVec 6) : Int := if isPlaneType t then 8 - ((t.toNat : Int) - 18) else if t == 14 then -1 else 0
/-- Whether a job's sums are those of the integer class (09 R202). -/
def MatrixJob.integer (m : MatrixJob) : Bool := m.fa != 14 && isIntegerClass m.fa || m.fa == 14 && m.verd != .none
/-- A block sum of R95 rounded to FP32, and whether it is inexact, infinite or scaled by 0xFF. -/
def blockSum (fa fb : BitVec 6) (sa sb : Nat) (a b : List Int) : BitVec 32 × Bool :=
  if sa = 255 || sb = 255 then (BitVec.ofNat 32 (defaultNan f32), true)
  else
    let n : Int := ((a.zip b).map (fun x => x.1 * x.2)).sum
    let x := Fp.fin (n < 0) n.natAbs ((sa : Int) + sb - 254 + intExp fa + intExp fb)
    let f := round32 1 x
    (BitVec.ofNat 32 f, !((decodeFp f32 f).eq x))
/-- A chunk sum of R94: products in ascending k, exact. `rdn` is rounding mode RDN (04 R77). -/
def chunkSum (rdn : Bool) (a b : List Fp) : Fp :=
  match a.zip b with
  | [] => .fin false 0 0
  | x :: r => r.foldl (fun acc y => (Fp.add rdn acc (y.1.times y.2)).1) (x.1.times x.2)
/-- A chunk added to c (04 R94). -/
def addChunk (mode : Nat) (c : BitVec 32) (sum : Fp) : BitVec 32 :=
  let f := decodeFp f32 (round32 mode sum)
  BitVec.ofNat 32 (round32 mode (Fp.add (mode == 4) (decodeFp f32 c.toNat) f).1)
/-- A scaled element of a float-class operand (04 R92). -/
def floatElem (t : BitVec 6) (sc bits : Nat) : Fp :=
  if sc = 255 then .default else (decodeFp t bits).scale ((sc : Int) - 127)

/-! ### An operation block by block -/

/-- Whether an element is still computed. -/
def liveElem (x : BitVec 32 × VerdictWord) : Bool := x.2.vst == .isOpen || x.2.vst == .kept
/-- Rows of a side that some live element uses. -/
def liveRows (sh : MmaShape) (elems : List (BitVec 32 × VerdictWord)) (rowSide : Bool) : List Nat :=
  let e (i j : Nat) : Bool := match elems[i * sh.n + j]? with | some x => liveElem x | none => false
  if rowSide then (List.range sh.m).filter (fun i => (List.range sh.n).any (fun j => e i j))
  else (List.range sh.n).filter (fun j => (List.range sh.m).any (fun i => e i j))
/-- The runs of bytes a row's block needs: address and length. -/
def blockRuns (s : State) (t : Nat) (th : Thread) (kk : Nat) (x : MatSide) (i q b : Nat) : List (Word × Nat) :=
  if x.sparse then
    let mask := chunkMask s t th x i kk
    (x.row i, 2) :: ((List.range (b / 16)).filter (fun j => mask / 2 ^ (q * b / 16 + j) % 2 == 1)).map
      (fun j => (recordVa x i mask (q * b / 16 + j), 16))
  else
    let w := typeWidth x.fmt
    [(x.row i + BitVec.ofNat 64 (q * b * w / 8), b * w / 8)]
/-- The refusal of a run as the unit fetches it (09 R210): what the near slice holds clean is not fetched. -/
def runFault (s : State) (t : Nat) (th : Thread) (r : Word × Nat) : Option (Code × Word) :=
  (sectorsOf r.1 r.2).foldl (fun f va =>
    match f with
    | some _ => f
    | none =>
      let c := tcore t
      if (nearSector (s.core c) va th.domain).st == .clean && !markAt s va 32 (targetCore s c va) then none
      else match readCheck s (tcore t) (matrixOwner (tcore t)) (readSectors s va 32) with
        | some c => some (c, va)
        | none => none) none
/-- The runs a block fetches: those of the rows that a live element uses (09 R210). -/
def blockFetch (s : State) (t : Nat) (th : Thread) (m : MatrixJob) (acc : MatAcc) (q : Nat) : List (Word × Nat) :=
  let side (x : MatSide) (rows : List Nat) : List (Word × Nat) :=
    (rows.map (fun i => blockRuns s t th m.shape.k x i q m.blk)).flatten
  side m.sideA (liveRows m.shape acc.elems true) ++ side m.sideB (liveRows m.shape acc.elems false)
/-- The first fault of a block's fetch: A rows, then B rows, ascending. -/
def blockFault (s : State) (t : Nat) (th : Thread) (m : MatrixJob) (acc : MatAcc) (q : Nat) : Option (Code × Word) :=
  let b := m.blk
  let sh := m.shape
  let side (x : MatSide) (rows : List Nat) (f : Option (Code × Word)) : Option (Code × Word) :=
    rows.foldl (fun f i =>
      (blockRuns s t th sh.k x i q b).foldl (fun f r =>
        match f with
        | some _ => f
        | none => match runFault s t th r with
          | some c => some c
          | none => if x.sparse && r.2 == 16 && !recordOk s t th r.1 then some (.formatMismatch, r.1) else none) f) f
  side m.sideB (liveRows sh acc.elems false) (side m.sideA (liveRows sh acc.elems true) none)
/-- A elements stored in block q of row i (09 R213). -/
def storedInBlock (s : State) (t : Nat) (th : Thread) (m : MatrixJob) (i q : Nat) : Nat :=
  if m.shape.sparse then 8 * ((blockRuns s t th m.shape.k m.sideA i q m.blk).length - 1) else m.blk
/-- Integer values of block q of row i. -/
def intBlock (s : State) (t : Nat) (th : Thread) (m : MatrixJob) (x : MatSide) (i q : Nat) : List Int :=
  (List.range m.blk).map (fun k => match elemBits s t th x m.shape.k i (q * m.blk + k) with | some v => intElem x.fmt v | none => 0)
/-- Float values of chunk ch of row i; none where an SMMA operand elides the whole chunk. -/
def floatChunk (s : State) (t : Nat) (th : Thread) (m : MatrixJob) (x : MatSide) (i ch : Nat) : Option (List Fp) :=
  let elided : Bool := x.sparse && chunkMask s t th x i m.shape.k / 2 ^ ch % 2 == 0
  if elided then none
  else some ((List.range 16).map (fun k =>
    let e := 16 * ch + k
    match elemBits s t th x m.shape.k i e with
    | some v => floatElem x.fmt (scaleCode m x i e) v
    | none => if scaleCode m x i e = 255 then .default else .fin false 0 0))
/-- Scale pairs of the blocks of element (i, j). DEDUCED (log 17): where a row starts inside a block of its window, the scale
of a sum block is that of its first element, while a floating sum takes each element's own (04 R93). -/
def scalePairs (m : MatrixJob) (i j : Nat) : List (Nat × Nat) :=
  (List.range (m.shape.k / m.blk)).map (fun q =>
    (scaleCode m m.sideA i (q * m.blk), scaleCode m m.sideB j (q * m.blk)))
/-- Whether a job samples a threshold (09 R205). -/
def MatrixJob.sampled (m : MatrixJob) : Bool := m.verd == .ge || m.verd == .topk
/-- The values that the threshold of a core's operation has had since its start, oldest first. -/
def Core.thetas (k : Core) : List (BitVec 32) := match k.theta with | some x => x.2 | none => []
/-- Which of n values a block samples, when its forerunner sampled value i: any from there on (09 R215; log 3). -/
def thetaAt (draw n i : Nat) : Nat := i + (Config.freeWord draw).toNat % max 1 (n - i)
/-- The refusal of a sample: a relaxed read is no RACE here, but may meet a poisoned sector or a mark cell (09 R215, 10 R243). -/
def thetaFault (s : State) (c : Nat) (m : MatrixJob) : Option (Code × Word) :=
  let va := capCursor m.thr.bits
  if !m.sampled then none
  else match storage s c va with
    | none => some (.machine, va)
    | some loc => if markAt s va 4 (holder loc) then some (.wrongClass, va) else if s.poisonAt loc then some (.poison, va) else none
/-- The next block of a job for every live element. -/
def matBlock (s : State) (t : Nat) (th : Thread) (m : MatrixJob) : MatAcc :=
  let sh := m.shape
  let acc := m.acc
  let q := acc.next
  match acc.fault with
  | some _ => acc
  | none =>
    match (match thetaFault s (tcore t) m with | some f => some f | none => blockFault s t th m acc q) with
    | some f => { acc with fault := some f }
    | none =>
      let vs := (s.core (tcore t)).thetas
      let ti := if vs.isEmpty then acc.theta else thetaAt s.draws vs.length acc.theta
      let theta := decodeFp f32 (vs.getD ti 0).toNat
      let work := ((List.range sh.m).map (fun i =>
        storedInBlock s t th m i q * ((List.range sh.n).filter (fun j =>
          match acc.elems[i * sh.n + j]? with | some x => liveElem x | none => false)).length)).sum
      let ra := (List.range sh.m).map (fun i => intBlock s t th m m.sideA i q)
      let rb := (List.range sh.n).map (fun j => intBlock s t th m m.sideB j q)
      let fa := (List.range sh.m).map (fun i => (List.range (m.blk / 16)).map (fun u => floatChunk s t th m m.sideA i (q * m.blk / 16 + u)))
      let fb := (List.range sh.n).map (fun j => (List.range (m.blk / 16)).map (fun u => floatChunk s t th m m.sideB j (q * m.blk / 16 + u)))
      let one (idx : Nat) (x : BitVec 32 × VerdictWord) : BitVec 32 × VerdictWord :=
        let i := idx / sh.n
        let j := idx % sh.n
        if m.integer then
          let sc := scalePairs m i j
          let f := blockSum m.fa m.fb (sc.getD q (127, 127)).1 (sc.getD q (127, 127)).2 (ra.getD i []) (rb.getD j [])
          if m.verd == .none then
            (BitVec.ofNat 32 (round32 1 ((decodeFp f32 x.1.toNat).plus (decodeFp f32 f.1.toNat))), x.2)
          else
            let a := magErr m.fa
            let b := magErr m.fb
            monitorStep ⟨m.verd, m.need, theta, q, remBound a.1 b.1 m.blk sc q, truncBound a b m.blk sc q,
              tailOf (m.e.bits.setWidth 32)⟩ f.1 f.2 x.1 x.2
        else
          (((fa.getD i []).zip (fb.getD j [])).foldl (fun c y =>
            match y with
            | (some a, some b) => addChunk m.round c (chunkSum (m.round == 4) a b)
            | _ => c) x.1, x.2)
      { acc with
        work := acc.work + work
        theta := ti
        next := q + 1
        elems := (List.range acc.elems.length).zip acc.elems |>.map (fun y => one y.1 y.2) }
/-- Elements of the tile as an operation starts on them (09 R209, R196, R90). -/
def startElems (tl : Tile) (m : MatrixJob) : List (BitVec 32 × VerdictWord) :=
  (List.range (m.shape.m * m.shape.n)).map (fun i =>
    let c := tget tl.elems i 0
    let w := tget tl.verd i VerdictWord.reset
    if m.zero then (0, VerdictWord.reset)
    else if m.verd == .none then
      (if w.vst == .isFalse || w.vst == .isTrue then c ||| 0x400000 else c, { w with vst := .isOpen })
    else (c, w))
/-- Whether a bf16 operand element of a job is abandoned (09 R207 step 6). -/
def operandAbandoned (s : State) (t : Nat) (th : Thread) (m : MatrixJob) : Bool :=
  let side (x : MatSide) : Bool := x.fmt == 11 && (List.range x.rows).any (fun i =>
    (List.range m.shape.k).any (fun k => match elemBits s t th x m.shape.k i k with | some v => isAbandoned 11 v | none => false))
  !m.pass && (side m.sideA || side m.sideB)
/-- Addresses of the scale bytes that a job's blocks from q on use; rows start 8 elements apart at least, and so do the blocks within
them. -/
def MatrixJob.scaleFrom (m : MatrixJob) (q : Nat) : List Word :=
  let of (x : MatSide) : List Word := (List.range x.rows).flatMap (fun i =>
    (List.range (m.shape.k / 8)).filterMap (fun j => if 8 * j < q * m.blk then none else scaleVa m x i (8 * j)))
  (of m.sideA ++ of m.sideB).foldl (fun l a => if l.contains a then l else l ++ [a]) []
def MatrixJob.scaleBytes (m : MatrixJob) : List Word := m.scaleFrom 0
/-- Scale bytes of a job fetched first: the first refusal (09 R210). -/
def scaleFault (s : State) (t : Nat) (th : Thread) (m : MatrixJob) : Option (Code × Word) :=
  m.scaleBytes.foldl (fun f a => match f with | some _ => f | none => runFault s t th (a, 1)) none
/-- A job as it starts: an abandoned operand, or a refused scale byte, is its fault (09 R207 step 6, R210). -/
def matStart (s : State) (t : Nat) (th : Thread) (tl : Tile) (m : MatrixJob) : MatAcc :=
  ⟨startElems tl m, 0, if operandAbandoned s t th m then some (.abandonedOperand, 0) else scaleFault s t th m, 0, 0⟩

/-! ### Rates (09 R200, R213) -/

/-- MACs a cycle of a format. -/
def rateOf (t : BitVec 6) : Nat :=
  match t.toNat with
  | 10 | 11 => 1024
  | 14 | 16 | 17 | 21 | 22 => 4096
  | 18 | 19 | 20 => 8192
  | _ => 2048
/-- Matrix cycles of an amount of work. -/
def MatrixJob.cycles (m : MatrixJob) (work : Nat) : Nat :=
  let r := min (rateOf m.fa) (rateOf m.fb)
  (work + r - 1) / r

/-! ### Claims (09 R198, R208) -/

/-- PRIVILEGE and the parks of R198, in order. -/
def tileStop (s : State) (t : Nat) (th : Thread) (i : Nat) : Option Stop :=
  let x := (s.core (tcore t)).tile i
  if isHandler t then some (.trap .privilege 0)
  else if (!x.free && x.owner != th.taskid) || x.busy || x.drain then some (.park (.tile i))
  else none
/-- Whether the matrix unit cannot be taken by a task: it works, or the claim of another comes first (09 R208). -/
def unitBusy (k : Core) (task : Word) : Bool :=
  k.matrix.isSome || (match k.claims with | x :: _ => x.1 != task | [] => false)
/-- The unit taken by operation `op` of a thread: its claim on it is served; and whether the tile was claimed with it. -/
def Core.takeUnit (k : Core) (t : Nat) (task : Word) (op : Nat) : Core × Bool :=
  ({ k with matrix := some (t, op), claims := k.claims.filter (fun x => x.1 != task) },
    k.claims.any (fun x => x.1 == task && x.2.isSome))

/-! ### The issue of an MMA or SMMA (09 R206 to R208) -/

/-- What operand spans, the scale block and the threshold slot ask (09 R207). -/
def wantOperand : Want := ⟨permR ||| permEN, permR ||| permEN, true, false, false⟩
def wantScale (slot : Bool) : Want :=
  let need := permR ||| permEN ||| (if slot then permLC else 0)
  ⟨need, permR ||| permEN, false, false, false⟩
def wantTheta : Want := ⟨permR, permR, false, false, false⟩
/-- The effective format of an operand, none where R204 forbids its code. -/
def sideFormat (code : BitVec 6) (w : Option FormatWindow) : Option (BitVec 6) :=
  match w with
  | some x => if code == 0 then some (windowFormat x) else none
  | none => if code == 0 then none else some code
/-- FORMAT_MISMATCH of R202, R204 and R214 for formats in force and block sizes. -/
def formatClash (fa fb : BitVec 6) (verd : Verd) (ba bb : Nat) : Bool :=
  let int (f : BitVec 6) : Bool := if f == 14 then verd != .none else isIntegerClass f
  int fa != int fb || (verd != .none && (!int fa || !int fb || ba != bb))
/-- The job of an MMA or SMMA, its windows captured. -/
def matrixJob (s : State) (th : Thread) (kind : Nat) (o : MmaOps) (v : Vals) (thr : Val) : MatrixJob :=
  let wa := operandWindow s v.a
  let wb := operandWindow s v.b
  let r := roundMode o.p th
  { kind := kind
    tile := o.d.toNat
    round := if r == 6 then 1 else r
    pass := o.p.pass
    a := v.a
    b := v.b
    c := if o.c == 256 then Val.zero else v.c
    e := v.e
    thr := thr
    sta := o.sta.toNat
    stb := o.stb.toNat
    fa := (sideFormat o.fa wa).getD o.fa
    fb := (sideFormat o.fb wb).getD o.fb
    ba := match wa with | some w => windowBlock w | none => blockSize o.ba
    bb := match wb with | some w => windowBlock w | none => blockSize o.bb
    winA := wa
    winB := wb
    verd := o.verd
    need := o.need
    zero := o.zero
    fpsnap := (fpstWord th).setWidth 9
    scales := []
    acc := ⟨[], 0, none, 0, 0⟩ }
/-- Steps 3 and 4 of R207 on the operands and the scale block, with the slot's capability (R205). -/
def matrixSpans (s : State) (t : Nat) (th : Thread) (o : MmaOps) (v : Vals) (m : MatrixJob) : Except Stop Val :=
  let width (f : BitVec 6) (w : Option FormatWindow) : Nat :=
    if f != 0 then typeWidth f else match w with | some x => typeWidth (windowFormat x) | none => 8
  let slot := o.verd == .ge || o.verd == .topk
  let hasC := o.c != 256
  let ca := capCursor v.a.bits
  let cb := capCursor v.b.bits
  let cc := capCursor v.c.bits
  let na := m.sideA.bytes m.shape.k (width o.fa m.winA)
  let nb := m.sideB.bytes m.shape.k (width o.fb m.winB)
  let nc := if slot then 1040 else 1024
  let nt := if o.verd == .ge then 4 else 8
  let fail (c : Code) (a : Word) : Except Stop Val := .error (.trap c a)
  match capCheck v.a (withSy wantOperand.need ca) ca.toNat na 16, capCheck v.b (withSy wantOperand.need cb) cb.toNat nb 16,
      (if hasC then capCheck v.c (withSy (wantScale slot).need cc) cc.toNat nc (if slot then 16 else 1) else none) with
  | some c, _, _ => fail c ca
  | _, some c, _ => fail c cb
  | _, _, some c => fail c cc
  | none, none, none =>
    let regions (thr : Val) : Except Stop Val :=
      match regionCheck s th.sup th.ranges wantOperand ca na, regionCheck s th.sup th.ranges wantOperand cb nb,
          (if hasC then regionCheck s th.sup th.ranges (wantScale slot) cc nc else none) with
      | some c, _, _ => fail c ca
      | _, some c, _ => fail c cb
      | _, _, some c => fail c cc
      | none, none, none =>
        if slot then
          (match regionCheck s th.sup th.ranges wantTheta (capCursor thr.bits) nt with
            | some c => fail c (capCursor thr.bits)
            | none => .ok thr)
        else .ok thr
    if slot then
      let sv := cc + 1024
      match regionCheck s th.sup th.ranges (wantScale true) cc nc with
      | some _ => regions Val.zero
      | none => match readGranule (s.pullSpan (tcore t) sv 16) t th sv with
        | .error c => fail c sv
        | .ok thr =>
          match capCheck thr (withSy permR (capCursor thr.bits)) (capCursor thr.bits).toNat nt nt with
          | some c => fail c (capCursor thr.bits)
          | none => regions thr
    else regions Val.zero
/-- Step 6 of R207 on what needs no fetch: e, and the tile's elements without predicate and `.z`. -/
def matrixAbandoned (s : State) (t : Nat) (m : MatrixJob) : Bool :=
  let tl := (s.core (tcore t)).tile m.tile
  !m.pass && ((m.verd != .none && isAbandoned f32 (m.e.bits.toNat % 2 ^ 32))
    || (m.verd == .none && !m.zero && (List.range (m.shape.m * m.shape.n)).any (fun i =>
      (let w := tget tl.verd i VerdictWord.reset; w.vst == .isFalse || w.vst == .isTrue))))
/-- The checks of R207 after step 2: the job, or the stop. -/
def matrixChecks (s : State) (t : Nat) (th : Thread) (kind : Nat) (o : MmaOps) (v : Vals) : Except Stop MatrixJob :=
  let m := matrixJob s th kind o v Val.zero
  match matrixSpans s t th o v m with
  | .error e => .error e
  | .ok thr =>
    if (sideFormat o.fa m.winA).isNone || (sideFormat o.fb m.winB).isNone || formatClash m.fa m.fb o.verd m.ba m.bb then
      .error (.trap .formatMismatch 0)
    else if matrixAbandoned s t m then .error (.trap .abandonedOperand 0)
    else .ok { m with thr := thr }

/-! ### Start and completion (09 R208 to R210, R216) -/

/-- Every pin of a core dropped but those of some lines, since only its matrix unit pins; lines that were never filled are free
again (09 R210). -/
def State.keepPins (s : State) (c : Nat) (keep : List Nat) : State :=
  let used (l : NearLine) : Bool := l.pins == 0 || l.sectors.any (fun x => x.2.st != .invalid)
  s.modCore c (fun k => { k with near := (k.near.filter used).map (fun l => if keep.contains l.line then l else { l with pins := 0 }) })
/-- A sector that an operation reads brought into the near slice, clean, and its line pinned; a set with every way pinned is
bypassed (09 R210, 10 R235, R236). -/
def State.pinSector (s : State) (t : Nat) (th : Thread) (va : Word) : State :=
  let c := tcore t
  match selector va, storage s c (storedVa s va), s.ensureLine c va th.domain with
  | 0, some loc, some s1 =>
    let x := homeSector s va loc
    let s2 := if (viewOf s (va56 va)).isSome then s1.installClean c va th.domain (homeBytes s va loc) 0
      else s1.installClean c va th.domain x.1.toNat x.2
    s2.modCore c (fun k => { k with near := k.near.map (fun l =>
      if l.line == lineOf va && l.domain == th.domain then { l with pins := 1 } else l) })
  | 0, some _, none => s.countCore c cBYPASS 1
  | _, _, _ => s
/-- The runs of an operation read through the near slice. -/
def State.pinRuns (s : State) (t : Nat) (th : Thread) (runs : List (Word × Nat)) : State :=
  (runs.flatMap (fun r => sectorsOf r.1 r.2)).foldl (fun s va => s.pinSector t th va) s
/-- The released bytes of runs pulled before they are read (13 R319). -/
def State.pullRuns (s : State) (c : Nat) (runs : List (Word × Nat)) : State :=
  runs.foldl (fun s r => s.pullSpan c r.1 r.2) s
/-- Whole rows of a job's operands, and the chunk masks of their first bytes. -/
def jobRows (m : MatrixJob) (masks : Bool) : List (Word × Nat) :=
  let rows (x : MatSide) : List (Word × Nat) := (List.range x.rows).map (fun i =>
    (x.row i, if x.sparse then (if masks then 2 else 16 + m.shape.k) else if masks then 0 else m.shape.k * typeWidth x.fmt / 8))
  (rows m.sideA ++ rows m.sideB).filter (fun r => r.2 != 0)
/-- Lines that a job's blocks still to come use, as its live elements stand (09 R210, R216). -/
def laterLines (s : State) (t : Nat) (th : Thread) (m : MatrixJob) : List Nat :=
  let runs := (List.range (m.shape.k / m.blk)).flatMap (fun q => if q < m.acc.next then [] else blockFetch s t th m m.acc q)
  ((runs.flatMap (fun r => sectorsOf r.1 r.2)) ++ m.scaleFrom m.acc.next).map lineOf
/-- The start of operation `op` once its issuer's release is done: its operands are looked through for abandoned encodings, its scale
bytes are read and its threshold is watched (09 R204, R207, R210, R215; log 82). -/
def State.startMatrix (s : State) (t : Nat) (th : Thread) (op : Nat) (m : MatrixJob) : State :=
  let c := tcore t
  let s := (s.pullRuns c (jobRows m false)).pullRuns c (m.scaleBytes.map (fun a => (a, 1)))
  let a := matStart s t th ((s.core c).tile m.tile) m
  let m1 := { m with scales := m.scaleBytes.foldl (fun l a => tput l a.toNat (matByte s t th a)) [], acc := a }
  let s := if a.fault.isNone then s.pinRuns t th (m.scaleBytes.map (fun a => (a, 1))) else s
  let va := capCursor m.thr.bits
  let s := if m.sampled then s.pullSpan c va 4 else s
  let theta := match m.sampled, storage s c va with
    | true, some loc => some (loc, [BitVec.ofNat 32 (sectorField (homeSector s va loc).1.toNat va 4)])
    | _, _ => none
  (s.modThread t (fun x => x.modOp op (fun o => { o with act := .matrix m1 }))).modCore c (fun k => { k with theta := theta })
/-- The charge of matrix cycles (09 R208, 14 R339). -/
def State.chargeMatrix (s : State) (t : Nat) (cycles : Nat) : State :=
  (s.modThread t (fun th =>
    if th.trapActive.isSome then th else { th with turns := th.turns - BitVec.ofNat 32 (min th.turns.toNat cycles) })).countCore
    (tcore t) cMACCYC cycles
/-- A thread returns to the rotation, unless a trap waits for it (11 R256, 15 R367). -/
def Thread.rejoin (th : Thread) : Thread := match th.status with | .out .. => { th with status := .ready } | _ => th
/-- Block indices of the elements a job has decided. -/
def newDecisions (old : List (BitVec 32 × VerdictWord)) (new : List (BitVec 32 × VerdictWord)) : List Nat :=
  ((old.zip new).filter (fun x => liveElem x.1 && !liveElem x.2)).map (fun x => x.2.1.toNat / 2 % 128)
/-- A tile's claim undone and its BUSY cleared when its instruction faults (09 R207, R221). -/
def State.unclaim (s : State) (c i : Nat) (claimed : Bool) : State :=
  s.modTile c i (fun x => if claimed then { x with busy := false, owner := 0, domain := 0, free := true } else { x with busy := false })
/-- The completion of a job (09 R208, R209, R216): its fault is its issuer's; else every result is committed together. -/
def State.completeMatrix (s : State) (t : Nat) (o : Op) (m : MatrixJob) : State :=
  let c := tcore t
  let tl := (s.core c).tile m.tile
  let r := m.acc
  let s := (s.keepPins c []).modCore c (fun k => { k with matrix := none, theta := none })
  let s := s.chargeMatrix t (m.cycles r.work)
  let back (s : State) (ph : Phase) : State := s.modThread t (fun x =>
    (x.modOp o.id (fun y => { y with phase := ph })).rejoin)
  match r.fault with
  | some f => back (s.unclaim c m.tile (o.ticks == 1)) (.refused f.1 f.2)
  | none =>
    let qs := newDecisions (startElems tl m) r.elems
    let s := (s.countCore c cABANDON qs.length)
    let s := qs.foldl (fun s q => s.sampleCore c 6 q) s
    let idx := List.range r.elems.length
    let s := s.modTile c m.tile (fun x =>
      let e0 := if m.zero then [] else x.elems
      let v0 := if m.zero then [] else x.verd
      { x with
        elems := (idx.zip r.elems).foldl (fun l y => tput l y.1 y.2.1) e0
        verd := (idx.zip r.elems).foldl (fun l y => tput l y.1 { y.2.2 with nodec := false }) v0
        shape := m.shape.code
        fpsnap := m.fpsnap
        busy := false })
    s.modThread t (fun x => (x.dropOp o.id).rejoin)
/-- The next block of a job: its lines are read through the near slice and pinned until the last block that uses them; after a fault
or the last block the job completes (09 R210). -/
def State.stepMatrix (s : State) (t : Nat) (th : Thread) (o : Op) (m : MatrixJob) : State :=
  let c := tcore t
  let s := if m.sampled then s.pullSpan c (capCursor m.thr.bits) 4 else s
  let s := s.pullRuns c (jobRows m true)
  let runs := if m.acc.fault.isSome then [] else blockFetch s t th m m.acc m.acc.next
  let s := s.pullRuns c runs
  let m1 := { m with acc := matBlock s t th m }
  let s := { (if m1.acc.fault.isSome then s else s.pinRuns t th runs) with draws := s.draws + 1 }
  if m1.acc.fault.isSome || m.shape.k / m.blk ≤ m1.acc.next then s.completeMatrix t o m1
  else (s.keepPins c (laterLines s t th m1)).modThread t (fun x => x.modOp o.id (fun y => { y with act := .matrix m1 }))

end Sys2Proof.Machine
end

