-- ==== Sys2Proof/Machine/Ready.lean ====
section
/-!
DEFINITION. Ready sets and task control blocks (14 R330 to R337), task start (05 R118, 14 R338), parked-TCB stores
(14 R341, R342).
-/

namespace Sys2Proof.Machine

/-! ### Task control blocks (14 R330 to R332) -/

/-- A task control block from its four granules (14 R330). -/
def tcbOf (g : List Val) : Tcb :=
  let v (i : Nat) : Val := g.getD i Val.zero
  let a : Quad := (v 2).bits
  let b : Quad := (v 3).bits
  { entry := v 0
    param := v 1
    deadline := a.extractLsb' 0 64
    budget := a.extractLsb' 64 32
    regs := a.extractLsb' 96 16
    flags := a.extractLsb' 112 8
    lanes := a.extractLsb' 120 8
    group := b.extractLsb' 0 64
    fanout := b.extractLsb' 64 32
    nrange := b.extractLsb' 96 16
    zero := b.extractLsb' 112 16 }
def Tcb.travel (x : Tcb) : Bool := x.flags.getLsbD 0
def Tcb.sup (x : Tcb) : Bool := x.flags.getLsbD 1
def Tcb.lead (x : Tcb) : Bool := x.flags.getLsbD 2
def Tcb.hostDone (x : Tcb) : Bool := x.flags.getLsbD 3
/-- The register request, rounded up (14 R330). -/
def Tcb.request (x : Tcb) : Nat :=
  if x.travel then 16
  else
    let n := x.regs.toNat
    if n ≤ 32 then 32 else if n ≤ 64 then 64 else if n ≤ 128 then 128 else 256
/-- The 64 bytes of a TCB, as granules (14 R330). -/
def Tcb.granules (x : Tcb) : List Val :=
  [x.entry, x.param, Val.data (x.lanes ++ x.flags ++ x.regs ++ x.budget ++ x.deadline),
   Val.data (x.zero ++ x.nrange ++ x.fanout ++ x.group)]

/-- n bytes of one sector as a party on core c reads them at their home; none where they cannot be read. -/
def partAt (s : State) (c : Nat) (me : Owner) (va : Word) (n : Nat) : Option Nat :=
  if n = 0 then some 0
  else match storage s c va with
    | some loc =>
      if (homeCheck s va loc n me false).isSome then none
      else some ((homeSector s va loc).1.toNat / 2 ^ (8 * (loc % 32)) % 2 ^ (8 * n))
    | none => none
/-- 16 bytes at any address, of one sector or of two. -/
def quadAt (s : State) (c : Nat) (me : Owner) (va : Word) : Option Quad :=
  let m := min 16 (32 - va.toNat % 32)
  match partAt s c me va m, partAt s c me (va + BitVec.ofNat 64 m) (16 - m) with
  | some x, some y => some (BitVec.ofNat 128 (x + 2 ^ (8 * m) * y))
  | _, _ => none
/-- The lease ranges of a TCB read through its PARAM by a party on core c, with the supervisor bit of their source, as a load of
its own would read them; none where they cannot be read (14 R330). -/
def readRanges (s : State) (c : Nat) (me : Owner) (sup : Bool) (x : Tcb) : Option (List Quad) :=
  let n := x.nrange.toNat
  let a := capCursor x.param.bits
  if n = 0 then some []
  else if (capCheck ⟨x.param.bits, true⟩ (withSy permR a) a.toNat (16 * n) 1).isSome || !regionOk s a (16 * n)
      || (selector a == 0xF3 && !sup) then none
  else ((List.range n).map (fun i => quadAt s c me (a + BitVec.ofNat 64 (16 * i)))).foldr
    (fun x r => match x, r with | some q, some l => some (q :: l) | _, _ => none) (some [])
/-- A lease range that lies in one region's fixed extent (14 R331). -/
def rangeShape (q : Quad) : Bool :=
  let b := (capBase q).toNat
  let e := (capTop q).toNat
  let last := e - 1
  let o := last % 2 ^ 56
  let f := b % 2 ^ 56
  let known := [0, 0xF0, 0xF1, 0xF2, 0xF3, 0xF8, 0xFC].contains (b / 2 ^ 56)
  -- an empty range has no byte at any selector
  if e ≤ b then true
  else known && b / 2 ^ 56 == last / 2 ^ 56 &&
    (match b / 2 ^ 56 with
      | 0xF0 => o < 0x30000
      | 0xF1 => o < 2 ^ 20
      | 0xF2 => o < 2 ^ 28
      | 0xF3 => o < 2 ^ 28 && o / 2 ^ 18 == f / 2 ^ 18 && o % 2 ^ 18 < 0x30000
      | 0xFC => o < 2 ^ 55 || o < 2 ^ 55 + 2 ^ 27
      | _ => true)
/-- A range that decodes as kind 0 within the address space (14 R330, 05 R104). -/
def rangeOk (q : Quad) : Bool :=
  capKind q == 0 && capE q ≤ 46 && bitsOf q 64 2 == 0 && 0 ≤ capBase q && capBase q ≤ capTop q && capTop q ≤ 2 ^ 64
    && rangeShape q
/-- The pages of 256 KiB a range of region 0x00 covers: the first, and the one after the last. -/
def pageSpan (q : Quad) : Nat × Nat :=
  let b := (capBase q).toNat
  let e := (capTop q).toNat
  if b / 2 ^ 56 != 0 || e ≤ b then (0, 0) else (b / 2 ^ 18, (e - 1) / 2 ^ 18 + 1)
/-- A span put among spans by its first page. -/
def insertSpan (x : Nat × Nat) : List (Nat × Nat) → List (Nat × Nat)
  | [] => [x]
  | y :: r => if x.1 ≤ y.1 then x :: y :: r else y :: insertSpan x r
/-- Pages that ranges span together: one that several cover counts once (14 R331). -/
def pagesTogether (ranges : List Quad) : Nat :=
  (((ranges.map pageSpan).foldr insertSpan []).foldl (fun (n : Nat × Nat) x => (n.1 + (x.2 - max x.1 n.2), max n.2 x.2)) (0, 0)).1
/-- BAD_HEADER of 14 R331, the ranges read. -/
def badHeader (x : Tcb) (ranges : List Quad) (supOk : Bool) : Bool :=
  16 ≤ x.flags.toNat || x.zero != 0 || 256 < x.regs.toNat || 4 < x.lanes.toNat || x.budget == 0 || 64 < x.nrange.toNat
  || !ranges.all rangeOk || 4096 < pagesTogether ranges
  || (x.travel && (16 < x.regs.toNat || 0 < x.lanes.toNat || x.lead
      || ranges.any (fun q => [0xF0, 0xF1].contains (selector (BitVec.ofNat 64 (capBase q).toNat)))))
  || (x.sup && !supOk)
  || (x.hostDone && (selector x.group != 0xFC || x.group.toNat % 32 != 0))
/-- A range within another, granting nothing more (14 R332). -/
def within (q r : Quad) : Bool :=
  capBase r ≤ capBase q && capTop q ≤ capTop r && grants (capPerms r) (capPerms q)
/-- NO_LEASE of 14 R330 and R332 against the rights of the source. -/
def noLease (x : Tcb) (ranges rights : List Quad) : Bool :=
  !(x.nrange == 0 || leased rights permR (capCursor x.param.bits) (16 * x.nrange.toNat))
  || !ranges.all (fun q => rights.any (within q))
  || (x.hostDone && !rights.any (fun r => capBase r ≤ (x.group.toNat : Int) && (x.group.toNat : Int) + 32 ≤ capTop r))

/-! ### The heap and the overflow area (14 R333, R334) -/

/-- Earlier in (DEADLINE, arrival sequence). -/
def ReadyEntry.before (a b : ReadyEntry) : Bool := a.key < b.key || (a.key == b.key && a.seq < b.seq)
/-- Insertion in order. -/
def insertEntry (e : ReadyEntry) : List ReadyEntry → List ReadyEntry
  | [] => [e]
  | x :: r => if e.before x then e :: x :: r else x :: insertEntry e r
/-- Entries the overflow area can take. -/
def overflowRoom (k : Station) : Nat := 2048 * (k.rsovf.toNat % 2 ^ 16)
/-- The heap refilled from the overflow area when it holds fewer than 192 entries. -/
def Station.refill (k : Station) : Station :=
  if k.heap.length < 192 then
    let n := Config.heapSize - k.heap.length
    { k with heap := (k.overflow.take n).foldl (fun l e => insertEntry e l) k.heap, overflow := k.overflow.drop n }
  else k
/-- Woken tasks that no room has let into the ready set yet. -/
def Station.returning (k : Station) : List Nat := (k.store.filter (fun e => e.2.woken && !e.2.queued)).map Prod.fst
/-- Room for n more entries. -/
def Station.room (k : Station) (n : Nat) : Bool :=
  k.heap.length + k.overflow.length + n ≤ Config.heapSize + overflowRoom k
    && (k.overflow.length + (n - (Config.heapSize - k.heap.length)) ≤ overflowRoom k)
/-- Room for n new TCBs: returning tasks come first (14 R342). -/
def Station.roomNew (k : Station) (n : Nat) : Bool := k.room (n + k.returning.length)
/-- An entry entered with the next arrival sequence; the heap takes it first. -/
def Station.enter (k : Station) (e : ReadyEntry) : Station :=
  let e := { e with seq := k.seq }
  let k := { k with seq := k.seq + 1 }
  (if k.heap.length < Config.heapSize then { k with heap := insertEntry e k.heap }
    else { k with overflow := insertEntry e k.overflow }).refill
/-- State code of an overflow entry (14 R333). -/
def EntryState.code : EntryState → Nat | .staging => 0 | .eligible => 1 | .noFit => 2 | .stored => 3
/-- Physical base of a station or home area (14 R334, log 33). -/
def areaBase (w : Word) : Nat := w.toNat / 2 ^ 18 * 2 ^ 18 % 2 ^ 40
/-- Base of the parked-TCB store entry i of a station. -/
def storeLoc (k : Station) (i : Nat) : Nat := areaBase k.pkstore + 8192 * i
/-- The 128 bytes of an overflow entry (14 R333). -/
def overflowGranules (k : Station) (e : ReadyEntry) : List Val :=
  let at_ : Nat := match e.store with | some i => storeLoc k i | none => 0
  (e.tcb.granules.map (fun v => Val.data v.bits))
  ++ [Val.data (BitVec.ofNat 128 (e.taskid.toNat + 2 ^ 64 * (e.seq % 2 ^ 64))),
      Val.data (BitVec.ofNat 128 (e.state.code + 2 ^ 64 * at_)), Val.zero, Val.zero]
/-- A station changed; its overflow area is kept in memory (14 R333). -/
def State.putStation (s : State) (cl : Nat) (k : Station) : State :=
  let s1 := s.setStation cl k
  if k.overflow == (s.station cl).overflow then s1
  else s1.putGranules (areaBase k.rsovf) ((k.overflow.map (overflowGranules k)).flatten)
/-- A TASKID of the accepting cluster (14 R335). -/
def taskIdOf (cl n : Nat) : Word := BitVec.ofNat 64 (cl * 2 ^ 58 + n % 2 ^ 58)
/-- n copies of a TCB entered with rising fan-out and TASKIDs (14 R358). -/
def Station.enterMany (k : Station) (cl : Nat) (x : Tcb) (ranges : List Quad) (dom : BitVec 16) (link : Nat)
    (queue : Option Nat) : Nat → Nat → Station
  | 0, _ => k
  | n + 1, i =>
    let e : ReadyEntry :=
      { tcb := { x with fanout := x.fanout + BitVec.ofNat 32 i }
        taskid := taskIdOf cl k.nextTask, seq := 0, key := x.deadline, state := .staging, domain := dom
        ranges := ranges, link := link, queue := queue, store := none, bound := none }
    (({ k with nextTask := k.nextTask + 1 }).enter e).enterMany cl x ranges dom link queue n (i + 1)

/-! ### Task start (05 R118, 14 R337, R338) -/

/-- Lane units of a core that are free (07 R171). -/
def freeUnits (k : Core) : List Nat := (List.range 4).filter (fun u => !k.lanesOut.contains u)
/-- Whether two ranges of a scratchpad region meet, for tasks on the cores given. -/
def spansMeet (c : Nat) (q : Quad) (c2 : Nat) (r : Quad) : Bool :=
  (spansOf c q).any (fun x => (spansOf c2 r).any (fun y => decide (x.1 < y.1 + y.2) && decide (y.1 < x.1 + x.2)))
/-- Tasks on their way between cores, and those that wait in an arrival queue (14 R348). -/
def packedTasks (s : State) : List Packed :=
  s.msgs.filterMap (fun m => match m.payload with | .travel p => some p | _ => none)
  ++ s.fallout.flatMap (fun x => x.2.filterMap (fun m => match m.payload with | .travel p => some p | _ => none))
  ++ s.cores.flatMap (fun x => x.2.arrivals)
/-- The scratchpad ranges held now by tasks and crews (10 R234, 14 R341, R347): core and range. Of a saved partition's those of the
chip scratchpad, since its own scratchpads stand in its save area (15 R381). -/
def heldSpans (s : State) : List (Nat × Quad) :=
  (s.threads.map (fun x => x.2.ranges.map (fun q => (tcore x.1, q)))).flatten
  ++ (s.stations.map (fun st => (st.2.store.map (fun e => e.2.thread.ranges.map (fun q => (e.2.core, q)))).flatten)).flatten
  ++ (s.cores.map (fun x => match x.2.crew with | some w => w.template.ranges.map (fun q => (x.1, q)) | none => [])).flatten
  ++ (packedTasks s).flatMap (fun p => p.thread.ranges.map (fun q => (p.src, q)))
  ++ (s.saved.flatMap (fun v =>
    (v.threads.map (fun x => (tcore x.1, x.2.ranges)))
    ++ v.stations.flatMap (fun st => st.2.store.map (fun e => (e.2.core, e.2.thread.ranges)))
    ++ v.cores.flatMap (fun k => k.2.arrivals.map (fun p => (p.src, p.thread.ranges))))).flatMap (fun x =>
      (x.2.filter (fun q => selector (BitVec.ofNat 64 (capBase q).toNat) == 0xF2)).map (fun q => (x.1, q)))
/-- Whether core c can take an entry into a slot of its size (14 R337, R342). -/
def coreFits (s : State) (c : Nat) (e : ReadyEntry) (need : Nat) : Bool :=
  let k := s.core c
  need ≤ slotSize k.partn && k.repart.isNone && !k.stopped
  && (match e.bound with | some b => b == c | none => true)
  && (e.store.isSome || (e.tcb.lanes.toNat ≤ (freeUnits k).length
    && e.ranges.all (fun q => !(heldSpans s).any (fun h => spansMeet c q h.1 h.2))))
/-- The registers an entry asks of a slot: its request, or its register count (14 R342). -/
def entryNeed (k : Station) (e : ReadyEntry) : Nat :=
  match e.store.bind (fun i => tfind k.store i) with
  | some x => if x.thread.mode == .travel then 16 else x.thread.count
  | none => e.tcb.request
/-- An entry that no core of the cluster has a slot for is marked NO_FIT (14 R337). -/
def noSlotFor (s : State) (cl : Nat) (e : ReadyEntry) : Bool :=
  (List.range 16).all (fun j => slotSize (s.core (coreAt cl j)).partn < entryNeed (s.station cl) e)
/-- The group capability k3 of a starting task (05 R118). DESIGN CHOICE (log 96): where several lease ranges contain the 16 bytes of
the group word, the first of them gives the permissions. -/
def groupCap (x : Tcb) (ranges : List Quad) : Val :=
  let a := x.group.toNat
  if x.hostDone || x.group == 0 then Val.zero
  else match ranges.find? (fun q => capBase q ≤ (a : Int) && (a : Int) + 16 ≤ capTop q) with
    | some q => ⟨capBounds (capPerms q &&& (permR ||| permW ||| permAT ||| permFE)) a (a + 16), true⟩
    | none => Val.zero
/-- A thread as it starts from a TCB (05 R113 to R118). -/
def startThread (s : State) (x : Tcb) (ranges : List Quad) (dom : BitVec 16) (taskid : Word) (count : Nat)
    (units : List Nat) (link : Nat) (queue : Option Nat) (record : BitVec 16) : Thread :=
  { Thread.blank with
    count := count
    regs := [(0, ⟨⟨x.entry.bits, true⟩, true⟩), (1, ⟨⟨x.param.bits, true⟩, true⟩),
      (2, ⟨Val.ofWord (x.fanout.setWidth 64), true⟩), (3, ⟨groupCap x ranges, true⟩)]
    pcc := ⟨x.entry.bits, true⟩
    sup := x.sup
    mode := if x.travel then .travel else .ordinary
    lead := x.lead
    prng := ⟨taskid.setWidth 32, taskid.extractLsb' 32 32, x.fanout, 0x9E3779B9⟩
    turns := x.budget
    deadline := x.deadline
    taskid := taskid
    group := if x.hostDone then 0 else x.group
    trapcap := trapcapOf s dom
    domain := dom
    record := record
    ranges := ranges
    lanes := units
    tcb := x
    link := link
    queue := queue }
/-- An entry started in a free slot, the acquire of R321 performed (14 R338). -/
def State.startTask (s : State) (c slot : Nat) (e : ReadyEntry) : State :=
  let x := e.tcb
  let units := (freeUnits (s.core c)).take x.lanes.toNat
  let count := if x.travel then 16 else slotSize (s.core c).partn
  let d := (s.leaseRead e.domain).draw
  let th := startThread d.2 x e.ranges e.domain e.taskid count units e.link e.queue (d.1.setWidth 16)
  let s := d.2.modCore c (fun k => { k with lanesOut := k.lanesOut ++ units })
  let s := if e.key.toNat < s.tsAt c then s.countStation (clusterOf c) cLATESTART 1 else s
  (s.setThread (tnum c slot) th).acquireInv c (fun _ => true)

/-! ### The parked-TCB store (14 R341, R342) -/

/-- Entries a station's store has (14 R334). -/
def storeSize (k : Station) : Nat := 32 * (k.pkstore.toNat % 2 ^ 16)
/-- A free entry of a station's store. -/
def freeStore (k : Station) : Option Nat := (List.range (storeSize k)).find? (fun i => (tfind k.store i).isNone)
/-- Granules that differ from an earlier image written at an address. -/
def State.putChanged (s : State) (loc : Nat) : List Val → List Val → State
  | [], _ => s
  | v :: r, old =>
    let s1 := if old.head? == some v then s else s.putGranules loc [v]
    s1.putChanged (loc + 16) r (old.drop 1)
/-- A store entry set to a thread: its context is written to the store (14 R341, 15 R378). -/
def State.putStored (s : State) (cl i : Nat) (e : StoreEntry) : State :=
  let k := s.station cl
  let g := contextGranules s (tnum e.core e.slot) e.thread e.thread.reinject
  (s.putChanged (storeLoc k i) g e.image).modStation cl (fun k => { k with store := tput k.store i { e with image := g } })
/-- Whether a stored context stands unaltered (15 R378). -/
def storedIntact (s : State) (cl i : Nat) (e : StoreEntry) : Bool :=
  ((List.range e.image.length).zip e.image).all (fun x =>
    let a := storeLoc (s.station cl) i + 16 * x.1
    BitVec.ofNat 128 (s.load a 16) == x.2.bits && s.tagAt a == x.2.tag)
/-- The ready-set entry of a stored task (14 R342). -/
def storedReady (e : StoreEntry) (i : Nat) : ReadyEntry where
  tcb := e.thread.tcb
  taskid := e.thread.taskid
  seq := 0
  key := e.thread.deadline
  state := .stored
  domain := e.thread.domain
  ranges := e.thread.ranges
  link := e.thread.link
  queue := e.thread.queue
  store := some i
  bound := if e.bound then some e.core else none
/-- A woken stored task returns to its ready set when there is room, keeping its entry until then (14 R342). -/
def State.requeue (s : State) (cl i : Nat) : State :=
  let k := s.station cl
  match tfind k.store i with
  | some e =>
    if e.woken && !e.queued && k.room 1 then
      let r := storedReady e i
      s.putStation cl ({ k with store := tput k.store i { e with queued := true } }.enter r)
    else s
  | none => s
/-- Every woken task that has room returned to its ready set (14 R342). -/
def State.requeueAll (s : State) (cl : Nat) : State :=
  (s.station cl).returning.foldl (fun s i => s.requeue cl i) s
/-- A stored task resumed in a slot of its cluster (14 R342): elsewhere than before, what its old core still holds of it goes home
first (13 R310; log 20). An altered context ends it (15 R378). -/
def State.resumeStored (s : State) (cl i c slot : Nat) : State :=
  match tfind (s.station cl).store i with
  | none => s
  | some e =>
    let th0 := e.thread
    let count := if th0.mode == .travel then 16 else slotSize (s.core c).partn
    let status : Status := match th0.status with
      | .parked .. => .ready
      | .out op since => if (th0.op op).isSome then .out op since else .ready
      | x => x
    let th := { th0 with count := count, status := status }
    let t := tnum c slot
    let ok := storedIntact s cl i e
    let s := s.modStation cl (fun k => { k with store := tdel k.store i })
    let s := if c == e.core then s else s.spill (tnum e.core e.slot) th0
    let s := (s.setThread t th).acquireInv c (fun _ => true)
    if ok then s
    else
      let a : Word := BitVec.ofNat 64 th.pc
      (s.startTrap t (some .formatMismatch) 0 [] a a false true).trapNow t

end Sys2Proof.Machine
end

