-- ==== Sys2Proof/Machine/Tables.lean ====
section
/-!
DEFINITION. The acts of LEASE, PLBINV and PGMOVE on leases, leaves, home frame tables and PLBs (16 R388 to R395), and the
revocation of leases (15 R375, 14 R350, 09 R228).
-/

namespace Sys2Proof.Machine

/-- Every listed core, thread, stored thread or mark domain changed. -/
def State.mapCores (s : State) (f : Core → Core) : State :=
  { s with cores := s.cores.map (fun (x : Nat × Core) => (x.1, f x.2)) }
def State.mapThreads (s : State) (f : Thread → Thread) : State :=
  { s with threads := s.threads.map (fun (x : Nat × Thread) => (x.1, f x.2)) }
def State.mapMarks (s : State) (f : MarkDomain → MarkDomain) : State :=
  s.modDev (fun d => { d with marks := d.marks.map (fun (x : Nat × MarkDomain) => (x.1, f x.2)) })

/-! ### Pages, leaves and the tables that name them -/

/-- The leaf that maps a page of 256 KiB. -/
def leafOf (s : State) (page : Nat) : Option Leaf := walk s (page * 2 ^ 18)
/-- Pages a leaf of a level maps. -/
def Leaf.pages (l : Leaf) : Nat := 2 ^ (Leaf.bits l.level - 18)
/-- Whether the leaf of a page lies only partly in a range. -/
def partialLeaf (s : State) (q : Quad) (page : Nat) : Bool :=
  match leafOf s page with
  | none => false
  | some l =>
    let first := page / l.pages * l.pages
    decide ((first * 2 ^ 18 : Int) < capBase q) || decide (capTop q < (((first + l.pages) * 2 ^ 18 : Nat) : Int))
/-- Home and frame of a page. -/
def framePlace (s : State) (page : Nat) : Option (Nat × Nat) :=
  (leafOf s page).map (fun l =>
    let loc := leafLoc l.home l.frame l.level (page * 2 ^ 18)
    (holder loc, loc / 2 ^ 18 % 4096))
/-- Whether a PLB entry maps a page. -/
def PlbEntry.maps (e : PlbEntry) (page : Nat) : Bool := e.vpn == page * 2 ^ 18 / 2 ^ Leaf.bits e.level
/-- PLB entries that pass a test removed on every core. -/
def State.dropPlbAll (s : State) (hit : Nat → PlbEntry → Bool) : State :=
  { s with cores := s.cores.map (fun x => (x.1, { x.2 with plb := x.2.plb.filter (fun e => !hit x.1 e) })) }
/-- The word of a leaf or table rewritten. -/
def State.putLeaf (s : State) (a w : Nat) : State :=
  (((s.needLine a true).flushBuffer (holder a) (a / 32)).store a 8 w).wroteAt a 8
/-- Ranges of a thread's lease that hold a page. -/
def coversPage (ranges : List Quad) (page : Nat) : Bool := ranges.any (fun q => (pagesOf q).contains page)
/-- Whether a page is pinned by a lease other than the issuer's (16 R393). -/
def pinnedByOther (s : State) (th : Thread) (page : Nat) : Bool :=
  match framePlace s page with
  | some (h, f) =>
    (th.ranges.filter (fun q => (pagesOf q).contains page)).length < (tget (s.home h).frames f HomeFrame.reset).pins
  | none => false
/-- What a home keeps of a frame dropped: its lines, registrations, directory entries and wait records (16 R393). -/
def State.dropFrame (s : State) (h f page : Nat) : State :=
  let base := h * 2 ^ 30 + f * 2 ^ 18
  let inside (loc : Nat) : Bool := decide (base ≤ loc) && decide (loc < base + 2 ^ 18)
  let viewHit (l : CacheLine) : Bool := l.view && (match viewOf s (128 * l.line) with
    | some w => viewUnit w (128 * l.line) / 2 ^ 18 == page
    | none => false)
  s.modHome h (fun k => { k with
    cache := k.cache.filter (fun l => !viewHit l && (l.view || !inside (128 * l.line)))
    registry := k.registry.filter (fun e => !inside (32 * e.1))
    directory := k.directory.filter (fun e => !inside (32 * e.sector))
    waits := k.waits.filter (fun r => !inside r.word) })
/-- Pages unmapped: every home frame entry first, then the leaves, since pages of one leaf share its word. -/
def State.unmapPages (s : State) (pages : List Nat) : State :=
  let s1 := pages.foldl (fun s p => match framePlace s p with
    | some (h, f) => (s.dropFrame h f p).modHome h (fun k => { k with
        frames := tmod k.frames f HomeFrame.reset (fun e => { e with valid := false }) })
    | none => s) s
  (pages.foldl (fun s p => match leafOf s p with | some l => s.putLeaf l.entry (l.word % 2 ^ 62) | none => s) s1).dropPlbAll
    (fun _ e => pages.any (fun p => e.maps p))

/-! ### Revocation (16 R393, 15 R375, 14 R350, 09 R228) -/

/-- Operations of a revoked thread that wait on a word end: their wait records are removed (14 R344). -/
def Thread.cancelWaits (th : Thread) : Thread :=
  { th with ops := th.ops.map (fun o =>
    match o.phase with
    | .waiting => { o with phase := .refused .leaseRevoked o.va }
    | .resend => { o with phase := .refused .leaseRevoked o.va }
    | _ => o) }
/-- A thread in a slot whose lease is revoked: it ends fatally once its issued instructions settle. A trap that waits for them stands
before the revocation in its chain (15 R375). -/
def State.revokeThread (s : State) (t : Nat) : State :=
  match s.thread t with
  | none => s
  | some th =>
    match th.status with
    | .trapping _ _ _ _ _ _ true => s
    | .trapping code cause held fpc next again false =>
      ((s.setThread t { th.cancelWaits with revoked := true, status := .trapping code cause held fpc next again true }).dropWaits
        (.slot t)).trapNow t
    | _ =>
      let s := (s.setThread t th.cancelWaits).dropWaits (.slot t)
      let pc : Word := BitVec.ofNat 64 th.pc
      (s.startTrap t (some .leaseRevoked) 0 [] pc pc false true).trapNow t
/-- The core as a task that ended elsewhere leaves it: its claim, its tiles and its lane units. -/
def Core.leftBy (k : Core) (th : Thread) : Core :=
  let k := (k.dropClaim th.taskid).dropTiles th
  { k with lanesOut := k.lanesOut.filter (fun u => !th.lanes.contains u) }
/-- What the end of a thread that stands in no slot does beyond its core: record, write-backs, LEAVE, pins and completion record.
Its waits are cancelled, and its record holds the cause of a trap in progress and its entries (15 R375, 14 R360). -/
def State.endGone (s : State) (core slot : Nat) (th : Thread) (code : Code) (drained : Bool) : State :=
  let t := tnum core slot
  let pc : Word := BitVec.ofNat 64 th.pc
  let th := th.cancelWaits
  let p := trapPlan th (some code) 0 [] pc pc false
  let chain := th.trapActive.toList ++ p.causes (BitVec.ofNat 64 (s.now t)) th.ops (some code) 0 pc true
  let s := (s.dump th.domain (th.owner t) 0 core chain (contextGranules s t p.th p.entries)).1
  let s := (s.flushThread t p.th).endLeave t p.th p.fpc
  let s := if drained then s else s.pinRanges false th.ranges
  s.completionRecord t p.th code.num
/-- A stored or travelling thread ended. -/
def State.endAway (s : State) (core slot : Nat) (th : Thread) (code : Code) : State :=
  let s := (s.endGone core slot th code (drainHolds (s.core core) th.taskid)).modCore core (fun k => k.leftBy th)
  (s.zeroLanes core th.lanes).zeroSpans core th.ranges
/-- Stored threads that hold a page ended. -/
def State.revokeStored (s : State) (hit : Thread → Bool) : State :=
  s.stations.foldl (fun s st =>
    st.2.store.foldl (fun s e =>
      if hit e.2.thread then
        let s := (s.endAway e.2.core e.2.slot e.2.thread .leaseRevoked).dropWaits (.entry st.1 e.1)
        s.modStation st.1 (fun k => { k with
          store := tdel k.store e.1
          heap := k.heap.filter (fun r => r.store != some e.1)
          overflow := k.overflow.filter (fun r => r.store != some e.1) })
      else s) s) s
/-- Travelling threads that hold a page ended. -/
def State.revokeAway (s : State) (hit : Thread → Bool) : State :=
  let s := s.msgs.foldl (fun s m =>
    match m.payload with
    | .travel p => if hit p.thread then (s.dropMsg m.id).endAway p.src 0 p.thread .leaseRevoked else s
    | _ => s) s
  s.cores.foldl (fun s x =>
    x.2.arrivals.foldl (fun s p =>
      if hit p.thread then
        (s.modCore x.1 (fun k => { k with arrivals := k.arrivals.filter (· != p) })).endAway p.src 0 p.thread .leaseRevoked
      else s) s) s
/-- The threads of a saved partition that hold a page ended, in its slots, its stores and its arrival queues; its drains and engine
operations fail as any do (16 R393, 15 R381). What the ended held of its cores goes out of the saved record. -/
def Saved.without (v : Saved) (gone : List (Nat × Nat × Thread)) (hit : Thread → Bool) (hitR : List Quad → Bool)
    (failE : EngOp → EngOp) (failD : Drain → Drain) : Saved :=
  let leave (c : Nat) (k : Core) : Core := gone.foldl (fun k x => if x.1 == c then k.leftBy x.2.2 else k) k
  let core (x : Nat × Core) : Nat × Core := (x.1, leave x.1 { x.2 with
    engine := x.2.engine.map failE, drains := x.2.drains.map failD, arrivals := x.2.arrivals.filter (fun p => !hit p.thread) })
  let station (x : Nat × Station) : Nat × Station :=
    let ended := (x.2.store.filter (fun e => hit e.2.thread)).map Prod.fst
    let stays (e : ReadyEntry) : Bool := match e.store with | some i => !ended.contains i | none => !hitR e.ranges
    (x.1, { x.2 with
      store := x.2.store.filter (fun e => !hit e.2.thread), heap := x.2.heap.filter stays, overflow := x.2.overflow.filter stays })
  { v with threads := v.threads.filter (fun x => !hit x.2), cores := v.cores.map core, stations := v.stations.map station }
/-- The threads of a saved partition that hold a page: core, slot and thread. -/
def Saved.holders (v : Saved) (hit : Thread → Bool) : List (Nat × Nat × Thread) :=
  let slots := v.threads.map (fun (x : Nat × Thread) => (tcore x.1, tslot x.1, x.2))
  let stored := v.stations.flatMap (fun (st : Nat × Station) => st.2.store.map (fun e => (e.2.core, e.2.slot, e.2.thread)))
  let arrived := v.cores.flatMap (fun (k : Nat × Core) => k.2.arrivals.map (fun p => (p.src, 0, p.thread)))
  (slots ++ stored ++ arrived).filter (fun x => hit x.2.2)
/-- The wait records of operations removed from every home. -/
def State.dropOps (s : State) (ops : List Nat) : State :=
  { s with homes := s.homes.map (fun x => (x.1, { x.2 with waits := x.2.waits.filter (fun r => !ops.contains r.op) })) }
def State.revokeSaved (s : State) (hit : Thread → Bool) (hitR : List Quad → Bool) (failE : EngOp → EngOp) (failD : Drain → Drain) :
    State :=
  let s1 := s.saved.foldl (fun s v =>
    let waits := v.stations.flatMap (fun st => (st.2.heap ++ st.2.overflow).filter (fun e =>
      e.store.isNone && hitR e.ranges && e.state != .staging))
    let s := waits.foldl (fun s e => s.pinRanges false e.ranges) s
    (v.holders hit).foldl (fun s x =>
      if x.2.2.dispatch.isSome then s
      else (s.endGone x.1 x.2.1 x.2.2 .leaseRevoked (drainHolds (tget v.cores x.1 Core.reset) x.2.2.taskid)).dropOps
        (x.2.2.ops.map Op.id)) s) s
  { s1 with saved := s1.saved.map (fun v => v.without (v.holders hit) hit hitR failE failD) }
/-- Travelling threads in a fall-out store that hold a page ended. -/
def State.revokeCaught (s : State) (hit : Thread → Bool) : State :=
  let travels (m : Msg) : Option Packed := match m.payload with | .travel p => if hit p.thread then some p else none | _ => none
  let s1 := (s.fallout.flatMap (fun x => x.2.filterMap travels)).foldl (fun s p =>
    s.endGone p.src 0 p.thread .leaseRevoked false) s
  { s1 with fallout := s1.fallout.map (fun x => (x.1, x.2.filter (fun m => (travels m).isNone))) }
/-- Entries not yet started that hold a page removed from their ready set (log 18). -/
def State.revokeReady (s : State) (hit : List Quad → Bool) : State :=
  s.stations.foldl (fun s st =>
    let gone (e : ReadyEntry) : Bool := e.store.isNone && hit e.ranges
    let pinned := (st.2.heap ++ st.2.overflow).filter (fun e => gone e && e.state != .staging)
    let s := pinned.foldl (fun s e => s.pinRanges false e.ranges) s
    s.putStation st.1 { s.station st.1 with
      heap := (s.station st.1).heap.filter (fun e => !gone e)
      overflow := (s.station st.1).overflow.filter (fun e => !gone e) }) s
/-- A drain as its tile's owner stands now (09 R225): in a slot, in a store, or ended. -/
def Drain.present (s : State) (d : Drain) : Drain :=
  let stored := s.stations.flatMap (fun st => st.2.store.map (fun e => e.2.thread))
  match (s.threads.map Prod.snd ++ stored).find? (fun th => th.taskid == d.taskid && th.dispatch.isNone) with
  | some th => d.takeOver th
  | none => d
/-- The lease ranges of a thread in a slot: a row handler has those of its tile's owner (09 R225, R228). -/
def rangesNow (s : State) (t : Nat) (th : Thread) : List Quad :=
  match th.dispatch with
  | some x => (match (s.core (tcore t)).drains.find? (fun d => d.tile == x.tile) with
    | some d => (d.present s).ranges
    | none => th.ranges)
  | none => th.ranges
/-- Threads in slots other than t, handlers among them, that hold a page of a list. -/
def holdersOf (s : State) (t : Nat) (pages : List Nat) : List Nat :=
  (s.threads.filter (fun x => x.1 != t && pages.any (fun p => coversPage (rangesNow s x.1 x.2) p))).map Prod.fst
/-- Tasks other than the issuer's that hold a page of a list, wherever they are. -/
def taskHolders (s : State) (task : Word) (hit : Thread → Bool) : List Word :=
  let away := (packedTasks s).map Packed.thread ++ s.saved.flatMap (fun v => (v.holders (fun _ => true)).map (fun x => x.2.2))
  let stored := s.stations.flatMap (fun st => st.2.store.map (fun e => e.2.thread))
  ((s.threads.map Prod.snd ++ stored ++ away).filter (fun th => th.dispatch.isNone && th.taskid != task && hit th)).map Thread.taskid
/-- Whether a task still stands in a slot, in a store or on its way. -/
def taskLives (s : State) (task : Word) : Bool := (taskHolders s 0 (fun th => th.taskid == task)).contains task || task == 0
/-- Every other holder of the pages ended with LEASE_REVOKED; drains and engine operations of theirs fail (14 R350, 09 R228). A task
that has ended counts by the ranges that its drain or operation goes on with. -/
def State.revokeAll (s : State) (t : Nat) (task : Word) (pages : List Nat) : State :=
  let hitR (rs : List Quad) : Bool := pages.any (fun p => coversPage rs p)
  let hit (th : Thread) : Bool := hitR th.ranges
  let holders := taskHolders s task hit
  let touched (id : Word) (rs : List Quad) : Bool := holders.contains id || (id != task && !taskLives s id && hitR rs)
  let failE (e : EngOp) : EngOp :=
    if touched e.taskid e.ranges then
      { e with revoked := true, failed := if e.failed.isSome then e.failed else some .leaseRevoked } else e
  let failD (d : Drain) : Drain :=
    if touched d.taskid d.ranges && d.failed.isNone then { d with failed := some .leaseRevoked } else d
  let ends := holdersOf s t pages
  let s := s.mapCores (fun k => { k with engine := k.engine.map failE, drains := k.drains.map failD })
  let s := (((s.revokeStored hit).revokeAway hit).revokeCaught hit).revokeReady hitR
  let s := s.revokeSaved hit hitR failE failD
  ends.foldl (fun s x => s.revokeThread x) s
/-- The issuer's ranges that cover any page of a list dropped, their pages unpinned (16 R393 `.unmap.force`). -/
def State.dropCovering (s : State) (t : Nat) (pages : List Nat) : State :=
  match s.thread t with
  | none => s
  | some th =>
    let gone (q : Quad) : Bool := (pagesOf q).any (fun p => pages.contains p)
    (s.pinRanges false (th.ranges.filter gone)).setThread t { th with ranges := th.ranges.filter (fun q => !gone q) }

/-! ### LEASE (16 R393) -/

/-- A page zeroed: its home's cache holds it as tag-only zero lines, its views go, and no buffered store is written later
(10 R249). -/
def State.zeroPage (s : State) (page : Nat) : State :=
  match framePlace s page with
  | some (h, f) =>
    let base := h * 2 ^ 30 + f * 2 ^ 18
    let inside (loc : Nat) : Bool := decide (base ≤ loc) && decide (loc < base + 2 ^ 18)
    let s := s.modHome h (fun k => { k with
      cache := k.cache.filter (fun l => l.view || !inside (128 * l.line))
      wbuf := k.wbuf.filter (fun b => !inside b.loc) })
    let s := (s.zeroRange base (2 ^ 18)).dropViews h (BitVec.ofNat 64 (page * 2 ^ 18)) (2 ^ 18)
    (List.range 2048).foldl (fun s i => s.modHome h (fun k => k.install s (base / 128 + i) false)) s
  | none => s
/-- Whether a forced unmapping that another thread has begun still ends the holders of a page of a list: what else is asked of the
page waits for it (16 R392). -/
def forcing (s : State) (t : Nat) (pages : List Nat) : Bool :=
  s.threads.any (fun x => x.1 != t && x.2.ops.any (fun o => match o.act with
    | .lease 3 a _ => o.phase == .sent 0 && o.ticks == 1 && (pagesOf a.bits).any (fun p => pages.contains p)
    | _ => false))
/-- LEASE performed after its release: its status, or none while holders still end. -/
def State.leaseAct (s : State) (t : Nat) (th : Thread) (op : Nat) (a : Val) (dom : BitVec 16) : State × Option Nat :=
  let pages := pagesOf a.bits
  let partly := pages.any (fun p => partialLeaf s a.bits p)
  let slotHit (c : Nat) (e : PlbEntry) : Bool := c == tcore t && e.slot == tslot t && pages.any (fun p => e.maps p)
  let edit (s : State) (rs : List Quad) : State := s.modThread t (fun x => { x with ranges := rs, edits := x.edits + 1 })
  match op with
  | 0 =>
    let bad := pages.any (fun p => match leafOf s p with
      | some l => l.domain != th.domain && l.domain != 0xFFFF
      | none => true)
    if 64 ≤ th.ranges.length then (s, some 2)
    else if bad then (s, some 4)
    else ((edit s (th.ranges ++ [a.bits])).pinRanges true [a.bits], some 0)
  | 1 =>
    match th.ranges.find? (fun q => capBase q == capBase a.bits && capTop q == capTop a.bits) with
    | none => (s, some 3)
    | some q => (((edit s (th.ranges.erase q)).pinRanges false [q]).dropPlbAll slotHit, some 0)
  | 2 =>
    if pages.any (fun p => pinnedByOther s th p) then (s, some 1)
    else if partly then (s, some 4)
    else (s.unmapPages pages, some 0)
  | 3 =>
    if partly then (s, some 4)
    else
      let s := s.revokeAll t th.taskid pages
      if (holdersOf s t pages).isEmpty then ((s.dropCovering t pages).unmapPages pages, some 0) else (s, none)
  | _ =>
    if pages.any (fun p => pinnedByOther s th p) then (s, some 1)
    else if partly || dom == 0xFFFF || s.dev.ltcount.toNat < dom.toNat then (s, some 4)
    else
      let s := pages.foldl (fun s p => match leafOf s p with
        | some l => s.putLeaf l.entry (l.word % 2 ^ 46 + dom.toNat * 2 ^ 46 + l.word / 2 ^ 62 * 2 ^ 62)
        | none => s) s
      ((pages.foldl (fun s p => s.zeroPage p) s).dropPlbAll (fun _ e => pages.any (fun p => e.maps p)), some 0)

/-! ### PLBINV (16 R394) -/

/-- Whether a translation of a page for a slot's domain matches a scope. -/
def plbMatches (s : State) (scope : PlbScope) (arg : Word) (page : Nat) (covers : Bool) (slotDom : Option (BitVec 16)) : Bool :=
  match scope with
  | .all => true
  | .page => covers
  | .dom =>
    let d : BitVec 16 := arg.setWidth 16
    slotDom == some d || (match leafOf s page with | some l => l.domain == d | none => false)
/-- PLBINV performed: 1 when a pinned page kept its translation. -/
def State.plbInvalidate (s : State) (scope : PlbScope) (arg : Word) : State × Nat :=
  let page := va56 arg / 2 ^ 18
  let hit (c : Nat) (e : PlbEntry) : Bool :=
    plbMatches s scope arg (e.vpn * 2 ^ Leaf.bits e.level / 2 ^ 18) (e.maps page)
      ((s.thread (tnum c e.slot)).map Thread.domain)
  let frameHit (f : HomeFrame) : Bool := f.valid && plbMatches s scope arg f.vpn (f.vpn == page) none
  let kept := s.homes.any (fun h => h.2.frames.any (fun f => frameHit f.2 && f.2.pins != 0))
  let s1 := s.dropPlbAll hit
  ({ s1 with homes := s1.homes.map (fun h => (h.1, { h.2 with frames := h.2.frames.map (fun f =>
      (f.1, if frameHit f.2 && f.2.pins == 0 then { f.2 with valid := false } else f.2)) })) }, kept.toNat)

/-! ### PGMOVE (16 R395) -/

/-- The bytes and marks of a frame copied to another. -/
def State.copyFrame (s : State) (src dst : Nat) : State :=
  let inside (a : Nat) : Bool := decide (src ≤ a) && decide (a < src + 2 ^ 18)
  let s1 := s.zeroRange dst (2 ^ 18)
  { s1 with
    mem := (s.mem.filter (fun c => inside c.1)).foldl (fun m c => memPut m (c.1 - src + dst) c.2) s1.mem
    feEmpty := (s.feEmpty.filter inside).foldl (fun l a => linsert l (a - src + dst)) s1.feEmpty
    tags := (s.tags.filter inside).foldl (fun l a => linsert l (a - src + dst)) s1.tags
    poison := (s.poison.filter (fun x => inside (32 * x))).foldl (fun l x => linsert l ((32 * x - src + dst) / 32)) s1.poison }
/-- What a home holds of a page carried over to another home's frame, and the pulls of its sectors that are on their way, whose answers
then go there (16 R395 step 2, 13 R319). -/
def State.moveRecords (s : State) (h src h2 dst : Nat) : State :=
  let inside (a : Nat) : Bool := decide (src ≤ a) && decide (a < src + 2 ^ 18)
  let sect (x : Nat) : Nat := (32 * x - src + dst) / 32
  let k := s.home h
  let regs := (k.registry.filter (fun e => inside (32 * e.1))).map (fun e => (sect e.1, e.2))
  let dirs := (k.directory.filter (fun e => inside (32 * e.sector))).map (fun e => { e with sector := sect e.sector })
  let ws := (k.waits.filter (fun r => inside r.word)).map (fun r => { r with word := r.word - src + dst })
  let s := { s with msgs := s.msgs.map (fun (m : Msg) => match m.payload with
    | .pull x sector sent => if x == h && inside (32 * sector) then { m with payload := .pull h2 (sect sector) sent } else m
    | .pullReply x sector core =>
      if x == h && inside (32 * sector) then { m with dst := .core h2, payload := .pullReply h2 (sect sector) core } else m
    | _ => m) }
  let s := s.modHome h (fun k => { k with
    registry := k.registry.filter (fun e => !inside (32 * e.1))
    directory := k.directory.filter (fun e => !inside (32 * e.sector))
    waits := k.waits.filter (fun r => !inside r.word) })
  s.modHome h2 (fun k => { k with
    registry := k.registry ++ regs, directory := k.directory ++ dirs, waits := k.waits ++ ws })
/-- Room a target lacks for what it would take over (16 R395 status 3). -/
def moveLacksRoom (s : State) (h src h2 : Nat) : Bool :=
  let inside (a : Nat) : Bool := decide (src ≤ a) && decide (a < src + 2 ^ 18)
  let k := s.home h
  let k2 := s.home h2
  h != h2 &&
  (decide (Config.registrySize < k2.registry.length + (k.registry.filter (fun e => inside (32 * e.1))).length)
  || decide (Config.directorySize < k2.directory.length + (k.directory.filter (fun e => inside (32 * e.sector))).length)
  || decide (Config.waitSram + 16384 * (k2.waitovf.toNat % 2 ^ 16) < k2.waits.length + (k.waits.filter (fun r => inside r.word)).length))
/-- The address a message asks its home about; a box operation asks about many. -/
def Msg.address (s : State) (m : Msg) : Option Word :=
  match m.payload with
  | .access t op => (match (s.thread t).bind (fun th => th.op op) with
    | some o => (match o.act with | .msense .. => none | .msamp .. => none | _ => some o.va)
    | none => none)
  | .write _ _ va _ _ _ => some va
  | .register _ _ va _ => some va
  | .wback _ va _ _ _ _ _ _ => some va
  | .engRead _ _ va => some va
  | .engWrite _ _ va _ => some va
  | .window _ _ va _ => some va
  | _ => none
/-- Whether cells of a mark domain lie in a page. -/
def MarkDomain.onPage (d : MarkDomain) (page : Nat) : Bool := decide (d.base < (page + 1) * 2 ^ 18) && decide (page * 2 ^ 18 < d.top)
/-- One more message of an operation awaited. -/
def State.awaitMore (s : State) (t op : Nat) : State :=
  s.modThread t (fun th => th.modOp op (fun o => match o.phase with | .sent n => { o with phase := .sent (n + 1) } | _ => o))
/-- The BANKMASK bit of a home set for the thread whose operation a message performs there (11 R257, 12 R290). -/
def State.bankAt (s : State) (h : Nat) (m : Msg) : State :=
  match m.payload with
  | .access t _ => s.modThread t (fun th => { th with bankmask := th.bankmask ||| bankBit h })
  | _ => s
/-- Box operations and ticks that home h has yet to perform for cells of a page: the page's new home performs its part of them
as well (16 R395 step 4, 12 R302). -/
def State.forwardMarks (s : State) (page h h2 : Nat) (news : List Nat) : State :=
  s.msgs.foldl (fun s m =>
    if m.dst != .core h then s
    else match m.payload with
      | .access t op => (match (s.thread t).bind (fun th => th.op op) with
        | some o =>
          let box : Option Nat := match o.act with | .msense dom _ _ => some dom | .msamp dom _ _ _ => some dom | _ => none
          let there := s.msgs.any (fun x => x.dst == .core h2 && x.payload == m.payload)
          (match box with
          | some dom => if (s.mark dom).onPage page && !there then
              ((s.sendIn m.part m.src (.core h2) m.owner m.payload).awaitMore t op).bankAt h2 m else s
          | none => s)
        | none => s)
      | .tick dom _ _ t op => if news.contains dom then (s.sendIn m.part m.src (.core h2) m.owner m.payload).awaitMore t op else s
      | _ => s) s
/-- Messages for a page sent on to its new home, whose BANKMASK bits their threads set (16 R395 step 4, 12 R290). -/
def State.forwardPage (s : State) (page h h2 : Nat) : State :=
  let moves (m : Msg) : Bool :=
    match m.address s with
    | some va => selector va == 0 && translated s va / 2 ^ 18 == page && m.dst == .core h
    | none => false
  (s.msgs.filter moves).foldl (fun s m => s.bankAt h2 m)
    { s with msgs := s.msgs.map (fun m => if moves m then { m with dst := .core h2 } else m) }
/-- Whether another operation on a page is in progress: a binding or unbinding of a mark domain whose cells lie in it, or a
forced unmapping that still ends holders (16 R395 status 5; log 50). -/
def pageBusy (s : State) (t page : Nat) : Bool :=
  s.homes.any (fun h => h.2.work.any (fun w => (s.mark w.dom).onPage page)) || forcing s t [page]
/-- MOVES incremented in a thread that pins a page (16 R391). -/
def Thread.moved (th : Thread) (page : Nat) : Thread := if coversPage th.ranges page then { th with moves := th.moves + 1 } else th
/-- In a core's arrival queue and its drains. -/
def Core.moved (k : Core) (page : Nat) : Core :=
  { k with
    arrivals := k.arrivals.map (fun p => { p with thread := p.thread.moved page })
    drains := k.drains.map (fun d => if coversPage d.ranges page then { d with record := d.record + 2 ^ 24 } else d) }
/-- In a travelling task. -/
def Msg.moved (m : Msg) (page : Nat) : Msg :=
  match m.payload with | .travel p => { m with payload := .travel { p with thread := p.thread.moved page } } | _ => m
/-- The LEASE word of a saved context at a storage address written, with its granule among those that were saved (16 R391). -/
def State.storeLease (s : State) (loc : Nat) (th : Thread) : State :=
  ((s.readPhys (loc + 88) 8).store (loc + 88) 8 (leaseWord th).toNat).wroteAt (loc + 88) 8
/-- In the store of a station, whose frames hold the contexts. -/
def State.moveStore (s : State) (page : Nat) (k : Station) : State × Station :=
  k.store.foldl (fun r e =>
    if coversPage e.2.thread.ranges page then
      let th := e.2.thread.moved page
      let g : Val := match e.2.image[5]? with | some v => Val.data (leaseWord th ++ v.lo) | none => Val.zero
      (r.1.storeLease (storeLoc k e.1) th, { r.2 with store := tput r.2.store e.1 { e.2 with thread := th, image := e.2.image.set 5 g } })
    else r) (s, k)
/-- A byte of an area. -/
def areaByte (s : State) (c : Nat) (va : Word) (i : Nat) : Byte :=
  match storage s c (va + BitVec.ofNat 64 i) with
  | some loc => memByte s.mem loc
  | none => 0
/-- A number in an area. -/
def areaNat (s : State) (c : Nat) (va : Word) (off n : Nat) : Nat := leNat ((List.range n).map (fun i => areaByte s c va (off + i)))
/-- The CRC of an area: bytes 0 to 59, and everything after the header. -/
def areaCrc (s : State) (c : Nat) (va : Word) (n : Nat) : Nat :=
  crc32c (((List.range 60) ++ (List.range (n - 4096)).map (· + 4096)).map (areaByte s c va))
/-- The LEASE word of a thread in the save area of its partition, and the area's CRC after it (15 R381, 16 R391). -/
def State.leaseSaved (s : State) (v : Saved) (n : Nat) (x : Nat × Thread) : State :=
  let at_ (i : Nat) : Option Nat := storage s v.area.1 (v.area.2 + BitVec.ofNat 64 i)
  match (v.places.lookup x.1).bind at_, at_ 60 with
  | some loc, some crc =>
    let s := s.storeLease loc x.2
    ((s.readPhys crc 4).store crc 4 (areaCrc s v.area.1 v.area.2 n)).wroteAt crc 4
  | _, _ => s
/-- In a saved partition, whose save area holds the contexts of its slots (15 R381). -/
def State.moveSaved (s : State) (page : Nat) (v : Saved) : State × Saved :=
  let n := areaNat s v.area.1 v.area.2 24 8
  let r := v.stations.foldl (fun r x => let y := r.1.moveStore page x.2; (y.1, tput r.2 x.1 y.2)) (s, v.stations)
  let hit := v.threads.filter (fun x => coversPage x.2.ranges page)
  let word (x : Nat × Thread) : Nat := (leaseWord (x.2.moved page)).toNat
  (hit.foldl (fun s x => s.leaseSaved v n (x.1, x.2.moved page)) r.1, { v with
    image := hit.foldl (fun m x => match v.places.lookup x.1 with | some o => memStore m (o + 88) 8 (word x) | none => m) v.image
    stations := r.2
    threads := v.threads.map (fun x => (x.1, x.2.moved page))
    cores := v.cores.map (fun x => (x.1, x.2.moved page)) })
/-- MOVES incremented for every task that pins a page, swapped-out and saved ones and the drains of ended ones included (16 R391,
R395 step 5). -/
def State.countMove (s : State) (page : Nat) : State :=
  let s := (s.mapThreads (fun th => th.moved page)).mapCores (fun k => k.moved page)
  let s := { s with
    msgs := s.msgs.map (fun (m : Msg) => m.moved page)
    fallout := s.fallout.map (fun (x : Nat × List Msg) => (x.1, x.2.map (fun (m : Msg) => m.moved page))) }
  let s := s.stations.foldl (fun (s : State) (x : Nat × Station) => let y := s.moveStore page x.2; y.1.setStation x.1 y.2) s
  let r := s.saved.foldl (fun (r : State × List Saved) v => let y := r.1.moveSaved page v; (y.1, r.2 ++ [y.2])) (s, [])
  { r.1 with saved := r.2 }
/-- The tick numbers of domains that first come to home h2 with a page: those of home h, in place of any that an earlier binding
left (12 R285, R302). -/
def State.moveTicks (s : State) (h h2 : Nat) (news : List Nat) : State :=
  s.modHome h2 (fun k => { k with ticks := news.foldl (fun l n => tput l n (tget (s.home h).ticks n 0)) k.ticks })
/-- Whether a page waits to move to home h2 until the tick numbers there have come up to the stamps of its cells, so that the new
home finds no cooling owed that is not (12 R285, R302; log 50). -/
def ticksBehind (s : State) (page h2 : Nat) : Bool :=
  s.dev.marks.any (fun x => x.2.bound && x.2.onPage page && (homesOf s x.2).contains h2
    && (List.range x.2.cells).any (fun c => va56 (cellVa x.2 c) / 2 ^ 18 == page
      && (let lead := (cellStamp s x.2 c + 2 ^ 24 - homeTick s h2 x.1 % 2 ^ 24) % 2 ^ 24
          decide (lead ≠ 0) && decide (lead < 2 ^ 23))))
/-- PGMOVE performed: its status. -/
def State.movePage (s : State) (t page h2 f2 : Nat) : State × Nat :=
  match leafOf s page, framePlace s page with
  | some l, some (h, f) =>
    let src := h * 2 ^ 30 + f * 2 ^ 18
    let dst := h2 * 2 ^ 30 + f2 * 2 ^ 18
    if l.level != 3 then (s, 1)
    else if src == dst then (s, 4)
    else if Config.framesPerHome ≤ f2 || (tget (s.home h2).frames f2 HomeFrame.reset).valid then (s, 2)
    else if moveLacksRoom s h src h2 then (s, 3)
    else if pageBusy s t page then (s, 5)
    else
      let news := (s.dev.marks.filter (fun x => x.2.bound && x.2.onPage page && !(homesOf s x.2).contains h2)).map Prod.fst
      let bufs := ((s.home h).wbuf.filter (fun b => decide (src ≤ b.loc) && decide (b.loc < src + 2 ^ 18))).map BufStore.sector
      let s := bufs.foldl (fun s x => s.flushBuffer h x) s
      let s := ((s.copyFrame src dst).moveRecords h src h2 dst).dropFrame h f page
      let old := tget (s.home h).frames f HomeFrame.reset
      let s := s.putLeaf l.entry (l.word % 2 ^ 24 + f2 * 2 ^ 24 + h2 * 2 ^ 36 + l.word / 2 ^ 46 * 2 ^ 46)
      let s := s.modHome h (fun k => { k with frames := tput k.frames f { old with valid := false, pins := 0 } })
      let s := s.modHome h2 (fun k => { k with
        frames := tput k.frames f2 ⟨true, old.pins, page⟩ })
      let s := ((((s.moveTicks h h2 news).dropPlbAll (fun _ e => e.maps page)).forwardPage page h h2).forwardMarks page h h2 news).mapCores
        (fun k => { k with theta := k.theta.map (fun x => (if src ≤ x.1 && x.1 < src + 2 ^ 18 then x.1 - src + dst else x.1, x.2)) })
      ((s.countMove page).mapMarks (fun x =>
        if x.bound && x.base / 2 ^ 18 == page then { x with dhome := h2 } else x), 0)
  | _, _ => (s, 1)

end Sys2Proof.Machine
end

