-- ==== Sys2Proof/Machine/Release.lean ====
section
/-!
DEFINITION. Releases and what follows them (13 R318 to R325, 11 R261, R262): probes, lazy and eager release, and the
completion of the instructions that leave the rotation.
-/

namespace Sys2Proof.Machine

/-! ### Releases -/

/-- How an instruction releases before it acts (13 R306). -/
inductive RelKind where
  | none | lazy | eager (scope : FenceScope)
  deriving DecidableEq, Repr
def Act.relKind : Act → RelKind
  | .storeRel .. | .fill _ => .lazy
  | .amo _ _ _ ord => if ord.isRel then .lazy else .none
  | .cas _ _ _ ord => if ord.isRel then .lazy else .none
  | .fence k sc => if k == .acq then .none else .eager sc
  | .gbar | .spawn .. | .yield _ | .endTask | .hend | .engine _ | .matrix _ | .mdrain .. | .lease .. | .plbinv ..
  | .pgmove .. => .eager .dev
  | _ => .none
/-- The homes a release probes (13 R318, R322). -/
def RelKind.covers (r : RelKind) (c h : Nat) : Bool :=
  match r with | .eager sc => scopeHomes c sc h | _ => true

def State.setPhase (s : State) (t op : Nat) (p : Phase) : State :=
  s.modThread t (fun th => th.modOp op (fun o => { o with phase := p }))
/-- The BANKMASK bit of a home set (11 R257); ports and management space set none. -/
def State.setBank (s : State) (t : Nat) (va : Word) : State :=
  if selector va == 0xF8 || selector va == 0xFC then s
  else
    let h := targetCore s (tcore t) va
    s.modThread t (fun th => { th with bankmask := th.bankmask ||| bankBit h })
/-- The access message of an operation sent to its home; a PREF sets no BANKMASK bit (11 R257). -/
def State.sendAccess (s : State) (t op : Nat) (va : Word) : State :=
  match s.thread t with
  | none => s
  | some th =>
    let c := tcore t
    let plain := match th.op op with | some o => (match o.act with | .pref _ => false | _ => true) | none => true
    let s := (if plain then s.setBank t va else s).send (.core c) (accessPlace s c va) (th.owner t) (.access t op)
    s.setPhase t op (.sent 1)
/-- Bytes that a release store or a FILL will write removed from the thread's own copy of the sector (13 R318 step 3). Those of a
copy that another thread of the core holds go when the home has taken the store (13 R311). -/
def State.dropOwn (s : State) (t : Nat) (th : Thread) (va : Word) (n : Nat) : State :=
  let x := nearSector (s.core (tcore t)) va th.domain
  if selector va != 0 || (x.holds && x.owner != th.owner t) then s
  else s.dropBytes (tcore t) va th.domain (byteMask (va.toNat % 32) n)
/-- The sector of a release store marked pending (13 R318 step 3). -/
def State.markPending (s : State) (t : Nat) (th : Thread) (va : Word) : State :=
  if selector va != 0 then s
  else s.modCore (tcore t) (fun k => { k with pending := k.pending ++ [(va.toNat / 32, th.owner t)] })
/-- What follows a release (13 R318 step 3, R323, R325): the access goes to its home, a matrix operation starts, any other
instruction stands ready to act. -/
def State.afterRelease (s : State) (t : Nat) (th : Thread) (o : Op) : State :=
  match o.act with
  | .storeRel n _ => ((s.dropOwn t th o.va n).markPending t th o.va).sendAccess t o.id o.va
  | .fill _ => (s.dropOwn t th o.va 8).sendAccess t o.id o.va
  | .matrix m => (s.startMatrix t th o.id m).setPhase t o.id (.sent 1)
  | .fence .. | .spawn .. | .yield _ | .endTask | .hend | .engine _ | .mdrain .. | .lease .. | .plbinv .. | .pgmove .. =>
    s.setPhase t o.id (.sent 0)
  | _ => s.sendAccess t o.id o.va
/-- The epoch ended, as every synchronising operation does (13 R305, R306). -/
def State.endEpoch (s : State) (t : Nat) : State := s.modThread t (fun th => { th with epoch := [], shed := [] })
/-- BANKMASK cleared and a new epoch begun (13 R305, R318 step 4). -/
def State.newEpoch (s : State) (t : Nat) : State :=
  s.modThread t (fun th => { th with bankmask := 0, epoch := [], shed := [], written := [] })
/-- The end of an eager release (13 R320, R322): registrations in scope are clear; `.dev` and `.sys` clear BANKMASK. -/
def State.flushDone (s : State) (t : Nat) (th : Thread) (o : Op) (sc : FenceScope) : State :=
  let c := tcore t
  let s := s.unregisterAll (th.owner t) (fun h _ => scopeHomes c sc h)
  let away (key : Nat) : Bool := !scopeHomes c sc (targetCore s c (BitVec.ofNat 64 (32 * key)))
  let s := if sc == .dev || sc == .sys then s.newEpoch t
    else (s.modThread t (fun x => { x with written := x.written.filter away })).endEpoch t
  s.afterRelease t th o
/-- Bytes of a thread that eviction sent back before its eager release, from whatever core, and that are not home yet: the release
waits for them as for its own (13 R320). Answers their number. -/
def State.awaitSent (s : State) (t : Nat) (th : Thread) (op : Nat) (inScope : Nat → Bool) : State × Nat :=
  let mine (k : Nat) (va : Word) (w : Owner) (waiter : Option (Nat × Nat)) : Bool :=
    w == th.owner t && waiter.isNone && inScope (targetCore s k va)
  let xs := s.msgs.filter (fun m => match m.payload with | .wback k va _ _ _ w _ x => mine k va w x | _ => false)
  ({ s with msgs := s.msgs.map (fun m => match m.payload with
      | .wback k va mask data tags w _ x =>
        if mine k va w x then { m with payload := .wback k va mask data tags w true (some (t, op)) } else m
      | _ => m) }, xs.length)
/-- Bytes of a thread on their way home that a lazy release covers: a pull of their core awaits them (13 R313, R318, R319). -/
def State.coverSent (s : State) (me : Owner) : State :=
  { s with msgs := s.msgs.map (fun m => match m.payload with
      | .wback k va mask data tags w false x =>
        if w == me then { m with payload := .wback k va mask data tags w true x } else m
      | _ => m) }
/-- Every echo has returned (13 R318 step 2, R320): a lazy release marks the thread's dirty sectors, an eager one writes
them back. -/
def State.probesDone (s : State) (t : Nat) (th : Thread) (o : Op) : State :=
  let c := tcore t
  let me := th.owner t
  match o.act.relKind with
  | .eager sc =>
    let r := s.awaitSent t th o.id (scopeHomes c sc)
    let xs := heldBy s c me (scopeHomes c sc)
    let s := xs.foldl (fun s x => s.writeBack c x.1 x.2 true (some (t, o.id))) r.1
    let n := r.2 + xs.length
    if n = 0 then s.flushDone t th o sc else s.setPhase t o.id (.flushing n)
  | _ =>
    ((((s.markReleased c me).coverSent me)).newEpoch t).afterRelease t th o
/-- An operation entered and its release begun: a probe to each home its mask names (13 R318). -/
def State.launch (s : State) (t : Nat) (o : Op) (la : Nat) : State :=
  let s := s.startOp t o la
  match s.thread t, o.act.relKind with
  | none, _ => s
  | some th, .none => s.afterRelease t th o
  | some th, r =>
    let hs := probed th.bankmask (fun h => r.covers (tcore t) h)
    let s := hs.foldl (fun s h => s.send (.core (tcore t)) (.core h) (th.owner t) (.probe t o.id)) s
    if hs.isEmpty then s.probesDone t th o else s.setPhase t o.id (.probing hs.length)

/-! ### Completion of what left the rotation (11 R256, 14, 16) -/

/-- Whether every value of an operation can be put now (03 R52, 13 R326). -/
def opClear (s : State) (t : Nat) (o : Op) : Bool :=
  match s.thread t with | some th => o.dests.all (fun d => pushClear s t th o.id d) | none => true
/-- The results of an operation delivered, its acquire performed, its thread back in the rotation; results that cannot be pushed
yet wait with the operation (03 R52). -/
def State.completeOut (s : State) (t : Nat) (o : Op) (vs : List Val) : State :=
  if !opClear s t o then s.setPhase t o.id (.done vs)
  else
  let s := (o.dests.zip vs).foldl (fun s x => s.putNow t x.1 x.2) s
  let s := if o.acquire then (s.acquireInv (tcore t) (fun _ => true)).endEpoch t else s
  s.modThread t (fun th =>
    ({ th.dropOp o.id with flags := th.flags.or o.flags }).rejoin)
/-- SPAWN after its release (14 R358): the state and d, or a refusal. DESIGN CHOICE (log 97): the read of the TCB sets no BANKMASK
bit. -/
def State.spawnAct (s : State) (t : Nat) (th : Thread) (a : Val) (count : Word) (cluster : Nat) : State × Reply :=
  let va := capCursor a.bits
  let s := s.pullSpan (tcore t) va 64
  match readGranules s t th va 4 with
  | .error c => (s, .refuse c va)
  | .ok g =>
    let x := tcbOf g
    let s := s.requeueAll (if cluster = 255 then clusterOf (tcore t) else cluster)
    let s := s.pullSpan (tcore t) (capCursor x.param.bits) (16 * min 64 x.nrange.toNat)
    let cl := if cluster = 255 then clusterOf (tcore t) else cluster
    let k := s.station cl
    let n := count.toNat
    let st (n : Nat) : State × Reply := (s, .answer [Val.ofWord (BitVec.ofNat 64 n)])
    match readRanges s (tcore t) (th.owner t) th.sup x with
    | none => st 1
    | some rs =>
      if n = 0 || 4096 < n || !x.entry.tag || !x.param.tag || badHeader x rs th.sup then st 1
      else if noLease x rs th.ranges then st 2
      else if !k.roomNew n then st 3
      else
        let id0 := taskIdOf cl k.nextTask
        (s.putStation cl (k.enterMany cl x rs th.domain 0 none n 0),
          .answer [Val.data (id0 ++ (0 : Word))])
/-- Whether the thread's other instructions have all ended. -/
def aloneOp (th : Thread) (o : Op) : Bool := th.ops.all (fun x => x.id == o.id)
/-- A refused instruction found by END or YIELD traps in its place; END or YIELD is held to be issued again. -/
def State.trapInstead (s : State) (t : Nat) (o : Op) : State :=
  let s := s.modThread t (fun th => { th.dropOp o.id with status := .ready })
  (s.startTrap t none 0 [⟨pcWord none o.addr, kindWord o.first 0, Val.zero, Val.zero, Val.zero⟩] o.addr o.addr true false).trapNow t
/-- YIELD after its release (14 R359). -/
def State.yieldAct (s : State) (t : Nat) (o : Op) (dl : Word) : State :=
  s.modThread t (fun th =>
    let dl := if th.sup then dl else if dl < th.deadline then th.deadline else dl
    let th := { th.dropOp o.id with deadline := dl, turns := th.tcb.budget }
    { th with status := if th.crew then .ready else .parked .store s.cycle })
/-- HEND after its release (09 R226): the row is cleared, the slot freed, the row counted. -/
def State.hendAct (s : State) (t : Nat) (th : Thread) : State :=
  let c := tcore t
  match th.dispatch with
  | none => s
  | some d =>
    let s := s.modTile c d.tile (fun x => { x with
      elems := x.elems.filter (fun e => !(decide (32 * d.row ≤ e.1) && decide (e.1 < 32 * d.row + 32))) })
    let s := s.modCore c (fun k => { k with drains := k.drains.map (fun (x : Drain) =>
      if x.tile == d.tile then { x with ended := x.ended + 1 } else x) })
    (s.forget (th.owner t)).dropPlb t |>.dropThread t
/-- An MDRAIN takes its place in the order of its core's drains as it issues (09 R224). -/
def State.queueDrain (s : State) (t : Nat) (th : Thread) (tile : Nat) (id : BitVec 16) (compl : Val) : State :=
  let c := tcore t
  let sh := ((s.core c).tile tile).shape.toNat
  let rows := [32, 32, 32, 1, 8].getD sh 32
  let d : Drain :=
    { tile := tile, id := id, compl := compl, rows := rows, next := 0, ended := 0, failed := none
      taskid := th.taskid, deadline := th.deadline, domain := th.domain
      record := th.moves ++ th.edits ++ th.record, ranges := th.ranges, armed := false }
  s.modCore c (fun k => { k with drains := k.drains ++ [d] })
/-- MDRAIN accepted after its release (09 R224). -/
def State.drainAct (s : State) (t tile : Nat) : State :=
  let c := tcore t
  (s.modTile c tile (fun x => { x with drain := true })).modCore c (fun k => { k with
    drains := k.drains.map (fun (d : Drain) => if d.tile == tile then { d with armed := true } else d) })

/-! ### The end of a drain (09 R226 to R228) -/

/-- Whether a handler of the core still works on a drain's tile. -/
def drainRunning (s : State) (c : Nat) (d : Drain) : Bool :=
  s.threads.any (fun x => tcore x.1 == c && (match x.2.dispatch with | some y => y.tile == d.tile | none => false))
/-- Whether a live lease of a domain lets a completion word be filled (09 R228). -/
def liveLease (s : State) (dom : BitVec 16) (va : Word) : Bool :=
  let ok (th : Thread) : Bool := th.domain == dom && th.dispatch.isNone && leased th.ranges (permW ||| permFE) va 8
  s.threads.any (fun x => ok x.2) || s.stations.any (fun st => st.2.store.any (fun e => ok e.2.thread))
  || (packedTasks s).any (fun p => ok p.thread)
/-- The completion word of a drain filled (09 R226, R227, R228): a full word is left alone and recorded. -/
def State.fillDrain (s : State) (c : Nat) (d : Drain) : State :=
  let va := capCursor d.compl.bits
  let status := match d.failed with | some f => f.num.toNat | none => 0
  let v : Word := BitVec.ofNat 64 (d.next * 2 ^ 24 + status * 2 ^ 16 + d.id.toNat)
  let me : Owner := ⟨0, d.taskid⟩
  let record (s : State) (f : Code) : State := s.causeRecord d.domain me c ⟨0, va, BitVec.ofNat 64 (s.tsAt c), f⟩
  if !d.compl.tag then s
  else if d.failed == some .leaseRevoked && !liveLease s d.domain va then record s .leaseRevoked
  else
    let r := s.completeWord c me .fill va v
    match r.2 with
    | some f => record r.1 (if f == .doubleFill then .doubleFill else f)
    | none => r.1
/-- A drain that has handed over its rows, or failed with no handler left, ends: its tile is released, its completion
word filled, and the lease of an owner that has ended is unpinned. -/
def State.settleDrain (s : State) (c : Nat) (d : Drain) : State :=
  let ended := d.armed && (d.failed.isSome || decide (d.rows ≤ d.ended)) && !drainRunning s c d
  if !ended then s
  else
    let s := s.modCore c (fun k => { k with
      drains := k.drains.filter (fun x => x.tile != d.tile)
      tiles := tmod k.tiles d.tile Tile.reset Tile.release })
    let s := s.fillDrain c d
    if taskLives s d.taskid || drainHolds (s.core c) d.taskid then s else s.pinRanges false d.ranges
def State.settleDrains (s : State) (c : Nat) : State :=
  (s.core c).drains.foldl (fun s d => s.settleDrain c d) s

/-! ### What HOME_ACKNOWLEDGEMENT finishes -/

/-- Whether a FENCE `.sys` still waits for a write to a port or to host space (13 R327). -/
def portsBusy (th : Thread) : Bool :=
  th.ops.any (fun x => (match x.act with | .store .. => true | _ => false) && !x.isSettled)
/-- Whether a read that a thread issued before an operation is not yet performed: an acquiring FENCE comes after it (13 R322). -/
def readsBefore (th : Thread) (o : Op) : Bool :=
  th.ops.any (fun x => decide (x.id < o.id) && x.act.readsWords && !x.isSettled && (match x.act with | .pref _ => false | _ => true))
/-- The act of an instruction that stands ready after its release; none while it must wait. -/
def State.finishAct (s : State) (t : Nat) (th : Thread) (o : Op) : Option State :=
  let c := tcore t
  let status (s : State) (n : Nat) : State := s.completeOut t o [Val.ofWord (BitVec.ofNat 64 n)]
  match o.act with
  | .fence k sc =>
    if (sc == .sys && portsBusy th) || (k != .rel && readsBefore th o) then none
    else
      let s := if k == .rel then s else (s.acquireInv c (scopeHomes c sc)).endEpoch t
      some (s.completeOut t o [])
  | .spawn a n cl =>
    let r := s.spawnAct t th a n cl
    (match r.2 with
    | .answer vs => some (r.1.completeOut t o vs)
    | .refuse f va => some (r.1.modThread t (fun x =>
        (x.modOp o.id (fun y => { y with phase := .refused f va })).rejoin))
    | _ => none)
  | .yield dl =>
    if aloneOp th o then some (s.yieldAct t o dl)
    else if (th.ops.filter (fun x => x.id != o.id)).all Op.isSettled then some (s.trapInstead t o) else none
  | .endTask =>
    if aloneOp th o then
      some ((s.modThread t (fun x => x.dropOp o.id)).endThread t 0 o.addr |>.settleDrains c)
    else if (th.ops.filter (fun x => x.id != o.id)).all Op.isSettled then some (s.trapInstead t o) else none
  | .hend =>
    if aloneOp th o then some ((s.hendAct t th).settleDrains c)
    else if (th.ops.filter (fun x => x.id != o.id)).all Op.isSettled then some (s.trapInstead t o) else none
  | .engine e =>
    let r := s.acceptEngine c e
    some (r.1.completeOut t o [r.2])
  | .mdrain tile _ _ => some ((s.drainAct t tile).completeOut t o [])
  | .dump =>
    let rest := th.ops.filter (fun x => x.id != o.id)
    if rest.all Op.isSettled then
      let r := s.dump th.domain (th.owner t) 1 c th.trapActive.toList
        (contextGranules s t th ((rest.map Op.settled).flatten ++ th.reinject))
      some (status r.1 r.2)
    else none
  | .lease op a dom =>
    let pages := pagesOf a.bits
    if forcing s t pages then none
    else
      let r := (s.walkPages pages).leaseAct t th op a dom
      (match r.2 with
      | some n => some (status r.1 n)
      | none => if r.1.threads == s.threads && o.ticks == 1 then none
        else some (r.1.modThread t (fun x => x.modOp o.id (fun y => { y with ticks := 1 }))))
  | .plbinv sc arg => let r := s.plbInvalidate sc arg; some (status r.1 r.2)
  | .pgmove page h f => if ticksBehind s page h then none else let r := (s.walkPages [page]).movePage t page h f; some (status r.1 r.2)
  | _ => some (s.completeOut t o [])

end Sys2Proof.Machine
end

