-- ==== Sys2Proof/Machine/Memory.lean ====
section
/-!
DEFINITION. Loads, stores, lines, acquire loads, release stores, capabilities in memory and travel (11 R253 to R261,
R270).
-/

namespace Sys2Proof.Machine

/-! ### What every access shares (11 R255 to R257) -/

/-- The address of an access. -/
def accessVa (v : Vals) : Word := capCursor v.a.bits + v.off
/-- A of R370: the capability with its cursor at the access address. -/
def slotA (v : Vals) (va : Word) : Val := capMove v.a va
/-- Permissions asked of the capability and of the lease range (10 R232); `view` and `host` as in Want. -/
def want (need lease : BitVec 12) : Want := ⟨need, lease, false, false, false⟩
def wantLd : Want := ⟨permR, permR, true, true, true⟩
def wantSt : Want := ⟨permW, permW, false, true, true⟩
/-- Posted accesses a thread has outstanding (11 R256): a push that waits is none. -/
def postedOut (th : Thread) : Nat := (th.ops.filter (fun o => o.cls == .posted && o.act != .nothing)).length
/-- The park of a thread with 32 posted accesses outstanding. -/
def postedFull (th : Thread) : Bool := Config.postedMax ≤ postedOut th
/-- The checks and the translation of an access at issue (11 R255): the state, or the stop. -/
def accessStep (s : State) (th : Thread) (a : Val) (w : Want) (va : Word) (n align : Nat) (posted : Bool) :
    Except Stop State :=
  match accessCheck s th a w va n align with
  | some c => .error (.trap c va)
  | none =>
    match translateSpan s s.cur va n with
    | .error e => .error e
    | .ok s1 =>
      if converting s va n then .error (.park .range)
      else if posted && postedFull th then .error (.park .postedRoom)
      else .ok s1
/-- What the near slice answers of n bytes a thread loads (10 R235): nothing where the bytes are words of a bound mark domain,
which only their home judges (12 R290), or where the thread's own writes of them are on their way past another thread's bytes. -/
def nearHit (s : State) (t : Nat) (th : Thread) (va : Word) (n : Nat) : Option (Nat × Bool) :=
  let c := tcore t
  if selector va != 0 || markAt s va n (targetCore s c va) || writesOut s t va &&& byteMask (va.toNat % 32) n != 0 then none
  else nearRead (s.core c) th.domain va n
/-- An operation with what its sector's near-slice copy holds, but for bytes that writes of the thread on their way to the home
will pass it with (10 R235, 13 R310). -/
def State.withHeld (s : State) (t : Nat) (o : Op) : Op :=
  match s.thread t with
  | some th =>
    let x := nearSector (s.core (tcore t)) o.va th.domain
    let newer := if x.owner == th.owner t then 0 else writesOut s t o.va
    if selector o.va == 0 && x.holds then { o with mask := x.mask &&& ~~~newer, held := x.data, tags := x.tags } else o
  | none => o
/-- A near-slice line for a missing load: none free counts a bypass (10 R236). -/
def State.roomFor (s : State) (t : Nat) (va : Word) : State :=
  match s.thread t with
  | some th =>
    if selector va != 0 then s
    else (match s.ensureLine (tcore t) va th.domain with
      | some s => s
      | none => s.countCore (tcore t) cBYPASS 1)
  | none => s
/-- A posted access entered, its messages sent by `k`, and retired at once when it sent none. -/
def State.post (s : State) (t : Nat) (o : Op) (k : State → State × Nat) : State :=
  let r := k (s.startOp t o 0)
  if r.2 = 0 then r.1.modThread t (fun th => th.dropOp o.id) else r.1.setPhase t o.id (.sent r.2)
/-- Messages of plain stores to several sectors summed. -/
def plainSectors (t op : Nat) (vas : List Word) (data : BitVec 256) (s : State) : State × Nat :=
  vas.foldl (fun r va =>
    let x := r.1.plainStore t op va (BitVec.allOnes 32) data none
    (x.1, r.2 + x.2)) (s, 0)

/-! ### Travel (11 R270, 14 R348, R349) -/

/-- Bytes of a size code (11 R254). -/
def sizeOf (sz : BitVec 3) : Nat := 2 ^ sz.toNat
/-- Whether a task owns a tile of its core. -/
def ownsTile (s : State) (t : Nat) (th : Thread) : Bool :=
  (s.core (tcore t)).tiles.any (fun x => x.2.owner == th.taskid && !x.2.free)
/-- The core an access with GO moves its task to, none where it is performed where it stands: also where entries of the replay
queue stand behind it, which no packed context holds (log 20). -/
def travelTarget (s : State) (t : Nat) (th : Thread) (va : Word) : Option Nat :=
  let h := targetCore s (tcore t) va
  let last := (th.reinject.drop (if s.unit.replay.isSome then 2 else 1)).isEmpty
  if th.mode == .travel && selector va == 0 && h != tcore t && !ownsTile s t th && !th.travelGo && last
      && s.partOf (clusterOf h) == s.partOf (clusterOf (tcore t)) then some h else none
/-- Whether a travel task may leave: k0 to k15 are present, but for what a re-injected access will itself write, and nothing of
it is outstanding. -/
def mayLeave (u : UnitWords) (th : Thread) : Bool :=
  let own := if u.replay.isSome then regsOf (destsOf u.word) else []
  (List.range 16).all (fun r => (th.reg r).present || own.contains r) && th.ops.isEmpty
/-- An access with GO: the task travels first, or the access goes on (11 R270); `wait` is what a task does that may not leave
yet. -/
def withTravel (go : Bool) (wait : Stop) (va : Word) (th : Thread) (s : State) (k : State → Except Stop State) :
    Except Stop State :=
  match (if go then travelTarget s s.cur th va else none) with
  | some h => .error (if mayLeave s.unit th then .travel h else wait)
  | none => k (s.modThread s.cur (fun x => { x with travelGo := false }))

/-! ### LD, ST (11 R258) -/

def execLd (m : MemOps) (sz : BitVec 3) (sx go : Bool) (s : State) :=
  issue (.ld m sz sx go) s (fun v th s =>
    let n := sizeOf sz
    let va := accessVa v
    match accessStep s th v.a wantLd va n n false with
    | .error e => .error e
    | .ok s => withTravel go .wait va th s (fun s =>
      let t := s.cur
      let dests := if sz == 5 then destGroup m.d 2 else [m.d]
      match nearHit s t th va n with
      | some x => .ok (((s.modCore (tcore t) (fun k => nearTouch k va th.domain)).setBank t va).deferResult t dests
          (loadVals n sx x.1) Flags.none m.la)
      | none =>
        let s := s.roomFor t va
        let o := s.withHeld t { s.newOp .longLat (.load n sx) (.sent 1) va with
          dests := dests, slot1 := slotA v va, capture := true }
        .ok (s.launch t o m.la.toNat)))
def execSt (m : MemOps) (sz : BitVec 3) (go : Bool) (s : State) :=
  issue (.st m sz go) s (fun v th s =>
    let n := sizeOf sz
    let va := accessVa v
    match accessStep s th v.a wantSt va n n true with
    | .error e => .error e
    | .ok s => withTravel go .wait va th s (fun s =>
      let t := s.cur
      let port := selector va == 0xF8 || selector va == 0xFC
      let o := { s.newOp .posted (if port then .store n v.d v.d1 else .placed) (.sent 1) va with
        slot1 := slotA v va, slot2 := v.d, slot3 := v.d1, capture := true }
      if port then .ok (s.launch t o 0)
      else .ok (s.post t o (fun s =>
        s.plainRun t o.id none 2 va n (v.d.bits.toNat + 2 ^ 128 * v.d1.bits.toNat)))))

/-! ### LDA, STL (11 R261) -/

def execLda (m : MemOps) (sz : BitVec 3) (s : State) :=
  issue (.lda m sz) s (fun v th s =>
    let n := sizeOf sz
    let va := accessVa v
    match accessStep s th v.a (want permR permR) va n n false with
    | .error e => .error e
    | .ok s =>
      let o := s.withHeld s.cur { s.newOp .out (.loadAcq n) (.sent 1) va with
        dests := [m.d], slot1 := slotA v va, capture := true, acquire := true }
      .ok (s.launch s.cur o 0))
def execStl (m : MemOps) (sz : BitVec 3) (s : State) :=
  issue (.stl m sz) s (fun v th s =>
    let n := sizeOf sz
    let va := accessVa v
    match accessStep s th v.a (want permW permW) va n n false with
    | .error e => .error e
    | .ok s =>
      let o := { s.newOp .out (.storeRel n v.d) (.sent 1) va with slot1 := slotA v va, slot2 := v.d, capture := true }
      .ok (s.launch s.cur o 0))

/-! ### LDCAP, STCAP (11 R259) -/

def execLdcap (m : MemOps) (s : State) :=
  issue (.ldcap m) s (fun v th s =>
    let va := accessVa v
    match accessStep s th v.a { wantLd with view := false, peer := false } va 16 16 false with
    | .error e => .error e
    | .ok s =>
      let t := s.cur
      let keep := grants (capPerms v.a.bits) permLC && leased th.ranges (permR ||| permLC) va 16
        && selector va != 0xFC
      let shown (x : Val) : Val := if 257 ≤ m.d.toNat then ⟨x.bits, false⟩ else x
      match nearHit s t th va 16 with
      | some x =>
        .ok (((s.modCore (tcore t) (fun k => nearTouch k va th.domain)).setBank t va).deferResult t [m.d]
          [shown (capVal keep (BitVec.ofNat 128 x.1) x.2)] Flags.none m.la)
      | none =>
        let s := s.roomFor t va
        let o := s.withHeld t { s.newOp .longLat (.loadCap (keep && m.d.toNat ≤ 256)) (.sent 1) va with
          dests := [m.d], slot1 := slotA v va, capture := true }
        .ok (s.launch t o m.la.toNat))
/-- PERM of a tagged value that lacks GL in global space (11 R259), after TAG and SEALED. -/
def stcapCheck (s : State) (th : Thread) (a d : Val) (va : Word) : Option Code :=
  let extra : BitVec 12 := if d.tag then permSC else 0
  let local_ : Bool := d.tag && selector va == 0 && !grants (capPerms d.bits) permGL
  let w : Want := ⟨permW ||| extra, permW ||| extra, false, true, false⟩
  match accessCheck s th a w va 16 16 with
  | some .tag => some .tag
  | some .sealed => some .sealed
  | c => if local_ then some .perm else c
def execStcap (m : MemOps) (s : State) :=
  issue (.stcap m) s (fun v th s =>
    let va := accessVa v
    match stcapCheck s th v.a v.d va with
    | some c => .error (.trap c va)
    | none =>
      match accessStep s th v.a { wantSt with peer := false } va 16 16 true with
      | .error e => .error e
      | .ok s =>
        let t := s.cur
        let port := selector va == 0xFC
        let o := { s.newOp .posted (if port then .store 16 v.d Val.zero else .placed) (.sent 1) va with
          slot1 := slotA v va, slot2 := v.d, capture := true }
        if port then .ok (s.launch t o 0)
        else .ok (s.post t o (fun s => s.plainRun t o.id (some v.d.tag) 1 va 16 v.d.bits.toNat)))

/-! ### PREF, ZLINE, MIG (11 R260, R270) -/

/-- Whether a leaf of the thread's own or of every domain maps the address of a PREF (11 R260, 16 R387). -/
def prefMapped (s : State) (th : Thread) (va : Word) : Bool :=
  match walk s (translated s va) with | some l => l.domain == 0xFFFF || l.domain == th.domain | none => false
/-- PREF: a failed check, a mapping that is none and a pinned set make it do nothing (11 R260). -/
def execPref (m : MemOps) (home : Bool) (s : State) :=
  issue (.pref m home) s (fun v th s =>
    let va := accessVa v / 128 * 128
    let pinned := !home && (s.ensureLine (tcore s.cur) va th.domain).isNone
    if (accessCheck s th v.a ⟨permR, permR, true, false, false⟩ va 128 1).isSome || selector va != 0 || !prefMapped s th va
        || pinned then .ok s
    else match translate s s.cur va with
      | .error e => .error e
      | .ok s =>
        if postedFull th then .error (.park .postedRoom)
        else .ok (s.launch s.cur { s.newOp .posted (.pref home) (.sent 1) va with slot1 := slotA v va, capture := true } 0))
def execZline (m : MemOps) (s : State) :=
  issue (.zline m) s (fun v th s =>
    let va := accessVa v
    match accessStep s th v.a (want permW permW) va 128 128 true with
    | .error e => .error e
    | .ok s =>
      let t := s.cur
      let o := { s.newOp .posted .placed (.sent 1) va with slot1 := slotA v va, capture := true }
      .ok (s.post t o (plainSectors t o.id ((List.range 4).map (fun i => va + BitVec.ofNat 64 (32 * i))) 0)))
/-- What MIG checks: TAG, SEALED and BOUNDS on one byte, and the lease (11 R270). -/
def migCheck (th : Thread) (v : Val) (va : Word) : Option Code :=
  match capCheck v 0 va.toNat 1 1 with
  | some c => some c
  | none => if leased th.ranges 0 va 1 then none else some .lease
/-- MIG leaves the rotation while its task may not leave yet (11 R256, R270). -/
def execMig (m : MemOps) (s : State) :=
  issue (.mig m) s (fun v th s =>
    let va := accessVa v
    match migCheck th v.a va with
    | some c => .error (.trap c va)
    | none =>
      match translate s s.cur va with
      | .error e => .error e
      | .ok s => withTravel true (.park .leave) va th s .ok)

end Sys2Proof.Machine
end

