-- ==== Sys2Proof/Machine/Sync.lean ====
section
/-!
DEFINITION. Atomics, full/empty words, watches, fences and top-k lists (11 R262 to R269).
-/

namespace Sys2Proof.Machine

/-- An operation that the home performs as one event sent, or released first where its act releases. -/
def issueHome (t : Nat) (o : Op) (la : BitVec 4) (s : State) : Except Stop State := .ok (s.launch t o la.toNat)
/-- The core's copy of a sector written back and dropped before an atomic (11 R263); region 0x00 only. -/
def State.giveUp (s : State) (t : Nat) (th : Thread) (va : Word) : State :=
  if selector va == 0 then s.surrender (tcore t) va th.domain else s

/-! ### AMO, CAS, TOPKINS -/

/-- Bytes of an atomic. -/
def atomSize (size8 : Bool) : Nat := if size8 then 8 else 4
/-- The class of an ordered or relaxed atomic (11 R256). -/
def ordClass (o : Ord) : OpClass := if o == .rlx then .longLat else .out
def execAmo (o : AmoOps) (s : State) :=
  issue (.amo o) s (fun v th s =>
    let n := atomSize o.size8
    let va := accessVa v
    match accessStep s th v.a (want permAT permAT) va n n false with
    | .error e => .error e
    | .ok s =>
      let s := s.giveUp s.cur th va
      issueHome s.cur { s.newOp (ordClass o.ord) (.amo o.fn n v.b.lo o.ord) (.sent 1) va with
        dests := [o.d], slot1 := slotA v va, slot2 := v.b, capture := true, acquire := o.ord.isAcq } o.la s)
def execCas (o : CasOps) (s : State) :=
  issue (.cas o) s (fun v th s =>
    let n := atomSize o.size8
    let va := accessVa v
    match accessStep s th v.a (want permAT permAT) va n n false with
    | .error e => .error e
    | .ok s =>
      let s := s.giveUp s.cur th va
      issueHome s.cur { s.newOp (ordClass o.ord) (.cas n v.b.lo v.c.lo o.ord) (.sent 1) va with
        dests := [o.d], slot1 := slotA v va, slot2 := v.b, slot3 := v.c, capture := true, acquire := o.ord.isAcq } o.la s)
/-- Sectors a TOPKINS gives up: up to the one that holds byte 519, within the header's page (11 R266). -/
def topkSectors (va : Word) : List Word := sectorsOf va (min 520 (2 ^ 18 - va.toNat % 2 ^ 18))
def execTopkins (o : TopkOps) (s : State) :=
  issue (.topkins o) s (fun v th s =>
    let va := accessVa v
    let need := permR ||| permW ||| permAT
    match accessStep s th v.a (want need need) va 8 8 false with
    | .error e => .error e
    | .ok s =>
      let s := (topkSectors va).foldl (fun s a => s.giveUp s.cur th a) s
      issueHome s.cur { s.newOp .longLat (.topkins (v.b.bits.setWidth 32) (v.c.bits.setWidth 32)) (.sent 1) va with
        dests := [o.d], slot1 := slotA v va, slot2 := v.b, slot3 := v.c, capture := true } o.la s)

/-! ### Full/empty words, WAITNE -/

def execWld (m : MemOps) (take : Bool) (s : State) :=
  issue (.wld m take) s (fun v th s =>
    let va := accessVa v
    let need := permR ||| permFE ||| (if take then permW else 0)
    match accessStep s th v.a (want need (permR ||| permFE)) va 8 8 false with
    | .error e => .error e
    | .ok s =>
      issueHome s.cur (s.withHeld s.cur { s.newOp .out (.wld take) (.sent 1) va with
        dests := [m.d], slot1 := slotA v va, capture := true, acquire := true }) 0 s)
def execFill (m : MemOps) (s : State) :=
  issue (.fill m) s (fun v th s =>
    let va := accessVa v
    match accessStep s th v.a (want (permW ||| permFE) (permW ||| permFE)) va 8 8 false with
    | .error e => .error e
    | .ok s =>
      issueHome s.cur { s.newOp .out (.fill v.d.lo) (.sent 1) va with
        slot1 := slotA v va, slot2 := v.d, capture := true } 0 s)
def execEmpty (m : MemOps) (s : State) :=
  issue (.empty m) s (fun v th s =>
    let va := accessVa v
    match accessStep s th v.a (want (permW ||| permFE) (permW ||| permFE)) va 8 8 true with
    | .error e => .error e
    | .ok s =>
      issueHome s.cur { s.newOp .posted .empty (.sent 1) va with slot1 := slotA v va, capture := true } 0 s)
def execFest (m : MemOps) (s : State) :=
  issue (.fest m) s (fun v th s =>
    let va := accessVa v
    match accessStep s th v.a (want permFE (permR ||| permFE)) va 8 8 false with
    | .error e => .error e
    | .ok s =>
      issueHome s.cur { s.newOp .out .fest (.sent 1) va with
        dests := [m.d], slot1 := slotA v va, capture := true } 0 s)
def execWaitne (o : WaitneOps) (s : State) :=
  issue (.waitne o) s (fun v th s =>
    let va := accessVa v
    match accessStep s th v.a (want (permR ||| permFE) (permR ||| permFE)) va 8 8 false with
    | .error e => .error e
    | .ok s =>
      issueHome s.cur (s.withHeld s.cur { s.newOp .out (.waitne v.b.lo) (.sent 1) va with
        dests := [o.d], slot1 := slotA v va, slot2 := v.b, capture := true }) 0 s)

/-! ### FENCE (11 R262) -/

def execFence (p : Pfx) (kind : FenceKind) (scope : FenceScope) (s : State) :=
  issue (.fence p kind scope) s (fun _ _ s =>
    .ok (s.launch s.cur (s.newOp .out (.fence kind scope) (.sent 0) 0) 0))

end Sys2Proof.Machine
end

