-- ==== Sys2Proof/Machine/EngineIssue.lean ====
section
/-!
DEFINITION. The issue of COPY, ARCOUT, ARCIN, ARCDROP, ENGST, WAYCONV (11 R271 to R282) and CQSPLIT's stores (08 R186 to
R189).
-/

namespace Sys2Proof.Machine

/-! ### Operations of the engine -/

/-- Bytes of granules in order. -/
def granuleBytes (l : List Val) : List Byte := (l.map (fun v => leBytes 16 v.bits.toNat)).flatten
/-- A queued operation of the thread at its turn (11 R271). -/
def newEngine (t : Nat) (th : Thread) (kind : EngKind) (v : Vals) (mode : Compl) (val : Word) : EngOp where
  id := 0
  kind := kind
  taskid := th.taskid
  domain := th.domain
  ranges := th.ranges
  a := v.a
  b := v.b
  c := v.c
  e := v.e
  mode := mode
  v := val
  esize := 0
  dims := []
  running := false
  progress := 0
  failed := none
  answered := false
  revoked := false
  drive := 0
  lba := 0
  stage := 0
  held := 0
  blocks := 0
  since := tcore t
/-- An operation handed to the engine once the issuer has released (11 R271, 13 R323); a full queue parks it. -/
def toEngine (d : Opn) (e : EngOp) (s : State) : Except Stop State :=
  if engineFull s (tcore s.cur) then .error (.park .engineQueue)
  else .ok (s.launch s.cur { s.newOp .out (.engine e) (.sent 0) 0 with dests := [d] } 0)
/-- The shape block of a COPY read at issue (11 R275): element size and dimensions, or the stop. -/
def readShape (s : State) (t : Nat) (th : Thread) (c : Val) : Except Stop (Nat × List Dim) :=
  let a := capCursor c.bits
  let w := want permR permR
  let get (n : Nat) : Except Stop (List Byte) :=
    match accessCheck s th c w a n 16 with
    | some f => .error (.trap f a)
    | none => if ownWaits s t th then .error (.park .own) else match readGranules (s.pullSpan (tcore t) a n) t th a ((n + 15) / 16) with
      | .error f => .error (.trap f a)
      | .ok g => .ok (granuleBytes g)
  match get 16 with
  | .error e => .error e
  | .ok head =>
    match get (16 + 24 * min 7 (leNat (head.take 1))) with
    | .error e => .error e
    | .ok bytes => match shapeOf bytes with
      | some x => .ok x
      | none => .error (.trap .formatMismatch a)

def execCopy (o : EngOps) (s : State) :=
  issue (.copy o) s (fun v th s =>
    let t := s.cur
    match readShape s t th v.c with
    | .error e => .error e
    | .ok x =>
      match copyCheck s th v.a v.b x.1 x.2 with
      | some f => .error f
      | none => match complCheck s th o.mode v.e with
        | some f => .error f
        | none => toEngine o.d { newEngine t th .copy v o.mode o.v with esize := x.1, dims := x.2 } s)
/-- What ARCOUT asks of its page. -/
def wantPage : Want := { wantRead with view := false }
/-- FORMAT_MISMATCH of ARCOUT's kept-plane mask (11 R279). -/
def planesBad (s : State) (va : Word) (b : Quad) : Bool :=
  let p := bitsOf b 64 8
  bitsOf b 72 56 != 0 || !([0x03, 0x07, 0x0F, 0x1F, 0x3F, 0x7F, 0xFF].contains p) || (!planeMajor s va && p != 0xFF)
/-- The LEASE check on a shelf (11 R277), then the completion capability. -/
def shelfCheck (s : State) (th : Thread) (b : Val) (mode : Compl) (e : Val) : Option Stop :=
  if !shelfLeased s th.domain b.lo.toNat then some (.trap .lease 0) else complCheck s th mode e
def execArcout (o : EngOps) (s : State) :=
  issue (.arcout o) s (fun v th s =>
    let va := capCursor v.a.bits
    match spanCheck s th v.a wantPage va (2 ^ 18) (2 ^ 18) with
    | some f => .error f
    | none =>
      if planesBad s va v.b.bits then .error (.trap .formatMismatch 0)
      else match shelfCheck s th v.b o.mode v.e with
        | some f => .error f
        | none => toEngine o.d (newEngine s.cur th .arcout v o.mode o.v) s)
/-- ARCIN records in `esize` whether a session is expected (11 R280). -/
def execArcin (o : ArcinOps) (s : State) :=
  issue (.arcin o) s (fun v th s =>
    match spanCheck s th v.a wantWrite (capCursor v.a.bits) (2 ^ 18) (2 ^ 18) with
    | some f => .error f
    | none =>
      match shelfCheck s th v.b .fill v.e with
      | some f => .error f
      | none => toEngine o.d { newEngine s.cur th .arcin v .fill o.v with esize := if o.c == 256 then 0 else 1 } s)
def execArcdrop (o : DropOps) (s : State) :=
  issue (.arcdrop o) s (fun v th s =>
    match shelfCheck s th v.b o.mode v.a with
    | some f => .error f
    | none => toEngine o.d (newEngine s.cur th .arcdrop v o.mode (o.v.setWidth 64)) s)
def execEngst (o : EngstOps) (s : State) :=
  issue (.engst o) s (fun v _ s =>
    let id : BitVec 16 := match o.b with | .imm x => x | .reg _ => v.b.bits.setWidth 16
    .ok (s.deferResult s.cur [o.d] [Val.ofWord (engstWord (s.core (tcore s.cur)) id)] Flags.none o.la))

/-! ### WAYCONV (11 R282, 10 R247, R248) -/

/-- Whether a live lease range reaches offsets of home h from `from_` on (10 R248). -/
def waysLeased (s : State) (h from_ : Nat) : Bool :=
  (heldSpans s).any (fun x =>
    let b := BitVec.ofNat 64 (capBase x.2).toNat
    let n := (capTop x.2 - capBase x.2).toNat
    selector b == 0xF2 && decide (h * 2 ^ 18 + from_ < va56 b + n) && decide (va56 b < (h + 1) * 2 ^ 18))
/-- The completion word of a conversion filled. DESIGN CHOICE (log 101): a word that is full, or that the home refuses, is left alone
and a KIND 3 record is written. -/
def State.fillWays (s : State) (h : Nat) (v : Conversion) : State :=
  if !v.compl.tag then s
  else
    let va := capCursor v.compl.bits
    let me : Owner := ⟨0, v.owner⟩
    let r := s.completeWord h me .fill va (BitVec.ofNat 64 v.target)
    match r.2 with
    | some f => r.1.causeRecord v.domain me h ⟨0, va, BitVec.ofNat 64 (s.tsAt h), f⟩
    | none => r.1
/-- A way count asked of a home: the status, with the conversion begun (10 R247). -/
def State.convert (s : State) (h : Nat) (v : Conversion) : State × Nat :=
  let k := s.home h
  if v.target < k.ways && waysLeased s h (32768 * v.target) then (s, 1)
  else if k.conv.isSome then (s, 2)
  else if v.target = k.ways then (s.fillWays h v, 0)
  else
    let s := s.setHome h { k with conv := some v }
    (if v.target < k.ways then s.zeroRange (chipLoc h (32768 * v.target)) (32768 * (k.ways - v.target)) else s, 0)
def execWayconv (p : Pfx) (d a : Opn) (ways : BitVec 4) (s : State) :=
  issue (.wayconv p d a ways) s (fun v th s =>
    if !th.sup then .error (.trap .privilege 0)
    else match (if a == 256 then none else complCheck s th .fill v.a) with
      | some f => .error f
      | none =>
        let r := s.convert (tcore s.cur) ⟨ways.toNat, if a == 256 then Val.zero else v.a, th.domain, th.taskid⟩
        finish s.cur d (Val.ofWord (BitVec.ofNat 64 r.2)) r.1)

/-! ### CQSPLIT (08 R186 to R189) -/

/-- Entries of a CQSPLIT: their bytes, and the results d and d+1. -/
def splitEntries (start lo hi : Quad) (gap limit : Nat) : List (BitVec 256) × Val × Val :=
  let n := codeDim lo
  let r := splitFrom n (codeDigits lo) (codeDigits hi) gap limit (nextIn n (codeDigits lo) (codeDigits hi) (codeDigits start))
  let entry (x : Nat × Nat) : BitVec 256 := codeMake 0 n x.2 ++ codeMake 0 n x.1
  (r.1.map entry,
    Val.ofWord (BitVec.ofNat 64 (r.1.length + (if r.2.isNone then 2 ^ 63 else 0))),
    match r.2 with | some x => Val.data (codeMake 0 n x) | none => Val.zero)
/-- Entries stored in ascending order as plain stores (08 R189). -/
def storeEntries (t op : Nat) (va : Word) (es : List (BitVec 256)) (s : State) : State × Nat :=
  ((List.range es.length).zip es).foldl (fun r x =>
    let y := r.1.plainStore t op (va + BitVec.ofNat 64 (32 * x.1)) (BitVec.allOnes 32) x.2 none
    (y.1, r.2 + y.2)) (s, 0)
/-- CQSPLIT: the checks of 05 R106 on a, then those of the codes (08 R178), then those of the access (10 R231). -/
def execCqsplit (o : SplitOps) (s : State) :=
  issue (.cqsplit o) s (fun v th s =>
    let t := s.cur
    let va := capCursor v.a.bits
    let start : Quad := match v.cont with | some q => q | none => if o.e == 256 then v.b.bits else v.e.bits
    let n := 32 * o.limit.toNat
    match capCheck v.a (withSy permW va) va.toNat n 32, curveCheck [v.b.bits, v.c.bits, start] with
    | some c, _ => .error (.trap c va)
    | none, some c => .error (.trap c 0)
    | none, none =>
      match accessStep s th v.a (want permW permW) va n 32 false with
      | .error e => .error e
      | .ok s =>
        let x := splitEntries start v.b.bits v.c.bits o.gap.toNat o.limit.toNat
        let p := { s.newOp .longLat (.split x.2.1 x.2.2) (.sent 1) va with
          dests := destGroup o.d 2, slot1 := slotA v va, slot2 := v.b, slot3 := v.c, cont := start, capture := true }
        let r := storeEntries t p.id va x.1 (s.startOp t p o.la.toNat)
        .ok (r.1.setPhase t p.id (if r.2 = 0 then .done [x.2.1, x.2.2] else .sent r.2)))

end Sys2Proof.Machine
end

