-- ==== Sys2Proof/Machine/MarkIssue.lean ====
section
/-!
DEFINITION. The issue of the mark family (12 R291 to R301).
-/

namespace Sys2Proof.Machine

/-! ### Checks on cells (12 R292) -/

/-- CURVE_HEADER at the first code that is not well formed, then CURVE_DIM_MISMATCH against the domain's D (08 R177). -/
def markCodes (dims : Nat) (codes : List Quad) : Option Code :=
  if codes.any (fun q => !codeOk q) then some .curveHeader
  else if codes.any (fun q => codeDim q != dims) then some .curveDimMismatch
  else none
/-- Steps 5 to 7 of R292 on the cells from lo to hi. DESIGN CHOICE (log 94): a domain whose span is empty has no cell at its base, so
that an MTICK of it is BOUNDS. -/
def markSpan (s : State) (th : Thread) (d : MarkDomain) (a : Val) (lo hi : Nat) : Option Stop :=
  let va := cellVa d lo
  let n := 8 * (hi - lo + 1)
  if d.cells ≤ hi then some (.trap .bounds (cellVa d hi))
  else match accessCheck s th a (want permAT permAT) va n 8 with
    | some c => some (.trap c va)
    | none => none
/-- The checks of an operation on one cell: the cell, or the stop. -/
def markCell (s : State) (th : Thread) (dom : Nat) (a : Val) (code : Quad) : Except Stop Nat :=
  let d := s.mark dom
  if !d.bound then .error (.trap .wrongClass 0)
  else match markCodes d.dims [code] with
    | some c => .error (.trap c 0)
    | none =>
      let c := codeDigits code
      match markSpan s th d a c c with
      | some f => .error f
      | none => .ok c
/-- A clean copy of a cell's sector dropped before the thread changes the cell (13 R310; log 32). -/
def State.dropCell (s : State) (t : Nat) (th : Thread) (va : Word) : State :=
  let x := nearSector (s.core (tcore t)) va th.domain
  if x.st == .clean then s.surrender (tcore t) va th.domain else s
/-- An operation on one cell sent to its home. -/
def sendMark (cls : OpClass) (act : Act) (dom c : Nat) (dests : List Opn) (v : Vals) (b d : Val) (la : BitVec 4) (s : State) :
    Except Stop State :=
  let va := cellVa (s.mark dom) c
  match translate s s.cur va with
  | .error e => .error e
  | .ok s =>
    match s.thread s.cur with
    | none => .ok s
    | some th =>
      if cls == .posted && postedFull th then .error (.park .postedRoom)
      else
        let s := s.dropCell s.cur th va
        issueHome s.cur { s.newOp cls act (.sent 1) va with
        dests := dests, slot1 := slotA v va, slot2 := b, slot3 := d, capture := true } la s
def execMdep (o : MarkOps) (s : State) :=
  issue (.mdep o) s (fun v th s =>
    let dom := o.dom.toNat
    match markCell s th dom v.a v.b.bits with
    | .error e => .error e
    | .ok c => sendMark .posted (.mdep dom c (v.d.bits.setWidth 32)) dom c [] v v.b v.d 0 s)
def execMerase (o : MarkOps) (s : State) :=
  issue (.merase o) s (fun v th s =>
    let dom := o.dom.toNat
    match markCell s th dom v.a v.b.bits with
    | .error e => .error e
    | .ok c => sendMark .posted (.merase dom c) dom c [] v v.b Val.zero 0 s)
def execMread (o : MarkOps) (s : State) :=
  issue (.mread o) s (fun v th s =>
    let dom := o.dom.toNat
    match markCell s th dom v.a v.b.bits with
    | .error e => .error e
    | .ok c => sendMark .longLat (.mread dom c) dom c [o.d] v v.b Val.zero o.la s)

/-! ### MSENSE, MSAMP (12 R297, R298) -/

/-- Whether a box holds no cell: lo above hi on some axis. -/
def boxEmpty (dims lo hi : Nat) : Bool := (List.range dims).any (fun i => axisVal dims hi i < axisVal dims lo i)
/-- The checks of a box: whether it is empty, or the stop. -/
def markBox (s : State) (th : Thread) (dom : Nat) (a : Val) (lo hi : Quad) : Except Stop Bool :=
  let d := s.mark dom
  if !d.bound then .error (.trap .wrongClass 0)
  else match markCodes d.dims [lo, hi] with
    | some c => .error (.trap c 0)
    | none =>
      if boxEmpty d.dims (codeDigits lo) (codeDigits hi) then .ok true
      else if 4096 < boxCount d.dims (codeDigits lo) (codeDigits hi) then .error (.trap .senseTooLarge 0)
      else match markSpan s th d a (codeDigits lo) (codeDigits hi) with
        | some f => .error f
        | none => .ok false
/-- Homes that hold cells of a box, in the order in which its cells name them. -/
def boxHomes (s : State) (dom : Nat) (lo hi : Quad) : List Nat :=
  let d := s.mark dom
  (boxCells d.dims (codeDigits lo) (codeDigits hi) 4096 (codeDigits lo)).foldl
    (fun l c => let h := cellHome s d c; if l.contains h then l else l ++ [h]) []
/-- A box operation: one message to each home of the box; an empty box reaches none. -/
def sendBox (act : Act) (dom : Nat) (o : SenseOps) (v : Vals) (cont : Quad) (none_ : Bool) (s : State) : Except Stop State :=
  let t := s.cur
  let va := cellVa (s.mark dom) (codeDigits v.b.bits)
  let p := { s.newOp .longLat act (.sent 1) va with
    dests := destGroup o.d 2, slot1 := slotA v va, slot2 := v.b, slot3 := v.c, cont := cont, capture := true }
  if none_ then .ok (s.startOp t { p with phase := .done emptySense } o.la.toNat)
  else match translate s t va, s.thread t with
    | .error e, _ => .error e
    | .ok s, none => .ok s
    | .ok s, some th =>
      let hs := boxHomes s dom v.b.bits v.c.bits
      let s := s.startOp t p o.la.toNat
      let s := hs.foldl (fun s h =>
        (s.modThread t (fun x => { x with bankmask := x.bankmask ||| bankBit h })).send (.core (tcore t)) (.core h) (th.owner t)
          (.access t p.id)) s
      .ok (s.setPhase t p.id (.sent hs.length))
def execMsense (o : SenseOps) (s : State) :=
  issue (.msense o) s (fun v th s =>
    let dom := o.dom.toNat
    match markBox s th dom v.a v.b.bits v.c.bits with
    | .error e => .error e
    | .ok e => sendBox (.msense dom v.b.bits v.c.bits) dom o v 0 e s)
def execMsamp (o : SenseOps) (s : State) :=
  issue (.msamp o) s (fun v th s =>
    let dom := o.dom.toNat
    match markBox s th dom v.a v.b.bits v.c.bits with
    | .error e => .error e
    | .ok e =>
      let r := match v.cont with
        | some q => (q.setWidth 32, th.prng)
        | none => th.prng.next
      let s := s.modThread s.cur (fun x => { x with prng := r.2 })
      sendBox (.msamp dom v.b.bits v.c.bits r.1) dom o v (r.1.setWidth 128) e s)

/-! ### MTICK, MBIND, MUNBIND (12 R299 to R301) -/

def execMtick (o : DomOps) (s : State) :=
  issue (.mtick o) s (fun v th s =>
    let dom := o.dom.toNat
    let d := s.mark dom
    let va := cellVa d 0
    let again : Bool := match v.cont with | some q => q.getLsbD 0 | none => false
    if !d.bound || !d.stepped then .error (.trap .wrongClass 0)
    else match markSpan s th d v.a 0 0 with
      | some f => .error f
      | none =>
        if again then finish s.cur o.d (Val.ofWord (BitVec.ofNat 64 d.tick)) s
        else match translate s s.cur va with
          | .error e => .error e
          | .ok s => issueHome s.cur { s.newOp .out (.mtick dom) (.sent 1) va with
              dests := [o.d], slot1 := slotA v va, capture := true } 0 s)
/-- A domain as a descriptor gives it. -/
def domainOf (dom : BitVec 16) (g : List Val) : MarkDomain :=
  let q := (g.headD Val.zero).bits
  { bound := true
    tick := 0
    domain := dom
    dhome := 0
    desc := granuleBytes g
    base := (capBase q).toNat
    top := (capTop q).toNat
    gen := 0 }
/-- FORMAT_MISMATCH of a descriptor (12 R300 step 2). -/
def descBad (d : MarkDomain) : Bool :=
  let mode := d.field 34 1
  d.dims < 2 || 8 < d.dims || 1 < mode || (mode == 0 && (d.period < 16 || 2 ^ 32 < d.period))
  || ((d.desc.drop 35).take 29).any (· != 0)
  || (List.range 7).any (fun i => d.ptick (i + 1) < d.ptick i)
/-- The checks on BASE (12 R300 step 3). -/
def baseCheck (th : Thread) (v : Val) (d : MarkDomain) : Option Code :=
  let b := capBase v.bits
  if !v.tag then some .tag
  else if capKind v.bits != 0 then some .sealed
  else if !grants (capPerms v.bits) (permAT ||| permW) then some .perm
  else if ((capCursor v.bits).toNat : Int) != b || d.base % 8 != 0 || d.top % 8 != 0 then some .align
  else if d.base / 2 ^ 56 != 0 || (d.base < d.top && (d.top - 1) / 2 ^ 56 != 0) then some .region
  else if !leased th.ranges 0 (BitVec.ofNat 64 d.base) (d.top - d.base) then some .lease
  else none
/-- The sweep condition with one more domain (12 R288). -/
def sweepHolds (s : State) (d : MarkDomain) : Bool :=
  let all := d :: (s.dev.marks.filter (fun x => x.2.bound)).map Prod.snd
  let periods := (all.filter (fun x => !x.stepped)).map MarkDomain.period
  match periods with
  | [] => true
  | p :: r => decide (20 * (all.map MarkDomain.cells).sum ≤ 2 ^ 21 * r.foldl min p)
/-- The status of a binding (12 R300 step 4). An entry counts as bound, for its number and for its span, until its unbinding has
reached every home (DESIGN CHOICE, log 93: the spec does not say when it counts as unbound). -/
def bindStatus (s : State) (dom : Nat) (d : MarkDomain) : Nat :=
  let holds (n : Nat) : Bool := (s.mark n).bound || s.homes.any (fun h => bindPending s h.1 n false)
  if holds dom then 1
  else if s.dev.marks.any (fun x => holds x.1 && decide (x.2.base < d.top) && decide (d.base < x.2.top)) then 3
  else if !sweepHolds s d then 2 else 0
/-- Work for each home of a domain, on behalf of an operation. -/
def State.addWork (s : State) (hs : List Nat) (w : BindWork) : State :=
  hs.foldl (fun s h => s.modHome h (fun k => { k with work := k.work ++ [w] })) s
/-- An operation that waits for every home of a domain, with its status; it sets their BANKMASK bits (12 R290). -/
def bindOp (t dom : Nat) (d : Opn) (bind : Bool) (hs : List Nat) (s : State) : State :=
  let act : Act := if bind then .mbind dom else .munbind dom
  let o := { s.newOp .out act (if hs.isEmpty then .done [Val.zero] else .sent hs.length) 0 with dests := [d] }
  let s := s.modThread t (fun x => { x with bankmask := hs.foldl (fun b h => b ||| bankBit h) x.bankmask })
  (s.startOp t o 0).addWork hs ⟨dom, bind, t, o.id⟩
/-- Near-slice sectors of a span of cells that a core holds for a domain. -/
def heldCells (s : State) (c : Nat) (dom : BitVec 16) (d : MarkDomain) : List Word :=
  ((s.core c).near.filter (fun l => l.domain == dom)).flatMap (fun l =>
    (l.sectors.map (fun x => lineSectorVa l.line x.1)).filter (fun a =>
      selector a == 0 && decide (d.base < va56 a + 32) && decide (va56 a < d.top)))
/-- The issuing core's copies of a domain's cells leave its near slice, so that the binding finds the thread's earlier
stores and its later loads find the cells (13 R310; log 32). -/
def State.yieldCells (s : State) (dom : BitVec 16) (d : MarkDomain) : State :=
  (heldCells s (tcore s.cur) dom d).foldl (fun s a => s.surrender (tcore s.cur) a dom) s
def execMbind (o : DomOps) (s : State) :=
  issue (.mbind o) s (fun v th s =>
    let t := s.cur
    let dom := o.dom.toNat
    let a := capCursor v.a.bits
    match accessCheck s th v.a (want permR permR) a 128 64 with
    | some c => .error (.trap c a)
    | none => if ownWaits s t th then .error (.park .own) else
      let s := s.pullSpan (tcore t) a 128
      match readGranules s t th a 8 with
      | .error c => .error (.trap c a)
      | .ok g =>
        let d := domainOf th.domain g
        if descBad d then .error (.trap .formatMismatch a)
        else match baseCheck th (g.headD Val.zero) d with
          | some c => .error (.trap c (BitVec.ofNat 64 d.base))
          | none =>
            let st := bindStatus s dom d
            if st != 0 then finish t o.d (Val.ofWord (BitVec.ofNat 64 st)) s
            else
              let d := { d with dhome := targetCore s (tcore t) (cellVa d 0) }
              let hs := homesOf s d
              let s := (s.modMark dom (fun x => { d with gen := x.gen + 1 })).yieldCells th.domain d
              let s := hs.foldl (fun s h => s.modHome h (fun k => { k with ticks := tput k.ticks dom 0 })) s
              .ok (bindOp t dom o.d true hs s))
def execMunbind (p : Pfx) (d : Opn) (dom : BitVec 6) (s : State) :=
  issue (.munbind p d dom) s (fun _ th s =>
    let m := s.mark dom.toNat
    if !m.bound then finish s.cur d (Val.ofWord 1) s
    else if m.domain != th.domain && !th.sup then .error (.trap .perm 0)
    else
      let hs := homesOf s m
      .ok (bindOp s.cur dom.toNat d false hs ((s.modMark dom.toNat (fun x => { x with bound := false })).yieldCells th.domain m)))

end Sys2Proof.Machine
end

