-- ==== Sys2Proof/Machine/Tiles.lean ====
section
/-!
DEFINITION. The issue of the matrix family (09 R206 to R229): MMA and SMMA, MACZ, MACLD and its rows, MACST, MHSET, MDRAIN,
HEND and VBOUND.
-/

namespace Sys2Proof.Machine

/-! ### MMA, SMMA (09 R206 to R217) -/

/-- MMA or SMMA number `kind` of the table of 09 R200: checks, claims of the unit and the tile, and the issuer's release. -/
def mmaEffect (kind : Nat) (o : MmaOps) : Effect := fun v th s =>
  let t := s.cur
  let c := tcore t
  match tileStop s t th o.d.toNat with
  | some e => .error e
  | none =>
    if unitBusy (s.core c) th.taskid then .error (.park .matrixUnit)
    else match matrixChecks s t th kind o v with
      | .error e => .error e
      | .ok m =>
        let x := s.claimTile t th m.tile
        let k := (x.1.core c).takeUnit t th.taskid s.nextId
        let p := { s.newOp .out (.matrix m) (.sent 1) 0 with ticks := (x.2 || k.2).toNat }
        .ok (((x.1.setCore c k.1).modTile c m.tile (fun y => { y with busy := true })).launch t p 0)
def execMmaT32 (o : MmaOps) (s : State) := issue (.mmaT32 o) s (mmaEffect 0 o)
def execMmaT64 (o : MmaOps) (s : State) := issue (.mmaT64 o) s (mmaEffect 1 o)
def execMmaT128 (o : MmaOps) (s : State) := issue (.mmaT128 o) s (mmaEffect 2 o)
def execMmaW (o : MmaOps) (s : State) := issue (.mmaW o) s (mmaEffect 3 o)
def execMmaH (o : MmaOps) (s : State) := issue (.mmaH o) s (mmaEffect 4 o)
def execMmaQ (o : MmaOps) (s : State) := issue (.mmaQ o) s (mmaEffect 5 o)
def execMmaQ8 (o : MmaOps) (s : State) := issue (.mmaQ8 o) s (mmaEffect 6 o)
def execMmaT16 (o : MmaOps) (s : State) := issue (.mmaT16 o) s (mmaEffect 7 o)
def execSmmaT32 (o : MmaOps) (s : State) := issue (.smmaT32 o) s (mmaEffect 8 o)
def execSmmaT64 (o : MmaOps) (s : State) := issue (.smmaT64 o) s (mmaEffect 9 o)
def execSmmaQ (o : MmaOps) (s : State) := issue (.smmaQ o) s (mmaEffect 10 o)

/-! ### MACZ (09 R219) -/

def execMacz (p : Pfx) (d : Opn) (rel : Bool) (s : State) :=
  issue (.macz p d rel) s (fun _ th s =>
    let t := s.cur
    match tileStop s t th d.toNat with
    | some e => .error e
    | none =>
      let s := (s.claimTile t th d.toNat).1
      .ok (s.modTile (tcore t) d.toNat (fun x =>
        if rel then x.release else { x with elems := [], verd := [], shape := 0 })))

/-! ### MACLD (09 R220, R221) -/

/-- Rows and columns of an output shape code (09 R200). -/
def shapeRows (code : Nat) : Nat := [32, 16, 64, 1, 8].getD code 32
def shapeCols (code : Nat) : Nat := [32, 64, 16, 32, 32].getD code 32
/-- Bytes of a row of n elements. -/
def rowBytes (bf16 : Bool) (n : Nat) : Nat := if bf16 then 2 * n else 4 * n
/-- Address of row i. -/
def rowVa (va : Word) (st i : Nat) : Word := va + BitVec.ofNat 64 (16 * st * i)
/-- Bytes of the whole span. -/
def tileSpan (bf16 : Bool) (code st : Nat) : Nat := 16 * st * (shapeRows code - 1) + rowBytes bf16 (shapeCols code)
/-- BANKMASK bits of the homes of a run of bytes (11 R257). -/
def State.setBanks (s : State) (t : Nat) (va : Word) (n : Nat) : State := (sectorsOf va n).foldl (fun s a => s.setBank t a) s
/-- An element as MACLD receives it (09 R221): none for an abandoned encoding without the pass bit. -/
def macldElem (bf16 pass : Bool) (bits : Nat) : Option (BitVec 32) :=
  let wide : BitVec 32 := BitVec.ofNat 32 (if bf16 then bits * 65536 else bits)
  if isAbandoned (if bf16 then 11 else f32) bits then (if pass then some (wide ||| 0x00400000) else none) else some wide
/-- A sector as a plain load of thread t reads it: view, near slice, home (10 R235, R245). -/
def loadSector (s : State) (t : Nat) (th : Thread) (va : Word) : Nat :=
  match storage s (tcore t) (storedVa s va) with
  | some loc =>
    if selector va == 0 && (viewOf s (va56 va)).isSome then homeBytes s va loc else (threadSector s t th va loc).1.toNat
  | none => 0
/-- n bytes of a row as plain loads of the thread read them, or the first refusal (10 R231). -/
def loadRow (s : State) (t : Nat) (th : Thread) (va : Word) (n : Nat) : Except (Code × Word) Nat :=
  let xs := sectorsOf va n
  let bad := xs.filterMap (fun a =>
    match storage s (tcore t) (storedVa s a), readCheck s (tcore t) (th.owner t) (readSectors s a 32) with
    | none, _ => some (Code.machine, a)
    | some _, some c => if (nearSector (s.core (tcore t)) a th.domain).st == .clean && c != .wrongClass then none else some (c, a)
    | some _, none => none)
  match bad with
  | f :: _ => .error f
  | [] =>
    let bytes := xs.foldr (fun a acc => loadSector s t th a + 2 ^ 256 * acc) 0
    .ok (bytes / 2 ^ (8 * (va.toNat % 32)) % 2 ^ (8 * n))
/-- A MACLD that faults on its rows (09 R221): the tile stands as before, the refusal is its operation's. -/
def State.failRows (s : State) (t : Nat) (o : Op) (tile : Nat) (f : Code × Word) : State :=
  (s.unclaim (tcore t) tile (o.ticks == 1)).setPhase t o.id (.refused f.1 f.2)
/-- The element bits of every row in ascending order, or the first refusal. `fuel` counts rows. -/
def loadRows (s : State) (t : Nat) (th : Thread) (bf16 : Bool) (va : Word) (st n : Nat) : Nat → Nat → Except (Code × Word) (List Nat)
  | 0, _ => .ok []
  | fuel + 1, r =>
    match loadRow s t th (rowVa va st r) (rowBytes bf16 n) with
    | .error f => .error f
    | .ok bits => match loadRows s t th bf16 va st n fuel (r + 1) with
      | .error f => .error f
      | .ok rest =>
        let w := if bf16 then 16 else 32
        .ok ((List.range n).map (fun j => bits / 2 ^ (w * j) % 2 ^ w) ++ rest)
/-- The rows are read at the issue, after every earlier access of the thread and before every later one (13 R310; log 31). -/
def execMacld (o : MacldOps) (s : State) :=
  issue (.macld o) s (fun v th s =>
    let t := s.cur
    let c := tcore t
    let i := o.d.toNat
    let va := accessVa v
    match tileStop s t th i with
    | some e => .error e
    | none =>
      match accessStep s th v.a (want permR permR) va (tileSpan o.bf16 o.shape.toNat o.st.toNat) 16 false with
      | .error e => .error e
      | .ok s =>
        if ownWaits s t th then .error (.park .own)
        else
        let m := shapeRows o.shape.toNat
        let n := shapeCols o.shape.toNat
        let s := (List.range m).foldl (fun s r => s.pullSpan c (rowVa va o.st.toNat r) (rowBytes o.bf16 n)) s
        let read := loadRows s t th o.bf16 va o.st.toNat n m 0
        let x := s.claimTile t th i
        let p := { s.newOp .longLat (.rows i o.bf16 o.p.pass o.shape o.st.toNat)
            (match read with | .ok _ => .sent m | .error f => .refusing f.1 f.2) va with
          slot1 := slotA v va, capture := true, ticks := x.2.toNat
          cells := match read with | .ok l => (List.range l.length).zip l | .error _ => [] }
        let s := x.1.modTile c i (fun y => { y with busy := true })
        let s := (List.range m).foldl (fun s r => s.setBanks t (rowVa va o.st.toNat r) (rowBytes o.bf16 n)) s
        .ok (s.startOp t p 0))
/-- One row of a MACLD arrived: an abandoned element ends it; the last row fills the tile. -/
def State.rowArrives (s : State) (t : Nat) (o : Op) (left tile : Nat) (bf16 pass : Bool) (shape : BitVec 3) : State :=
  let n := shapeCols shape.toNat
  let r := shapeRows shape.toNat - left
  let elem (x : Nat × Nat) : Option (BitVec 32) := macldElem bf16 pass x.2
  if ((o.cells.drop (r * n)).take n).any (fun x => (elem x).isNone) then s.failRows t o tile (.abandonedOperand, 0)
  else if 1 < left then s.setPhase t o.id (.sent (left - 1))
  else
    let s := s.modTile (tcore t) tile (fun x => { x with
      elems := o.cells.foldl (fun l y => tput l y.1 ((elem y).getD 0)) x.elems
      verd := []
      shape := shape
      busy := false })
    -- under pass a quieted element sets invalid (04 R90)
    let quieted := pass && o.cells.any (fun y => isAbandoned (if bf16 then 11 else f32) y.2)
    s.modThread t (fun x => { x.dropOp o.id with flags := if quieted then { x.flags with nv := true } else x.flags })

/-! ### MACST (09 R220, R222) -/

/-- One element as MACST stores it: bits and flags. -/
def macstElem (bf16 sat : Bool) (mode : Nat) (bits : Nat) : Nat × Flags :=
  if !bf16 then (bits, Flags.none)
  else if isAbandoned f32 bits then (0x7FA0 + bits % 2, Flags.none)
  else
    let r := convTo f32 11 mode sat (decodeFp f32 bits) ⟨0, 0, 0, 0⟩
    (r.1, r.2.1)
def execMacst (o : MacstOps) (s : State) :=
  issue (.macst o) s (fun v th s =>
    let t := s.cur
    let i := o.d.toNat
    let va := accessVa v
    match tileStop s t th i with
    | some e => .error e
    | none =>
      let tl := (s.core (tcore t)).tile i
      let code := tl.shape.toNat
      match accessStep s th v.a (want permW permW) va (tileSpan o.bf16 code o.st.toNat) 16 true with
      | .error e => .error e
      | .ok s =>
        let s := (s.claimTile t th i).1
        let n := shapeCols code
        let mode := if roundMode o.p th == 6 then 1 else roundMode o.p th
        let row (r : Nat) : List (Nat × Flags) := (List.range n).map (fun j =>
          macstElem o.bf16 o.p.sat mode (tget tl.elems (r * n + j) 0).toNat)
        let rows := (List.range (shapeRows code)).map row
        let fl := rows.foldl (fun f l => l.foldl (fun f x => f.or x.2) f) Flags.none
        let p := { s.newOp .posted .placed (.sent 1) va with slot1 := slotA v va }
        let s := s.post t p (fun s =>
          ((List.range rows.length).zip rows).foldl (fun z r =>
            let y := z.1.plainRun t p.id none 9 (rowVa va o.st.toNat r.1) (rowBytes o.bf16 n)
              (joinElems (if o.bf16 then 16 else 32) (r.2.map Prod.fst))
            (y.1, z.2 + y.2)) (s, 0))
        let s := s.raise t fl
        .ok (if o.rel then s.modTile (tcore t) i Tile.release else s))

/-! ### MHSET, MDRAIN, HEND (09 R223 to R228) -/

/-- What a tagged entry capability of row handlers must be (09 R223): SEALED or PERM. -/
def hentryCheck (v : Val) : Option Code :=
  if !v.tag then none
  else if 2 ≤ capKind v.bits then some .sealed
  else if !grants (capPerms v.bits) permX then some .perm else none
def execMhset (p : Pfx) (a b : Opn) (s : State) :=
  issue (.mhset p a b) s (fun v th s =>
    match hentryCheck v.a with
    | some c => .error (.trap c 0)
    | none => .ok (s.modCore (tcore s.cur) (fun k => { k with hentry := v.a, hparam := v.b, hdomain := th.domain })))
def execMdrain (p : Pfx) (d a : Opn) (id : BitVec 16) (s : State) :=
  issue (.mdrain p d a id) s (fun v th s =>
    let t := s.cur
    let k := s.core (tcore t)
    let va := capCursor v.a.bits
    match tileStop s t th d.toNat with
    | some e => .error e
    | none =>
      if !k.hentry.tag then .error (.trap .tag 0)
      else if k.hdomain != th.domain then .error (.trap .perm 0)
      else match (if a == 256 then none else accessCheck s th v.a (want permFE (permW ||| permFE)) va 8 8) with
        | some c => .error (.trap c va)
        | none =>
          let s := ((s.claimTile t th d.toNat).1).queueDrain t th d.toNat id v.a
          .ok (s.launch t (s.newOp .out (.mdrain d.toNat id v.a) (.sent 0) 0) 0))
/-- A row handler past its limit that has not reached HEND: it has no more turns (09 R227). -/
def lateHandler (s : State) (th : Thread) : Bool :=
  match th.dispatch with
  | some d => decide (d.start + Config.handlerCycles ≤ s.cycle) && !th.ops.any (fun o => o.act == .hend)
  | none => false
/-- HEND: one that issues past the limit has not reached it in time (09 R226, R227). -/
def execHend (s : State) :=
  issue .hend s (fun _ th s =>
    let t := s.cur
    if !isHandler t then .error (.trap .privilege 0)
    else if lateHandler s th then .error (.trap .handlerOverrun 0)
    else .ok (s.launch t (s.newOp .out .hend (.sent 0) 0) 0))

/-! ### VBOUND (09 R218) -/

def execVbound (o : VboundOps) (s : State) :=
  issue (.vbound o) s (fun v _ s =>
    let x : BitVec 32 := if o.acc then v.c.bits.setWidth 32 else 0
    if isAbandoned f32 x.toNat then .error (.trap .abandonedOperand 0)
    else
      let r := vboundVal o.fa o.fb (blockSize o.bs) (o.n.toNat + 1) v.a.bits v.b.bits (tailOf x)
      finish s.cur o.d (Val.data (r.setWidth 128)) s)

end Sys2Proof.Machine
end

