-- ==== Sys2Proof/Machine/Sched.lean ====
section
/-!
DEFINITION. The issue of the scheduling family (14 R356 to R364).
-/

namespace Sys2Proof.Machine

/-- A member of the family; in a handler slot it is not performed and ends the drain (14 R356, 09 R227). -/
def sched (eff : Effect) : Effect := fun v th s =>
  if isHandler s.cur then .error (.trap .handlerOverrun 0) else eff v th s
/-- An instruction that leaves the rotation with its results known: they are delivered when it returns. -/
def State.outResult (s : State) (t : Nat) (dests : List Opn) (vs : List Val) : State :=
  s.startOp t { s.newOp .out .nothing (.done vs) 0 with dests := dests } 0

/-! ### SPAWN, YIELD, END (14 R358 to R360) -/

/-- What SPAWN asks of its TCB. -/
def wantTcb : Want := ⟨permR ||| permLC, permR, false, false, false⟩
def execSpawn (o : SchedOps) (c : Opn) (cl : BitVec 8) (s : State) :=
  issue (.spawn o c cl) s (sched (fun v th s =>
    let va := capCursor v.a.bits
    match accessStep s th v.a wantTcb va 64 64 false with
    | .error e => .error e
    | .ok s =>
      let n : Word := if o.b == 256 then 1 else v.b.lo
      .ok (s.launch s.cur { s.newOp .out (.spawn v.a n cl.toNat) (.sent 0) va with dests := [o.d] } 0)))
def execYield (o : SchedOps) (s : State) :=
  issue (.yield o) s (sched (fun v th s =>
    let dl := if o.b == 256 then th.deadline else v.b.lo
    .ok (s.launch s.cur (s.newOp .out (.yield dl) (.sent 0) 0) 0)))
/-- Whether no register of a thread still waits for a result (14 R360). One that a trap left absent, its entry being in
the frame, waits for none, so that a handler can end its task (15 R371; log 85). -/
def allPresent (th : Thread) : Bool := th.ops.all (fun o => (regsOf o.dests).isEmpty || o.act == .endTask)
def execEndTask (o : SchedOps) (s : State) :=
  issue (.endTask o) s (sched (fun _ th s =>
    if !allPresent th then .error .hold
    else .ok (s.launch s.cur (s.newOp .out .endTask (.sent 0) 0) 0)))

/-! ### JOIN, LEAVE, GBAR (14 R361) -/

/-- What a group word asks (14 R361, 10 R232). -/
def wantGroup : Want := let need := permR ||| permW ||| permAT; ⟨need, need, false, false, false⟩
/-- Regions a group word may lie in (14 R345). -/
def groupRegion (va : Word) : Bool := selector va == 0 || (0xF0 ≤ selector va && selector va ≤ 0xF2)
/-- The issue of a group word instruction: the core gives up its copy of the word (11 R263). -/
def groupEffect (act : Act) (acq : Bool) (d : Opn) : Effect := fun v th s =>
  let va := accessVa v
  match capCheck v.a wantGroup.need va.toNat 16 16 with
  | some c => .error (.trap c va)
  | none =>
    if !groupRegion va then .error (.trap .region va)
    else match accessStep s th v.a wantGroup va 16 16 false with
      | .error e => .error e
      | .ok s =>
        let s := s.giveUp s.cur th va
        issueHome s.cur { s.newOp .out act (.sent 1) va with
          dests := [d], slot1 := slotA v va, capture := true, acquire := acq } 0 s
def execJoin (o : SchedOps) (s : State) := issue (.join o) s (sched (groupEffect .join false o.d))
def execLeave (o : SchedOps) (s : State) := issue (.leave o) s (sched (groupEffect .leave false o.d))
def execGbar (o : SchedOps) (s : State) := issue (.gbar o) s (sched (groupEffect .gbar true o.d))

/-! ### CREW (14 R362, R346) -/

/-- The check of a member entry: TAG, SEALED, PERM, BOUNDS (05 R106, 14 R362). DEDUCED (log 91): for the 4 bytes that JMPC checks
(06 R134). -/
def crewEntry (v : Val) : Option Code :=
  let a := (capCursor v.bits).toNat
  if !v.tag then some .tag
  else if 2 ≤ capKind v.bits then some .sealed
  else if !grants (capPerms v.bits) permX then some .perm
  else if (a : Int) < capBase v.bits || capTop v.bits < ((a + 4 : Nat) : Int) then some .bounds else none
/-- The status of CREW for n members. -/
def crewStatus (k : Core) (th : Thread) (n : Nat) : Nat :=
  if n < 2 || 8 < n then 1 else if th.crew then 2 else if slotCount k.partn < n then 3 else if k.crew.isSome then 4 else 0
def execCrew (o : SchedOps) (n : Option (BitVec 16)) (s : State) :=
  issue (.crew o n) s (sched (fun v th s =>
    let t := s.cur
    let c := tcore t
    let m : Nat := match n with | some i => i.toNat | none => v.b.lo.toNat
    if !th.lead then .error (.trap .privilege 0)
    else match crewEntry v.a with
      | some f => .error (.trap f 0)
      | none =>
        let st := crewStatus (s.core c) th m
        if st != 0 then .ok (s.outResult t [o.d] [Val.ofWord (BitVec.ofNat 64 st)])
        else
          let p := { s.newOp .out .nothing (.sent (m - 1)) 0 with dests := [o.d] }
          let w : CrewState :=
            { leader := th.taskid, entry := v.a, size := m, members := [t], reserved := m - 1, waiting := some p.id, template := th }
          .ok ((s.modCore c (fun k => { k with crew := some w })).startOp t p 0)))

/-! ### QSTAT (14 R363) -/

/-- Free partition slots of a core. -/
def freeSlots (s : State) (c : Nat) : Nat :=
  slotCount (s.core c).partn - (s.threads.filter (fun x => tcore x.1 == c && decide (tslot x.1 < 64))).length
/-- Whether an entry waits for a slot no core of its cluster has (14 R337). -/
def noFit (s : State) (cl : Nat) (e : ReadyEntry) : Bool := e.state != .staging && noSlotFor s cl e
/-- The report on a cluster. -/
def qstatSetVal (s : State) (cl : Nat) : Val :=
  let k := s.station cl
  let early : Nat := match k.heap with | e :: _ => e.key.toNat | [] => 2 ^ 64 - 1
  let nofit := ((k.heap ++ k.overflow).filter (noFit s cl)).length
  let free := ((List.range 16).map (fun j => freeSlots s (coreAt cl j))).sum
  Val.data (BitVec.ofNat 128 (early * 2 ^ 64 + min 255 nofit * 2 ^ 48 + free * 2 ^ 32 + min 65535 k.overflow.length * 2 ^ 16
    + k.heap.length))
/-- Where a task is: state, core, deadline and lease domain. -/
structure TaskPlace where
  state    : Nat
  core     : Nat
  deadline : Word
  domain   : BitVec 16
  deriving DecidableEq, Repr
/-- Whether a thread in a slot is parked (14 R340). -/
def isParked (th : Thread) : Bool :=
  match th.status with
  | .parked .. => true
  | .out op _ => match th.op op with
    | some o => (match o.phase, o.act with
      | .waiting, _ => true | .resend, _ => true
      | _, .nothing => true | _, .spawn .. => true | _, .yield _ => true | _, _ => false)
    | none => false
  | _ => false
/-- A task by its TASKID, anywhere on the device. -/
def findTask (s : State) (id : Word) : Option TaskPlace :=
  let slots := s.threads.filterMap (fun x =>
    if x.2.taskid == id && x.2.dispatch.isNone then
      some (⟨if isParked x.2 then 5 else 4, tcore x.1, x.2.deadline, x.2.domain⟩ : TaskPlace) else none)
  let stored := (s.stations.map (fun st => st.2.store.filterMap (fun e =>
    if e.2.thread.taskid == id then some (⟨6, 0, e.2.thread.deadline, e.2.thread.domain⟩ : TaskPlace) else none))).flatten
  let entry (cl : Nat) (e : ReadyEntry) : Option TaskPlace :=
    if e.taskid == id && e.store.isNone then
      some ⟨if e.state == .staging then 3 else if noSlotFor s cl e then 2 else 1, 0, e.key, e.domain⟩ else none
  let ready := (s.stations.map (fun st => (st.2.heap ++ st.2.overflow).filterMap (entry st.1))).flatten
  let packed (p : Packed) : Option TaskPlace :=
    if p.thread.taskid == id then some ⟨7, 0, p.thread.deadline, p.thread.domain⟩ else none
  let away := (packedTasks s).filterMap packed
    ++ (s.msgs.map (fun m => match m.payload, m.dst with
      | .stealReply es, .station cl => es.filterMap (entry cl) | _, _ => [])).flatten
  (slots ++ stored ++ ready ++ away).head?
/-- The report on a task. -/
def qstatTaskVal (s : State) (th : Thread) (id : Word) : Val :=
  match findTask s id with
  | none => Val.zero
  | some x =>
    if x.domain != th.domain && !th.sup then Val.zero
    else Val.data (BitVec.ofNat 128 (x.deadline.toNat * 2 ^ 64 + x.core * 2 ^ 8 + x.state))
def execQstatSet (o : SchedOps) (s : State) :=
  issue (.qstatSet o) s (sched (fun v _ s =>
    let cl := if o.a == 256 then clusterOf (tcore s.cur) else v.a.lo.toNat % 64
    .ok (s.outResult s.cur [o.d] [qstatSetVal s cl])))
def execQstatTask (o : SchedOps) (s : State) :=
  issue (.qstatTask o) s (sched (fun v th s => .ok (s.outResult s.cur [o.d] [qstatTaskVal s th v.a.lo])))

/-! ### SLEEP (14 R364) -/

def execSleep (o : SchedOps) (ns64 : Option (BitVec 16)) (s : State) :=
  issue (.sleep o ns64) s (sched (fun v _ s =>
    let t := s.cur
    let now := s.now t
    let target : Word := match ns64 with | some n => BitVec.ofNat 64 (now + 64 * n.toNat) | none => v.b.lo
    if target.toNat ≤ now then .ok s
    else .ok (s.modThread t (fun th => { th with status := .parked (.sleep target) s.cycle }))))

end Sys2Proof.Machine
end

