-- ==== Sys2Proof/Machine/System.lean ====
section
/-!
DEFINITION. The issue of the system family: TRAP, RTE, BRK, DUMP, HALT, GANG (15 R372 to R379), RDS and WRS (06 R141 to
R143), REPART (05 R109), LEASE, PLBINV and PGMOVE (16 R392 to R395).
-/

namespace Sys2Proof.Machine

/-! ### TRAP, BRK, RTE, DUMP, HALT (15 R372, R373, R376, R377) -/

/-- TRAP or BRK: the unit completes and traps with its immediate as the cause; a re-injected one waits for the instructions
before it. -/
def softEffect (code : Code) (imm : BitVec 16) : Effect := fun _ th s =>
  let again := isReplay s.unit th
  if again && !th.ops.all Op.isSettled then .error .wait
  else .ok (s.softTrap s.cur again code (imm.setWidth 64))
def execTrap (imm : BitVec 16) (s : State) := issue (.trap imm) s (softEffect .syscall imm)
def execBrk (imm : BitVec 16) (s : State) := issue (.brk imm) s (softEffect .breakpoint imm)
def execRte (a : Opn) (s : State) :=
  issue (.rte a) s (fun v th s =>
    if th.trapActive.isNone then .error (.trap .privilege 0) else s.returnFromTrap s.cur th v.a)
def execDump (d : Opn) (s : State) :=
  issue (.dump d) s (fun _ _ s => .ok (s.startOp s.cur { s.newOp .out .dump (.sent 0) 0 with dests := [d] } 0))
/-- The code HALT records: BREAK for 0 and for a code that 15 R365 does not list. -/
def haltCode (n : BitVec 8) : Code := (Code.ofNum n).getD .breakpoint
def execHalt (b : SrcB) (s : State) :=
  issue (.halt b) s (fun v th s =>
    let n : BitVec 8 := match b with | .imm i => i.setWidth 8 | .reg _ => v.b.bits.setWidth 8
    let again := isReplay s.unit th
    .ok ((s.startTrap s.cur (some (haltCode n)) 0 [] s.unit.addr s.unit.next again true).trapNow s.cur))

/-! ### RDS, WRS (06 R141 to R143, 05 R112 to R117) -/

/-- Whether an instruction outstanding can still set flags in FPST (05 R112, 06 R142, R143): VEXP2, VRCP, VRSQ, rows of MACLD
`.pass`, whatever their operands. -/
def flagsPending (th : Thread) : Bool :=
  th.ops.any (fun o => o.flags != Flags.none || [0x62, 0x63, 0x64].contains (opcodeOf o.word)
    || (match o.act with | .rows _ _ pass _ _ => pass | _ => false))
/-- The value of a status register, the reading instruction standing at an address. -/
def statusVal (s : State) (t : Nat) (th : Thread) (addr : Word) (n : Nat) : Val :=
  let k := s.core (tcore t)
  match n with
  | 0x000 => Val.ofWord (tstatWord t th)
  | 0x001 => Val.ofWord (fpstWord th)
  | 0x002 => Val.ofWord (prng0Word th.prng)
  | 0x003 => Val.ofWord (prng1Word th.prng)
  | 0x004 => Val.ofWord (th.turns.setWidth 64)
  | 0x005 => Val.ofWord th.deadline
  | 0x006 => Val.ofWord th.taskid
  | 0x007 => Val.ofWord th.group
  | 0x008 => th.trapcap
  | 0x009 => Val.ofWord th.bankmask
  | 0x00A => Val.ofWord (leaseWord th)
  | 0x00B => (th.setPc addr.toNat).pcc
  | 0x100 => Val.ofWord (coreidWord (tcore t))
  | 0x101 => Val.ofWord (k.partn.setWidth 64)
  | 0x102 => Val.ofWord (k.fmtr.setWidth 64)
  | 0x103 => Val.ofWord (k.parklim.setWidth 64)
  | 0x104 => k.hentry
  | 0x105 => k.hparam
  | 0x106 => Val.ofWord (linkstWord s (tcore t))
  | 0x107 => Val.ofWord k.linkdisc
  | _ => Val.zero
def execRds (d : Opn) (n : BitVec 12) (s : State) :=
  issue (.rds d n) s (fun _ th s =>
    if n == 1 && flagsPending th then .error .wait
    else
      let now := (s.thread s.cur).getD th
      finish s.cur d (statusVal s s.cur now s.unit.addr n.toNat) s)
/-- Registers that WRS may not write at all. -/
def readOnlyStatus (n : Nat) : Bool := [0x006, 0x009, 0x00A, 0x00B, 0x100, 0x101, 0x106].contains n
/-- Registers that only a supervisor writes. -/
def supStatus (n : Nat) : Bool := 0x100 ≤ n || [0x000, 0x004, 0x005, 0x008].contains n
/-- The read-only fields of TSTAT: SLOT, LEAD, CREW, MODE. -/
def tstatFixed : Word := 0x7F1E
/-- The rights of a WRS (05 R112, 06 R143). -/
def wrsCheck (t : Nat) (th : Thread) (n : Nat) (v : Val) : Option Code :=
  if readOnlyStatus n then some .privilege
  else if supStatus n && !th.sup then some .privilege
  else if n == 0 && (v.lo &&& tstatFixed) != (tstatWord t th &&& tstatFixed) then some .privilege
  else none
/-- DRM as WRS stores it (05 R114). -/
def drmOf (w : Word) : BitVec 3 := let d : BitVec 3 := w.extractLsb' 6 3; if d == 0 || d == 7 then 1 else d
/-- FMTR as WRS stores it (05 R117). -/
def fmtrOf (w : Word) : BitVec 6 := let f : BitVec 6 := w.extractLsb' 0 6; if f == 0 || 27 ≤ f.toNat then 0 else f
/-- PARKLIM as WRS stores it (05 R117). -/
def parklimOf (w : Word) : BitVec 32 := let n : BitVec 32 := w.extractLsb' 0 32; if n.toNat < 256 then 256 else n
/-- A value stored into a per-thread register. -/
def Thread.wrs (th : Thread) (n : Nat) (v : Val) : Thread :=
  match n with
  | 0x000 => { th with sup := th.sup && v.lo.getLsbD 0 }
  | 0x001 => { th with drm := drmOf v.lo, flags := Flags.ofBits (v.lo.extractLsb' 0 5) }
  | 0x002 => { th with prng := Prng.ofWords v.lo (prng1Word th.prng) }
  | 0x003 => { th with prng := Prng.ofWords (prng0Word th.prng) v.lo }
  | 0x004 => { th with turns := v.lo.setWidth 32 }
  | 0x005 => { th with deadline := v.lo }
  | 0x007 => { th with group := v.lo }
  | 0x008 => { th with trapcap := v }
  | _ => th
/-- A value stored into a per-core register by a thread of a lease domain. -/
def Core.wrs (k : Core) (dom : BitVec 16) (n : Nat) (v : Val) : Core :=
  match n with
  | 0x102 => { k with fmtr := fmtrOf v.lo }
  | 0x103 => { k with parklim := parklimOf v.lo }
  | 0x104 => { k with hentry := v, hdomain := dom }
  | 0x105 => { k with hparam := v }
  | 0x107 => { k with linkdisc := v.lo }
  | _ => k
def execWrs (a : Opn) (n : BitVec 12) (s : State) :=
  issue (.wrs a n) s (fun v th s =>
    match wrsCheck s.cur th n.toNat v.a with
    | some c => .error (.trap c 0)
    | none =>
      if n == 1 && flagsPending th then .error .wait
      else if n.toNat < 0x100 then .ok (s.modThread s.cur (fun x => x.wrs n.toNat v.a))
      else .ok (s.modCore (tcore s.cur) (fun k => k.wrs th.domain n.toNat v.a)))

/-! ### REPART (05 R109) -/

/-- Whether another partition slot of the issuer's core holds a thread. -/
def slotsTaken (s : State) (t : Nat) : Bool :=
  s.threads.any (fun x => x.1 != t && tcore x.1 == tcore t && decide (tslot x.1 < 64))
/-- The partition code a REPART asks for: the present one where it changes nothing. -/
def repartCode (partn : BitVec 2) (split : Bool) : BitVec 2 :=
  if split then (if partn == 0 then partn else partn - 1) else if partn == 3 then partn else partn + 1
def execRepart (d : Opn) (split : Bool) (s : State) :=
  issue (.repart d split) s (fun _ th s =>
    let t := s.cur
    let c := tcore t
    if !th.sup then .error (.trap .privilege 0)
    else if slotsTaken s t || th.crew then .error (.trap .repartBusy 0)
    else
      let p := (repartCode (s.core c).partn split).toNat
      .ok ((s.modCore c (fun k => { k with repart := some p })).startOp t
        { s.newOp .out .nothing (.sent 1) 0 with dests := [d] } 0))

/-! ### GANG (15 R379) -/

/-- Clusters of a rectangle word. -/
def rectClusters (r : Nat) : List Nat := (List.range 64).filter (inRect r)
/-- Length of a save area (15 R381). -/
def saveLength (r : Nat) : Nat := 4096 + (rectClusters r).length * (16 * 2 ^ 20 + 2 ^ 16)
def wantSave : Want := ⟨permW ||| permEN, permW ||| permEN, false, false, false⟩
/-- The partition whose rectangle a word names exactly (16 R402). -/
def rectPart (s : State) (q : Quad) : Option Nat :=
  if q.toNat / 2 ^ 12 != 0 then none
  else ((List.range 15).map (· + 1)).find? (fun n =>
    let w := tget s.dev.pmap n 0
    w.getLsbD 0 && w.toNat / 2 % 4096 == q.toNat)
/-- The status of GANG and the partition it names. -/
def gangStatus (s : State) (t : Nat) (q : Quad) (ts : Word) : Nat × Nat :=
  let r := q.toNat
  let bad := decide (r / 64 % 8 < r % 8) || decide (r / 512 % 8 < r / 8 % 8)
  match rectPart s q with
  | none => (1, 0)
  | some n =>
    if bad || s.gangs.any (fun g => g.part == n && !g.stopped) then (1, n)
    else if ts.toNat < s.now t + 10000 then (2, n)
    else if (tget s.dev.pmfo n 0).toNat < 16 then (3, n)
    else (0, n)
def execGang (o : GangOps) (s : State) :=
  issue (.gang o) s (fun v th s =>
    let t := s.cur
    let va := capCursor v.a.bits
    let vc := capCursor v.e.bits
    if !th.sup then .error (.trap .privilege 0)
    else match accessCheck s th v.a wantSave va (saveLength (v.c.bits.toNat % 4096)) 4096 with
      | some c => .error (.trap c va)
      | none =>
        match (if o.e == 256 then none else accessCheck s th v.e (wantCompl true) vc 8 8) with
        | some c => .error (.trap c vc)
        | none =>
          let r := gangStatus s t v.c.bits o.ts
          let g : Gang :=
            { part := r.2, save := v.a, load := if o.b == 256 then none else some v.b, rect := v.c.bits, compl := v.e, ts := o.ts
              domain := th.domain, ranges := th.ranges, stopped := false }
          finish t o.d (Val.ofWord (BitVec.ofNat 64 r.1)) (if r.1 == 0 then { s with gangs := s.gangs ++ [g] } else s))

/-! ### LEASE, PLBINV, PGMOVE (16 R392 to R395) -/

/-- The checks on LEASE's range. -/
def leaseRangeCheck (v : Val) : Option Code :=
  let b := capBase v.bits
  let e := capTop v.bits
  if !v.tag then some .tag
  else if capKind v.bits != 0 then some .sealed
  else if b % 2 ^ 18 != 0 || e % 2 ^ 18 != 0 then some .align
  else if (2 ^ 56 : Int) < e then some .region else none
def leaseEffect (op : Nat) (o : LeaseOps) : Effect := fun v th s =>
  if !th.sup then .error (.trap .privilege 0)
  else match leaseRangeCheck v.a with
    | some c => .error (.trap c 0)
    | none => .ok (s.launch s.cur { s.newOp .out (.lease op v.a o.dom) (.sent 0) 0 with dests := [o.d] } 0)
def execLeaseAdd (o : LeaseOps) (s : State) := issue (.leaseAdd o) s (leaseEffect 0 o)
def execLeaseDrop (o : LeaseOps) (s : State) := issue (.leaseDrop o) s (leaseEffect 1 o)
def execLeaseUnmap (o : LeaseOps) (s : State) := issue (.leaseUnmap o) s (leaseEffect 2 o)
def execLeaseUnmapForce (o : LeaseOps) (s : State) := issue (.leaseUnmapForce o) s (leaseEffect 3 o)
def execLeaseDom (o : LeaseOps) (s : State) := issue (.leaseDom o) s (leaseEffect 4 o)
def execPlbinv (d a b : Opn) (scope : PlbScope) (s : State) :=
  issue (.plbinv d a b scope) s (fun v th s =>
    if !th.sup then .error (.trap .privilege 0)
    else .ok (s.launch s.cur { s.newOp .out (.plbinv scope v.a.lo) (.sent 0) 0 with dests := [d] } 0))
/-- The checks on PGMOVE's page and target. -/
def pgmoveCheck (a b : Val) : Option Code :=
  if !a.tag then some .tag
  else if capKind a.bits != 0 then some .sealed
  else if (capCursor a.bits).toNat % 2 ^ 18 != 0 then some .align
  else if selector (capCursor a.bits) != 0 then some .region
  else if b.lo.toNat / 2 ^ 22 != 0 then some .illegalOperand else none
def execPgmove (d a b : Opn) (s : State) :=
  issue (.pgmove d a b) s (fun v th s =>
    if !th.sup then .error (.trap .privilege 0)
    else match pgmoveCheck v.a v.b with
      | some c => .error (.trap c (if c == .illegalOperand then s.unit.addr else 0))
      | none =>
        let page := va56 (capCursor v.a.bits) / 2 ^ 18
        let x := v.b.lo.toNat
        .ok (s.launch s.cur { s.newOp .out (.pgmove page (x % 1024) (x / 1024 % 4096)) (.sent 0) 0 with dests := [d] } 0))

end Sys2Proof.Machine
end

