-- ==== Sys2Proof/Machine/EventsThread.lean ====
section
/-!
DEFINITION. Events of threads: turns, traps, results, acknowledgements, refusals and the ends of parks (03 R61, 11 R256,
14 R339 to R344 and R364, 15 R366, R367, 16 R388).
-/

namespace Sys2Proof.Machine

/-- An event that happens where it has a next state. -/
def happens (x : Option State) : Host.Outcome State Fault Refusal :=
  match x with | some s => .next s | none => .refused .notEnabled
/-- An event with a condition. -/
def whenever (c : Bool) (s : State) : Option State := if c then some s else none

/-! ### The fetch of a turn (10 R237, R246; 16 R388) -/

/-- The address of region 0x00 that the fetch of a turn translates; none in other regions and in views. -/
def fetchPage (s : State) (th : Thread) : Option Word :=
  (fetchAddr th).filter (fun a => selector a == 0 && (viewOf s (va56 a)).isNone)
/-- The fetch of a turn whose page the PLB lacks: the thread leaves the rotation for a walker (16 R388). -/
def State.fetchMiss (s : State) (t : Nat) (th : Thread) : Option State :=
  match fetchPage s th with
  | some a =>
    if (plbFind (s.core (tcore t)) (tslot t) (va56 a)).isNone then
      some (({ s with issuing := false }.setThread t { th with status := .parked (.plb (va56 a / 2 ^ 18) a) s.cycle }).countCore
        (tcore t) cPLBMISS 1)
    else none
  | none => none
/-- A fetch block of region 0x00 brought through its home cache into the near slice, as the sector of a load would be (10 R235,
R237, 13 R319; log 12). -/
def State.fetchFill (s : State) (t : Nat) (th : Thread) : State :=
  let c := tcore t
  match fetchPage s th with
  | none => s
  | some a =>
    let va := sectorVa a
    if (nearRead (s.core c) th.domain va 32).isSome then s.modCore c (fun k => nearTouch k va th.domain)
    else
      let s := s.pullSpan c va 32
      match storage s c va with
      | none => s
      | some loc =>
        if (homeCheck s va loc 32 (th.owner t) false).isSome then s
        else match s.ensureLine c va th.domain with
          | some s => s.installClean c va th.domain (s.load (loc / 32 * 32) 32) (s.tagPair loc)
          | none => s.countCore c cBYPASS 1

/-! ### Turns (15 R366) -/

/-- The trap of the unit that would issue next (15 R366, R447). -/
def State.faultNext (s : State) (t : Nat) (th : Thread) (code : Code) (cause : Word) : State :=
  ({ s with unit := (fetchNext s t th).unit }).faultUnit t th code cause
/-- Whether the thread waits for an absent register at a window's end (03 R61). -/
def waitsForResult (th : Thread) : Bool := th.windows.any (fun w => w.left == 0 && !w.regs.all (fun r => (th.reg r).present))
/-- Whether it waits for a value it has yet to push (03 R53). -/
def waitsForPush (th : Thread) : Bool := th.ops.any (fun o => o.cls == .longLat && o.dests.any (fun d => 257 ≤ d.toNat))
/-- Whether a thread after RTE still waits for what it re-injected (15 R372). -/
def waitsForReplay (th : Thread) : Bool := th.resuming && th.reinject.isEmpty && !th.ops.all Op.isSettled
/-- Whether a BUDGET trap falls due (14 R339, 15 R366 step 2). -/
def budgetDue (t : Nat) (th : Thread) : Bool :=
  th.turns == 0 && !isHandler t && th.trapActive.isNone && (oldestRefused th.ops).isNone && th.status == .ready
/-- A held turn: charged, and counted where it is held on a presence bit (14 R339, 17 R406). -/
def State.holdTurn (s : State) (t : Nat) (th : Thread) (presence : Bool) : State :=
  let s := s.setThread t (th.charge t)
  if presence then s.countCore (tcore t) cHELD 1 else s
/-- Whether a DONE entry at the head of the queue still waits to push: nothing after it issues, nor traps (15 R372). -/
def headHeld (s : State) (t : Nat) (th : Thread) : Bool := match th.reinject with | e :: _ => entryHeld s t th e | [] => false
/-- A turn of a ready thread: the refusal of an older instruction, the entries that issue nothing, BUDGET, a hold, or an issue. -/
def State.turn (s : State) (t : Nat) (th : Thread) : State :=
  if (oldestRefused th.ops).isSome then
    let a : Word := BitVec.ofNat 64 th.pc
    (s.startTrap t none 0 [] a a false false).trapNow t
  else
    let s := s.flushEntries t 17
    match s.thread t with
    | none => s
    | some th =>
      if headHeld s t th then s.holdTurn t th false
      else if budgetDue t th then s.faultNext t th .budget 0
      else if waitsForResult th then s.holdTurn t th true
      else if waitsForPush th || waitsForReplay th then s.holdTurn t th false
      else
        let s := s.modThread t (fun x => { x with resuming := x.resuming && !x.reinject.isEmpty })
        { s with cur := t, issuing := true }
def execThreadTurn (t : Nat) (s : State) :=
  happens (match s.thread t with
    | some th => whenever (th.status == .ready && !lateHandler s th && !(s.core (tcore t)).stopped) (s.turn t th)
    | none => none)
/-- The turn of a thread whose budget is used up, once the entries before the unit are taken (15 R366, R372). -/
def State.budgetTurn (s : State) (t : Nat) : Option State :=
  let s := s.flushEntries t 17
  match s.thread t with
  | some th => whenever (budgetDue t th && !headHeld s t th) (s.faultNext t th .budget 0)
  | none => none
def execBudgetTrap (t : Nat) (s : State) :=
  happens (match s.thread t with
    | some th => if budgetDue t th && !(s.core (tcore t)).stopped then s.budgetTurn t else none
    | none => none)
def isTrapping (th : Thread) : Bool := match th.status with | .trapping .. => true | _ => false
def execTrapEntry (t : Nat) (s : State) :=
  happens (match s.thread t with
    | some th => whenever (isTrapping th && th.ops.all Op.isSettled && !pushesLeft th && !(s.core (tcore t)).stopped)
        ((s.enterTrap t).settleDrains (tcore t))
    | none => none)

/-! ### Results, acknowledgements, refusals (11 R256) -/

/-- An operation of a thread. -/
def State.opOf (s : State) (t op : Nat) : Option (Thread × Op) :=
  (s.thread t).bind (fun th => (th.op op).map (fun o => (th, o)))
/-- A result taken into its destinations. -/
def State.arrive (s : State) (t : Nat) (o : Op) (vs : List Val) : State :=
  let s := (o.dests.zip vs).foldl (fun s x => s.putNow t x.1 x.2) s
  let s := s.modThread t (fun th => { th.dropOp o.id with flags := th.flags.or o.flags })
  if isLoadWord o.word then s.sampleCore (tcore t) 1 (s.cycle - o.issued) else s
def execResultArrival (t op : Nat) (s : State) :=
  happens (match s.opOf t op with
    | some (th, o) => (match o.phase with
      | .done vs => whenever (o.cls == .longLat && (!isTrapping th || th.pushDue o) && opClear s t o) (s.arrive t o vs)
      | _ => none)
    | none => none)
def execPostedAck (t op : Nat) (s : State) :=
  happens (match s.opOf t op with
    | some (_, o) => (match o.phase with
      | .done vs => whenever (o.cls == .posted && opClear s t o) (s.arrive t o vs)
      | _ => none)
    | none => none)
def execHomeRefusal (t op : Nat) (s : State) :=
  happens (match s.opOf t op with
    | some (_, o) => (match o.phase with
      | .refusing c a =>
        let s := match o.act with | .rows tile .. => s.unclaim (tcore t) tile (o.ticks == 1) | _ => s
        some (s.modThread t (fun th =>
          let x := th.modOp op (fun y => { y with phase := .refused c a })
          match x.status with | .out w _ => if w == op then x.rejoin else x | _ => x))
      | _ => none)
    | none => none)
/-- What a thread that is ending leaves undone: END, YIELD and HEND do not act once its trap has begun. -/
def Act.ends : Act → Bool | .yield _ | .endTask | .hend => true | _ => false
/-- Whether an act may end drains by revoking their leases (09 R228). -/
def Act.revokes : Act → Bool | .lease 3 _ _ => true | _ => false
/-- Drains of every core that have come to their end settled. -/
def State.settleAll (s : State) : State := s.cores.foldl (fun s x => s.settleDrains x.1) s
def execHomeAcknowledgement (t op : Nat) (s : State) :=
  happens (if (s.core (tcore t)).stopped then none else match s.opOf t op with
    | some (th, o) => (match o.phase with
      | .done vs => whenever (o.cls == .out && (!isTrapping th || th.pushDue o) && opClear s t o)
          (if isTrapping th then s.arrive t o vs else s.completeOut t o vs)
      | .sent 0 =>
        if isTrapping th && o.act.ends then some (s.modThread t (fun x => x.dropOp op))
        else (s.finishAct t th o).map (fun x => if o.act.revokes then x.settleAll else x)
      | _ => none)
    | none => none)
def execWaitResend (t : Nat) (s : State) :=
  happens (match s.thread t with
    | some th => (match th.ops.find? (fun o => o.phase == .resend) with
      | some o => whenever (o.issued + 256 ≤ s.cycle && !(s.core (tcore t)).stopped)
          ((s.modThread t (fun x => x.modOp o.id (fun y => { y with issued := s.cycle }))).sendAccess t o.id o.va)
      | none => none)
    | none => none)

/-! ### The ends of parks (14 R340, R364) -/

/-- Whether the links and queues of a parked unit can serve it now (03 R52). -/
def operandsServed (s : State) (t : Nat) (th : Thread) : Bool :=
  match (fetchNext s t th).instr with
  | .ok i => linksReady s (tcore t) th.domain (i.fields (i.elemType (s.core (tcore t)).fmtr))
  | .error _ => true
/-- Whether the wait of a park is over. -/
def parkOver (s : State) (t : Nat) (th : Thread) (why : Park) : Bool :=
  match why with
  | .operand => operandsServed s t th
  | .tile i => (tileStop s t th i).isNone
  | .matrixUnit => !unitBusy (s.core (tcore t)) th.taskid
  | .engineQueue => !engineFull s (tcore t)
  | .postedRoom => !postedFull th
  | .range => s.homes.all (fun h => h.2.conv.isNone)
  | .own => !ownWaits s t th
  | .leave => mayLeave (fetchNext s t th).unit th
  | _ => false
/-- A parked thread back in the rotation. -/
def State.unpark (s : State) (t : Nat) : State := s.modThread t (fun th => { th with status := .ready })
def execParkResume (t : Nat) (s : State) :=
  happens (match s.thread t with
    | some th => (match th.status with
      | .parked why _ => whenever (parkOver s t th why && !(s.core (tcore t)).stopped) (s.unpark t)
      | _ => none)
    | none => none)
def execSleepExpiry (t : Nat) (s : State) :=
  happens (match s.thread t with
    | some th => (match th.status with
      | .parked (.sleep target) _ => whenever (target.toNat ≤ s.now t && !(s.core (tcore t)).stopped)
          (s.modThread t (fun x => { x with status := .ready }))
      | _ => none)
    | none => none)

/-! ### PLB fills (16 R387, R388) -/

/-- Rights of the lease range that covers an address. -/
def coveringRights (th : Thread) (va : Nat) : BitVec 12 :=
  match th.ranges.find? (fun q => decide (capBase q ≤ (va : Int)) && decide ((va : Int) < capTop q)) with
  | some q => capPerms q
  | none => 0
/-- A PLB entry installed as the most recent, the least recent one leaving a full PLB. -/
def plbInstall (k : Core) (e : PlbEntry) : Core :=
  let rest := if Config.plbSize ≤ k.plb.length then k.plb.drop 1 else k.plb
  { k with plb := rest ++ [e] }
/-- Whether the unit that a parked thread waits to issue is a PREF, which raises no fault (11 R260). -/
def prefNext (s : State) (t : Nat) (th : Thread) : Bool :=
  match (fetchNext s t th).instr with | .ok (.pref ..) => true | _ => false
/-- A walker's answer to a parked thread, once its walk has read the tables at their homes (16 R387). -/
def State.fillPlb (s : State) (t : Nat) (th : Thread) (page : Nat) (va : Word) (since : Nat) : State :=
  let th := { th with status := .ready }
  let s := s.walkNow (page * 2 ^ 18)
  let fetching := fetchAddr th == some va
  let bad (f : Code) : State :=
    if fetching then s.faultNext t th ((fetchFault s th va 8).getD f) va
    else if prefNext s t th then s.setThread t th else s.faultNext t th f va
  match leafOf s page with
  | none => bad .machine
  | some l =>
    if l.domain != 0xFFFF && l.domain != th.domain then bad .lease
    else
      let e : PlbEntry := ⟨tslot t, l.level, page * 2 ^ 18 / 2 ^ Leaf.bits l.level, l.home, l.frame, coveringRights th (page * 2 ^ 18)⟩
      ((s.setThread t th).modCore (tcore t) (fun k => plbInstall k e)).sampleCore (tcore t) 4 (s.cycle - since)
def execPlbFill (t : Nat) (s : State) :=
  happens (match s.thread t with
    | some th => (match th.status with
      | .parked (.plb page va) since => some (s.fillPlb t th page va since)
      | _ => none)
    | none => none)

end Sys2Proof.Machine
end

