-- ==== Sys2Proof/Machine/EventsHome.lean ====
section
/-!
DEFINITION. Events of homes: accesses, registrations, probes, pulls, write-backs, buffered release stores, fills from HBM,
home walks and the delivery of served wait records (10 R237 to R243, 13 R312 to R320, 14 R344, 16 R389).
-/

namespace Sys2Proof.Machine

/-- The core that performs a message: the one it is addressed to, or for a peer's port the first of the port's cluster. -/
def Msg.at (m : Msg) : Nat := match m.dst with | .core h => h | .station x => coreAt x 0
/-- What a mark operation or tick message is ordered with, and its class and number in the order of one cycle: ticks stand
first in ascending number, and the MTICKs of a domain among themselves (12 R285, R289). -/
def Msg.markRank (s : State) (m : Msg) : Option (Nat × Nat × Nat) :=
  match m.payload with
  | .tick dom _ n _ _ => some (dom, 1, n)
  | .access t op => (match (s.thread t).bind (fun th => th.op op) with
    | some o => (match o.act with
      | .mtick dom => some (64 + dom, 0, 0)
      | .mdep dom _ _ => some (dom, 2, t)
      | .merase dom _ => some (dom, 3, t)
      | .mread dom _ => some (dom, 4, 0)
      | .msense dom _ _ => some (dom, 4, 0)
      | .msamp dom _ _ _ => some (dom, 4, 0)
      | _ => none)
    | none => none)
  | _ => none
/-- A message with the tick messages that its home applies before it: those of its domain with a lower number (12 R285). -/
def State.ticksUpTo (s : State) (m : Msg) : List Msg :=
  match m.payload with
  | .tick dom _ n _ _ => s.msgs.filter (fun x => x.dst == m.dst && (match x.payload with
      | .tick d _ k _ _ => d == dom && decide (k ≤ n) | _ => false))
  | _ => [m]
/-- The cycle in which a message can first be performed: a tick message counts as there once those before it are. -/
def Msg.since (s : State) (m : Msg) : Nat := ((s.ticksUpTo m).map Msg.reached).foldl max 0
/-- Cycle of arrival, class and thread of a message; of one cycle, accesses other than those to marks come first. -/
def Msg.arrivalKey (s : State) (m : Msg) : Nat × Nat × Nat :=
  match m.markRank s with | some r => (m.since s, r.2.1, r.2.2) | none => (m.reached, 0, 0)
/-- Whether x comes before m in the order in which the messages arrived (10 R233, R238; 12 R289). -/
def State.precedes (s : State) (x m : Msg) : Bool :=
  let a := x.arrivalKey s
  let b := m.arrivalKey s
  if a.1 != b.1 then decide (a.1 < b.1)
  else if a.2.1 != b.2.1 then decide (a.2.1 < b.2.1)
  else if a.2.2 != b.2.2 then decide (a.2.2 < b.2.2)
  else (s.ahead m).any (fun y => y.id == x.id)
/-- Messages in the order in which they arrived. -/
def State.byArrival (s : State) (ms : List Msg) : List Msg :=
  ms.foldl (fun l m =>
    let r := l.span (fun x => !s.precedes m x)
    r.1 ++ m :: r.2) []
/-- What a message touches that its home orders by arrival: lines of HBM, and a core's scratchpads as a whole. -/
def Msg.places (s : State) (m : Msg) : List (Option Nat) :=
  (m.reaches s m.at).1.filterMap (fun va =>
    if selector va == 0xF8 || selector va == 0xFC then none
    else if selector va == 0 then (storage s m.asker va).map (fun loc => some (loc / 128)) else some none)
/-- Whether a home orders two messages: marks of one domain, or accesses that meet in a line or a scratchpad. -/
def Msg.meets (s : State) (x m : Msg) : Bool :=
  match x.markRank s, m.markRank s with
  | some a, some b => a.1 == b.1
  | _, _ => let ps := m.places s; (x.places s).any (fun p => ps.contains p)
/-- Whether a message stands before another at their home: it arrived there first and they meet, or a live shift parked it
first (10 R238, R252). -/
def State.standsBefore (s : State) (x m : Msg) : Bool :=
  let parked := (s.home m.at).parked
  x.id != m.id && x.dst == m.dst
  && ((s.ticksUpTo x).all (fun y => y.ride == .arrived) && s.precedes x m && x.meets s m
    || (parked.contains m.id && (parked.takeWhile (· != m.id)).contains x.id))
/-- Whether an earlier arrival keeps a message back, or its cycle is not yet over for a mark (12 R289). -/
def State.heldPlain (s : State) (m : Msg) : Bool :=
  s.msgs.any (fun x => s.standsBefore x m) || ((m.markRank s).isSome && decide (s.cycle ≤ m.reached))
/-- The sector that a message records in its home's release directory, and the core it names (13 R318, 11 R264). -/
def Msg.releases (s : State) (m : Msg) : Option (Nat × Nat) :=
  match m.payload with
  | .access t op => (match (s.thread t).bind (fun th => th.op op) with
    | some o =>
      let rel : Bool := match o.act with
        | .storeRel .. => true | .fill _ => true | .amo _ _ _ ord => ord.isRel | .cas _ _ _ ord => ord.isRel | _ => false
      if rel then (storage s m.asker o.va).map (fun loc => (loc / 32, tcore t)) else none
    | none => none)
  | _ => none
/-- What stands in the way of that record (13 R319, 16 R399). -/
def Msg.blocked (s : State) (h : Nat) (m : Msg) : Option (DirEntry × List Nat) :=
  (m.releases s).bind (fun r => dirBlock (s.home h) r.1 r.2)
/-- Whether a message waits for a pull (13 R319). -/
def Msg.pulls (s : State) (m : Msg) : Bool := (m.blocked s m.at).isSome || !(pullsNeeded s m.at m).isEmpty
/-- Whether an earlier arrival keeps a message back. Bytes that a release covered pass only the arrivals that cannot be performed
before them: those that wait for a pull, or behind one (13 R319; log 29). -/
def State.heldBack (s : State) (m : Msg) : Bool :=
  if m.covered then
    s.msgs.any (fun x => s.standsBefore x m && (x.covered || (s.inOrder x && !s.heldPlain x && !x.pulls s)))
  else s.heldPlain m
/-- A message that has arrived and is the next to be performed there: in its owner's order (01 R18) and the order of arrival. -/
def State.ready (s : State) (id : Nat) : Option (Msg × Nat) :=
  match s.msg id with
  | some m => if s.inOrder m && !s.heldBack m then some (m, m.at) else none
  | none => none

/-! ### Accesses (10 R238) -/

/-- Lines used become the most recent in their home caches. -/
def State.touchLines (s : State) (ls : List LineKey) : State :=
  ls.foldl (fun s x => s.modHome x.home (fun k => k.touch x.line x.view)) s
/-- MTICK at its domain home (12 R299): the tick is incremented and tick messages go out. -/
def State.tickHome (s : State) (h t : Nat) (o : Op) (dom : Nat) : State :=
  let d := s.mark dom
  if !markLive s h dom then s.takeReply t o.id (.refuse .wrongClass o.va)
  else
    let n := (d.tick + 1) % 2 ^ 64
    let s := s.modMark dom (fun x => { x with tick := n })
    let s := s.modThread t (fun th => th.modOp o.id (fun x => { x with cont := 1 }))
    let hs := homesOf s d
    let s := hs.foldl (fun s x => s.send (.core h) (.core x) Owner.nobody (.tick dom d.gen n t o.id)) s
    if hs.isEmpty then s.setPhase t o.id (.done [Val.ofWord (BitVec.ofNat 64 n)]) else s.setPhase t o.id (.sent hs.length)
/-- The answer to a window access that is not performed: Unsupported Request (18 R416). -/
def Outside.refusal (x : Outside) (off : Nat) : Output :=
  match x with | .link l => .unsupported l 4 off | .port p => .peerUnsupported p off
/-- Whether n bytes of one sector are a bound mark cell's, or stand on a poisoned sector that a write does not cover (18 R416, 10 R243;
log 27). -/
def windowBad (s : State) (va : Word) (n : Nat) (write : Bool) : Bool :=
  match storage s noCore va with
  | some loc => markAt s va n (holder loc) || (s.poisonAt loc && !(write && n == 32))
  | none => true
/-- The bytes of a window write in one sector performed at their home: tags cleared, never registered, and acknowledged to a peer (18
R416, R419). -/
def State.windowPiece (s : State) (src : Outside) (off : Nat) (va : Word) (bytes : List Byte) : State :=
  let n := bytes.length
  match storage s noCore va with
  | some _ =>
    if windowBad s va n true then s.emit (src.refusal off)
    else
      let s := s.putPiece va bytes
      (match src with | .link _ => s | .port p => s.emit (.peerAck p off))
  | none => s.emit (src.refusal off)
/-- Whether window writes of a source have still to be performed (18 R416). -/
def windowWaits (s : State) (src : Outside) : Bool :=
  s.msgs.any (fun m => match m.payload with | .window x _ _ _ => x == src | _ => false)
/-- A message's access performed at home h. -/
def State.access (s : State) (m : Msg) (h : Nat) : State :=
  match m.payload with
  | .access t op => (match s.opOf t op with
    | some (th, o) => (match o.act with
      | .mtick dom => s.tickHome h t o dom
      | _ => let r := s.perform h t th o; r.1.takeReply t op r.2)
    | none => s)
  | .write t op va mask data tag => let r := s.performWrite m t va mask data tag; r.1.takeReply t op r.2
  | .engRead c id va => s.elementRead c id va
  | .engWrite c id va v => s.elementWrite c id va v.toNat
  | .window src off va bytes => s.windowPiece src off va bytes
  | _ => s
/-- Whether a message is an access. -/
def Msg.isAccess (m : Msg) : Bool :=
  match m.payload with | .access .. | .write .. | .engRead .. | .engWrite .. | .window .. => true | _ => false
/-- Whether a message needs its lines and its page at its home: an access, or bytes written back (10 R237, 16 R389). -/
def Msg.needsLines (m : Msg) : Bool := m.isAccess || (match m.payload with | .wback .. => true | _ => false)
/-- Whether a message finds its lines and its pages. -/
def served (s : State) (h : Nat) (m : Msg) : Bool := (unwalkedPages s h m).isEmpty && (missingLines s h m).isEmpty
/-- Whether an element of an engine reaches offsets that a way conversion still raises: it waits (10 R247). -/
def Msg.raised (s : State) (m : Msg) : Bool :=
  match m.payload with
  | .engRead _ _ va => converting s (sectorVa va) 32
  | .engWrite _ _ va _ => converting s (sectorVa va) 32
  | .window _ _ va _ => converting s (sectorVa va) 32
  | _ => false
/-- Pulls started for the sectors of a message whose directory entries are not being pulled yet (13 R319). -/
def State.startPulls (s : State) (ps : List (Nat × Nat × Bool)) : State :=
  ps.foldl (fun s p => if p.2.2 then s else s.startPull p.1 p.2.1) s
def execHomeAccess (m : Nat) (s : State) :=
  happens (match s.ready m with
    | some (x, h) =>
      if !x.isAccess || !served s h x || x.raised s then none
      else match x.blocked s h with
      | some b => whenever (!b.1.pulling) (s.forcePull h b)
      | none =>
        let s := (s.noteAwaited h x).getD s
        let ps := pullsNeeded s h x
        if ps.isEmpty then some (((s.dropMsg m).touchLines (x.lines s h)).access x h)
        else whenever (ps.any (fun p => !p.2.2)) (s.startPulls ps)
    | none => none)

/-! ### Registrations (13 R312 to R316) -/

/-- The first plain write of an epoch reaches its home: registered, shed, or refused. -/
def State.registerAt (s : State) (m : Msg) (t op : Nat) (va : Word) (mask : BitVec 32) : State :=
  let c := tcore t
  let key := va.toNat / 32
  match s.thread t, storage s c va with
  | none, _ => s
  | some _, none => s.takeReply t op (.refuse .machine va)
  | some th, some loc =>
    match writeCheck s va loc mask m.owner with
    | some f =>
      (((s.dropBytes c va th.domain mask).dropSent c va m.owner mask).modThread t (fun x =>
        { x with epoch := x.epoch.filter (· != key) })).takeReply t op (.refuse f va)
    | none =>
      if th.shed.contains key then s.takeReply t op (.answer [])
      else
      let r := s.register loc m.owner
      match r.2 with
      | .shed =>
        let s := r.1.modThread t (fun x => { x with shed := if x.shed.contains key then x.shed else key :: x.shed })
        let s := if (nearSector (s.core c) va th.domain).holds then s.writeBack c va th.domain false none else s
        s.takeReply t op (.answer [])
      | _ => r.1.takeReply t op (.answer [])
def execRegistration (m : Nat) (s : State) :=
  happens (match s.ready m with
    | some (x, _) => (match x.payload with
      | .register t op va mask => some ((s.dropMsg m).registerAt x t op va mask)
      | _ => none)
    | none => none)

/-! ### Probes and write-backs (13 R317 to R320) -/

/-- A probe clears the thread's scratchpad owner fields at its core and echoes. -/
def State.probeAt (s : State) (m : Msg) (h t op : Nat) : State :=
  ({ s with owners := s.owners.filter (fun x => !(holder (32 * x.1) == h && x.2 == m.owner)) }).send (.core h) m.src
    Owner.nobody (.echo t op)
def execProbe (m : Nat) (s : State) :=
  happens (match s.ready m with
    | some (x, h) => (match x.payload with
      | .probe t op => some ((s.dropMsg m).probeAt x h t op)
      | _ => none)
    | none => none)
/-- An echo counted; the last one lets the release go on. -/
def State.echoed (s : State) (t op : Nat) : State :=
  match s.opOf t op with
  | some (th, o) => (match o.phase with
    | .probing n => if n ≤ 1 then s.probesDone t th o else s.setPhase t op (.probing (n - 1))
    | _ => s)
  | none => s
def execProbeEcho (m : Nat) (s : State) :=
  happens (match s.ready m with
    | some (x, _) => (match x.payload with
      | .echo t op => some ((s.dropMsg m).echoed t op)
      | _ => none)
    | none => none)
/-- A write-back of an eager release acknowledged; the last one ends it. -/
def State.flushedOne (s : State) (t op : Nat) : State :=
  match s.opOf t op with
  | some (th, o) => (match o.phase, o.act.relKind with
    | .flushing n, .eager sc => if n ≤ 1 then s.flushDone t th o sc else s.setPhase t op (.flushing (n - 1))
    | _, _ => s)
  | none => s
def execWriteBack (m : Nat) (s : State) :=
  happens (match s.ready m with
    | some (x, h) => if !served s h x then none else (match x.payload with
      | .wback core va mask data tags owner clear waiter =>
        let s := (s.dropMsg m).wbackAt core va mask data tags owner clear
        some (match waiter with | some (t, op) => s.flushedOne t op | none => s)
      | _ => none)
    | none => none)

/-! ### Pulls (13 R319, 16 R399) -/

/-- The released sectors of a core: address and domain. -/
def releasedOf (k : Core) : List (Word × BitVec 16) :=
  (k.near.map (fun l => (l.sectors.filter (fun x => x.2.st == .released)).map (fun x => (lineSectorVa l.line x.1, l.domain)))).flatten
/-- Whether released bytes of a core are on their way home. -/
def coveredOut (s : State) (c : Nat) : Bool :=
  s.msgs.any (fun m => match m.payload with | .wback k _ _ _ _ _ clear _ => k == c && clear | _ => false)
/-- A pull at a core: its released sectors go home, and once every such write-back is performed the core answers. -/
def State.pulled (s : State) (m c home sector : Nat) (sent : Bool) : Option State :=
  let s := if sent then s else s.settleCore c
  let xs := if sent then [] else releasedOf (s.core c)
  match xs with
  | [] =>
    if coveredOut s c then
      if sent then none
      else some { s with msgs := s.msgs.map (fun (y : Msg) => if y.id == m then { y with payload := .pull home sector true } else y) }
    else some ((s.dropMsg m).send (.core c) (.core home) Owner.nobody (.pullReply home sector c))
  | _ =>
    let s := xs.foldl (fun s x => s.writeBack c x.1 x.2 true none) s
    some { s with msgs := s.msgs.map (fun (y : Msg) => if y.id == m then { y with payload := .pull home sector true } else y) }
def execPull (m : Nat) (s : State) :=
  happens (match s.ready m with
    | some (x, c) => (match x.payload with
      | .pull home sector sent => s.pulled m c home sector sent
      | _ => none)
    | none => none)
/-- Whether a pull of a sector is still on its way at some core. -/
def pullOut (s : State) (home sector : Nat) : Bool :=
  s.msgs.any (fun m => match m.payload with
    | .pull h x _ => h == home && x == sector
    | .pullReply h x _ => h == home && x == sector
    | _ => false)
/-- A core's answer: it leaves the entry unless it has released again; an empty entry goes. -/
def State.pullAnswered (s : State) (home sector core : Nat) : State :=
  let again := !(releasedOf (s.core core)).isEmpty
  let busy := pullOut s home sector
  let f (e : DirEntry) : Option DirEntry :=
    if e.sector == sector then
      let cs := if again then e.cores else e.cores.filter (· != core)
      if cs.isEmpty then none else some { e with cores := cs, pulling := e.pulling && busy }
    else some e
  s.modHome home (fun k => { k with directory := k.directory.filterMap f })
def execPullReply (m : Nat) (s : State) :=
  happens (match s.ready m with
    | some (x, _) => (match x.payload with
      | .pullReply home sector core => some ((s.dropMsg m).pullAnswered home sector core)
      | _ => none)
    | none => none)
def execReleaseStoreWritten (home sector : Nat) (s : State) :=
  happens (whenever ((s.home home).wbuf.any (fun b => b.sector == sector)) (s.flushBuffer home sector))

/-! ### Fills from HBM (10 R237, R242, R243) -/

/-- The line key that an event's line number names: view lines stand above 2^60. -/
def keyOf (home line : Nat) : LineKey := if 2 ^ 60 ≤ line then ⟨home, line - 2 ^ 60, true⟩ else ⟨home, line, false⟩
/-- Whether an arrived access waits for a line. -/
def lineWanted (s : State) (x : LineKey) : Bool :=
  s.msgs.any (fun m => s.inOrder m && m.at == x.home && m.needsLines && (unwalkedPages s x.home m).isEmpty
    && (missingLines s x.home m).contains x)
def execHbmFill (home line : Nat) (ecc : BitVec 8) (s : State) :=
  let x := keyOf home line
  let stalled (line : Nat) : Bool := (tfind (s.home home).backoff (Config.bankOf line)).isSome
  happens (whenever (lineWanted s x && !(s.home home).shift && !(x.reads s).any stalled) (s.fillLine x ecc))

/-! ### Home walks (16 R389) -/

/-- A message refused at its home; bytes written back are lost, and whoever awaits them goes on. -/
def State.refuseMsg (s : State) (m : Msg) (c : Code) (va : Word) : State :=
  match m.payload with
  | .wback _ _ _ _ _ _ _ (some (t, op)) => s.flushedOne t op
  | .access t op => s.takeReply t op (.refuse c va)
  | .write t op _ _ _ _ => s.takeReply t op (.refuse c va)
  | .engRead k id _ => s.failEng k id c
  | .engWrite k id _ _ => s.failEng k id c
  | .window src off _ _ => s.emit (src.refusal off)
  | _ => s
/-- The first page of a message walked, its tables read at their homes (16 R387): its home frame entry is filled, or the access
fails. -/
def State.walkPage (s : State) (m : Msg) (va : Word) : State :=
  let vpn := va56 va / 2 ^ 18
  let s := s.walkNow (va56 va)
  match framePlace s vpn with
  | none => (s.dropMsg m.id).refuseMsg m .machine va
  | some (h, f) =>
    let e := tget (s.home h).frames f HomeFrame.reset
    if e.valid && e.vpn != vpn then (s.dropMsg m.id).refuseMsg m .machine va
    else s.modHome h (fun k => { k with frames := tput k.frames f { e with valid := true, vpn := vpn } })
def execHomeWalk (m : Nat) (s : State) :=
  happens (match s.ready m with
    | some (x, h) => (match unwalkedPages s h x with
      | va :: _ => whenever x.needsLines (s.walkPage x va)
      | [] => none)
    | none => none)

/-! ### Served wait records (14 R342, R344) -/

/-- An operation of a stored thread served with a value: a register takes it and the operation is over; a push stays with the
operation until the thread runs again (05 R110). A WLD ends the epoch (13 R305). -/
def Thread.servedAway (th : Thread) (o : Op) (v : Word) : Thread :=
  let th := if o.acquire then { th with epoch := [], shed := [] } else th
  if o.dests.any (fun d => 257 ≤ d.toNat) then th.modOp o.id (fun y => { y with phase := .done [Val.ofWord v] })
  else (th.deliver o.dests [Val.ofWord v]).dropOp o.id
/-- A value written into a stored context, which returns to its ready set (14 R342). -/
def State.wakeStored (s : State) (cl i op : Nat) (v : Word) : State :=
  match tfind (s.station cl).store i with
  | none => s
  | some e =>
    let th := match e.thread.op op with
      | some o => e.thread.servedAway o v
      | none => e.thread
    ((s.putStored cl i { e with thread := th, woken := true }).requeue cl i)
/-- A served record delivered to its slot or store entry. -/
def State.delivered (s : State) (who : Waiter) (op : Nat) (v : Word) : State :=
  match who with
  | .slot t => (match s.opOf t op with
    | some (th, o) =>
      if isTrapping th then s.setPhase t op (.done [Val.ofWord v]) else s.completeOut t o [Val.ofWord v]
    | none => s)
  | .entry cl i => s.wakeStored cl i op v
/-- The thread a waiter's record names, and the operations of stored threads. -/
def stationOps (k : Station) : List Nat := (k.store.map (fun e => e.2.thread.ops.map Op.id)).flatten
/-- The operations a saved partition still waits for. -/
def Saved.ops (v : Saved) : List Nat :=
  (v.threads.map (fun x => x.2.ops.map Op.id)).flatten ++ (v.stations.map (fun x => stationOps x.2)).flatten
/-- The saved partition that waits for an operation. -/
def savedFor (s : State) (op : Nat) : Option Saved := s.saved.find? (fun v => v.ops.contains op)
/-- The core that counts a wake's latency (17 R408). -/
def wakeCore (s : State) : Waiter → Nat
  | .slot t => tcore t
  | .entry cl i => match tfind (s.station cl).store i with | some e => e.core | none => coreAt cl 0
def execWaitRecordDelivery (m : Nat) (s : State) :=
  happens (match s.msg m with
    | some x => (match x.payload, x.ride with
      | .wake who op v _, .arrived =>
        whenever (savedFor s op).isNone (((s.dropMsg m).sampleCore (wakeCore s who) 2 (s.cycle - x.born)).delivered who op v)
      | _, _ => none)
    | none => none)

end Sys2Proof.Machine
end

