-- ==== Sys2Proof/Machine/EventsQueue.lean ====
section
/-!
DEFINITION. Events of the queues: swap-out and wake (14 R341, R342), intake (R352, R353), staging (R336), slots (R337,
R338, R346, R348) and donation (R351).
-/

namespace Sys2Proof.Machine

/-! ### Swap-out (14 R340, R341) -/

/-- A park that ends in swap-out: the cycle it began, the operation that waits on a word, and whether PARKLIM applies. -/
structure Swap where
  since   : Nat
  op      : Option Nat
  limited : Bool
  deriving DecidableEq, Repr
/-- The swappable park of a thread, none for the parks that swap-out leaves alone. -/
def swapOf (th : Thread) : Option Swap :=
  match th.status with
  | .parked .store since => some ⟨since, none, false⟩
  | .parked (.sleep _) since => some ⟨since, none, true⟩
  | .parked (.tile _) since => some ⟨since, none, true⟩
  | .parked .matrixUnit since => some ⟨since, none, true⟩
  | .parked .engineQueue since => some ⟨since, none, true⟩
  | .parked .postedRoom since => some ⟨since, none, true⟩
  | .out op since => match th.op op with
    | some o => if o.phase == .waiting then some ⟨since, some op, true⟩ else none
    | none => none
  | _ => none
/-- Registers that must be present: all but the destination whose record is redirected. -/
def presentBut (th : Thread) (ds : List Nat) : Bool := th.regs.all (fun r => r.2.present || ds.contains r.1)
/-- Whether a home still holds the record of a waiting operation. -/
def recordHeld (s : State) (t op : Nat) : Bool :=
  s.homes.any (fun h => h.2.waits.any (fun r => r.who == .slot t && r.op == op))
/-- The records of a thread redirected to a store entry. -/
def State.redirect (s : State) (t cl i : Nat) : State :=
  let f (r : WaitRec) : WaitRec := if r.who == .slot t then { r with who := .entry cl i } else r
  { s with homes := s.homes.map (fun (x : Nat × Home) => (x.1, { x.2 with waits := x.2.waits.map f })) }
/-- Whether a thread may be swapped out now. -/
def maySwap (s : State) (t : Nat) (th : Thread) (w : Swap) : Bool :=
  let rest := match w.op with | some op => th.ops.filter (fun (o : Op) => o.id != op) | none => th.ops
  let ds := match w.op.bind th.op with | some o => regsOf o.dests | none => []
  let done := match th.status with | .parked why _ => parkOver s t th why | _ => false
  !th.crew && !isHandler t && !(s.core (tcore t)).stopped && rest.isEmpty && presentBut th ds && !done
    && (!w.limited || decide (w.since + (s.core (tcore t)).parklim.toNat ≤ s.cycle))
    && (match w.op with | some op => recordHeld s t op | none => true)
/-- A thread moved to entry i of its station's store; a yielded one goes on to the ready set (14 R359). -/
def State.swapOut (s : State) (t : Nat) (th : Thread) (w : Swap) (i : Nat) : State :=
  let c := tcore t
  let cl := clusterOf c
  let ds := match w.op.bind th.op with | some o => regsOf o.dests | none => []
  let th2 := ds.foldl (fun x r => x.setPresent r false) th
  let e : StoreEntry :=
    { thread := th2, core := c, slot := tslot t, woken := !w.limited, bound := boundTask s t th, queued := false, image := [] }
  let s := ((s.redirect t cl i).dropPlb t).dropThread t
  (s.putStored cl i e).requeue cl i
def execSwapOut (t : Nat) (s : State) :=
  happens (match s.thread t with
    | some th => (match swapOf th with
      | some w =>
        if !maySwap s t th w then none
        else match freeStore (s.station (clusterOf (tcore t))) with
          | some i => some (s.swapOut t th w i)
          | none => whenever (w.limited && th.fullSince != some w.since)
              ((s.modThread t (fun x => { x with fullSince := some w.since })).countStation (clusterOf (tcore t)) cSTOREFULL 1)
      | none => none)
    | none => none)
/-- Whether a core-held wait or a timer of a stored task is over (14 R342). -/
def storedOver (s : State) (e : StoreEntry) : Bool :=
  let t := tnum e.core e.slot
  match e.thread.status with
  | .parked (.sleep target) _ => decide (target.toNat ≤ s.tsAt (2056 + clusterOf e.core))
  | .parked why _ => parkOver s t e.thread why
  | _ => false
def execSwappedWake (cluster entry : Nat) (s : State) :=
  happens (match tfind (s.station cluster).store entry with
    | some e =>
      if (s.station cluster).stopped || e.queued then none
      else if e.woken then whenever ((s.station cluster).room 1) (s.requeue cluster entry)
      else whenever (storedOver s e) ((s.modStation cluster (fun k => { k with
        store := tput k.store entry { e with woken := true } })).requeue cluster entry)
    | none => none)

/-! ### Intake (14 R352, R353) -/

/-- Granules of bytes, all untagged but the first two (14 R353). -/
def recordGranules (bytes : List Byte) : List Val :=
  (List.range 4).map (fun i => ⟨BitVec.ofNat 128 (leNat ((bytes.drop (16 * i)).take 16)), decide (i < 2)⟩)
/-- A rejection counted, its reason kept. -/
def IntakeQueue.reject (q : IntakeQueue) (why : Nat) : IntakeQueue :=
  let n := min (2 ^ 32 - 1) (q.stat.toNat % 2 ^ 32 + 1)
  { q with stat := BitVec.ofNat 64 (why * 2 ^ 32 + n) }
/-- The fields of INQCFG. -/
def IntakeQueue.cluster (q : IntakeQueue) : Nat := (q.cfg.extractLsb' 4 6).toNat
def IntakeQueue.domain (q : IntakeQueue) : BitVec 16 := q.cfg.extractLsb' 16 16
/-- Whether ENTRY and PARAM lie within the root capability and grant nothing more. -/
def withinRoot (x : Tcb) (root : Quad) : Bool :=
  within x.entry.bits root && within x.param.bits root && !capForged x.entry.bits && !capForged x.param.bits
/-- The reason to reject a record, 0 to accept it. -/
def intakeReason (k : Station) (x : Tcb) (ranges : Option (List Quad)) (q : IntakeQueue) : Nat :=
  match ranges with
  | none => 2
  | some rs =>
    if badHeader x rs (q.cfg.getLsbD 2) then 2
    else if noLease x rs [q.root] then 3
    else if !withinRoot x q.root then 2
    else if !k.roomNew 1 then 4 else 0
/-- A write to the aperture of a queue. -/
def State.intake (s : State) (queue link off : Nat) (bytes : List Byte) : State :=
  let q := tget s.dev.intake queue IntakeQueue.reset
  let reject (s : State) (why : Nat) : State := s.modDev (fun d => { d with intake := tput d.intake queue (q.reject why) })
  if !q.cfg.getLsbD 0 then s
  else if bytes.length != 64 || off % 64 != 0 then reject s 1
  else
    let x := tcbOf (recordGranules bytes)
    let cl := q.cluster
    let c := coreAt cl 0
    let s := (s.requeueAll cl).pullSpan c (capCursor x.param.bits) (16 * min 64 x.nrange.toNat)
    let rs := readRanges s c Owner.nobody (q.cfg.getLsbD 2) x
    match intakeReason (s.station cl) x rs q with
    | 0 => s.putStation cl ((s.station cl).enterMany cl x (rs.getD []) q.domain link (some queue) 1 0)
    | why => reject s why
/-- A record comes after every earlier window write of its link (18 R416). -/
def execIntakeRecord (queue link off : Nat) (bytes : List Byte) (s : State) :=
  happens (whenever (decide (queue < 64) && decide (link < 2) && decide (off < 4096) && !windowWaits s (.link link))
    (s.intake queue link off bytes))

/-! ### Staging (14 R336) -/

/-- Entries of a station changed where they hold a task. -/
def Station.modEntry (k : Station) (task : Word) (f : ReadyEntry → ReadyEntry) : Station :=
  let g (e : ReadyEntry) : ReadyEntry := if e.taskid == task then f e else e
  { k with heap := k.heap.map g, overflow := k.overflow.map g }
/-- Whether every page of the ranges is mapped. -/
def resident (s : State) (ranges : List Quad) : Bool := (ranges.map pagesOf).flatten.all (fun p => (leafOf s p).isSome)
def execStagingDone (cluster : Nat) (task : Word) (s : State) :=
  let k := s.station cluster
  happens (match (k.heap ++ k.overflow).find? (fun e => e.taskid == task && e.state == .staging) with
    | some e =>
      let st : EntryState := if noSlotFor s cluster e then .noFit else .eligible
      let pages := (e.ranges.map pagesOf).flatten
      let s := s.walkPages pages
      whenever (!k.stopped && resident s e.ranges && !forcing s (tnum noCore 0) pages)
        ((s.pinRanges true e.ranges).putStation cluster (k.modEntry task (fun x => { x with state := st })))
    | none => none)

/-! ### Slots (14 R337, R338, R346, R348) -/

/-- Whether a partition slot of a core stands free. -/
def slotFree (s : State) (c slot : Nat) : Bool :=
  let k := s.core c
  decide (c < Config.cores) && decide (slot < slotCount k.partn) && (s.thread (tnum c slot)).isNone && k.repart.isNone
    && !k.stopped
/-- A travelling task resumed in a slot; clean lines that may be older than its own writes go (14 R348, 13 R310). -/
def State.arriveTravel (s : State) (c slot : Nat) (p : Packed) : State :=
  let s := s.modCore c (fun k => { k with arrivals := k.arrivals.drop 1 })
  (s.setThread (tnum c slot) { p.thread with count := 16, status := .ready }).acquireInv c (fun _ => true)
/-- A member of a crew as it starts (14 R346). -/
def crewMember (s : State) (w : CrewState) (lead : Thread) (count : Nat) (id : Word) : Thread :=
  let index := w.size - w.reserved
  { Thread.blank with
    count := count
    regs := [(0, ⟨⟨w.entry.bits, true⟩, true⟩), (1, ⟨(lead.reg 1).v, true⟩),
      (2, ⟨Val.ofWord (BitVec.ofNat 64 index), true⟩), (3, ⟨(lead.reg 3).v, true⟩)]
    pcc := ⟨w.entry.bits, true⟩
    crew := true
    prng := ⟨id.setWidth 32, id.extractLsb' 32 32, BitVec.ofNat 32 index, 0x9E3779B9⟩
    turns := lead.turns
    deadline := lead.deadline
    taskid := id
    trapcap := trapcapOf s lead.domain
    domain := lead.domain
    record := lead.record
    edits := lead.edits
    moves := lead.moves
    ranges := lead.ranges
    tcb := { lead.tcb with group := 0, lanes := 0, flags := 0 }
    link := lead.link }
/-- A member started in a free slot; the last one completes the leader's CREW (14 R362). -/
def State.startMember (s : State) (c slot : Nat) (w : CrewState) : State :=
  let t0 := w.members.headD 0
  let lead := (s.thread t0).getD w.template
  let cl := clusterOf c
  let id := taskIdOf cl (s.station cl).nextTask
  let th := crewMember s w lead (slotSize (s.core c).partn) id
  let s := s.modStation cl (fun k => { k with nextTask := k.nextTask + 1 })
  let left := w.reserved - 1
  let s := s.modCore c (fun k => { k with crew := some { w with
    members := w.members ++ [tnum c slot], reserved := left, waiting := if left = 0 then none else w.waiting } })
  let s := ((s.setThread (tnum c slot) th).pinRanges true lead.ranges).acquireInv c (fun _ => true)
  match w.waiting.bind lead.op with
  | some o =>
    if left = 0 then (s.modThread t0 (fun x => { x with crew := true })).completeOut t0 o [Val.zero]
    else s.setPhase t0 o.id (.sent left)
  | none => s
/-- The first entry of the ready set that the core fits. -/
def firstFit (s : State) (c : Nat) : Option ReadyEntry :=
  let k := s.station (clusterOf c)
  if k.stopped then none
  else k.heap.find? (fun e => e.state != .staging && coreFits s c e (entryNeed k e))
/-- An entry taken from the heap and started or resumed. -/
def State.startEntry (s : State) (c slot : Nat) (e : ReadyEntry) : State :=
  let cl := clusterOf c
  let k := s.station cl
  let s := (s.putStation cl ({ k with heap := k.heap.filter (fun x => x.seq != e.seq) }).refill).requeueAll cl
  match e.store with
  | some i => s.resumeStored cl i c slot
  | none => s.startTask c slot e
/-- The crew reservation of a core. -/
def crewClaim (k : Core) : Option CrewState :=
  match k.crew with | some w => if 0 < w.reserved then some w else none | none => none
/-- A free slot offered: the arrival queue's head, a crew reservation, the ready set. -/
def State.offer (s : State) (c slot : Nat) : Option State :=
  match (s.core c).arrivals, crewClaim (s.core c), firstFit s c with
  | p :: _, _, _ => some (s.arriveTravel c slot p)
  | [], some w, _ => some (s.startMember c slot w)
  | [], none, some e => some (s.startEntry c slot e)
  | [], none, none => none
def execSlotOffer (core slot : Nat) (s : State) := happens (if slotFree s core slot then s.offer core slot else none)
def execCrewMemberStart (core slot : Nat) (s : State) :=
  happens (match crewClaim (s.core core) with
    | some w => whenever (slotFree s core slot && (s.core core).arrivals.isEmpty) (s.startMember core slot w)
    | none => none)
/-- A travel context ejected at its core, or left to go round. -/
def execTravelArrival (m : Nat) (s : State) :=
  happens (match s.msg m with
    | some x => (match x.payload, x.ride, x.dst with
      | .travel p, .arrived, .core c =>
        if (s.core c).arrivals.length < Config.arrivalSize then
          some ((s.dropMsg m).modCore c (fun k => { k with arrivals := k.arrivals ++ [p] }))
        else some { s with msgs := s.msgs.map (fun y => if y.id == m then { y with ride := .onLoop 0 } else y) }
      | _, _, _ => none)
    | none => none)

/-! ### Donation (14 R351) -/

/-- The victims of a cluster, in order: north, east, south, west. -/
def victim (cl i : Nat) : Option Nat :=
  let x := cl % 8
  let y := cl / 8
  match i with
  | 0 => if y = 0 then none else some (cl - 8)
  | 1 => if x = 7 then none else some (cl + 1)
  | 2 => if y = 7 then none else some (cl + 8)
  | 3 => if x = 0 then none else some (cl - 1)
  | _ => none
/-- The next victim from a place in the order on. -/
def nextVictim (cl i : Nat) : Option (Nat × Nat) :=
  ((List.range 4).filter (fun j => i ≤ j)).findSome? (fun j => (victim cl j).map (fun v => (j, v)))
/-- Whether more than half the partition slots of a cluster are free. -/
def idleCluster (s : State) (cl : Nat) : Bool :=
  let cs := (List.range 16).map (coreAt cl)
  decide ((cs.map (fun c => slotCount (s.core c).partn)).sum < 2 * (cs.map (freeSlots s)).sum)
/-- Whether some free slot of a cluster could start an entry now. -/
def startable (s : State) (cl : Nat) (e : ReadyEntry) : Bool :=
  e.state != .staging && (List.range 16).any (fun j =>
    let c := coreAt cl j
    decide (0 < freeSlots s c) && coreFits s c e (entryNeed (s.station cl) e))
/-- What a victim gives: up to 8 entries that never started and that no free slot of its cluster can start. -/
def donated (s : State) (cl : Nat) : List ReadyEntry :=
  let k := s.station cl
  if k.stopped then []
  else ((k.overflow.foldl (fun l e => insertEntry e l) k.heap).filter (fun e => e.store.isNone && !startable s cl e)).take 8
/-- A steal request answered by its victim: the entries leave its ready set in the reply. -/
def State.steal (s : State) (thief j v : Nat) : State :=
  let es := donated s v
  let gone (e : ReadyEntry) : Bool := es.any (fun x => x.seq == e.seq)
  let k := s.station v
  let s := if es.isEmpty then s else s.putStation v ({ k with
    heap := k.heap.filter (fun e => !gone e), overflow := k.overflow.filter (fun e => !gone e) }).refill |>.requeueAll v
  (s.modStation thief (fun k => { k with steal := some (8 + j) })).send (.station v) (.station thief) Owner.nobody (.stealReply es)
/-- `steal` of a station: none, the next victim's place, or 8 more than the place of the victim asked. -/
def execStealRequest (cluster : Nat) (s : State) :=
  let k := s.station cluster
  let i := match k.steal with | none => some 0 | some i => if i < 8 then some i else none
  happens (match i.bind (nextVictim cluster) with
    | some (j, v) => whenever (decide (cluster < 64) && !k.stopped && (k.steal.isSome || idleCluster s cluster)) (s.steal cluster j v)
    | none => none)
/-- The entries of a reply entered with new arrival sequences; the next victim follows. DESIGN CHOICE (log 92): a reply waits until
the thief has room for all of them, of which 14 R351 says nothing. -/
def State.stolen (s : State) (cl : Nat) (es : List ReadyEntry) : State :=
  let k := es.foldl (fun k e => Station.enter k e) (s.station cl)
  let next := match k.steal with | some i => (nextVictim cl (i - 8 + 1)).map Prod.fst | none => none
  (s.putStation cl { k with steal := next }).countStation cl cDONATED es.length
def execStealReply (m : Nat) (s : State) :=
  happens (match s.msg m with
    | some x => (match x.payload, x.ride, x.dst with
      | .stealReply es, .arrived, .station cl =>
        let s1 := s.requeueAll cl
        whenever (es.isEmpty || (s1.station cl).roomNew es.length) ((s1.dropMsg m).stolen cl es)
      | _, _, _ => none)
    | none => none)

end Sys2Proof.Machine
end

