-- ==== Sys2Proof/Machine/EventsUnit.lean ====
section
/-!
DEFINITION. Events of engines, tiles, drains, repartition, way conversion, mark domains, links and loops (05 R109, R110,
09 R208, R221 to R228, 10 R247, 11 R271 to R276, 12 R285, R288, R300, R301, 16 R401).
-/

namespace Sys2Proof.Machine

/-! ### Engines and the matrix unit -/

/-- The next operation of an engine queue that may start: fewer than four run (11 R271). -/
def nextEngine (k : Core) : Option EngOp :=
  if (k.engine.filter EngOp.running).length < Config.engineRunning then k.engine.find? (fun e => !e.running) else none
def execEngineStart (core : Nat) (s : State) :=
  happens (if (s.core core).stopped then none
    else match (s.core core).engine.findSome? (s.nextCommand core) with
    | some s1 => some s1
    | none => (nextEngine (s.core core)).map (s.startEngine core))
def execEngineCompletion (core id : Nat) (s : State) :=
  happens (match (s.core core).engOp (BitVec.ofNat 16 id) with
    | some e => whenever (e.ended && !(s.core core).stopped) (s.endEngine core e)
    | none => none)
/-- The operation that holds the matrix unit, once it has started. -/
def runningMatrix (s : State) (core : Nat) : Option (Nat × Thread × Op × MatrixJob) :=
  match (s.core core).matrix with
  | some (t, op) => (match s.opOf t op with
    | some (th, o) => (match o.phase, o.act with
      | .sent 1, .matrix m => some (t, th, o, m)
      | _, _ => none)
    | none => none)
  | none => none
/-- The matrix unit takes the next block of its operation, and commits its results after the last (09 R208 to R210). One that a gang
stop met runs to its end before the near slice is written back (15 R380). -/
def execMatrixCompletion (core : Nat) (s : State) :=
  happens ((runningMatrix s core).map (fun x =>
    let s := s.stepMatrix x.1 x.2.1 x.2.2.1 x.2.2.2
    if (s.core core).stopped && (s.core core).matrix.isNone then s.writeBackAll core else s))
def execMacldRowArrival (t op : Nat) (s : State) :=
  happens (match s.opOf t op with
    | some (_, o) => (match o.phase, o.act with
      | .sent left, .rows tile bf16 pass shape _ => whenever (!(s.core (tcore t)).stopped) (s.rowArrives t o left tile bf16 pass shape)
      | _, _ => none)
    | none => none)

/-! ### Row handlers (05 R119, 09 R225 to R227) -/

/-- The drain whose next row is handed over: the first in issue order that still has rows, once it is accepted (09 R224). -/
def nextDrain (k : Core) : Option Drain :=
  (k.drains.find? (fun d => d.failed.isNone && decide (d.next < d.rows))).filter Drain.armed
/-- The registers of a handler: the row as an FP32 group k0:8, the row index, the operation id, HPARAM. -/
def handlerRegs (k : Core) (d : Drain) : Table Reg :=
  let tl := k.tile d.tile
  let row (i : Nat) : Quad := BitVec.ofNat 128
    ((List.range 4).foldr (fun j acc => (tget tl.elems (32 * d.next + 4 * i + j) 0).toNat + 2 ^ 32 * acc) 0)
  (List.range 8).map (fun i => (i, ⟨Val.data (row i), true⟩))
  ++ [(8, ⟨Val.ofWord (BitVec.ofNat 64 d.next), true⟩), (9, ⟨Val.ofWord (d.id.setWidth 64), true⟩), (10, ⟨k.hparam, true⟩)]
/-- A handler as it starts. TRAPCAP, GROUP and BANKMASK are zero (DESIGN CHOICE, log 43). Where no MMA or SMMA has written the tile
its FPSNAP gives DRM 0, a code with no mode of its own: `chooseMag` then rounds toward high (DESIGN CHOICE, log 43). -/
def handlerThread (s : State) (c slot : Nat) (d : Drain) : Thread :=
  let k := s.core c
  let fp := (k.tile d.tile).fpsnap
  { Thread.blank with
    count := 16
    regs := handlerRegs k d
    pcc := ⟨capWithKind k.hentry.bits 0, true⟩
    mode := .handler
    drm := fp.extractLsb' 6 3
    flags := Flags.ofBits (fp.extractLsb' 0 5)
    prng := ⟨d.taskid.setWidth 32, d.taskid.extractLsb' 32 32, 0, 0x9E3779B9⟩
    turns := 0
    deadline := d.deadline
    taskid := d.taskid
    domain := d.domain
    record := d.record.extractLsb' 0 16
    edits := d.record.extractLsb' 16 8
    moves := d.record.extractLsb' 24 8
    ranges := d.ranges
    dispatch := some ⟨d.tile, d.next, s.cycle, tget k.dispatches slot 0⟩ }
/-- A drain changed. -/
def State.modDrain (s : State) (c tile : Nat) (f : Drain → Drain) : State :=
  s.modCore c (fun k => { k with drains := k.drains.map (fun (d : Drain) => if d.tile == tile then f d else d) })
/-- A row dispatched, or the drain ended with TAG or PERM. -/
def State.dispatchRow (s : State) (c slot : Nat) (d : Drain) : State :=
  let k := s.core c
  let bad : Option Code := if !k.hentry.tag then some .tag else if k.hdomain != (k.tile d.tile).domain then some .perm else none
  match bad with
  | some f => (s.modDrain c d.tile (fun x => { x with failed := some f })).settleDrains c
  | none =>
    let th := handlerThread s c slot (d.present s)
    let s := (s.modDrain c d.tile (fun x => { x with next := x.next + 1 })).setThread (tnum c slot) th
    (s.modCore c (fun k => { k with dispatches := tmod k.dispatches slot 0 (· + 1) })).acquireInv c (fun _ => true)
def execRowHandlerDispatch (core slot : Nat) (s : State) :=
  happens (match nextDrain (s.core core) with
    | some d => whenever ((slot == 64 || slot == 65) && (s.thread (tnum core slot)).isNone && !(s.core core).stopped)
        (s.dispatchRow core slot d)
    | none => none)
/-- A handler past its limit: what it waits for is given up, and its trap ends its drain. -/
def State.overrun (s : State) (t : Nat) (th : Thread) : State :=
  let waits (o : Op) : Bool := match o.phase with | .waiting => true | .resend => true | _ => false
  let s := (s.setThread t { th with ops := th.ops.filter (fun o => !waits o) }).dropWaits (.slot t)
  let pc : Word := BitVec.ofNat 64 th.pc
  s.startTrap t (some .handlerOverrun) 0 [] pc pc false true
def execHandlerOverrun (core slot : Nat) (s : State) :=
  let t := tnum core slot
  happens (match s.thread t with
    | some th => (match th.dispatch with
      | some _ => whenever (lateHandler s th && !isTrapping th && !(s.core core).stopped) (s.overrun t th)
      | none => none)
    | none => none)

/-! ### REPART (05 R109) -/

/-- The issuer of a repartition and its operation. -/
def repartIssuer (s : State) (core : Nat) : Option (Nat × Thread × Op) :=
  match s.threads.find? (fun x => tcore x.1 == core && decide (tslot x.1 < 64)) with
  | some (t, th) => (match th.status with
    | .out op _ => (match th.op op with
      | some o => if o.act == .nothing && o.phase == .sent 1 then some (t, th, o) else none
      | none => none)
    | _ => none)
  | none => none
/-- Registers after a repartition: those below the smaller size stay, the others read zero. -/
def repartRegs (th : Thread) (old new : Nat) : Table Reg := th.regs.filter (fun r => decide (r.1 < min old new))
/-- Entries that fit again become eligible. -/
def State.refit (s : State) (cl : Nat) : State :=
  let k := s.station cl
  let f (e : ReadyEntry) : ReadyEntry := if e.state == .noFit && !noSlotFor s cl e then { e with state := .eligible } else e
  s.putStation cl { k with heap := k.heap.map f, overflow := k.overflow.map f }
/-- The repartition done: the issuer stands in slot 0 with d written. -/
def State.repartDone (s : State) (core t : Nat) (th : Thread) (o : Op) (p : Nat) : State :=
  let code : BitVec 2 := BitVec.ofNat 2 p
  let old := slotSize (s.core core).partn
  let new := slotSize code
  let th2 := { th with count := if th.mode == .travel then 16 else new, regs := repartRegs th old new }
  let keepD (d : Opn) : Bool := decide (256 ≤ d.toNat) || decide (d.toNat < new)
  let slot := tslot t
  let s := s.modCore core (fun k => { k with
    partn := code
    repart := none
    plb := k.plb.map (fun e => if e.slot == slot then { e with slot := 0 } else e) })
  let s := (s.dropThread t).setThread (tnum core 0) th2
  let s := s.completeOut (tnum core 0) { o with dests := o.dests.filter keepD } [Val.ofWord (BitVec.ofNat 64 new)]
  s.refit (clusterOf core)
/-- REPART goes on once every register of its issuer is present; a refused instruction found before traps in its place (05 R109;
log 53). -/
def execRepartComplete (core : Nat) (s : State) :=
  happens (match (s.core core).repart, repartIssuer s core with
    | some p, some (t, th, o) =>
      let rest := th.ops.filter (fun x => x.id != o.id)
      let endsHere (s : State) : State := s.modCore core (fun k => { k with repart := none })
      if (oldestRefused rest).isSome then whenever (rest.all Op.isSettled) ((endsHere s).trapInstead t o)
      else if th.regs.any (fun x => decide (x.1 < th.count) && !x.2.present) then none
      else if p == (s.core core).partn.toNat then some ((endsHere s).completeOut t o [Val.zero])
      else whenever rest.isEmpty (s.repartDone core t th o p)
    | _, _ => none)

/-! ### WAYCONV (10 R247) -/

/-- Lines of a home cache that a raise of the converted ways leaves: those of the remaining ways, at most two a way and set. -/
def trimCache (cache : List CacheLine) (rows : Nat) : List CacheLine :=
  let kept := cache.filter (fun x => decide (x.row < rows))
  let after (i : Nat) (x : CacheLine) : Nat := ((kept.drop (i + 1)).filter (fun y => lineSet y.line == lineSet x.line)).length
  ((List.range kept.length).zip kept).filterMap (fun x => if after x.1 x.2 < 2 * rows then some x.2 else none)
/-- A conversion finished: the ways are the home's chip scratchpad or its cache again, and the completion word is filled. -/
def State.converted (s : State) (h : Nat) (v : Conversion) : State :=
  let k := s.home h
  let s := if k.ways < v.target then s.zeroRange (chipLoc h (32768 * k.ways)) (32768 * (v.target - k.ways)) else s
  let s := s.modHome h (fun k => { k with ways := v.target, conv := none, cache := trimCache k.cache (16 - v.target) })
  s.fillWays h v
def execWayconvCompletion (home : Nat) (s : State) :=
  happens ((s.home home).conv.map (fun v => s.converted home v))

/-! ### Mark domains (12 R285, R288, R300, R301) -/

def execTimedTick (home dom : Nat) (s : State) :=
  let d := s.mark dom
  let n := timedTick d (s.tsAt home)
  happens (whenever (d.bound && !d.stepped && decide (home < Config.cores) && decide (tget (s.home home).ticks dom 0 < n))
    (s.modHome home (fun k => { k with ticks := tput k.ticks dom n })))
/-- Ticks after which a cell must have been updated (12 R288). -/
def sweepTicks : Nat := 2 ^ 22
/-- Cells of a home that tick n would leave 2^22 ticks past their last update. -/
def staleCells (s : State) (h : Nat) (d : MarkDomain) (n : Nat) : List Nat :=
  (cellsAt s h d).filter (fun c => decide (sweepTicks ≤ (n % 2 ^ 24 + 2 ^ 24 - cellStamp s d c) % 2 ^ 24))
/-- The sweep of a cell of a timed domain that time from tick n0 to tick n1 would leave 2^22 ticks past its last update: the
cooling owed composes (12 R287, R288). -/
def State.sweepCell (s : State) (dom c n0 n1 : Nat) : State :=
  let d := s.mark dom
  let va := cellVa d c
  match storage s noCore va with
  | none => s
  | some loc =>
    let stamp := cellStamp s d c
    if (n0 % 2 ^ 24 + 2 ^ 24 - stamp) % 2 ^ 24 + (n1 - n0) < sweepTicks then s
    else
      let s := (if lineStalled s (holder loc) (loc / 128) then s else s.needLine loc true).flushBuffer (holder loc) (loc / 32)
      s.putCell va loc (cellWord n1 (coolSteps d.keepN (n1 - n0) (coolWord d.keepN n0 (s.load loc 8))))
/-- The sweep that no timed cell's home lets fall behind (12 R288), as the cycle moves on from that of an earlier state. -/
def State.sweepTimed (s old : State) : State :=
  s.dev.marks.foldl (fun s x =>
    if !x.2.bound || x.2.stepped then s
    else (List.range x.2.cells).foldl (fun s c =>
      let h := cellHome s x.2 c
      if bindPending s h x.1 true then s
      else s.sweepCell x.1 c (timedTick x.2 (old.tsAt h)) (timedTick x.2 (s.tsAt h))) s) s
/-- Time passes: one more step, and a free number of cycles (log 1, 2). -/
def State.tickTime (s : State) : State :=
  ({ s with steps := s.steps + 1, cycle := s.cycle + Config.elapse s.steps }).sweepTimed s
/-- A tick message applied at a home and acknowledged: one of an earlier binding, or of none, changes nothing, and one that comes
before the home has rewritten its cells changes the tick number alone (12 R285, R300, R301). -/
def State.applyTick (s : State) (h dom gen n t op : Nat) : State :=
  let d := s.mark dom
  let s := if (d.bound || bindPending s h dom false) && d.gen == gen then
      (if markLive s h dom then (s.updateCells h dom (staleCells s h d n)).1 else s).modHome h
        (fun k => { k with ticks := tput k.ticks dom n })
    else s
  s.takeReply t op (.answer [Val.ofWord (BitVec.ofNat 64 n)])
def execTickMessage (m : Nat) (s : State) :=
  happens (match s.ready m with
    | some (x, h) => (match x.payload with
      | .tick dom gen n t op => whenever ((s.ticksUpTo x).all (fun y => y.id == m)) ((s.dropMsg m).applyTick h dom gen n t op)
      | _ => none)
    | none => none)
/-- Whether a home still has work of a domain's binding or unbinding. -/
def workOf (k : Home) (dom : Nat) (bind : Bool) : Option BindWork := k.work.find? (fun w => w.dom == dom && w.bind == bind)
def execCoolingSweep (home dom cell : Nat) (s : State) :=
  let d := s.mark dom
  happens (whenever (d.bound && markLive s home dom && decide (cell < d.cells) && cellHome s d cell == home)
    (s.updateCell home dom cell id).1)
/-- A cell rewritten at a binding: its VALUE stands, its STAMP is the home's tick. -/
def State.rewriteCell (s : State) (h dom c : Nat) : State :=
  let va := cellVa (s.mark dom) c
  match storage s noCore va with
  | some loc =>
    let s := (s.homeRead loc).needLine loc true
    s.putCell va loc (cellWord (homeTick s h dom) (s.load loc 8))
  | none => s
/-- A piece of work taken from a home. -/
def State.endWork (s : State) (h : Nat) (w : BindWork) : State := s.modHome h (fun k => { k with work := k.work.filter (· != w) })
/-- Whether an access of the binding or unbinding thread that issued before is still to be performed at a home: the
operations of one thread at one home keep issue order (01 R18, 12 R293). -/
def ownEarlier (s : State) (h : Nat) (w : BindWork) : Bool :=
  match s.thread w.t with
  | some th => s.msgs.any (fun m => decide (m.id < w.op) && m.owner == th.owner w.t && m.at == h)
  | none => false
def execMbindRewrite (home dom : Nat) (s : State) :=
  happens (match workOf (s.home home) dom true with
    | some w => whenever (!ownEarlier s home w)
        (let s := (cellsAt s home (s.mark dom)).foldl (fun s c => s.rewriteCell home dom c) s
         (s.endWork home w).takeReply w.t w.op (.answer [Val.zero]))
    | none => none)
/-- Whether a mark operation of a domain, an MTICK and a tick message among them, has reached a home and is not yet performed. -/
def markArrived (s : State) (h dom : Nat) : Bool :=
  s.msgs.any (fun m => m.ride == .arrived && m.at == h && (match m.payload with
    | .tick d _ _ _ _ => d == dom && (s.ticksUpTo m).all (fun y => y.ride == .arrived)
    | .access t op => (match s.opOf t op with
      | some (_, o) => (match o.act with
        | .mdep d _ _ => d == dom | .merase d _ => d == dom | .mread d _ => d == dom | .msense d _ _ => d == dom
        | .msamp d _ _ _ => d == dom | .mtick d => d == dom | _ => false)
      | none => false)
    | _ => false))
def execMunbindHome (home dom : Nat) (s : State) :=
  happens (match workOf (s.home home) dom false with
    | some w => whenever (!bindPending s home dom true && !markArrived s home dom && !ownEarlier s home w)
        (let s := (s.updateCells home dom (cellsAt s home (s.mark dom))).1
         (s.endWork home w).takeReply w.t w.op (.answer [Val.zero]))
    | none => none)

/-! ### Links and loops (05 R110, 16 R401) -/

/-- A pushed value reaches the neighbour's inbox. -/
def execLinkDelivery (core : Nat) (side : Side) (s : State) :=
  happens (match (s.core core).flying side, neighbour core side with
    | v :: rest, some n =>
      let inbox := (s.core n).inbox (Side.opposite side)
      whenever (decide (inbox.length < Config.inboxSize))
        ((s.modCore core (fun k => k.setFlying side rest)).modCore n (fun k => k.setInbox (Side.opposite side) (inbox ++ [v])))
    | _, _ => none)
/-- Distance of two stops of a local loop, the station standing at 16 (01 R23). Of the two local loops a message takes the one on
which its way is shorter (DESIGN CHOICE, log 84). -/
def ringHops (a b : Nat) : Nat := min ((b + 17 - a) % 17) ((a + 17 - b) % 17)
/-- Cluster and stop of a place. -/
def Place.cluster : Place → Nat | .core c => clusterOf c | .station x => x
def Place.stop : Place → Nat | .core c => inCluster c | .station _ => 16
/-- One loop of a message's way: its number, local loops standing after the 88 global ones, the stop at which the message leaves it,
and the hops there. -/
structure Leg where
  loop : Nat
  stop : Nat
  hops : Nat
  deriving DecidableEq, Repr
/-- The way of message `id` over a cluster's local loops: two run up and two run down (01 R23). Of the two of one direction it takes
the one that its number names (DESIGN CHOICE, log 84). -/
def localLeg (id cl a b : Nat) : Leg :=
  let up : Bool := decide ((b + 17 - a) % 17 ≤ (a + 17 - b) % 17)
  ⟨88 + 4 * cl + 2 * (if up then 0 else 1) + id % 2, b, ringHops a b⟩
/-- The loops of a message from place a to place b: one local loop in a cluster; else a local loop to the station, the global loop of
the route, and a local loop from the other station (01 R25, 16 R400). -/
def legsOf (id : Nat) (a b : Place) : List Leg :=
  if a.cluster = b.cluster then [localLeg id a.cluster a.stop b.stop]
  else
    let r := route a.cluster b.cluster
    (if a.stop = 16 then [] else [localLeg id a.cluster a.stop 16]) ++ [⟨r.1, b.cluster, r.2⟩]
      ++ (if b.stop = 16 then [] else [localLeg id b.cluster 16 b.stop])
def Msg.legs (m : Msg) : List Leg := legsOf m.id m.src m.dst
/-- The loop that a message rides or waits for. -/
def Msg.loop (m : Msg) : Leg := m.legs.getD m.leg ⟨0, 0, 0⟩
/-- Whether it is the last one of its way. -/
def Msg.lastLeg (m : Msg) : Bool := decide (m.legs.length ≤ m.leg + 1)
/-- The ejection buffer that holds a message: that of the loop and the stop at which it left its last loop. -/
def Msg.buffer (m : Msg) : Option (Nat × Nat) :=
  let at_ (i : Nat) : Option (Nat × Nat) := (m.legs[i]?).map (fun l => (l.loop, l.stop))
  match m.ride with
  | .waiting .. => if m.leg = 0 then none else at_ (m.leg - 1)
  | .onLoop _ => none
  | .arrived => if m.src == m.dst then none else at_ (m.legs.length - 1)
/-- Loop slots of a message, of 512 bits each (01 R22): a stolen entry is its 64-byte TCB and its TASKID. -/
def Msg.slots (m : Msg) : Nat :=
  match m.payload with
  | .travel _ => 6
  | .stealReply es => max 1 ((72 * es.length + 63) / 64)
  | _ => 1
/-- Slots of the ejection buffer that a stop has for each loop it stops on (16 R401). -/
def ejectSlots : Nat := 16
/-- Whether a message may leave its loop: room in the ejection buffer, and at its destination its owner's earlier messages first
(01 R18). -/
def mayEject (s : State) (m : Msg) : Bool :=
  let held := s.msgs.filter (fun x => x.buffer == some (m.loop.loop, m.loop.stop))
  decide ((held.map Msg.slots).sum + m.slots ≤ ejectSlots)
  && (!m.lastLeg || !s.msgs.any (fun x => x.before m && x.ride != .arrived))
/-- Whether a message waits at a reserved run of slots (16 R401). -/
def Msg.hasRun (m : Msg) : Bool := match m.ride with | .waiting _ r => r | _ => false
/-- Whether a message may be inserted: a run of empty slots of its length passes, which no other message has reserved. How many slots
a loop has is free, 16 at least (log 54). -/
def mayInsert (s : State) (m : Msg) : Bool :=
  let rides (x : Msg) : Bool := (match x.ride with | .onLoop _ => true | _ => false) && x.loop.loop == m.loop.loop
  decide (((s.msgs.filter rides).map Msg.slots).sum + m.slots ≤ Config.loopSlots m.loop.loop + 16)
  && (m.hasRun || !s.msgs.any (fun x => x.hasRun && x.loop.loop == m.loop.loop))
/-- A message's ride changed. -/
def State.setRide (s : State) (m : Nat) (f : Msg → Msg) : State :=
  { s with msgs := s.msgs.map (fun x => if x.id == m then f x else x) }
/-- A message that leaves its loop: it arrives behind those that have arrived before it. -/
def State.eject (s : State) (x : Msg) : State :=
  let y : Msg := { x with ride := .arrived, reached := s.arrival x.dst x.owner }
  { s with msgs := s.msgs.filter (fun m => m.id != x.id) ++ [y] }
/-- The transit of a message that a core ejects, sampled (17 R408). -/
def State.sampleTransit (s : State) (m : Msg) : State :=
  match m.dst with | .core c => s.sampleCore c 3 (s.cycle - m.entered) | .station _ => s
/-! ### What belongs to a partition (15 R380, 16 R402) -/

/-- Cores of a rectangle. -/
def rectCores (r : Nat) : List Nat := ((rectClusters r).map (fun cl => (List.range 16).map (coreAt cl))).flatten
/-- Whether a core lies in a rectangle. -/
def inCores (r c : Nat) : Bool := inRect r (clusterOf c)
/-- The rectangle of a GANG. -/
def Gang.area (g : Gang) : Nat := g.rect.toNat % 4096
/-- The key of a partition's fall-out store: what is caught for one save stays apart from another (log 22). -/
def falloutKey (part : Nat) (ts : Word) : Nat := part + 16 * ts.toNat
/-- Whether a message still concerns a thread, an engine or a station of a rectangle; a travel context concerns the partition that
it bears (14 R349). -/
def Msg.concerns (m : Msg) (part r : Nat) : Bool :=
  match m.payload with
  | .access t _ => inCores r (tcore t)
  | .write t _ _ _ _ _ => inCores r (tcore t)
  | .register t _ _ _ => inCores r (tcore t)
  | .probe t _ => inCores r (tcore t)
  | .echo t _ => inCores r (tcore t)
  | .engRead c _ _ => inCores r c
  | .engWrite c _ _ _ => inCores r c
  | .wback c _ _ _ _ _ _ _ => inCores r c
  | .wake (.slot t) _ _ _ => inCores r (tcore t)
  | .wake (.entry cl _) _ _ _ => inRect r cl
  | .tick _ _ _ t _ => inCores r (tcore t)
  | .travel p => p.part == part
  | .stealReply _ => (match m.dst with | .core c => inCores r c | .station x => inRect r x)
  | .pull .. => false
  | .pullReply .. => false
  | .window .. => false
/-- Whether a message of a stopped partition is taken off the loops: those its threads, engines and stations sent, and
what is addressed to them; what homes send one another goes on (log 23). -/
def Msg.taken (m : Msg) (part r : Nat) : Bool :=
  m.concerns part r && (match m.payload with | .tick .. => false | .wback _ _ _ _ _ _ _ none => false | _ => true)
/-- Whether an earlier message of the same owner has been taken: what follows it is taken as well (01 R18). -/
def followsTaken (s : State) (m : Msg) (key : Nat) : Bool := (tget s.fallout key []).any (fun x => x.before m)
/-- The operation a wake serves. -/
def Msg.wakes (m : Msg) : Option Nat := match m.payload with | .wake _ op _ _ => some op | _ => none
/-- The fall-out store that takes a message: that of a stopped partition, at the first station on its way, or with what its owner sent
before it; or that of the saved partition whose wait record it serves (15 R380). -/
def captureKey (s : State) (x : Msg) : Option Nat :=
  let follows (g : Gang) : Bool := followsTaken s x (falloutKey g.part g.ts)
  let station : Bool := x.src.cluster != x.dst.cluster || (match x.dst with | .station _ => true | .core _ => false)
  match x.wakes.bind (savedFor s), s.gangs.find? (fun g => g.stopped && (x.taken g.part g.area || follows g)) with
  | some v, _ => some (falloutKey v.part v.ts)
  | none, some g => if (x.ride != .arrived && station) || follows g then some (falloutKey g.part g.ts) else none
  | none, none => none

/-! ### On and off the loops (01 R25, 16 R401) -/

/-- Insertion of a waiting message, or the ejection of one that rides: at its destination it has arrived, at a station it waits for
the next loop of its way (01 R25). One that cannot leave goes round (16 R401). -/
def execLoopInsertion (m : Nat) (s : State) :=
  happens (match s.msg m with
    -- a message that a fall-out store takes goes no further (15 R380)
    | some x => if (captureKey s x).isSome then none else (match x.ride with
      | .waiting _ _ => whenever (mayInsert s x) (s.setRide m (fun y =>
          { y with ride := .onLoop x.loop.hops, entered := if x.leg = 0 then s.cycle else x.entered }))
      | .onLoop _ =>
        if !mayEject s x then some s
        else if x.lastLeg then some ((s.eject x).sampleTransit x)
        else some (s.setRide m (fun y => { y with ride := .waiting s.cycle false, leg := x.leg + 1 }))
      | .arrived => none)
    | none => none)
/-- A stop that has waited 64 cycles reserves the next run of empty slots. -/
def execSlotReservation (m : Nat) (s : State) :=
  happens (match s.msg m with
    | some x => (match x.ride with
      | .waiting since false => whenever (decide (since + 64 ≤ s.cycle)) (s.setRide m (fun y => { y with ride := .waiting since true }))
      | _ => none)
    | none => none)

end Sys2Proof.Machine
end

