-- ==== Sys2Proof/Machine/Gang.lean ====
section
/-!
DEFINITION. Gang switch (15 R380 to R383): the stop, the capture of messages, the save area, and loading.
-/

namespace Sys2Proof.Machine

/-! ### The stop (15 R380) -/

def execGangStop (part : Nat) (s : State) :=
  happens (match s.gangs.find? (fun g => g.part == part && !g.stopped) with
    | some g =>
      let cs := rectCores g.area
      let near (s : State) (c : Nat) : State := if (runningMatrix s c).isSome then s else s.writeBackAll c
      let s1 := cs.foldl (fun s c => (near s c).modCore c (fun k => { k with stopped := true })) s
      let s2 := (rectClusters g.area).foldl (fun s cl => s.modStation cl (fun k => { k with stopped := true })) s1
      whenever (cs.all (fun c => decide (g.ts.toNat ≤ s.tsAt c)))
        { s2 with gangs := s2.gangs.map (fun x => if x == g then { x with stopped := true } else x) }
    | none => none)
/-- A message taken into a fall-out store. -/
def State.capture (s : State) (m : Msg) (key : Nat) : State :=
  { s.dropMsg m.id with fallout := tput s.fallout key (tget s.fallout key [] ++ [m]) }
def execFalloutCapture (m : Nat) (s : State) :=
  happens (match s.msg m with
    | some x => (captureKey s x).map (s.capture x)
    | none => none)

/-! ### Save records (15 R381, R349, R378; 09 R194, R195) -/

/-- Two words as a granule, and words in pairs. -/
def pair (a b : Word) : Val := Val.data (b ++ a)
def pairs : List Word → List Val
  | [] => []
  | [a] => [pair a 0]
  | a :: b :: rest => pair a b :: pairs rest
/-- A list of granules cut or filled with zeros to a length. -/
def padded (n : Nat) (l : List Val) : List Val := l.take n ++ List.replicate (n - l.length) Val.zero
/-- An inbox or crew queue entry: data, then domain and a valid bit (log 24). -/
def queueGranules (n : Nat) (l : List QueueEntry) : List Val :=
  padded (2 * n) ((l.map (fun e => [Val.data e.v.bits, pair (e.domain.setWidth 64) (1 + 2 * BitVec.ofNat 64 e.v.tag.toNat)])).flatten)
/-- A packed travel context (14 R349). -/
def packedGranules (p : Packed) : List Val :=
  let th := p.thread
  let st := statusWords 0 th
  let g (i : Nat) : Word := st.getD i 0
  let tags := (List.range 16).foldl (fun n i => if (th.reg i).v.tag then n + 2 ^ i else n) 0
  [Val.data th.pcc.bits, Val.data th.trapcap.bits] ++ (List.range 16).map (fun i => Val.data (th.reg i).v.bits)
  ++ [pair (BitVec.ofNat 64 (tags + 2 ^ 16 * th.pcc.tag.toNat + 2 ^ 17 * th.trapcap.tag.toNat)) (g 0), pair (g 1) (g 2),
    pair (g 3) (g 4), pair (g 5) (g 6), pair (g 7) (g 8), pair (g 9) (BitVec.ofNat 64 (p.part + 2 ^ 16 * p.src))]
/-- An engine operation (log 24): identity and progress, then its captured operands. -/
def engineGranules (e : EngOp) : List Val :=
  let kind : Nat := match e.kind with | .copy => 0 | .arcout => 1 | .arcin => 2 | .arcdrop => 3
  let mode : Nat := match e.mode with | .none => 0 | .write => 1 | .fill => 2
  [pair (BitVec.ofNat 64 (kind + 4 * mode + 2 ^ 16 * e.id.toNat + 2 ^ 32 * e.domain.toNat)) e.taskid,
   pair e.v (BitVec.ofNat 64 e.progress), e.a, e.b, e.c, e.e,
   Val.zero, Val.zero]
/-- A verdict state word (09 R195). -/
def VerdictWord.word (v : VerdictWord) : Word :=
  let st : Nat := match v.vst with | .isOpen => 0 | .isFalse => 1 | .isTrue => 2 | .kept => 3
  BitVec.ofNat 64 (v.amax.toNat * 2 ^ 32 + v.nadd % 2 ^ 16 * 2 ^ 16 + v.nodec.toNat * 16 + st)
/-- A tile state word (09 R194). -/
def Tile.word (x : Tile) : Quad :=
  x.owner ++ x.domain ++ BitVec.ofNat 48 (x.fpsnap.toNat * 2 ^ 9 + x.shape.toNat * 8 + x.drain.toNat * 4 + x.busy.toNat * 2
    + x.free.toNat)
/-- A tile's record of 16 KiB: elements, verdict words, state word. -/
def tileGranules (x : Tile) : List Val :=
  let el (i : Nat) : BitVec 32 := tget x.elems i 0
  padded 1024 ((List.range 256).map (fun i => Val.data (el (4 * i + 3) ++ el (4 * i + 2) ++ el (4 * i + 1) ++ el (4 * i)))
    ++ pairs ((List.range 1024).map (fun i => (tget x.verd i VerdictWord.reset).word)) ++ [Val.data x.word])
/-- Bytes of storage as granules with their tags. -/
def storageGranules (s : State) (loc n : Nat) : List Val :=
  (List.range n).map (fun i => ⟨BitVec.ofNat 128 (s.load (loc + 16 * i) 16), s.tagAt (loc + 16 * i)⟩)
/-- The context of a slot (15 R378): its unfinished instructions stand as PENDING entries. -/
def slotGranules (s : State) (t : Nat) : List Val :=
  match s.thread t with
  | some th => contextGranules s t th ((th.ops.map Op.settled).flatten ++ th.reinject)
  | none => []
/-- Where the pieces of a core record begin. -/
def laneOff : Nat := 0x14000
def spadOff : Nat := 0x20000
def ctxOff (i : Nat) : Nat := 0x50000 + 8192 * i
/-- A core's record: offsets and granules. -/
def coreRecord (s : State) (c : Nat) : List (Nat × List Val) :=
  let k := s.core c
  [(0, pairs [k.partn.setWidth 64, k.fmtr.setWidth 64, k.parklim.setWidth 64, k.linkdisc]
      ++ [k.hentry, k.hparam, Val.ofWord (k.hdomain.setWidth 64)]),
   (0x100, queueGranules 4 k.inN ++ queueGranules 4 k.inE ++ queueGranules 4 k.inS ++ queueGranules 4 k.inW),
   (0x300, (k.arrivals.map packedGranules).flatten),
   (0x1000, ((List.range 8).map (fun q => queueGranules 16 (tget k.queues q []))).flatten),
   (0x2000, (k.engine.map engineGranules).flatten),
   (0x4000, ((List.range 4).map (fun i => tileGranules (tget k.tiles i Tile.reset))).flatten),
   (laneOff, storageGranules s (laneLoc c 0 0 0) 2048),
   (spadOff, storageGranules s (spadLoc c 0) 12288)]
  ++ (List.range 66).map (fun i => (ctxOff i, slotGranules s (tnum c i)))
/-- A station's record: its areas, its counters, its heap (log 24). -/
def stationRecord (s : State) (cl : Nat) : List (Nat × List Val) :=
  let k := s.station cl
  let e (x : ReadyEntry) : List Val := x.tcb.granules ++ [pair x.taskid (BitVec.ofNat 64 (x.seq % 2 ^ 62 + x.state.code * 2 ^ 62))]
  [(0, [pair k.rsovf k.pkstore, pair (BitVec.ofNat 64 k.seq) (BitVec.ofNat 64 k.nextTask)] ++ (k.heap.map e).flatten)]
/-- Offsets of the records of a rectangle's cores, in ascending core number, and of its stations after them. -/
def coreOffsets (r : Nat) : List (Nat × Nat) :=
  let cs := (rectCores r).foldl linsert []
  (List.range cs.length).zip cs |>.map (fun x => (4096 + x.1 * 2 ^ 20, x.2))
def stationOffsets (r : Nat) : List (Nat × Nat) :=
  let cls := rectClusters r
  (List.range cls.length).zip cls |>.map (fun x => (4096 + cls.length * 2 ^ 24 + x.1 * 2 ^ 16, x.2))

/-! ### The save area in memory -/

/-- Bytes of a page of an area cleared, its lines dropped from its home's cache. -/
def State.clearPage (s : State) (c : Nat) (va : Word) : State :=
  match storage s c va with
  | none => s
  | some loc =>
    let inside (a : Nat) : Bool := decide (loc ≤ a) && decide (a < loc + 4096)
    let s1 := { s with
      mem := s.mem.filter (fun x => !inside x.1)
      tags := s.tags.filter (fun g => !inside g)
      poison := s.poison.filter (fun x => !inside (32 * x)) }
    s1.modHome (holder loc) (fun k => { k with cache := k.cache.filter (fun l => l.view || !inside (128 * l.line)) })
/-- Granules written from an address on, each through its page. -/
def State.putArea (s : State) (c : Nat) (va : Word) : List Val → State
  | [] => s
  | v :: rest =>
    (match storage s c va with
      | some loc => s.putGranules loc [v]
      | none => s).putArea c (va + 16) rest
/-- Pieces written at their offsets of an area. -/
def State.putPieces (s : State) (c : Nat) (va : Word) (ps : List (Nat × List Val)) : State :=
  ps.foldl (fun s p => s.putArea c (va + BitVec.ofNat 64 p.1) p.2) s
/-- The nonzero bytes of an area by offset. -/
def areaCells (s : State) (c : Nat) (va : Word) (n : Nat) : List Host.Cell :=
  ((List.range n).map (fun i => (i, areaByte s c va i))).filter (fun x => x.2 != 0)
def gangMagic : Nat := 0x31505347
/-- The header without its CRC. -/
def headerGranules (part r n domains : Nat) (ts : Word) : List Val :=
  [pair (BitVec.ofNat 64 (gangMagic + 2 ^ 32)) ts,
   pair (BitVec.ofNat 64 (r + part * 2 ^ 16 + domains * 2 ^ 32)) (BitVec.ofNat 64 n)]
/-- The threads of a rectangle. -/
def rectThreads (s : State) (r : Nat) : Table Thread := s.threads.filter (fun x => inCores r (tcore x.1))
/-- Lease domains of threads, each once. -/
def domainsOf (ths : Table Thread) : List Nat := (ths.map (fun x => x.2.domain.toNat)).foldl linsert []

/-! ### Saving -/

/-- Whether a partition that has stopped has come to rest: nothing of it is on its way or half performed. -/
def atRest (s : State) (part r : Nat) : Bool :=
  !s.msgs.any (fun m => m.concerns part r)
  && !s.homes.any (fun h => h.2.work.any (fun w => inCores r (tcore w.t)))
  && (rectCores r).all (fun c =>
    let k := s.core c
    (runningMatrix s c).isNone && k.flyN.isEmpty && k.flyE.isEmpty && k.flyS.isEmpty && k.flyW.isEmpty)
  && (rectThreads s r).all (fun x => x.2.ops.all (fun o => !(o.act == .nothing && o.cls == .longLat)))
/-- An engine operation as it is saved: archive operations start again (15 R380). -/
def EngOp.parked (e : EngOp) : EngOp := if e.kind == .copy then e else { e with running := false, answered := false, progress := 0 }
/-- A core as its record holds it. -/
def Core.forSave (k : Core) : Core :=
  { k with
    near := [], pending := [], plb := [], counters := [], captures := [], recent := ⟨0, [], []⟩, stopped := false, matrix := none, theta := none
    engine := k.engine.map EngOp.parked }
/-- A core that a partition has left: what belongs to the hardware stays (17 R405). -/
def Core.emptied (k : Core) : Core :=
  { Core.reset with counters := k.counters, captures := k.captures, recent := k.recent, dispatches := k.dispatches, stopped := true }
def Station.emptied (k : Station) : Station :=
  { Station.reset with seq := k.seq, nextTask := k.nextTask, counters := k.counters, recent := k.recent, stopped := true }
/-- Metadata of the scratchpads of a rectangle. -/
def inSpads (r loc : Nat) : Bool := decide (2 ^ 40 ≤ loc) && decide (loc < 2 ^ 41) && inCores r (holder loc)
/-- The save: the area written, the partition's parts taken out of the device. -/
def State.savePart (s : State) (g : Gang) : State :=
  let r := g.area
  let c := (rectCores r).headD 0
  let va := capCursor g.save.bits
  let n := saveLength r
  let ths := rectThreads s r
  let pieces := ((coreOffsets r).map (fun x => (coreRecord s x.2).map (fun p => (p.1 + x.1, p.2)))).flatten
    ++ ((stationOffsets r).map (fun x => (stationRecord s x.2).map (fun p => (p.1 + x.1, p.2)))).flatten
  let s1 := (List.range (n / 4096)).foldl (fun s i => s.clearPage c (va + BitVec.ofNat 64 (4096 * i))) s
  let s2 := (s1.putPieces c va pieces).putArea c va (headerGranules g.part r n (domainsOf ths).length g.ts)
  let s3 := s2.putArea c (va + 48) [Val.data (BitVec.ofNat 128 (areaCrc s2 c va n * 2 ^ 96))]
  let v : Saved :=
    { part := g.part
      rect := r
      ts := g.ts
      cores := (rectCores r).map (fun c => (c, (s.core c).forSave))
      threads := ths
      stations := (rectClusters r).map (fun cl => (cl, { s.station cl with counters := [], recent := ⟨0, [], []⟩, steal := none, stopped := false }))
      image := areaCells s3 c va n
      area := (c, va)
      places := ths.filterMap (fun x => ((coreOffsets r).find? (fun o => o.2 == tcore x.1)).map (fun o =>
        (x.1, o.1 + ctxOff (tslot x.1))))
      feEmpty := s.feEmpty.filter (inSpads r)
      tags := []
      poison := s.poison.filter (fun x => inSpads r (32 * x))
      owners := s.owners.filter (fun x => inSpads r (32 * x.1)) }
  let given (s : State) (c : Nat) : State := (s.core c).engine.foldl (fun s e =>
    if e.outstanding then s.driveOut e.drive false else s) s
  let s4 := (rectCores r).foldl (fun s c => (given s c).modCore c Core.emptied) s3
  let s5 := (rectClusters r).foldl (fun s cl => s.modStation cl Station.emptied) s4
  { s5 with threads := s5.threads.filter (fun x => !inCores r (tcore x.1)), saved := v :: s5.saved }

/-! ### Loading (15 R382, R383) -/

/-- The cluster, core and thread of rectangle q that stand where those of rectangle r do. -/
def moveCluster (r q cl : Nat) : Nat :=
  if inRect r cl then (cl % 8 - r % 8 + q % 8) + 8 * (cl / 8 - r / 8 % 8 + q / 8 % 8) else cl
def moveCore (r q c : Nat) : Nat := coreAt (moveCluster r q (clusterOf c)) (inCluster c)
def moveThread (r q t : Nat) : Nat := tnum (moveCore r q (tcore t)) (tslot t)
def moveWaiter (r q : Nat) : Waiter → Waiter
  | .slot t => .slot (moveThread r q t)
  | .entry cl i => .entry (moveCluster r q cl) i
def movePlace (r q : Nat) : Place → Place
  | .core c => .core (moveCore r q c)
  | .station x => .station (moveCluster r q x)
/-- The owner numbers that name cores (13 R303). -/
def moveOwner (r q : Nat) (o : Owner) : Owner :=
  let n := o.num.toNat
  let c := if o.cls == 1 then n / 2 ^ 16 % 1024 else n / 2 ^ 32 % 1024
  if o.cls == 1 then { o with num := BitVec.ofNat 64 (n - c * 2 ^ 16 + moveCore r q c * 2 ^ 16) }
  else if o.cls == 2 then { o with num := BitVec.ofNat 64 (n - c * 2 ^ 32 + moveCore r q c * 2 ^ 32) }
  else o
/-- The owner numbers of a saved partition that name cores. -/
def Saved.coreOwners (v : Saved) : List Owner :=
  (v.cores.map (fun x => x.2.engine.map (fun e => engineOwner x.1 e.id))).flatten
  ++ (v.threads.filter (fun x => x.2.dispatch.isSome)).map (fun x => x.2.owner x.1)
/-- A caught message for the partition's new place: homes stay where they are. -/
def moveMsg (r q part cycle : Nat) (m : Msg) : Msg :=
  let t (n : Nat) : Nat := moveThread r q n
  let c (n : Nat) : Nat := moveCore r q n
  let m := { m with src := movePlace r q m.src, part := part, ride := .waiting cycle false, leg := 0, owner := moveOwner r q m.owner }
  match m.payload with
  | .access a o => { m with payload := .access (t a) o }
  | .write a o va k d g => { m with payload := .write (t a) o va k d g }
  | .register a o va k => { m with payload := .register (t a) o va k }
  | .probe a o => { m with payload := .probe (t a) o }
  | .echo a o => { m with payload := .echo (t a) o, dst := movePlace r q m.dst }
  | .engRead a i va => { m with payload := .engRead (c a) i va }
  | .engWrite a i va v => { m with payload := .engWrite (c a) i va v }
  | .wback a va k d g o cl w =>
    { m with payload := .wback (c a) va k d g o cl (w.map (fun x => (t x.1, x.2))) }
  | .wake w o v a => { m with payload := .wake (moveWaiter r q w) o v a, dst := movePlace r q m.dst }
  | .travel p => { m with payload := .travel { p with part := part }, dst := movePlace r q m.dst }
  | .stealReply es => { m with payload := .stealReply es, dst := movePlace r q m.dst }
  | _ => m
/-- The parts of a saved partition for another place. -/
def moveCrew (r q : Nat) (w : CrewState) : CrewState := { w with members := w.members.map (moveThread r q) }
def moveStation (r q : Nat) (k : Station) : Station :=
  let f (e : ReadyEntry) : ReadyEntry := { e with bound := e.bound.map (moveCore r q) }
  { k with
    heap := k.heap.map f
    overflow := k.overflow.map f
    store := k.store.map (fun (e : Nat × StoreEntry) => (e.1, { e.2 with core := moveCore r q e.2.core })) }
/-- A storage address of a scratchpad for another place. -/
def moveLoc (r q loc : Nat) : Nat := spadLoc (moveCore r q (holder loc)) (loc % 2 ^ 18)
/-- Whether a saved partition finds what R383 asks: its lease domains, a valid partition map entry with fall-out frames for what was
caught, and in the areas of its stations the frames that their overflow and parked-TCB entries occupy. -/
def restorable (s : State) (v : Saved) (part : Nat) (msgs : List Msg) : Bool :=
  let stored := (v.stations.map (fun x => x.2.store.map (fun e => (e.1, e.2.thread)))).flatten
  (domainsOf (v.threads ++ stored)).all (fun d => (leaseEntry s (BitVec.ofNat 16 d)).isSome)
  && (tget s.dev.pmap part 0).getLsbD 0
  && decide ((msgs.map Msg.slots).sum ≤ (tget s.dev.pmfo part 0).toNat * 4096 * v.cores.length)
  && v.stations.all (fun x => decide (x.2.overflow.length ≤ overflowRoom x.2) && x.2.store.all (fun e => decide (e.1 < storeSize x.2)))
/-- Whether rectangles have the same dimensions. -/
def sameShape (r q : Nat) : Bool :=
  r / 64 % 8 - r % 8 == q / 64 % 8 - q % 8 && r / 512 % 8 - r / 8 % 8 == q / 512 % 8 - q / 8 % 8

/-! ### What the records of an area say -/

/-- A place in a load area: the core that reads it, the address, the offset. -/
structure Area where
  core : Nat
  va   : Word
  off  : Nat
  deriving DecidableEq, Repr
def Area.nat (a : Area) (s : State) (i n : Nat) : Nat := areaNat s a.core a.va (a.off + i) n
def Area.word (a : Area) (s : State) (i : Nat) : Word := BitVec.ofNat 64 (a.nat s i 8)
/-- A granule with its tag. -/
def Area.val (a : Area) (s : State) (i : Nat) : Val :=
  ⟨BitVec.ofNat 128 (a.nat s i 16), match storage s a.core (a.va + BitVec.ofNat 64 (a.off + i)) with
    | some loc => s.tagAt loc | none => false⟩
def Area.at (a : Area) (i : Nat) : Area := { a with off := a.off + i }
/-- Whether n bytes of an area are those of a save. -/
def Area.same (a : Area) (s : State) (image : List Host.Cell) (n : Nat) : Bool :=
  image.filter (fun x => decide (a.off ≤ x.1) && decide (x.1 < a.off + n))
    == (areaCells s a.core (a.va + BitVec.ofNat 64 a.off) n).map (fun x => (x.1 + a.off, x.2))
/-- Entries of an inbox or a crew queue. -/
def Area.queue (a : Area) (s : State) (n : Nat) : List QueueEntry :=
  ((List.range n).filter (fun i => a.nat s (32 * i + 24) 1 % 2 == 1)).map (fun i =>
    ⟨⟨(a.val s (32 * i)).bits, a.nat s (32 * i + 24) 1 / 2 % 2 == 1⟩, BitVec.ofNat 16 (a.nat s (32 * i + 16) 2)⟩)
/-- A thread with the ten status words of a context (15 R378; 05 R113 to R116). -/
def Area.status (a : Area) (s : State) (th : Thread) : Thread :=
  let ts := a.word s 0
  let fp := a.word s 8
  let ls := a.word s 72
  { th with
    sup := ts.getLsbD 0
    mode := if ts.extractLsb' 1 2 == 1 then .travel else if ts.extractLsb' 1 2 == 2 then .handler else .ordinary
    crew := ts.getLsbD 3
    lead := ts.getLsbD 4
    drm := fp.extractLsb' 6 3
    flags := Flags.ofBits (fp.extractLsb' 0 5)
    prng := Prng.ofWords (a.word s 16) (a.word s 24)
    turns := (a.word s 32).setWidth 32
    deadline := a.word s 40
    taskid := a.word s 48
    group := a.word s 56
    bankmask := a.word s 64
    domain := ls.extractLsb' 48 16
    moves := ls.extractLsb' 24 8
    edits := ls.extractLsb' 16 8
    record := ls.extractLsb' 0 16 }
/-- Registers from granules, with their presence bits. -/
def Area.regs (a : Area) (s : State) (n present : Nat) (tag : Nat → Bool → Bool) : Table Reg :=
  (List.range n).map (fun i =>
    let v := a.val s (16 * i)
    (i, ⟨⟨v.bits, tag i v.tag⟩, present / 2 ^ i % 2 == 1⟩))
/-- What the device keeps of a task beside its context, by its lease record (16 R391): of a task it does not know, no range (log 24). -/
def taskRecord (s : State) (domain record : BitVec 16) : Thread :=
  match ((s.saved ++ s.loaded).flatMap Saved.threads).find? (fun x => x.2.domain == domain && x.2.record == record) with
  | some x => x.2
  | none => { Thread.blank with ranges := [] }
/-- A thread from its context (15 R378): what had not finished stands as entries, which run again. -/
def Area.thread (a : Area) (s : State) : Thread :=
  let st := (a.at 16).status s Thread.blank
  let base := (a.at 16).status s (taskRecord s st.domain st.record)
  let count := min 256 (16 * 2 ^ a.nat s 112 1)
  let present := a.nat s 128 32
  let entry (i : Nat) : Entry :=
    let e := a.at (192 + 64 * i)
    ⟨e.word s 0, e.word s 8, e.val s 16, e.val s 32, e.val s 48⟩
  let es := (List.range (min 16 (a.nat s 113 1))).map entry
  { base with
    count := count
    regs := (a.at 4096).regs s count present (fun _ t => t)
    pcc := a.val s 0
    trapcap := a.val s 96
    trapActive := if a.nat s 114 1 % 2 == 1 then some (base.trapActive.getD ⟨0, 0, 0, .breakpoint⟩) else none
    status := .ready
    ops := []
    reinject := es
    resuming := !es.isEmpty
    spare := []
    windows := []
    lanes := List.range (a.nat s 115 1)
    travelGo := false
    revoked := false }
/-- A packed context of an arrival queue (14 R349). -/
def Area.packed (a : Area) (s : State) : Packed :=
  let tags := a.nat s 288 4
  let tag (i : Nat) : Bool := tags / 2 ^ i % 2 == 1
  let st := (a.at 296).status s Thread.blank
  let base := (a.at 296).status s (taskRecord s st.domain st.record)
  { thread := { base with
      count := 16
      regs := (a.at 32).regs s 16 (2 ^ 16 - 1) (fun i _ => tag i)
      pcc := ⟨(a.val s 0).bits, tag 16⟩
      trapcap := ⟨(a.val s 16).bits, tag 17⟩
      status := .ready
      ops := []
      reinject := [] }
    part := a.nat s 376 2
    src := a.nat s 378 2 }
/-- An engine operation (log 24); what the record does not say is that of the operation the device knows by its number. -/
def Area.engine (a : Area) (s : State) (k : Core) : EngOp :=
  let w := a.nat s 0 8
  let kind : EngKind := match w % 4 with | 0 => .copy | 1 => .arcout | 2 => .arcin | _ => .arcdrop
  let mode : Compl := match w / 4 % 4 with | 0 => .none | 1 => .write | _ => .fill
  let id := BitVec.ofNat 16 (w / 2 ^ 16)
  let base := (k.engine.find? (fun e => e.id == id)).getD
    ⟨id, kind, 0, 0, [], Val.zero, Val.zero, Val.zero, Val.zero, mode, 0, 0, [], false, 0, none, false, false, 0, 0, 0, 0, 0, 0⟩
  { base with
    kind := kind
    mode := mode
    domain := BitVec.ofNat 16 (w / 2 ^ 32)
    taskid := a.word s 8
    v := a.word s 16
    progress := a.nat s 24 8
    a := a.val s 32
    b := a.val s 48
    c := a.val s 64
    e := a.val s 80 }
/-- A tile (09 R194, R195). -/
def Area.tile (a : Area) (s : State) : Tile :=
  let verdict (w : Word) : VerdictWord :=
    ⟨w.extractLsb' 32 32, (w.extractLsb' 16 16).toNat, w.getLsbD 4,
      match (w.extractLsb' 0 4).toNat with | 0 => .isOpen | 1 => .isFalse | 2 => .isTrue | _ => .kept⟩
  let q := (a.val s 12288).bits
  { elems := ((List.range 1024).map (fun i => (i, BitVec.ofNat 32 (a.nat s (4 * i) 4)))).filter (fun x => x.2 != 0)
    verd := ((List.range 1024).map (fun i => (i, verdict (a.word s (4096 + 8 * i))))).filter (fun x => x.2 != VerdictWord.reset)
    owner := q.extractLsb' 64 64
    domain := q.extractLsb' 48 16
    fpsnap := q.extractLsb' 9 9
    shape := q.extractLsb' 3 3
    drain := q.getLsbD 2
    busy := q.getLsbD 1
    free := q.getLsbD 0 }
/-- A core's record up to its lane slices, over what the device keeps of it beside the record. -/
def Area.record (a : Area) (s : State) (k : Core) : Core :=
  { k with
    partn := BitVec.ofNat 2 (a.nat s 0 8)
    fmtr := BitVec.ofNat 6 (a.nat s 8 8)
    parklim := BitVec.ofNat 32 (a.nat s 16 8)
    linkdisc := a.word s 24
    hentry := a.val s 32
    hparam := a.val s 48
    hdomain := BitVec.ofNat 16 (a.nat s 64 8)
    inN := (a.at 0x100).queue s 4
    inE := (a.at 0x180).queue s 4
    inS := (a.at 0x200).queue s 4
    inW := (a.at 0x280).queue s 4
    arrivals := ((List.range 8).filter (fun i => a.nat s (0x300 + 384 * i) 384 != 0)).map (fun i => (a.at (0x300 + 384 * i)).packed s)
    queues := ((List.range 8).map (fun q => (q, (a.at (0x1000 + 512 * q)).queue s 16))).filter (fun x => !x.2.isEmpty)
    engine := ((List.range 16).filter (fun i => a.nat s (0x2000 + 128 * i) 128 != 0)).map (fun i =>
      (a.at (0x2000 + 128 * i)).engine s k)
    tiles := (List.range 4).map (fun i => (i, (a.at (0x4000 + 0x4000 * i)).tile s)) }
/-- A station's record; what it does not say of a task is what the device keeps of it, else no right at all (log 24). -/
def Area.station (a : Area) (s : State) (k : Station) : Station :=
  let entry (i : Nat) : ReadyEntry :=
    let e := a.at (32 + 80 * i)
    let x := tcbOf [e.val s 0, e.val s 16, e.val s 32, e.val s 48]
    let id := e.word s 64
    let w := e.nat s 72 8
    let state : EntryState := match w / 2 ^ 62 with | 0 => .staging | 1 => .eligible | 2 => .noFit | _ => .stored
    let base := ((k.heap ++ k.overflow).find? (fun y => y.taskid == id)).getD
      ⟨x, id, 0, x.deadline, state, 0, [], 0, none, none, none⟩
    { base with tcb := x, key := x.deadline, state := state, seq := w % 2 ^ 62 }
  { k with
    rsovf := a.word s 0
    pkstore := a.word s 8
    seq := a.nat s 16 8
    nextTask := a.nat s 24 8
    heap := ((List.range 256).filter (fun i => a.nat s (32 + 80 * i + 64) 8 != 0)).map entry }
/-- The contexts of a rectangle's slots: thread and place in an area. -/
def areaContexts (r c : Nat) (va : Word) : List (Nat × Area) :=
  (coreOffsets r).flatMap (fun o => (List.range 66).map (fun i => (tnum o.2 i, (⟨c, va, o.1 + ctxOff i⟩ : Area))))
/-- Whether an area's header, length and CRC are those of a save of a rectangle that has the dimensions of q (15 R382). -/
def areaValid (s : State) (c : Nat) (va : Word) (q : Nat) : Bool :=
  let r := areaNat s c va 16 2
  areaNat s c va 0 4 == gangMagic && areaNat s c va 4 2 == 1 && decide (r < 4096) && sameShape r q
    && areaNat s c va 24 8 == saveLength r && areaNat s c va 60 4 == areaCrc s c va (saveLength r)
/-- The save that an area's header names, and whether it has not been loaded yet. -/
def knownSave (s : State) (c : Nat) (va : Word) : Option (Saved × Bool) :=
  let is (v : Saved) : Bool := v.rect == areaNat s c va 16 2 && v.part == areaNat s c va 18 2
    && v.ts == BitVec.ofNat 64 (areaNat s c va 8 8)
  match s.saved.find? is, s.loaded.find? is with
  | some v, _ => some (v, true)
  | none, some v => some (v, false)
  | none, none => none
/-- The partition a valid load area holds: its records as they stand, and of a save that this device made and has not loaded yet the
operations that were under way (log 22). -/
def loadArea (s : State) (c : Nat) (va : Word) : Saved :=
  let r := areaNat s c va 16 2
  let known := knownSave s c va
  let cells := areaCells s c va (saveLength r)
  let v := match known with
    | some x => x.1
    | none => ⟨areaNat s c va 18 2, r, BitVec.ofNat 64 (areaNat s c va 8 8), [], [], [], cells, (c, va), [], [], [], [], []⟩
  let first := (known.map Prod.snd).getD false
  { v with
    cores := (coreOffsets r).map (fun o =>
      let a : Area := ⟨c, va, o.1⟩
      let k := tget v.cores o.2 Core.reset
      (o.2, if known.isSome && a.same s v.image laneOff then k else a.record s k))
    stations := (stationOffsets r).map (fun o =>
      let a : Area := ⟨c, va, o.1⟩
      let k := tget v.stations o.2 Station.reset
      (o.2, if known.isSome && a.same s v.image (2 ^ 16) then k else a.station s k))
    threads := (areaContexts r c va).filterMap (fun x =>
      match v.threads.lookup x.1 with
      | some th => some (x.1, if first then th else x.2.thread s)
      | none => if x.2.nat s 0 8192 == 0 then none else some (x.1, x.2.thread s)) }
/-- The contexts of a load area that differ from what this device saved. -/
def alteredThreads (s : State) (c : Nat) (va : Word) (v : Saved) : List Nat :=
  ((areaContexts v.rect c va).filter (fun x => (v.threads.lookup x.1).isSome && !x.2.same s v.image 8192)).map Prod.fst
/-- Its CQSPLITs under way run again from their captured operands, before anything else that the thread issues (08 R189). Sectors
whose registration was caught on its way are registered anew. -/
def Thread.splitsAgain (th : Thread) (caught : List Nat) : Thread :=
  let under (o : Op) : Bool := match o.act, o.phase with | .split .., .sent _ => true | _, _ => false
  let xs := th.ops.filter under
  { th with
    ops := th.ops.filter (fun o => !under o)
    epoch := th.epoch.filter (fun x => !caught.contains x)
    reinject := xs.flatMap (fun o => o.entries 4 none) ++ th.reinject
    resuming := th.resuming || !xs.isEmpty }
/-- The operations of a saved partition that run again. -/
def Saved.splits (v : Saved) : List Nat :=
  v.threads.flatMap (fun x => (x.2.ops.filter (fun o => match o.act with | .split .. => true | _ => false)).map Op.id)
/-- The thread's operation that a store or a registration belongs to. -/
def Msg.storeOp (m : Msg) : Option Nat :=
  match m.payload with | .write _ op _ _ _ _ => some op | .register _ op _ _ => some op | _ => none
/-- Sectors whose registration for one of a list of operations of a thread is among messages. -/
def caughtSectors (t : Nat) (ops : List Nat) (msgs : List Msg) : List Nat :=
  msgs.filterMap (fun m => match m.payload with
    | .register x op va _ => if x == t && ops.contains op then some (va.toNat / 32) else none
    | _ => none)
/-- Granules of an area copied to storage with their tags. -/
def State.copyArea (s : State) (c : Nat) (va : Word) (loc n : Nat) : State :=
  (List.range n).foldl (fun s i =>
    match storage s c (va + BitVec.ofNat 64 (16 * i)) with
    | some src => s.putGranules (loc + 16 * i) [⟨BitVec.ofNat 128 (s.load src 16), s.tagAt src⟩]
    | none => s) s
/-- Whether two records are of one save. -/
def Saved.isSave (x v : Saved) : Bool := x.part == v.part && x.rect == v.rect && x.ts == v.ts
/-- Every record installed onto rectangle q. -/
def State.install (s : State) (va : Word) (c0 : Nat) (v : Saved) (q part : Nat) (msgs : List Msg) : State :=
  let r := v.rect
  let bad := alteredThreads s c0 va v
  let s1 := (coreOffsets r).foldl (fun s x =>
    let c := moveCore r q x.2
    let k := tget v.cores x.2 Core.reset
    let s := s.modCore c (fun old => { k with
      counters := old.counters
      captures := old.captures
      recent := old.recent
      dispatches := old.dispatches
      crew := k.crew.map (moveCrew r q) })
    let s := s.zeroRange (spadLoc c 0) Config.spadBytes
    (s.copyArea c0 (va + BitVec.ofNat 64 (x.1 + spadOff)) (spadLoc c 0) 12288).copyArea c0
      (va + BitVec.ofNat 64 (x.1 + laneOff)) (laneLoc c 0 0 0) 2048) s
  let s2 := v.stations.foldl (fun s x =>
    let cl := moveCluster r q x.1
    s.setStation cl { moveStation r q x.2 with counters := (s.station cl).counters, recent := (s.station cl).recent }) s1
  let s3 := v.threads.foldl (fun s x => s.setThread (moveThread r q x.1) (x.2.splitsAgain (caughtSectors x.1 v.splits msgs))) s2
  let msgs := msgs.filter (fun m => match m.storeOp with | some op => !v.splits.contains op | none => true)
  -- a directory entry of a sector that one of the threads has registered names its core's new place (13 R328)
  let mine (k : Home) (sector : Nat) : Bool :=
    k.registry.any (fun e => e.1 == sector && v.threads.any (fun x => x.2.owner x.1 == e.2))
  let dir (k : Home) : List DirEntry := k.directory.map (fun e =>
    if mine k e.sector then { e with cores := e.cores.map (fun c => if inCores r c then moveCore r q c else c) } else e)
  let named := v.coreOwners
  let owner (x : Nat × Owner) : Nat × Owner := (x.1, if named.contains x.2 then moveOwner r q x.2 else x.2)
  let ops := v.ops
  let wait (w : WaitRec) : WaitRec := if ops.contains w.op then { w with who := moveWaiter r q w.who } else w
  let s4 := { s3 with
    feEmpty := (v.feEmpty.map (moveLoc r q)).foldl linsert s3.feEmpty
    poison := (v.poison.map (fun x => moveLoc r q (32 * x) / 32)).foldl linsert s3.poison
    owners := (v.owners.map (fun x => (moveLoc r q (32 * x.1) / 32, moveOwner r q x.2))).foldl
      (fun t x => tput t x.1 x.2) (s3.owners.map owner)
    homes := s3.homes.map (fun (x : Nat × Home) =>
      (x.1, { x.2 with registry := x.2.registry.map owner, directory := dir x.2, waits := x.2.waits.map wait }))
    saved := s3.saved.filter (fun x => !x.isSave v)
    loaded := (s3.saved.filter (fun x => x.isSave v)) ++ s3.loaded
    fallout := tdel s3.fallout (falloutKey v.part v.ts)
    msgs := s3.msgs ++ msgs.map (moveMsg r q part s3.cycle) }
  let element (c : Nat) (e : EngOp) (m : Msg) : Bool := match m.payload with
    | .engRead k i _ => k == c && i == e.id | .engWrite k i _ _ => k == c && i == e.id | _ => false
  let s5 := (rectCores q).foldl (fun s c => (s.core c).engine.foldl (fun s e =>
    if e.kind == .copy && e.running && !s.msgs.any (element c e) then s.nextElement c e else s) s) s4
  bad.foldl (fun s t =>
    let t := moveThread r q t
    match s.thread t with
    | some th =>
      let a : Word := BitVec.ofNat 64 th.pc
      (s.startTrap t (some .formatMismatch) 0 [] a a false true).trapNow t
    | none => s) s5
/-- A load after a save: the state and the completion value (15 R382, R383). -/
def State.loadPart (s : State) (g : Gang) (b : Val) : State × Nat :=
  let q := g.area
  let c := (rectCores q).headD 0
  let va := capCursor b.bits
  let need := permR ||| permEN
  let okCap := (capCheck b need va.toNat (saveLength q) 4096).isNone && leased g.ranges need va (saveLength q)
  if !(okCap && areaValid s c va q) then (s, 2)
  else
    let v := loadArea s c va
    let msgs := tget s.fallout (falloutKey v.part v.ts) []
    if !restorable s v g.part msgs then (s, 1) else (s.install va c v q g.part msgs, 0)
/-- The completion word of a GANG filled, and its vector signalled (15 R382, 18 R417). -/
def State.gangDone (s : State) (g : Gang) (value : Nat) : State :=
  if !g.compl.tag then s
  else
    let c := (rectCores g.area).headD 0
    let va := capCursor g.compl.bits
    let r := s.completeWord c Owner.nobody .fill va (BitVec.ofNat 64 value)
    match r.2 with
    | some f => r.1.causeRecord g.domain Owner.nobody c ⟨0, va, BitVec.ofNat 64 (s.tsAt c), f⟩
    | none => r.1.signal 123 0
def execGangLoad (part : Nat) (s : State) :=
  happens (match s.gangs.find? (fun g => g.part == part && g.stopped) with
    | some g =>
      if !atRest s g.part g.area then none
      else
        let s1 := s.savePart g
        let r := match g.load with | some b => s1.loadPart g b | none => (s1, 0)
        let s2 := { r.1 with gangs := r.1.gangs.filter (· != g) }
        some (s2.gangDone g r.2)
    | none => none)

end Sys2Proof.Machine
end

