-- ==== Sys2Proof/Machine/EventsDevice.lean ====
section
/-!
DEFINITION. Events of the device as a whole: resets, DRAM and repair (10 R250 to R252, 17 R410, R411), the outside world
(18 R415 to R426), management writes (R413) and periodic samples (17 R408).
-/

namespace Sys2Proof.Machine

/-! ### Resets (01 R19, 10 R252, 17 R404) -/

/-- What a reset leaves of the stacks: registers at their reset values, SPARES by training where TRAIN stood set when the reset came
(10 R252; log 6), its bit 63 and the repair log kept (17 R410, R411). -/
def stacksAfter (s : State) (d : Nat) : Table Stack :=
  (List.range 16).map (fun k =>
    let x := s.stack k
    let now := if x.repairmode.getLsbD 1 then trainedSpares d k else x.spares
    (k, { Stack.reset k with spares := now ||| (x.spares &&& 0x8000000000000000), log := x.log }))
/-- DEVSTAT.SPARE follows the stacks (18 R414), and vector 121 tells of each whose bit 63 is set anew (R417). -/
def State.markSpare (s old : State) : State :=
  let marked (x : State) (k : Nat) : Bool := (x.stack k).spares.getLsbD 63
  let any := (List.range 16).any (marked s)
  let s := s.modDev (fun d => { d with devstat := (d.devstat &&& ~~~2) ||| (if any then 2 else 0) })
  ((List.range 16).filter (fun k => marked s k && !marked old k)).foldl (fun s _ => s.signal 121 0) s
/-- What a reset leaves: as State.reset, but for what counts across resets, what stands outside the package, and memory's bytes,
which are free (log 25). -/
def State.resetBase (s : State) : State :=
  { State.reset with
    steps := s.steps
    agenda := s.agenda
    draws := s.draws + 1
    nextId := s.nextId
    out := s.out
    mem := (Config.bytesAfterReset s.draws).foldl (fun m c => memPut m c.1 c.2) []
    dev := { Device.reset with
      trust := { Device.reset.trust with count := s.dev.trust.count }
      pba := []
      hbm := stacksAfter s (s.draws + 1) } }
/-- The device after a reset; DEVSTAT.SPARE follows what the stacks kept. -/
def State.resetAgain (s : State) : State := s.resetBase.markSpare s
def execDeviceReset (s : State) := happens (some s.resetAgain)
/-- Post-package repair of a stack: one spare row for each logged row, as far as they last, and the log emptied. -/
def Stack.repaired (x : Stack) (ppr : Bool) : Stack :=
  let clean : Word := x.spares &&& 0x7FFFFFFFFFFFFFFF
  if !ppr then { x with spares := sparesMark clean }
  else
    let rows := (clean.extractLsb' 16 16).toNat
    let left := rows - min rows x.log.length
    { x with spares := sparesMark (BitVec.ofNat 64 (left * 2 ^ 16) ||| (clean &&& 0xFFFF)), log := [] }
/-- A maintenance reset: a reset after which logged rows are repaired where PPR was set. -/
def State.maintain (s : State) : State :=
  let r := s.resetBase
  let fix (x : Nat × Stack) : Nat × Stack := (x.1, x.2.repaired ((s.stack x.1).repairmode.getLsbD 0))
  (r.modDev (fun d => { d with hbm := d.hbm.map fix })).markSpare s
def execMaintenanceReset (s : State) := happens (some s.maintain)

/-! ### Refresh and alert back-off (10 R250) -/

/-- Whether an arrived access waits for a line of a bank. -/
def bankBusy (s : State) (home bank : Nat) : Bool :=
  s.msgs.any (fun m => s.inOrder m && m.at == home && m.needsLines
    && (missingLines s home m).any (fun x => x.home == home && (x.reads s).any (fun l => Config.bankOf l == bank)))
/-- A refresh falls due: a busy bank postpones it up to a debt of 8, beyond which it is made at once; an idle one pays a debt
back. -/
def execHbmRefresh (home bank : Nat) (s : State) :=
  let debt := tget (s.home home).debt bank 0
  let next := if bankBusy s home bank then min 8 (debt + 1) else debt - 1
  happens (whenever (decide (home < Config.cores)) (s.modHome home (fun k => { k with debt := tput k.debt bank next })))
/-- A back-off stalls the bank; a debt of 8 is first lowered by one refresh. -/
def execAlertBackOff (home bank : Nat) (s : State) :=
  let debt := tget (s.home home).debt bank 0
  happens (whenever (decide (home < Config.cores) && (tfind (s.home home).backoff bank).isNone)
    ((s.modHome home (fun k => { k with
      backoff := tput k.backoff bank s.cycle
      debt := if debt = 8 then tput k.debt bank 7 else k.debt })).countHome home cREFSTALL 1))
def execAlertBackOffEnd (home bank : Nat) (s : State) :=
  happens ((tfind (s.home home).backoff bank).map (fun since =>
    (s.modHome home (fun k => { k with backoff := tdel k.backoff bank })).sampleHome home 8 (2 * (s.cycle - since) / 3)))

/-! ### Lanes and spares (10 R252, 17 R410) -/

/-- Data lanes of a stack that have a count (18 R413, log 26). -/
def laneCount : Nat := 2048
def execLinkCrcError (stack lane : Nat) (s : State) :=
  let x := s.stack stack
  happens (whenever (decide (stack < 16) && decide (lane < laneCount))
    (s.setStack stack { x with lanecrc := tmod x.lanecrc lane 0 (fun n => min 65535 (n + 1)) }))
/-- The home whose pseudo-channel a lane serves: the lanes of a stack in equal runs, homes in ascending number (log 26). -/
def laneHome (stack lane : Nat) : Nat :=
  ((List.range Config.cores).filter (fun h => stackOf h == stack)).getD (lane / 32) 0
/-- A lane that has reached CRCTHR is replaced by a spare; its pseudo-channel stalls meanwhile. -/
def State.shiftLane (s : State) (stack lane : Nat) : State :=
  let x := s.stack stack
  let spares := sparesMark (x.spares - 1)
  ((s.setStack stack { x with lanecrc := tdel x.lanecrc lane, spares := spares }).modHome (laneHome stack lane)
    (fun k => { k with shift := true })).markSpare s
def execLiveShift (stack lane : Nat) (s : State) :=
  let x := s.stack stack
  happens (whenever (decide (stack < 16) && x.repairmode.getLsbD 2 && x.spares.extractLsb' 0 16 != 0
      && decide ((x.repairmode.extractLsb' 8 8).toNat ≤ tget x.lanecrc lane 0) && decide (0 < tget x.lanecrc lane 0))
    (s.shiftLane stack lane))
def execLiveShiftDone (home : Nat) (s : State) :=
  let waits := (s.byArrival (s.msgs.filter (fun m =>
    m.ride == .arrived && m.dst == .core home && m.needsLines && !(missingLines s home m).isEmpty))).map Msg.id
  happens (whenever (s.home home).shift (s.modHome home (fun k => { k with
    shift := false, parked := k.parked.filter (fun i => (s.msg i).isSome && !waits.contains i) ++ waits })))

/-! ### The memory window (18 R416, R419) -/

/-- How an access to the window is answered. -/
inductive WindowReply where
  | data (bytes : List Byte)
  | taken
  | unsupported
  deriving DecidableEq, Repr
/-- The address of a window offset. -/
def windowVa (s : State) (off : Nat) : Word := BitVec.ofNat 64 (windowBase s + off)
/-- Whether an access lies outside what the window admits: no window, no such bytes, or a page not mapped for its domain (18 R416). -/
def windowOut (s : State) (off n : Nat) : Bool :=
  decide (2 ^ 40 < off + n) || !inWindow s (windowVa s off) n
/-- Whether a part of n bytes cannot be read or written. -/
def windowPiecesBad (s : State) (off n : Nat) (write : Bool) : Bool :=
  (pieces (windowVa s off) n).any (fun x => windowBad s x.1 x.2 write)
/-- A window read (18 R416): the pulls of R319, the buffered stores and the fills come first, and what they find decides (10 R243). -/
def State.windowRead (s : State) (off n : Nat) : State × WindowReply :=
  let va := windowVa s off
  let s := s.pullSpan noCore va n
  if windowPiecesBad s off n false then (s, .unsupported)
  else (s, .data (spanBytes s va n))
/-- A window write sent to the homes of its sectors, where each is performed by an event of its own (18 R416). -/
def State.windowWrite (s : State) (src : Outside) (off : Nat) (bytes : List Byte) : State :=
  let va := windowVa s off
  (pieces va bytes.length).foldl (fun s x =>
    let lo := x.1.toNat - va.toNat
    match storage s noCore x.1 with
    | some loc =>
      let m : Msg := ⟨s.nextId, s.cycle, s.cycle, .station 0, .core (holder loc), 0, .arrived, 0, s.cycle, Owner.nobody,
        .window src (off + lo) x.1 ((bytes.drop lo).take x.2)⟩
      { s with msgs := s.msgs ++ [m], nextId := s.nextId + 1 }
    | none => s) s
/-- An access to the window: a read comes after the earlier writes of its source. -/
def State.window (s : State) (src : Outside) (off len : Nat) (data : Option (List Byte)) : Option (State × WindowReply) :=
  let n := match data with | none => len | some b => b.length
  let s := if s.dev.hwin.getLsbD 0 && decide (off + n ≤ 2 ^ 40) then s.walkPages (spanPages (windowVa s off) n) else s
  if windowOut s off n then some (s, .unsupported)
  else match data with
  | none => if windowWaits s src then none else some (s.windowRead off n)
  | some b => if windowPiecesBad s off n true then some (s, .unsupported) else some (s.windowWrite src off b, .taken)

/-! ### The BARs of a host link (18 R412) -/

/-- Size of a BAR. -/
def barSize (bar : Nat) : Nat := if bar = 0 then 2 ^ 27 else if bar = 2 then 2 ^ 20 else if bar = 4 then 2 ^ 40 else 0
/-- The bytes of the MSI-X table and of the pending-bit array of a link, as BAR 2 shows them (log 102). -/
def bar2Byte (s : State) (link off : Nat) : Byte :=
  if 0x40000 ≤ off && off < 0x40800 then (s.msixEntry ((off - 0x40000) / 16) link).extractLsb' (8 * (off % 16)) 8
  else if 0x41000 ≤ off && off < 0x41010 then
    BitVec.ofNat 8 ((List.range 8).foldl (fun n i =>
      if s.dev.pba.contains (128 * link + 8 * (off - 0x41000) + i) then n + 2 ^ i else n) 0)
  else 0
/-- A read of BAR 0, of 8 bytes at an offset divisible by 8 (18 R413), or of BAR 2. -/
def barRead (s : State) (link bar off len : Nat) : List Byte :=
  if bar = 0 then leBytes len (if len = 8 && off % 8 = 0 then (mgmtRead s off).toNat else 0)
  else (List.range len).map (fun i => bar2Byte s link (off + i))
/-- A table entry of a link written: a pending vector that it leaves unmasked is sent (log 102). -/
def State.msixWrite (s : State) (link vector : Nat) (e : Quad) : State :=
  let n := 128 * link + vector
  let s := s.modDev (fun d => { d with msix := tput d.msix n (e &&& 0x1FFFFFFFFFFFFFFFFFFFFFFFF) })
  if s.dev.pba.contains n && !e.getLsbD 96 then (s.modDev (fun d => { d with pba := d.pba.filter (· != n) })).signal vector link else s
/-- A write of BAR 0 or BAR 2. -/
def State.barWrite (s : State) (link bar off : Nat) (bytes : List Byte) : State :=
  let n := bytes.length
  if bar = 0 then (if n = 8 && off % 8 = 0 then mgmtWrite s off (BitVec.ofNat 64 (leNat bytes)) else s)
  else if off < 0x40000 then s.intake (off / 4096) link (off % 4096) bytes
  else if off < 0x40800 && (n = 4 || n = 8) && off % n = 0 then
    let i := off % 16
    let vector := (off - 0x40000) / 16
    let e := mergeBytes (byteMask i n) (s.msixEntry vector link).toNat (leNat bytes * 2 ^ (8 * i))
    s.msixWrite link vector (BitVec.ofNat 128 e)
  else s
/-- A host access to a BAR of a link: management space, the intake apertures with the MSI-X table, or the memory window. A record's
write waits as INTAKE_RECORD does. -/
def State.hostAccess (s : State) (link bar off len : Nat) (data : Option (List Byte)) : Option State :=
  let n := match data with | none => len | some b => b.length
  if bar = 4 then (s.window (.link link) off len data).map (fun r => match r.2 with
    | .data bytes => r.1.emit (.hostReply link 4 off bytes)
    | .taken => r.1
    | .unsupported => r.1.emit (.unsupported link 4 off))
  else if barSize bar < off + n then some (s.emit (.unsupported link bar off))
  else match data with
  | none => some (s.emit (.hostReply link bar off (barRead s link bar off len)))
  | some b => if bar = 2 && off < 0x40000 && windowWaits s (.link link) then none else some (s.barWrite link bar off b)
def execHostWindowAccess (place : HostBar) (off len : Nat) (data : Option (List Byte)) (s : State) :=
  happens (if 2 ≤ place.link then none else s.hostAccess place.link place.bar off len data)
/-- Whether a peer port is trained. -/
def portUp (s : State) (port : Nat) : Bool := (tget s.dev.ppstat port 0).getLsbD 0
def execPeerWindowAccess (port off len : Nat) (data : Option (List Byte)) (s : State) :=
  happens (if 8 ≤ port || !portUp s port then none else (s.window (.port port) off len data).map (fun r => match r.2 with
    | .data bytes => r.1.emit (.peerReply port off bytes)
    | .taken => r.1
    | .unsupported => r.1.emit (.peerUnsupported port off)))

/-! ### Peer ports (18 R419) -/

def execPeerLinkUp (port : Nat) (serial : BitVec 32) (s : State) :=
  happens (whenever (decide (port < 8))
    (s.modDev (fun d => { d with ppstat := tput d.ppstat port (serial ++ (1 : BitVec 32)) })))
/-- The accesses of a port that are in flight: message, thread, operation, address. -/
def portFlights (s : State) (port : Nat) : List (Nat × Nat × Nat × Word) :=
  s.msgs.filterMap (fun m => match m.payload with
    | .access t op => (match s.opOf t op with
      | some (_, o) => if selector o.va == 0xF8 && va56 o.va / 2 ^ 53 == port then some (m.id, t, op, o.va) else none
      | none => none)
    | _ => none)
def execPeerLinkLoss (port : Nat) (s : State) :=
  let s1 := s.modDev (fun d => { d with ppstat := tmod d.ppstat port 0 (fun w => w &&& ~~~1) })
  happens (whenever (decide (port < 8))
    ((portFlights s port).foldl (fun s x => (s.dropMsg x.1).takeReply x.2.1 x.2.2.1 (.refuse .machine x.2.2.2)) s1))

/-! ### Archive drives (18 R420, R421, 11 R279 to R281) -/

/-- The page of a folio read: restored if it passes its checks. -/
def State.folioRead (s : State) (c : Nat) (e : EngOp) (folio : List Byte) : State :=
  if e.failed.isSome || e.revoked then s
  else if !folioOk folio (if e.esize == 1 then some e.c.bits else none) then s.failEng c e.id .formatMismatch
  else
    let r := s.restorePage c e.id (capCursor e.a.bits) folio
    match r.2 with | some f => r.1.failEng c e.id f | none => r.1
/-- What a drive writes as it ends a command: the blocks read, in the staging area, and its entry in the completion queue, whose head
the engine then moves on and reports at the doorbell (18 R420, R421). -/
def State.driveWrites (s : State) (e : EngOp) (dword : BitVec 32) (data : List Byte) : State :=
  let q := tget s.dev.arcq e.drive ArcQueue.reset
  let depth := max 1 (q.cfg.extractLsb' 10 11).toNat
  let head := (q.head + 1) % depth
  let s := s.putSpan (q.stage + BitVec.ofNat 64 (4096 * (e.stage + e.progress / 2))) data
  let s := s.putSpan (q.cqaddr + BitVec.ofNat 64 (16 * q.head)) (leBytes 12 (Config.driveDwords s.draws).toNat ++ leBytes 4 dword.toNat)
  let s := { s with draws := s.draws + 1 }
  let s := s.modDev (fun d => { d with arcq := tput d.arcq e.drive { q with head := head, phase := if head = 0 then !q.phase else q.phase } })
  s.emit (.hostWrite (q.cfg.extractLsb' 1 1).toNat q.cqdb.toNat (leBytes 4 head))
/-- A command that ended without error: the header block of an ARCIN names the blocks that follow, and its last block ends it. -/
def State.commandDone (s : State) (c : Nat) (e : EngOp) : State :=
  let q := tget s.dev.arcq e.drive ArcQueue.reset
  let va := q.stage + BitVec.ofNat 64 (4096 * e.stage)
  let head := spanBytes s va 4096
  let blocks := folioBlocks (64 + folioField head 40 4)
  if e.kind != .arcin then s.modEng c e.id (fun x => { x with answered := true })
  else if e.progress == 1 && headerOk head && decide (1 < blocks) then s.modEng c e.id (fun x => { x with progress := 2, blocks := blocks })
  else if e.progress == 1 && !headerOk head then
    (s.failEng c e.id .formatMismatch).modEng c e.id (fun x => { x with answered := true })
  else (s.folioRead c e (spanBytes s va (4096 * (if e.progress == 1 then 1 else e.blocks)))).modEng c e.id (fun x => { x with answered := true })
/-- A command's end at its drive: status bits [31:17] of its entry's dword 3, whose phase and identifier are the command's, and the
blocks that a read returned. -/
def State.driveAnswer (s : State) (c : Nat) (e : EngOp) (status : BitVec 32) (data : List Byte) : State :=
  let q := tget s.dev.arcq e.drive ArcQueue.reset
  let dword : BitVec 32 := status.extractLsb' 17 15 ++ BitVec.ofBool q.phase ++ BitVec.ofNat 16 e.stage
  let bad := status.extractLsb' 17 15 != 0
  let count := if e.progress == 1 then 1 else e.blocks - 1
  let read := if bad || e.kind != .arcin then [] else data.take (4096 * count) ++ List.replicate (4096 * count - data.length) 0
  let s := s.driveWrites e dword read
  let s := if bad then ((s.driveFail e.drive dword).failEng c e.id .machine).modEng c e.id (fun x => { x with answered := true })
    else if e.failed.isSome || e.revoked then s.modEng c e.id (fun x => { x with answered := true })
    else s.commandDone c e
  s.driveOut e.drive false
def execArchiveDriveCompletion (core id : Nat) (status : BitVec 32) (folio : List Byte) (s : State) :=
  happens (match (s.core core).engOp (BitVec.ofNat 16 id) with
    | some e => whenever e.outstanding (s.driveAnswer core e status folio)
    | none => none)
/-- Cycles in one second. -/
def secondCycles : Nat := 1500000000
def execArchiveTimeout (core id : Nat) (s : State) :=
  happens (match (s.core core).engOp (BitVec.ofNat 16 id) with
    | some e =>
      let n := e.drive
      let last := (tget s.dev.arcq n ArcQueue.reset).st.extractLsb' 32 32
      whenever (e.outstanding && decide (e.since + secondCycles ≤ s.cycle))
        ((((s.failEng core e.id .machine).modEng core e.id (fun x => { x with answered := true })).driveFail n last).driveOut n false)
    | none => none)

/-! ### Power (18 R422, R423) -/

/-- Whether a started thread or an engine operation is anywhere on the device. -/
def deviceIdle (s : State) : Bool :=
  s.threads.isEmpty && s.cores.all (fun x => x.2.engine.isEmpty && x.2.arrivals.isEmpty)
  && s.stations.all (fun x => x.2.store.isEmpty)
  && (packedTasks s).isEmpty
def execD3hotEntry (s : State) :=
  happens (whenever (deviceIdle s) (s.modDev (fun d => { d with devstat := d.devstat ||| 4 })))
def execD3hotExit (s : State) := happens (some (s.modDev (fun d => { d with devstat := d.devstat &&& ~~~4 })))
def execPowerLimit (watts : Nat) (s : State) :=
  happens (whenever (decide (s.dev.pwrlim.toNat < watts))
    ((s.modDev (fun d => { d with throttled := true })).signal 122 0))
def execPowerBelowLimit (watts : Nat) (s : State) :=
  happens (whenever (decide (watts ≤ s.dev.pwrlim.toNat)) (s.modDev (fun d => { d with throttled := false })))

/-! ### Trust (18 R425, R426) -/

def execAttgo (s : State) := happens (some (mgmtWrite s 0x6080 1))
/-- REPORT: nonce, digest, DEVID, TBNOW 0 and the count, bytes 0 first. -/
def reportOf (s : State) : BitVec 1024 :=
  (0 : BitVec 64) ++ (s.dev.trust.count + 1) ++ BitVec.ofNat 64 (s.tsAt 2048) ++ devid ++ Config.firmwareDigest ++ s.dev.trust.nonce
def execAttestReady (s : State) :=
  let r := reportOf s
  happens (whenever (s.dev.trust.busy == 1) (s.modDev (fun d => { d with trust :=
    { d.trust with busy := 2, report := r, sig := signReport r, count := d.trust.count + 1 } })))
def execNonceWrite (off : Nat) (v : Word) (s : State) :=
  happens (whenever (decide (0x6060 ≤ off) && decide (off < 0x6080)) (mgmtWrite s off v))

/-! ### Management writes (18 R413) -/

/-- The kinds of management register that have an event of their own. -/
inductive MgmtClass where
  | counter | capcfg | inqcfg | area | window | pmap | hwin | arqcfg | pwrlim | lane | trust | plain
  deriving DecidableEq, Repr
/-- The kind of a register of a core or home block. -/
def blockClass (o : Nat) (counters : Nat) : MgmtClass :=
  if 0x100 ≤ o && o < 0x100 + 8 * counters then .counter
  else if 0x1000 ≤ o && o < 0x1800 && o % 0x200 == 0 then .capcfg else .plain
/-- The kind of the register at an offset. -/
def mgmtClass (off : Nat) : MgmtClass :=
  if off < 0x10000 then
    if 0x408 ≤ off && off < 0x480 then .pmap
    else if 0x800 ≤ off && off < 0xC00 then .window
    else if off == 0x1000 then .pwrlim
    else if off == 0x3000 then .hwin
    else if 0x5000 ≤ off && off < 0x5400 && off % 0x40 == 0 then .arqcfg
    else if 0x6060 ≤ off && off < 0x6088 then .trust else .plain
  else if off < 0x11000 then (if off % 0x40 == 0 then .inqcfg else .plain)
  else if 0x1000000 ≤ off && off < 0x2000000 then blockClass (off % 0x4000) 6
  else if 0x2000000 ≤ off && off < 0x2100000 then
    (if off % 0x4000 < 16 then .area else if 0x100 ≤ off % 0x4000 && off % 0x4000 < 0x118 then .counter else .plain)
  else if 0x3000000 ≤ off && off < 0x4000000 then (if off % 0x4000 == 0 then .area else blockClass (off % 0x4000) 9)
  else if 0x7000000 ≤ off && off < 0x7100000 then
    (if 0x100 ≤ off % 0x10000 && off % 0x10000 < 0x8000 then .lane else .plain)
  else .plain
/-- A write of management space by the host, where it is of the given kind. -/
def mgmtEvent (k : MgmtClass) (off : Nat) (v : Word) (s : State) : Host.Outcome State Fault Refusal :=
  happens (whenever (mgmtClass off == k && decide (off < 2 ^ 27)) (mgmtWrite s off v))
def execCounterClear (off : Nat) (s : State) := mgmtEvent .counter off 0 s
def execCaptureSnap (off : Nat) (v : Word) (s : State) := mgmtEvent .capcfg off (v ||| 2) s
def execCaptureEnable (off : Nat) (v : Word) (s : State) := mgmtEvent .capcfg off (v ||| 1) s
def execInqcfgWrite (queue : Nat) (v : Word) (s : State) := mgmtEvent .inqcfg (0x10000 + 0x40 * queue) v s
def execAreaRegisterWrite (off : Nat) (v : Word) (s : State) := mgmtEvent .area off v s
def execFormatWindowWrite (off : Nat) (v : Word) (s : State) := mgmtEvent .window off v s
def execPmapWrite (off : Nat) (v : Word) (s : State) := mgmtEvent .pmap off v s
def execHwinWrite (v : Word) (s : State) := mgmtEvent .hwin 0x3000 v s
def execArqcfgWrite (drive : Nat) (v : Word) (s : State) := mgmtEvent .arqcfg (0x5000 + 0x40 * drive) v s
def execPwrlimWrite (v : Word) (s : State) := mgmtEvent .pwrlim 0x1000 v s
def execLanecrcClear (stack lane : Nat) (s : State) :=
  happens (whenever (decide (stack < 16) && decide (lane < laneCount))
    (mgmtWrite s (0x7000000 + 0x10000 * stack + 0x100 + 8 * lane) 0))
def execMgmtRegisterWrite (off : Nat) (v : Word) (s : State) :=
  happens (whenever (decide (off < 2 ^ 27)) (mgmtWrite s off v))

/-! ### Periodic samples (17 R408) -/

/-- A sample of one channel, where it is enabled for a source. -/
def sampleChannel (caps : Table Capture) (chan n source v : Nat) : Table Capture :=
  caps.map (fun x => (x.1, if x.1 == chan then x.2.take n source v else x.2))
/-- Whether a channel samples a source. -/
def channelOn (caps : Table Capture) (chan source : Nat) : Bool :=
  match tfind caps chan with | some x => x.enable && x.source.toNat == source | none => false
def execCapturePeriodicSample (home : Bool) (place chan : Nat) (s : State) :=
  happens (if home then
      let k := s.home place
      whenever (channelOn k.captures chan 10)
        (s.modHome place (fun k => { k with captures := sampleChannel k.captures chan s.cycle 10 k.waits.length }))
    else
      let k := s.core place
      whenever (channelOn k.captures chan 5)
        (s.modCore place (fun k => { k with captures := sampleChannel k.captures chan s.cycle 5 k.engine.length })))

end Sys2Proof.Machine
end

