-- ==== Sys2Proof/Machine/Choices.lean ====
section
/-!
DEFINITION. The list of events that may come next when nothing stands in the agenda (log 1).
-/

namespace Sys2Proof.Machine

/-- What happens, unless it had to read a stalled bank or bytes that a conversion still raises: then something else (10 R247, R250,
R252; log 90). -/
def orStall (o other : Host.Outcome State Fault Refusal) : Host.Outcome State Fault Refusal :=
  match o with | .next s => if s.stalled then other else o | _ => o
/-- Events an operation of thread t may meet. -/
def opEvents (t : Nat) (o : Op) : List Instr :=
  [.resultArrival t o.id, .postedAck t o.id, .homeRefusal t o.id, .homeAcknowledgement t o.id, .macldRowArrival t o.id]
/-- Events of one thread. -/
def threadEvents (x : Nat × Thread) : List Instr :=
  [.threadTurn x.1, .trapEntry x.1, .plbFill x.1, .waitResend x.1, .parkResume x.1, .swapOut x.1, .sleepExpiry x.1,
   .budgetTrap x.1]
  ++ (x.2.ops.map (opEvents x.1)).flatten
/-- The event number of a line: view lines stand above 2^60. -/
def lineNumber (x : LineKey) : Nat := if x.view then 2 ^ 60 + x.line else x.line
/-- Fills for the lines a message waits for, with the errors its check code meets (log 7). -/
def fillEvents (s : State) (m : Msg) : List Instr :=
  if m.needsLines && s.inOrder m then
    (missingLines s m.at m).map (fun x => Instr.hbmFill x.home (lineNumber x) (Config.eccErrors s.draws)) else []
/-- Events of one message. -/
def msgEvents (m : Msg) : List Instr :=
  [.loopInsertion m.id, .slotReservation m.id, .falloutCapture m.id]
  ++ (match m.payload with
    | .access .. | .write .. | .engRead .. | .engWrite .. | .window .. => [.homeAccess m.id, .homeWalk m.id]
    | .register .. => [.registration m.id]
    | .probe .. => [.probe m.id]
    | .echo .. => [.probeEcho m.id]
    | .wback .. => [.writeBack m.id, .homeWalk m.id]
    | .pull .. => [.pull m.id]
    | .pullReply .. => [.pullReply m.id]
    | .wake .. => [.waitRecordDelivery m.id]
    | .tick .. => [.tickMessage m.id]
    | .travel _ => [.travelArrival m.id]
    | .stealReply _ => [.stealReply m.id])
/-- Events of one core. -/
def coreEvents (x : Nat × Core) : List Instr :=
  [.engineStart x.1, .matrixCompletion x.1, .rowHandlerDispatch x.1 64, .rowHandlerDispatch x.1 65, .handlerOverrun x.1 64,
   .handlerOverrun x.1 65, .repartComplete x.1]
  ++ (x.2.captures.map (fun c => Instr.capturePeriodicSample false x.1 c.1))
  ++ (x.2.engine.map (fun e => [Instr.engineCompletion x.1 e.id.toNat, Instr.archiveTimeout x.1 e.id.toNat])).flatten
  ++ [.linkDelivery x.1 .n, .linkDelivery x.1 .e, .linkDelivery x.1 .s, .linkDelivery x.1 .w]
  ++ (List.range (slotCount x.2.partn)).map (fun i => Instr.slotOffer x.1 i)
  ++ (match x.2.crew with
    | some _ => (List.range (slotCount x.2.partn)).map (fun i => Instr.crewMemberStart x.1 i)
    | none => [])
/-- Events of one home. -/
def homeEvents (x : Nat × Home) : List Instr :=
  [.wayconvCompletion x.1, .liveShiftDone x.1]
  ++ (List.range 16).map (fun b => Instr.hbmRefresh x.1 b)
  ++ (x.2.captures.map (fun c => Instr.capturePeriodicSample true x.1 c.1))
  ++ (x.2.wbuf.map (fun b => Instr.releaseStoreWritten x.1 b.sector))
  ++ (x.2.backoff.map (fun b => Instr.alertBackOffEnd x.1 b.1))
  ++ (x.2.work.map (fun w => if w.bind then Instr.mbindRewrite x.1 w.dom else Instr.munbindHome x.1 w.dom))
/-- Events of one bound mark domain: ticks of a timed one, visits of the sweep. -/
def markEvents (s : State) (x : Nat × MarkDomain) : List Instr :=
  if !x.2.bound then []
  else (homesOf s x.2).map (fun h => Instr.timedTick h x.1)
    ++ (List.range x.2.cells).map (fun c => Instr.coolingSweep (cellHome s x.2 c) x.1 c)
/-- Events of one station: its ready set, its store, its donation, the slots of its cores. -/
def stationEvents (x : Nat × Station) : List Instr :=
  ((x.2.heap ++ x.2.overflow).map (fun e => Instr.stagingDone x.1 e.taskid))
  ++ (x.2.store.map (fun e => Instr.swappedWake x.1 e.1))
  ++ (List.range 16).flatMap (fun j => (List.range 64).map (fun i => Instr.slotOffer (coreAt x.1 j) i))
  ++ [.stealRequest x.1]
/-- Live shifts that lanes with errors may start. -/
def stackEvents (x : Nat × Stack) : List Instr := x.2.lanecrc.map (fun l => Instr.liveShift x.1 l.1)
/-- What may come next when the agenda names nothing: the events of the device's own parts. Inputs from outside stand in
the agenda only. -/
def candidates (s : State) : List Instr :=
  (s.threads.map threadEvents).flatten
  ++ (s.msgs.map msgEvents).flatten
  ++ (s.cores.map coreEvents).flatten ++ (s.homes.map homeEvents).flatten ++ (s.stations.map stationEvents).flatten
  ++ (s.msgs.map (fillEvents s)).flatten ++ (s.dev.marks.map (markEvents s)).flatten
  ++ (s.dev.hbm.map stackEvents).flatten
  ++ s.gangs.map (fun g => if g.stopped then Instr.gangLoad g.part else Instr.gangStop g.part)
  ++ (if s.dev.trust.busy == 1 then [.attestReady] else [])

end Sys2Proof.Machine
end

