-- ==== Sys2Proof/Machine/Capability.lean ====
section
/-!
DEFINITION. The capability family (06 R136 to R140).
-/

namespace Sys2Proof.Machine

/-- A result of the family: a push leaves the tag behind (05 R99). -/
def finishCap (d : Opn) (v : Val) (s : State) : Except Stop State :=
  finish s.cur d (if 257 ≤ d.toNat then ⟨v.bits, false⟩ else v) s
/-- The trap of a member: its cause address is 0. -/
def capTrap (c : Code) : Except Stop State := .error (.trap c 0)
/-- A tagged source of kind 1 to 15 of a member that changes it (06 R136). -/
def isSealedCap (v : Val) : Bool := v.tag && capKind v.bits != 0

def execCgeta (o : UnOps) (s : State) := issue (.cgeta o) s (unEffect o id)
def execCgetb (o : UnOps) (s : State) :=
  issue (.cgetb o) s (fun v _ s => finish s.cur o.d (Val.data (ofInt 128 (capBase v.a.bits))) s)
def execCgett (o : UnOps) (s : State) :=
  issue (.cgett o) s (fun v _ s => finish s.cur o.d (Val.data (ofInt 128 (capTop v.a.bits))) s)
def execCgetp (o : UnOps) (s : State) :=
  issue (.cgetp o) s (fun v _ s => finish s.cur o.d (Val.ofWord (BitVec.ofNat 64
    (v.a.tag.toNat * 2 ^ 16 + capKind v.a.bits * 2 ^ 12 + (capPerms v.a.bits).toNat))) s)
/-- Effect of a cursor move (06 R137). -/
def cursorEffect (d : Opn) (new : Vals → Word) : Effect :=
  fun v _ s => if isSealedCap v.a then capTrap .sealed else finishCap d (capMove v.a (new v)) s
def execCseta (o : BinOps) (s : State) := issue (.cseta o) s (cursorEffect o.d (fun v => v.b.lo))
def execCinc (o : IntOps) (s : State) :=
  issue (.cinc o) s (cursorEffect o.d (fun v => capCursor v.a.bits + srcWord true o.b v.b))
/-- CSETB (06 R138): the new value or the fault. -/
def csetbVal (v : Val) (len : Nat) : Except Code Val :=
  let nb := (capCursor v.bits).toNat
  let e := capExp len
  let q := capMake (capKind v.bits) (capPerms v.bits) e 0 (len / 2 ^ e : Nat) (capCursor v.bits)
  if !v.tag then .ok ⟨q, false⟩
  else if capKind v.bits != 0 then .error .sealed
  else if (nb : Int) < capBase v.bits || capTop v.bits < ((nb + len : Nat) : Int) then .error .bounds
  else if nb % 2 ^ e != 0 || (nb + len) % 2 ^ e != 0 then .error .boundsInexact
  else .ok ⟨q, true⟩
def execCsetb (o : IntOps) (s : State) :=
  issue (.csetb o) s (fun v _ s =>
    match csetbVal v.a (srcWord false o.b v.b).toNat with
    | .ok x => finishCap o.d x s
    | .error c => capTrap c)
def execCandp (o : IntOps) (s : State) :=
  issue (.candp o) s (fun v _ s =>
    if isSealedCap v.a then capTrap .sealed
    else finishCap o.d ⟨capWithPerms v.a.bits (capPerms v.a.bits &&& (srcWord false o.b v.b).setWidth 12), v.a.tag⟩ s)
/-- The checks of CSEAL and CUNSEAL (06 R139). -/
def sealCheck (a b : Val) (kind : Nat) (need : BitVec 12) (entry : Bool) : Option Code :=
  if !a.tag then some .tag
  else if capKind a.bits != kind then some .sealed
  else if !b.tag then some .tag
  else if capKind b.bits != 0 then some .sealed
  else if !grants (capPerms b.bits) need || (entry && !grants (capPerms a.bits) permX) then some .perm
  else if capBase a.bits < capBase b.bits || capTop b.bits < capTop a.bits then some .bounds
  else none
def execCseal (o : BinOps) (entry : Bool) (s : State) :=
  issue (.cseal o entry) s (fun v _ s =>
    match sealCheck v.a v.b 0 permSE entry with
    | some c => capTrap c
    | none => finishCap o.d ⟨capWithKind v.a.bits (if entry then 1 else 2), true⟩ s)
def execCunseal (o : BinOps) (s : State) :=
  issue (.cunseal o) s (fun v _ s =>
    match sealCheck v.a v.b 2 permUS false with
    | some c => capTrap c
    | none => finishCap o.d ⟨capWithKind v.a.bits 0, true⟩ s)
/-- CTEST (06 R140). -/
def ctestWord (v : Val) : Word :=
  let q := v.bits
  let cur : Int := (capCursor q).toNat
  let k := capKind q
  let bit (c : Bool) (n : Nat) : Nat := if v.tag && c then n else 0
  BitVec.ofNat 64 (bit true 1 + bit (k == 0) 2 + bit (decide (capBase q ≤ cur) && decide (cur < capTop q)) 4
    + bit (k == 1) 8 + bit (k == 2) 16)
def execCtest (o : UnOps) (s : State) :=
  issue (.ctest o) s (fun v _ s => finish s.cur o.d (Val.ofWord (ctestWord v.a)) s)
def execCclrt (o : UnOps) (s : State) :=
  issue (.cclrt o) s (fun v _ s => finish s.cur o.d ⟨v.a.bits, false⟩ s)
/-- Whether a lies within b (06 R140). -/
def capWithin (a b : Val) : Bool :=
  a.tag && b.tag && capKind a.bits == capKind b.bits && decide (capBase b.bits ≤ capBase a.bits)
  && decide (capTop a.bits ≤ capTop b.bits) && grants (capPerms b.bits) (capPerms a.bits)
def execCsub (o : BinOps) (s : State) :=
  issue (.csub o) s (fun v _ s => finish s.cur o.d (Val.ofWord (bitWord (capWithin v.a v.b))) s)

end Sys2Proof.Machine
end

