-- ==== Sys2Proof/Machine/Control.lean ====
section
/-!
DEFINITION. The control family (06 R132 to R135, 03 R66).
-/

namespace Sys2Proof.Machine

/-- The check of a target against boundaries (03 R66): none, or the fault. DESIGN CHOICE (log 78): where the bytes of the
target's block cannot be read, so that no boundary can be found, no check of R66 fails: the transfer takes effect and the
fault is that of the target's own fetch. -/
def targetCheck (s : State) (t : Nat) (th : Thread) (a : Word) : Option Code :=
  match blockAt s t th a with
  | .error _ => none
  | .ok blk => match boundaryAt blk 32 0 false (a.toNat % 32) with
    | none => some .misalignedTarget
    | some true => some .orphanPrefix
    | some false => none
/-- The checks of a PC-relative transfer (06 R134 steps 2 and 3). -/
def relCheck (s : State) (t : Nat) (th : Thread) (a : Int) : Option Code :=
  if a < capBase th.pcc.bits || capTop th.pcc.bits ≤ a then some .bounds
  else targetCheck s t th (ofInt 64 a)
/-- The target of a signed offset in 4-byte units from the control word's own address (03 R66), as an unbounded number
(00 R12). -/
def target (s : State) (off : BitVec w) : Int := s.unit.iaddr.toNat + 4 * off.toInt
/-- A transfer to a checked PC-relative target, after `k` has written what the member writes (06 R135). DESIGN CHOICE (log 88):
the 64-bit cause address of a target below 0 or above 2^64 − 1 holds its low 64 bits. -/
def jumpRel (s : State) (th : Thread) (a : Int) (k : State → State) : Except Stop State :=
  match relCheck s s.cur th a with
  | some c => .error (.trap c (ofInt 64 a))
  | none => .ok (k (s.modThread s.cur (fun x => { x with pcc := (th.setPc (ofInt 64 a).toNat).pcc })))
/-- Effect of a conditional transfer. -/
def branchEffect (off : BitVec w) (cond : Word → Word → Bool) : Effect :=
  fun v th s => if cond v.a.lo v.b.lo then jumpRel s th (target s off) id else .ok s

def execBr (off : BitVec 16) (s : State) := issue (.br off) s (branchEffect off (fun _ _ => true))
def execBeq (a b : Opn) (off : BitVec 32) (s : State) := issue (.beq a b off) s (branchEffect off (fun x y => x == y))
def execBne (a b : Opn) (off : BitVec 32) (s : State) := issue (.bne a b off) s (branchEffect off (fun x y => x != y))
def execBlt (a b : Opn) (off : BitVec 32) (s : State) := issue (.blt a b off) s (branchEffect off (fun x y => x.slt y))
def execBge (a b : Opn) (off : BitVec 32) (s : State) := issue (.bge a b off) s (branchEffect off (fun x y => y.sle x))
def execBltu (a b : Opn) (off : BitVec 32) (s : State) := issue (.bltu a b off) s (branchEffect off (fun x y => x.ult y))
def execBgeu (a b : Opn) (off : BitVec 32) (s : State) := issue (.bgeu a b off) s (branchEffect off (fun x y => y.ule x))
def execBz (a : Opn) (off : BitVec 16) (s : State) := issue (.bz a off) s (branchEffect off (fun x _ => x == 0))
def execBnz (a : Opn) (off : BitVec 16) (s : State) := issue (.bnz a off) s (branchEffect off (fun x _ => x != 0))
/-- The link of a call: PCC with its cursor at the next unit, of the given kind, tagged as R105 leaves it (06 R135). -/
def linkVal (s : State) (th : Thread) (kind : Nat) : Val :=
  let v := capMove ⟨th.pcc.bits, true⟩ s.unit.next
  ⟨capWithKind v.bits kind, v.tag⟩
def execCall (d : Opn) (off : BitVec 32) (s : State) :=
  issue (.call d off) s (fun _ th s => jumpRel s th (target s off) (fun r => r.putDest r.cur d (linkVal s th 0)))
/-- The checks of JMPC on its capability (06 R134 steps 1 and 3). -/
def jmpcCheck (s : State) (th : Thread) (v : Val) : Option Code :=
  let a := capCursor v.bits
  if !v.tag then some .tag
  else if 2 ≤ capKind v.bits then some .sealed
  else if !grants (capPerms v.bits) permX then some .perm
  else if (a.toNat : Int) < capBase v.bits || capTop v.bits < ((a.toNat + 4 : Nat) : Int) then some .bounds
  else if a.toNat % 4 != 0 then some .misalignedTarget
  else targetCheck s s.cur th a
def execJmpc (d a : Opn) (s : State) :=
  issue (.jmpc d a) s (fun v th s =>
    match jmpcCheck s th v.a with
    | some c => .error (.trap c (capCursor v.a.bits))
    | none =>
      let link := linkVal s th (if capKind v.a.bits == 1 then 1 else 0)
      .ok ((s.modThread s.cur (fun x => { x with pcc := ⟨capWithKind v.a.bits 0, true⟩ })).putDest s.cur d link))
def execLoop (d : Opn) (off : BitVec 16) (s : State) :=
  issue (.loop d off) s (fun v th s =>
    let t := v.d.lo - 1
    let put (s : State) : State := s.putDest s.cur d (Val.ofWord t)
    if t != 0 then jumpRel s th (target s off) put else .ok (put s))
def execNop (s : State) := issue .nop s (fun _ _ s => .ok s)

end Sys2Proof.Machine
end

