-- ==== Sys2Proof/Machine/Lanes.lean ====
section
/-!
DEFINITION. Lane slices (07 R171 to R174).
-/

namespace Sys2Proof.Machine

/-- Bytes of each lane's allotment (07 R171). -/
def allotment (th : Thread) : Nat := 256 * th.lanes.length
/-- The storage byte of an offset of lane l's allotment on core c. -/
def laneAt (th : Thread) (c l off : Nat) : Nat := laneLoc c l (th.lanes.getD (off / 256) 0) (off % 256)
/-- Offsets of the used lanes (07 R172). -/
def laneOffsets (th : Thread) (o : LaneOps) : List Nat :=
  let n := 4 * groupSize o.g
  match o.b with | .imm v => List.replicate n v.toNat | .reg b => elemsOf 32 n (th.groupBits b (groupSize o.g))
/-- The first failing lane's fault (07 R172). -/
def laneFault (size : Nat) : Nat → List Nat → Option (Code × Word)
  | _, [] => none
  | l, o :: rest =>
    let cause := BitVec.ofNat 64 (l * 1024 + o % 1024)
    if size < o + 4 then some (.bounds, cause)
    else if o % 4 != 0 then some (.align, cause)
    else laneFault size (l + 1) rest
/-- The checks, then the effect on lanes with their offsets. -/
def laneEffect (o : LaneOps) (k : List (Nat × Nat) → Thread → State → Except Stop State) : Effect := fun _ th s =>
  let os := laneOffsets th o
  match laneFault (allotment th) 0 os with
  | some (c, a) => .error (.trap c a)
  | none => k ((List.range os.length).zip os) th s
/-- The 32-bit word of a lane. -/
def laneWord (s : State) (th : Thread) (l off : Nat) : Nat := s.load (laneAt th (tcore s.cur) l off) 4
def execLld (o : LaneOps) (s : State) :=
  issue (.lld o) s (laneEffect o (fun ls th s =>
    let bits := joinElems 32 (ls.map (fun x => laneWord s th x.1 x.2))
    let g := groupSize o.g
    let vs := (List.range g).map (fun i => Val.data (BitVec.ofNat 128 (bits / 2 ^ (128 * i))))
    .ok (s.deferResult s.cur (destGroup o.d g) vs Flags.none o.la)))
/-- Words stored into lanes. -/
def storeLanes (th : Thread) (s : State) (l : List ((Nat × Nat) × Nat)) : State :=
  l.foldl (fun s x => s.store (laneAt th (tcore s.cur) x.1.1 x.1.2) 4 x.2) s
def execLst (o : LaneOps) (s : State) :=
  issue (.lst o) s (laneEffect o (fun ls th s =>
    .ok (storeLanes th s (ls.zip (elemsOf 32 ls.length (th.groupBits o.a (groupSize o.g)))))))
/-- LADD (07 R173). DESIGN CHOICE (log 77): with a NaN in both, the slice word's NaN is the one delivered. DESIGN CHOICE (log 98): lane
offsets that fail stop it before an abandoned operand does. -/
def execLadd (o : LaneOps) (s : State) :=
  issue (.ladd o) s (laneEffect o (fun ls th s =>
    let t := s.elemTypeOf (.ladd o)
    let xs := elemsOf 32 ls.length (th.groupBits o.a (groupSize o.g))
    let ys := ls.map (fun x => laneWord s th x.1 x.2)
    if isFloatType t && abandonedIn o.p t (xs ++ ys) then abandonTrap
    else
      let r := runElems ((ys.zip xs).map (fun z => arithElem .add t (roundMode o.p th) o.p.sat z.1 z.2)) th.prng
      .ok ((storeLanes th s (ls.zip r.1)).settleFloat s.cur r.2.1 r.2.2)))

end Sys2Proof.Machine
end

