-- ==== Sys2Proof/Machine/Dispatch.lean ====
section
/-!
DEFINITION. Dispatch: one arm per row of the opcode table, in the order of Instr.
-/

namespace Sys2Proof.Machine

/-- The meaning of an instruction of the thread whose turn it is, or of an event of the device. -/
def exec (i : Instr) (s : State) : Host.Outcome State Fault Refusal :=
  match i with
  | .add o => Sys2Proof.Machine.execAdd o s
  | .sub o => Sys2Proof.Machine.execSub o s
  | .mul o => Sys2Proof.Machine.execMul o s
  | .mulh o => Sys2Proof.Machine.execMulh o s
  | .mulhu o => Sys2Proof.Machine.execMulhu o s
  | .div o => Sys2Proof.Machine.execDiv o s
  | .divu o => Sys2Proof.Machine.execDivu o s
  | .rem o => Sys2Proof.Machine.execRem o s
  | .remu o => Sys2Proof.Machine.execRemu o s
  | .and o => Sys2Proof.Machine.execAnd o s
  | .or o => Sys2Proof.Machine.execOr o s
  | .xor o => Sys2Proof.Machine.execXor o s
  | .andn o => Sys2Proof.Machine.execAndn o s
  | .shl o => Sys2Proof.Machine.execShl o s
  | .shr o => Sys2Proof.Machine.execShr o s
  | .sra o => Sys2Proof.Machine.execSra o s
  | .rotr o => Sys2Proof.Machine.execRotr o s
  | .min o => Sys2Proof.Machine.execMin o s
  | .max o => Sys2Proof.Machine.execMax o s
  | .minu o => Sys2Proof.Machine.execMinu o s
  | .maxu o => Sys2Proof.Machine.execMaxu o s
  | .clz o => Sys2Proof.Machine.execClz o s
  | .ctz o => Sys2Proof.Machine.execCtz o s
  | .popc o => Sys2Proof.Machine.execPopc o s
  | .abs o => Sys2Proof.Machine.execAbs o s
  | .sext o => Sys2Proof.Machine.execSext o s
  | .zext o => Sys2Proof.Machine.execZext o s
  | .bfx o => Sys2Proof.Machine.execBfx o s
  | .bfi o => Sys2Proof.Machine.execBfi o s
  | .cmpeq o => Sys2Proof.Machine.execCmpeq o s
  | .cmpne o => Sys2Proof.Machine.execCmpne o s
  | .cmplt o => Sys2Proof.Machine.execCmplt o s
  | .cmpltu o => Sys2Proof.Machine.execCmpltu o s
  | .cmple o => Sys2Proof.Machine.execCmple o s
  | .cmpleu o => Sys2Proof.Machine.execCmpleu o s
  | .sel o => Sys2Proof.Machine.execSel o s
  | .mov o => Sys2Proof.Machine.execMov o s
  | .li p d zx imm => Sys2Proof.Machine.execLi p d zx imm s
  | .liw p d hi imm => Sys2Proof.Machine.execLiw p d hi imm s
  | .time p d => Sys2Proof.Machine.execTime p d s
  | .rand p d => Sys2Proof.Machine.execRand p d s
  | .br off => Sys2Proof.Machine.execBr off s
  | .beq a b off => Sys2Proof.Machine.execBeq a b off s
  | .bne a b off => Sys2Proof.Machine.execBne a b off s
  | .blt a b off => Sys2Proof.Machine.execBlt a b off s
  | .bge a b off => Sys2Proof.Machine.execBge a b off s
  | .bltu a b off => Sys2Proof.Machine.execBltu a b off s
  | .bgeu a b off => Sys2Proof.Machine.execBgeu a b off s
  | .bz a off => Sys2Proof.Machine.execBz a off s
  | .bnz a off => Sys2Proof.Machine.execBnz a off s
  | .call d off => Sys2Proof.Machine.execCall d off s
  | .jmpc d a => Sys2Proof.Machine.execJmpc d a s
  | .loop d off => Sys2Proof.Machine.execLoop d off s
  | .nop => Sys2Proof.Machine.execNop s
  | .cgeta o => Sys2Proof.Machine.execCgeta o s
  | .cgetb o => Sys2Proof.Machine.execCgetb o s
  | .cgett o => Sys2Proof.Machine.execCgett o s
  | .cgetp o => Sys2Proof.Machine.execCgetp o s
  | .cseta o => Sys2Proof.Machine.execCseta o s
  | .cinc o => Sys2Proof.Machine.execCinc o s
  | .csetb o => Sys2Proof.Machine.execCsetb o s
  | .candp o => Sys2Proof.Machine.execCandp o s
  | .cseal o entry => Sys2Proof.Machine.execCseal o entry s
  | .cunseal o => Sys2Proof.Machine.execCunseal o s
  | .ctest o => Sys2Proof.Machine.execCtest o s
  | .cclrt o => Sys2Proof.Machine.execCclrt o s
  | .csub o => Sys2Proof.Machine.execCsub o s
  | .vadd k b bs => Sys2Proof.Machine.execVadd k b bs s
  | .vsub k b bs => Sys2Proof.Machine.execVsub k b bs s
  | .vmul k b bs => Sys2Proof.Machine.execVmul k b bs s
  | .vfma k b c bs => Sys2Proof.Machine.execVfma k b c bs s
  | .vmin k b bs => Sys2Proof.Machine.execVmin k b bs s
  | .vmax k b bs => Sys2Proof.Machine.execVmax k b bs s
  | .vabs k => Sys2Proof.Machine.execVabs k s
  | .vneg k => Sys2Proof.Machine.execVneg k s
  | .vand k b bs => Sys2Proof.Machine.execVand k b bs s
  | .vor k b bs => Sys2Proof.Machine.execVor k b bs s
  | .vxor k b bs => Sys2Proof.Machine.execVxor k b bs s
  | .vshl k b => Sys2Proof.Machine.execVshl k b s
  | .vshr k b => Sys2Proof.Machine.execVshr k b s
  | .vcmp k b bs cond => Sys2Proof.Machine.execVcmp k b bs cond s
  | .vsel k b c => Sys2Proof.Machine.execVsel k b c s
  | .vcvt k c src mask scl => Sys2Proof.Machine.execVcvt k c src mask scl s
  | .vscale k b => Sys2Proof.Machine.execVscale k b s
  | .vred k op => Sys2Proof.Machine.execVred k op s
  | .vexp2 k la => Sys2Proof.Machine.execVexp2 k la s
  | .vrcp k la => Sys2Proof.Machine.execVrcp k la s
  | .vrsq k la => Sys2Proof.Machine.execVrsq k la s
  | .vperm k b => Sys2Proof.Machine.execVperm k b s
  | .vbcast k b => Sys2Proof.Machine.execVbcast k b s
  | .vpack k b => Sys2Proof.Machine.execVpack k b s
  | .vunpk k hi => Sys2Proof.Machine.execVunpk k hi s
  | .plnenc k => Sys2Proof.Machine.execPlnenc k s
  | .plndec k planes => Sys2Proof.Machine.execPlndec k planes s
  | .vverd k blk => Sys2Proof.Machine.execVverd k blk s
  | .lld o => Sys2Proof.Machine.execLld o s
  | .lst o => Sys2Proof.Machine.execLst o s
  | .ladd o => Sys2Proof.Machine.execLadd o s
  | .cqpack p d a dims => Sys2Proof.Machine.execCqpack p d a dims s
  | .cqext p d a k signed => Sys2Proof.Machine.execCqext p d a k signed s
  | .cqadd p d a b signed => Sys2Proof.Machine.execCqadd p d a b signed s
  | .cqsub p d a b signed => Sys2Proof.Machine.execCqsub p d a b signed s
  | .cqcmp o => Sys2Proof.Machine.execCqcmp o s
  | .cqinbox o => Sys2Proof.Machine.execCqinbox o s
  | .cqnext o => Sys2Proof.Machine.execCqnext o s
  | .cqsplit o => Sys2Proof.Machine.execCqsplit o s
  | .cqsetd p d a dims => Sys2Proof.Machine.execCqsetd p d a dims s
  | .cqtrunc p d a m up => Sys2Proof.Machine.execCqtrunc p d a m up s
  | .cqflags o => Sys2Proof.Machine.execCqflags o s
  | .ld m sz sx go => Sys2Proof.Machine.execLd m sz sx go s
  | .st m sz go => Sys2Proof.Machine.execSt m sz go s
  | .lda m sz => Sys2Proof.Machine.execLda m sz s
  | .stl m sz => Sys2Proof.Machine.execStl m sz s
  | .ldcap m => Sys2Proof.Machine.execLdcap m s
  | .stcap m => Sys2Proof.Machine.execStcap m s
  | .amo o => Sys2Proof.Machine.execAmo o s
  | .cas o => Sys2Proof.Machine.execCas o s
  | .wld m take => Sys2Proof.Machine.execWld m take s
  | .fill m => Sys2Proof.Machine.execFill m s
  | .empty m => Sys2Proof.Machine.execEmpty m s
  | .fest m => Sys2Proof.Machine.execFest m s
  | .waitne o => Sys2Proof.Machine.execWaitne o s
  | .fence p kind scope => Sys2Proof.Machine.execFence p kind scope s
  | .pref m home => Sys2Proof.Machine.execPref m home s
  | .zline m => Sys2Proof.Machine.execZline m s
  | .topkins o => Sys2Proof.Machine.execTopkins o s
  | .copy o => Sys2Proof.Machine.execCopy o s
  | .arcout o => Sys2Proof.Machine.execArcout o s
  | .arcin o => Sys2Proof.Machine.execArcin o s
  | .arcdrop o => Sys2Proof.Machine.execArcdrop o s
  | .engst o => Sys2Proof.Machine.execEngst o s
  | .mig m => Sys2Proof.Machine.execMig m s
  | .wayconv p d a ways => Sys2Proof.Machine.execWayconv p d a ways s
  | .mdep o => Sys2Proof.Machine.execMdep o s
  | .msense o => Sys2Proof.Machine.execMsense o s
  | .msamp o => Sys2Proof.Machine.execMsamp o s
  | .mread o => Sys2Proof.Machine.execMread o s
  | .merase o => Sys2Proof.Machine.execMerase o s
  | .mtick o => Sys2Proof.Machine.execMtick o s
  | .mbind o => Sys2Proof.Machine.execMbind o s
  | .munbind p d dom => Sys2Proof.Machine.execMunbind p d dom s
  | .mmaT32 o => Sys2Proof.Machine.execMmaT32 o s
  | .mmaT64 o => Sys2Proof.Machine.execMmaT64 o s
  | .mmaT128 o => Sys2Proof.Machine.execMmaT128 o s
  | .mmaW o => Sys2Proof.Machine.execMmaW o s
  | .mmaH o => Sys2Proof.Machine.execMmaH o s
  | .mmaQ o => Sys2Proof.Machine.execMmaQ o s
  | .mmaQ8 o => Sys2Proof.Machine.execMmaQ8 o s
  | .mmaT16 o => Sys2Proof.Machine.execMmaT16 o s
  | .smmaT32 o => Sys2Proof.Machine.execSmmaT32 o s
  | .smmaT64 o => Sys2Proof.Machine.execSmmaT64 o s
  | .smmaQ o => Sys2Proof.Machine.execSmmaQ o s
  | .macz p d rel => Sys2Proof.Machine.execMacz p d rel s
  | .macld o => Sys2Proof.Machine.execMacld o s
  | .macst o => Sys2Proof.Machine.execMacst o s
  | .mdrain p d a id => Sys2Proof.Machine.execMdrain p d a id s
  | .mhset p a b => Sys2Proof.Machine.execMhset p a b s
  | .hend => Sys2Proof.Machine.execHend s
  | .vbound o => Sys2Proof.Machine.execVbound o s
  | .spawn o c cl => Sys2Proof.Machine.execSpawn o c cl s
  | .yield o => Sys2Proof.Machine.execYield o s
  | .endTask o => Sys2Proof.Machine.execEndTask o s
  | .join o => Sys2Proof.Machine.execJoin o s
  | .leave o => Sys2Proof.Machine.execLeave o s
  | .gbar o => Sys2Proof.Machine.execGbar o s
  | .crew o n => Sys2Proof.Machine.execCrew o n s
  | .qstatSet o => Sys2Proof.Machine.execQstatSet o s
  | .qstatTask o => Sys2Proof.Machine.execQstatTask o s
  | .sleep o ns64 => Sys2Proof.Machine.execSleep o ns64 s
  | .trap imm => Sys2Proof.Machine.execTrap imm s
  | .rte a => Sys2Proof.Machine.execRte a s
  | .rds d n => Sys2Proof.Machine.execRds d n s
  | .wrs a n => Sys2Proof.Machine.execWrs a n s
  | .repart d split => Sys2Proof.Machine.execRepart d split s
  | .plbinv d a b scope => Sys2Proof.Machine.execPlbinv d a b scope s
  | .gang o => Sys2Proof.Machine.execGang o s
  | .dump d => Sys2Proof.Machine.execDump d s
  | .halt b => Sys2Proof.Machine.execHalt b s
  | .brk imm => Sys2Proof.Machine.execBrk imm s
  | .leaseAdd o => Sys2Proof.Machine.execLeaseAdd o s
  | .leaseDrop o => Sys2Proof.Machine.execLeaseDrop o s
  | .leaseUnmap o => Sys2Proof.Machine.execLeaseUnmap o s
  | .leaseUnmapForce o => Sys2Proof.Machine.execLeaseUnmapForce o s
  | .leaseDom o => Sys2Proof.Machine.execLeaseDom o s
  | .pgmove d a b => Sys2Proof.Machine.execPgmove d a b s
  | .threadTurn t => Sys2Proof.Machine.execThreadTurn t s
  | .budgetTrap t => Sys2Proof.Machine.execBudgetTrap t s
  | .trapEntry t => Sys2Proof.Machine.execTrapEntry t s
  | .resultArrival t op => Sys2Proof.Machine.execResultArrival t op s
  | .postedAck t op => Sys2Proof.Machine.execPostedAck t op s
  | .homeRefusal t op => Sys2Proof.Machine.execHomeRefusal t op s
  | .homeAcknowledgement t op => Sys2Proof.Machine.execHomeAcknowledgement t op s
  | .homeAccess m => Sys2Proof.Machine.execHomeAccess m s
  | .registration m => Sys2Proof.Machine.execRegistration m s
  | .probe m => Sys2Proof.Machine.execProbe m s
  | .probeEcho m => Sys2Proof.Machine.execProbeEcho m s
  | .pull m => Sys2Proof.Machine.execPull m s
  | .pullReply m => Sys2Proof.Machine.execPullReply m s
  | .writeBack m => Sys2Proof.Machine.execWriteBack m s
  | .releaseStoreWritten home sector => Sys2Proof.Machine.execReleaseStoreWritten home sector s
  | .hbmFill home line ecc => Sys2Proof.Machine.execHbmFill home line ecc s
  | .plbFill t => Sys2Proof.Machine.execPlbFill t s
  | .homeWalk m => Sys2Proof.Machine.execHomeWalk m s
  | .waitRecordDelivery m => Sys2Proof.Machine.execWaitRecordDelivery m s
  | .waitResend t => Sys2Proof.Machine.execWaitResend t s
  | .parkResume t => Sys2Proof.Machine.execParkResume t s
  | .swapOut t => Sys2Proof.Machine.execSwapOut t s
  | .swappedWake cluster entry => Sys2Proof.Machine.execSwappedWake cluster entry s
  | .sleepExpiry t => Sys2Proof.Machine.execSleepExpiry t s
  | .intakeRecord queue link off bytes => Sys2Proof.Machine.execIntakeRecord queue link off bytes s
  | .stagingDone cluster task => Sys2Proof.Machine.execStagingDone cluster task s
  | .slotOffer core slot => Sys2Proof.Machine.execSlotOffer core slot s
  | .crewMemberStart core slot => Sys2Proof.Machine.execCrewMemberStart core slot s
  | .travelArrival m => Sys2Proof.Machine.execTravelArrival m s
  | .stealRequest cluster => Sys2Proof.Machine.execStealRequest cluster s
  | .stealReply m => Sys2Proof.Machine.execStealReply m s
  | .engineStart core => Sys2Proof.Machine.execEngineStart core s
  | .engineCompletion core id => Sys2Proof.Machine.execEngineCompletion core id s
  | .matrixCompletion core => Sys2Proof.Machine.execMatrixCompletion core s
  | .macldRowArrival t op => Sys2Proof.Machine.execMacldRowArrival t op s
  | .rowHandlerDispatch core slot => Sys2Proof.Machine.execRowHandlerDispatch core slot s
  | .handlerOverrun core slot => Sys2Proof.Machine.execHandlerOverrun core slot s
  | .repartComplete core => Sys2Proof.Machine.execRepartComplete core s
  | .wayconvCompletion home => Sys2Proof.Machine.execWayconvCompletion home s
  | .timedTick home dom => Sys2Proof.Machine.execTimedTick home dom s
  | .tickMessage m => Sys2Proof.Machine.execTickMessage m s
  | .coolingSweep home dom cell => Sys2Proof.Machine.execCoolingSweep home dom cell s
  | .mbindRewrite home dom => Sys2Proof.Machine.execMbindRewrite home dom s
  | .munbindHome home dom => Sys2Proof.Machine.execMunbindHome home dom s
  | .gangStop part => Sys2Proof.Machine.execGangStop part s
  | .falloutCapture m => Sys2Proof.Machine.execFalloutCapture m s
  | .gangLoad part => Sys2Proof.Machine.execGangLoad part s
  | .linkDelivery core side => Sys2Proof.Machine.execLinkDelivery core side s
  | .loopInsertion m => Sys2Proof.Machine.execLoopInsertion m s
  | .slotReservation m => Sys2Proof.Machine.execSlotReservation m s
  | .hbmRefresh home bank => Sys2Proof.Machine.execHbmRefresh home bank s
  | .alertBackOffEnd home bank => Sys2Proof.Machine.execAlertBackOffEnd home bank s
  | .liveShift stack lane => Sys2Proof.Machine.execLiveShift stack lane s
  | .liveShiftDone home => Sys2Proof.Machine.execLiveShiftDone home s
  | .archiveTimeout core id => Sys2Proof.Machine.execArchiveTimeout core id s
  | .capturePeriodicSample home place chan => Sys2Proof.Machine.execCapturePeriodicSample home place chan s
  | .deviceReset => Sys2Proof.Machine.execDeviceReset s
  | .maintenanceReset => Sys2Proof.Machine.execMaintenanceReset s
  | .alertBackOff home bank => Sys2Proof.Machine.execAlertBackOff home bank s
  | .linkCrcError stack lane => Sys2Proof.Machine.execLinkCrcError stack lane s
  | .hostWindowAccess place off len data => Sys2Proof.Machine.execHostWindowAccess place off len data s
  | .peerWindowAccess port off len data => Sys2Proof.Machine.execPeerWindowAccess port off len data s
  | .peerLinkUp port serial => Sys2Proof.Machine.execPeerLinkUp port serial s
  | .peerLinkLoss port => Sys2Proof.Machine.execPeerLinkLoss port s
  | .archiveDriveCompletion core id status folio => Sys2Proof.Machine.execArchiveDriveCompletion core id status folio s
  | .d3hotEntry => Sys2Proof.Machine.execD3hotEntry s
  | .powerLimit watts => Sys2Proof.Machine.execPowerLimit watts s
  | .attgo => Sys2Proof.Machine.execAttgo s
  | .attestReady => Sys2Proof.Machine.execAttestReady s
  | .nonceWrite off v => Sys2Proof.Machine.execNonceWrite off v s
  | .counterClear off => Sys2Proof.Machine.execCounterClear off s
  | .captureSnap off v => Sys2Proof.Machine.execCaptureSnap off v s
  | .captureEnable off v => Sys2Proof.Machine.execCaptureEnable off v s
  | .inqcfgWrite queue v => Sys2Proof.Machine.execInqcfgWrite queue v s
  | .areaRegisterWrite off v => Sys2Proof.Machine.execAreaRegisterWrite off v s
  | .formatWindowWrite off v => Sys2Proof.Machine.execFormatWindowWrite off v s
  | .pmapWrite off v => Sys2Proof.Machine.execPmapWrite off v s
  | .hwinWrite v => Sys2Proof.Machine.execHwinWrite v s
  | .arqcfgWrite drive v => Sys2Proof.Machine.execArqcfgWrite drive v s
  | .pwrlimWrite v => Sys2Proof.Machine.execPwrlimWrite v s
  | .lanecrcClear stack lane => Sys2Proof.Machine.execLanecrcClear stack lane s
  | .mgmtRegisterWrite off v => Sys2Proof.Machine.execMgmtRegisterWrite off v s
  | .d3hotExit => Sys2Proof.Machine.execD3hotExit s
  | .powerBelowLimit watts => Sys2Proof.Machine.execPowerBelowLimit watts s

end Sys2Proof.Machine
end

