-- ==== Sys2Proof/Machine/Step.lean ====
section
/-!
DEFINITION. One step of the device: the fetched unit of the thread that holds the turn, else the next event.
-/

namespace Sys2Proof.Machine

/-- A turn: its page is looked up, the unit is fetched and decoded, and its instruction is executed; a decode fault traps (03 R67).
A turn that meets a stalled bank passes with nothing done (10 R250). -/
def stepTurn (s : State) (th : Thread) : Host.Outcome State Fault Refusal :=
  match s.fetchMiss s.cur th with
  | some s1 => .next s1
  | none =>
    let s0 := s.fetchFill s.cur th
    let f := fetchNext s0 s.cur th
    let s1 := { s0 with unit := f.unit }
    orStall (match f.instr with
      | .ok i => exec i s1
      | .error c => .next (({ s1 with issuing := false }).faultUnit s.cur th c f.unit.addr)) (.next { s with issuing := false })

/-- Whether an event can happen now. -/
def enabled (s : State) (i : Instr) : Bool := !s.silent i && match orStall (exec i s) (.refused .notEnabled) with | .refused _ => false | _ => true
/-- The event chosen when the agenda is empty (log 1). -/
def chosen (s : State) : Option Instr :=
  let l := (candidates s).filter (enabled s)
  l[Config.choice s.steps % (max 1 l.length)]?

/-- An event; one that a device whose firmware was refused does not respond to passes with nothing done (18 R424). -/
def stepEvent (s : State) (i : Instr) : Host.Outcome State Fault Refusal :=
  if s.silent i then .next s
  else orStall (exec i s) (.refused .notEnabled)

/-- One step (log 1, 2): time passes, then the turn in hand, else the head of the agenda, else a chosen event, else
nothing happens. -/
def step (s : State) : Host.Outcome State Fault Refusal :=
  let s1 := s.tickTime
  match s1.issuer with
  | some th => stepTurn s1 th
  | none =>
    match s1.agenda with
    | i :: rest => stepEvent { s1 with agenda := rest } i
    | [] =>
      match chosen s1 with
      | some i => stepEvent s1 i
      | none => .next s1

/-- s with an instruction of the given bits placed in core 0's scratchpad, and a task in slot 0 of core 0 whose turn it
is and whose PCC points there (log 11). -/
def State.withFetchWord (s : State) (nbits w : Nat) : State :=
  let bytes := w % 2 ^ nbits
  let s1 := s.store (spadLoc 0 0) 32 bytes
  let s2 := s1.modDev (fun d => { d with devstat := d.devstat &&& ~~~1 })
  { s2.setThread 0 Thread.blank with cur := 0, issuing := true }

end Sys2Proof.Machine
end

