-- ==== Sys2Proof/Safety.lean ====
section
/-!
DEFINITION. What counts as a safe run, and the terms in which the statements speak: a unit that issues, the values it reads,
the state its own effect begins in, results written, deferred or left as operations, and what stays as it was.
-/

namespace Sys2Proof

/-- A step that goes on. -/
def Safe (s : Machine.State) : Prop := ∃ t, Machine.step s = .next t

/-- n steps, each of which goes on. -/
def SafeFor : Nat → Machine.State → Prop
  | 0, _ => True
  | n + 1, s => ∃ t, Machine.step s = .next t ∧ SafeFor n t

namespace Machine

/-- The canonical form of memory (log 5). -/
abbrev Memory.wf (m : List Host.Cell) : Bool := memWf m

/-- Thread `th` holds the turn and its unit `i` issues: the checks of 03 R67 (steps 6 and 7), the fetch (06 R133), absent
links (05 R110), presence (05 R100) and room in links and queues (03 R52) stop nothing, and its predicate does not turn it
off (03 R57). A re-injected unit has its predicate's answer behind it (15 R372). -/
abbrev Runs (i : Instr) (s : State) (th : Thread) : Prop :=
  s.issuer = some th ∧ issueCheck s s.cur th i = none ∧ (s.unit.replay = none → predOff i th = false)

/-- The values a unit reads at its issue: registers, z, popped links, or the captured slots of a re-injected one. -/
abbrev State.vals (s : State) (th : Thread) (i : Instr) : Vals := (s.begin s.cur th i).1
/-- The state in which a unit's own effect begins: its turn charged, its pops made, PCC past it. -/
abbrev State.begun (s : State) (th : Thread) (i : Instr) : State := (s.begin s.cur th i).2

/-- Where the unit issues, its effect is to put a value to d and nothing else. -/
def Yields (i : Instr) (d : Opn) (f : Vals → Thread → State → Val) : Prop :=
  ∀ s th, Runs i s th → exec i s = .next ((s.begun th i).putDest s.cur d (f (s.vals th i) th (s.begun th i)))
/-- As Yields, for a 64-bit result: every data bit above it 0, the tag clear (06 R121). -/
def YieldsWord (i : Instr) (d : Opn) (f : Vals → Thread → State → Word) : Prop :=
  Yields i d (fun v th s => Val.ofWord (f v th s))
/-- Where the unit issues and `ok` holds of its values, it goes on to `f` of the state its effect begins in. -/
def Effects (i : Instr) (ok : Vals → Thread → State → Prop) (f : Vals → Thread → State → State) : Prop :=
  ∀ s th, Runs i s th → ok (s.vals th i) th (s.begun th i) →
    exec i s = .next (f (s.vals th i) th (s.begun th i))
/-- Where the unit issues and `ok` holds, it does not complete: it traps with a code and a cause address, and nothing it
read is consumed (15 R366, R367). -/
def Traps (i : Instr) (ok : Vals → Thread → State → Prop) (c : Code) (a : Vals → Thread → State → Word) : Prop :=
  ∀ s th, Runs i s th → ok (s.vals th i) th (s.begun th i) →
    exec i s = .next (({ s with issuing := false }).faultUnit s.cur th c (a (s.vals th i) th (s.begun th i)))

/-- A register of a thread of a state. -/
def State.regAt (s : State) (t k : Nat) : Option Reg := (s.thread t).map (fun th => th.reg k)
/-- Thread t holds an operation of which p is true. -/
def HasOp (s : State) (t : Nat) (p : Op → Prop) : Prop := ∃ th o, s.thread t = some th ∧ o ∈ th.ops ∧ p o

/-- Every byte of storage, FE bit, TAG bit and poison mark, and every owner field, is as before. -/
def SameStorage (s t : State) : Prop :=
  (∀ a, memByte t.mem a = memByte s.mem a) ∧ t.feEmpty = s.feEmpty ∧ t.tags = s.tags ∧ t.poison = s.poison ∧ t.owners = s.owners
/-- Every thread but one is as before. -/
def SameThreads (s t : State) (n : Nat) : Prop := ∀ m, m ≠ n → t.thread m = s.thread m
/-- The device outside threads, cores and storage is as before: homes, stations, messages, tables, the management registers,
GANGs, saved partitions, what was sent out, and the sequence of free values. -/
def SameDevice (s t : State) : Prop :=
  t.homes = s.homes ∧ t.stations = s.stations ∧ t.msgs = s.msgs ∧ t.fallout = s.fallout ∧ t.dev = s.dev ∧ t.gangs = s.gangs
  ∧ t.saved = s.saved ∧ t.loaded = s.loaded ∧ t.stalled = s.stalled ∧ t.out = s.out ∧ t.draws = s.draws ∧ t.cycle = s.cycle ∧ t.steps = s.steps ∧ t.agenda = s.agenda
/-- The per-thread registers other than general registers, PCC, TURNS, the flags of FPST and the generator are as before. -/
def SameStatus (a b : Thread) : Prop :=
  b.count = a.count ∧ b.sup = a.sup ∧ b.mode = a.mode ∧ b.crew = a.crew ∧ b.lead = a.lead ∧ b.drm = a.drm
  ∧ b.deadline = a.deadline ∧ b.taskid = a.taskid ∧ b.group = a.group ∧ b.trapcap = a.trapcap ∧ b.bankmask = a.bankmask
  ∧ b.domain = a.domain ∧ b.record = a.record ∧ b.edits = a.edits ∧ b.moves = a.moves ∧ b.trapActive = a.trapActive
  ∧ b.ranges = a.ranges ∧ b.lanes = a.lanes ∧ b.epoch = a.epoch ∧ b.written = a.written ∧ b.shed = a.shed

end Machine

end Sys2Proof
end

