-- ==== Sys2Proof/Certificates/Slice0/Obligations.lean ====
section
/-!
DEFINITION. The statements about the model, for the provers. Helpers stand beside the statements that use them.
-/

section

open Sys2Proof Sys2Proof.Machine

/-! ### Integer and scalar instructions (06) -/

namespace Sys2Proof.Machine

/-- An exact integer result as 64 bits: clamped to the signed range under sat, else wrapped (06 R124). -/
def clampWord (sat : Bool) (x : Int) : Word :=
  BitVec.ofInt 64 (if sat then max (-(2 : Int) ^ 63) (min ((2 : Int) ^ 63 - 1) x) else x)

/-- 1 or 0 by a test. -/
def truthWord (p : Prop) [Decidable p] : Word := if p then 1 else 0

end Sys2Proof.Machine

/-- ADD, SUB, MUL, MULH, MULHU, ABS: exact arithmetic, wrapped or clamped (06 R121 to R124). -/
def Obligations.IntegerArithmeticIsExact : Prop :=
  (∀ o, YieldsWord (.add o) o.d (fun v _ _ => clampWord o.p.sat (v.a.lo.toInt + (srcWord true o.b v.b).toInt))) ∧
  (∀ o, YieldsWord (.sub o) o.d (fun v _ _ => clampWord o.p.sat (v.a.lo.toInt - (srcWord true o.b v.b).toInt))) ∧
  (∀ o, YieldsWord (.mul o) o.d (fun v _ _ => clampWord o.p.sat (v.a.lo.toInt * (srcWord true o.b v.b).toInt))) ∧
  (∀ o, YieldsWord (.mulh o) o.d (fun v _ _ => BitVec.ofInt 64 (v.a.lo.toInt * (srcWord true o.b v.b).toInt / 2 ^ 64))) ∧
  (∀ o, YieldsWord (.mulhu o) o.d (fun v _ _ => BitVec.ofNat 64 (v.a.lo.toNat * (srcWord false o.b v.b).toNat / 2 ^ 64))) ∧
  (∀ o, YieldsWord (.abs o) o.d (fun v _ _ => clampWord o.p.sat (|v.a.lo.toInt|)))

namespace Sys2Proof.Machine

/-- A result that reaches its registers later: the operation of a long-latency instruction, done, with its destinations
absent until a RESULT_ARRIVAL delivers it (03 R61). -/
def Defers (i : Instr) (dests : List Opn) (la : BitVec 4) (f : Vals → Thread → State → List Val × Flags) : Prop :=
  Effects i (fun _ _ _ => True) (fun v th s => s.deferResult s.cur dests (f v th s).1 (f v th s).2 la)

end Sys2Proof.Machine

/-- DIV, DIVU, REM, REMU: truncating division; a zero divisor gives all ones and the dividend, and the quotient of the most
negative number by -1 wraps to itself (06 R125). -/
def Obligations.DivisionResults : Prop :=
  (∀ o, Defers (.div o) [o.d] o.la (fun v _ _ =>
    let a := v.a.lo; let b := srcWord true o.b v.b
    ([Val.ofWord (if b = 0 then BitVec.allOnes 64 else BitVec.ofInt 64 (a.toInt.tdiv b.toInt))], Flags.none))) ∧
  (∀ o, Defers (.divu o) [o.d] o.la (fun v _ _ =>
    let a := v.a.lo; let b := srcWord false o.b v.b
    ([Val.ofWord (if b = 0 then BitVec.allOnes 64 else BitVec.ofNat 64 (a.toNat / b.toNat))], Flags.none))) ∧
  (∀ o, Defers (.rem o) [o.d] o.la (fun v _ _ =>
    let a := v.a.lo; let b := srcWord true o.b v.b
    ([Val.ofWord (if b = 0 then a else BitVec.ofInt 64 (a.toInt.tmod b.toInt))], Flags.none))) ∧
  (∀ o, Defers (.remu o) [o.d] o.la (fun v _ _ =>
    let a := v.a.lo; let b := srcWord false o.b v.b
    ([Val.ofWord (if b = 0 then a else BitVec.ofNat 64 (a.toNat % b.toNat))], Flags.none)))

/-- Bits counted, moved and combined: AND, OR, XOR, ANDN, SHL, SHR, SRA, ROTR, CLZ, CTZ, POPC (06 R124, R126). A count of 64 or
more, read from all 64 bits, leaves 0 or the sign. -/
def Obligations.BitwiseAndShiftResults : Prop :=
  (∀ o, YieldsWord (.and o) o.d (fun v _ _ => v.a.lo &&& srcWord false o.b v.b)) ∧
  (∀ o, YieldsWord (.or o) o.d (fun v _ _ => v.a.lo ||| srcWord false o.b v.b)) ∧
  (∀ o, YieldsWord (.xor o) o.d (fun v _ _ => v.a.lo ^^^ srcWord false o.b v.b)) ∧
  (∀ o, YieldsWord (.andn o) o.d (fun v _ _ => v.a.lo &&& ~~~ srcWord false o.b v.b)) ∧
  (∀ o, YieldsWord (.shl o) o.d (fun v _ _ => BitVec.ofNat 64 (v.a.lo.toNat * 2 ^ (srcWord false o.b v.b).toNat))) ∧
  (∀ o, YieldsWord (.shr o) o.d (fun v _ _ => BitVec.ofNat 64 (v.a.lo.toNat / 2 ^ (srcWord false o.b v.b).toNat))) ∧
  (∀ o, YieldsWord (.sra o) o.d (fun v _ _ => BitVec.ofInt 64 (v.a.lo.toInt / 2 ^ (srcWord false o.b v.b).toNat))) ∧
  (∀ o, YieldsWord (.rotr o) o.d (fun v _ _ =>
    let n := (srcWord false o.b v.b).toNat % 64
    BitVec.ofNat 64 (v.a.lo.toNat / 2 ^ n + v.a.lo.toNat * 2 ^ (64 - n)))) ∧
  (∀ o, YieldsWord (.clz o) o.d (fun v _ _ => BitVec.ofNat 64 (64 - v.a.lo.toNat.size))) ∧
  (∀ o, YieldsWord (.ctz o) o.d (fun v _ _ =>
    BitVec.ofNat 64 ((List.range 64).takeWhile (fun i => !v.a.lo.getLsbD i)).length)) ∧
  (∀ o, YieldsWord (.popc o) o.d (fun v _ _ =>
    BitVec.ofNat 64 (Finset.univ.filter (fun i : Fin 64 => v.a.lo.getLsbD i = true)).card))

/-- SEXT, ZEXT, BFX, BFI: fields extended, extracted and inserted, the width b mod 64, 0 meaning 64; MIN, MAX, MINU, MAXU and the
comparisons: signed or unsigned order, a comparison giving 1 or 0 (06 R124, R127). -/
def Obligations.FieldAndOrderResults : Prop :=
  ((∀ o, YieldsWord (.zext o) o.d (fun v _ _ =>
    (v.a.lo.setWidth (((srcWord false o.b v.b).toNat + 63) % 64 + 1)).setWidth 64)) ∧
  (∀ o, YieldsWord (.sext o) o.d (fun v _ _ =>
    (v.a.lo.setWidth (((srcWord false o.b v.b).toNat + 63) % 64 + 1)).signExtend 64)) ∧
  (∀ o, YieldsWord (.bfx o) o.d (fun v _ _ =>
    let f := v.a.lo.extractLsb' o.pos.toNat (o.len.toNat + 1)
    if o.sx then f.signExtend 64 else f.setWidth 64)) ∧
  (∀ (o : BfiOps) (s : State) (th : Thread), Runs (.bfi o) s th → ∃ w : Word,
    (∀ i, i < 64 → w.getLsbD i =
      if o.pos.toNat ≤ i ∧ i < o.pos.toNat + o.len.toNat + 1 then (s.vals th (.bfi o)).b.lo.getLsbD (i - o.pos.toNat)
      else (s.vals th (.bfi o)).a.lo.getLsbD i) ∧
    exec (.bfi o) s = .next ((s.begun th (.bfi o)).putDest s.cur o.d (Val.ofWord w)))) ∧
  ((∀ o, YieldsWord (.min o) o.d (fun v _ _ => BitVec.ofInt 64 (min v.a.lo.toInt (srcWord true o.b v.b).toInt))) ∧
  (∀ o, YieldsWord (.max o) o.d (fun v _ _ => BitVec.ofInt 64 (max v.a.lo.toInt (srcWord true o.b v.b).toInt))) ∧
  (∀ o, YieldsWord (.minu o) o.d (fun v _ _ => BitVec.ofNat 64 (min v.a.lo.toNat (srcWord false o.b v.b).toNat))) ∧
  (∀ o, YieldsWord (.maxu o) o.d (fun v _ _ => BitVec.ofNat 64 (max v.a.lo.toNat (srcWord false o.b v.b).toNat))) ∧
  (∀ o, YieldsWord (.cmpeq o) o.d (fun v _ _ => truthWord (v.a.lo.toInt = (srcWord true o.b v.b).toInt))) ∧
  (∀ o, YieldsWord (.cmpne o) o.d (fun v _ _ => truthWord (v.a.lo.toInt ≠ (srcWord true o.b v.b).toInt))) ∧
  (∀ o, YieldsWord (.cmplt o) o.d (fun v _ _ => truthWord (v.a.lo.toInt < (srcWord true o.b v.b).toInt))) ∧
  (∀ o, YieldsWord (.cmpltu o) o.d (fun v _ _ => truthWord (v.a.lo.toNat < (srcWord false o.b v.b).toNat))) ∧
  (∀ o, YieldsWord (.cmple o) o.d (fun v _ _ => truthWord (v.a.lo.toInt ≤ (srcWord true o.b v.b).toInt))) ∧
  (∀ o, YieldsWord (.cmpleu o) o.d (fun v _ _ => truthWord (v.a.lo.toNat ≤ (srcWord false o.b v.b).toNat))))

/-- SEL, MOV, LI, LIW, TIME, RAND (06 R128 to R131): SEL tests all 128 data bits of c; MOV and SEL carry the tag; TIME reads
the core's timestamp; RAND draws twice, the first draw lower, and keeps the generator after both. -/
def Obligations.MoveAndConstantResults : Prop :=
  (∀ o, Yields (.sel o) o.d (fun v _ _ =>
    if v.c.bits ≠ 0 then v.a else match o.b with | .reg _ => v.b | .imm x => Val.data (x.signExtend 128))) ∧
  (∀ o, Yields (.mov o) o.d (fun v _ _ => v.a)) ∧
  (∀ p d zx imm, YieldsWord (.li p d zx imm) d (fun _ _ _ =>
    if zx then BitVec.ofNat 64 imm.toNat else BitVec.ofInt 64 imm.toInt)) ∧
  (∀ p d imm, YieldsWord (.liw p d false imm) d (fun _ _ _ => imm)) ∧
  (∀ p d imm, Yields (.liw p d true imm) d (fun v _ _ => ⟨BitVec.ofNat 128 (imm.toNat * 2 ^ 64 + v.d.lo.toNat), false⟩)) ∧
  (∀ p d, YieldsWord (.time p d) d (fun _ _ s => BitVec.ofNat 64 (s.tsAt (tcore s.cur)))) ∧
  (∀ p d s th, Runs (.rand p d) s th →
    exec (.rand p d) s = .next (((s.begun th (.rand p d)).modThread s.cur
      (fun x => { x with prng := th.prng.next.2.next.2 })).putDest s.cur d
        (Val.ofWord (BitVec.ofNat 64 (th.prng.next.1.toNat + 2 ^ 32 * th.prng.next.2.next.1.toNat)))))

/-! ### Control (06 R132 to R135, 03 R66) -/

namespace Sys2Proof.Machine

/-- A PC-relative target, as an unbounded number: the instruction word's own address plus four times the signed offset (00 R12,
03 R66). -/
def relTarget (s : State) (off : BitVec w) : Int := s.unit.iaddr.toNat + 4 * off.toInt

/-- What an address is in its fetch block, where the block can be read: no boundary, or a boundary, that directly follows a prefix (true)
or does not (false) (03 R66). -/
def placeAt (s : State) (th : Thread) (a : Word) : Option (Option Bool) :=
  match blockAt s s.cur th a with
  | .ok blk => some (boundaryAt blk 32 0 false (a.toNat % 32))
  | .error _ => none

/-- A unit starts at an address, as far as its block can be read; a block that cannot be read refuses no transfer, which is
the model's choice of log 78. -/
def GoodPlace (s : State) (th : Thread) (a : Word) : Prop := placeAt s th a = none ∨ placeAt s th a = some (some false)

/-- A PC-relative target that passes: inside PCC's bounds, at a boundary of its block that follows no prefix (06 R134, 03 R66). -/
def GoodTarget (s : State) (th : Thread) (a : Int) : Prop :=
  capBase th.pcc.bits ≤ a ∧ a < capTop th.pcc.bits ∧ GoodPlace s th (BitVec.ofInt 64 a)

/-- PCC with its cursor at a target. -/
def State.jump (s : State) (th : Thread) (a : Int) : State :=
  s.modThread s.cur (fun x => { x with pcc := (th.setPc (BitVec.ofInt 64 a).toNat).pcc })

/-- A branch with a condition: taken to a good target, or on to the next unit. -/
def Branches (i : Instr) (off : BitVec w) (cond : Vals → Bool) : Prop :=
  Effects i (fun v _ _ => cond v = false) (fun _ _ s => s) ∧
  Effects i (fun v th s => cond v = true ∧ GoodTarget s th (relTarget s off)) (fun _ th s => s.jump th (relTarget s off))

end Sys2Proof.Machine

/-- BR and the conditional branches: where the condition holds PCC's cursor moves to the target, else execution goes on at the
next unit; NOP goes on (06 R132, R133). -/
def Obligations.BranchResults : Prop :=
  (∀ off, Branches (.br off) off (fun _ => true)) ∧
  (∀ a b off, Branches (.beq a b off) off (fun v => decide (v.a.lo.toInt = v.b.lo.toInt))) ∧
  (∀ a b off, Branches (.bne a b off) off (fun v => decide (v.a.lo.toInt ≠ v.b.lo.toInt))) ∧
  (∀ a b off, Branches (.blt a b off) off (fun v => decide (v.a.lo.toInt < v.b.lo.toInt))) ∧
  (∀ a b off, Branches (.bge a b off) off (fun v => decide (v.b.lo.toInt ≤ v.a.lo.toInt))) ∧
  (∀ a b off, Branches (.bltu a b off) off (fun v => decide (v.a.lo.toNat < v.b.lo.toNat))) ∧
  (∀ a b off, Branches (.bgeu a b off) off (fun v => decide (v.b.lo.toNat ≤ v.a.lo.toNat))) ∧
  (∀ a off, Branches (.bz a off) off (fun v => decide (v.a.lo = 0))) ∧
  (∀ a off, Branches (.bnz a off) off (fun v => decide (v.a.lo ≠ 0))) ∧
  Effects .nop (fun _ _ _ => True) (fun _ _ s => s)

namespace Sys2Proof.Machine

/-- The first check that fails, in a list of checks. -/
def firstFailure : List (Bool × Code) → Option Code
  | [] => none
  | (fails, c) :: rest => if fails then some c else firstFailure rest

/-- What JMPC checks, in order: the capability's tag, its kind, X, that the cursor and the four bytes from it lie in its bounds, its
alignment to 4, and its place in its fetch block (06 R134, 03 R66). -/
def jumpRules (s : State) (th : Thread) (v : Val) : List (Bool × Code) :=
  let a := capCursor v.bits
  [(v.tag == false, .tag), (decide (2 ≤ capKind v.bits), .sealed), (!grants (capPerms v.bits) permX, .perm),
   (decide ((a.toNat : Int) < capBase v.bits ∨ capTop v.bits < (a.toNat : Int) + 4), .bounds),
   (decide (a.toNat % 4 ≠ 0), .misalignedTarget), (decide (placeAt s th a = some none), .misalignedTarget),
   (decide (placeAt s th a = some (some true)), .orphanPrefix)]

/-- The link a call leaves: PCC with its cursor at the next unit, of a kind (06 R135). -/
def linkOf (s : State) (th : Thread) (kind : Nat) : Val :=
  let v := capMove ⟨th.pcc.bits, true⟩ s.unit.next
  ⟨capWithKind v.bits kind, v.tag⟩

/-- A PC-relative transfer, where it is taken, traps with the target as cause and writes nothing: BOUNDS where the target is outside
PCC's bounds, else MISALIGNED_TARGET at no boundary of its block, else ORPHAN_PREFIX at a boundary that directly follows a prefix (06
R134, 03 R66). The cause of a target outside 64 bits holds its low 64, the model's choice of log 88. -/
def BadTargets (i : Instr) (off : BitVec w) (taken : Vals → Prop) : Prop :=
  Traps i (fun v th s => taken v ∧ (relTarget s off < capBase th.pcc.bits ∨ capTop th.pcc.bits ≤ relTarget s off))
    .bounds (fun _ _ s => BitVec.ofInt 64 (relTarget s off)) ∧
  Traps i (fun v th s => taken v ∧ capBase th.pcc.bits ≤ relTarget s off ∧ relTarget s off < capTop th.pcc.bits ∧
      placeAt s th (BitVec.ofInt 64 (relTarget s off)) = some none)
    .misalignedTarget (fun _ _ s => BitVec.ofInt 64 (relTarget s off)) ∧
  Traps i (fun v th s => taken v ∧ capBase th.pcc.bits ≤ relTarget s off ∧ relTarget s off < capTop th.pcc.bits ∧
      placeAt s th (BitVec.ofInt 64 (relTarget s off)) = some (some true))
    .orphanPrefix (fun _ _ s => BitVec.ofInt 64 (relTarget s off))

end Sys2Proof.Machine

/-- CALL, JMPC and LOOP: the link, the target and the count where the target passes. CALL, LOOP and every taken branch trap on a bad
target; JMPC traps with the first of its checks that fails, the cursor as cause (06 R132 to R135, 03 R66; logs 78 and 88 of the
model's choices: a target whose block cannot be read, a target outside 64 bits). -/
def Obligations.CallJumpLoopResults : Prop :=
  ((∀ d (off : BitVec 32), Effects (.call d off) (fun _ th s => GoodTarget s th (relTarget s off))
    (fun _ th s => (s.jump th (relTarget s off)).putDest s.cur d (linkOf s th 0))) ∧
  (∀ d a, Effects (.jmpc d a) (fun v th s => firstFailure (jumpRules s th v.a) = none)
    (fun v th s => (s.modThread s.cur (fun x => { x with pcc := ⟨capWithKind v.a.bits 0, true⟩ })).putDest s.cur d
      (linkOf s th (if capKind v.a.bits = 1 then 1 else 0)))) ∧
  (∀ d (off : BitVec 16), Effects (.loop d off)
    (fun v th s => v.d.lo ≠ 1 ∧ GoodTarget s th (relTarget s off))
    (fun v th s => (s.jump th (relTarget s off)).putDest s.cur d (Val.ofWord (v.d.lo - 1)))) ∧
  (∀ d (off : BitVec 16), Effects (.loop d off) (fun v _ _ => v.d.lo = 1) (fun _ _ s => s.putDest s.cur d (Val.ofWord 0)))) ∧
  ((∀ d (off : BitVec 32), BadTargets (.call d off) off (fun _ => True)) ∧
  (∀ d (off : BitVec 16), BadTargets (.loop d off) off (fun v => v.d.lo ≠ 1)) ∧
  (∀ off, BadTargets (.br off) off (fun _ => True)) ∧
  (∀ a b off, BadTargets (.beq a b off) off (fun v => v.a.lo.toInt = v.b.lo.toInt)) ∧
  (∀ a b off, BadTargets (.bne a b off) off (fun v => v.a.lo.toInt ≠ v.b.lo.toInt)) ∧
  (∀ a b off, BadTargets (.blt a b off) off (fun v => v.a.lo.toInt < v.b.lo.toInt)) ∧
  (∀ a b off, BadTargets (.bge a b off) off (fun v => v.b.lo.toInt ≤ v.a.lo.toInt)) ∧
  (∀ a b off, BadTargets (.bltu a b off) off (fun v => v.a.lo.toNat < v.b.lo.toNat)) ∧
  (∀ a b off, BadTargets (.bgeu a b off) off (fun v => v.b.lo.toNat ≤ v.a.lo.toNat)) ∧
  (∀ a off, BadTargets (.bz a off) off (fun v => v.a.lo = 0)) ∧
  (∀ a off, BadTargets (.bnz a off) off (fun v => v.a.lo ≠ 0)) ∧
  (∀ d a c, Traps (.jmpc d a) (fun v th s => firstFailure (jumpRules s th v.a) = some c) c
    (fun v _ _ => capCursor v.a.bits)))

/-! ### Capabilities (05 R102 to R106, 06 R136 to R140) -/

/-- A cursor move leaves kind, permissions, exponent, base and top where they are; the tag survives exactly while both signed
distances stay within 20 bits (05 R104, R105). -/
def Obligations.CursorMovesKeepBounds : Prop :=
  ∀ (v : Val) (c : Word),
    let w := capMove v c
    let delta : Int := ((c.toNat / 2 ^ capE v.bits : Nat) : Int) - ((capCursor v.bits).toNat / 2 ^ capE v.bits : Nat)
    let fits (x : Int) : Prop := -(2 : Int) ^ 19 ≤ x ∧ x < (2 : Int) ^ 19
    capCursor w.bits = c ∧ capKind w.bits = capKind v.bits ∧ capPerms w.bits = capPerms v.bits ∧ capE w.bits = capE v.bits ∧
    (w.tag = true ↔ v.tag = true ∧ fits (capDL v.bits + delta) ∧ fits (capDT v.bits - delta)) ∧
    (w.tag = true → capBase w.bits = capBase v.bits ∧ capTop w.bits = capTop v.bits)

namespace Sys2Proof.Machine

/-- A tagged x gives no more than y gives: y is tagged, x's bounds lie in y's, and x's permissions are y's or fewer. -/
def NoWider (x y : Val) : Prop :=
  x.tag = true → y.tag = true ∧ capBase y.bits ≤ capBase x.bits ∧ capTop x.bits ≤ capTop y.bits ∧
    grants (capPerms y.bits) (capPerms x.bits) = true

/-- The unit writes or pushes a value that is no wider than its source a, or it traps. -/
def Narrows (i : Instr) (d : Opn) : Prop :=
  ∀ s th, Runs i s th →
    (∃ x, NoWider x (s.vals th i).a ∧ exec i s = .next ((s.begun th i).putDest s.cur d x)) ∨
    ∃ c, exec i s = .next (({ s with issuing := false }).faultUnit s.cur th c 0)

end Sys2Proof.Machine

/-- No instruction of the capability family makes a tagged value wider than the capability it was made from (06 R136 to
R140): whole-family rule over CSETA, CINC, CSETB, CANDP, CSEAL, CUNSEAL and CCLRT. -/
def Obligations.CapabilitiesNeverGrow : Prop :=
  (∀ o, Narrows (.cseta o) o.d) ∧ (∀ o, Narrows (.cinc o) o.d) ∧ (∀ o, Narrows (.csetb o) o.d) ∧
  (∀ o, Narrows (.candp o) o.d) ∧ (∀ o e, Narrows (.cseal o e) o.d) ∧ (∀ o, Narrows (.cunseal o) o.d) ∧
  (∀ o, Narrows (.cclrt o) o.d)

namespace Sys2Proof.Machine

/-- A pushed result leaves its tag behind (05 R99). -/
def pushed (d : Opn) (v : Val) : Val := if 257 ≤ d.toNat then ⟨v.bits, false⟩ else v

/-- What CSEAL and CUNSEAL check, in order: the object a, the key b, its right, and for `.entry` X of a (06 R139). -/
def sealRules (a b : Val) (kind : Nat) (need : BitVec 12) (entry : Bool) : List (Bool × Code) :=
  [(a.tag == false, .tag), (decide (capKind a.bits ≠ kind), .sealed), (b.tag == false, .tag), (decide (capKind b.bits ≠ 0), .sealed),
   (!grants (capPerms b.bits) need, .perm), (entry && !grants (capPerms a.bits) permX, .perm),
   (decide (capBase a.bits < capBase b.bits ∨ capTop b.bits < capTop a.bits), .bounds)]

end Sys2Proof.Machine

/-- What the capability instructions make of a capability, when they trap, and what its fields read as (06 R136 to R140). -/
def Obligations.CapabilityResults : Prop :=
  ((∀ o, Effects (.cseta o) (fun v _ _ => v.a.tag = false ∨ capKind v.a.bits = 0)
    (fun v _ s => s.putDest s.cur o.d (pushed o.d (capMove v.a v.b.lo)))) ∧
  (∀ o, Effects (.cinc o) (fun v _ _ => v.a.tag = false ∨ capKind v.a.bits = 0)
    (fun v _ s => s.putDest s.cur o.d (pushed o.d (capMove v.a (capCursor v.a.bits + srcWord true o.b v.b))))) ∧
  (∀ o, Effects (.csetb o)
    (fun v _ _ =>
      let len := (srcWord false o.b v.b).toNat
      let nb := (capCursor v.a.bits).toNat
      v.a.tag = true ∧ capKind v.a.bits = 0 ∧ capBase v.a.bits ≤ nb ∧ (nb + len : Int) ≤ capTop v.a.bits ∧
      2 ^ capExp len ∣ nb ∧ 2 ^ capExp len ∣ nb + len)
    (fun v _ s =>
      let len := (srcWord false o.b v.b).toNat
      s.putDest s.cur o.d (pushed o.d
        ⟨capMake 0 (capPerms v.a.bits) (capExp len) 0 (len / 2 ^ capExp len : Nat) (capCursor v.a.bits), true⟩))) ∧
  (∀ o, Effects (.csetb o) (fun v _ _ => v.a.tag = false)
    (fun v _ s =>
      let len := (srcWord false o.b v.b).toNat
      s.putDest s.cur o.d ⟨capMake (capKind v.a.bits) (capPerms v.a.bits) (capExp len) 0 (len / 2 ^ capExp len : Nat)
        (capCursor v.a.bits), false⟩)) ∧
  (∀ o, Effects (.candp o) (fun v _ _ => v.a.tag = false ∨ capKind v.a.bits = 0)
    (fun v _ s => s.putDest s.cur o.d (pushed o.d
      ⟨capWithPerms v.a.bits (capPerms v.a.bits &&& (srcWord false o.b v.b).setWidth 12), v.a.tag⟩))) ∧
  (∀ o entry, Effects (.cseal o entry)
    (fun v _ _ => v.a.tag = true ∧ capKind v.a.bits = 0 ∧ v.b.tag = true ∧ capKind v.b.bits = 0 ∧
      grants (capPerms v.b.bits) permSE = true ∧ (entry = true → grants (capPerms v.a.bits) permX = true) ∧
      capBase v.b.bits ≤ capBase v.a.bits ∧ capTop v.a.bits ≤ capTop v.b.bits)
    (fun v _ s => s.putDest s.cur o.d (pushed o.d ⟨capWithKind v.a.bits (if entry then 1 else 2), true⟩))) ∧
  (∀ o, Effects (.cunseal o)
    (fun v _ _ => v.a.tag = true ∧ capKind v.a.bits = 2 ∧ v.b.tag = true ∧ capKind v.b.bits = 0 ∧
      grants (capPerms v.b.bits) permUS = true ∧ capBase v.b.bits ≤ capBase v.a.bits ∧ capTop v.a.bits ≤ capTop v.b.bits)
    (fun v _ s => s.putDest s.cur o.d (pushed o.d ⟨capWithKind v.a.bits 0, true⟩)))) ∧
  ((∀ o, YieldsWord (.cgeta o) o.d (fun v _ _ => capCursor v.a.bits)) ∧
  (∀ o, Yields (.cgetb o) o.d (fun v _ _ => Val.data (BitVec.ofInt 128 (capBase v.a.bits)))) ∧
  (∀ o, Yields (.cgett o) o.d (fun v _ _ => Val.data (BitVec.ofInt 128 (capTop v.a.bits)))) ∧
  (∀ o, YieldsWord (.cgetp o) o.d (fun v _ _ =>
    BitVec.ofNat 64 ((capPerms v.a.bits).toNat + 2 ^ 12 * capKind v.a.bits + 2 ^ 16 * v.a.tag.toNat))) ∧
  (∀ o, YieldsWord (.ctest o) o.d (fun v _ _ =>
    if v.a.tag = false then 0
    else
      let q := v.a.bits
      let bit (c : Prop) [Decidable c] (n : Nat) : Nat := if c then n else 0
      BitVec.ofNat 64 (1 + bit (capKind q = 0) 2
        + bit (capBase q ≤ (capCursor q).toNat ∧ ((capCursor q).toNat : Int) < capTop q) 4
        + bit (capKind q = 1) 8 + bit (capKind q = 2) 16))) ∧
  (∀ o, Yields (.cclrt o) o.d (fun v _ _ => ⟨v.a.bits, false⟩)) ∧
  (∀ o, YieldsWord (.csub o) o.d (fun v _ _ =>
    truthWord (v.a.tag = true ∧ v.b.tag = true ∧ capKind v.a.bits = capKind v.b.bits ∧ capBase v.b.bits ≤ capBase v.a.bits ∧
      capTop v.a.bits ≤ capTop v.b.bits ∧ grants (capPerms v.b.bits) (capPerms v.a.bits) = true)))) ∧
  ((∀ (i : Instr), ((∃ o, i = .cseta o) ∨ (∃ o, i = .cinc o) ∨ (∃ o, i = .csetb o) ∨ (∃ o, i = .candp o)) →
    Traps i (fun v _ _ => v.a.tag = true ∧ capKind v.a.bits ≠ 0) .sealed (fun _ _ _ => 0)) ∧
  (∀ o, Traps (.csetb o)
    (fun v _ _ => v.a.tag = true ∧ capKind v.a.bits = 0 ∧
      let nb := (capCursor v.a.bits).toNat
      ((nb : Int) < capBase v.a.bits ∨ capTop v.a.bits < (nb + (srcWord false o.b v.b).toNat : Int)))
    .bounds (fun _ _ _ => 0)) ∧
  (∀ o, Traps (.csetb o)
    (fun v _ _ =>
      let len := (srcWord false o.b v.b).toNat
      let nb := (capCursor v.a.bits).toNat
      v.a.tag = true ∧ capKind v.a.bits = 0 ∧ capBase v.a.bits ≤ nb ∧ (nb + len : Int) ≤ capTop v.a.bits ∧
      ¬ (2 ^ capExp len ∣ nb ∧ 2 ^ capExp len ∣ nb + len))
    .boundsInexact (fun _ _ _ => 0)) ∧
  (∀ o entry c, Traps (.cseal o entry) (fun v _ _ => firstFailure (sealRules v.a v.b 0 permSE entry) = some c) c (fun _ _ _ => 0)) ∧
  (∀ o c, Traps (.cunseal o) (fun v _ _ => firstFailure (sealRules v.a v.b 2 permUS false) = some c) c (fun _ _ _ => 0)))

/-! ### Packed groups (04, 07) -/

/-- The choice between the two neighbours of an inexact value: magnitude lo + rem/2^sh, negative when `neg` (04 R84). Code
1 to 5 only; stochastic rounding draws. -/
def Obligations.RoundingChoosesTheStatedNeighbour : Prop :=
  ∀ (neg : Bool) (lo rem sh : Nat) (u : BitVec 32), rem < 2 ^ sh →
    (rem = 0 → ∀ mode, chooseMag mode neg lo rem sh u = lo) ∧
    (rem ≠ 0 →
      (chooseMag 1 neg lo rem sh u =
        if 2 * rem < 2 ^ sh then lo else if 2 ^ sh < 2 * rem then lo + 1 else lo + lo % 2) ∧
      chooseMag 2 neg lo rem sh u = lo ∧
      ((chooseMag 3 neg lo rem sh u : Int) * (if neg then -1 else 1) ≥ lo * (if neg then -1 else 1) ∧
        (chooseMag 3 neg lo rem sh u = if neg then lo else lo + 1)) ∧
      (chooseMag 4 neg lo rem sh u = if neg then lo + 1 else lo) ∧
      (chooseMag 5 neg lo rem sh u = if 2 * rem < 2 ^ sh then lo else lo + 1))

namespace Sys2Proof.Machine

/-- An exact integer as an element of an integer type: wrapped modulo 2^w, or under sat the nearest end of the range (04 R75). -/
def elementOf (t : BitVec 6) (sat : Bool) (x : Int) : Nat :=
  let w := typeWidth t
  let lo : Int := if isSignedType t then -(2 : Int) ^ (w - 1) else 0
  let hi : Int := if isSignedType t then (2 : Int) ^ (w - 1) - 1 else (2 : Int) ^ w - 1
  ((if sat then (if x < lo then lo else if hi < x then hi else x) else x) % (2 : Int) ^ w).toNat

end Sys2Proof.Machine

/-- Elements of integer types are exact, wrapped or clamped, raise no flag and draw nothing (04 R75, 07 R150, R151). -/
def Obligations.PackedIntegerElementsAreExact : Prop :=
  ∀ (t : BitVec 6), isIntType t = true → ∀ (mode : Nat) (sat : Bool) (a b c : Nat) (g : Prng),
    arithElem .add t mode sat a b g = (elementOf t sat (intVal t a + intVal t b), Flags.none, g) ∧
    arithElem .sub t mode sat a b g = (elementOf t sat (intVal t a - intVal t b), Flags.none, g) ∧
    arithElem .mul t mode sat a b g = (elementOf t sat (intVal t a * intVal t b), Flags.none, g) ∧
    arithElem .min t mode sat a b g = (elementOf t sat (min (intVal t a) (intVal t b)), Flags.none, g) ∧
    arithElem .max t mode sat a b g = (elementOf t sat (max (intVal t a) (intVal t b)), Flags.none, g) ∧
    fmaElem t mode sat a b c g = (elementOf t sat (intVal t a * intVal t b + intVal t c), Flags.none, g)

namespace Sys2Proof.Machine

/-- The unit computes elements in ascending order into the group at d, its flags and draws gathered, where no operand element
is an abandoned encoding that traps. `scan` lists the operand elements, `fs` the element functions, for the resolved type. -/
def Packs (i : Instr) (k : Pk) (n : Nat) (scan : Thread → BitVec 6 → List Nat) (fs : Thread → BitVec 6 → List ElemFn) : Prop :=
  Effects i
    (fun _ th s => isFloatType (s.elemTypeOf i) = true → abandonedIn k.p (s.elemTypeOf i) (scan th (s.elemTypeOf i)) = false)
    (fun _ th s =>
      let t := s.elemTypeOf i
      let r := runElems (fs th t) th.prng
      (s.putGroup k.d n (joinElems (typeWidth t) r.1)).settleFloat s.cur r.2.1 r.2.2)

/-- Elements of the group that a names, for a type. -/
def firstElems (k : Pk) (th : Thread) (t : BitVec 6) : List Nat :=
  elemsOf (typeWidth t) (128 * groupSize k.g / typeWidth t) (th.groupBits k.a (groupSize k.g))

/-- Elements of b: its own group, or element 0 of one register for all under `.bs`. -/
def otherElems (k : Pk) (b : Opn) (bs : Bool) (th : Thread) (t : BitVec 6) : List Nat :=
  secondElems th (typeWidth t) (128 * groupSize k.g / typeWidth t) (groupSize k.g) b bs

/-- An element-wise two-source member. -/
def PacksArith (i : Instr) (fn : ArithFn) (k : Pk) (b : Opn) (bs : Bool) : Prop :=
  Packs i k (groupSize k.g) (fun th t => firstElems k th t ++ otherElems k b bs th t)
    (fun th t => (firstElems k th t).zipWith (arithElem fn t (roundMode k.p th) k.p.sat) (otherElems k b bs th t))

/-- The unit traps with ABANDONED_OPERAND, cause address 0, and writes no element, when an operand element is abandoned and the
pass bit is not set (04 R90, 07 R147). -/
def AbandonTraps (i : Instr) (k : Pk) (scan : Thread → BitVec 6 → List Nat) : Prop :=
  Traps i
    (fun _ th s => isFloatType (s.elemTypeOf i) = true ∧ k.p.pass = false ∧
      ∃ x ∈ scan th (s.elemTypeOf i), isAbandoned (s.elemTypeOf i) x = true)
    .abandonedOperand (fun _ _ _ => 0)

end Sys2Proof.Machine

/-- VADD, VSUB, VMUL, VMIN, VMAX, VFMA, VABS, VNEG, VCMP, VRED and VSCALE write their elements in ascending order (07 R149 to R151,
R154, R160, R161); an abandoned operand element traps before any element is written unless the pass bit is set (04 R89, R90). -/
def Obligations.PackedArithmeticResults : Prop :=
  ((∀ k b bs, PacksArith (.vadd k b bs) .add k b bs) ∧ (∀ k b bs, PacksArith (.vsub k b bs) .sub k b bs) ∧
  (∀ k b bs, PacksArith (.vmul k b bs) .mul k b bs) ∧ (∀ k b bs, PacksArith (.vmin k b bs) .min k b bs) ∧
  (∀ k b bs, PacksArith (.vmax k b bs) .max k b bs) ∧
  (∀ k b c bs, Packs (.vfma k b c bs) k (groupSize k.g)
    (fun th t => firstElems k th t ++ otherElems k b bs th t
      ++ elemsOf (typeWidth t) (128 * groupSize k.g / typeWidth t) (th.groupBits c (groupSize k.g)))
    (fun th t => ((firstElems k th t).zip ((otherElems k b bs th t).zip
        (elemsOf (typeWidth t) (128 * groupSize k.g / typeWidth t) (th.groupBits c (groupSize k.g))))).map
      (fun z => fmaElem t (roundMode k.p th) k.p.sat z.1 z.2.1 z.2.2))) ∧
  (∀ k, Packs (.vabs k) k (groupSize k.g) (firstElems k) (fun th t => (firstElems k th t).map (signElem false t k.p.sat))) ∧
  (∀ k, Packs (.vneg k) k (groupSize k.g) (firstElems k) (fun th t => (firstElems k th t).map (signElem true t k.p.sat))) ∧
  (∀ k b bs cond, Packs (.vcmp k b bs cond) k (groupSize k.g) (fun th t => firstElems k th t ++ otherElems k b bs th t)
    (fun th t => (firstElems k th t).zipWith
      (fun x y g => (if (cmpElem cond.toNat t x y).1 then 2 ^ typeWidth t - 1 else 0, (cmpElem cond.toNat t x y).2, g))
      (otherElems k b bs th t))) ∧
  (∀ k op, Packs (.vred k op) k 1 (firstElems k) (fun th t => [fun g =>
    if op = 0 ∧ isFloatType t = false then
      (elementOf t k.p.sat ((firstElems k th t).map (intVal t)).sum, Flags.none, g)
    else redTree (arithElem (if op = 0 then .add else if op = 1 then .min else .max) t (roundMode k.p th) k.p.sat) 10
      (firstElems k th t) g])) ∧
  (∀ k b, Packs (.vscale k b) k (groupSize k.g) (firstElems k) (fun th t =>
    (firstElems k th t).zipIdx.map (fun z g =>
      let sc := scaleByte (th.read (k.p.sx.getD b)) z.2
      if sc = 255 then (defaultNan t, nvIf (isSignalling (decodeFp t z.1)), g)
      else fpResult t (roundMode k.p th) k.p.sat [decodeFp t z.1] ((decodeFp t z.1).scale (sc - 127), false) g)))) ∧
  ((∀ k b bs, AbandonTraps (.vadd k b bs) k (fun th t => firstElems k th t ++ otherElems k b bs th t)) ∧
  (∀ k b bs, AbandonTraps (.vsub k b bs) k (fun th t => firstElems k th t ++ otherElems k b bs th t)) ∧
  (∀ k b bs, AbandonTraps (.vmul k b bs) k (fun th t => firstElems k th t ++ otherElems k b bs th t)) ∧
  (∀ k b bs, AbandonTraps (.vmin k b bs) k (fun th t => firstElems k th t ++ otherElems k b bs th t)) ∧
  (∀ k b bs, AbandonTraps (.vmax k b bs) k (fun th t => firstElems k th t ++ otherElems k b bs th t)) ∧
  (∀ k, AbandonTraps (.vabs k) k (firstElems k)) ∧ (∀ k, AbandonTraps (.vneg k) k (firstElems k)) ∧
  (∀ k b c bs, AbandonTraps (.vfma k b c bs) k (fun th t => firstElems k th t ++ otherElems k b bs th t
    ++ elemsOf (typeWidth t) (128 * groupSize k.g / typeWidth t) (th.groupBits c (groupSize k.g)))) ∧
  (∀ k b bs cond, AbandonTraps (.vcmp k b bs cond) k (fun th t => firstElems k th t ++ otherElems k b bs th t)) ∧
  (∀ k op, AbandonTraps (.vred k op) k (firstElems k)) ∧ (∀ k b, AbandonTraps (.vscale k b) k (firstElems k)))

namespace Sys2Proof.Machine

/-- The elements of a group, for the resolved type of an instruction. -/
def groupElems (i : Instr) (k : Pk) (x : Opn) (th : Thread) (s : State) : List Nat :=
  let w := typeWidth (s.elemTypeOf i)
  elemsOf w (128 * groupSize k.g / w) (th.groupBits x (groupSize k.g))

/-- The unit writes a group of elements of w bits and raises no flag. -/
def Rearranges (i : Instr) (k : Pk) (n : Nat) (w : State → Nat) (f : Vals → Thread → State → List Nat) : Prop :=
  Effects i (fun _ _ _ => True) (fun v th s => s.putGroup k.d n (joinElems (w s) (f v th s)))

end Sys2Proof.Machine

/-- The bitwise members, shifts, and the members that move, widen or narrow elements: VAND, VOR, VXOR, VSHL, VSHR, VSEL, VPERM,
VBCAST, VPACK, VUNPK, PLNENC, PLNDEC and VVERD (07 R152, R153, R155, R166 to R170). -/
def Obligations.PackedMoveResults : Prop :=
  (∀ k b, Effects (.vand k b false) (fun _ _ _ => True) (fun _ th s =>
    s.putGroup k.d (groupSize k.g) (th.groupBits k.a (groupSize k.g) &&& th.groupBits b (groupSize k.g)))) ∧
  (∀ k b, Effects (.vor k b false) (fun _ _ _ => True) (fun _ th s =>
    s.putGroup k.d (groupSize k.g) (th.groupBits k.a (groupSize k.g) ||| th.groupBits b (groupSize k.g)))) ∧
  (∀ k b, Effects (.vxor k b false) (fun _ _ _ => True) (fun _ th s =>
    s.putGroup k.d (groupSize k.g) (th.groupBits k.a (groupSize k.g) ^^^ th.groupBits b (groupSize k.g)))) ∧
  (∀ k b, Effects (.vand k b true) (fun _ _ _ => True) (fun _ th s =>
    s.putGroup k.d (groupSize k.g) (th.groupBits k.a (groupSize k.g) &&&
      joinElems 128 (List.replicate (groupSize k.g) (th.read b).bits.toNat)))) ∧
  (∀ k b, Effects (.vor k b true) (fun _ _ _ => True) (fun _ th s =>
    s.putGroup k.d (groupSize k.g) (th.groupBits k.a (groupSize k.g) |||
      joinElems 128 (List.replicate (groupSize k.g) (th.read b).bits.toNat)))) ∧
  (∀ k b, Effects (.vxor k b true) (fun _ _ _ => True) (fun _ th s =>
    s.putGroup k.d (groupSize k.g) (th.groupBits k.a (groupSize k.g) ^^^
      joinElems 128 (List.replicate (groupSize k.g) (th.read b).bits.toNat)))) ∧
  (∀ k b, Rearranges (.vshl k b) k (groupSize k.g) (fun s => typeWidth (s.elemTypeOf (.vshl k b))) (fun _ th s =>
    let w := typeWidth (s.elemTypeOf (.vshl k b))
    let xs := groupElems (.vshl k b) k k.a th s
    let cs := match b with | .imm v => List.replicate xs.length v.toNat | .reg r => groupElems (.vshl k b) k r th s
    xs.zipWith (fun x c => x * 2 ^ c % 2 ^ w) cs)) ∧
  (∀ k b, Rearranges (.vshr k b) k (groupSize k.g) (fun s => typeWidth (s.elemTypeOf (.vshr k b))) (fun _ th s =>
    let t := s.elemTypeOf (.vshr k b)
    let xs := groupElems (.vshr k b) k k.a th s
    let cs := match b with | .imm v => List.replicate xs.length v.toNat | .reg r => groupElems (.vshr k b) k r th s
    xs.zipWith (fun x c => (intVal t x / 2 ^ c % 2 ^ typeWidth t).toNat) cs)) ∧
  (∀ k b c, Rearranges (.vsel k b c) k (groupSize k.g) (fun s => typeWidth (s.elemTypeOf (.vsel k b c))) (fun _ th s =>
    let g := fun x => groupElems (.vsel k b c) k x th s
    ((g k.a).zip ((g b).zip (g c))).map (fun z => if z.2.2 ≠ 0 then z.1 else z.2.1))) ∧
  (∀ k b, Rearranges (.vperm k b) k (groupSize k.g) (fun s => typeWidth (s.elemTypeOf (.vperm k b))) (fun _ th s =>
    let xs := groupElems (.vperm k b) k k.a th s
    (groupElems (.vperm k b) k b th s).map (fun j => xs.getD (j % xs.length) 0))) ∧
  (∀ k b, Rearranges (.vbcast k b) k (groupSize k.g) (fun s => typeWidth (s.elemTypeOf (.vbcast k b))) (fun v th s =>
    let w := typeWidth (s.elemTypeOf (.vbcast k b))
    let j := match b with | .imm x => x.toNat | .reg _ => v.b.lo.toNat
    List.replicate (128 * groupSize k.g / w)
      ((elemsOf w (128 / w) (th.read k.a).bits.toNat).getD (j % (128 / w)) 0))) ∧
  (∀ k b, Rearranges (.vpack k b) k (groupSize k.g) (fun s => typeWidth (s.elemTypeOf (.vpack k b)) / 2) (fun _ th s =>
    let t := s.elemTypeOf (.vpack k b)
    (groupElems (.vpack k b) k k.a th s ++ groupElems (.vpack k b) k b th s).map (fun x =>
      fitBits (isSignedType t) (typeWidth t / 2) k.p.sat (intVal t x)))) ∧
  (∀ k hi, Rearranges (.vunpk k hi) k (groupSize k.g) (fun s => 2 * typeWidth (s.elemTypeOf (.vunpk k hi))) (fun _ th s =>
    let t := s.elemTypeOf (.vunpk k hi)
    let xs := groupElems (.vunpk k hi) k k.a th s
    let n := 128 * groupSize k.g / typeWidth t / 2
    (if hi then xs.drop n else xs.take n).map (fun x => (intVal t x % 2 ^ (2 * typeWidth t)).toNat))) ∧
  (∀ k, Rearranges (.plnenc k) k 8 (fun _ => 128) (fun _ th _ =>
    (List.range 8).map (fun j => joinElems 1 ((elemsOf 8 128 (th.groupBits k.a 8)).map (fun x => x / 2 ^ (7 - j) % 2))))) ∧
  (∀ k (p : BitVec 4), Rearranges (.plndec k p) k 8 (fun _ => 8) (fun _ th _ =>
    (List.range 128).map (fun t => ((List.range p.toNat).map (fun j =>
      (if k.a = 256 then 0 else (th.read (k.a + BitVec.ofNat 9 j)).bits.toNat / 2 ^ t % 2) * 2 ^ (p.toNat - 1 - j))).sum
      * 2 ^ (8 - p.toNat)))) ∧
  (∀ k, Rearranges (.vverd k false) k 1 (fun _ => 2) (fun _ th s =>
    (groupElems (.vverd k false) k k.a th s).map (verdictCode (s.elemTypeOf (.vverd k false))))) ∧
  (∀ k, Rearranges (.vverd k true) k (groupSize k.g) (fun _ => 32) (fun _ th s =>
    (groupElems (.vverd k true) k k.a th s).map verdictBlock))

namespace Sys2Proof.Machine

/-- The unit's results arrive later with their flags, where no operand is an abandoned encoding that traps (07 R147). -/
def StepsLater (i : Instr) (k : Pk) (la : BitVec 4) (f : Nat → Nat × Flags) : Prop :=
  Effects i (fun _ th _ => abandonedIn k.p f32 (elemsOf 32 (4 * groupSize k.g) (th.groupBits k.a (groupSize k.g))) = false)
    (fun _ th s =>
      let rs := (elemsOf 32 (4 * groupSize k.g) (th.groupBits k.a (groupSize k.g))).map f
      let bits := joinElems 32 (rs.map Prod.fst)
      s.deferResult s.cur (destGroup k.d (groupSize k.g))
        ((List.range (groupSize k.g)).map (fun j => Val.data (BitVec.ofNat 128 (bits / 2 ^ (128 * j)))))
        (joinFlags (rs.map Prod.snd)) la)

/-- An element's result with NV set as well where its source is a signalling NaN, an abandoned encoding among them, whatever a scale
makes of it (04 R78, R90). -/
def raisingNv (src : BitVec 6) (bits : Nat) (f : ElemFn) : ElemFn := fun g =>
  ((f g).1, (nvIf (isSignalling (decodeFp src bits))).or (f g).2.1, (f g).2.2)

end Sys2Proof.Machine

/-- VEXP2, VRCP and VRSQ defer a group of results; VCVT converts element by element, or gathers one bit an element under
`.mask`, where a signalling NaN that is no abandoned encoding sets NV; but for the latter an abandoned operand element traps unless the
pass bit is set (04 R78, R90, 07 R156 to R159, R162 to R165). That `.mask` gives an abandoned encoding its verdict bit and no flag
whatever the pass bit says is the model's choice (log 89). -/
def Obligations.PackedConversionResults : Prop :=
  (∀ k la, StepsLater (.vexp2 k la) k la vexp2Elem) ∧ (∀ k la, StepsLater (.vrcp k la) k la vrcpElem) ∧
  (∀ k la, StepsLater (.vrsq k la) k la vrsqElem) ∧
  (∀ k c src scl, Effects (.vcvt k c src true scl) (fun _ _ _ => True) (fun _ th s =>
    (s.putGroup k.d 1 (joinElems 1 ((firstElems k th src).map (fun x => (maskBit src x).toNat)))).settleFloat s.cur
      (nvIf ((firstElems k th src).any (fun x => !isAbandoned src x && isSignalling (decodeFp src x)))) th.prng)) ∧
  (∀ k c src, Effects (.vcvt k c src false false)
    (fun _ th _ => isFloatType src = true → abandonedIn k.p src (firstElems k th src) = false)
    (fun _ th s =>
      let t := s.elemTypeOf (.vcvt k c src false false)
      let r := runElems ((firstElems k th src).map (fun x => raisingNv src x
        (convTo src t (roundMode k.p th) k.p.sat (decodeFp src x)))) th.prng
      (s.putGroup k.d (vcvtDest k src t) (joinElems (typeWidth t) r.1)).settleFloat s.cur r.2.1 r.2.2)) ∧
  (∀ k c src, Effects (.vcvt k c src false true)
    (fun _ th _ => isFloatType src = true → abandonedIn k.p src (firstElems k th src) = false)
    (fun _ th s =>
      let t := s.elemTypeOf (.vcvt k c src false true)
      let sv := th.read (k.p.sx.getD c)
      let r := runElems ((firstElems k th src).zipIdx.map (fun z =>
        let x := decodeFp src z.1
        let x := if isBlockScaled src then scaled (scaleByte sv z.2) false x else x
        let x := if isBlockScaled t then scaled (scaleByte sv z.2) true x else x
        raisingNv src z.1 (convTo src t (roundMode k.p th) k.p.sat x))) th.prng
      (s.putGroup k.d (vcvtDest k src t) (joinElems (typeWidth t) r.1)).settleFloat s.cur r.2.1 r.2.2)) ∧
  (∀ (i : Instr) (k : Pk) la, (i = .vexp2 k la ∨ i = .vrcp k la ∨ i = .vrsq k la) →
    Traps i (fun _ th _ => k.p.pass = false ∧ ∃ x ∈ elemsOf 32 (4 * groupSize k.g) (th.groupBits k.a (groupSize k.g)),
      isAbandoned f32 x = true) .abandonedOperand (fun _ _ _ => 0)) ∧
  (∀ k c src scl, Traps (.vcvt k c src false scl)
    (fun _ th _ => isFloatType src = true ∧ k.p.pass = false ∧ ∃ x ∈ firstElems k th src, isAbandoned src x = true)
    .abandonedOperand (fun _ _ _ => 0))

/-! ### Lane slices (07 R171 to R174) -/

namespace Sys2Proof.Machine

/-- Every used lane's offset passes the checks of 07 R172. -/
def LanesPass (o : LaneOps) (th : Thread) : Prop :=
  ∀ x ∈ laneOffsets th o, x + 4 ≤ allotment th ∧ x % 4 = 0

/-- The storage address of lane l's word. -/
def laneOf (o : LaneOps) (th : Thread) (s : State) (l : Nat) : Nat :=
  laneAt th (tcore s.cur) l ((laneOffsets th o).getD l 0)

end Sys2Proof.Machine

/-- LLD, LST and LADD on the lanes of a core, four of its 32 for each register of the group: what they read, write and add, and the
offsets and abandoned operands that trap (07 R147, R171 to R174). Which NaN an LADD of two NaNs delivers (log 77), and that a lane's
offset is checked before an operand is scanned (log 98), are the model's choices. -/
def Obligations.LaneSliceResults : Prop :=
  ((∀ o, Effects (.lld o) (fun _ th _ => LanesPass o th) (fun _ th s =>
    let bits := joinElems 32 ((List.range (laneOffsets th o).length).map (fun l => s.load (laneOf o th s l) 4))
    s.deferResult s.cur (destGroup o.d (groupSize o.g))
      ((List.range (groupSize o.g)).map (fun i => Val.data (BitVec.ofNat 128 (bits / 2 ^ (128 * i))))) Flags.none o.la)) ∧
  (∀ o, Effects (.lst o) (fun _ th _ => LanesPass o th) (fun _ th s =>
    let n := (laneOffsets th o).length
    ((List.range n).zip (elemsOf 32 n (th.groupBits o.a (groupSize o.g)))).foldl
      (fun r x => r.store (laneOf o th s x.1) 4 x.2) s)) ∧
  (∀ o, Effects (.ladd o)
    (fun _ th s => LanesPass o th ∧
      (isFloatType (s.elemTypeOf (.ladd o)) = true → abandonedIn o.p (s.elemTypeOf (.ladd o))
        (elemsOf 32 (laneOffsets th o).length (th.groupBits o.a (groupSize o.g))
          ++ (List.range (laneOffsets th o).length).map (fun l => s.load (laneOf o th s l) 4)) = false))
    (fun _ th s =>
      let t := s.elemTypeOf (.ladd o)
      let n := (laneOffsets th o).length
      let r := runElems (((List.range n).map (fun l => s.load (laneOf o th s l) 4)).zipWith
        (arithElem .add t (roundMode o.p th) o.p.sat) (elemsOf 32 n (th.groupBits o.a (groupSize o.g)))) th.prng
      (((List.range n).zip r.1).foldl (fun z x => z.store (laneOf o th s x.1) 4 x.2) s).settleFloat s.cur r.2.1 r.2.2))) ∧
  (∀ o, Traps (.ladd o) (fun _ th s => LanesPass o th ∧ isFloatType (s.elemTypeOf (.ladd o)) = true ∧
    abandonedIn o.p (s.elemTypeOf (.ladd o)) (elemsOf 32 (laneOffsets th o).length (th.groupBits o.a (groupSize o.g))
      ++ (List.range (laneOffsets th o).length).map (fun l => s.load (laneOf o th s l) 4)) = true)
    .abandonedOperand (fun _ _ _ => 0)) ∧
  (∀ (i : Instr) (o : LaneOps), (i = .lld o ∨ i = .lst o ∨ i = .ladd o) → ∀ l : Nat,
    let fails (th : Thread) : Prop := l < (laneOffsets th o).length ∧
      ∀ k < l, (laneOffsets th o).getD k 0 + 4 ≤ allotment th ∧ (laneOffsets th o).getD k 0 % 4 = 0
    Traps i (fun _ th _ => fails th ∧ allotment th < (laneOffsets th o).getD l 0 + 4) .bounds
      (fun _ th _ => BitVec.ofNat 64 (1024 * l + (laneOffsets th o).getD l 0 % 1024)) ∧
    Traps i (fun _ th _ => fails th ∧ (laneOffsets th o).getD l 0 + 4 ≤ allotment th ∧ (laneOffsets th o).getD l 0 % 4 ≠ 0) .align
      (fun _ th _ => BitVec.ofNat 64 (1024 * l + (laneOffsets th o).getD l 0 % 1024)))

/-! ### Curve codes (08) -/

namespace Sys2Proof.Machine

/-- The instruction reads well-formed codes of one dimension. -/
def GoodCodes (l : List Quad) : Prop := (∀ q ∈ l, codeOk q = true) ∧ ∀ q ∈ l, codeDim q = codeDim (l.headD 0)

/-- A curve code with the given fields: FLAGS, D, DIGITS. -/
def codeOf (flags dims digits : Nat) : Quad := BitVec.ofNat 128 (flags * 2 ^ 120 + dims * 2 ^ 116 + digits)

/-- Digit string of axis values: bit l of axis i at place l·D + i. -/
def interleaved (dims : Nat) (axes : Nat → Nat) : Nat :=
  ((List.range (112 / dims)).map (fun l => ((List.range dims).map (fun i => axes i / 2 ^ l % 2 * 2 ^ (l * dims + i))).sum)).sum

/-- Axis i of a code: bit l at place l·D + i of its digits. -/
def axisBitsOf (q : Quad) (i : Nat) : Nat :=
  ((List.range (112 / codeDim q)).map (fun l => codeDigits q / 2 ^ (l * codeDim q + i) % 2 * 2 ^ l)).sum

end Sys2Proof.Machine

/-- CQPACK, CQEXT, CQSETD, CQTRUNC and CQFLAGS (08 R180, R181, R191, R192): axes packed with a flag where one does not fit, axes
read back, dimension replaced, levels cleared or dropped, flags split off. -/
def Obligations.CurveCodeResults : Prop :=
  (∀ p d a (dims : BitVec 4), 2 ≤ dims.toNat → dims.toNat ≤ 8 → Effects (.cqpack p d a dims) (fun _ _ _ => True) (fun _ th s =>
    let x (i : Nat) : Nat := th.groupBits a (axisGroup dims) / 2 ^ (64 * i) % 2 ^ 64
    let flags := ((List.range dims.toNat).map (fun i => if 2 ^ (112 / dims.toNat) ≤ x i then 2 ^ i else 0)).sum
    s.putDest s.cur d (Val.data (codeOf flags dims.toNat (interleaved dims.toNat x))))) ∧
  (∀ p d a (k : AxisSrc) sgn,
    let axis (v : Vals) : Nat := match k with | .imm x => x.toNat | .reg _ => v.b.lo.toNat
    Effects (.cqext p d a k sgn) (fun v _ _ => GoodCodes [v.a.bits] ∧ axis v < codeDim v.a.bits) (fun v _ s =>
      let x := axisBitsOf v.a.bits (axis v)
      let w := 112 / codeDim v.a.bits
      s.putDest s.cur d (Val.ofWord (if sgn ∧ 2 ^ (w - 1) ≤ x then BitVec.ofInt 64 ((x : Int) - (2 : Int) ^ w) else BitVec.ofNat 64 x)))) ∧
  (∀ p d a (dims : BitVec 4), 2 ≤ dims.toNat → dims.toNat ≤ 8 → Effects (.cqsetd p d a dims) (fun _ _ _ => True) (fun v _ s =>
    s.putDest s.cur d (Val.data (codeOf 0 dims.toNat (codeDigits v.a.bits % 2 ^ (dims.toNat * (112 / dims.toNat))))))) ∧
  (∀ p d a (m : LevelSrc) up,
    let levels (v : Vals) : Nat := match m with | .imm x => x.toNat | .reg _ => v.b.lo.toNat
    Effects (.cqtrunc p d a m up) (fun v _ _ => GoodCodes [v.a.bits]) (fun v _ s =>
      let q := v.a.bits
      let n := codeDim q
      let y := if 112 / n ≤ levels v then 0
        else if up then codeDigits q / 2 ^ (levels v * n) else codeDigits q - codeDigits q % 2 ^ (levels v * n)
      s.putDest s.cur d (Val.data (codeOf (codeFlags q) n y)))) ∧
  (∀ o, Effects (.cqflags o) (fun v _ _ => GoodCodes [v.a.bits]) (fun v _ s =>
    (s.putGroup o.d 2 (codeOf 0 (codeDim v.a.bits) (codeDigits v.a.bits)).toNat).modThread s.cur
      (fun th => th.writeGroup (if o.d = 256 then 256 else o.d + 1) 1 (codeFlags v.a.bits))))

namespace Sys2Proof.Machine

/-- The exact sum or difference of two axis values, and the W-bit value of an axis under `.s`. -/
def axisRead (sgn : Bool) (w x : Nat) : Int := if sgn ∧ 2 ^ (w - 1) ≤ x then (x : Int) - (2 : Int) ^ w else x

/-- CQADD or CQSUB on two codes: every axis by itself, wrapped modulo 2^W, its flag set where the exact result does not fit or
either operand's flag was set. -/
def axisSum (sub sgn : Bool) (a b : Quad) : Quad :=
  let n := codeDim a
  let w := 112 / n
  let v (i : Nat) : Int :=
    if sub then axisRead sgn w (axisBitsOf a i) - axisRead sgn w (axisBitsOf b i)
    else axisRead sgn w (axisBitsOf a i) + axisRead sgn w (axisBitsOf b i)
  let out (i : Nat) : Bool :=
    if sgn then decide (v i < -(2 : Int) ^ (w - 1)) || decide ((2 : Int) ^ (w - 1) ≤ v i)
    else decide (v i < 0) || decide ((2 : Int) ^ w ≤ v i)
  let flags := ((List.range n).map (fun i =>
    if out i || (codeFlags a).testBit i || (codeFlags b).testBit i then 2 ^ i else 0)).sum
  codeOf flags n (interleaved n (fun i => (v i % (2 : Int) ^ w).toNat))

/-- As axisSum with a step on axis k. -/
def axisStep (sub sgn : Bool) (a : Quad) (k : Nat) (delta : Int) : Quad :=
  let n := codeDim a
  let w := 112 / n
  let v (i : Nat) : Int :=
    let y := if i = k then delta else 0
    if sub then axisRead sgn w (axisBitsOf a i) - y else axisRead sgn w (axisBitsOf a i) + y
  let out (i : Nat) : Bool :=
    if sgn then decide (v i < -(2 : Int) ^ (w - 1)) || decide ((2 : Int) ^ (w - 1) ≤ v i)
    else decide (v i < 0) || decide ((2 : Int) ^ w ≤ v i)
  let flags := ((List.range n).map (fun i => if out i || (codeFlags a).testBit i then 2 ^ i else 0)).sum
  codeOf flags n (interleaved n (fun i => (v i % (2 : Int) ^ w).toNat))

/-- A well-formed code or an end marker. -/
def CodeOrMarker (q : Quad) : Prop := codeOk q = true ∨ isMarker q = true

/-- Every axis of x lies between those of lo and hi. -/
def WithinBox (lo hi x : Quad) : Prop :=
  ∀ i < codeDim x, axisBitsOf lo i ≤ axisBitsOf x i ∧ axisBitsOf x i ≤ axisBitsOf hi i

end Sys2Proof.Machine

/-- CQADD and CQSUB add axis by axis or step one axis, each axis wrapped modulo 2^W with its sticky flag set where it does not fit (08
R182); CQCMP orders by digits with the
end marker above every code; CQINBOX tests every axis and is 0 for the marker (08 R183, R184). -/
def Obligations.CurveArithmeticAndOrderResults : Prop :=
  ((∀ p d a b sgn, Effects (.cqadd p d a (.reg b) sgn) (fun v _ _ => GoodCodes [v.a.bits, v.b.bits])
    (fun v _ s => s.putDest s.cur d (Val.data (axisSum false sgn v.a.bits v.b.bits)))) ∧
  (∀ p d a b sgn, Effects (.cqsub p d a (.reg b) sgn) (fun v _ _ => GoodCodes [v.a.bits, v.b.bits])
    (fun v _ s => s.putDest s.cur d (Val.data (axisSum true sgn v.a.bits v.b.bits)))) ∧
  (∀ p d a (k : BitVec 3) (e : BitVec 8) sgn, Effects (.cqadd p d a (.step k e) sgn)
    (fun v _ _ => GoodCodes [v.a.bits] ∧ k.toNat < codeDim v.a.bits)
    (fun v _ s => s.putDest s.cur d (Val.data (axisStep false sgn v.a.bits k.toNat e.toInt)))) ∧
  (∀ p d a (k : BitVec 3) (e : BitVec 8) sgn, Effects (.cqsub p d a (.step k e) sgn)
    (fun v _ _ => GoodCodes [v.a.bits] ∧ k.toNat < codeDim v.a.bits)
    (fun v _ s => s.putDest s.cur d (Val.data (axisStep true sgn v.a.bits k.toNat e.toInt))))) ∧
  ((∀ o, Effects (.cqcmp o)
    (fun v _ _ => CodeOrMarker v.a.bits ∧ CodeOrMarker v.b.bits ∧ codeDim v.a.bits = codeDim v.b.bits)
    (fun v _ s =>
      let a := v.a.bits
      let b := v.b.bits
      let less : Bool := (isMarker b && !isMarker a) || (!isMarker a && !isMarker b && decide (codeDigits a < codeDigits b))
      let same : Bool := (isMarker a && isMarker b) || (!isMarker a && !isMarker b && codeDigits a == codeDigits b)
      s.putDest s.cur o.d (Val.ofWord (if less then BitVec.ofInt 64 (-1) else if same then 0 else 1)))) ∧
  (∀ o s th, Runs (.cqinbox o) s th →
    let v := s.vals th (.cqinbox o)
    CodeOrMarker v.a.bits → codeOk v.b.bits = true → codeOk v.c.bits = true → codeDim v.a.bits = codeDim v.b.bits →
    codeDim v.a.bits = codeDim v.c.bits →
    ∃ w : Word, ((isMarker v.a.bits = false ∧ WithinBox v.b.bits v.c.bits v.a.bits ∧ w = 1) ∨
        (¬ (isMarker v.a.bits = false ∧ WithinBox v.b.bits v.c.bits v.a.bits) ∧ w = 0)) ∧
      exec (.cqinbox o) s = .next ((s.begun th (.cqinbox o)).putDest s.cur o.d (Val.ofWord w))))

/-- CQNEXT's result is the least code of the box at or after a, and the end marker where there is none (08 R185). -/
def Obligations.NextCodeIsTheLeastInTheBox : Prop :=
  ∀ (o : BoxOps) (s : State) (th : Thread), Runs (.cqnext o) s th →
    let v := s.vals th (.cqnext o)
    let n := codeDim v.a.bits
    GoodCodes [v.a.bits, v.b.bits, v.c.bits] →
    ∃ r : Quad,
      ((∃ x, r = codeOf 0 n x ∧ x < 2 ^ (n * (112 / n)) ∧ codeDigits v.a.bits ≤ x ∧ WithinBox v.b.bits v.c.bits (codeOf 0 n x) ∧
          ∀ y, codeDigits v.a.bits ≤ y → y < x → ¬ WithinBox v.b.bits v.c.bits (codeOf 0 n y)) ∨
        (r = BitVec.ofNat 128 (n * 2 ^ 116 + 15 * 2 ^ 112) ∧
          ∀ y, codeDigits v.a.bits ≤ y → y < 2 ^ (n * (112 / n)) → ¬ WithinBox v.b.bits v.c.bits (codeOf 0 n y))) ∧
      exec (.cqnext o) s = .next ((s.begun th (.cqnext o)).deferResult s.cur [o.d] [Val.data r] Flags.none o.la)

/-- A code that is not well formed traps with CURVE_HEADER, codes of different D with CURVE_DIM_MISMATCH, cause address 0, in every
member that reads codes, an end marker accepted where CQCMP and CQINBOX accept it; so does an axis number of D or more in CQEXT and the
step of CQADD and CQSUB (08 R177, R178, R181 to R184; CQSPLIT's codes stand in SplitResults). -/
def Obligations.BadCurveCodesTrap : Prop :=
  (∀ (i : Instr) (codes : Vals → List Quad),
    ((∃ p d a k sgn, i = .cqext p d a k sgn ∧ codes = fun v => [v.a.bits]) ∨
     (∃ p d a b sgn, (i = .cqadd p d a (.reg b) sgn ∨ i = .cqsub p d a (.reg b) sgn) ∧ codes = fun v => [v.a.bits, v.b.bits]) ∨
     (∃ p d a k e sgn, (i = .cqadd p d a (.step k e) sgn ∨ i = .cqsub p d a (.step k e) sgn) ∧ codes = fun v => [v.a.bits]) ∨
     (∃ o, i = .cqnext o ∧ codes = fun v => [v.a.bits, v.b.bits, v.c.bits]) ∨
     (∃ p d a m up, i = .cqtrunc p d a m up ∧ codes = fun v => [v.a.bits]) ∨
     (∃ o, i = .cqflags o ∧ codes = fun v => [v.a.bits])) →
    Traps i (fun v _ _ => ∃ q ∈ codes v, codeOk q = false) .curveHeader (fun _ _ _ => 0) ∧
    Traps i (fun v _ _ => (∀ q ∈ codes v, codeOk q = true) ∧ ∃ q ∈ codes v, codeDim q ≠ codeDim v.a.bits) .curveDimMismatch
      (fun _ _ _ => 0)) ∧
  (∀ o, Traps (.cqcmp o) (fun v _ _ => ¬ CodeOrMarker v.a.bits ∨ ¬ CodeOrMarker v.b.bits) .curveHeader (fun _ _ _ => 0) ∧
    Traps (.cqcmp o) (fun v _ _ => CodeOrMarker v.a.bits ∧ CodeOrMarker v.b.bits ∧ codeDim v.a.bits ≠ codeDim v.b.bits)
      .curveDimMismatch (fun _ _ _ => 0)) ∧
  (∀ o, Traps (.cqinbox o) (fun v _ _ => ¬ CodeOrMarker v.a.bits ∨ codeOk v.b.bits = false ∨ codeOk v.c.bits = false) .curveHeader
      (fun _ _ _ => 0) ∧
    Traps (.cqinbox o) (fun v _ _ => CodeOrMarker v.a.bits ∧ codeOk v.b.bits = true ∧ codeOk v.c.bits = true ∧
      (codeDim v.b.bits ≠ codeDim v.a.bits ∨ codeDim v.c.bits ≠ codeDim v.a.bits)) .curveDimMismatch (fun _ _ _ => 0)) ∧
  (∀ p d a (k : AxisSrc) sgn, Traps (.cqext p d a k sgn)
    (fun v _ _ => GoodCodes [v.a.bits] ∧ codeDim v.a.bits ≤ match k with | .imm x => x.toNat | .reg _ => v.b.lo.toNat)
    .curveDimMismatch (fun _ _ _ => 0)) ∧
  (∀ (i : Instr) (k : BitVec 3), ((∃ p d a e sgn, i = .cqadd p d a (.step k e) sgn) ∨ (∃ p d a e sgn, i = .cqsub p d a (.step k e) sgn)) →
    Traps i (fun v _ _ => GoodCodes [v.a.bits] ∧ codeDim v.a.bits ≤ k.toNat) .curveDimMismatch (fun _ _ _ => 0))

/-! ### Accesses at their issue (05 R106, 10 R231, 11 R253 to R270) -/

/-- The checks of an access are made in the stated order and the first that fails decides: TAG, SEALED, PERM, BOUNDS and ALIGN
of the capability (05 R106), then the region, privilege, lease and view checks (10 R231), the last of which meets any byte of the
access that lies in a view (10 R246). -/
def Obligations.AccessChecksRunInOrder : Prop :=
  (∀ (s : State) (th : Thread) (v : Val) (w : Want) (va : Word) (n align : Nat),
    accessCheck s th v w va n align = firstFailure [
      (v.tag == false, .tag),
      (capKind v.bits != 0, .sealed),
      (!grants (capPerms v.bits)
        (if selector va == 0xF3 || selector va == 0xF8 || selector va == 0xFC then w.need ||| permSY else w.need), .perm),
      (decide ((va.toNat : Int) < capBase v.bits) || decide (capTop v.bits < ((va.toNat + n : Nat) : Int)), .bounds),
      (va.toNat % align != 0, .align),
      (!regionOk s va n, .region),
      (selector va == 0xF8 && (!w.peer || decide (32 < n) || !(tget s.dev.ppstat (va56 va / 2 ^ 53) 0).getLsbD 0), .region),
      (selector va == 0xFC && (!w.host || decide (32 < n)), .region),
      ((selector va == 0xF3 || (selector va == 0xFC && va.getLsbD 55)) && !th.sup, .privilege),
      (!leased th.ranges w.lease va n, .lease),
      (selector va == 0 && !w.view && viewMeets s (va56 va) n, .viewReadonly)]) ∧
  (∀ (s : State) (a n : Nat), 0 < n → (viewMeets s a n = true ↔ ∃ i < n, (viewOf s (a + i)).isSome = true))

namespace Sys2Proof.Machine

/-- What an access of the thread that holds the turn does at its issue, and nothing else: its checks trap with the access
address as cause; an address with no PLB entry, a home under conversion or 32 posted accesses outstanding park it; else it
goes on to `go` (11 R255, R256). -/
def Accesses (i : Instr) (w : Want) (n align : Nat) (posted : Bool) (go : Vals → Thread → State → State) : Prop :=
  ∀ s th, Runs i s th →
    let v := s.vals th i
    let b := s.begun th i
    let va := capCursor v.a.bits + v.off
    (∀ c, accessCheck b th v.a w va n align = some c →
      exec i s = .next (({ s with issuing := false }).faultUnit s.cur th c va)) ∧
    (∀ why, accessStep b th v.a w va n align posted = .error (.park why) →
      exec i s = .next (({ s with issuing := false }).stopUnit s.cur th i (.park why))) ∧
    (∀ b1, accessStep b th v.a w va n align posted = .ok b1 → exec i s = .next (go v th b1))

/-- A plain load: the near slice answers, or the access goes to its home (10 R235, 11 R258). -/
def loadOn (m : MemOps) (sz : BitVec 3) (sx : Bool) (v : Vals) (th : Thread) (s : State) : State :=
  let va := capCursor v.a.bits + v.off
  let dests := if sz = 5 then destGroup m.d 2 else [m.d]
  let t := s.cur
  match nearHit s t th va (Machine.sizeOf sz) with
  | some x => ((s.modCore (tcore t) (fun k => nearTouch k va th.domain)).setBank t va).deferResult t dests
      (loadVals (Machine.sizeOf sz) sx x.1) Flags.none m.la
  | none =>
    let s := s.roomFor t va
    s.launch t (s.withHeld t { s.newOp .longLat (.load (Machine.sizeOf sz) sx) (.sent 1) va with
      dests := dests, slot1 := slotA v va, capture := true }) m.la.toNat

/-- A plain store: its bytes go to the near slice or to their homes; to a port or host memory as one access (11 R258). -/
def storeOn (sz : BitVec 3) (v : Vals) (s : State) : State :=
  let va := capCursor v.a.bits + v.off
  let port := selector va == 0xF8 || selector va == 0xFC
  let o := { s.newOp .posted (if port then .store (Machine.sizeOf sz) v.d v.d1 else .placed) (.sent 1) va with
    slot1 := slotA v va, slot2 := v.d, slot3 := v.d1, capture := true }
  let t := s.cur
  if port then s.launch t o 0
  else s.post t o (fun s =>
    s.plainRun t o.id none 2 va (Machine.sizeOf sz) (v.d.bits.toNat + 2 ^ 128 * v.d1.bits.toNat))

/-- An access that leaves the rotation or stays outstanding: an operation with its act, captured sources and destinations,
launched (11 R256, 15 R370). -/
def actOn (cls : OpClass) (act : Act) (dests : List Opn) (s2 s3 : Val) (acq : Bool) (la : BitVec 4) (v : Vals) (s : State) : State :=
  let va := capCursor v.a.bits + v.off
  s.launch s.cur { s.newOp cls act (.sent 1) va with
    dests := dests, slot1 := slotA v va, slot2 := s2, slot3 := s3, capture := true, acquire := acq } la.toNat

end Sys2Proof.Machine

/-- LD, ST, LDA, STL and ZLINE at their issue (11 R258, R260, R261). -/
def Obligations.LoadAndStoreIssue : Prop :=
  (∀ m sz sx, Accesses (.ld m sz sx false) wantLd (Machine.sizeOf sz) (Machine.sizeOf sz) false
    (fun v th s => loadOn m sz sx v th (s.modThread s.cur (fun x => { x with travelGo := false })))) ∧
  (∀ m sz, Accesses (.st m sz false) wantSt (Machine.sizeOf sz) (Machine.sizeOf sz) true
    (fun v _ s => storeOn sz v (s.modThread s.cur (fun x => { x with travelGo := false })))) ∧
  (∀ m sz, Accesses (.lda m sz) (want permR permR) (Machine.sizeOf sz) (Machine.sizeOf sz) false
    (fun v _ s =>
      let va := capCursor v.a.bits + v.off
      s.launch s.cur (s.withHeld s.cur { s.newOp .out (.loadAcq (Machine.sizeOf sz)) (.sent 1) va with
        dests := [m.d], slot1 := slotA v va, capture := true, acquire := true }) 0)) ∧
  (∀ m sz, Accesses (.stl m sz) (want permW permW) (Machine.sizeOf sz) (Machine.sizeOf sz) false
    (fun v _ s => actOn .out (.storeRel (Machine.sizeOf sz) v.d) [] v.d Val.zero false 0 v s)) ∧
  (∀ m, Accesses (.zline m) (want permW permW) 128 128 true
    (fun v _ s =>
      let va := capCursor v.a.bits + v.off
      let o := { s.newOp .posted .placed (.sent 1) va with slot1 := slotA v va, capture := true }
      s.post s.cur o (plainSectors s.cur o.id ((List.range 4).map (fun i => va + BitVec.ofNat 64 (32 * i))) 0)))

namespace Sys2Proof.Machine

/-- What MIG checks, in order: its capability's tag and kind, that the byte at its address lies in the bounds, and the lease; it needs no
permission (11 R270). -/
def migRules (th : Thread) (v : Val) (va : Word) : List (Bool × Code) :=
  [(v.tag == false, .tag), (decide (capKind v.bits ≠ 0), .sealed),
   (decide ((va.toNat : Int) < capBase v.bits ∨ capTop v.bits < (va.toNat : Int) + 1), .bounds), (!leased th.ranges 0 va 1, .lease)]

/-- An instruction that moves a task in travel mode, once `ready` of the state it begins in gives the state b1 in which its access has
passed its checks: it leaves for the core that its address names, `held` where it may not leave yet, or goes on where it stands. -/
def Travels (i : Instr) (ready : Vals → Thread → State → State → Prop) (held : Stop) (stay : Vals → Thread → State → State) : Prop :=
  ∀ s th b1, Runs i s th →
    let v := s.vals th i
    let va := capCursor v.a.bits + v.off
    ready v th (s.begun th i) b1 →
    (travelTarget b1 s.cur th va = none →
      exec i s = .next (stay v th (b1.modThread s.cur (fun x => { x with travelGo := false })))) ∧
    (∀ h, travelTarget b1 s.cur th va = some h → mayLeave s.unit th = true →
      exec i s = .next (({ s with issuing := false }).depart s.cur th h)) ∧
    (∀ h, travelTarget b1 s.cur th va = some h → mayLeave s.unit th = false →
      exec i s = .next (({ s with issuing := false }).stopUnit s.cur th i held))

end Sys2Proof.Machine

/-- A task in travel mode whose access with GO, or MIG, names a home on another core of its partition moves there first: it
leaves its slot for the arrival queue of that core, k0 to k15 present and nothing outstanding; until then an access waits with its turn
charged, and MIG leaves the rotation. Where it need not move, the access is performed where it stands. MIG checks TAG, SEALED, BOUNDS and
the lease alone (11 R256, R270, 14 R348, R349). That nothing at all is outstanding as it leaves (log 51) and that entries of the replay
queue behind it keep it (log 20) are the model's reading. -/
def Obligations.TravelMovesTheTask : Prop :=
  (∀ m sz sx, Travels (.ld m sz sx true)
    (fun v th b b1 => accessStep b th v.a wantLd (capCursor v.a.bits + v.off) (Machine.sizeOf sz) (Machine.sizeOf sz) false = .ok b1)
    .wait (loadOn m sz sx)) ∧
  (∀ m sz, Travels (.st m sz true)
    (fun v th b b1 => accessStep b th v.a wantSt (capCursor v.a.bits + v.off) (Machine.sizeOf sz) (Machine.sizeOf sz) true = .ok b1)
    .wait (fun v _ s => storeOn sz v s)) ∧
  (∀ m, Travels (.mig m)
    (fun v th b b1 => firstFailure (migRules th v.a (capCursor v.a.bits + v.off)) = none ∧
      translate b b.cur (capCursor v.a.bits + v.off) = .ok b1)
    (.park .leave) (fun _ _ s => s)) ∧
  (∀ m c, Traps (.mig m) (fun v th _ => firstFailure (migRules th v.a (capCursor v.a.bits + v.off)) = some c) c
    (fun v _ _ => capCursor v.a.bits + v.off))

/-- LDCAP keeps the tag only through LC rights of its capability and its lease range and never from host memory; STCAP writes the
granule with its tag, and a tagged value needs SC, and GL where it goes to global space; PREF does nothing where a check fails, no leaf
of the thread maps the address, or its set is pinned, else it asks its home for the line (11 R259, R260). That an address no leaf of the
thread maps counts as a mapping that is not valid for PREF is the model's reading (log 21). -/
def Obligations.CapabilityAccessIssue : Prop :=
  (∀ m, Accesses (.ldcap m) { wantLd with view := false, peer := false } 16 16 false (fun v th s =>
    let va := capCursor v.a.bits + v.off
    let keep := grants (capPerms v.a.bits) permLC && leased th.ranges (permR ||| permLC) va 16 && selector va != 0xFC
    let t := s.cur
    match nearHit s t th va 16 with
    | some x => ((s.modCore (tcore t) (fun k => nearTouch k va th.domain)).setBank t va).deferResult t [m.d]
      [pushed m.d (capVal keep (BitVec.ofNat 128 x.1) x.2)] Flags.none m.la
    | none =>
      let s := s.roomFor t va
      s.launch t (s.withHeld t { s.newOp .longLat (.loadCap (keep && decide (m.d.toNat ≤ 256))) (.sent 1) va with
        dests := [m.d], slot1 := slotA v va, capture := true }) m.la.toNat)) ∧
  (∀ m s th, Runs (.stcap m) s th →
    let v := s.vals th (.stcap m)
    let b := s.begun th (.stcap m)
    let va := capCursor v.a.bits + v.off
    (v.a.tag = true → capKind v.a.bits = 0 → v.d.tag = true → selector va = 0 → grants (capPerms v.d.bits) permGL = false →
      exec (.stcap m) s = .next (({ s with issuing := false }).faultUnit s.cur th .perm va)) ∧
    (v.a.tag = true → capKind v.a.bits = 0 → v.d.tag = true → grants (capPerms v.a.bits) permSC = false →
      exec (.stcap m) s = .next (({ s with issuing := false }).faultUnit s.cur th .perm va)) ∧
    (∀ b1, stcapCheck b th v.a v.d va = none → accessStep b th v.a { wantSt with peer := false } va 16 16 true = .ok b1 →
      exec (.stcap m) s = .next (
        let port := selector va == 0xFC
        let o := { b1.newOp .posted (if port then .store 16 v.d Val.zero else .placed) (.sent 1) va with
          slot1 := slotA v va, slot2 := v.d, capture := true }
        if port then b1.launch s.cur o 0
        else b1.post s.cur o (fun r => r.plainRun s.cur o.id (some v.d.tag) 1 va 16 v.d.bits.toNat)))) ∧
  (∀ m home s th, Runs (.pref m home) s th →
    let v := s.vals th (.pref m home)
    let b := s.begun th (.pref m home)
    let va := (capCursor v.a.bits + v.off) / 128 * 128
    let idle : Prop := (accessCheck b th v.a ⟨permR, permR, true, false, false⟩ va 128 1).isSome = true ∨ selector va ≠ 0 ∨
      prefMapped b th va = false ∨ (home = false ∧ b.ensureLine (tcore s.cur) va th.domain = none)
    (idle → exec (.pref m home) s = .next b) ∧
    (∀ b1, ¬ idle → translate b s.cur va = .ok b1 → postedFull th = false →
      exec (.pref m home) s = .next (b1.launch s.cur
        { b1.newOp .posted (.pref home) (.sent 1) va with slot1 := slotA v va, capture := true } 0)) ∧
    (∀ why, ¬ idle → (translate b s.cur va = .error (.park why) ∨
        (why = .postedRoom ∧ postedFull th = true ∧ ∃ b1, translate b s.cur va = .ok b1)) →
      exec (.pref m home) s = .next (({ s with issuing := false }).stopUnit s.cur th (.pref m home) (.park why))))

namespace Sys2Proof.Machine

/-- The core's copy of a sector of region 0x00 goes back to its home before an atomic (11 R263). -/
def yielding (v : Vals) (th : Thread) (s : State) : State := s.giveUp s.cur th (capCursor v.a.bits + v.off)

end Sys2Proof.Machine

/-- AMO, CAS, TOPKINS, WLD, FILL, EMPTY, FEST, WAITNE and FENCE at their issue: sizes, rights, order and class (11 R261 to R269;
rights from 10 R232). -/
def Obligations.AtomicAndWaitIssue : Prop :=
  (∀ o, Accesses (.amo o) (want permAT permAT) (if o.size8 then 8 else 4) (if o.size8 then 8 else 4) false (fun v th s =>
    actOn (if o.ord = .rlx then .longLat else .out) (.amo o.fn (if o.size8 then 8 else 4) v.b.lo o.ord) [o.d] v.b Val.zero
      o.ord.isAcq o.la v (yielding v th s))) ∧
  (∀ o, Accesses (.cas o) (want permAT permAT) (if o.size8 then 8 else 4) (if o.size8 then 8 else 4) false (fun v th s =>
    actOn (if o.ord = .rlx then .longLat else .out) (.cas (if o.size8 then 8 else 4) v.b.lo v.c.lo o.ord) [o.d] v.b v.c
      o.ord.isAcq o.la v (yielding v th s))) ∧
  (∀ o, Accesses (.topkins o) (want (permR ||| permW ||| permAT) (permR ||| permW ||| permAT)) 8 8 false (fun v th s =>
    actOn .longLat (.topkins (v.b.bits.setWidth 32) (v.c.bits.setWidth 32)) [o.d] v.b v.c false o.la v
      ((topkSectors (capCursor v.a.bits + v.off)).foldl (fun r a => r.giveUp r.cur th a) s))) ∧
  (∀ m take, Accesses (.wld m take) (want (permR ||| permFE ||| (if take then permW else 0)) (permR ||| permFE)) 8 8 false
    (fun v _ s =>
      let va := capCursor v.a.bits + v.off
      s.launch s.cur (s.withHeld s.cur { s.newOp .out (.wld take) (.sent 1) va with
        dests := [m.d], slot1 := slotA v va, capture := true, acquire := true }) 0)) ∧
  (∀ m, Accesses (.fill m) (want (permW ||| permFE) (permW ||| permFE)) 8 8 false
    (fun v _ s => actOn .out (.fill v.d.lo) [] v.d Val.zero false 0 v s)) ∧
  (∀ m, Accesses (.empty m) (want (permW ||| permFE) (permW ||| permFE)) 8 8 true
    (fun v _ s => actOn .posted .empty [] Val.zero Val.zero false 0 v s)) ∧
  (∀ m, Accesses (.fest m) (want permFE (permR ||| permFE)) 8 8 false
    (fun v _ s => actOn .out .fest [m.d] Val.zero Val.zero false 0 v s)) ∧
  (∀ o, Accesses (.waitne o) (want (permR ||| permFE) (permR ||| permFE)) 8 8 false
    (fun v _ s =>
      let va := capCursor v.a.bits + v.off
      s.launch s.cur (s.withHeld s.cur { s.newOp .out (.waitne v.b.lo) (.sent 1) va with
        dests := [o.d], slot1 := slotA v va, slot2 := v.b, capture := true }) 0)) ∧
  (∀ p kind scope, Effects (.fence p kind scope) (fun _ _ _ => True)
    (fun _ _ s => s.launch s.cur (s.newOp .out (.fence kind scope) (.sent 0) 0) 0))

/-- CQSPLIT stores its entries in ascending order as 32-byte plain stores from a's cursor and keeps (d, d+1) until the last is at
its home: the count with bit 63 where the box was used up, and the continuation (08 R186 to R189). Its checks stop it before any
entry is written: the capability's, the codes', then region, privilege, lease and view; that those of the codes stand between is the
model's reading (log 44). -/
def Obligations.SplitResults : Prop :=
  ∀ (o : SplitOps) (s : State) (th : Thread), Runs (.cqsplit o) s th →
    let v := s.vals th (.cqsplit o)
    let b := s.begun th (.cqsplit o)
    let va := capCursor v.a.bits
    let n := 32 * o.limit.toNat
    let start : Quad := v.cont.getD (if o.e = 256 then v.b.bits else v.e.bits)
    let asks := if selector va == 0xF3 || selector va == 0xF8 || selector va == 0xFC then permW ||| permSY else permW
    (∀ c, capCheck v.a asks va.toNat n 32 = some c →
      exec (.cqsplit o) s = .next (({ s with issuing := false }).faultUnit s.cur th c va)) ∧
    (∀ c, capCheck v.a asks va.toNat n 32 = none → curveCheck [v.b.bits, v.c.bits, start] = some c →
      exec (.cqsplit o) s = .next (({ s with issuing := false }).faultUnit s.cur th c 0)) ∧
    (∀ c, capCheck v.a asks va.toNat n 32 = none → curveCheck [v.b.bits, v.c.bits, start] = none →
      regionCheck b th.sup th.ranges (want permW permW) va n = some c →
      exec (.cqsplit o) s = .next (({ s with issuing := false }).faultUnit s.cur th c va)) ∧
    (∀ b1, capCheck v.a asks va.toNat n 32 = none → curveCheck [v.b.bits, v.c.bits, start] = none →
      accessStep b th v.a (want permW permW) va n 32 false = .ok b1 →
      let x := splitEntries start v.b.bits v.c.bits o.gap.toNat o.limit.toNat
      let p := { b1.newOp .longLat (.split x.2.1 x.2.2) (.sent 1) va with
        dests := destGroup o.d 2, slot1 := slotA v va, slot2 := v.b, slot3 := v.c, cont := start, capture := true }
      let r := storeEntries s.cur p.id va x.1 (b1.startOp s.cur p o.la.toNat)
      exec (.cqsplit o) s = .next (r.1.setPhase s.cur p.id (if r.2 = 0 then .done [x.2.1, x.2.2] else .sent r.2)))

/-! ### The matrix unit and its tiles (09) -/

namespace Sys2Proof.Machine

/-- A tile that an instruction of the thread in slot t may use at once: it is no handler's, the tile is FREE or its task's, and
neither BUSY nor DRAIN is set (09 R198). -/
def TileReady (s : State) (t : Nat) (th : Thread) (i : Nat) : Prop :=
  isHandler t = false ∧ (((s.core (tcore t)).tile i).free = true ∨ ((s.core (tcore t)).tile i).owner = th.taskid) ∧
  ((s.core (tcore t)).tile i).busy = false ∧ ((s.core (tcore t)).tile i).drain = false

/-- A tile that makes it wait. -/
def TileWaits (s : State) (t : Nat) (th : Thread) (i : Nat) : Prop :=
  isHandler t = false ∧ ((((s.core (tcore t)).tile i).free = false ∧ ((s.core (tcore t)).tile i).owner ≠ th.taskid) ∨
  ((s.core (tcore t)).tile i).busy = true ∨ ((s.core (tcore t)).tile i).drain = true)

/-- The members of MMA and SMMA in the order of the table of 09 R200. -/
def mmaOf (o : MmaOps) : List Instr :=
  [.mmaT32 o, .mmaT64 o, .mmaT128 o, .mmaW o, .mmaH o, .mmaQ o, .mmaQ8 o, .mmaT16 o, .smmaT32 o, .smmaT64 o, .smmaQ o]

end Sys2Proof.Machine

/-- MMA.T32, T64, T128, W, H, Q, Q8, T16 and SMMA.T32, T64, Q: with the tile ready, the unit idle and the checks of 09 R207
passed, the tile is claimed and BUSY, the unit is the operation's and its issuer leaves the rotation; a handler's is PRIVILEGE; a
tile in use, a unit at work and an earlier claim on it park the issuer, its own claims kept (09 R198, R206 to R208). -/
def Obligations.MatrixIssue : Prop :=
  ∀ (o : MmaOps) (k : Nat) (i : Instr) (s : State) (th : Thread), (mmaOf o)[k]? = some i → Runs i s th →
    let v := s.vals th i
    let b := s.begun th i
    let c := tcore s.cur
    (isHandler s.cur = true → exec i s = .next (({ s with issuing := false }).faultUnit s.cur th .privilege 0)) ∧
    (TileWaits b s.cur th o.d.toNat →
      exec i s = .next (({ s with issuing := false }).stopUnit s.cur th i (.park (.tile o.d.toNat)))) ∧
    (TileReady b s.cur th o.d.toNat → unitBusy (b.core c) th.taskid = true →
      exec i s = .next ((({ s with issuing := false }).queueClaim s.cur th o.d.toNat).setThread s.cur
        { th with status := .parked .matrixUnit s.cycle })) ∧
    (∀ e, TileReady b s.cur th o.d.toNat → unitBusy (b.core c) th.taskid = false → matrixChecks b s.cur th k o v = .error e →
      exec i s = .next (({ s with issuing := false }).stopUnit s.cur th i e)) ∧
    (∀ m, TileReady b s.cur th o.d.toNat → unitBusy (b.core c) th.taskid = false → matrixChecks b s.cur th k o v = .ok m →
      let x := b.claimTile s.cur th m.tile
      let y := (x.1.core c).takeUnit s.cur th.taskid b.nextId
      let p := { b.newOp .out (.matrix m) (.sent 1) 0 with ticks := (x.2 || y.2).toNat }
      exec i s = .next (((x.1.setCore c y.1).modTile c m.tile (fun z => { z with busy := true })).launch s.cur p 0))

/-- Operands of different classes, and a predicate over other than integer operands of one block size, are FORMAT_MISMATCH; so is
a format code that its operand's window, or the lack of one, does not admit (09 R202, R204, R214). -/
def Obligations.MatrixFormatsMustAgree : Prop :=
  ∀ (s : State) (t k : Nat) (th : Thread) (o : MmaOps) (v : Vals) (thr : Val),
    let m := matrixJob s th k o v Val.zero
    let int := fun f : BitVec 6 => (f = 14 ∧ o.verd ≠ .none) ∨ (f ≠ 14 ∧ isIntegerClass f = true)
    matrixSpans s t th o v m = .ok thr →
    (((m.winA.isSome ↔ o.fa ≠ 0) ∨ (m.winB.isSome ↔ o.fb ≠ 0) ∨ ¬ (int m.fa ↔ int m.fb) ∨
        (o.verd ≠ .none ∧ (¬ int m.fa ∨ ¬ int m.fb ∨ m.ba ≠ m.bb))) →
      matrixChecks s t th k o v = .error (.trap .formatMismatch 0)) ∧
    (∀ m', matrixChecks s t th k o v = .ok m' → m' = { m with thr := thr } ∧ (m.winA.isSome ↔ o.fa = 0) ∧
      (m.winB.isSome ↔ o.fb = 0) ∧ (int m.fa ↔ int m.fb) ∧ (o.verd ≠ .none → int m.fa ∧ int m.fb ∧ m.ba = m.bb))

/-- One block of the monitor (09 R216): a decided element stays; else the block's sum is added and rounded to nearest even, NADD
and AMAX grow, NODEC closes the decision, and the tests of R214 decide against the bound: FALSE and TRUE leave their encodings
with the block's number, a KEPT element its sum. -/
def Obligations.MonitorDecidesByTheBound : Prop :=
  ∀ (x : Monitor) (f c : BitVec 32) (inexact : Bool) (w : VerdictWord),
    let c1 := BitVec.ofNat 32 (round32 1 ((decodeFp f32 c.toNat).plus (decodeFp f32 f.toNat)))
    let w1 := { w with nadd := min 65535 (w.nadd + 1), amax := amaxNext w.amax c1, nodec := w.nodec || inexact }
    let low := (decodeFp f32 c1.toNat).plus (monitorBound x w1)
    let high := (decodeFp f32 c1.toNat).plus (monitorBound x w1).negate
    (w.vst = .isFalse ∨ w.vst = .isTrue → monitorStep x f inexact c w = (c, w)) ∧
    (w.vst = .kept ∨ (w.vst = .isOpen ∧ w1.nodec = true) → monitorStep x f inexact c w = (c1, w1)) ∧
    (w.vst = .isOpen → w1.nodec = false →
      monitorStep x f inexact c w =
        if falseTest x.verd low x.theta then (BitVec.ofNat 32 (0x7FA00000 + 2 * x.q), { w1 with vst := .isFalse })
        else if trueTest x.verd high x.theta then
          (if x.verd = .topk ∨ x.need = true then (c1, { w1 with vst := .kept })
          else (BitVec.ofNat 32 (0x7FA00000 + 2 * x.q + 1), { w1 with vst := .isTrue }))
        else (c1, w1))

namespace Sys2Proof.Machine

/-- The state after a tile is claimed for the task if it was FREE (09 R198). -/
def State.claimed (s : State) (th : Thread) (i : Nat) : State := (s.claimTile s.cur th i).1

/-- The verdict of the tile rules on an instruction that names a tile: PRIVILEGE in a handler slot, else a wait (09 R198). -/
def TileGuards (i : Instr) (tile : Nat) : Prop :=
  ∀ s th, Runs i s th →
    (isHandler s.cur = true → exec i s = .next (({ s with issuing := false }).faultUnit s.cur th .privilege 0)) ∧
    (TileWaits (s.begun th i) s.cur th tile →
      exec i s = .next (({ s with issuing := false }).stopUnit s.cur th i (.park (.tile tile))))

end Sys2Proof.Machine

/-- MACZ zeroes every element and verdict word of its tile and gives it up under `.rel`; MACLD sends its rows' loads and MACST its
rows' stores, the tile claimed; MDRAIN needs a tagged HENTRY of the task's own domain and takes its place among its core's drains;
MHSET writes HENTRY and HPARAM; HEND leaves the rotation, outside a handler slot is PRIVILEGE, and past the handler's limit
HANDLER_OVERRUN; VBOUND gives the tail that its operands bound, an abandoned start is ABANDONED_OPERAND (09 R218 to R228). That MACLD's
rows are read as it issues, after the thread's own accesses (log 31), and where an MDRAIN stands among its core's drains (log 46), are the
model's reading. -/
def Obligations.TileInstructionResults : Prop :=
  (∀ p d rel, TileGuards (.macz p d rel) d.toNat ∧ Effects (.macz p d rel) (fun _ th s => TileReady s s.cur th d.toNat)
    (fun _ th s => (s.claimed th d.toNat).modTile (tcore s.cur) d.toNat
      (fun x => if rel then { Tile.reset with fpsnap := x.fpsnap } else { x with elems := [], verd := [], shape := 0 }))) ∧
  (∀ o, TileGuards (.macld o) o.d.toNat ∧ ∀ s th b1, Runs (.macld o) s th →
    let v := s.vals th (.macld o)
    let va := capCursor v.a.bits + v.off
    let c := tcore s.cur
    let i := o.d.toNat
    let m := shapeRows o.shape.toNat
    let n := shapeCols o.shape.toNat
    TileReady (s.begun th (.macld o)) s.cur th i →
    accessStep (s.begun th (.macld o)) th v.a (want permR permR) va
      (16 * o.st.toNat * (m - 1) + rowBytes o.bf16 n) 16 false = .ok b1 →
    ownWaits b1 s.cur th = false →
    let b2 := (List.range m).foldl (fun r j => r.pullSpan c (rowVa va o.st.toNat j) (rowBytes o.bf16 n)) b1
    let read := loadRows b2 s.cur th o.bf16 va o.st.toNat n m 0
    let x := b2.claimTile s.cur th i
    let p := { b2.newOp .longLat (.rows i o.bf16 o.p.pass o.shape o.st.toNat)
        (match read with | .ok _ => .sent m | .error f => .refusing f.1 f.2) va with
      slot1 := slotA v va, capture := true, ticks := x.2.toNat
      cells := match read with | .ok l => (List.range l.length).zip l | .error _ => [] }
    exec (.macld o) s = .next (((List.range m).foldl (fun r j => r.setBanks s.cur (rowVa va o.st.toNat j) (rowBytes o.bf16 n))
      (x.1.modTile c i (fun y => { y with busy := true }))).startOp s.cur p 0)) ∧
  (∀ o, TileGuards (.macst o) o.d.toNat ∧ ∀ s th b1, Runs (.macst o) s th →
    let v := s.vals th (.macst o)
    let va := capCursor v.a.bits + v.off
    let b := s.begun th (.macst o)
    let tl := (b.core (tcore s.cur)).tile o.d.toNat
    let m := shapeRows tl.shape.toNat
    let n := shapeCols tl.shape.toNat
    TileReady b s.cur th o.d.toNat →
    accessStep b th v.a (want permW permW) va (16 * o.st.toNat * (m - 1) + rowBytes o.bf16 n) 16 true = .ok b1 →
    let mode := if roundMode o.p th = 6 then 1 else roundMode o.p th
    let rows := (List.range m).map (fun r => (List.range n).map (fun j =>
      macstElem o.bf16 o.p.sat mode (tget tl.elems (r * n + j) 0).toNat))
    let b2 := (b1.claimTile s.cur th o.d.toNat).1
    let p := { b2.newOp .posted .placed (.sent 1) va with slot1 := slotA v va }
    let b3 := (b2.post s.cur p (fun z => ((List.range rows.length).zip rows).foldl (fun z r =>
        let y := z.1.plainRun s.cur p.id none 9 (rowVa va o.st.toNat r.1) (rowBytes o.bf16 n)
          (joinElems (if o.bf16 then 16 else 32) (r.2.map Prod.fst))
        (y.1, z.2 + y.2)) (z, 0))).raise s.cur
      (rows.foldl (fun f l => l.foldl (fun f x => f.or x.2) f) Flags.none)
    exec (.macst o) s = .next (if o.rel then b3.modTile (tcore s.cur) o.d.toNat (fun x => { Tile.reset with fpsnap := x.fpsnap }) else b3)) ∧
  (∀ p d a id, TileGuards (.mdrain p d a id) d.toNat ∧
    Traps (.mdrain p d a id) (fun _ th s => TileReady s s.cur th d.toNat ∧ (s.core (tcore s.cur)).hentry.tag = false)
      .tag (fun _ _ _ => 0) ∧
    Traps (.mdrain p d a id) (fun _ th s => TileReady s s.cur th d.toNat ∧ (s.core (tcore s.cur)).hentry.tag = true ∧
      (s.core (tcore s.cur)).hdomain ≠ th.domain) .perm (fun _ _ _ => 0) ∧
    Effects (.mdrain p d a id) (fun v th s => TileReady s s.cur th d.toNat ∧ (s.core (tcore s.cur)).hentry.tag = true ∧
        (s.core (tcore s.cur)).hdomain = th.domain ∧
        (a = 256 ∨ accessCheck s th v.a (want permFE (permW ||| permFE)) (capCursor v.a.bits) 8 8 = none))
      (fun v th s =>
        let r := (s.claimed th d.toNat).queueDrain s.cur th d.toNat id v.a
        r.launch s.cur (r.newOp .out (.mdrain d.toNat id v.a) (.sent 0) 0) 0)) ∧
  (∀ p a b, Traps (.mhset p a b) (fun v _ _ => v.a.tag = true ∧ 2 ≤ capKind v.a.bits) .sealed (fun _ _ _ => 0) ∧
    Traps (.mhset p a b) (fun v _ _ => v.a.tag = true ∧ capKind v.a.bits < 2 ∧ grants (capPerms v.a.bits) permX = false)
      .perm (fun _ _ _ => 0) ∧
    Effects (.mhset p a b)
      (fun v _ _ => v.a.tag = false ∨ (capKind v.a.bits < 2 ∧ grants (capPerms v.a.bits) permX = true))
      (fun v th s => s.modCore (tcore s.cur) (fun k => { k with hentry := v.a, hparam := v.b, hdomain := th.domain }))) ∧
  (Traps .hend (fun _ _ s => isHandler s.cur = false) .privilege (fun _ _ _ => 0) ∧
    Traps .hend (fun _ th s => isHandler s.cur = true ∧ lateHandler s th = true) .handlerOverrun (fun _ _ _ => 0) ∧
    Effects .hend (fun _ th s => isHandler s.cur = true ∧ lateHandler s th = false) (fun _ _ s => s.launch s.cur (s.newOp .out .hend (.sent 0) 0) 0)) ∧
  (∀ o, let x := fun v : Vals => if o.acc then (v.c.bits.setWidth 32 : BitVec 32) else 0
    Traps (.vbound o) (fun v _ _ => isAbandoned f32 (x v).toNat = true) .abandonedOperand (fun _ _ _ => 0) ∧
    Effects (.vbound o) (fun v _ _ => isAbandoned f32 (x v).toNat = false) (fun v _ s => s.putDest s.cur o.d
      (Val.data ((vboundVal o.fa o.fb (blockSize o.bs) (o.n.toNat + 1) v.a.bits v.b.bits (tailOf (x v))).setWidth 128))))

/-! ### The engine and the mark domains at their issue (11 R271 to R282, 12 R291 to R301) -/

namespace Sys2Proof.Machine

/-- The engine's operation of a thread, with what an instruction gives it (11 R271). -/
def engineOp (t : Nat) (th : Thread) (kind : EngKind) (v : Vals) (mode : Compl) (val : Word) : EngOp :=
  newEngine t th kind v mode val

/-- An operation handed to the engine: its issuer leaves the rotation until it is queued and d holds its number; a full queue
parks the issuer (11 R271). -/
def EngineTakes (i : Instr) (d : Opn) (ok : Vals → Thread → State → Prop) (e : Vals → Thread → State → EngOp) : Prop :=
  Effects i (fun v th s => ok v th s ∧ engineFull s (tcore s.cur) = false)
    (fun v th s => s.launch s.cur { s.newOp .out (.engine (e v th s)) (.sent 0) 0 with dests := [d] } 0) ∧
  (∀ s th, Runs i s th → ok (s.vals th i) th (s.begun th i) → engineFull (s.begun th i) (tcore s.cur) = true →
    exec i s = .next (({ s with issuing := false }).stopUnit s.cur th i (.park .engineQueue)))

end Sys2Proof.Machine

/-- COPY, ARCOUT, ARCIN, ARCDROP queue an operation with its captured operands once their checks pass; a shelf not leased to the
domain is LEASE, planes that the page's window does not admit are FORMAT_MISMATCH; ENGST reports on an operation without waiting (11 R271 to R281). -/
def Obligations.EngineIssue : Prop :=
  (∀ o, EngineTakes (.copy o) o.d
    (fun v th s => (∃ x, readShape s s.cur th v.c = .ok x ∧ copyCheck s th v.a v.b x.1 x.2 = none) ∧ complCheck s th o.mode v.e = none)
    (fun v th s =>
      let x := match readShape s s.cur th v.c with | .ok x => x | .error _ => (0, [])
      { engineOp s.cur th .copy v o.mode o.v with esize := x.1, dims := x.2 })) ∧
  (∀ o, EngineTakes (.arcout o) o.d
    (fun v th s => spanCheck s th v.a wantPage (capCursor v.a.bits) (2 ^ 18) (2 ^ 18) = none ∧
      planesBad s (capCursor v.a.bits) v.b.bits = false ∧ shelfLeased s th.domain v.b.lo.toNat = true ∧
      complCheck s th o.mode v.e = none)
    (fun v th s => engineOp s.cur th .arcout v o.mode o.v)) ∧
  (∀ o, EngineTakes (.arcin o) o.d
    (fun v th s => spanCheck s th v.a wantWrite (capCursor v.a.bits) (2 ^ 18) (2 ^ 18) = none ∧
      shelfLeased s th.domain v.b.lo.toNat = true ∧ complCheck s th .fill v.e = none)
    (fun v th s => { engineOp s.cur th .arcin v .fill o.v with esize := if o.c = 256 then 0 else 1 })) ∧
  (∀ o, EngineTakes (.arcdrop o) o.d
    (fun v th s => shelfLeased s th.domain v.b.lo.toNat = true ∧ complCheck s th o.mode v.a = none)
    (fun v th s => engineOp s.cur th .arcdrop v o.mode (o.v.setWidth 64))) ∧
  (∀ o, Traps (.arcdrop o) (fun v th s => shelfLeased s th.domain v.b.lo.toNat = false) .lease (fun _ _ _ => 0)) ∧
  (∀ o, Traps (.arcout o) (fun v th s => spanCheck s th v.a wantPage (capCursor v.a.bits) (2 ^ 18) (2 ^ 18) = none ∧
      planesBad s (capCursor v.a.bits) v.b.bits = false ∧ shelfLeased s th.domain v.b.lo.toNat = false) .lease (fun _ _ _ => 0) ∧
    Traps (.arcout o) (fun v th s => spanCheck s th v.a wantPage (capCursor v.a.bits) (2 ^ 18) (2 ^ 18) = none ∧
      planesBad s (capCursor v.a.bits) v.b.bits = true) .formatMismatch (fun _ _ _ => 0)) ∧
  (∀ o, Traps (.arcin o) (fun v th s => spanCheck s th v.a wantWrite (capCursor v.a.bits) (2 ^ 18) (2 ^ 18) = none ∧
      shelfLeased s th.domain v.b.lo.toNat = false) .lease (fun _ _ _ => 0)) ∧
  (∀ o, Effects (.engst o) (fun _ _ _ => True) (fun v _ s =>
    let id : BitVec 16 := match o.b with | .imm x => x | .reg _ => v.b.bits.setWidth 16
    s.deferResult s.cur [o.d] [Val.ofWord (engstWord (s.core (tcore s.cur)) id)] Flags.none o.la))

namespace Sys2Proof.Machine

/-- What a mark operation on one cell checks before it is sent: the domain bound, the code well formed and of its dimension, the
cell inside it, rights AT over its eight bytes (12 R292). -/
def CellGood (s : State) (th : Thread) (dom : Nat) (a : Val) (code : Quad) : Prop :=
  (s.mark dom).bound = true ∧ codeOk code = true ∧ codeDim code = (s.mark dom).dims ∧
  codeDigits code < (s.mark dom).cells ∧
  accessCheck s th a (want permAT permAT) (cellVa (s.mark dom) (codeDigits code)) 8 8 = none

/-- An operation on one cell, sent to the home of its cell. -/
def markSent (cls : OpClass) (act : Act) (dom c : Nat) (dests : List Opn) (v : Vals) (b d : Val) (la : BitVec 4) (th : Thread)
    (s : State) : State :=
  let va := cellVa (s.mark dom) c
  let r := s.dropCell s.cur th va
  r.launch s.cur { r.newOp cls act (.sent 1) va with
    dests := dests, slot1 := slotA v va, slot2 := b, slot3 := d, capture := true } la.toNat

/-- The homes of a box, each sent one message, and the operation that waits for them all (12 R297, R298). -/
def boxSent (act : Act) (dom : Nat) (o : SenseOps) (v : Vals) (cont : Quad) (th : Thread) (s : State) : State :=
  let t := s.cur
  let va := cellVa (s.mark dom) (codeDigits v.b.bits)
  let p := { s.newOp .longLat act (.sent 1) va with
    dests := destGroup o.d 2, slot1 := slotA v va, slot2 := v.b, slot3 := v.c, cont := cont, capture := true }
  let hs := boxHomes s dom v.b.bits v.c.bits
  (hs.foldl (fun r h =>
    (r.modThread t (fun x => { x with bankmask := x.bankmask ||| bankBit h })).send (.core (tcore t)) (.core h) (th.owner t)
      (.access t p.id)) (s.startOp t p o.la.toNat)).setPhase t p.id (.sent hs.length)

/-- What a box operation checks: the domain bound, two good codes of its dimension, at most 4,096 cells, all inside it (12 R297). -/
def BoxGood (s : State) (th : Thread) (dom : Nat) (v : Vals) : Prop :=
  (s.mark dom).bound = true ∧ codeOk v.b.bits = true ∧ codeOk v.c.bits = true ∧ codeDim v.b.bits = (s.mark dom).dims ∧
  codeDim v.c.bits = (s.mark dom).dims ∧ boxCount (s.mark dom).dims (codeDigits v.b.bits) (codeDigits v.c.bits) ≤ 4096 ∧
  codeDigits v.c.bits < (s.mark dom).cells ∧
  accessCheck s th v.a (want permAT permAT) (cellVa (s.mark dom) (codeDigits v.b.bits))
    (8 * (codeDigits v.c.bits - codeDigits v.b.bits + 1)) 8 = none

/-- A box of no cell: its operation is done at once with the results of 12 R297, and no home is reached. -/
def emptyBox (act : Act) (o : SenseOps) (v : Vals) (cont : Quad) (s : State) : State :=
  s.startOp s.cur { s.newOp .longLat act (.done emptySense) (cellVa (s.mark o.dom.toNat) (codeDigits v.b.bits)) with
    dests := destGroup o.d 2, slot1 := slotA v (cellVa (s.mark o.dom.toNat) (codeDigits v.b.bits)), slot2 := v.b, slot3 := v.c
    cont := cont, capture := true } o.la.toNat

end Sys2Proof.Machine

/-- MDEP, MERASE and MREAD go to the home of their cell, the two former posted; MSENSE and MSAMP ask each home of their box, MSAMP
with one draw, kept when it is re-injected; an empty box answers at once; what is checked first, and the codes (12 R291 to R298, R302).
That the core's clean copy of a cell is dropped as its operation is sent is the model's reading of 13 R310 (log 32). -/
def Obligations.MarkIssue : Prop :=
  ((∀ (o : MarkOps) (i : Instr), i = .mdep o ∨ i = .merase o ∨ i = .mread o →
    Traps i (fun _ _ s => (s.mark o.dom.toNat).bound = false) .wrongClass (fun _ _ _ => 0) ∧
    Traps i (fun v _ s => (s.mark o.dom.toNat).bound = true ∧ codeOk v.b.bits = false) .curveHeader (fun _ _ _ => 0) ∧
    Traps i (fun v _ s => (s.mark o.dom.toNat).bound = true ∧ codeOk v.b.bits = true ∧
      codeDim v.b.bits ≠ (s.mark o.dom.toNat).dims) .curveDimMismatch (fun _ _ _ => 0) ∧
    Traps i (fun v _ s => (s.mark o.dom.toNat).bound = true ∧ codeOk v.b.bits = true ∧
      codeDim v.b.bits = (s.mark o.dom.toNat).dims ∧ (s.mark o.dom.toNat).cells ≤ codeDigits v.b.bits) .bounds
      (fun v _ s => cellVa (s.mark o.dom.toNat) (codeDigits v.b.bits))) ∧
  (∀ (o : MarkOps) (i : Instr) (cls : OpClass) (act : Vals → Act) (dests : List Opn) (d : Vals → Val) (la : BitVec 4),
    ((i = .mdep o ∧ cls = .posted ∧ dests = [] ∧ d = (fun v => v.d) ∧ la = 0 ∧
        act = fun v => .mdep o.dom.toNat (codeDigits v.b.bits) (v.d.bits.setWidth 32)) ∨
     (i = .merase o ∧ cls = .posted ∧ dests = [] ∧ d = (fun _ => Val.zero) ∧ la = 0 ∧
        act = fun v => .merase o.dom.toNat (codeDigits v.b.bits)) ∨
     (i = .mread o ∧ cls = .longLat ∧ dests = [o.d] ∧ d = (fun _ => Val.zero) ∧ la = o.la ∧
        act = fun v => .mread o.dom.toNat (codeDigits v.b.bits))) →
    ∀ s th, Runs i s th →
      let v := s.vals th i
      let b := s.begun th i
      let c := codeDigits v.b.bits
      CellGood b th o.dom.toNat v.a v.b.bits →
      ∀ b1 th1, translate b s.cur (cellVa (b.mark o.dom.toNat) c) = .ok b1 → b1.thread s.cur = some th1 →
        (cls = .posted → postedFull th1 = false) →
        exec i s = .next (markSent cls (act v) o.dom.toNat c dests v v.b (d v) la th1 b1))) ∧
  ((∀ o s th b1 th1, Runs (.msense o) s th →
    let v := s.vals th (.msense o)
    let b := s.begun th (.msense o)
    let m := b.mark o.dom.toNat
    BoxGood b th o.dom.toNat v → boxEmpty m.dims (codeDigits v.b.bits) (codeDigits v.c.bits) = false →
    translate b s.cur (cellVa m (codeDigits v.b.bits)) = .ok b1 → b1.thread s.cur = some th1 →
    exec (.msense o) s = .next (boxSent (.msense o.dom.toNat v.b.bits v.c.bits) o.dom.toNat o v 0 th1 b1)) ∧
  (∀ o s th b1 th1, Runs (.msamp o) s th →
    let v := s.vals th (.msamp o)
    let b := s.begun th (.msamp o)
    let m := b.mark o.dom.toNat
    let r := match v.cont with
      | some q => (q.setWidth 32, th.prng)
      | none => th.prng.next
    BoxGood b th o.dom.toNat v → boxEmpty m.dims (codeDigits v.b.bits) (codeDigits v.c.bits) = false →
    translate (b.modThread s.cur (fun x => { x with prng := r.2 })) s.cur (cellVa m (codeDigits v.b.bits)) = .ok b1 →
    b1.thread s.cur = some th1 →
    exec (.msamp o) s = .next (boxSent (.msamp o.dom.toNat v.b.bits v.c.bits r.1) o.dom.toNat o v (r.1.setWidth 128) th1 b1)) ∧
  (∀ o, Effects (.msense o)
    (fun v _ s => (s.mark o.dom.toNat).bound = true ∧ markCodes (s.mark o.dom.toNat).dims [v.b.bits, v.c.bits] = none ∧
      boxEmpty (s.mark o.dom.toNat).dims (codeDigits v.b.bits) (codeDigits v.c.bits) = true)
    (fun v _ s => emptyBox (.msense o.dom.toNat v.b.bits v.c.bits) o v 0 s)) ∧
  (∀ o, Effects (.msamp o)
    (fun v _ s => (s.mark o.dom.toNat).bound = true ∧ markCodes (s.mark o.dom.toNat).dims [v.b.bits, v.c.bits] = none ∧
      boxEmpty (s.mark o.dom.toNat).dims (codeDigits v.b.bits) (codeDigits v.c.bits) = true)
    (fun v th s =>
      let r := match v.cont with
        | some q => (q.setWidth 32, th.prng)
        | none => th.prng.next
      emptyBox (.msamp o.dom.toNat v.b.bits v.c.bits r.1) o v (r.1.setWidth 128) (s.modThread s.cur (fun x => { x with prng := r.2 })))) ∧
  (∀ (o : SenseOps) (i : Instr), (i = .msense o ∨ i = .msamp o) →
    Traps i (fun _ _ s => (s.mark o.dom.toNat).bound = false) .wrongClass (fun _ _ _ => 0) ∧
    (∀ c, Traps i (fun v _ s => (s.mark o.dom.toNat).bound = true ∧
      firstFailure [(!codeOk v.b.bits || !codeOk v.c.bits, .curveHeader),
        (decide (codeDim v.b.bits ≠ (s.mark o.dom.toNat).dims) || decide (codeDim v.c.bits ≠ (s.mark o.dom.toNat).dims),
          .curveDimMismatch)] = some c) c (fun _ _ _ => 0)) ∧
    Traps i
      (fun v _ s => (s.mark o.dom.toNat).bound = true ∧ markCodes (s.mark o.dom.toNat).dims [v.b.bits, v.c.bits] = none ∧
        boxEmpty (s.mark o.dom.toNat).dims (codeDigits v.b.bits) (codeDigits v.c.bits) = false ∧
        4096 < boxCount (s.mark o.dom.toNat).dims (codeDigits v.b.bits) (codeDigits v.c.bits)) .senseTooLarge (fun _ _ _ => 0)))

/-- MTICK advances a stepped domain at its home and delivers the new tick; a re-injected one that was done, bit 0 of what it kept, only
reads it, one that was not is sent again; MBIND reads a descriptor, answers its status, and with status 0 binds the domain and waits for
every home; MUNBIND takes a domain down the same way, another domain's only with SUP (12 R299 to R301). That the issuing core gives up its
copies of the cells (log 32), that the descriptor is read as MBIND issues (log 31) once none of the thread's accesses is on its way (log
13), when an entry counts as unbound again (log 93), and that an MTICK of a domain without a cell is BOUNDS (log 94), are the model's. -/
def Obligations.DomainIssue : Prop :=
  (∀ o, Traps (.mtick o) (fun _ _ s => (s.mark o.dom.toNat).bound = false ∨ (s.mark o.dom.toNat).stepped = false)
    .wrongClass (fun _ _ _ => 0)) ∧
  (∀ o, Traps (.mtick o) (fun _ _ s => (s.mark o.dom.toNat).bound = true ∧ (s.mark o.dom.toNat).stepped = true ∧
    (s.mark o.dom.toNat).cells = 0) .bounds (fun _ _ s => cellVa (s.mark o.dom.toNat) 0)) ∧
  (∀ o s th b1, Runs (.mtick o) s th →
    let v := s.vals th (.mtick o)
    let b := s.begun th (.mtick o)
    let va := cellVa (b.mark o.dom.toNat) 0
    (b.mark o.dom.toNat).bound = true → (b.mark o.dom.toNat).stepped = true → 0 < (b.mark o.dom.toNat).cells →
    accessCheck b th v.a (want permAT permAT) va 8 8 = none →
    (∀ q, v.cont = some q → q.getLsbD 0 = true →
      exec (.mtick o) s = .next (b.putDest s.cur o.d (Val.ofWord (BitVec.ofNat 64 (b.mark o.dom.toNat).tick)))) ∧
    ((∀ q, v.cont = some q → q.getLsbD 0 = false) → translate b s.cur va = .ok b1 →
      exec (.mtick o) s = .next (b1.launch s.cur { b1.newOp .out (.mtick o.dom.toNat) (.sent 1) va with
        dests := [o.d], slot1 := slotA v va, capture := true } 0))) ∧
  (∀ o s th g, Runs (.mbind o) s th →
    let v := s.vals th (.mbind o)
    let b := s.begun th (.mbind o)
    let a := capCursor v.a.bits
    let r := b.pullSpan (tcore s.cur) a 128
    let d := domainOf th.domain g
    accessCheck b th v.a (want permR permR) a 128 64 = none → ownWaits b s.cur th = false →
    readGranules r s.cur th a 8 = .ok g →
    (descBad d = true → exec (.mbind o) s = .next (({ s with issuing := false }).faultUnit s.cur th .formatMismatch a)) ∧
    (∀ c, descBad d = false → baseCheck th (g.headD Val.zero) d = some c →
      exec (.mbind o) s = .next (({ s with issuing := false }).faultUnit s.cur th c (BitVec.ofNat 64 d.base))) ∧
    (descBad d = false → baseCheck th (g.headD Val.zero) d = none → bindStatus r o.dom.toNat d ≠ 0 →
      exec (.mbind o) s = .next (r.putDest s.cur o.d (Val.ofWord (BitVec.ofNat 64 (bindStatus r o.dom.toNat d))))) ∧
    (descBad d = false → baseCheck th (g.headD Val.zero) d = none → bindStatus r o.dom.toNat d = 0 →
      let d1 := { d with dhome := targetCore r (tcore s.cur) (cellVa d 0) }
      let hs := homesOf r d1
      exec (.mbind o) s = .next (bindOp s.cur o.dom.toNat o.d true hs (hs.foldl
        (fun z h => z.modHome h (fun k => { k with ticks := tput k.ticks o.dom.toNat 0 }))
        ((r.modMark o.dom.toNat (fun x => { d1 with gen := x.gen + 1 })).yieldCells th.domain d1))))) ∧
  (∀ p d dom, Effects (.munbind p d dom) (fun _ _ s => (s.mark dom.toNat).bound = false)
    (fun _ _ s => s.putDest s.cur d (Val.ofWord 1))) ∧
  (∀ p d dom, Traps (.munbind p d dom) (fun _ th s => (s.mark dom.toNat).bound = true ∧ (s.mark dom.toNat).domain ≠ th.domain ∧
    th.sup = false) .perm (fun _ _ _ => 0)) ∧
  (∀ p d dom, Effects (.munbind p d dom)
    (fun _ th s => (s.mark dom.toNat).bound = true ∧ ((s.mark dom.toNat).domain = th.domain ∨ th.sup = true))
    (fun _ th s => bindOp s.cur dom.toNat d false (homesOf s (s.mark dom.toNat))
      ((s.modMark dom.toNat (fun x => { x with bound := false })).yieldCells th.domain (s.mark dom.toNat))))

/-! ### Scheduling (14 R356 to R364) -/

namespace Sys2Proof.Machine

/-- A member of the scheduling family in a partition slot (14 R356). -/
def Schedules (i : Instr) (ok : Vals → Thread → State → Prop) (f : Vals → Thread → State → State) : Prop :=
  Effects i (fun v th s => isHandler s.cur = false ∧ ok v th s) f

/-- An operation that leaves the rotation with its results known: they are delivered as it returns. -/
def State.answers (s : State) (d : Opn) (v : Val) : State :=
  s.startOp s.cur { s.newOp .out .nothing (.done [v]) 0 with dests := [d] } 0

/-- A group word's access: the word's copy given up, and the act sent to its home once released (14 R361, 11 R263). -/
def groupSent (act : Act) (acq : Bool) (d : Opn) (v : Vals) (th : Thread) (s : State) : State :=
  let va := capCursor v.a.bits + v.off
  (s.giveUp s.cur th va).launch s.cur { (s.giveUp s.cur th va).newOp .out act (.sent 1) va with
    dests := [d], slot1 := slotA v va, capture := true, acquire := acq } 0

/-- What CREW checks of its entry, in order: the capability's tag, its kind, X, and its bounds (05 R106, 14 R362). -/
def entryRules (v : Val) : List (Bool × Code) :=
  let a : Int := (capCursor v.bits).toNat
  [(v.tag == false, .tag), (decide (2 ≤ capKind v.bits), .sealed), (!grants (capPerms v.bits) permX, .perm),
   (decide (a < capBase v.bits ∨ capTop v.bits < a + 4), .bounds)]

end Sys2Proof.Machine

/-- A scheduling instruction in a handler slot ends the drain with HANDLER_OVERRUN; in a partition slot SPAWN names a checked TCB and a
count, YIELD a new deadline, END ends a task once none of its registers awaits a result, the group instructions go to their word, CREW
reserves slots or answers its status, its entry being checked first, QSTAT answers its report, SLEEP parks until a time or goes on (14
R356 to R364, 09 R227). That a register a trap left absent does not keep END (log 85), what QSTAT counts in each class (log 47) and that
CREW checks the four bytes of its entry against the bounds (log 91) are the model's reading. -/
def Obligations.SchedulingResults : Prop :=
  (∀ (i : Instr), ((∃ o c cl, i = .spawn o c cl) ∨ (∃ o, i = .yield o) ∨ (∃ o, i = .endTask o) ∨ (∃ o, i = .join o) ∨
      (∃ o, i = .leave o) ∨ (∃ o, i = .gbar o) ∨ (∃ o n, i = .crew o n) ∨ (∃ o, i = .qstatSet o) ∨ (∃ o, i = .qstatTask o) ∨
      (∃ o n, i = .sleep o n)) →
    Traps i (fun _ _ s => isHandler s.cur = true) .handlerOverrun (fun _ _ _ => 0)) ∧
  ((∀ o c cl s th b1, Runs (.spawn o c cl) s th → isHandler s.cur = false →
    let v := s.vals th (.spawn o c cl)
    let va := capCursor v.a.bits
    accessStep (s.begun th (.spawn o c cl)) th v.a ⟨permR ||| permLC, permR, false, false, false⟩ va 64 64 false = .ok b1 →
    exec (.spawn o c cl) s = .next (b1.launch s.cur
      { b1.newOp .out (.spawn v.a (if o.b = 256 then 1 else v.b.lo) cl.toNat) (.sent 0) va with dests := [o.d] } 0)) ∧
  (∀ o, Schedules (.yield o) (fun _ _ _ => True) (fun v th s =>
    s.launch s.cur (s.newOp .out (.yield (if o.b = 256 then th.deadline else v.b.lo)) (.sent 0) 0) 0)) ∧
  (∀ o, Schedules (.endTask o) (fun _ th _ => allPresent th = true) (fun _ _ s =>
    s.launch s.cur (s.newOp .out .endTask (.sent 0) 0) 0)) ∧
  (∀ o s th, Runs (.endTask o) s th → isHandler s.cur = false → allPresent th = false →
    exec (.endTask o) s = .next (({ s with issuing := false }).stopUnit s.cur th (.endTask o) .hold)) ∧
  (∀ (o : SchedOps) (i : Instr) (act : Act) (acq : Bool),
    ((i = .join o ∧ act = .join ∧ acq = false) ∨ (i = .leave o ∧ act = .leave ∧ acq = false) ∨
      (i = .gbar o ∧ act = .gbar ∧ acq = true)) →
    ∀ s th b1, Runs i s th → isHandler s.cur = false →
      let v := s.vals th i
      let va := capCursor v.a.bits + v.off
      let asks := permR ||| permW ||| permAT
      capCheck v.a asks va.toNat 16 16 = none → (selector va = 0 ∨ (0xF0 ≤ selector va ∧ selector va ≤ 0xF2)) →
      accessStep (s.begun th i) th v.a ⟨asks, asks, false, false, false⟩ va 16 16 false = .ok b1 →
      exec i s = .next (groupSent act acq o.d v th b1)) ∧
  (∀ (o : SchedOps) (i : Instr), i = .join o ∨ i = .leave o ∨ i = .gbar o →
    Traps i (fun v _ s => isHandler s.cur = false ∧
      (let va := capCursor v.a.bits + v.off
       capCheck v.a (permR ||| permW ||| permAT) va.toNat 16 16 = none ∧ selector va ≠ 0 ∧
       (selector va < 0xF0 ∨ 0xF2 < selector va))) .region (fun v _ _ => capCursor v.a.bits + v.off)) ∧
  (∀ o n, Traps (.crew o n) (fun _ th s => isHandler s.cur = false ∧ th.lead = false) .privilege (fun _ _ _ => 0)) ∧
  (∀ o n s th, Runs (.crew o n) s th → isHandler s.cur = false → th.lead = true →
    let v := s.vals th (.crew o n)
    let b := s.begun th (.crew o n)
    let m : Nat := match n with | some i => i.toNat | none => v.b.lo.toNat
    let st := if m < 2 ∨ 8 < m then 1 else if th.crew = true then 2
      else if slotCount (b.core (tcore s.cur)).partn < m then 3 else if (b.core (tcore s.cur)).crew.isSome = true then 4 else 0
    firstFailure (entryRules v.a) = none →
    (st ≠ 0 → exec (.crew o n) s = .next (b.answers o.d (Val.ofWord (BitVec.ofNat 64 st)))) ∧
    (st = 0 →
      let p := { b.newOp .out .nothing (.sent (m - 1)) 0 with dests := [o.d] }
      let w : CrewState :=
        { leader := th.taskid, entry := v.a, size := m, members := [s.cur], reserved := m - 1, waiting := some p.id
          template := th }
      exec (.crew o n) s = .next ((b.modCore (tcore s.cur) (fun k => { k with crew := some w })).startOp s.cur p 0))) ∧
  (∀ o n c, Traps (.crew o n) (fun v th s => isHandler s.cur = false ∧ th.lead = true ∧ firstFailure (entryRules v.a) = some c) c
    (fun _ _ _ => 0)) ∧
  (∀ o, Schedules (.qstatSet o) (fun _ _ _ => True) (fun v _ s =>
    s.answers o.d (qstatSetVal s (if o.a = 256 then clusterOf (tcore s.cur) else v.a.lo.toNat % 64)))) ∧
  (∀ o, Schedules (.qstatTask o) (fun _ _ _ => True) (fun v th s => s.answers o.d (qstatTaskVal s th v.a.lo))) ∧
  (∀ o ns, let target := fun (v : Vals) (s : State) => match ns with
      | some n => BitVec.ofNat 64 (s.now s.cur + 64 * (n : BitVec 16).toNat)
      | none => v.b.lo
    Schedules (.sleep o ns) (fun v _ s => (target v s).toNat ≤ s.now s.cur) (fun _ _ s => s) ∧
    Schedules (.sleep o ns) (fun v _ s => s.now s.cur < (target v s).toNat)
      (fun v _ s => s.modThread s.cur (fun th => { th with status := .parked (.sleep (target v s)) s.cycle }))))

/-! ### Status registers, traps, returns and the privileged instructions (05, 06, 15, 16) -/

namespace Sys2Proof.Machine

/-- A generator from its two registers; four zero words get the constant of 05 R115. -/
def seeded (a b : Word) : Prng :=
  if a = 0 ∧ b = 0 then ⟨0, 0, 0, 0x9E3779B9⟩
  else ⟨a.setWidth 32, a.extractLsb' 32 32, b.setWidth 32, b.extractLsb' 32 32⟩

/-- DRM as a WRS stores it (05 R114). -/
def storedMode (w : Word) : BitVec 3 := let m : BitVec 3 := w.extractLsb' 6 3; if m = 0 ∨ m = 7 then 1 else m

/-- FMTR as a WRS stores it (05 R117). -/
def storedType (w : Word) : BitVec 6 := let f : BitVec 6 := w.extractLsb' 0 6; if f = 0 ∨ 27 ≤ f.toNat then 0 else f

/-- A WRS that is allowed: what the status registers may be written by (05 R112, 06 R143). -/
def MayWrite (t : Nat) (th : Thread) (n : BitVec 12) (v : Val) : Prop :=
  n ∉ ([0x006, 0x009, 0x00A, 0x00B, 0x100, 0x101, 0x106] : List (BitVec 12)) ∧
  ((0x100 ≤ n.toNat ∨ n ∈ ([0x000, 0x004, 0x005, 0x008] : List (BitVec 12))) → th.sup = true) ∧
  (n = 0 → v.lo &&& 0x7F1E = tstatWord t th &&& 0x7F1E)

end Sys2Proof.Machine

/-- RDS reads each status register as 05 R111 to R117 lay it out, and waits on FPST while flags are outstanding; WRS writes the register
it names and nothing else; a read-only register, a supervisor's register without SUP and a TSTAT whose fixed fields differ trap with
PRIVILEGE (05 R112 to R117, 06 R141 to R143). -/
def Obligations.StatusRegisterResults : Prop :=
  (∀ (d : Opn) (n : BitVec 12) (s : State) (th : Thread), Runs (.rds d n) s th →
    let b := s.begun th (.rds d n)
    ∀ now, b.thread s.cur = some now →
    (n = 1 → flagsPending th = true → exec (.rds d n) s = .next (({ s with issuing := false }).stopUnit s.cur th (.rds d n) .wait)) ∧
    (¬ (n = 1 ∧ flagsPending th = true) → ∃ v, exec (.rds d n) s = .next (b.putDest s.cur d v) ∧
      (n = 0x000 → v = Val.ofWord (tstatWord s.cur now)) ∧ (n = 0x001 → v = Val.ofWord (fpstWord now)) ∧
      (n = 0x002 → v = Val.ofWord (BitVec.ofNat 64 (now.prng.s0.toNat + 2 ^ 32 * now.prng.s1.toNat))) ∧
      (n = 0x003 → v = Val.ofWord (BitVec.ofNat 64 (now.prng.s2.toNat + 2 ^ 32 * now.prng.s3.toNat))) ∧
      (n = 0x004 → v = Val.ofWord (BitVec.ofNat 64 now.turns.toNat)) ∧
      (n = 0x005 → v = Val.ofWord now.deadline) ∧ (n = 0x006 → v = Val.ofWord now.taskid) ∧
      (n = 0x007 → v = Val.ofWord now.group) ∧ (n = 0x008 → v = now.trapcap) ∧ (n = 0x009 → v = Val.ofWord now.bankmask) ∧
      (n = 0x00A → v = Val.ofWord (leaseWord now)) ∧ (n = 0x00B → v = (now.setPc s.unit.addr.toNat).pcc) ∧
      (n = 0x100 → v = Val.ofWord (coreidWord (tcore s.cur))) ∧
      (n = 0x101 → v = Val.ofWord (BitVec.ofNat 64 (b.core (tcore s.cur)).partn.toNat)) ∧
      (n = 0x102 → v = Val.ofWord (BitVec.ofNat 64 (b.core (tcore s.cur)).fmtr.toNat)) ∧
      (n = 0x103 → v = Val.ofWord (BitVec.ofNat 64 (b.core (tcore s.cur)).parklim.toNat)) ∧
      (n = 0x104 → v = (b.core (tcore s.cur)).hentry) ∧ (n = 0x105 → v = (b.core (tcore s.cur)).hparam) ∧
      (n = 0x106 → v = Val.ofWord (linkstWord b (tcore s.cur))) ∧ (n = 0x107 → v = Val.ofWord (b.core (tcore s.cur)).linkdisc))) ∧
  (∀ (a : Opn) (n : BitVec 12),
    Traps (.wrs a n) (fun v th s => ¬ MayWrite s.cur th n v.a) .privilege (fun _ _ _ => 0) ∧
    (∀ s th, Runs (.wrs a n) s th → MayWrite s.cur th n (s.vals th (.wrs a n)).a → n = 1 → flagsPending th = true →
      exec (.wrs a n) s = .next (({ s with issuing := false }).stopUnit s.cur th (.wrs a n) .wait)) ∧
    (∀ s th, Runs (.wrs a n) s th → MayWrite s.cur th n (s.vals th (.wrs a n)).a → (n = 1 → flagsPending th = false) →
      let v := (s.vals th (.wrs a n)).a
      let b := s.begun th (.wrs a n)
      let mine := fun f : Thread → Thread => exec (.wrs a n) s = .next (b.modThread s.cur f)
      let cores := fun f : Core → Core => exec (.wrs a n) s = .next (b.modCore (tcore s.cur) f)
      (n = 0x000 → mine (fun x => { x with sup := x.sup && v.lo.getLsbD 0 })) ∧
      (n = 0x001 → mine (fun x => { x with drm := storedMode v.lo, flags := Flags.ofBits (v.lo.extractLsb' 0 5) })) ∧
      (n = 0x002 → mine (fun x => { x with prng := seeded v.lo (prng1Word x.prng) })) ∧
      (n = 0x003 → mine (fun x => { x with prng := seeded (prng0Word x.prng) v.lo })) ∧
      (n = 0x004 → mine (fun x => { x with turns := v.lo.setWidth 32 })) ∧
      (n = 0x005 → mine (fun x => { x with deadline := v.lo })) ∧
      (n = 0x007 → mine (fun x => { x with group := v.lo })) ∧
      (n = 0x008 → mine (fun x => { x with trapcap := v })) ∧
      (n = 0x102 → cores (fun k => { k with fmtr := storedType v.lo })) ∧
      (n = 0x103 → cores (fun k => { k with parklim := BitVec.ofNat 32 (max 256 (v.lo.toNat % 2 ^ 32)) })) ∧
      (n = 0x104 → cores (fun k => { k with hentry := v, hdomain := th.domain })) ∧
      (n = 0x105 → cores (fun k => { k with hparam := v })) ∧
      (n = 0x107 → cores (fun k => { k with linkdisc := v.lo }))))

namespace Sys2Proof.Machine

/-- A thread whose trap is being entered: what the handler finds (15 R367). -/
def Trapped (p : TrapPlan) (entry : Val) (me : Cause) (x : Thread) : Prop :=
  x.reg 0 = ⟨entry, true⟩ ∧ x.reg 1 = ⟨p.th.trapcap, true⟩ ∧ x.reg 2 = ⟨Val.ofWord (p.code.num.setWidth 64), true⟩ ∧
  x.reg 3 = ⟨Val.ofWord p.cause, true⟩ ∧ (∀ k, 4 ≤ k → x.reg k = p.th.reg k) ∧ x.pcc = entry ∧ x.sup = true ∧
  x.trapActive = some me ∧ x.status = .ready ∧ x.ops = [] ∧ x.reinject = [] ∧ x.turns = p.th.turns ∧ x.taskid = p.th.taskid ∧
  x.trapcap = p.th.trapcap ∧ x.flags = p.th.flags

end Sys2Proof.Machine

/-- Entering a trap: the frame is written at TRAPCAP's cursor, k0 to k3 hold the trap entry, TRAPCAP, the code and the cause, PCC
is the trap entry, SUP is set and the thread is trap-active; a trap of a trap-active thread, one whose code is always fatal, one
without a trap entry or a frame that cannot be written ends the thread, the causes of its chain oldest first: the trap it was in, the
refused instruction, the HALT or revocation behind it, what refused the frame (15 R367, R375). That a frame which cannot be written
leaves its own cause with TRAPCAP's cursor (log 86), and a HALT or a revocation behind an older refusal the chain of both (log 41), are the
model's choices. -/
def Obligations.TrapEntrySavesAndJumps : Prop :=
  ∀ (s : State) (t : Nat) (th : Thread) (code : Option Code) (cause fpc next : Word) (held : List Entry) (again fatal : Bool),
    s.thread t = some th → th.status = .trapping code cause held fpc next again fatal → th.dispatch = none →
    let p := trapPlan th code cause held fpc next again
    let me : Cause := ⟨p.fpc, p.cause, BitVec.ofNat 64 (s.now t), p.code⟩
    let own : List Cause :=
      if th.revoked = true then [me, ⟨BitVec.ofNat 64 p.th.pc, 0, BitVec.ofNat 64 (s.now t), .leaseRevoked⟩]
      else match code, oldestRefused th.ops with
        | some x, some _ => if fatal = true then [me, ⟨fpc, cause, BitVec.ofNat 64 (s.now t), x⟩] else [me]
        | _, _ => [me]
    let s1 := (s.sampleLoads t th.ops).setThread t { p.th with ops := [], reinject := [], windows := [], status := .ready }
    let s0 := s1.leaseRead th.domain
    (th.trapActive = none → fatal = false → codeFatal p.code = false →
      ∀ entry s2, trapEntryOf s0 th.domain = some entry → writeFrame s0 t p = .ok s2 →
        ∃ x y, (s.enterTrap t).thread t = some x ∧ Trapped p entry me x ∧ s2.thread t = some y ∧ x.bankmask = y.bankmask ∧
          s.enterTrap t = s2.setThread t x) ∧
    (∀ old, th.trapActive = some old → s.enterTrap t = s1.fatalEnd t p (old :: own)) ∧
    (th.trapActive = none →
      ((fatal = true ∨ codeFatal p.code = true) → s.enterTrap t = s1.fatalEnd t p own) ∧
      (fatal = false → codeFatal p.code = false →
        (trapEntryOf s0 th.domain = none → s.enterTrap t = s0.fatalEnd t p [me]) ∧
        (∀ entry, trapEntryOf s0 th.domain = some entry →
          (writeFrame s0 t p = .error none → s.enterTrap t = s0.fatalEnd t p [me]) ∧
          (∀ f, writeFrame s0 t p = .error (some f) → s.enterTrap t = s0.fatalEnd t p
            [me, ⟨p.fpc, capCursor p.th.trapcap.bits, BitVec.ofNat 64 (s.now t), f⟩]))))

namespace Sys2Proof.Machine

/-- What a return from a trap restores from the first eight granules of a frame (15 R368, R372). -/
def Returned (head : List Val) (es : List Entry) (th x : Thread) : Prop :=
  (∀ k, k < 4 → x.reg k = ⟨head.getD (k + 1) Val.zero, true⟩) ∧ (∀ k, 4 ≤ k → x.reg k = th.reg k) ∧
  x.sup = (head.getD 5 Val.zero).lo.getLsbD 16 ∧ x.trapActive = none ∧ x.pcc = head.headD Val.zero ∧ x.reinject = es ∧
  x.resuming = true

end Sys2Proof.Machine

/-- TRAP and BRK complete and trap with SYSCALL and BREAKPOINT, the immediate as cause, a re-injected one once the instructions before it
are settled; RTE outside a trap is PRIVILEGE, else it
restores k0 to k3, SUP and PCC from the frame and queues its entries; DUMP leaves the rotation for its record; HALT ends its
thread with its code (15 R372, R373, R376, R377). -/
def Obligations.TrapReturnDumpHaltResults : Prop :=
  (∀ (imm : BitVec 16) (i : Instr) (c : Code), ((i = .trap imm ∧ c = .syscall) ∨ (i = .brk imm ∧ c = .breakpoint)) →
    Effects i (fun _ th s => isReplay s.unit th = false) (fun _ _ s => (s.startTrap s.cur (some c) (imm.setWidth 64) []
      s.unit.addr s.unit.next false false).trapNow s.cur) ∧
    Effects i (fun _ th s => isReplay s.unit th = true ∧ th.ops.all Op.isSettled = true) (fun _ _ s =>
      (s.startTrap s.cur (some c) (imm.setWidth 64) [] s.unit.addr s.unit.next true false).trapNow s.cur) ∧
    (∀ s th, Runs i s th → isReplay s.unit th = true → th.ops.all Op.isSettled = false →
      exec i s = .next (({ s with issuing := false }).stopUnit s.cur th i .wait))) ∧
  (∀ a, Traps (.rte a) (fun _ th _ => th.trapActive = none) .privilege (fun _ _ _ => 0)) ∧
  (∀ a s th head gs, Runs (.rte a) s th → th.trapActive.isSome = true →
    let v := (s.vals th (.rte a)).a
    let b := s.begun th (.rte a)
    let va := capCursor v.bits
    let asks : Want := ⟨permR ||| permLC, permR ||| permLC, false, false, false⟩
    accessCheck b th v asks va 128 128 = none → ownWaits b s.cur th = false →
    let b1 := b.pullSpan (tcore s.cur) va 128
    readGranules b1 s.cur th va 8 = .ok head →
    let n := (head.getD 5 Val.zero).lo.toNat / 256 % 256
    accessCheck b1 th v asks va (128 + 64 * n) 128 = none →
    let b2 := b1.pullSpan (tcore s.cur) (va + 128) (64 * n)
    readGranules b2 s.cur th (va + 128) (4 * n) = .ok gs →
    ((16 < n ∨ entriesOk (entriesOf gs) = false) →
      exec (.rte a) s = .next (({ s with issuing := false }).faultUnit s.cur th .formatMismatch va)) ∧
    (n ≤ 16 → entriesOk (entriesOf gs) = true → ∀ now, b2.thread s.cur = some now →
      ∃ x, Returned head (entriesOf gs) now x ∧ exec (.rte a) s = .next ((b2.setThread s.cur x).flushEntries s.cur 16))) ∧
  (∀ d, Effects (.dump d) (fun _ _ _ => True) (fun _ _ s =>
    s.startOp s.cur { s.newOp .out .dump (.sent 0) 0 with dests := [d] } 0)) ∧
  (∀ b, Effects (.halt b) (fun _ _ _ => True) (fun v th s =>
    let n : BitVec 8 := match b with | .imm i => i.setWidth 8 | .reg _ => v.b.bits.setWidth 8
    (s.startTrap s.cur (some ((Code.ofNum n).getD .breakpoint)) 0 [] s.unit.addr s.unit.next (isReplay s.unit th) true).trapNow
      s.cur))

namespace Sys2Proof.Machine

/-- A lease range as 16 R393 asks it. -/
def GoodRange (v : Val) : Prop :=
  v.tag = true ∧ capKind v.bits = 0 ∧ capBase v.bits % 2 ^ 18 = 0 ∧ capTop v.bits % 2 ^ 18 = 0 ∧ capTop v.bits ≤ 2 ^ 56

end Sys2Proof.Machine

/-- Without SUP the privileged instructions trap with PRIVILEGE. With it REPART is REPART_BUSY beside other threads or in a crew,
and else leaves the rotation and holds its core for the partition above or below; GANG answers a status and arms with 0; WAYCONV
begins or refuses a conversion of the core's home; LEASE, PLBINV and PGMOVE leave the rotation with their release first (05 R109, 11
R282, 15 R379, 16 R392 to R395). -/
def Obligations.PrivilegedInstructionResults : Prop :=
  (∀ (i : Instr), ((∃ d split, i = .repart d split) ∨ (∃ o, i = .gang o) ∨ (∃ p d a w, i = .wayconv p d a w) ∨
      (∃ o, i = .leaseAdd o) ∨ (∃ o, i = .leaseDrop o) ∨ (∃ o, i = .leaseUnmap o) ∨ (∃ o, i = .leaseUnmapForce o) ∨
      (∃ o, i = .leaseDom o) ∨ (∃ d a b sc, i = .plbinv d a b sc) ∨ (∃ d a b, i = .pgmove d a b)) →
    Traps i (fun _ th _ => th.sup = false) .privilege (fun _ _ _ => 0)) ∧
  ((∀ d split, Traps (.repart d split) (fun _ th s => th.sup = true ∧ (slotsTaken s s.cur = true ∨ th.crew = true))
    .repartBusy (fun _ _ _ => 0)) ∧
  (∀ d split, Effects (.repart d split) (fun _ th s => th.sup = true ∧ slotsTaken s s.cur = false ∧ th.crew = false)
    (fun _ _ s =>
      let p := (s.core (tcore s.cur)).partn.toNat
      (s.modCore (tcore s.cur) (fun k => { k with repart := some (if split then p - 1 else min 3 (p + 1)) })).startOp s.cur
        { s.newOp .out .nothing (.sent 1) 0 with dests := [d] } 0)) ∧
  (∀ o, Effects (.gang o)
    (fun v th s => th.sup = true ∧
      accessCheck s th v.a ⟨permW ||| permEN, permW ||| permEN, false, false, false⟩ (capCursor v.a.bits)
        (saveLength (v.c.bits.toNat % 4096)) 4096 = none ∧
      (o.e = 256 ∨ accessCheck s th v.e (wantCompl true) (capCursor v.e.bits) 8 8 = none))
    (fun v th s =>
      let r := gangStatus s s.cur v.c.bits o.ts
      let g : Gang :=
        { part := r.2, save := v.a, load := if o.b = 256 then none else some v.b, rect := v.c.bits, compl := v.e, ts := o.ts
          domain := th.domain, ranges := th.ranges, stopped := false }
      (if r.1 = 0 then { s with gangs := s.gangs ++ [g] } else s).putDest s.cur o.d (Val.ofWord (BitVec.ofNat 64 r.1)))) ∧
  (∀ p d a w, Effects (.wayconv p d a w)
    (fun v th s => th.sup = true ∧ (a = 256 ∨ complCheck s th .fill v.a = none))
    (fun v th s =>
      let r := s.convert (tcore s.cur) ⟨(w : BitVec 4).toNat, if a = 256 then Val.zero else v.a, th.domain, th.taskid⟩
      r.1.putDest s.cur d (Val.ofWord (BitVec.ofNat 64 r.2)))) ∧
  (∀ (o : LeaseOps) (i : Instr) (op : Nat), ((i = .leaseAdd o ∧ op = 0) ∨ (i = .leaseDrop o ∧ op = 1) ∨
      (i = .leaseUnmap o ∧ op = 2) ∨ (i = .leaseUnmapForce o ∧ op = 3) ∨ (i = .leaseDom o ∧ op = 4)) →
    Effects i (fun v th _ => th.sup = true ∧ GoodRange v.a) (fun v _ s =>
      s.launch s.cur { s.newOp .out (.lease op v.a o.dom) (.sent 0) 0 with dests := [o.d] } 0)) ∧
  (∀ d a b sc, Effects (.plbinv d a b sc) (fun _ th _ => th.sup = true) (fun v _ s =>
    s.launch s.cur { s.newOp .out (.plbinv sc v.a.lo) (.sent 0) 0 with dests := [d] } 0)) ∧
  (∀ d a b, Effects (.pgmove d a b)
    (fun v th _ => th.sup = true ∧ v.a.tag = true ∧ capKind v.a.bits = 0 ∧ (capCursor v.a.bits).toNat % 2 ^ 18 = 0 ∧
      selector (capCursor v.a.bits) = 0 ∧ v.b.lo.toNat < 2 ^ 22)
    (fun v _ s =>
      let x := v.b.lo.toNat
      s.launch s.cur { s.newOp .out (.pgmove ((capCursor v.a.bits).toNat % 2 ^ 56 / 2 ^ 18) (x % 1024) (x / 1024)) (.sent 0) 0
        with dests := [d] } 0)))

/-! ### Every instruction (03, 05, 06) -/

/-- What an operand reads: a register its value, z zero, an inbox or a crew queue its oldest entry of the thread's own domain, those
before it discarded and, of an inbox, counted up to 2^64 − 1. Where a result goes: a register takes value, tag and presence and no other register
changes; z discards it; a link's or queue's entry leaves in order with the thread's domain and its tag, at once or, where earlier
pushes or accesses of its core come first, as an operation that stays behind, the model's reading of 13 R326 (log 80) (05 R98,
R100, R110, R111, 03 R50, R52, R53, 17 R406). -/
def Obligations.OperandsAndResultsUseTheirRegisters : Prop :=
  ((∀ (th : Thread) (x : Opn), (x.toNat < 256 → th.read x = (th.reg x.toNat).v) ∧ (256 ≤ x.toNat → th.read x = Val.zero)) ∧
  (∀ (s : State) (c : Nat) (dom : BitVec 16) (x : Opn) (sd : Side) (before after : List QueueEntry) (e : QueueEntry),
    sideOf x = some sd → (s.core c).inbox sd = before ++ e :: after → (∀ y ∈ before, y.domain ≠ dom) → e.domain = dom →
    (s.pop c dom x).1 = e.v ∧ ((s.pop c dom x).2.core c).inbox sd = after ∧
    ((s.pop c dom x).2.core c).linkdisc = BitVec.ofNat 64 (min (2 ^ 64 - 1) ((s.core c).linkdisc.toNat + before.length)) ∧
    (∀ o, o ≠ sd → ((s.pop c dom x).2.core c).inbox o = (s.core c).inbox o) ∧
    (∀ d, d ≠ c → (s.pop c dom x).2.core d = s.core d)) ∧
  (∀ (s : State) (c : Nat) (dom : BitVec 16) (x : Opn) (q : Nat) (before after : List QueueEntry) (e : QueueEntry),
    queueOf x = some q → tget (s.core c).queues q [] = before ++ e :: after → (∀ y ∈ before, y.domain ≠ dom) → e.domain = dom →
    (s.pop c dom x).1 = e.v ∧ tget ((s.pop c dom x).2.core c).queues q [] = after ∧
    (∀ r, r ≠ q → tget ((s.pop c dom x).2.core c).queues r [] = tget (s.core c).queues r []) ∧
    ((s.pop c dom x).2.core c).linkdisc = (s.core c).linkdisc ∧ (∀ d, d ≠ c → (s.pop c dom x).2.core d = s.core d))) ∧
  (∀ (s : State) (t : Nat) (th : Thread) (d : Opn) (v : Val), s.thread t = some th →
    (d.toNat < 256 → ∃ x, s.putDest t d v = s.setThread t x ∧ x.reg d.toNat = ⟨v, true⟩ ∧
      (∀ k, k ≠ d.toNat → x.reg k = th.reg k) ∧ x = { th with regs := x.regs }) ∧
    (d = 256 → s.putDest t d v = s.setThread t th) ∧
    (pushClear s t th s.nextId d = false →
      s.putDest t d v = s.startOp t { s.newOp .posted .nothing (.done [v]) 0 with dests := [d] } 0) ∧
    (∀ sd, sideOf d = some sd → pushClear s t th s.nextId d = true →
      ((s.putDest t d v).core (tcore t)).flying sd = (s.core (tcore t)).flying sd ++ [⟨v, th.domain⟩] ∧
      (∀ o, o ≠ sd → ((s.putDest t d v).core (tcore t)).flying o = (s.core (tcore t)).flying o) ∧
      (s.putDest t d v).threads = s.threads ∧ (s.putDest t d v).mem = s.mem) ∧
    (∀ q, queueOf d = some q → pushClear s t th s.nextId d = true →
      (∀ r, tget ((s.putDest t d v).core (tcore t)).queues r [] =
        tget (s.core (tcore t)).queues r [] ++ (if r = q then [⟨v, th.domain⟩] else [])) ∧
      (s.putDest t d v).threads = s.threads ∧ (s.putDest t d v).mem = s.mem))

/-- The turn of an issue: one is charged unless the thread is a handler or trap-active, ISSUED of its core grows by one, PCC stands past
the unit or the replayed entry is off the queue, and nothing but the thread and, on its own core, the inboxes and crew queues that it pops
and LINKDISC has changed; those are as before where it pops none (14 R339, 03 R65, 05 R111, 15 R372, 17 R406). -/
def Obligations.IssueChargesAndAdvances : Prop :=
  ∀ (i : Instr) (s : State) (th : Thread), s.issuer = some th →
    let b := s.begun th i
    let free : Prop := isHandler s.cur = true ∨ th.trapActive.isSome = true
    (∃ x, b.thread s.cur = some x ∧ (∀ k, x.reg k = th.reg k) ∧ SameStatus th x ∧
      (free → x.turns = th.turns) ∧ (¬ free → x.turns = if th.turns = 0 then 0 else th.turns - 1) ∧
      (th.reinject = [] → x.pcc = (th.setPc s.unit.next.toNat).pcc ∧ x.reinject = []) ∧
      (th.reinject ≠ [] → x.pcc = th.pcc ∧ x.reinject = th.reinject.drop (if s.unit.replay.isSome then 2 else 1))) ∧
    (let c := tcore s.cur
     let links (k : Core) := (k.inN, k.inE, k.inS, k.inW, k.queues, k.linkdisc)
     tget (b.core c).counters 0 0 = BitVec.ofNat 64 (min (2 ^ 64 - 1) ((tget (s.core c).counters 0 0).toNat + 1)) ∧
     (∀ k, k ≠ 0 → tget (b.core c).counters k 0 = tget (s.core c).counters k 0) ∧
     b.core c = { s.core c with
       inN := (b.core c).inN, inE := (b.core c).inE, inS := (b.core c).inS, inW := (b.core c).inW, queues := (b.core c).queues
       linkdisc := (b.core c).linkdisc, counters := (b.core c).counters, recent := (b.core c).recent } ∧
     ((s.unit.replay.isSome = true ∨ (i.fields (i.elemType (s.core c).fmtr)).pops = []) → links (b.core c) = links (s.core c)) ∧
     ∀ n, n ≠ c → b.core n = s.core n) ∧
    SameStorage s b ∧ SameThreads s b s.cur ∧ SameDevice s b

/-- A unit that reads or writes an absent register waits, its turn charged; a unit its predicate turns off uses its turn and has no
effect: no operand checked for presence, no pop, no write (05 R100, 14 R339, 03 R57). -/
def Obligations.AbsentRegistersAndPredicates : Prop :=
  (∀ (i : Instr) (s : State) (th : Thread) (k : Nat), s.issuer = some th → s.unit.replay = none →
    let ty := i.elemType (s.core (tcore s.cur)).fmtr
    let f := i.fields ty
    typeLegal i ty = true → operandsOk i f th = true → fetchFault s th s.unit.addr s.unit.bytes = none →
    i.pred = none → linkMissing (tcore s.cur) f = false → (k ∈ f.reads ∨ k ∈ f.writes) → (th.reg k).present = false →
    exec i s = .next ((({ s with issuing := false }).setThread s.cur (th.charge s.cur)).countCore (tcore s.cur) cHELD 1)) ∧
  (∀ (i : Instr) (s : State) (th : Thread), s.issuer = some th → issueCheck s s.cur th i = none → s.unit.replay = none →
    predOff i th = true →
    exec i s = .next ((({ s with issuing := false }).setThread s.cur (((th.charge s.cur).tickWindows).advance s.unit)).countCore
      (tcore s.cur) cISSUED 1))

/-! ### Memory (10, 11 R258 to R269) -/

/-- Little-endian bytes read back as they were stored, whatever the storage held; no other byte changes, and the tags of the
granules stored to are cleared while the others, FE bits and poison stay (00 R5, 10 R241). -/
def Obligations.StoredBytesReadBack : Prop :=
  ∀ (s : State) (a n v : Nat), (s.store a n v).load a n = v % 2 ^ (8 * n) ∧
    (∀ x, ¬ (a ≤ x ∧ x < a + n) → memByte (s.store a n v).mem x = memByte s.mem x) ∧
    (∀ x, (s.store a n v).tagAt x = (s.tagAt x && !(decide (x / 16 * 16 < a + n) && decide (a < x / 16 * 16 + 16)))) ∧
    (∀ x, (s.store a n v).feAt x = s.feAt x) ∧ (∀ x, (s.store a n v).poisonAt x = s.poisonAt x)

namespace Sys2Proof.Machine

/-- AMO's new value (11 R263): bitwise, or of the two numbers, signed for MAX and MIN. -/
def atomicNew (fn : AmoFn) (n old v : Nat) : Nat :=
  let num (x : Nat) : Int := if x < 2 ^ (8 * n - 1) then x else (x : Int) - 2 ^ (8 * n)
  match fn with
  | .add => (old + v) % 2 ^ (8 * n)
  | .and => old &&& v
  | .or => old ||| v
  | .xor => old ^^^ v
  | .max => if num old < num v then v else old
  | .min => if num v < num old then v else old
  | .maxu => if old < v then v else old
  | .minu => if v < old then v else old
  | .swap => v

end Sys2Proof.Machine

/-- An atomic reads its old value, writes the new one and answers the old zero-extended, as one event at its home; a CAS writes only where
the old value is the one expected; no byte outside the n bytes changes. WLD answers a full word's value, of it what the core's own copy held at its
issue, and, taking it, leaves it empty, and waits on an empty one; FILL of an empty word writes it, makes it full and serves the WLD
records of the word up to the first taker, which empties it again; FILL of a full word is DOUBLE_FILL and changes nothing; EMPTY empties without a change of data; FEST answers 1
or 0 (11 R263, R264, R268, 10 R238, 14 R343). -/
def Obligations.AtomicsAndFullEmptyWordsAtTheirHome : Prop :=
  (∀ (s : State) (h t : Nat) (th : Thread) (o : Op) (loc n : Nat), selector o.va ≠ 0xF8 → selector o.va ≠ 0xFC → 0 < n →
    opCheck s (tcore t) (th.owner t) o.va n = .ok loc →
    let s0 := s.flushAll (tcore t) (sectorsOf o.va n)
    let old := s0.load loc n
    (∀ fn v ord, o.act = .amo fn n v ord →
      (s.perform h t th o).2 = .answer [Val.ofWord (BitVec.ofNat 64 old)] ∧
      (s.perform h t th o).1.load loc n = atomicNew fn n old (v.toNat % 2 ^ (8 * n)) ∧
      ∀ x, ¬ (loc ≤ x ∧ x < loc + n) → memByte (s.perform h t th o).1.mem x = memByte s0.mem x) ∧
    (∀ want new ord, o.act = .cas n want new ord →
      (s.perform h t th o).2 = .answer [Val.ofWord (BitVec.ofNat 64 old)] ∧
      (s.perform h t th o).1.load loc n = (if old = want.toNat % 2 ^ (8 * n) then new.toNat % 2 ^ (8 * n) else old) ∧
      ∀ x, ¬ (loc ≤ x ∧ x < loc + n) → memByte (s.perform h t th o).1.mem x = memByte s0.mem x)) ∧
  (∀ (s : State) (h t : Nat) (th : Thread) (o : Op) (loc : Nat), selector o.va ≠ 0xF8 → selector o.va ≠ 0xFC →
    opCheck s (tcore t) (th.owner t) o.va 8 = .ok loc →
    let s0 := s.flushAll (tcore t) (sectorsOf o.va 8)
    (∀ take, o.act = .wld take → s0.feAt loc = true →
      let x := sectorField (o.seen (s0.load (loc / 32 * 32) 32)) o.va 8
      s.perform h t th o = (if take then s0.setFe loc false else s0, .answer [Val.ofWord (BitVec.ofNat 64 x)]) ∧
      (o.mask = 0 → loc % 32 = o.va.toNat % 32 → loc % 32 ≤ 24 → x = s0.load loc 8)) ∧
    (∀ take, o.act = .wld take → s0.feAt loc = false → ∀ s1,
      s0.addWait h ⟨loc / 8 * 8, if take then .take else .wld, .slot t, o.id, false⟩ = some s1 →
      s.perform h t th o = (s1, .waits)) ∧
    (∀ v, o.act = .fill v → s0.feAt loc = false →
      let r := s.perform h t th o
      let served := servedByFill loc (s0.home (holder loc)).waits
      r.2 = .answer [] ∧ r.1.load loc 8 = v.toNat ∧
      (∀ x, ¬ (loc ≤ x ∧ x < loc + 8) → memByte r.1.mem x = memByte s0.mem x) ∧
      r.1.feAt loc = !served.2 ∧ (∀ x, x / 8 ≠ loc / 8 → r.1.feAt x = s0.feAt x) ∧
      ∀ y ∈ served.1, (∃ m ∈ r.1.msgs, m.payload = .wake y.who y.op v true) ∧ y ∉ (r.1.home (holder loc)).waits) ∧
    (∀ v, o.act = .fill v → s0.feAt loc = true → s.perform h t th o = (s0, .refuse .doubleFill o.va)) ∧
    (o.act = .empty → s.perform h t th o = (s.setFe loc false, .answer [])) ∧
    (o.act = .fest → s.perform h t th o = (s0, .answer [Val.ofWord (if s0.feAt loc then 1 else 0)])))

/-- A plain store performed at its home, where no release store of its sector is buffered, writes the bytes its mask names and no others: each byte of the sector reads as the data's or
as before, every other byte of storage is as before; a RACE, a poisoned sector written in part or a mark cell refuses it (10 R231,
R238, R243, 13 R316). -/
def Obligations.StoresReachOnlyTheirBytes : Prop :=
  ∀ (s : State) (m : Msg) (t : Nat) (va : Word) (mask : BitVec 32) (data : BitVec 256) (tag : Option Bool) (loc : Nat),
    storage s (tcore t) va = some loc → (∀ b ∈ (s.home (holder loc)).wbuf, b.sector ≠ loc / 32) →
    (writeCheck s va loc mask m.owner = none →
      let r := (s.performWrite m t va mask data tag).1
      (s.performWrite m t va mask data tag).2 = .answer [] ∧
      (∀ i < 32, memByte r.mem (loc / 32 * 32 + i) =
        if mask.getLsbD i then data.extractLsb' (8 * i) 8 else memByte s.mem (loc / 32 * 32 + i)) ∧
      (∀ x, x / 32 ≠ loc / 32 → memByte r.mem x = memByte s.mem x)) ∧
    (∀ c, writeCheck s va loc mask m.owner = some c → s.performWrite m t va mask data tag = (s, .refuse c va))

namespace Sys2Proof.Machine

/-- Flags, generator, status, exception and task registers of a thread are as before. -/
def SameOwn (a b : Thread) : Prop :=
  b.flags = a.flags ∧ b.prng = a.prng ∧ b.count = a.count ∧ b.sup = a.sup ∧ b.mode = a.mode ∧ b.drm = a.drm ∧ b.deadline = a.deadline ∧
  b.taskid = a.taskid ∧ b.group = a.group ∧ b.trapcap = a.trapcap ∧ b.domain = a.domain ∧ b.trapActive = a.trapActive ∧
  b.ranges = a.ranges ∧ b.lanes = a.lanes

/-- Where the unit issues, its access passes its checks and its task need not travel, the instruction goes on; storage and the other
threads are as before, and of the thread only registers named in `dests`, PCC, TURNS, BANKMASK and what it has outstanding differ. -/
def IssuesOnly (i : Instr) (go : Bool) (w : Want) (n : Nat) (posted : Bool) (dests : List Opn) : Prop :=
  ∀ s th b1, Runs i s th →
    let v := s.vals th i
    let va := capCursor v.a.bits + v.off
    accessStep (s.begun th i) th v.a w va n n posted = .ok b1 → (go = true → travelTarget b1 s.cur th va = none) →
    ∃ r x, exec i s = .next r ∧ SameStorage s r ∧ SameThreads s r s.cur ∧ r.thread s.cur = some x ∧ SameOwn th x ∧
      (∀ k, (∀ d ∈ dests, d.toNat ≠ k) → x.reg k = th.reg k) ∧
      (th.reinject = [] → x.pcc = (th.setPc s.unit.next.toNat).pcc)

end Sys2Proof.Machine

/-- LD and ST as they issue: an access that passes its checks goes on, and writes nothing to storage: bytes change when the home performs
them; of the issuing thread's registers only the destinations of the load may change (10 R238, 11 R255, R258, 13 R305, 05 R100). -/
def Obligations.IssueWritesNoStorage : Prop :=
  (∀ m sz sx go, IssuesOnly (.ld m sz sx go) go wantLd (Machine.sizeOf sz) false (if sz = 5 then destGroup m.d 2 else [m.d])) ∧
  (∀ m sz go, IssuesOnly (.st m sz go) go wantSt (Machine.sizeOf sz) true [])

/-! ### Frames of register instructions (06, 07) -/

namespace Sys2Proof.Machine

/-- The two-source integer members that write one register and nothing else (06 R124). -/
def wordOps (o : IntOps) : List Instr :=
  [.add o, .sub o, .mul o, .mulh o, .mulhu o, .and o, .or o, .xor o, .andn o, .shl o, .shr o, .sra o, .rotr o, .min o, .max o,
   .minu o, .maxu o, .sext o, .zext o, .cmpeq o, .cmpne o, .cmplt o, .cmpltu o, .cmple o, .cmpleu o]

/-- The one-source members. -/
def oneOps (o : UnOps) : List Instr := [.clz o, .ctz o, .popc o, .abs o, .mov o]

/-- The division members (06 R125). -/
def divOps (o : IntOps) : List Instr := [.div o, .divu o, .rem o, .remu o]

/-- Everything outside the issuing thread and the cores' links is as before. -/
def OnlyThread (s t : State) : Prop :=
  (∀ a, memByte t.mem a = memByte s.mem a) ∧ t.feEmpty = s.feEmpty ∧ t.tags = s.tags ∧ t.poison = s.poison ∧
  SameThreads s t s.cur ∧ SameDevice s t

end Sys2Proof.Machine

/-- Frame of the integer members: no byte of storage, FE bit, tag or poison mark, no other thread, home, station, message, table or
management register changes; of the thread's registers only the destination may, and its status registers, flags and generator stay,
also where the destination is z or a link; a division marks its destination absent until its result arrives (06 R121 to R127). -/
def Obligations.IntegerInstructionsChangeOnlyTheirDestination : Prop :=
  ∀ (i : Instr) (d : Opn), ((∃ o, i ∈ wordOps o ∧ d = o.d) ∨ (∃ o, i ∈ oneOps o ∧ d = o.d) ∨ (∃ o, i ∈ divOps o ∧ d = o.d)) →
    ∀ s th s', Runs i s th → exec i s = .next s' →
      OnlyThread s s' ∧ ∃ x, s'.thread s.cur = some x ∧ SameStatus th x ∧ x.flags = th.flags ∧ x.prng = th.prng ∧
        (∀ k, k ≠ d.toNat → x.reg k = th.reg k) ∧
        (∀ o, i ∈ divOps o → d.toNat < 256 → x.reg d.toNat = ⟨(th.reg d.toNat).v, false⟩)

namespace Sys2Proof.Machine

/-- The element-wise packed members of one shape (07 R150). -/
def packedOps (k : Pk) (b : Opn) (bs : Bool) : List Instr :=
  [.vadd k b bs, .vsub k b bs, .vmul k b bs, .vmin k b bs, .vmax k b bs]

end Sys2Proof.Machine

/-- Frame of packed arithmetic that does not trap on an abandoned operand: only the registers of the destination group change, the
flags of FPST only gain, and nothing outside the thread changes (04 R88, 07 R146, R150). -/
def Obligations.PackedInstructionsChangeOnlyTheirGroup : Prop :=
  ∀ (k : Pk) (b : Opn) (bs : Bool) (i : Instr), i ∈ packedOps k b bs → ∀ s th s', Runs i s th →
    (isFloatType ((s.begun th i).elemTypeOf i) = true → abandonedIn k.p ((s.begun th i).elemTypeOf i)
      (firstElems k th ((s.begun th i).elemTypeOf i) ++ otherElems k b bs th ((s.begun th i).elemTypeOf i)) = false) →
    exec i s = .next s' →
    OnlyThread s s' ∧ ∃ x, s'.thread s.cur = some x ∧ SameStatus th x ∧
      (∀ j, ¬ (k.d.toNat ≤ j ∧ j < k.d.toNat + groupSize k.g) → x.reg j = th.reg j) ∧ (∃ f, x.flags = th.flags.or f)

/-! ### Steps, words and the state after reset (03, 01, 17) -/

namespace Sys2Proof.Machine

/-- The unit of the bytes l at address a, as an issue has it at hand: the address of the unit and of its instruction word after the
prefixes, from which branch targets count, the next unit's, the words the unit records (the first, which is 0 where the fetch faults, the
instruction's own and its upper words, the arithmetic prefix) and its length (03 R63 to R66, 15 R369, R447). -/
def unitOf (a : Word) (l : List Byte) (fetched : Bool) : UnitWords :=
  let words := (scanPrefixes l).1
  let own := l.drop (8 * words.length)
  { addr := a
    iaddr := a + BitVec.ofNat 64 (8 * words.length)
    next := BitVec.ofNat 64 (nextUnit a.toNat (unitLen l))
    first := if fetched then leWord l else 0
    word := leWord own
    wordHi := leWord ((own.take (unitLen l - 8 * words.length)).drop 8)
    arith := (words.find? (fun w => opcodeOf w == 1)).getD 0
    bytes := unitLen l
    replay := none }

end Sys2Proof.Machine

/-- Where a thread holds the turn, nothing waits to be re-injected, the PLB holds its page, its PC is a boundary of its fetch block and
the bytes there, which the fetch brings through the caches, decode to an instruction, the step is that instruction's execution, one step
later in time, with the unit's addresses and words at hand; one that met a stalled bank passes with nothing done; a page that the PLB
lacks parks the thread for its walk (03 R63 to R67, 06 R133, 10 R237, R250, 16 R388). How a fetch reaches its bytes (log 12) and that a
stalled bank turns the whole turn away (log 90) are the model's choices. -/
def Obligations.StepRunsTheDecodedUnit : Prop :=
  ∀ (s : State) (th : Thread) (i : Instr) (n : Nat) (blk : List Byte) (b : Bool),
    let a : Word := BitVec.ofNat 64 th.pc
    let s1 := s.tickTime
    let s2 := s1.fetchFill s1.cur th
    let l := blk.drop (a.toNat % 32)
    s1.issuer = some th →
    (∀ r, s1.fetchMiss s1.cur th = some r → Machine.step s = .next r) ∧
    (th.reinject = [] → s1.fetchMiss s1.cur th = none → blockAt s2 s1.cur th a = .ok blk →
      boundaryAt blk 32 0 false (a.toNat % 32) = some b → decodeUnit l = .ok (i, n) →
      let u := unitOf a l (fetchFault s2 th a (unitLen l)).isNone
      ∃ r, exec i { s2 with unit := u } = .next r ∧
        Machine.step s = .next (if r.stalled = true then { s1 with issuing := false } else r))

/-- Words of the spec's encodings, decoded: one or more of every family: integer, control, capability, packed, lane, curve, memory, engine,
mark, matrix, tile, scheduling and system; and the word of an unassigned opcode, which is refused (03 R48, R68, 06 R124, R136, 07 R149,
08, 09 R206, 11 R254, 12 R293, 14 R357, 15 R372 to R379, 16 R392). -/
def Obligations.SpecWordsDecode : Prop :=
  decodeTableWord 64 0x0001030001018005 = some (.add ⟨Pfx.empty, 0, 6, 2, .imm 1⟩) ∧
  decodeTableWord 64 0x0000000502018425 = some (.remu ⟨Pfx.empty, 1, 6, 4, .reg 5⟩) ∧
  decodeTableWord 64 0xFFFC010002C000E1 = some (.bnz 5 0xFFFC) ∧
  decodeTableWord 64 0x00000000000000F1 = some .nop ∧
  decodeTableWord 96 0x00000003000201008001409A = some (.li Pfx.empty 5 false 3) ∧
  decodeTableWord 64 0x0400030002014119 = some (.csetb ⟨Pfx.empty, 0, 5, 4, .imm 0x400⟩) ∧
  decodeTableWord 64 0x0000120904020149 = some (.vmul ⟨Pfx.empty, 9, 0, 8, 8⟩ 9 false) ∧
  decodeTableWord 64 0x00000007800181B1 = some (.lld ⟨Pfx.empty, 0, 0, 0, 6, 256, .reg 7⟩) ∧
  decodeTableWord 128 0x000000000000000110200C050201C247 = some (.copy ⟨Pfx.empty, 7, 4, 5, 6, 8, .fill, 1⟩) ∧
  decodeTableWord 128 0x000B504100100010001C0C0502000317 =
    some (.mmaQ ⟨Pfx.empty, 0, 4, 5, 6, 7, 16, 16, 1, 1, 1, 1, .topk, false, true⟩) ∧
  decodeTableWord 64 0x00001B0000810A01 = some (.ld ⟨Pfx.empty, 2, 4, 1, .imm 0⟩ 3 false false) ∧
  decodeTableWord 64 0x0000800601014619 = some (.amo ⟨Pfx.empty, 1, 5, 2, 6, 0, .add, .rlx, true⟩) ∧
  decodeTableWord 64 0x0000150080400235 = some (.fence Pfx.empty .full .dev) ∧
  decodeTableWord 64 0x0003000500818281 = some (.mdep ⟨Pfx.empty, 0, 6, 1, 5, 3⟩) ∧
  decodeTableWord 64 0x0007010004000339 = some (.mdrain Pfx.empty 0 8 7) ∧
  decodeTableWord 64 0x00000100800100A9 = none ∧
  decodeTableWord 64 0x0000010080400389 = some (.endTask ⟨256, 256, 256⟩) ∧
  decodeTableWord 64 0x0004030004018399 = some (.crew ⟨6, 8, 256⟩ (some 4)) ∧
  decodeTableWord 64 0x0000010000C003C5 = some (.rte 1) ∧
  decodeTableWord 64 0x00050100804003C1 = some (.trap 5) ∧
  decodeTableWord 64 0x00000005020243ED = some (.pgmove 9 4 5) ∧
  decodeTableWord 128 0x000000000000000204000E06008101DF = some (.cqsplit ⟨Pfx.empty, 0, 4, 1, 6, 7, 256, 2, 0⟩)

/-- Decoding and encoding agree on every well-formed instruction: whatever bytes follow its unit, decoding gives the instruction and
the unit's length, and no event is well formed (03 R47 to R69). -/
def Obligations.DecodingReadsWhatEncodingWrites : Prop :=
  ∀ (i : Instr) (rest : List Byte), wellFormed i = true →
    decodeUnit (encode i ++ rest) = .ok (i, (encode i).length)

/-- The state after reset (model's choices: log 6, a register whose reset value the spec does not state; log 4, that the cores'
timestamps agree): the timestamp and every counter of time 0, no thread, message, operation or wait, every core at PARTN 1,
FMTR f32, PARKLIM 4,096, HENTRY and HPARAM untagged zero, every tile FREE with zero contents, every inbox empty, storage zero, FE full,
tags, owners and poison clear (01, 05 R117, 09 R194, 10 R241, 17 R404). What storage holds is the model's choice (log 5). -/
def Obligations.ResetLeavesTheStatedValues : Prop :=
  let s := State.reset
  s.cycle = 0 ∧ s.threads = [] ∧ s.msgs = [] ∧ s.issuing = false ∧ s.gangs = [] ∧
  (∀ c, (s.core c).partn = 1 ∧ (s.core c).fmtr = 9 ∧ (s.core c).parklim = 4096 ∧ (s.core c).hentry = Val.zero ∧
    (s.core c).hparam = Val.zero ∧ (s.core c).linkdisc = 0 ∧ (∀ sd, (s.core c).inbox sd = []) ∧ (s.core c).engine = []) ∧
  (∀ c i, let x := (s.core c).tile i; x.free = true ∧ x.busy = false ∧ x.drain = false ∧ x.elems = [] ∧ x.verd = [] ∧
    x.shape = 0 ∧ x.fpsnap = 0 ∧ x.owner = 0) ∧
  (∀ a, memByte s.mem a = 0 ∧ s.feAt a = true ∧ s.tagAt a = false ∧ s.poisonAt a = false) ∧ s.owners = [] ∧
  (∀ h, (s.home h).waits = [] ∧ (s.home h).registry = [] ∧ (s.home h).wbuf = [] ∧ (s.home h).counters = []) ∧
  (∀ c, (s.station c).heap = [] ∧ (s.station c).overflow = [] ∧ (s.station c).store = []) ∧ (∀ c, (s.core c).counters = []) ∧
  (∀ d, (s.mark d).bound = false) ∧ s.dev.pwrlim = 1800 ∧ s.dev.ltcount = 0

/-- Storage after reset is in the model's canonical form (log 5). -/
def Obligations.ResetMemoryIsCanonical : Prop := Memory.wf State.reset.mem = true

/-- Every step keeps storage in the model's canonical form: addresses strictly rising, no entry equal to what an unlisted address
reads as (log 5). -/
def Obligations.StepsKeepMemoryCanonical : Prop :=
  ∀ (s s' : State), Memory.wf s.mem = true → Machine.step s = .next s' → Memory.wf s'.mem = true

/-! ### Events (03 R61, 10, 11 R256, 13, 14, 15 R366, 16, 17, 18) -/

namespace Sys2Proof.Machine

/-- Thread t is in its slot and its core is not stopped. -/
def Running (s : State) (t : Nat) (th : Thread) : Prop := s.thread t = some th ∧ (s.core (tcore t)).stopped = false

/-- Operation o of thread t. -/
def HasOperation (s : State) (t op : Nat) (th : Thread) (o : Op) : Prop := s.thread t = some th ∧ th.op op = some o

end Sys2Proof.Machine

/-- Events of threads: a turn traps on a refused operation, takes the entries that issue nothing, traps on an empty budget, is held
while a result is awaited, which HELD counts, or a push or what it re-injected, which it does not, else is given to the unit at PCC; a
handler past its limit has none; a settled trapping thread enters its trap; a result reaches its registers; an acknowledged posted access retires; a refusal is the operation's; an instruction out of the
rotation completes or goes on; a record's request is sent again after 256 cycles; a park, a sleep or a walk ends, the walk of a PREF
without a fault, that of a fetch with the fetch's own (15 R366, R367, R372, 14 R339 to R344, R364, 11 R256, R260, 16 R387, R388, 17 R406,
09 R227). Which of the events that can happen comes next (log 1), that a late handler gets no turn (log 42), from when the 256 cycles
count (log 9) and that a page no leaf maps leaves a PREF without effect (log 21) are the model's. -/
def Obligations.ThreadEventResults : Prop :=
  (∀ s t th, Running s t th → th.status = .ready →
    let pc : Word := BitVec.ofNat 64 th.pc
    (lateHandler s th = true → exec (.threadTurn t) s = .refused .notEnabled) ∧
    (lateHandler s th = false → (oldestRefused th.ops).isSome = true →
      exec (.threadTurn t) s = .next ((s.startTrap t none 0 [] pc pc false false).trapNow t)) ∧
    (lateHandler s th = false → oldestRefused th.ops = none → ∀ f x, f = s.flushEntries t 17 → f.thread t = some x →
      (headHeld f t x = true → exec (.threadTurn t) s = .next (f.setThread t (x.charge t))) ∧
      (headHeld f t x = false → budgetDue t x = true →
        exec (.threadTurn t) s = .next (({ f with unit := (fetchNext f t x).unit }).faultUnit t x .budget 0) ∧
        (budgetDue t th = true →
          exec (.budgetTrap t) s = .next (({ f with unit := (fetchNext f t x).unit }).faultUnit t x .budget 0))) ∧
      (headHeld f t x = false → budgetDue t x = false → waitsForResult x = true →
        exec (.threadTurn t) s = .next ((f.setThread t (x.charge t)).countCore (tcore t) cHELD 1)) ∧
      (headHeld f t x = false → budgetDue t x = false → waitsForResult x = false →
        (waitsForPush x = true ∨ waitsForReplay x = true) → exec (.threadTurn t) s = .next (f.setThread t (x.charge t))) ∧
      (headHeld f t x = false → budgetDue t x = false → waitsForResult x = false → waitsForPush x = false → waitsForReplay x = false →
        exec (.threadTurn t) s = .next { (f.modThread t
          (fun y => { y with resuming := y.resuming && !y.reinject.isEmpty })) with cur := t, issuing := true }))) ∧
  (∀ s t th, Running s t th → isTrapping th = true → th.ops.all Op.isSettled = true → pushesLeft th = false →
    exec (.trapEntry t) s = .next ((s.enterTrap t).settleDrains (tcore t))) ∧
  (∀ s t op th o vs, HasOperation s t op th o → o.phase = .done vs →
    opClear s t o = true →
    (o.cls = .longLat → (isTrapping th = false ∨ th.pushDue o = true) →
      exec (.resultArrival t op) s = .next (s.arrive t o vs)) ∧
    (o.cls = .posted → exec (.postedAck t op) s = .next (s.arrive t o vs)) ∧
    (o.cls = .out → (s.core (tcore t)).stopped = false →
      (isTrapping th = false → exec (.homeAcknowledgement t op) s = .next (s.completeOut t o vs)) ∧
      (isTrapping th = true → th.pushDue o = true → exec (.homeAcknowledgement t op) s = .next (s.arrive t o vs)))) ∧
  (∀ s t op th o, HasOperation s t op th o → o.phase = .sent 0 → (s.core (tcore t)).stopped = false →
    (isTrapping th = true → o.act.ends = true → exec (.homeAcknowledgement t op) s = .next (s.modThread t (fun x => x.dropOp op))) ∧
    (¬ (isTrapping th = true ∧ o.act.ends = true) → ∀ s1, s.finishAct t th o = some s1 →
      exec (.homeAcknowledgement t op) s = .next (if o.act.revokes then s1.settleAll else s1))) ∧
  (∀ s t op th o c a, HasOperation s t op th o → o.phase = .refusing c a →
    ∃ s1, exec (.homeRefusal t op) s = .next s1 ∧ ∃ x y, s1.thread t = some x ∧ x.op op = some y ∧ y.phase = .refused c a ∧
      (∀ since, th.status = .out op since → x.status = .ready)) ∧
  (∀ s t th o, Running s t th → th.ops.find? (fun o => o.phase == .resend) = some o → o.issued + 256 ≤ s.cycle →
    exec (.waitResend t) s = .next ((s.modThread t (fun x => x.modOp o.id (fun y => { y with issued := s.cycle }))).sendAccess t
      o.id o.va)) ∧
  (∀ s t th why since, Running s t th → th.status = .parked why since → parkOver s t th why = true →
    exec (.parkResume t) s = .next (s.unpark t)) ∧
  (∀ s t th target since, Running s t th → th.status = .parked (.sleep target) since → target.toNat ≤ s.now t →
    exec (.sleepExpiry t) s = .next (s.modThread t (fun x => { x with status := .ready }))) ∧
  (∀ s t th page va since, s.thread t = some th → th.status = .parked (.plb page va) since →
    let ready := { th with status := .ready }
    let w := s.walkNow (page * 2 ^ 18)
    let fault := fun f =>
      if fetchAddr ready = some va then w.faultNext t ready ((fetchFault w ready va 8).getD f) va
      else if prefNext w t ready = true then w.setThread t ready else w.faultNext t ready f va
    (leafOf w page = none → exec (.plbFill t) s = .next (fault .machine)) ∧
    (∀ l, leafOf w page = some l → l.domain ≠ 0xFFFF → l.domain ≠ th.domain → exec (.plbFill t) s = .next (fault .lease)) ∧
    (∀ l, leafOf w page = some l → (l.domain = 0xFFFF ∨ l.domain = th.domain) →
      ∃ e : PlbEntry, e.home = l.home ∧ e.frame = l.frame ∧
        exec (.plbFill t) s = .next (((w.setThread t ready).modCore (tcore t) (fun k => plbInstall k e)).sampleCore (tcore t) 4
          (s.cycle - since))))

namespace Sys2Proof.Machine

/-- Message m stands next in its owner's order, and in the order of arrival, at core h. -/
def AtHome (s : State) (m : Nat) (x : Msg) (h : Nat) : Prop := s.ready m = some (x, h)

end Sys2Proof.Machine

/-- Events of homes: an access is performed once its pages are walked, its lines cached, its sectors pulled and its release recorded,
which may force a pull; registrations, probes, echoes, write-backs, pulls and their answers are performed as they arrive; a buffered
release store is written; a missing line is filled; a page is walked; a served record reaches its waiter (10 R237 to R243, R247, 13 R312
to R320, 14 R344, 16 R389). Which arrivals keep a message back (log 87), that bytes a release covered pass those that wait for a pull (log
29), and that a core which has released again stays in the directory (log 48), are the model's reading. -/
def Obligations.HomeEventResults : Prop :=
  (∀ s m x h, AtHome s m x h → x.isAccess = true → unwalkedPages s h x = [] → missingLines s h x = [] →
    x.raised s = false → x.blocked s h = none → ∀ s1, s1 = (s.noteAwaited h x).getD s → pullsNeeded s1 h x = [] →
    exec (.homeAccess m) s = .next (((s1.dropMsg m).touchLines (x.lines s1 h)).access x h)) ∧
  (∀ s m x h p, AtHome s m x h → x.isAccess = true → unwalkedPages s h x = [] → missingLines s h x = [] →
    x.raised s = false → x.blocked s h = none → ∀ s1, s1 = (s.noteAwaited h x).getD s → p ∈ pullsNeeded s1 h x → p.2.2 = false →
    exec (.homeAccess m) s = .next (s1.startPulls (pullsNeeded s1 h x))) ∧
  (∀ s m x h b, AtHome s m x h → x.isAccess = true → unwalkedPages s h x = [] → missingLines s h x = [] →
    x.raised s = false → x.blocked s h = some b → b.1.pulling = false → exec (.homeAccess m) s = .next (s.forcePull h b)) ∧
  (∀ s m x h t op va mask, AtHome s m x h → x.payload = .register t op va mask →
    exec (.registration m) s = .next ((s.dropMsg m).registerAt x t op va mask)) ∧
  (∀ s m x h t op, AtHome s m x h → x.payload = .probe t op →
    exec (.probe m) s = .next ((s.dropMsg m).probeAt x h t op)) ∧
  (∀ s m x h t op, AtHome s m x h → x.payload = .echo t op →
    exec (.probeEcho m) s = .next ((s.dropMsg m).echoed t op)) ∧
  (∀ s m x h core va mask data tags owner clear, AtHome s m x h → x.payload = .wback core va mask data tags owner clear none →
    unwalkedPages s h x = [] → missingLines s h x = [] →
    exec (.writeBack m) s = .next ((s.dropMsg m).wbackAt core va mask data tags owner clear)) ∧
  (∀ s m x h core va mask data tags owner clear t op, AtHome s m x h →
    x.payload = .wback core va mask data tags owner clear (some (t, op)) → unwalkedPages s h x = [] → missingLines s h x = [] →
    exec (.writeBack m) s = .next (((s.dropMsg m).wbackAt core va mask data tags owner clear).flushedOne t op)) ∧
  (∀ s m x c home sector, AtHome s m x c → x.payload = .pull home sector true → coveredOut s c = false →
    exec (.pull m) s = .next ((s.dropMsg m).send (.core c) (.core home) Owner.nobody (.pullReply home sector c))) ∧
  (∀ s m x c home sector, AtHome s m x c → x.payload = .pullReply home sector c →
    exec (.pullReply m) s = .next ((s.dropMsg m).pullAnswered home sector c)) ∧
  (∀ s home sector b, b ∈ (s.home home).wbuf → b.sector = sector →
    exec (.releaseStoreWritten home sector) s = .next (s.flushBuffer home sector)) ∧
  (∀ s home line ecc, line < 2 ^ 60 → lineWanted s ⟨home, line, false⟩ = true → (s.home home).shift = false →
    tfind (s.home home).backoff (Config.bankOf line) = none →
    exec (.hbmFill home line ecc) s = .next (s.fillLine ⟨home, line, false⟩ ecc)) ∧
  (∀ s m x h va rest, AtHome s m x h → x.needsLines = true → unwalkedPages s h x = va :: rest →
    exec (.homeWalk m) s = .next (s.walkPage x va)) ∧
  (∀ s m x who op v late, s.msg m = some x → x.payload = .wake who op v late → x.ride = .arrived → savedFor s op = none →
    exec (.waitRecordDelivery m) s = .next (((s.dropMsg m).sampleCore (wakeCore s who) 2 (s.cycle - x.born)).delivered who op v))

/-- Events of the queues: a parked thread is swapped out to its station's store and wakes from it; a record enters its cluster's ready
set or is rejected with its reason; a staged entry becomes eligible; a free slot takes the arrival queue's head, then a crew
reservation, then the ready set's first fit; travel contexts and stolen entries arrive (14 R336 to R353; a record after the window writes
of its link, 18 R416). What swap-out needs (log 52), how long a cluster must be idle before it asks for work (log 72) and that a reply
waits for room (log 92) are the model's. -/
def Obligations.QueueEventResults : Prop :=
  (∀ s t th w i, s.thread t = some th → swapOf th = some w → maySwap s t th w = true →
    freeStore (s.station (clusterOf (tcore t))) = some i → exec (.swapOut t) s = .next (s.swapOut t th w i)) ∧
  (∀ s t th w, s.thread t = some th → swapOf th = some w → maySwap s t th w = true →
    freeStore (s.station (clusterOf (tcore t))) = none → w.limited = true → th.fullSince ≠ some w.since →
    exec (.swapOut t) s = .next ((s.modThread t (fun x => { x with fullSince := some w.since })).countStation
      (clusterOf (tcore t)) cSTOREFULL 1)) ∧
  (∀ s cl i e, tfind (s.station cl).store i = some e → (s.station cl).stopped = false → e.queued = false →
    (e.woken = true → (s.station cl).room 1 = true → exec (.swappedWake cl i) s = .next (s.requeue cl i)) ∧
    (e.woken = false → storedOver s e = true → exec (.swappedWake cl i) s = .next ((s.modStation cl (fun k => { k with
      store := tput k.store i { e with woken := true } })).requeue cl i))) ∧
  (∀ s q link off bytes, q < 64 → link < 2 → off < 4096 → windowWaits s (.link link) = false →
    let k := tget s.dev.intake q IntakeQueue.reset
    (k.cfg.getLsbD 0 = false → exec (.intakeRecord q link off bytes) s = .next s) ∧
    (k.cfg.getLsbD 0 = true → (bytes.length ≠ 64 ∨ off % 64 ≠ 0) →
      exec (.intakeRecord q link off bytes) s = .next (s.modDev (fun d => { d with intake := tput d.intake q (k.reject 1) }))) ∧
    (k.cfg.getLsbD 0 = true → bytes.length = 64 → off % 64 = 0 → exec (.intakeRecord q link off bytes) s = .next (s.intake q link off
      bytes))) ∧
  (∀ s cl task e, ((s.station cl).heap ++ (s.station cl).overflow).find? (fun e => e.taskid == task && e.state == .staging) = some e →
    (s.station cl).stopped = false →
    let pages := (e.ranges.map pagesOf).flatten
    let w := s.walkPages pages
    resident w e.ranges = true → forcing w (tnum noCore 0) pages = false →
    let st : EntryState := if noSlotFor s cl e then .noFit else .eligible
    exec (.stagingDone cl task) s = .next ((w.pinRanges true e.ranges).putStation cl ((s.station cl).modEntry task
      (fun x => { x with state := st })))) ∧
  (∀ s c slot, slotFree s c slot = true →
    (∀ p rest, (s.core c).arrivals = p :: rest → exec (.slotOffer c slot) s = .next (s.arriveTravel c slot p)) ∧
    (∀ w, (s.core c).arrivals = [] → crewClaim (s.core c) = some w →
      exec (.slotOffer c slot) s = .next (s.startMember c slot w) ∧
      exec (.crewMemberStart c slot) s = .next (s.startMember c slot w)) ∧
    (∀ e, (s.core c).arrivals = [] → crewClaim (s.core c) = none → firstFit s c = some e →
      exec (.slotOffer c slot) s = .next (s.startEntry c slot e))) ∧
  (∀ s m x p c, s.msg m = some x → x.payload = .travel p → x.ride = .arrived → x.dst = .core c →
    ((s.core c).arrivals.length < Config.arrivalSize →
      exec (.travelArrival m) s = .next ((s.dropMsg m).modCore c (fun k => { k with arrivals := k.arrivals ++ [p] }))) ∧
    (Config.arrivalSize ≤ (s.core c).arrivals.length → exec (.travelArrival m) s = .next { s with
      msgs := s.msgs.map (fun y => if y.id == m then { y with ride := .onLoop 0 } else y) })) ∧
  (∀ s cl j v, cl < 64 → (s.station cl).stopped = false → (s.station cl).steal = none → idleCluster s cl = true →
    nextVictim cl 0 = some (j, v) → exec (.stealRequest cl) s = .next (s.steal cl j v)) ∧
  (∀ s m x es cl, s.msg m = some x → x.payload = .stealReply es → x.ride = .arrived → x.dst = .station cl →
    let s1 := s.requeueAll cl
    (es = [] ∨ (s1.station cl).roomNew es.length = true) →
    exec (.stealReply m) s = .next ((s1.dropMsg m).stolen cl es))

/-- Events of the units: engine operations start, fewer than four at a time, send their next command and end; the matrix unit takes the
next block of its operation; rows of a MACLD arrive; a drain's next row starts a handler, or ends with TAG or PERM where HENTRY is not what
it was; an overrun handler traps; a repartition completes once no register waits, changing nothing at either end, or traps for a refused
instruction; a way conversion completes; mark domains tick, are swept, bound and unbound (05 R109, R119, 09 R208, R221 to R228, 10 R247,
11 R271, R279, 12 R285, R288, R299 to R301). That a matrix operation runs a block at a time (log 82), when a handler is late (log 42), what
one starts with that the spec does not name (log 43), where a refused instruction takes a repartition's place (log 53) and how the
cells of a domain follow its binding (logs 62 and 93) are the model's reading. -/
def Obligations.UnitEventResults : Prop :=
  (∀ s c, (s.core c).stopped = false →
    (∀ s1, (s.core c).engine.findSome? (s.nextCommand c) = some s1 → exec (.engineStart c) s = .next s1) ∧
    (∀ e, (s.core c).engine.findSome? (s.nextCommand c) = none → nextEngine (s.core c) = some e →
      exec (.engineStart c) s = .next (s.startEngine c e))) ∧
  (∀ s c id e, (s.core c).engOp (BitVec.ofNat 16 id) = some e → e.ended = true → (s.core c).stopped = false →
    exec (.engineCompletion c id) s = .next (s.endEngine c e)) ∧
  (∀ s c t op th o m, (s.core c).matrix = some (t, op) → HasOperation s t op th o → o.phase = .sent 1 → o.act = .matrix m →
    let s1 := s.stepMatrix t th o m
    exec (.matrixCompletion c) s = .next (if (s1.core c).stopped && (s1.core c).matrix.isNone then s1.writeBackAll c else s1)) ∧
  (∀ s t op th o left tile bf16 pass shape st, HasOperation s t op th o → o.phase = .sent left →
    o.act = .rows tile bf16 pass shape st → (s.core (tcore t)).stopped = false →
    exec (.macldRowArrival t op) s = .next (s.rowArrives t o left tile bf16 pass shape)) ∧
  (∀ s c slot d, (slot = 64 ∨ slot = 65) → s.thread (tnum c slot) = none → (s.core c).stopped = false →
    nextDrain (s.core c) = some d →
    let k := s.core c
    (k.hentry.tag = false → exec (.rowHandlerDispatch c slot) s = .next ((s.modDrain c d.tile
      (fun x => { x with failed := some .tag })).settleDrains c)) ∧
    (k.hentry.tag = true → k.hdomain ≠ (k.tile d.tile).domain → exec (.rowHandlerDispatch c slot) s = .next ((s.modDrain c d.tile
      (fun x => { x with failed := some .perm })).settleDrains c)) ∧
    (k.hentry.tag = true → k.hdomain = (k.tile d.tile).domain → exec (.rowHandlerDispatch c slot) s = .next
      ((((s.modDrain c d.tile (fun x => { x with next := x.next + 1 })).setThread (tnum c slot) (handlerThread s c slot (d.present s))).modCore c
        (fun y => { y with dispatches := tmod y.dispatches slot 0 (· + 1) })).acquireInv c (fun _ => true)))) ∧
  (∀ s c slot th d, s.thread (tnum c slot) = some th → th.dispatch = some d → d.start + Config.handlerCycles ≤ s.cycle →
    (∀ o ∈ th.ops, o.act ≠ .hend) → isTrapping th = false → (s.core c).stopped = false →
    exec (.handlerOverrun c slot) s = .next (s.overrun (tnum c slot) th)) ∧
  (∀ s c p t th o, (s.core c).repart = some p → repartIssuer s c = some (t, th, o) →
    let rest := th.ops.filter (fun x => x.id != o.id)
    let freed := s.modCore c (fun k => { k with repart := none })
    ((oldestRefused rest).isSome = true → rest.all Op.isSettled = true →
      exec (.repartComplete c) s = .next (freed.trapInstead t o)) ∧
    (oldestRefused rest = none → (∃ x ∈ th.regs, x.1 < th.count ∧ x.2.present = false) →
      exec (.repartComplete c) s = .refused .notEnabled) ∧
    (oldestRefused rest = none → (∀ x ∈ th.regs, x.1 < th.count → x.2.present = true) → p = (s.core c).partn.toNat →
      exec (.repartComplete c) s = .next (freed.completeOut t o [Val.zero])) ∧
    (rest = [] → (∀ x ∈ th.regs, x.1 < th.count → x.2.present = true) → p ≠ (s.core c).partn.toNat →
      exec (.repartComplete c) s = .next (s.repartDone c t th o p))) ∧
  (∀ s h v, (s.home h).conv = some v → exec (.wayconvCompletion h) s = .next (s.converted h v)) ∧
  (∀ s h dom, (s.mark dom).bound = true → (s.mark dom).stepped = false → h < Config.cores →
    tget (s.home h).ticks dom 0 < timedTick (s.mark dom) (s.tsAt h) →
    exec (.timedTick h dom) s = .next (s.modHome h (fun k => { k with ticks := tput k.ticks dom (timedTick (s.mark dom) (s.tsAt h)) }))) ∧
  (∀ s m x h dom gen n t op, AtHome s m x h → x.payload = .tick dom gen n t op → (∀ y ∈ s.ticksUpTo x, y.id = m) →
    exec (.tickMessage m) s = .next ((s.dropMsg m).applyTick h dom gen n t op)) ∧
  (∀ s h dom c, (s.mark dom).bound = true → markLive s h dom = true → c < (s.mark dom).cells →
    cellHome s (s.mark dom) c = h → exec (.coolingSweep h dom c) s = .next (s.updateCell h dom c id).1) ∧
  (∀ s h dom w, workOf (s.home h) dom true = some w → ownEarlier s h w = false →
    exec (.mbindRewrite h dom) s = .next ((((cellsAt s h (s.mark dom)).foldl (fun r c => r.rewriteCell h dom c) s).endWork h w).takeReply
      w.t w.op (.answer [Val.zero]))) ∧
  (∀ s h dom w, workOf (s.home h) dom false = some w → bindPending s h dom true = false → markArrived s h dom = false → ownEarlier s h w = false →
    exec (.munbindHome h dom) s = .next ((((s.updateCells h dom (cellsAt s h (s.mark dom))).1).endWork h w).takeReply w.t w.op
      (.answer [Val.zero])))

/-- Links, loops and gang switches: a pushed value reaches a neighbour's inbox that has room; a message boards a loop with a run of empty
slots, goes round where its ejection buffer has no room or its owner's earlier messages are still under way, changes loops at a station and
arrives at the end of its last one; after 64 cycles a stop reserves slots; a GANG stops its partition's cores and stations at its
timestamp, takes what still rides, which goes no further on the loops, and at rest saves and loads (01 R18 to R26, 05 R110, 15 R379 to
R383, 16 R400, R401). Which of two loops a message takes (log 84) and how many slots a loop has (log 54), that a taken message is followed
by what its owner sent after it (log 23), and how the save is kept beside its area (log 64) are the model's. -/
def Obligations.LinkLoopAndGangEventResults : Prop :=
  (∀ s c side v rest n, (s.core c).flying side = v :: rest → neighbour c side = some n →
    ((s.core n).inbox (Side.opposite side)).length < Config.inboxSize →
    exec (.linkDelivery c side) s = .next ((s.modCore c (fun k => k.setFlying side rest)).modCore n
      (fun k => k.setInbox (Side.opposite side) ((s.core n).inbox (Side.opposite side) ++ [v])))) ∧
  (∀ s m x, s.msg m = some x →
    (∀ k, captureKey s x = some k → exec (.loopInsertion m) s = .refused .notEnabled ∧
      exec (.falloutCapture m) s = .next (s.capture x k)) ∧
    (captureKey s x = none →
      (∀ since res, x.ride = .waiting since res →
        (mayInsert s x = true → exec (.loopInsertion m) s = .next (s.setRide m (fun y =>
          { y with ride := .onLoop x.loop.hops, entered := if x.leg = 0 then s.cycle else x.entered }))) ∧
        (mayInsert s x = false → exec (.loopInsertion m) s = .refused .notEnabled)) ∧
      (∀ n, x.ride = .onLoop n →
        (mayEject s x = false → exec (.loopInsertion m) s = .next s) ∧
        (mayEject s x = true → x.lastLeg = true → exec (.loopInsertion m) s = .next ((s.eject x).sampleTransit x)) ∧
        (mayEject s x = true → x.lastLeg = false → exec (.loopInsertion m) s = .next (s.setRide m
          (fun y => { y with ride := .waiting s.cycle false, leg := x.leg + 1 }))))) ∧
    (∀ since, x.ride = .waiting since false → since + 64 ≤ s.cycle →
      exec (.slotReservation m) s = .next (s.setRide m (fun y => { y with ride := .waiting since true })))) ∧
  (∀ s part g, s.gangs.find? (fun g => g.part == part && !g.stopped) = some g →
    (rectCores g.area).all (fun c => decide (g.ts.toNat ≤ s.tsAt c)) = true →
    ∃ s1, exec (.gangStop part) s = .next s1 ∧ (∀ c ∈ rectCores g.area, (s1.core c).stopped = true) ∧
      (∀ cl ∈ rectClusters g.area, (s1.station cl).stopped = true)) ∧
  (∀ s x v op, x.wakes = some op → savedFor s op = some v → captureKey s x = some (falloutKey v.part v.ts)) ∧
  (∀ s x g, x.wakes = none →
    s.gangs.find? (fun g => g.stopped && (x.taken g.part g.area || followsTaken s x (falloutKey g.part g.ts))) = some g →
    ((x.ride ≠ .arrived ∧ (x.src.cluster ≠ x.dst.cluster ∨ ∃ n, x.dst = .station n)) ∨
      followsTaken s x (falloutKey g.part g.ts) = true) →
    captureKey s x = some (falloutKey g.part g.ts)) ∧
  (∀ s part g, s.gangs.find? (fun g => g.part == part && g.stopped) = some g → atRest s g.part g.area = true →
    let r := match g.load with | some b => (s.savePart g).loadPart g b | none => (s.savePart g, 0)
    exec (.gangLoad part) s = .next (({ r.1 with gangs := r.1.gangs.filter (· != g) }).gangDone g r.2))

/-- Events of the device and the world outside: refresh debts, back-offs, lane errors, live shifts; resets; accesses to the three BARs of a
host link and to the window from a peer; peer links; archive drives; power and idle states; attestation (10 R250 to R252, 17 R404 to R411,
18 R412 to R426). What a live shift lets through (log 55), which lanes a home has (log 26), what a reset leaves of memory (log 25), what
comes of the accesses that a lost link leaves (log 56), what the MSI-X table holds (log 102), where the drives' queues stand (log 57) and
when the device is idle (log 73) are the model's. -/
def Obligations.DeviceEventResults : Prop :=
  (∀ s h b, h < Config.cores →
    let debt := tget (s.home h).debt b 0
    let next := if bankBusy s h b then min 8 (debt + 1) else debt - 1
    exec (.hbmRefresh h b) s = .next (s.modHome h (fun k => { k with debt := tput k.debt b next }))) ∧
  (∀ s h b, h < Config.cores → tfind (s.home h).backoff b = none →
    let rest (k : Home) : Table Nat := if tget (s.home h).debt b 0 = 8 then tput k.debt b 7 else k.debt
    exec (.alertBackOff h b) s = .next ((s.modHome h (fun k =>
      { k with backoff := tput k.backoff b s.cycle, debt := rest k })).countHome h cREFSTALL 1)) ∧
  (∀ s h b since, tfind (s.home h).backoff b = some since →
    exec (.alertBackOffEnd h b) s = .next ((s.modHome h (fun k => { k with backoff := tdel k.backoff b })).sampleHome h 8
      (2 * (s.cycle - since) / 3))) ∧
  (∀ s k l, k < 16 → l < 2048 → exec (.linkCrcError k l) s = .next (s.setStack k { s.stack k with
    lanecrc := tmod (s.stack k).lanecrc l 0 (fun n => min 65535 (n + 1)) })) ∧
  (∀ s k l, k < 16 → (s.stack k).repairmode.getLsbD 2 = true → (s.stack k).spares.extractLsb' 0 16 ≠ 0 →
    ((s.stack k).repairmode.extractLsb' 8 8).toNat ≤ tget (s.stack k).lanecrc l 0 → 0 < tget (s.stack k).lanecrc l 0 →
    exec (.liveShift k l) s = .next (s.shiftLane k l)) ∧
  (∀ s h, (s.home h).shift = true →
    let waits := (s.byArrival (s.msgs.filter (fun m =>
      m.ride == .arrived && m.dst == .core h && m.needsLines && !(missingLines s h m).isEmpty))).map Msg.id
    exec (.liveShiftDone h) s = .next (s.modHome h (fun k => { k with
      shift := false, parked := k.parked.filter (fun i => (s.msg i).isSome && !waits.contains i) ++ waits }))) ∧
  (∀ s, exec .deviceReset s = .next s.resetAgain ∧ exec .maintenanceReset s = .next s.maintain) ∧
  (∀ s link off len data r, link < 2 → s.window (.link link) off len data = some r →
    (∀ bytes, r.2 = .data bytes → exec (.hostWindowAccess ⟨link, 4⟩ off len data) s = .next (r.1.emit (.hostReply link 4 off bytes))) ∧
    (r.2 = .taken → exec (.hostWindowAccess ⟨link, 4⟩ off len data) s = .next r.1) ∧
    (r.2 = .unsupported → exec (.hostWindowAccess ⟨link, 4⟩ off len data) s = .next (r.1.emit (.unsupported link 4 off)))) ∧
  (∀ s link bar off len, link < 2 → bar ≠ 4 → exec (.hostWindowAccess ⟨link, bar⟩ off len none) s = .next (s.emit
    (if barSize bar < off + len then .unsupported link bar off else .hostReply link bar off (barRead s link bar off len)))) ∧
  (∀ s link bar off len bytes, link < 2 → bar ≠ 4 →
    (barSize bar < off + bytes.length → exec (.hostWindowAccess ⟨link, bar⟩ off len (some bytes)) s = .next (s.emit
      (.unsupported link bar off))) ∧
    (off + bytes.length ≤ barSize bar → (bar = 2 → off < 0x40000 → windowWaits s (.link link) = false) →
      exec (.hostWindowAccess ⟨link, bar⟩ off len (some bytes)) s = .next (s.barWrite link bar off bytes))) ∧
  (∀ s port off len data r, port < 8 → portUp s port = true → s.window (.port port) off len data = some r →
    (∀ bytes, r.2 = .data bytes → exec (.peerWindowAccess port off len data) s = .next (r.1.emit (.peerReply port off bytes))) ∧
    (r.2 = .taken → exec (.peerWindowAccess port off len data) s = .next r.1) ∧
    (r.2 = .unsupported → exec (.peerWindowAccess port off len data) s = .next (r.1.emit (.peerUnsupported port off)))) ∧
  (∀ s port serial, port < 8 → exec (.peerLinkUp port serial) s = .next (s.modDev (fun d => { d with
    ppstat := tput d.ppstat port (serial ++ (1 : BitVec 32)) }))) ∧
  (∀ s port, port < 8 → exec (.peerLinkLoss port) s = .next ((portFlights s port).foldl
    (fun r x => (r.dropMsg x.1).takeReply x.2.1 x.2.2.1 (.refuse .machine x.2.2.2))
    (s.modDev (fun d => { d with ppstat := tmod d.ppstat port 0 (fun w => w &&& ~~~1) })))) ∧
  (∀ s c id e status folio, (s.core c).engOp (BitVec.ofNat 16 id) = some e → e.outstanding = true →
    exec (.archiveDriveCompletion c id status folio) s = .next (s.driveAnswer c e status folio)) ∧
  (∀ s c id e, (s.core c).engOp (BitVec.ofNat 16 id) = some e → e.outstanding = true → e.since + 1500000000 ≤ s.cycle →
    let last := (tget s.dev.arcq e.drive ArcQueue.reset).st.extractLsb' 32 32
    exec (.archiveTimeout c id) s = .next ((((s.failEng c e.id .machine).modEng c e.id
      (fun x => { x with answered := true })).driveFail e.drive last).driveOut e.drive false)) ∧
  (∀ s, deviceIdle s = true → exec .d3hotEntry s = .next (s.modDev (fun d => { d with devstat := d.devstat ||| 4 }))) ∧
  (∀ s, exec .d3hotExit s = .next (s.modDev (fun d => { d with devstat := d.devstat &&& ~~~4 }))) ∧
  (∀ s w, (s.dev.pwrlim.toNat < w → exec (.powerLimit w) s = .next ((s.modDev (fun d => { d with throttled := true })).signal
      122 0)) ∧
    (w ≤ s.dev.pwrlim.toNat → exec (.powerBelowLimit w) s = .next (s.modDev (fun d => { d with throttled := false })))) ∧
  (∀ s, s.dev.trust.busy = 1 → exec .attestReady s = .next (s.modDev (fun d => { d with trust := { d.trust with
    busy := 2, report := reportOf s, sig := signReport (reportOf s), count := d.trust.count + 1 } }))) ∧
  (∀ s place chan, channelOn (s.home place).captures chan 10 = true → exec (.capturePeriodicSample true place chan) s =
    .next (s.modHome place (fun k => { k with captures := sampleChannel k.captures chan s.cycle 10 k.waits.length }))) ∧
  (∀ s place chan, channelOn (s.core place).captures chan 5 = true → exec (.capturePeriodicSample false place chan) s =
    .next (s.modCore place (fun k => { k with captures := sampleChannel k.captures chan s.cycle 5 k.engine.length })))

/-- Each event that stands for a management write performs the one write of its register's offset, in every state (18 R413). PWRLIM
keeps a LIMIT from 600 to 1,800 and else 1,800 (18 R423; a value outside, log 60), HWIN its base and EN (18 R416); a write of 0 clears a
counter and any other leaves it (17 R405); an ignored write changes no register's reading but its own, which reads as BUSY (14 R334; log
69). That a stack has 2,048 lane counts is log 26. -/
def Obligations.ManagementEventResults : Prop :=
  (∀ s, exec .attgo s = .next (mgmtWrite s 0x6080 1)) ∧
  (∀ s off v, 0x6060 ≤ off → off < 0x6080 → exec (.nonceWrite off v) s = .next (mgmtWrite s off v)) ∧
  (∀ s off, mgmtClass off = .counter → off < 2 ^ 27 → exec (.counterClear off) s = .next (mgmtWrite s off 0)) ∧
  (∀ s off v, mgmtClass off = .capcfg → off < 2 ^ 27 → exec (.captureSnap off v) s = .next (mgmtWrite s off (v ||| 2)) ∧
    exec (.captureEnable off v) s = .next (mgmtWrite s off (v ||| 1))) ∧
  (∀ s q v, q < 64 → exec (.inqcfgWrite q v) s = .next (mgmtWrite s (0x10000 + 0x40 * q) v)) ∧
  (∀ s off v, mgmtClass off = .area → off < 2 ^ 27 → exec (.areaRegisterWrite off v) s = .next (mgmtWrite s off v)) ∧
  (∀ s off v, mgmtClass off = .window → exec (.formatWindowWrite off v) s = .next (mgmtWrite s off v)) ∧
  (∀ s off v, mgmtClass off = .pmap → exec (.pmapWrite off v) s = .next (mgmtWrite s off v)) ∧
  (∀ s v, exec (.hwinWrite v) s = .next (mgmtWrite s 0x3000 v)) ∧
  (∀ s d v, d < 16 → exec (.arqcfgWrite d v) s = .next (mgmtWrite s (0x5000 + 0x40 * d) v)) ∧
  (∀ s v, exec (.pwrlimWrite v) s = .next (mgmtWrite s 0x1000 v)) ∧
  (∀ s k l, k < 16 → l < 2048 → exec (.lanecrcClear k l) s = .next (mgmtWrite s (0x7000000 + 0x10000 * k + 0x100 + 8 * l) 0)) ∧
  (∀ s off v, off < 2 ^ 27 → exec (.mgmtRegisterWrite off v) s = .next (mgmtWrite s off v)) ∧
  (∀ s v, let limit := v.toNat % 2 ^ 16
    (mgmtWrite s 0x1000 v).dev.pwrlim = if 600 ≤ limit ∧ limit ≤ 1800 then BitVec.ofNat 64 limit else 1800) ∧
  (∀ s v, (mgmtWrite s 0x3000 v).dev.hwin = v &&& 0xFFFFFFFFFFFC0001) ∧
  (∀ s v, v ≠ 0 → mgmtWrite s 0x1000100 v = { s with cores := (mgmtWrite s 0x1000100 v).cores, dev := (mgmtWrite s 0x1000100 v).dev } ∧
    ((mgmtWrite s 0x1000100 v).core 0).counters = (s.core 0).counters) ∧
  (∀ s, tfind ((mgmtWrite s 0x1000100 0).core 0).counters 0 = none) ∧
  (∀ s off v, busyWrite s off v = true → mgmtRead (mgmtWrite s off v) off = 1 ∧
    ∀ o, o ≠ off → mgmtRead (mgmtWrite s off v) o = mgmtRead s o)

end
end

