-- ==== Sys2Proof/Laws/State.lean ====
section
/-!
SUPPORT. What each update of the state leaves alone: one lemma for each field and update, so that no proof has to unfold a
record update.
-/

namespace Sys2Proof.Machine

@[simp] theorem State.setThread_steps (s : State) (t : Nat) (th : Thread) : (s.setThread t th).steps = s.steps := rfl
@[simp] theorem State.setThread_cycle (s : State) (t : Nat) (th : Thread) : (s.setThread t th).cycle = s.cycle := rfl
@[simp] theorem State.setThread_agenda (s : State) (t : Nat) (th : Thread) : (s.setThread t th).agenda = s.agenda := rfl
@[simp] theorem State.setThread_cur (s : State) (t : Nat) (th : Thread) : (s.setThread t th).cur = s.cur := rfl
@[simp] theorem State.setThread_issuing (s : State) (t : Nat) (th : Thread) : (s.setThread t th).issuing = s.issuing := rfl
@[simp] theorem State.setThread_unit (s : State) (t : Nat) (th : Thread) : (s.setThread t th).unit = s.unit := rfl
@[simp] theorem State.setThread_draws (s : State) (t : Nat) (th : Thread) : (s.setThread t th).draws = s.draws := rfl
@[simp] theorem State.setThread_nextId (s : State) (t : Nat) (th : Thread) : (s.setThread t th).nextId = s.nextId := rfl
@[simp] theorem State.setThread_cores (s : State) (t : Nat) (th : Thread) : (s.setThread t th).cores = s.cores := rfl
@[simp] theorem State.setThread_homes (s : State) (t : Nat) (th : Thread) : (s.setThread t th).homes = s.homes := rfl
@[simp] theorem State.setThread_stations (s : State) (t : Nat) (th : Thread) : (s.setThread t th).stations = s.stations := rfl
@[simp] theorem State.setThread_msgs (s : State) (t : Nat) (th : Thread) : (s.setThread t th).msgs = s.msgs := rfl
@[simp] theorem State.setThread_fallout (s : State) (t : Nat) (th : Thread) : (s.setThread t th).fallout = s.fallout := rfl
@[simp] theorem State.setThread_mem (s : State) (t : Nat) (th : Thread) : (s.setThread t th).mem = s.mem := rfl
@[simp] theorem State.setThread_feEmpty (s : State) (t : Nat) (th : Thread) : (s.setThread t th).feEmpty = s.feEmpty := rfl
@[simp] theorem State.setThread_tags (s : State) (t : Nat) (th : Thread) : (s.setThread t th).tags = s.tags := rfl
@[simp] theorem State.setThread_poison (s : State) (t : Nat) (th : Thread) : (s.setThread t th).poison = s.poison := rfl
@[simp] theorem State.setThread_owners (s : State) (t : Nat) (th : Thread) : (s.setThread t th).owners = s.owners := rfl
@[simp] theorem State.setThread_dev (s : State) (t : Nat) (th : Thread) : (s.setThread t th).dev = s.dev := rfl
@[simp] theorem State.setThread_gangs (s : State) (t : Nat) (th : Thread) : (s.setThread t th).gangs = s.gangs := rfl
@[simp] theorem State.setThread_saved (s : State) (t : Nat) (th : Thread) : (s.setThread t th).saved = s.saved := rfl
@[simp] theorem State.setThread_loaded (s : State) (t : Nat) (th : Thread) : (s.setThread t th).loaded = s.loaded := rfl
@[simp] theorem State.setThread_out (s : State) (t : Nat) (th : Thread) : (s.setThread t th).out = s.out := rfl
@[simp] theorem State.setThread_stalled (s : State) (t : Nat) (th : Thread) : (s.setThread t th).stalled = s.stalled := rfl

@[simp] theorem State.dropThread_steps (s : State) (t : Nat) : (s.dropThread t).steps = s.steps := rfl
@[simp] theorem State.dropThread_cycle (s : State) (t : Nat) : (s.dropThread t).cycle = s.cycle := rfl
@[simp] theorem State.dropThread_agenda (s : State) (t : Nat) : (s.dropThread t).agenda = s.agenda := rfl
@[simp] theorem State.dropThread_cur (s : State) (t : Nat) : (s.dropThread t).cur = s.cur := rfl
@[simp] theorem State.dropThread_issuing (s : State) (t : Nat) : (s.dropThread t).issuing = s.issuing := rfl
@[simp] theorem State.dropThread_unit (s : State) (t : Nat) : (s.dropThread t).unit = s.unit := rfl
@[simp] theorem State.dropThread_draws (s : State) (t : Nat) : (s.dropThread t).draws = s.draws := rfl
@[simp] theorem State.dropThread_nextId (s : State) (t : Nat) : (s.dropThread t).nextId = s.nextId := rfl
@[simp] theorem State.dropThread_cores (s : State) (t : Nat) : (s.dropThread t).cores = s.cores := rfl
@[simp] theorem State.dropThread_homes (s : State) (t : Nat) : (s.dropThread t).homes = s.homes := rfl
@[simp] theorem State.dropThread_stations (s : State) (t : Nat) : (s.dropThread t).stations = s.stations := rfl
@[simp] theorem State.dropThread_msgs (s : State) (t : Nat) : (s.dropThread t).msgs = s.msgs := rfl
@[simp] theorem State.dropThread_fallout (s : State) (t : Nat) : (s.dropThread t).fallout = s.fallout := rfl
@[simp] theorem State.dropThread_mem (s : State) (t : Nat) : (s.dropThread t).mem = s.mem := rfl
@[simp] theorem State.dropThread_feEmpty (s : State) (t : Nat) : (s.dropThread t).feEmpty = s.feEmpty := rfl
@[simp] theorem State.dropThread_tags (s : State) (t : Nat) : (s.dropThread t).tags = s.tags := rfl
@[simp] theorem State.dropThread_poison (s : State) (t : Nat) : (s.dropThread t).poison = s.poison := rfl
@[simp] theorem State.dropThread_owners (s : State) (t : Nat) : (s.dropThread t).owners = s.owners := rfl
@[simp] theorem State.dropThread_dev (s : State) (t : Nat) : (s.dropThread t).dev = s.dev := rfl
@[simp] theorem State.dropThread_gangs (s : State) (t : Nat) : (s.dropThread t).gangs = s.gangs := rfl
@[simp] theorem State.dropThread_saved (s : State) (t : Nat) : (s.dropThread t).saved = s.saved := rfl
@[simp] theorem State.dropThread_loaded (s : State) (t : Nat) : (s.dropThread t).loaded = s.loaded := rfl
@[simp] theorem State.dropThread_out (s : State) (t : Nat) : (s.dropThread t).out = s.out := rfl
@[simp] theorem State.dropThread_stalled (s : State) (t : Nat) : (s.dropThread t).stalled = s.stalled := rfl

@[simp] theorem State.setCore_steps (s : State) (c : Nat) (k : Core) : (s.setCore c k).steps = s.steps := rfl
@[simp] theorem State.setCore_cycle (s : State) (c : Nat) (k : Core) : (s.setCore c k).cycle = s.cycle := rfl
@[simp] theorem State.setCore_agenda (s : State) (c : Nat) (k : Core) : (s.setCore c k).agenda = s.agenda := rfl
@[simp] theorem State.setCore_cur (s : State) (c : Nat) (k : Core) : (s.setCore c k).cur = s.cur := rfl
@[simp] theorem State.setCore_issuing (s : State) (c : Nat) (k : Core) : (s.setCore c k).issuing = s.issuing := rfl
@[simp] theorem State.setCore_unit (s : State) (c : Nat) (k : Core) : (s.setCore c k).unit = s.unit := rfl
@[simp] theorem State.setCore_draws (s : State) (c : Nat) (k : Core) : (s.setCore c k).draws = s.draws := rfl
@[simp] theorem State.setCore_nextId (s : State) (c : Nat) (k : Core) : (s.setCore c k).nextId = s.nextId := rfl
@[simp] theorem State.setCore_threads (s : State) (c : Nat) (k : Core) : (s.setCore c k).threads = s.threads := rfl
@[simp] theorem State.setCore_homes (s : State) (c : Nat) (k : Core) : (s.setCore c k).homes = s.homes := rfl
@[simp] theorem State.setCore_stations (s : State) (c : Nat) (k : Core) : (s.setCore c k).stations = s.stations := rfl
@[simp] theorem State.setCore_msgs (s : State) (c : Nat) (k : Core) : (s.setCore c k).msgs = s.msgs := rfl
@[simp] theorem State.setCore_fallout (s : State) (c : Nat) (k : Core) : (s.setCore c k).fallout = s.fallout := rfl
@[simp] theorem State.setCore_mem (s : State) (c : Nat) (k : Core) : (s.setCore c k).mem = s.mem := rfl
@[simp] theorem State.setCore_feEmpty (s : State) (c : Nat) (k : Core) : (s.setCore c k).feEmpty = s.feEmpty := rfl
@[simp] theorem State.setCore_tags (s : State) (c : Nat) (k : Core) : (s.setCore c k).tags = s.tags := rfl
@[simp] theorem State.setCore_poison (s : State) (c : Nat) (k : Core) : (s.setCore c k).poison = s.poison := rfl
@[simp] theorem State.setCore_owners (s : State) (c : Nat) (k : Core) : (s.setCore c k).owners = s.owners := rfl
@[simp] theorem State.setCore_dev (s : State) (c : Nat) (k : Core) : (s.setCore c k).dev = s.dev := rfl
@[simp] theorem State.setCore_gangs (s : State) (c : Nat) (k : Core) : (s.setCore c k).gangs = s.gangs := rfl
@[simp] theorem State.setCore_saved (s : State) (c : Nat) (k : Core) : (s.setCore c k).saved = s.saved := rfl
@[simp] theorem State.setCore_loaded (s : State) (c : Nat) (k : Core) : (s.setCore c k).loaded = s.loaded := rfl
@[simp] theorem State.setCore_out (s : State) (c : Nat) (k : Core) : (s.setCore c k).out = s.out := rfl
@[simp] theorem State.setCore_stalled (s : State) (c : Nat) (k : Core) : (s.setCore c k).stalled = s.stalled := rfl

@[simp] theorem State.setHome_steps (s : State) (h : Nat) (k : Home) : (s.setHome h k).steps = s.steps := rfl
@[simp] theorem State.setHome_cycle (s : State) (h : Nat) (k : Home) : (s.setHome h k).cycle = s.cycle := rfl
@[simp] theorem State.setHome_agenda (s : State) (h : Nat) (k : Home) : (s.setHome h k).agenda = s.agenda := rfl
@[simp] theorem State.setHome_cur (s : State) (h : Nat) (k : Home) : (s.setHome h k).cur = s.cur := rfl
@[simp] theorem State.setHome_issuing (s : State) (h : Nat) (k : Home) : (s.setHome h k).issuing = s.issuing := rfl
@[simp] theorem State.setHome_unit (s : State) (h : Nat) (k : Home) : (s.setHome h k).unit = s.unit := rfl
@[simp] theorem State.setHome_draws (s : State) (h : Nat) (k : Home) : (s.setHome h k).draws = s.draws := rfl
@[simp] theorem State.setHome_nextId (s : State) (h : Nat) (k : Home) : (s.setHome h k).nextId = s.nextId := rfl
@[simp] theorem State.setHome_threads (s : State) (h : Nat) (k : Home) : (s.setHome h k).threads = s.threads := rfl
@[simp] theorem State.setHome_cores (s : State) (h : Nat) (k : Home) : (s.setHome h k).cores = s.cores := rfl
@[simp] theorem State.setHome_stations (s : State) (h : Nat) (k : Home) : (s.setHome h k).stations = s.stations := rfl
@[simp] theorem State.setHome_msgs (s : State) (h : Nat) (k : Home) : (s.setHome h k).msgs = s.msgs := rfl
@[simp] theorem State.setHome_fallout (s : State) (h : Nat) (k : Home) : (s.setHome h k).fallout = s.fallout := rfl
@[simp] theorem State.setHome_mem (s : State) (h : Nat) (k : Home) : (s.setHome h k).mem = s.mem := rfl
@[simp] theorem State.setHome_feEmpty (s : State) (h : Nat) (k : Home) : (s.setHome h k).feEmpty = s.feEmpty := rfl
@[simp] theorem State.setHome_tags (s : State) (h : Nat) (k : Home) : (s.setHome h k).tags = s.tags := rfl
@[simp] theorem State.setHome_poison (s : State) (h : Nat) (k : Home) : (s.setHome h k).poison = s.poison := rfl
@[simp] theorem State.setHome_owners (s : State) (h : Nat) (k : Home) : (s.setHome h k).owners = s.owners := rfl
@[simp] theorem State.setHome_dev (s : State) (h : Nat) (k : Home) : (s.setHome h k).dev = s.dev := rfl
@[simp] theorem State.setHome_gangs (s : State) (h : Nat) (k : Home) : (s.setHome h k).gangs = s.gangs := rfl
@[simp] theorem State.setHome_saved (s : State) (h : Nat) (k : Home) : (s.setHome h k).saved = s.saved := rfl
@[simp] theorem State.setHome_loaded (s : State) (h : Nat) (k : Home) : (s.setHome h k).loaded = s.loaded := rfl
@[simp] theorem State.setHome_out (s : State) (h : Nat) (k : Home) : (s.setHome h k).out = s.out := rfl
@[simp] theorem State.setHome_stalled (s : State) (h : Nat) (k : Home) : (s.setHome h k).stalled = s.stalled := rfl

@[simp] theorem State.setStation_steps (s : State) (c : Nat) (k : Station) : (s.setStation c k).steps = s.steps := rfl
@[simp] theorem State.setStation_cycle (s : State) (c : Nat) (k : Station) : (s.setStation c k).cycle = s.cycle := rfl
@[simp] theorem State.setStation_agenda (s : State) (c : Nat) (k : Station) : (s.setStation c k).agenda = s.agenda := rfl
@[simp] theorem State.setStation_cur (s : State) (c : Nat) (k : Station) : (s.setStation c k).cur = s.cur := rfl
@[simp] theorem State.setStation_issuing (s : State) (c : Nat) (k : Station) : (s.setStation c k).issuing = s.issuing := rfl
@[simp] theorem State.setStation_unit (s : State) (c : Nat) (k : Station) : (s.setStation c k).unit = s.unit := rfl
@[simp] theorem State.setStation_draws (s : State) (c : Nat) (k : Station) : (s.setStation c k).draws = s.draws := rfl
@[simp] theorem State.setStation_nextId (s : State) (c : Nat) (k : Station) : (s.setStation c k).nextId = s.nextId := rfl
@[simp] theorem State.setStation_threads (s : State) (c : Nat) (k : Station) : (s.setStation c k).threads = s.threads := rfl
@[simp] theorem State.setStation_cores (s : State) (c : Nat) (k : Station) : (s.setStation c k).cores = s.cores := rfl
@[simp] theorem State.setStation_homes (s : State) (c : Nat) (k : Station) : (s.setStation c k).homes = s.homes := rfl
@[simp] theorem State.setStation_msgs (s : State) (c : Nat) (k : Station) : (s.setStation c k).msgs = s.msgs := rfl
@[simp] theorem State.setStation_fallout (s : State) (c : Nat) (k : Station) : (s.setStation c k).fallout = s.fallout := rfl
@[simp] theorem State.setStation_mem (s : State) (c : Nat) (k : Station) : (s.setStation c k).mem = s.mem := rfl
@[simp] theorem State.setStation_feEmpty (s : State) (c : Nat) (k : Station) : (s.setStation c k).feEmpty = s.feEmpty := rfl
@[simp] theorem State.setStation_tags (s : State) (c : Nat) (k : Station) : (s.setStation c k).tags = s.tags := rfl
@[simp] theorem State.setStation_poison (s : State) (c : Nat) (k : Station) : (s.setStation c k).poison = s.poison := rfl
@[simp] theorem State.setStation_owners (s : State) (c : Nat) (k : Station) : (s.setStation c k).owners = s.owners := rfl
@[simp] theorem State.setStation_dev (s : State) (c : Nat) (k : Station) : (s.setStation c k).dev = s.dev := rfl
@[simp] theorem State.setStation_gangs (s : State) (c : Nat) (k : Station) : (s.setStation c k).gangs = s.gangs := rfl
@[simp] theorem State.setStation_saved (s : State) (c : Nat) (k : Station) : (s.setStation c k).saved = s.saved := rfl
@[simp] theorem State.setStation_loaded (s : State) (c : Nat) (k : Station) : (s.setStation c k).loaded = s.loaded := rfl
@[simp] theorem State.setStation_out (s : State) (c : Nat) (k : Station) : (s.setStation c k).out = s.out := rfl
@[simp] theorem State.setStation_stalled (s : State) (c : Nat) (k : Station) : (s.setStation c k).stalled = s.stalled := rfl

@[simp] theorem State.modCore_steps (s : State) (c : Nat) (f : Core → Core) : (s.modCore c f).steps = s.steps := rfl
@[simp] theorem State.modCore_cycle (s : State) (c : Nat) (f : Core → Core) : (s.modCore c f).cycle = s.cycle := rfl
@[simp] theorem State.modCore_agenda (s : State) (c : Nat) (f : Core → Core) : (s.modCore c f).agenda = s.agenda := rfl
@[simp] theorem State.modCore_cur (s : State) (c : Nat) (f : Core → Core) : (s.modCore c f).cur = s.cur := rfl
@[simp] theorem State.modCore_issuing (s : State) (c : Nat) (f : Core → Core) : (s.modCore c f).issuing = s.issuing := rfl
@[simp] theorem State.modCore_unit (s : State) (c : Nat) (f : Core → Core) : (s.modCore c f).unit = s.unit := rfl
@[simp] theorem State.modCore_draws (s : State) (c : Nat) (f : Core → Core) : (s.modCore c f).draws = s.draws := rfl
@[simp] theorem State.modCore_nextId (s : State) (c : Nat) (f : Core → Core) : (s.modCore c f).nextId = s.nextId := rfl
@[simp] theorem State.modCore_threads (s : State) (c : Nat) (f : Core → Core) : (s.modCore c f).threads = s.threads := rfl
@[simp] theorem State.modCore_homes (s : State) (c : Nat) (f : Core → Core) : (s.modCore c f).homes = s.homes := rfl
@[simp] theorem State.modCore_stations (s : State) (c : Nat) (f : Core → Core) : (s.modCore c f).stations = s.stations := rfl
@[simp] theorem State.modCore_msgs (s : State) (c : Nat) (f : Core → Core) : (s.modCore c f).msgs = s.msgs := rfl
@[simp] theorem State.modCore_fallout (s : State) (c : Nat) (f : Core → Core) : (s.modCore c f).fallout = s.fallout := rfl
@[simp] theorem State.modCore_mem (s : State) (c : Nat) (f : Core → Core) : (s.modCore c f).mem = s.mem := rfl
@[simp] theorem State.modCore_feEmpty (s : State) (c : Nat) (f : Core → Core) : (s.modCore c f).feEmpty = s.feEmpty := rfl
@[simp] theorem State.modCore_tags (s : State) (c : Nat) (f : Core → Core) : (s.modCore c f).tags = s.tags := rfl
@[simp] theorem State.modCore_poison (s : State) (c : Nat) (f : Core → Core) : (s.modCore c f).poison = s.poison := rfl
@[simp] theorem State.modCore_owners (s : State) (c : Nat) (f : Core → Core) : (s.modCore c f).owners = s.owners := rfl
@[simp] theorem State.modCore_dev (s : State) (c : Nat) (f : Core → Core) : (s.modCore c f).dev = s.dev := rfl
@[simp] theorem State.modCore_gangs (s : State) (c : Nat) (f : Core → Core) : (s.modCore c f).gangs = s.gangs := rfl
@[simp] theorem State.modCore_saved (s : State) (c : Nat) (f : Core → Core) : (s.modCore c f).saved = s.saved := rfl
@[simp] theorem State.modCore_loaded (s : State) (c : Nat) (f : Core → Core) : (s.modCore c f).loaded = s.loaded := rfl
@[simp] theorem State.modCore_out (s : State) (c : Nat) (f : Core → Core) : (s.modCore c f).out = s.out := rfl
@[simp] theorem State.modCore_stalled (s : State) (c : Nat) (f : Core → Core) : (s.modCore c f).stalled = s.stalled := rfl

@[simp] theorem State.modHome_steps (s : State) (h : Nat) (f : Home → Home) : (s.modHome h f).steps = s.steps := rfl
@[simp] theorem State.modHome_cycle (s : State) (h : Nat) (f : Home → Home) : (s.modHome h f).cycle = s.cycle := rfl
@[simp] theorem State.modHome_agenda (s : State) (h : Nat) (f : Home → Home) : (s.modHome h f).agenda = s.agenda := rfl
@[simp] theorem State.modHome_cur (s : State) (h : Nat) (f : Home → Home) : (s.modHome h f).cur = s.cur := rfl
@[simp] theorem State.modHome_issuing (s : State) (h : Nat) (f : Home → Home) : (s.modHome h f).issuing = s.issuing := rfl
@[simp] theorem State.modHome_unit (s : State) (h : Nat) (f : Home → Home) : (s.modHome h f).unit = s.unit := rfl
@[simp] theorem State.modHome_draws (s : State) (h : Nat) (f : Home → Home) : (s.modHome h f).draws = s.draws := rfl
@[simp] theorem State.modHome_nextId (s : State) (h : Nat) (f : Home → Home) : (s.modHome h f).nextId = s.nextId := rfl
@[simp] theorem State.modHome_threads (s : State) (h : Nat) (f : Home → Home) : (s.modHome h f).threads = s.threads := rfl
@[simp] theorem State.modHome_cores (s : State) (h : Nat) (f : Home → Home) : (s.modHome h f).cores = s.cores := rfl
@[simp] theorem State.modHome_stations (s : State) (h : Nat) (f : Home → Home) : (s.modHome h f).stations = s.stations := rfl
@[simp] theorem State.modHome_msgs (s : State) (h : Nat) (f : Home → Home) : (s.modHome h f).msgs = s.msgs := rfl
@[simp] theorem State.modHome_fallout (s : State) (h : Nat) (f : Home → Home) : (s.modHome h f).fallout = s.fallout := rfl
@[simp] theorem State.modHome_mem (s : State) (h : Nat) (f : Home → Home) : (s.modHome h f).mem = s.mem := rfl
@[simp] theorem State.modHome_feEmpty (s : State) (h : Nat) (f : Home → Home) : (s.modHome h f).feEmpty = s.feEmpty := rfl
@[simp] theorem State.modHome_tags (s : State) (h : Nat) (f : Home → Home) : (s.modHome h f).tags = s.tags := rfl
@[simp] theorem State.modHome_poison (s : State) (h : Nat) (f : Home → Home) : (s.modHome h f).poison = s.poison := rfl
@[simp] theorem State.modHome_owners (s : State) (h : Nat) (f : Home → Home) : (s.modHome h f).owners = s.owners := rfl
@[simp] theorem State.modHome_dev (s : State) (h : Nat) (f : Home → Home) : (s.modHome h f).dev = s.dev := rfl
@[simp] theorem State.modHome_gangs (s : State) (h : Nat) (f : Home → Home) : (s.modHome h f).gangs = s.gangs := rfl
@[simp] theorem State.modHome_saved (s : State) (h : Nat) (f : Home → Home) : (s.modHome h f).saved = s.saved := rfl
@[simp] theorem State.modHome_loaded (s : State) (h : Nat) (f : Home → Home) : (s.modHome h f).loaded = s.loaded := rfl
@[simp] theorem State.modHome_out (s : State) (h : Nat) (f : Home → Home) : (s.modHome h f).out = s.out := rfl
@[simp] theorem State.modHome_stalled (s : State) (h : Nat) (f : Home → Home) : (s.modHome h f).stalled = s.stalled := rfl

@[simp] theorem State.modStation_steps (s : State) (c : Nat) (f : Station → Station) : (s.modStation c f).steps = s.steps := rfl
@[simp] theorem State.modStation_cycle (s : State) (c : Nat) (f : Station → Station) : (s.modStation c f).cycle = s.cycle := rfl
@[simp] theorem State.modStation_agenda (s : State) (c : Nat) (f : Station → Station) : (s.modStation c f).agenda = s.agenda := rfl
@[simp] theorem State.modStation_cur (s : State) (c : Nat) (f : Station → Station) : (s.modStation c f).cur = s.cur := rfl
@[simp] theorem State.modStation_issuing (s : State) (c : Nat) (f : Station → Station) : (s.modStation c f).issuing = s.issuing := rfl
@[simp] theorem State.modStation_unit (s : State) (c : Nat) (f : Station → Station) : (s.modStation c f).unit = s.unit := rfl
@[simp] theorem State.modStation_draws (s : State) (c : Nat) (f : Station → Station) : (s.modStation c f).draws = s.draws := rfl
@[simp] theorem State.modStation_nextId (s : State) (c : Nat) (f : Station → Station) : (s.modStation c f).nextId = s.nextId := rfl
@[simp] theorem State.modStation_threads (s : State) (c : Nat) (f : Station → Station) : (s.modStation c f).threads = s.threads := rfl
@[simp] theorem State.modStation_cores (s : State) (c : Nat) (f : Station → Station) : (s.modStation c f).cores = s.cores := rfl
@[simp] theorem State.modStation_homes (s : State) (c : Nat) (f : Station → Station) : (s.modStation c f).homes = s.homes := rfl
@[simp] theorem State.modStation_msgs (s : State) (c : Nat) (f : Station → Station) : (s.modStation c f).msgs = s.msgs := rfl
@[simp] theorem State.modStation_fallout (s : State) (c : Nat) (f : Station → Station) : (s.modStation c f).fallout = s.fallout := rfl
@[simp] theorem State.modStation_mem (s : State) (c : Nat) (f : Station → Station) : (s.modStation c f).mem = s.mem := rfl
@[simp] theorem State.modStation_feEmpty (s : State) (c : Nat) (f : Station → Station) : (s.modStation c f).feEmpty = s.feEmpty := rfl
@[simp] theorem State.modStation_tags (s : State) (c : Nat) (f : Station → Station) : (s.modStation c f).tags = s.tags := rfl
@[simp] theorem State.modStation_poison (s : State) (c : Nat) (f : Station → Station) : (s.modStation c f).poison = s.poison := rfl
@[simp] theorem State.modStation_owners (s : State) (c : Nat) (f : Station → Station) : (s.modStation c f).owners = s.owners := rfl
@[simp] theorem State.modStation_dev (s : State) (c : Nat) (f : Station → Station) : (s.modStation c f).dev = s.dev := rfl
@[simp] theorem State.modStation_gangs (s : State) (c : Nat) (f : Station → Station) : (s.modStation c f).gangs = s.gangs := rfl
@[simp] theorem State.modStation_saved (s : State) (c : Nat) (f : Station → Station) : (s.modStation c f).saved = s.saved := rfl
@[simp] theorem State.modStation_loaded (s : State) (c : Nat) (f : Station → Station) : (s.modStation c f).loaded = s.loaded := rfl
@[simp] theorem State.modStation_out (s : State) (c : Nat) (f : Station → Station) : (s.modStation c f).out = s.out := rfl
@[simp] theorem State.modStation_stalled (s : State) (c : Nat) (f : Station → Station) : (s.modStation c f).stalled = s.stalled := rfl

@[simp] theorem State.modDev_steps (s : State) (f : Device → Device) : (s.modDev f).steps = s.steps := rfl
@[simp] theorem State.modDev_cycle (s : State) (f : Device → Device) : (s.modDev f).cycle = s.cycle := rfl
@[simp] theorem State.modDev_agenda (s : State) (f : Device → Device) : (s.modDev f).agenda = s.agenda := rfl
@[simp] theorem State.modDev_cur (s : State) (f : Device → Device) : (s.modDev f).cur = s.cur := rfl
@[simp] theorem State.modDev_issuing (s : State) (f : Device → Device) : (s.modDev f).issuing = s.issuing := rfl
@[simp] theorem State.modDev_unit (s : State) (f : Device → Device) : (s.modDev f).unit = s.unit := rfl
@[simp] theorem State.modDev_draws (s : State) (f : Device → Device) : (s.modDev f).draws = s.draws := rfl
@[simp] theorem State.modDev_nextId (s : State) (f : Device → Device) : (s.modDev f).nextId = s.nextId := rfl
@[simp] theorem State.modDev_threads (s : State) (f : Device → Device) : (s.modDev f).threads = s.threads := rfl
@[simp] theorem State.modDev_cores (s : State) (f : Device → Device) : (s.modDev f).cores = s.cores := rfl
@[simp] theorem State.modDev_homes (s : State) (f : Device → Device) : (s.modDev f).homes = s.homes := rfl
@[simp] theorem State.modDev_stations (s : State) (f : Device → Device) : (s.modDev f).stations = s.stations := rfl
@[simp] theorem State.modDev_msgs (s : State) (f : Device → Device) : (s.modDev f).msgs = s.msgs := rfl
@[simp] theorem State.modDev_fallout (s : State) (f : Device → Device) : (s.modDev f).fallout = s.fallout := rfl
@[simp] theorem State.modDev_mem (s : State) (f : Device → Device) : (s.modDev f).mem = s.mem := rfl
@[simp] theorem State.modDev_feEmpty (s : State) (f : Device → Device) : (s.modDev f).feEmpty = s.feEmpty := rfl
@[simp] theorem State.modDev_tags (s : State) (f : Device → Device) : (s.modDev f).tags = s.tags := rfl
@[simp] theorem State.modDev_poison (s : State) (f : Device → Device) : (s.modDev f).poison = s.poison := rfl
@[simp] theorem State.modDev_owners (s : State) (f : Device → Device) : (s.modDev f).owners = s.owners := rfl
@[simp] theorem State.modDev_gangs (s : State) (f : Device → Device) : (s.modDev f).gangs = s.gangs := rfl
@[simp] theorem State.modDev_saved (s : State) (f : Device → Device) : (s.modDev f).saved = s.saved := rfl
@[simp] theorem State.modDev_loaded (s : State) (f : Device → Device) : (s.modDev f).loaded = s.loaded := rfl
@[simp] theorem State.modDev_out (s : State) (f : Device → Device) : (s.modDev f).out = s.out := rfl
@[simp] theorem State.modDev_stalled (s : State) (f : Device → Device) : (s.modDev f).stalled = s.stalled := rfl

@[simp] theorem State.emit_steps (s : State) (o : Output) : (s.emit o).steps = s.steps := rfl
@[simp] theorem State.emit_cycle (s : State) (o : Output) : (s.emit o).cycle = s.cycle := rfl
@[simp] theorem State.emit_agenda (s : State) (o : Output) : (s.emit o).agenda = s.agenda := rfl
@[simp] theorem State.emit_cur (s : State) (o : Output) : (s.emit o).cur = s.cur := rfl
@[simp] theorem State.emit_issuing (s : State) (o : Output) : (s.emit o).issuing = s.issuing := rfl
@[simp] theorem State.emit_unit (s : State) (o : Output) : (s.emit o).unit = s.unit := rfl
@[simp] theorem State.emit_draws (s : State) (o : Output) : (s.emit o).draws = s.draws := rfl
@[simp] theorem State.emit_nextId (s : State) (o : Output) : (s.emit o).nextId = s.nextId := rfl
@[simp] theorem State.emit_threads (s : State) (o : Output) : (s.emit o).threads = s.threads := rfl
@[simp] theorem State.emit_cores (s : State) (o : Output) : (s.emit o).cores = s.cores := rfl
@[simp] theorem State.emit_homes (s : State) (o : Output) : (s.emit o).homes = s.homes := rfl
@[simp] theorem State.emit_stations (s : State) (o : Output) : (s.emit o).stations = s.stations := rfl
@[simp] theorem State.emit_msgs (s : State) (o : Output) : (s.emit o).msgs = s.msgs := rfl
@[simp] theorem State.emit_fallout (s : State) (o : Output) : (s.emit o).fallout = s.fallout := rfl
@[simp] theorem State.emit_mem (s : State) (o : Output) : (s.emit o).mem = s.mem := rfl
@[simp] theorem State.emit_feEmpty (s : State) (o : Output) : (s.emit o).feEmpty = s.feEmpty := rfl
@[simp] theorem State.emit_tags (s : State) (o : Output) : (s.emit o).tags = s.tags := rfl
@[simp] theorem State.emit_poison (s : State) (o : Output) : (s.emit o).poison = s.poison := rfl
@[simp] theorem State.emit_owners (s : State) (o : Output) : (s.emit o).owners = s.owners := rfl
@[simp] theorem State.emit_dev (s : State) (o : Output) : (s.emit o).dev = s.dev := rfl
@[simp] theorem State.emit_gangs (s : State) (o : Output) : (s.emit o).gangs = s.gangs := rfl
@[simp] theorem State.emit_saved (s : State) (o : Output) : (s.emit o).saved = s.saved := rfl
@[simp] theorem State.emit_loaded (s : State) (o : Output) : (s.emit o).loaded = s.loaded := rfl
@[simp] theorem State.emit_stalled (s : State) (o : Output) : (s.emit o).stalled = s.stalled := rfl

@[simp] theorem State.signal_steps (s : State) (v l : Nat) : (s.signal v l).steps = s.steps := by simp only [State.signal]; split <;> (try split) <;> rfl
@[simp] theorem State.signal_cycle (s : State) (v l : Nat) : (s.signal v l).cycle = s.cycle := by simp only [State.signal]; split <;> (try split) <;> rfl
@[simp] theorem State.signal_agenda (s : State) (v l : Nat) : (s.signal v l).agenda = s.agenda := by simp only [State.signal]; split <;> (try split) <;> rfl
@[simp] theorem State.signal_cur (s : State) (v l : Nat) : (s.signal v l).cur = s.cur := by simp only [State.signal]; split <;> (try split) <;> rfl
@[simp] theorem State.signal_issuing (s : State) (v l : Nat) : (s.signal v l).issuing = s.issuing := by simp only [State.signal]; split <;> (try split) <;> rfl
@[simp] theorem State.signal_unit (s : State) (v l : Nat) : (s.signal v l).unit = s.unit := by simp only [State.signal]; split <;> (try split) <;> rfl
@[simp] theorem State.signal_draws (s : State) (v l : Nat) : (s.signal v l).draws = s.draws := by simp only [State.signal]; split <;> (try split) <;> rfl
@[simp] theorem State.signal_nextId (s : State) (v l : Nat) : (s.signal v l).nextId = s.nextId := by simp only [State.signal]; split <;> (try split) <;> rfl
@[simp] theorem State.signal_threads (s : State) (v l : Nat) : (s.signal v l).threads = s.threads := by simp only [State.signal]; split <;> (try split) <;> rfl
@[simp] theorem State.signal_cores (s : State) (v l : Nat) : (s.signal v l).cores = s.cores := by simp only [State.signal]; split <;> (try split) <;> rfl
@[simp] theorem State.signal_homes (s : State) (v l : Nat) : (s.signal v l).homes = s.homes := by simp only [State.signal]; split <;> (try split) <;> rfl
@[simp] theorem State.signal_stations (s : State) (v l : Nat) : (s.signal v l).stations = s.stations := by simp only [State.signal]; split <;> (try split) <;> rfl
@[simp] theorem State.signal_msgs (s : State) (v l : Nat) : (s.signal v l).msgs = s.msgs := by simp only [State.signal]; split <;> (try split) <;> rfl
@[simp] theorem State.signal_fallout (s : State) (v l : Nat) : (s.signal v l).fallout = s.fallout := by simp only [State.signal]; split <;> (try split) <;> rfl
@[simp] theorem State.signal_mem (s : State) (v l : Nat) : (s.signal v l).mem = s.mem := by simp only [State.signal]; split <;> (try split) <;> rfl
@[simp] theorem State.signal_feEmpty (s : State) (v l : Nat) : (s.signal v l).feEmpty = s.feEmpty := by simp only [State.signal]; split <;> (try split) <;> rfl
@[simp] theorem State.signal_tags (s : State) (v l : Nat) : (s.signal v l).tags = s.tags := by simp only [State.signal]; split <;> (try split) <;> rfl
@[simp] theorem State.signal_poison (s : State) (v l : Nat) : (s.signal v l).poison = s.poison := by simp only [State.signal]; split <;> (try split) <;> rfl
@[simp] theorem State.signal_owners (s : State) (v l : Nat) : (s.signal v l).owners = s.owners := by simp only [State.signal]; split <;> (try split) <;> rfl
@[simp] theorem State.signal_gangs (s : State) (v l : Nat) : (s.signal v l).gangs = s.gangs := by simp only [State.signal]; split <;> (try split) <;> rfl
@[simp] theorem State.signal_saved (s : State) (v l : Nat) : (s.signal v l).saved = s.saved := by simp only [State.signal]; split <;> (try split) <;> rfl
@[simp] theorem State.signal_loaded (s : State) (v l : Nat) : (s.signal v l).loaded = s.loaded := by simp only [State.signal]; split <;> (try split) <;> rfl
@[simp] theorem State.signal_stalled (s : State) (v l : Nat) : (s.signal v l).stalled = s.stalled := by simp only [State.signal]; split <;> (try split) <;> rfl

@[simp] theorem State.dropMsg_steps (s : State) (id : Nat) : (s.dropMsg id).steps = s.steps := rfl
@[simp] theorem State.dropMsg_cycle (s : State) (id : Nat) : (s.dropMsg id).cycle = s.cycle := rfl
@[simp] theorem State.dropMsg_agenda (s : State) (id : Nat) : (s.dropMsg id).agenda = s.agenda := rfl
@[simp] theorem State.dropMsg_cur (s : State) (id : Nat) : (s.dropMsg id).cur = s.cur := rfl
@[simp] theorem State.dropMsg_issuing (s : State) (id : Nat) : (s.dropMsg id).issuing = s.issuing := rfl
@[simp] theorem State.dropMsg_unit (s : State) (id : Nat) : (s.dropMsg id).unit = s.unit := rfl
@[simp] theorem State.dropMsg_draws (s : State) (id : Nat) : (s.dropMsg id).draws = s.draws := rfl
@[simp] theorem State.dropMsg_nextId (s : State) (id : Nat) : (s.dropMsg id).nextId = s.nextId := rfl
@[simp] theorem State.dropMsg_threads (s : State) (id : Nat) : (s.dropMsg id).threads = s.threads := rfl
@[simp] theorem State.dropMsg_cores (s : State) (id : Nat) : (s.dropMsg id).cores = s.cores := rfl
@[simp] theorem State.dropMsg_homes (s : State) (id : Nat) : (s.dropMsg id).homes = s.homes := rfl
@[simp] theorem State.dropMsg_stations (s : State) (id : Nat) : (s.dropMsg id).stations = s.stations := rfl
@[simp] theorem State.dropMsg_fallout (s : State) (id : Nat) : (s.dropMsg id).fallout = s.fallout := rfl
@[simp] theorem State.dropMsg_mem (s : State) (id : Nat) : (s.dropMsg id).mem = s.mem := rfl
@[simp] theorem State.dropMsg_feEmpty (s : State) (id : Nat) : (s.dropMsg id).feEmpty = s.feEmpty := rfl
@[simp] theorem State.dropMsg_tags (s : State) (id : Nat) : (s.dropMsg id).tags = s.tags := rfl
@[simp] theorem State.dropMsg_poison (s : State) (id : Nat) : (s.dropMsg id).poison = s.poison := rfl
@[simp] theorem State.dropMsg_owners (s : State) (id : Nat) : (s.dropMsg id).owners = s.owners := rfl
@[simp] theorem State.dropMsg_dev (s : State) (id : Nat) : (s.dropMsg id).dev = s.dev := rfl
@[simp] theorem State.dropMsg_gangs (s : State) (id : Nat) : (s.dropMsg id).gangs = s.gangs := rfl
@[simp] theorem State.dropMsg_saved (s : State) (id : Nat) : (s.dropMsg id).saved = s.saved := rfl
@[simp] theorem State.dropMsg_loaded (s : State) (id : Nat) : (s.dropMsg id).loaded = s.loaded := rfl
@[simp] theorem State.dropMsg_out (s : State) (id : Nat) : (s.dropMsg id).out = s.out := rfl
@[simp] theorem State.dropMsg_stalled (s : State) (id : Nat) : (s.dropMsg id).stalled = s.stalled := rfl

@[simp] theorem State.send_steps (s : State) (src dst : Place) (w : Owner) (p : Payload) : (s.send src dst w p).steps = s.steps := rfl
@[simp] theorem State.send_cycle (s : State) (src dst : Place) (w : Owner) (p : Payload) : (s.send src dst w p).cycle = s.cycle := rfl
@[simp] theorem State.send_agenda (s : State) (src dst : Place) (w : Owner) (p : Payload) : (s.send src dst w p).agenda = s.agenda := rfl
@[simp] theorem State.send_cur (s : State) (src dst : Place) (w : Owner) (p : Payload) : (s.send src dst w p).cur = s.cur := rfl
@[simp] theorem State.send_issuing (s : State) (src dst : Place) (w : Owner) (p : Payload) : (s.send src dst w p).issuing = s.issuing := rfl
@[simp] theorem State.send_unit (s : State) (src dst : Place) (w : Owner) (p : Payload) : (s.send src dst w p).unit = s.unit := rfl
@[simp] theorem State.send_draws (s : State) (src dst : Place) (w : Owner) (p : Payload) : (s.send src dst w p).draws = s.draws := rfl
@[simp] theorem State.send_threads (s : State) (src dst : Place) (w : Owner) (p : Payload) : (s.send src dst w p).threads = s.threads := rfl
@[simp] theorem State.send_cores (s : State) (src dst : Place) (w : Owner) (p : Payload) : (s.send src dst w p).cores = s.cores := rfl
@[simp] theorem State.send_homes (s : State) (src dst : Place) (w : Owner) (p : Payload) : (s.send src dst w p).homes = s.homes := rfl
@[simp] theorem State.send_stations (s : State) (src dst : Place) (w : Owner) (p : Payload) : (s.send src dst w p).stations = s.stations := rfl
@[simp] theorem State.send_fallout (s : State) (src dst : Place) (w : Owner) (p : Payload) : (s.send src dst w p).fallout = s.fallout := rfl
@[simp] theorem State.send_mem (s : State) (src dst : Place) (w : Owner) (p : Payload) : (s.send src dst w p).mem = s.mem := rfl
@[simp] theorem State.send_feEmpty (s : State) (src dst : Place) (w : Owner) (p : Payload) : (s.send src dst w p).feEmpty = s.feEmpty := rfl
@[simp] theorem State.send_tags (s : State) (src dst : Place) (w : Owner) (p : Payload) : (s.send src dst w p).tags = s.tags := rfl
@[simp] theorem State.send_poison (s : State) (src dst : Place) (w : Owner) (p : Payload) : (s.send src dst w p).poison = s.poison := rfl
@[simp] theorem State.send_owners (s : State) (src dst : Place) (w : Owner) (p : Payload) : (s.send src dst w p).owners = s.owners := rfl
@[simp] theorem State.send_dev (s : State) (src dst : Place) (w : Owner) (p : Payload) : (s.send src dst w p).dev = s.dev := rfl
@[simp] theorem State.send_gangs (s : State) (src dst : Place) (w : Owner) (p : Payload) : (s.send src dst w p).gangs = s.gangs := rfl
@[simp] theorem State.send_saved (s : State) (src dst : Place) (w : Owner) (p : Payload) : (s.send src dst w p).saved = s.saved := rfl
@[simp] theorem State.send_loaded (s : State) (src dst : Place) (w : Owner) (p : Payload) : (s.send src dst w p).loaded = s.loaded := rfl
@[simp] theorem State.send_out (s : State) (src dst : Place) (w : Owner) (p : Payload) : (s.send src dst w p).out = s.out := rfl
@[simp] theorem State.send_stalled (s : State) (src dst : Place) (w : Owner) (p : Payload) : (s.send src dst w p).stalled = s.stalled := rfl

@[simp] theorem State.sendIn_steps (s : State) (part : Nat) (src dst : Place) (w : Owner) (p : Payload) : (s.sendIn part src dst w p).steps = s.steps := rfl
@[simp] theorem State.sendIn_cycle (s : State) (part : Nat) (src dst : Place) (w : Owner) (p : Payload) : (s.sendIn part src dst w p).cycle = s.cycle := rfl
@[simp] theorem State.sendIn_agenda (s : State) (part : Nat) (src dst : Place) (w : Owner) (p : Payload) : (s.sendIn part src dst w p).agenda = s.agenda := rfl
@[simp] theorem State.sendIn_cur (s : State) (part : Nat) (src dst : Place) (w : Owner) (p : Payload) : (s.sendIn part src dst w p).cur = s.cur := rfl
@[simp] theorem State.sendIn_issuing (s : State) (part : Nat) (src dst : Place) (w : Owner) (p : Payload) : (s.sendIn part src dst w p).issuing = s.issuing := rfl
@[simp] theorem State.sendIn_unit (s : State) (part : Nat) (src dst : Place) (w : Owner) (p : Payload) : (s.sendIn part src dst w p).unit = s.unit := rfl
@[simp] theorem State.sendIn_draws (s : State) (part : Nat) (src dst : Place) (w : Owner) (p : Payload) : (s.sendIn part src dst w p).draws = s.draws := rfl
@[simp] theorem State.sendIn_threads (s : State) (part : Nat) (src dst : Place) (w : Owner) (p : Payload) : (s.sendIn part src dst w p).threads = s.threads := rfl
@[simp] theorem State.sendIn_cores (s : State) (part : Nat) (src dst : Place) (w : Owner) (p : Payload) : (s.sendIn part src dst w p).cores = s.cores := rfl
@[simp] theorem State.sendIn_homes (s : State) (part : Nat) (src dst : Place) (w : Owner) (p : Payload) : (s.sendIn part src dst w p).homes = s.homes := rfl
@[simp] theorem State.sendIn_stations (s : State) (part : Nat) (src dst : Place) (w : Owner) (p : Payload) : (s.sendIn part src dst w p).stations = s.stations := rfl
@[simp] theorem State.sendIn_fallout (s : State) (part : Nat) (src dst : Place) (w : Owner) (p : Payload) : (s.sendIn part src dst w p).fallout = s.fallout := rfl
@[simp] theorem State.sendIn_mem (s : State) (part : Nat) (src dst : Place) (w : Owner) (p : Payload) : (s.sendIn part src dst w p).mem = s.mem := rfl
@[simp] theorem State.sendIn_feEmpty (s : State) (part : Nat) (src dst : Place) (w : Owner) (p : Payload) : (s.sendIn part src dst w p).feEmpty = s.feEmpty := rfl
@[simp] theorem State.sendIn_tags (s : State) (part : Nat) (src dst : Place) (w : Owner) (p : Payload) : (s.sendIn part src dst w p).tags = s.tags := rfl
@[simp] theorem State.sendIn_poison (s : State) (part : Nat) (src dst : Place) (w : Owner) (p : Payload) : (s.sendIn part src dst w p).poison = s.poison := rfl
@[simp] theorem State.sendIn_owners (s : State) (part : Nat) (src dst : Place) (w : Owner) (p : Payload) : (s.sendIn part src dst w p).owners = s.owners := rfl
@[simp] theorem State.sendIn_dev (s : State) (part : Nat) (src dst : Place) (w : Owner) (p : Payload) : (s.sendIn part src dst w p).dev = s.dev := rfl
@[simp] theorem State.sendIn_gangs (s : State) (part : Nat) (src dst : Place) (w : Owner) (p : Payload) : (s.sendIn part src dst w p).gangs = s.gangs := rfl
@[simp] theorem State.sendIn_saved (s : State) (part : Nat) (src dst : Place) (w : Owner) (p : Payload) : (s.sendIn part src dst w p).saved = s.saved := rfl
@[simp] theorem State.sendIn_loaded (s : State) (part : Nat) (src dst : Place) (w : Owner) (p : Payload) : (s.sendIn part src dst w p).loaded = s.loaded := rfl
@[simp] theorem State.sendIn_out (s : State) (part : Nat) (src dst : Place) (w : Owner) (p : Payload) : (s.sendIn part src dst w p).out = s.out := rfl
@[simp] theorem State.sendIn_stalled (s : State) (part : Nat) (src dst : Place) (w : Owner) (p : Payload) : (s.sendIn part src dst w p).stalled = s.stalled := rfl

@[simp] theorem State.store_steps (s : State) (a n v : Nat) : (s.store a n v).steps = s.steps := rfl
@[simp] theorem State.store_cycle (s : State) (a n v : Nat) : (s.store a n v).cycle = s.cycle := rfl
@[simp] theorem State.store_agenda (s : State) (a n v : Nat) : (s.store a n v).agenda = s.agenda := rfl
@[simp] theorem State.store_cur (s : State) (a n v : Nat) : (s.store a n v).cur = s.cur := rfl
@[simp] theorem State.store_issuing (s : State) (a n v : Nat) : (s.store a n v).issuing = s.issuing := rfl
@[simp] theorem State.store_unit (s : State) (a n v : Nat) : (s.store a n v).unit = s.unit := rfl
@[simp] theorem State.store_draws (s : State) (a n v : Nat) : (s.store a n v).draws = s.draws := rfl
@[simp] theorem State.store_nextId (s : State) (a n v : Nat) : (s.store a n v).nextId = s.nextId := rfl
@[simp] theorem State.store_threads (s : State) (a n v : Nat) : (s.store a n v).threads = s.threads := rfl
@[simp] theorem State.store_cores (s : State) (a n v : Nat) : (s.store a n v).cores = s.cores := rfl
@[simp] theorem State.store_homes (s : State) (a n v : Nat) : (s.store a n v).homes = s.homes := rfl
@[simp] theorem State.store_stations (s : State) (a n v : Nat) : (s.store a n v).stations = s.stations := rfl
@[simp] theorem State.store_msgs (s : State) (a n v : Nat) : (s.store a n v).msgs = s.msgs := rfl
@[simp] theorem State.store_fallout (s : State) (a n v : Nat) : (s.store a n v).fallout = s.fallout := rfl
@[simp] theorem State.store_feEmpty (s : State) (a n v : Nat) : (s.store a n v).feEmpty = s.feEmpty := rfl
@[simp] theorem State.store_poison (s : State) (a n v : Nat) : (s.store a n v).poison = s.poison := rfl
@[simp] theorem State.store_owners (s : State) (a n v : Nat) : (s.store a n v).owners = s.owners := rfl
@[simp] theorem State.store_dev (s : State) (a n v : Nat) : (s.store a n v).dev = s.dev := rfl
@[simp] theorem State.store_gangs (s : State) (a n v : Nat) : (s.store a n v).gangs = s.gangs := rfl
@[simp] theorem State.store_saved (s : State) (a n v : Nat) : (s.store a n v).saved = s.saved := rfl
@[simp] theorem State.store_loaded (s : State) (a n v : Nat) : (s.store a n v).loaded = s.loaded := rfl
@[simp] theorem State.store_out (s : State) (a n v : Nat) : (s.store a n v).out = s.out := rfl
@[simp] theorem State.store_stalled (s : State) (a n v : Nat) : (s.store a n v).stalled = s.stalled := rfl

@[simp] theorem State.zeroRange_steps (s : State) (a n : Nat) : (s.zeroRange a n).steps = s.steps := rfl
@[simp] theorem State.zeroRange_cycle (s : State) (a n : Nat) : (s.zeroRange a n).cycle = s.cycle := rfl
@[simp] theorem State.zeroRange_agenda (s : State) (a n : Nat) : (s.zeroRange a n).agenda = s.agenda := rfl
@[simp] theorem State.zeroRange_cur (s : State) (a n : Nat) : (s.zeroRange a n).cur = s.cur := rfl
@[simp] theorem State.zeroRange_issuing (s : State) (a n : Nat) : (s.zeroRange a n).issuing = s.issuing := rfl
@[simp] theorem State.zeroRange_unit (s : State) (a n : Nat) : (s.zeroRange a n).unit = s.unit := rfl
@[simp] theorem State.zeroRange_draws (s : State) (a n : Nat) : (s.zeroRange a n).draws = s.draws := rfl
@[simp] theorem State.zeroRange_nextId (s : State) (a n : Nat) : (s.zeroRange a n).nextId = s.nextId := rfl
@[simp] theorem State.zeroRange_threads (s : State) (a n : Nat) : (s.zeroRange a n).threads = s.threads := rfl
@[simp] theorem State.zeroRange_cores (s : State) (a n : Nat) : (s.zeroRange a n).cores = s.cores := rfl
@[simp] theorem State.zeroRange_homes (s : State) (a n : Nat) : (s.zeroRange a n).homes = s.homes := rfl
@[simp] theorem State.zeroRange_stations (s : State) (a n : Nat) : (s.zeroRange a n).stations = s.stations := rfl
@[simp] theorem State.zeroRange_msgs (s : State) (a n : Nat) : (s.zeroRange a n).msgs = s.msgs := rfl
@[simp] theorem State.zeroRange_fallout (s : State) (a n : Nat) : (s.zeroRange a n).fallout = s.fallout := rfl
@[simp] theorem State.zeroRange_dev (s : State) (a n : Nat) : (s.zeroRange a n).dev = s.dev := rfl
@[simp] theorem State.zeroRange_gangs (s : State) (a n : Nat) : (s.zeroRange a n).gangs = s.gangs := rfl
@[simp] theorem State.zeroRange_saved (s : State) (a n : Nat) : (s.zeroRange a n).saved = s.saved := rfl
@[simp] theorem State.zeroRange_loaded (s : State) (a n : Nat) : (s.zeroRange a n).loaded = s.loaded := rfl
@[simp] theorem State.zeroRange_out (s : State) (a n : Nat) : (s.zeroRange a n).out = s.out := rfl
@[simp] theorem State.zeroRange_stalled (s : State) (a n : Nat) : (s.zeroRange a n).stalled = s.stalled := rfl

@[simp] theorem State.countCore_steps (s : State) (c k n : Nat) : (s.countCore c k n).steps = s.steps := rfl
@[simp] theorem State.countCore_cycle (s : State) (c k n : Nat) : (s.countCore c k n).cycle = s.cycle := rfl
@[simp] theorem State.countCore_agenda (s : State) (c k n : Nat) : (s.countCore c k n).agenda = s.agenda := rfl
@[simp] theorem State.countCore_cur (s : State) (c k n : Nat) : (s.countCore c k n).cur = s.cur := rfl
@[simp] theorem State.countCore_issuing (s : State) (c k n : Nat) : (s.countCore c k n).issuing = s.issuing := rfl
@[simp] theorem State.countCore_unit (s : State) (c k n : Nat) : (s.countCore c k n).unit = s.unit := rfl
@[simp] theorem State.countCore_draws (s : State) (c k n : Nat) : (s.countCore c k n).draws = s.draws := rfl
@[simp] theorem State.countCore_nextId (s : State) (c k n : Nat) : (s.countCore c k n).nextId = s.nextId := rfl
@[simp] theorem State.countCore_threads (s : State) (c k n : Nat) : (s.countCore c k n).threads = s.threads := rfl
@[simp] theorem State.countCore_homes (s : State) (c k n : Nat) : (s.countCore c k n).homes = s.homes := rfl
@[simp] theorem State.countCore_stations (s : State) (c k n : Nat) : (s.countCore c k n).stations = s.stations := rfl
@[simp] theorem State.countCore_msgs (s : State) (c k n : Nat) : (s.countCore c k n).msgs = s.msgs := rfl
@[simp] theorem State.countCore_fallout (s : State) (c k n : Nat) : (s.countCore c k n).fallout = s.fallout := rfl
@[simp] theorem State.countCore_mem (s : State) (c k n : Nat) : (s.countCore c k n).mem = s.mem := rfl
@[simp] theorem State.countCore_feEmpty (s : State) (c k n : Nat) : (s.countCore c k n).feEmpty = s.feEmpty := rfl
@[simp] theorem State.countCore_tags (s : State) (c k n : Nat) : (s.countCore c k n).tags = s.tags := rfl
@[simp] theorem State.countCore_poison (s : State) (c k n : Nat) : (s.countCore c k n).poison = s.poison := rfl
@[simp] theorem State.countCore_owners (s : State) (c k n : Nat) : (s.countCore c k n).owners = s.owners := rfl
@[simp] theorem State.countCore_dev (s : State) (c k n : Nat) : (s.countCore c k n).dev = s.dev := rfl
@[simp] theorem State.countCore_gangs (s : State) (c k n : Nat) : (s.countCore c k n).gangs = s.gangs := rfl
@[simp] theorem State.countCore_saved (s : State) (c k n : Nat) : (s.countCore c k n).saved = s.saved := rfl
@[simp] theorem State.countCore_loaded (s : State) (c k n : Nat) : (s.countCore c k n).loaded = s.loaded := rfl
@[simp] theorem State.countCore_out (s : State) (c k n : Nat) : (s.countCore c k n).out = s.out := rfl
@[simp] theorem State.countCore_stalled (s : State) (c k n : Nat) : (s.countCore c k n).stalled = s.stalled := rfl

@[simp] theorem State.countHome_steps (s : State) (h k n : Nat) : (s.countHome h k n).steps = s.steps := rfl
@[simp] theorem State.countHome_cycle (s : State) (h k n : Nat) : (s.countHome h k n).cycle = s.cycle := rfl
@[simp] theorem State.countHome_agenda (s : State) (h k n : Nat) : (s.countHome h k n).agenda = s.agenda := rfl
@[simp] theorem State.countHome_cur (s : State) (h k n : Nat) : (s.countHome h k n).cur = s.cur := rfl
@[simp] theorem State.countHome_issuing (s : State) (h k n : Nat) : (s.countHome h k n).issuing = s.issuing := rfl
@[simp] theorem State.countHome_unit (s : State) (h k n : Nat) : (s.countHome h k n).unit = s.unit := rfl
@[simp] theorem State.countHome_draws (s : State) (h k n : Nat) : (s.countHome h k n).draws = s.draws := rfl
@[simp] theorem State.countHome_nextId (s : State) (h k n : Nat) : (s.countHome h k n).nextId = s.nextId := rfl
@[simp] theorem State.countHome_threads (s : State) (h k n : Nat) : (s.countHome h k n).threads = s.threads := rfl
@[simp] theorem State.countHome_cores (s : State) (h k n : Nat) : (s.countHome h k n).cores = s.cores := rfl
@[simp] theorem State.countHome_stations (s : State) (h k n : Nat) : (s.countHome h k n).stations = s.stations := rfl
@[simp] theorem State.countHome_msgs (s : State) (h k n : Nat) : (s.countHome h k n).msgs = s.msgs := rfl
@[simp] theorem State.countHome_fallout (s : State) (h k n : Nat) : (s.countHome h k n).fallout = s.fallout := rfl
@[simp] theorem State.countHome_mem (s : State) (h k n : Nat) : (s.countHome h k n).mem = s.mem := rfl
@[simp] theorem State.countHome_feEmpty (s : State) (h k n : Nat) : (s.countHome h k n).feEmpty = s.feEmpty := rfl
@[simp] theorem State.countHome_tags (s : State) (h k n : Nat) : (s.countHome h k n).tags = s.tags := rfl
@[simp] theorem State.countHome_poison (s : State) (h k n : Nat) : (s.countHome h k n).poison = s.poison := rfl
@[simp] theorem State.countHome_owners (s : State) (h k n : Nat) : (s.countHome h k n).owners = s.owners := rfl
@[simp] theorem State.countHome_dev (s : State) (h k n : Nat) : (s.countHome h k n).dev = s.dev := rfl
@[simp] theorem State.countHome_gangs (s : State) (h k n : Nat) : (s.countHome h k n).gangs = s.gangs := rfl
@[simp] theorem State.countHome_saved (s : State) (h k n : Nat) : (s.countHome h k n).saved = s.saved := rfl
@[simp] theorem State.countHome_loaded (s : State) (h k n : Nat) : (s.countHome h k n).loaded = s.loaded := rfl
@[simp] theorem State.countHome_out (s : State) (h k n : Nat) : (s.countHome h k n).out = s.out := rfl
@[simp] theorem State.countHome_stalled (s : State) (h k n : Nat) : (s.countHome h k n).stalled = s.stalled := rfl

@[simp] theorem State.countStation_steps (s : State) (c k n : Nat) : (s.countStation c k n).steps = s.steps := rfl
@[simp] theorem State.countStation_cycle (s : State) (c k n : Nat) : (s.countStation c k n).cycle = s.cycle := rfl
@[simp] theorem State.countStation_agenda (s : State) (c k n : Nat) : (s.countStation c k n).agenda = s.agenda := rfl
@[simp] theorem State.countStation_cur (s : State) (c k n : Nat) : (s.countStation c k n).cur = s.cur := rfl
@[simp] theorem State.countStation_issuing (s : State) (c k n : Nat) : (s.countStation c k n).issuing = s.issuing := rfl
@[simp] theorem State.countStation_unit (s : State) (c k n : Nat) : (s.countStation c k n).unit = s.unit := rfl
@[simp] theorem State.countStation_draws (s : State) (c k n : Nat) : (s.countStation c k n).draws = s.draws := rfl
@[simp] theorem State.countStation_nextId (s : State) (c k n : Nat) : (s.countStation c k n).nextId = s.nextId := rfl
@[simp] theorem State.countStation_threads (s : State) (c k n : Nat) : (s.countStation c k n).threads = s.threads := rfl
@[simp] theorem State.countStation_cores (s : State) (c k n : Nat) : (s.countStation c k n).cores = s.cores := rfl
@[simp] theorem State.countStation_homes (s : State) (c k n : Nat) : (s.countStation c k n).homes = s.homes := rfl
@[simp] theorem State.countStation_msgs (s : State) (c k n : Nat) : (s.countStation c k n).msgs = s.msgs := rfl
@[simp] theorem State.countStation_fallout (s : State) (c k n : Nat) : (s.countStation c k n).fallout = s.fallout := rfl
@[simp] theorem State.countStation_mem (s : State) (c k n : Nat) : (s.countStation c k n).mem = s.mem := rfl
@[simp] theorem State.countStation_feEmpty (s : State) (c k n : Nat) : (s.countStation c k n).feEmpty = s.feEmpty := rfl
@[simp] theorem State.countStation_tags (s : State) (c k n : Nat) : (s.countStation c k n).tags = s.tags := rfl
@[simp] theorem State.countStation_poison (s : State) (c k n : Nat) : (s.countStation c k n).poison = s.poison := rfl
@[simp] theorem State.countStation_owners (s : State) (c k n : Nat) : (s.countStation c k n).owners = s.owners := rfl
@[simp] theorem State.countStation_dev (s : State) (c k n : Nat) : (s.countStation c k n).dev = s.dev := rfl
@[simp] theorem State.countStation_gangs (s : State) (c k n : Nat) : (s.countStation c k n).gangs = s.gangs := rfl
@[simp] theorem State.countStation_saved (s : State) (c k n : Nat) : (s.countStation c k n).saved = s.saved := rfl
@[simp] theorem State.countStation_loaded (s : State) (c k n : Nat) : (s.countStation c k n).loaded = s.loaded := rfl
@[simp] theorem State.countStation_out (s : State) (c k n : Nat) : (s.countStation c k n).out = s.out := rfl
@[simp] theorem State.countStation_stalled (s : State) (c k n : Nat) : (s.countStation c k n).stalled = s.stalled := rfl

@[simp] theorem State.modThread_steps (s : State) (t : Nat) (f : Thread → Thread) : (s.modThread t f).steps = s.steps := by unfold State.modThread; split <;> rfl
@[simp] theorem State.modThread_cycle (s : State) (t : Nat) (f : Thread → Thread) : (s.modThread t f).cycle = s.cycle := by unfold State.modThread; split <;> rfl
@[simp] theorem State.modThread_agenda (s : State) (t : Nat) (f : Thread → Thread) : (s.modThread t f).agenda = s.agenda := by unfold State.modThread; split <;> rfl
@[simp] theorem State.modThread_cur (s : State) (t : Nat) (f : Thread → Thread) : (s.modThread t f).cur = s.cur := by unfold State.modThread; split <;> rfl
@[simp] theorem State.modThread_issuing (s : State) (t : Nat) (f : Thread → Thread) : (s.modThread t f).issuing = s.issuing := by unfold State.modThread; split <;> rfl
@[simp] theorem State.modThread_unit (s : State) (t : Nat) (f : Thread → Thread) : (s.modThread t f).unit = s.unit := by unfold State.modThread; split <;> rfl
@[simp] theorem State.modThread_draws (s : State) (t : Nat) (f : Thread → Thread) : (s.modThread t f).draws = s.draws := by unfold State.modThread; split <;> rfl
@[simp] theorem State.modThread_nextId (s : State) (t : Nat) (f : Thread → Thread) : (s.modThread t f).nextId = s.nextId := by unfold State.modThread; split <;> rfl
@[simp] theorem State.modThread_cores (s : State) (t : Nat) (f : Thread → Thread) : (s.modThread t f).cores = s.cores := by unfold State.modThread; split <;> rfl
@[simp] theorem State.modThread_homes (s : State) (t : Nat) (f : Thread → Thread) : (s.modThread t f).homes = s.homes := by unfold State.modThread; split <;> rfl
@[simp] theorem State.modThread_stations (s : State) (t : Nat) (f : Thread → Thread) : (s.modThread t f).stations = s.stations := by unfold State.modThread; split <;> rfl
@[simp] theorem State.modThread_msgs (s : State) (t : Nat) (f : Thread → Thread) : (s.modThread t f).msgs = s.msgs := by unfold State.modThread; split <;> rfl
@[simp] theorem State.modThread_fallout (s : State) (t : Nat) (f : Thread → Thread) : (s.modThread t f).fallout = s.fallout := by unfold State.modThread; split <;> rfl
@[simp] theorem State.modThread_mem (s : State) (t : Nat) (f : Thread → Thread) : (s.modThread t f).mem = s.mem := by unfold State.modThread; split <;> rfl
@[simp] theorem State.modThread_feEmpty (s : State) (t : Nat) (f : Thread → Thread) : (s.modThread t f).feEmpty = s.feEmpty := by unfold State.modThread; split <;> rfl
@[simp] theorem State.modThread_tags (s : State) (t : Nat) (f : Thread → Thread) : (s.modThread t f).tags = s.tags := by unfold State.modThread; split <;> rfl
@[simp] theorem State.modThread_poison (s : State) (t : Nat) (f : Thread → Thread) : (s.modThread t f).poison = s.poison := by unfold State.modThread; split <;> rfl
@[simp] theorem State.modThread_owners (s : State) (t : Nat) (f : Thread → Thread) : (s.modThread t f).owners = s.owners := by unfold State.modThread; split <;> rfl
@[simp] theorem State.modThread_dev (s : State) (t : Nat) (f : Thread → Thread) : (s.modThread t f).dev = s.dev := by unfold State.modThread; split <;> rfl
@[simp] theorem State.modThread_gangs (s : State) (t : Nat) (f : Thread → Thread) : (s.modThread t f).gangs = s.gangs := by unfold State.modThread; split <;> rfl
@[simp] theorem State.modThread_saved (s : State) (t : Nat) (f : Thread → Thread) : (s.modThread t f).saved = s.saved := by unfold State.modThread; split <;> rfl
@[simp] theorem State.modThread_loaded (s : State) (t : Nat) (f : Thread → Thread) : (s.modThread t f).loaded = s.loaded := by unfold State.modThread; split <;> rfl
@[simp] theorem State.modThread_out (s : State) (t : Nat) (f : Thread → Thread) : (s.modThread t f).out = s.out := by unfold State.modThread; split <;> rfl
@[simp] theorem State.modThread_stalled (s : State) (t : Nat) (f : Thread → Thread) : (s.modThread t f).stalled = s.stalled := by unfold State.modThread; split <;> rfl

@[simp] theorem State.setTag_steps (s : State) (a : Nat) (b : Bool) : (s.setTag a b).steps = s.steps := by unfold State.setTag; split <;> rfl
@[simp] theorem State.setTag_cycle (s : State) (a : Nat) (b : Bool) : (s.setTag a b).cycle = s.cycle := by unfold State.setTag; split <;> rfl
@[simp] theorem State.setTag_agenda (s : State) (a : Nat) (b : Bool) : (s.setTag a b).agenda = s.agenda := by unfold State.setTag; split <;> rfl
@[simp] theorem State.setTag_cur (s : State) (a : Nat) (b : Bool) : (s.setTag a b).cur = s.cur := by unfold State.setTag; split <;> rfl
@[simp] theorem State.setTag_issuing (s : State) (a : Nat) (b : Bool) : (s.setTag a b).issuing = s.issuing := by unfold State.setTag; split <;> rfl
@[simp] theorem State.setTag_unit (s : State) (a : Nat) (b : Bool) : (s.setTag a b).unit = s.unit := by unfold State.setTag; split <;> rfl
@[simp] theorem State.setTag_draws (s : State) (a : Nat) (b : Bool) : (s.setTag a b).draws = s.draws := by unfold State.setTag; split <;> rfl
@[simp] theorem State.setTag_nextId (s : State) (a : Nat) (b : Bool) : (s.setTag a b).nextId = s.nextId := by unfold State.setTag; split <;> rfl
@[simp] theorem State.setTag_threads (s : State) (a : Nat) (b : Bool) : (s.setTag a b).threads = s.threads := by unfold State.setTag; split <;> rfl
@[simp] theorem State.setTag_cores (s : State) (a : Nat) (b : Bool) : (s.setTag a b).cores = s.cores := by unfold State.setTag; split <;> rfl
@[simp] theorem State.setTag_homes (s : State) (a : Nat) (b : Bool) : (s.setTag a b).homes = s.homes := by unfold State.setTag; split <;> rfl
@[simp] theorem State.setTag_stations (s : State) (a : Nat) (b : Bool) : (s.setTag a b).stations = s.stations := by unfold State.setTag; split <;> rfl
@[simp] theorem State.setTag_msgs (s : State) (a : Nat) (b : Bool) : (s.setTag a b).msgs = s.msgs := by unfold State.setTag; split <;> rfl
@[simp] theorem State.setTag_fallout (s : State) (a : Nat) (b : Bool) : (s.setTag a b).fallout = s.fallout := by unfold State.setTag; split <;> rfl
@[simp] theorem State.setTag_mem (s : State) (a : Nat) (b : Bool) : (s.setTag a b).mem = s.mem := by unfold State.setTag; split <;> rfl
@[simp] theorem State.setTag_feEmpty (s : State) (a : Nat) (b : Bool) : (s.setTag a b).feEmpty = s.feEmpty := by unfold State.setTag; split <;> rfl
@[simp] theorem State.setTag_poison (s : State) (a : Nat) (b : Bool) : (s.setTag a b).poison = s.poison := by unfold State.setTag; split <;> rfl
@[simp] theorem State.setTag_owners (s : State) (a : Nat) (b : Bool) : (s.setTag a b).owners = s.owners := by unfold State.setTag; split <;> rfl
@[simp] theorem State.setTag_dev (s : State) (a : Nat) (b : Bool) : (s.setTag a b).dev = s.dev := by unfold State.setTag; split <;> rfl
@[simp] theorem State.setTag_gangs (s : State) (a : Nat) (b : Bool) : (s.setTag a b).gangs = s.gangs := by unfold State.setTag; split <;> rfl
@[simp] theorem State.setTag_saved (s : State) (a : Nat) (b : Bool) : (s.setTag a b).saved = s.saved := by unfold State.setTag; split <;> rfl
@[simp] theorem State.setTag_loaded (s : State) (a : Nat) (b : Bool) : (s.setTag a b).loaded = s.loaded := by unfold State.setTag; split <;> rfl
@[simp] theorem State.setTag_out (s : State) (a : Nat) (b : Bool) : (s.setTag a b).out = s.out := by unfold State.setTag; split <;> rfl
@[simp] theorem State.setTag_stalled (s : State) (a : Nat) (b : Bool) : (s.setTag a b).stalled = s.stalled := by unfold State.setTag; split <;> rfl

@[simp] theorem State.setFe_steps (s : State) (a : Nat) (b : Bool) : (s.setFe a b).steps = s.steps := by unfold State.setFe; split <;> rfl
@[simp] theorem State.setFe_cycle (s : State) (a : Nat) (b : Bool) : (s.setFe a b).cycle = s.cycle := by unfold State.setFe; split <;> rfl
@[simp] theorem State.setFe_agenda (s : State) (a : Nat) (b : Bool) : (s.setFe a b).agenda = s.agenda := by unfold State.setFe; split <;> rfl
@[simp] theorem State.setFe_cur (s : State) (a : Nat) (b : Bool) : (s.setFe a b).cur = s.cur := by unfold State.setFe; split <;> rfl
@[simp] theorem State.setFe_issuing (s : State) (a : Nat) (b : Bool) : (s.setFe a b).issuing = s.issuing := by unfold State.setFe; split <;> rfl
@[simp] theorem State.setFe_unit (s : State) (a : Nat) (b : Bool) : (s.setFe a b).unit = s.unit := by unfold State.setFe; split <;> rfl
@[simp] theorem State.setFe_draws (s : State) (a : Nat) (b : Bool) : (s.setFe a b).draws = s.draws := by unfold State.setFe; split <;> rfl
@[simp] theorem State.setFe_nextId (s : State) (a : Nat) (b : Bool) : (s.setFe a b).nextId = s.nextId := by unfold State.setFe; split <;> rfl
@[simp] theorem State.setFe_threads (s : State) (a : Nat) (b : Bool) : (s.setFe a b).threads = s.threads := by unfold State.setFe; split <;> rfl
@[simp] theorem State.setFe_cores (s : State) (a : Nat) (b : Bool) : (s.setFe a b).cores = s.cores := by unfold State.setFe; split <;> rfl
@[simp] theorem State.setFe_homes (s : State) (a : Nat) (b : Bool) : (s.setFe a b).homes = s.homes := by unfold State.setFe; split <;> rfl
@[simp] theorem State.setFe_stations (s : State) (a : Nat) (b : Bool) : (s.setFe a b).stations = s.stations := by unfold State.setFe; split <;> rfl
@[simp] theorem State.setFe_msgs (s : State) (a : Nat) (b : Bool) : (s.setFe a b).msgs = s.msgs := by unfold State.setFe; split <;> rfl
@[simp] theorem State.setFe_fallout (s : State) (a : Nat) (b : Bool) : (s.setFe a b).fallout = s.fallout := by unfold State.setFe; split <;> rfl
@[simp] theorem State.setFe_mem (s : State) (a : Nat) (b : Bool) : (s.setFe a b).mem = s.mem := by unfold State.setFe; split <;> rfl
@[simp] theorem State.setFe_tags (s : State) (a : Nat) (b : Bool) : (s.setFe a b).tags = s.tags := by unfold State.setFe; split <;> rfl
@[simp] theorem State.setFe_poison (s : State) (a : Nat) (b : Bool) : (s.setFe a b).poison = s.poison := by unfold State.setFe; split <;> rfl
@[simp] theorem State.setFe_owners (s : State) (a : Nat) (b : Bool) : (s.setFe a b).owners = s.owners := by unfold State.setFe; split <;> rfl
@[simp] theorem State.setFe_dev (s : State) (a : Nat) (b : Bool) : (s.setFe a b).dev = s.dev := by unfold State.setFe; split <;> rfl
@[simp] theorem State.setFe_gangs (s : State) (a : Nat) (b : Bool) : (s.setFe a b).gangs = s.gangs := by unfold State.setFe; split <;> rfl
@[simp] theorem State.setFe_saved (s : State) (a : Nat) (b : Bool) : (s.setFe a b).saved = s.saved := by unfold State.setFe; split <;> rfl
@[simp] theorem State.setFe_loaded (s : State) (a : Nat) (b : Bool) : (s.setFe a b).loaded = s.loaded := by unfold State.setFe; split <;> rfl
@[simp] theorem State.setFe_out (s : State) (a : Nat) (b : Bool) : (s.setFe a b).out = s.out := by unfold State.setFe; split <;> rfl
@[simp] theorem State.setFe_stalled (s : State) (a : Nat) (b : Bool) : (s.setFe a b).stalled = s.stalled := by unfold State.setFe; split <;> rfl

@[simp] theorem State.setPoison_steps (s : State) (a : Nat) (b : Bool) : (s.setPoison a b).steps = s.steps := by unfold State.setPoison; split <;> rfl
@[simp] theorem State.setPoison_cycle (s : State) (a : Nat) (b : Bool) : (s.setPoison a b).cycle = s.cycle := by unfold State.setPoison; split <;> rfl
@[simp] theorem State.setPoison_agenda (s : State) (a : Nat) (b : Bool) : (s.setPoison a b).agenda = s.agenda := by unfold State.setPoison; split <;> rfl
@[simp] theorem State.setPoison_cur (s : State) (a : Nat) (b : Bool) : (s.setPoison a b).cur = s.cur := by unfold State.setPoison; split <;> rfl
@[simp] theorem State.setPoison_issuing (s : State) (a : Nat) (b : Bool) : (s.setPoison a b).issuing = s.issuing := by unfold State.setPoison; split <;> rfl
@[simp] theorem State.setPoison_unit (s : State) (a : Nat) (b : Bool) : (s.setPoison a b).unit = s.unit := by unfold State.setPoison; split <;> rfl
@[simp] theorem State.setPoison_draws (s : State) (a : Nat) (b : Bool) : (s.setPoison a b).draws = s.draws := by unfold State.setPoison; split <;> rfl
@[simp] theorem State.setPoison_nextId (s : State) (a : Nat) (b : Bool) : (s.setPoison a b).nextId = s.nextId := by unfold State.setPoison; split <;> rfl
@[simp] theorem State.setPoison_threads (s : State) (a : Nat) (b : Bool) : (s.setPoison a b).threads = s.threads := by unfold State.setPoison; split <;> rfl
@[simp] theorem State.setPoison_cores (s : State) (a : Nat) (b : Bool) : (s.setPoison a b).cores = s.cores := by unfold State.setPoison; split <;> rfl
@[simp] theorem State.setPoison_homes (s : State) (a : Nat) (b : Bool) : (s.setPoison a b).homes = s.homes := by unfold State.setPoison; split <;> rfl
@[simp] theorem State.setPoison_stations (s : State) (a : Nat) (b : Bool) : (s.setPoison a b).stations = s.stations := by unfold State.setPoison; split <;> rfl
@[simp] theorem State.setPoison_msgs (s : State) (a : Nat) (b : Bool) : (s.setPoison a b).msgs = s.msgs := by unfold State.setPoison; split <;> rfl
@[simp] theorem State.setPoison_fallout (s : State) (a : Nat) (b : Bool) : (s.setPoison a b).fallout = s.fallout := by unfold State.setPoison; split <;> rfl
@[simp] theorem State.setPoison_mem (s : State) (a : Nat) (b : Bool) : (s.setPoison a b).mem = s.mem := by unfold State.setPoison; split <;> rfl
@[simp] theorem State.setPoison_feEmpty (s : State) (a : Nat) (b : Bool) : (s.setPoison a b).feEmpty = s.feEmpty := by unfold State.setPoison; split <;> rfl
@[simp] theorem State.setPoison_tags (s : State) (a : Nat) (b : Bool) : (s.setPoison a b).tags = s.tags := by unfold State.setPoison; split <;> rfl
@[simp] theorem State.setPoison_owners (s : State) (a : Nat) (b : Bool) : (s.setPoison a b).owners = s.owners := by unfold State.setPoison; split <;> rfl
@[simp] theorem State.setPoison_dev (s : State) (a : Nat) (b : Bool) : (s.setPoison a b).dev = s.dev := by unfold State.setPoison; split <;> rfl
@[simp] theorem State.setPoison_gangs (s : State) (a : Nat) (b : Bool) : (s.setPoison a b).gangs = s.gangs := by unfold State.setPoison; split <;> rfl
@[simp] theorem State.setPoison_saved (s : State) (a : Nat) (b : Bool) : (s.setPoison a b).saved = s.saved := by unfold State.setPoison; split <;> rfl
@[simp] theorem State.setPoison_loaded (s : State) (a : Nat) (b : Bool) : (s.setPoison a b).loaded = s.loaded := by unfold State.setPoison; split <;> rfl
@[simp] theorem State.setPoison_out (s : State) (a : Nat) (b : Bool) : (s.setPoison a b).out = s.out := by unfold State.setPoison; split <;> rfl
@[simp] theorem State.setPoison_stalled (s : State) (a : Nat) (b : Bool) : (s.setPoison a b).stalled = s.stalled := by unfold State.setPoison; split <;> rfl

@[simp] theorem State.storeCap_steps (s : State) (a : Nat) (v : Val) : (s.storeCap a v).steps = s.steps := by simp [State.storeCap]
@[simp] theorem State.storeCap_cycle (s : State) (a : Nat) (v : Val) : (s.storeCap a v).cycle = s.cycle := by simp [State.storeCap]
@[simp] theorem State.storeCap_agenda (s : State) (a : Nat) (v : Val) : (s.storeCap a v).agenda = s.agenda := by simp [State.storeCap]
@[simp] theorem State.storeCap_cur (s : State) (a : Nat) (v : Val) : (s.storeCap a v).cur = s.cur := by simp [State.storeCap]
@[simp] theorem State.storeCap_issuing (s : State) (a : Nat) (v : Val) : (s.storeCap a v).issuing = s.issuing := by simp [State.storeCap]
@[simp] theorem State.storeCap_unit (s : State) (a : Nat) (v : Val) : (s.storeCap a v).unit = s.unit := by simp [State.storeCap]
@[simp] theorem State.storeCap_draws (s : State) (a : Nat) (v : Val) : (s.storeCap a v).draws = s.draws := by simp [State.storeCap]
@[simp] theorem State.storeCap_nextId (s : State) (a : Nat) (v : Val) : (s.storeCap a v).nextId = s.nextId := by simp [State.storeCap]
@[simp] theorem State.storeCap_threads (s : State) (a : Nat) (v : Val) : (s.storeCap a v).threads = s.threads := by simp [State.storeCap]
@[simp] theorem State.storeCap_cores (s : State) (a : Nat) (v : Val) : (s.storeCap a v).cores = s.cores := by simp [State.storeCap]
@[simp] theorem State.storeCap_homes (s : State) (a : Nat) (v : Val) : (s.storeCap a v).homes = s.homes := by simp [State.storeCap]
@[simp] theorem State.storeCap_stations (s : State) (a : Nat) (v : Val) : (s.storeCap a v).stations = s.stations := by simp [State.storeCap]
@[simp] theorem State.storeCap_msgs (s : State) (a : Nat) (v : Val) : (s.storeCap a v).msgs = s.msgs := by simp [State.storeCap]
@[simp] theorem State.storeCap_fallout (s : State) (a : Nat) (v : Val) : (s.storeCap a v).fallout = s.fallout := by simp [State.storeCap]
@[simp] theorem State.storeCap_feEmpty (s : State) (a : Nat) (v : Val) : (s.storeCap a v).feEmpty = s.feEmpty := by simp [State.storeCap]
@[simp] theorem State.storeCap_poison (s : State) (a : Nat) (v : Val) : (s.storeCap a v).poison = s.poison := by simp [State.storeCap]
@[simp] theorem State.storeCap_owners (s : State) (a : Nat) (v : Val) : (s.storeCap a v).owners = s.owners := by simp [State.storeCap]
@[simp] theorem State.storeCap_dev (s : State) (a : Nat) (v : Val) : (s.storeCap a v).dev = s.dev := by simp [State.storeCap]
@[simp] theorem State.storeCap_gangs (s : State) (a : Nat) (v : Val) : (s.storeCap a v).gangs = s.gangs := by simp [State.storeCap]
@[simp] theorem State.storeCap_saved (s : State) (a : Nat) (v : Val) : (s.storeCap a v).saved = s.saved := by simp [State.storeCap]
@[simp] theorem State.storeCap_loaded (s : State) (a : Nat) (v : Val) : (s.storeCap a v).loaded = s.loaded := by simp [State.storeCap]
@[simp] theorem State.storeCap_out (s : State) (a : Nat) (v : Val) : (s.storeCap a v).out = s.out := by simp [State.storeCap]
@[simp] theorem State.storeCap_stalled (s : State) (a : Nat) (v : Val) : (s.storeCap a v).stalled = s.stalled := by simp [State.storeCap]

@[simp] theorem State.clearOwners_steps (s : State) (c : Nat) (me : Owner) : (s.clearOwners c me).steps = s.steps := rfl
@[simp] theorem State.clearOwners_cycle (s : State) (c : Nat) (me : Owner) : (s.clearOwners c me).cycle = s.cycle := rfl
@[simp] theorem State.clearOwners_agenda (s : State) (c : Nat) (me : Owner) : (s.clearOwners c me).agenda = s.agenda := rfl
@[simp] theorem State.clearOwners_cur (s : State) (c : Nat) (me : Owner) : (s.clearOwners c me).cur = s.cur := rfl
@[simp] theorem State.clearOwners_issuing (s : State) (c : Nat) (me : Owner) : (s.clearOwners c me).issuing = s.issuing := rfl
@[simp] theorem State.clearOwners_unit (s : State) (c : Nat) (me : Owner) : (s.clearOwners c me).unit = s.unit := rfl
@[simp] theorem State.clearOwners_draws (s : State) (c : Nat) (me : Owner) : (s.clearOwners c me).draws = s.draws := rfl
@[simp] theorem State.clearOwners_nextId (s : State) (c : Nat) (me : Owner) : (s.clearOwners c me).nextId = s.nextId := rfl
@[simp] theorem State.clearOwners_threads (s : State) (c : Nat) (me : Owner) : (s.clearOwners c me).threads = s.threads := rfl
@[simp] theorem State.clearOwners_cores (s : State) (c : Nat) (me : Owner) : (s.clearOwners c me).cores = s.cores := rfl
@[simp] theorem State.clearOwners_homes (s : State) (c : Nat) (me : Owner) : (s.clearOwners c me).homes = s.homes := rfl
@[simp] theorem State.clearOwners_stations (s : State) (c : Nat) (me : Owner) : (s.clearOwners c me).stations = s.stations := rfl
@[simp] theorem State.clearOwners_msgs (s : State) (c : Nat) (me : Owner) : (s.clearOwners c me).msgs = s.msgs := rfl
@[simp] theorem State.clearOwners_fallout (s : State) (c : Nat) (me : Owner) : (s.clearOwners c me).fallout = s.fallout := rfl
@[simp] theorem State.clearOwners_mem (s : State) (c : Nat) (me : Owner) : (s.clearOwners c me).mem = s.mem := rfl
@[simp] theorem State.clearOwners_feEmpty (s : State) (c : Nat) (me : Owner) : (s.clearOwners c me).feEmpty = s.feEmpty := rfl
@[simp] theorem State.clearOwners_tags (s : State) (c : Nat) (me : Owner) : (s.clearOwners c me).tags = s.tags := rfl
@[simp] theorem State.clearOwners_poison (s : State) (c : Nat) (me : Owner) : (s.clearOwners c me).poison = s.poison := rfl
@[simp] theorem State.clearOwners_dev (s : State) (c : Nat) (me : Owner) : (s.clearOwners c me).dev = s.dev := rfl
@[simp] theorem State.clearOwners_gangs (s : State) (c : Nat) (me : Owner) : (s.clearOwners c me).gangs = s.gangs := rfl
@[simp] theorem State.clearOwners_saved (s : State) (c : Nat) (me : Owner) : (s.clearOwners c me).saved = s.saved := rfl
@[simp] theorem State.clearOwners_loaded (s : State) (c : Nat) (me : Owner) : (s.clearOwners c me).loaded = s.loaded := rfl
@[simp] theorem State.clearOwners_out (s : State) (c : Nat) (me : Owner) : (s.clearOwners c me).out = s.out := rfl
@[simp] theorem State.clearOwners_stalled (s : State) (c : Nat) (me : Owner) : (s.clearOwners c me).stalled = s.stalled := rfl

end Sys2Proof.Machine
end

