-- ==== Sys2Proof/Laws/Memory.lean ====
section
/-!
SUPPORT. Number tables and memory: what a lookup gives after a write, and that every memory operation keeps the canonical
form.
-/

namespace Sys2Proof.Machine

/-! ### Number tables -/

theorem tfind_tput_same (t : Table α) (k : Nat) (v : α) : tfind (tput t k v) k = some v := by
  induction t with
  | nil => simp [tput, tfind]
  | cons x r ih =>
    obtain ⟨j, w⟩ := x
    simp only [tput]
    split
    · simp [tfind]
    · split
      · simp [tfind]
      · rename_i h1 h2
        simpa [tfind, List.lookup, show (k == j) = false by simpa using h2] using ih

theorem tfind_tput_other (t : Table α) (k j : Nat) (v : α) (h : j ≠ k) : tfind (tput t k v) j = tfind t j := by
  induction t with
  | nil => simp [tput, tfind, List.lookup, show (j == k) = false by simpa using h]
  | cons x r ih =>
    obtain ⟨i, w⟩ := x
    simp only [tput]
    split
    · simp [tfind, List.lookup, show (j == k) = false by simpa using h]
    · split
      · rename_i h1 h2
        subst h2
        simp [tfind, List.lookup, show (j == k) = false by simpa using h]
      · simp only [tfind, List.lookup] at ih ⊢
        split
        · rfl
        · exact ih

@[simp] theorem tget_tput_same (t : Table α) (k : Nat) (v d : α) : tget (tput t k v) k d = v := by
  have := tfind_tput_same t k v
  simp only [tfind] at this
  simp [tget, this]

theorem tget_tput_other (t : Table α) (k j : Nat) (v d : α) (h : j ≠ k) : tget (tput t k v) j d = tget t j d := by
  have := tfind_tput_other t k j v h
  simp only [tfind] at this
  simp [tget, this]

theorem tfind_tdel_same (t : Table α) (k : Nat) : tfind (tdel t k) k = none := by
  induction t with
  | nil => rfl
  | cons x r ih =>
    obtain ⟨j, w⟩ := x
    simp only [tdel, List.filter] at ih ⊢
    split
    · rename_i h
      have : (k == j) = false := by simp at h ⊢; omega
      simpa [tfind, List.lookup, this] using ih
    · exact ih

theorem tfind_tdel_other (t : Table α) (k j : Nat) (h : j ≠ k) : tfind (tdel t k) j = tfind t j := by
  induction t with
  | nil => rfl
  | cons x r ih =>
    obtain ⟨i, w⟩ := x
    simp only [tdel, List.filter] at ih ⊢
    split
    · simp only [tfind, List.lookup] at ih ⊢
      split
      · rfl
      · exact ih
    · rename_i h2
      have h3 : i = k := by simpa using h2
      have : (j == i) = false := by simp; omega
      simpa [tfind, List.lookup, this] using ih

/-! ### Bytes -/

/-- A byte written is read back, and every other byte reads as before. -/
theorem memByte_memPut (m : List Host.Cell) (a b : Nat) (v : Byte) :
    memByte (memPut m a v) b = if b = a then v else memByte m b := by
  unfold memByte memPut
  by_cases hv : v = unlistedByte
  · rw [if_pos hv]
    by_cases h : b = a
    · subst h
      have := tfind_tdel_same m b
      simp only [tfind] at this
      simp [tget, this, hv]
    · have := tfind_tdel_other m a b h
      simp only [tfind] at this
      simp [tget, this, h]
  · rw [if_neg hv]
    by_cases h : b = a
    · subst h; simp
    · rw [tget_tput_other _ _ _ _ _ h, if_neg h]

/-! ### The canonical form -/

theorem memWf_iff (m : List Host.Cell) :
    memWf m = true ↔ (m.map Prod.fst).Pairwise (· < ·) ∧ ∀ c ∈ m, c.2 ≠ unlistedByte := by
  simp [memWf, List.all_eq_true]

theorem memWf_nil : memWf [] = true := rfl

/-- Leaving entries out keeps the form. -/
theorem memWf_filter (m : List Host.Cell) (p : Host.Cell → Bool) (h : memWf m = true) : memWf (m.filter p) = true := by
  rw [memWf_iff] at h ⊢
  refine ⟨?_, fun c hc => h.2 c (List.mem_filter.mp hc).1⟩
  exact List.Pairwise.sublist (List.filter_sublist.map _) h.1

theorem memWf_tdel (m : List Host.Cell) (a : Nat) (h : memWf m = true) : memWf (tdel m a) = true :=
  memWf_filter m _ h

theorem mem_tput (m : List Host.Cell) (a : Nat) (b : Byte) (c : Host.Cell) (h : c ∈ tput m a b) : c = (a, b) ∨ c ∈ m := by
  induction m with
  | nil => simpa [tput] using h
  | cons x r ih =>
    obtain ⟨j, w⟩ := x
    simp only [tput] at h
    split at h
    · simpa using h
    · split at h
      · simp only [List.mem_cons] at h ⊢; tauto
      · simp only [List.mem_cons] at h ⊢
        rcases h with h | h
        · exact .inr (.inl h)
        · rcases ih h with h | h <;> tauto

theorem tput_pairwise (m : List Host.Cell) (a : Nat) (b : Byte) (h : (m.map Prod.fst).Pairwise (· < ·)) :
    ((tput m a b).map Prod.fst).Pairwise (· < ·) := by
  induction m with
  | nil => simp [tput]
  | cons x r ih =>
    obtain ⟨j, w⟩ := x
    simp only [List.map_cons, List.pairwise_cons] at h
    simp only [tput]
    split
    · rename_i hlt
      simp only [List.map_cons, List.pairwise_cons, List.mem_cons]
      refine ⟨?_, h⟩
      rintro y (rfl | hy)
      · exact hlt
      · exact Nat.lt_trans hlt (h.1 y hy)
    · split
      · rename_i _ heq
        subst heq
        simpa only [List.map_cons, List.pairwise_cons] using h
      · rename_i h1 h2
        simp only [List.map_cons, List.pairwise_cons]
        refine ⟨?_, ih h.2⟩
        intro y hy
        obtain ⟨c, hc, rfl⟩ := List.mem_map.mp hy
        rcases mem_tput r a b c hc with rfl | hc
        · simp only; omega
        · exact h.1 _ (List.mem_map_of_mem hc)

/-- A byte written keeps the form. -/
theorem memWf_memPut (m : List Host.Cell) (a : Nat) (b : Byte) (h : memWf m = true) : memWf (memPut m a b) = true := by
  unfold memPut
  split
  · exact memWf_tdel m a h
  · rename_i hb
    rw [memWf_iff] at h ⊢
    refine ⟨tput_pairwise m a b h.1, fun c hc => ?_⟩
    rcases mem_tput m a b c hc with rfl | hc
    · exact hb
    · exact h.2 c hc

/-- Bytes stored keep the form. -/
theorem memWf_memStore (m : List Host.Cell) (a n v : Nat) (h : memWf m = true) : memWf (memStore m a n v) = true := by
  induction n generalizing m a v with
  | zero => exact h
  | succ n ih => exact ih _ _ _ (memWf_memPut m a _ h)

theorem memWf_store (s : State) (a n v : Nat) (h : memWf s.mem = true) : memWf (s.store a n v).mem = true :=
  memWf_memStore s.mem a n v h

theorem memWf_storeCap (s : State) (a : Nat) (v : Val) (h : memWf s.mem = true) : memWf (s.storeCap a v).mem = true := by
  unfold State.storeCap
  rw [State.setTag_mem]
  exact memWf_store s a 16 _ h

theorem memWf_zeroRange (s : State) (a n : Nat) (h : memWf s.mem = true) : memWf (s.zeroRange a n).mem = true :=
  memWf_filter s.mem _ h

theorem memWf_setTag (s : State) (a : Nat) (b : Bool) (h : memWf s.mem = true) : memWf (s.setTag a b).mem = true := by
  rw [State.setTag_mem]; exact h

/-- A fold of steps that keep the form keeps it. -/
theorem memWf_foldl {β : Type} (l : List β) (f : State → β → State) (s : State)
    (hf : ∀ s x, memWf s.mem = true → memWf (f s x).mem = true) (h : memWf s.mem = true) :
    memWf (l.foldl f s).mem = true := by
  induction l generalizing s with
  | nil => exact h
  | cons x r ih => exact ih _ (hf s x h)

end Sys2Proof.Machine
end

