-- ==== Sys2Proof/Laws/Issue.lean ====
section
/-!
SUPPORT. What the issue of a unit can do, said once: the effect's state, or the stop of a unit that does not complete; and the
parts of the state that the begin of an issue leaves alone.
-/

namespace Sys2Proof.Machine

/-! ### The issue -/

theorem issue_next {i : Instr} {s : State} {eff : Effect} {th : Thread} (h : s.issuer = some th) :
    issue i s eff = .next (s.issueBy s.cur th i eff) := by
  simp [issue, h]

/-- Without a thread that holds the turn nothing is issued. -/
theorem issue_idle {i : Instr} {s : State} {eff : Effect} (h : s.issuer = none) : issue i s eff = .refused .notEnabled := by
  simp [issue, h]

/-- A unit that issues goes on to the state its effect answers. -/
theorem issue_ok {i : Instr} {s : State} {eff : Effect} {th : Thread} {s' : State} (h : Runs i s th)
    (he : eff (s.vals th i) th (s.begun th i) = .ok s') : issue i s eff = .next s' := by
  obtain ⟨hi, hc, hp⟩ := h
  rw [issue_next hi]
  have hq : (s.unit.replay.isNone && predOff i th) = false := by
    cases hr : s.unit.replay with
    | none => simp [hp hr]
    | some x => simp
  simp only [State.issueBy, hc, hq]
  simp only [State.vals, State.begun] at he
  simp [he]

/-- A unit whose effect stops does not complete, and nothing it read is consumed. -/
theorem issue_stop {i : Instr} {s : State} {eff : Effect} {th : Thread} {e : Stop} (h : Runs i s th)
    (he : eff (s.vals th i) th (s.begun th i) = .error e) :
    issue i s eff = .next (({ s with issuing := false }).stopUnit s.cur th i e) := by
  obtain ⟨hi, hc, hp⟩ := h
  rw [issue_next hi]
  have hq : (s.unit.replay.isNone && predOff i th) = false := by
    cases hr : s.unit.replay with
    | none => simp [hp hr]
    | some x => simp
  simp only [State.issueBy, hc, hq]
  simp only [State.vals, State.begun] at he
  simp [he]

/-- A unit turned off by its predicate uses its turn and does nothing else (03 R57). -/
theorem issue_off {i : Instr} {s : State} {eff : Effect} {th : Thread} (hi : s.issuer = some th)
    (hc : issueCheck s s.cur th i = none) (hr : s.unit.replay = none) (hp : predOff i th = true) :
    issue i s eff = .next (s.skip s.cur th) := by
  rw [issue_next hi]
  simp [State.issueBy, hc, hr, hp]

/-- What issueCheck answers stops the unit. -/
theorem issue_check {i : Instr} {s : State} {eff : Effect} {th : Thread} {e : Stop} (hi : s.issuer = some th)
    (hc : issueCheck s s.cur th i = some e) :
    issue i s eff = .next (({ s with issuing := false }).stopUnit s.cur th i e) := by
  rw [issue_next hi]
  simp [State.issueBy, hc]

/-- An instruction whose meaning is the issue of an effect goes on where the effect does. -/
theorem exec_goes {i : Instr} {eff : Effect} {s s' : State} {th : Thread} (h : Runs i s th) (hx : exec i s = issue i s eff)
    (he : eff (s.vals th i) th (s.begun th i) = .ok s') : exec i s = .next s' := by
  rw [hx, issue_ok h he]
theorem exec_stops {i : Instr} {eff : Effect} {s : State} {th : Thread} {e : Stop} (h : Runs i s th)
    (hx : exec i s = issue i s eff) (he : eff (s.vals th i) th (s.begun th i) = .error e) :
    exec i s = .next (({ s with issuing := false }).stopUnit s.cur th i e) := by
  rw [hx, issue_stop h he]
theorem exec_traps {i : Instr} {eff : Effect} {s : State} {th : Thread} {c : Code} {a : Word} (h : Runs i s th)
    (hx : exec i s = issue i s eff) (he : eff (s.vals th i) th (s.begun th i) = .error (.trap c a)) :
    exec i s = .next (({ s with issuing := false }).faultUnit s.cur th c a) :=
  exec_stops h hx he

/-! ### Pops and the values read -/

/-- A pop changes the cores only. -/
theorem pop_only (s : State) (c : Nat) (dom : BitVec 16) (x : Opn) : (s.pop c dom x).2 = { s with cores := (s.pop c dom x).2.cores } := by
  unfold State.pop
  split <;> rfl

theorem readField_only (s : State) (t : Nat) (th : Thread) (f : Field) :
    (readField s t th f).2 = { s with cores := (readField s t th f).2.cores } := by
  unfold readField
  split
  · exact pop_only ..
  · split <;> rfl

theorem readVals_only (s : State) (t : Nat) (th : Thread) (i : Instr) (f : Fields) :
    (readVals s t th i f).2 = { s with cores := (readVals s t th i f).2.cores } := by
  have hd := readField_only s t th f.d
  have ha := readField_only (readField s t th f.d).2 t th f.a
  have hb := readField_only (readField (readField s t th f.d).2 t th f.a).2 t th f.b
  have hc := readField_only (readField (readField (readField s t th f.d).2 t th f.a).2 t th f.b).2 t th f.c
  have he := readField_only (readField (readField (readField (readField s t th f.d).2 t th f.a).2 t th f.b).2 t th f.c).2 t th f.e
  simp only [readVals]
  rw [he, hc, hb, ha, hd]

/-- What the begin of an issue changes: the issuing thread, and the cores it pops from and counts on. -/
theorem begun_only (s : State) (th : Thread) (i : Instr) :
    s.begun th i = { s with issuing := false, threads := (s.begun th i).threads, cores := (s.begun th i).cores } := by
  simp only [State.begun, State.begin]
  split
  · rfl
  · have h := readVals_only { s with issuing := false } s.cur th i (i.fields (i.elemType (s.core (tcore s.cur)).fmtr))
    rw [h]
    rfl

@[simp] theorem begun_cur (s : State) (th : Thread) (i : Instr) : (s.begun th i).cur = s.cur := by rw [begun_only]
@[simp] theorem begun_unit (s : State) (th : Thread) (i : Instr) : (s.begun th i).unit = s.unit := by rw [begun_only]
@[simp] theorem begun_mem (s : State) (th : Thread) (i : Instr) : (s.begun th i).mem = s.mem := by rw [begun_only]
@[simp] theorem begun_feEmpty (s : State) (th : Thread) (i : Instr) : (s.begun th i).feEmpty = s.feEmpty := by rw [begun_only]
@[simp] theorem begun_tags (s : State) (th : Thread) (i : Instr) : (s.begun th i).tags = s.tags := by rw [begun_only]
@[simp] theorem begun_poison (s : State) (th : Thread) (i : Instr) : (s.begun th i).poison = s.poison := by rw [begun_only]
@[simp] theorem begun_owners (s : State) (th : Thread) (i : Instr) : (s.begun th i).owners = s.owners := by rw [begun_only]
@[simp] theorem begun_dev (s : State) (th : Thread) (i : Instr) : (s.begun th i).dev = s.dev := by rw [begun_only]
@[simp] theorem begun_homes (s : State) (th : Thread) (i : Instr) : (s.begun th i).homes = s.homes := by rw [begun_only]
@[simp] theorem begun_stations (s : State) (th : Thread) (i : Instr) : (s.begun th i).stations = s.stations := by rw [begun_only]
@[simp] theorem begun_msgs (s : State) (th : Thread) (i : Instr) : (s.begun th i).msgs = s.msgs := by rw [begun_only]
@[simp] theorem begun_cycle (s : State) (th : Thread) (i : Instr) : (s.begun th i).cycle = s.cycle := by rw [begun_only]
@[simp] theorem begun_draws (s : State) (th : Thread) (i : Instr) : (s.begun th i).draws = s.draws := by rw [begun_only]
@[simp] theorem begun_nextId (s : State) (th : Thread) (i : Instr) : (s.begun th i).nextId = s.nextId := by rw [begun_only]

/-- A result statement, from what the effect answers on any values, thread and state. -/
theorem effects_of {i : Instr} {eff : Effect} {ok : Vals → Thread → State → Prop} {f : Vals → Thread → State → State}
    (hx : ∀ s, exec i s = issue i s eff) (he : ∀ v th s, ok v th s → eff v th s = .ok (f v th s)) : Effects i ok f :=
  fun s _ h hk => exec_goes h (hx s) (he _ _ _ hk)
theorem traps_of {i : Instr} {eff : Effect} {ok : Vals → Thread → State → Prop} {c : Code} {a : Vals → Thread → State → Word}
    (hx : ∀ s, exec i s = issue i s eff) (he : ∀ v th s, ok v th s → eff v th s = .error (.trap c (a v th s))) : Traps i ok c a :=
  fun s _ h hk => exec_traps h (hx s) (he _ _ _ hk)
theorem yields_of {i : Instr} {eff : Effect} {d : Opn} {f : Vals → Thread → State → Val}
    (hx : ∀ s, exec i s = issue i s eff) (he : ∀ v th s, eff v th s = .ok (s.putDest s.cur d (f v th s))) : Yields i d f := by
  intro s th h
  rw [exec_goes h (hx s) (he _ _ _)]
  simp

/-- The thread of a begun issue: charged, its windows counted, PCC moved on (14 R339, 03 R61, R65). -/
theorem begun_thread (s : State) (th : Thread) (i : Instr) :
    (s.begun th i).thread s.cur = some (((th.charge s.cur).tickWindows).advance s.unit) := by
  simp only [State.begun, State.begin, State.thread, State.countCore_threads, State.setThread]
  exact tfind_tput_same ..

/-- Every other thread is as before. -/
theorem begun_others (s : State) (th : Thread) (i : Instr) (m : Nat) (h : m ≠ s.cur) :
    (s.begun th i).thread m = s.thread m := by
  simp only [State.begun, State.begin, State.thread, State.countCore_threads, State.setThread]
  rw [tfind_tput_other _ _ _ _ h]
  split
  · rfl
  · have := readVals_only { s with issuing := false } s.cur th i (i.fields (i.elemType (s.core (tcore s.cur)).fmtr))
    rw [this]

/-- The registers of a begun issue are those before it. -/
theorem begun_reg (s : State) (th : Thread) (i : Instr) (k : Nat) :
    (((th.charge s.cur).tickWindows).advance s.unit).reg k = th.reg k := by
  have hc : (th.charge s.cur).regs = th.regs := by unfold Thread.charge; split <;> rfl
  have ht : ∀ x : Thread, x.tickWindows.regs = x.regs := fun _ => rfl
  have ha : ∀ x : Thread, (x.advance s.unit).regs = x.regs := fun x => by
    unfold Thread.advance Thread.setPc; split <;> rfl
  simp [Thread.reg, ha, ht, hc]

/-! ### Threads and destinations -/

theorem thread_setThread_same (s : State) (t : Nat) (th : Thread) : (s.setThread t th).thread t = some th :=
  tfind_tput_same ..
theorem thread_setThread_other (s : State) (t m : Nat) (th : Thread) (h : m ≠ t) : (s.setThread t th).thread m = s.thread m :=
  tfind_tput_other _ _ _ _ h
theorem thread_modThread_same (s : State) (t : Nat) (f : Thread → Thread) :
    (s.modThread t f).thread t = (s.thread t).map f := by
  unfold State.modThread
  cases h : s.thread t with
  | none => simp [h]
  | some th => simp [thread_setThread_same]
theorem thread_modThread_other (s : State) (t m : Nat) (f : Thread → Thread) (h : m ≠ t) :
    (s.modThread t f).thread m = s.thread m := by
  unfold State.modThread
  cases s.thread t with
  | none => rfl
  | some th => exact thread_setThread_other _ _ _ _ h

theorem reg_setReg_same (th : Thread) (k : Nat) (v : Val) : (th.setReg k v).reg k = ⟨v, true⟩ := by
  simp [Thread.reg, Thread.setReg]
theorem reg_setReg_other (th : Thread) (k j : Nat) (v : Val) (h : j ≠ k) : (th.setReg k v).reg j = th.reg j := by
  simp [Thread.reg, Thread.setReg, tget_tput_other _ _ _ _ _ h]
/-- A destination that names a register takes the value and becomes present; z takes nothing (03 R50). -/
theorem reg_write (th : Thread) (d : Opn) (v : Val) (k : Nat) :
    (th.write d v).reg k = if d.toNat < 256 ∧ k = d.toNat then ⟨v, true⟩ else th.reg k := by
  unfold Thread.write
  by_cases hd : d.toNat < 256
  · rw [if_pos hd]
    by_cases hk : k = d.toNat
    · subst hk; simp [hd, reg_setReg_same]
    · simp [hk, reg_setReg_other _ _ _ _ hk]
  · rw [if_neg hd]; simp [hd]

end Sys2Proof.Machine
end

