-- ==== Sys2Proof/Laws/Storage.lean ====
section
/-!
SUPPORT. What the shared operations do to storage, said once: sends, waits, wakes and codes leave every byte alone; every
operation that writes bytes keeps the canonical form; operations entered and results put touch no byte. And the frame of a trap
changes nothing of its own thread but what a store records.
-/

namespace Sys2Proof.Machine

/-! ### Operations that write no byte -/

/-- A fold of steps that keep memory keeps it. -/
theorem foldl_mem {β : Type} (l : List β) (f : State → β → State) (s : State) (hf : ∀ s x, (f s x).mem = s.mem) :
    (l.foldl f s).mem = s.mem := by
  induction l generalizing s with
  | nil => rfl
  | cons x r ih => exact (ih _).trans (hf s x)

@[simp] theorem wakeUp_mem (s : State) (h : Nat) (r : WaitRec) (v : Word) (acq : Bool) : (s.wakeUp h r v acq).mem = s.mem := by
  simp [State.wakeUp]
@[simp] theorem serveWaitne_mem (s : State) (loc : Nat) : (s.serveWaitne loc).mem = s.mem := by
  simp only [State.serveWaitne]
  rw [foldl_mem _ _ _ (fun s r => wakeUp_mem s _ r _ _), State.modHome_mem]
@[simp] theorem lineWritten_mem (s : State) (loc : Nat) : (s.lineWritten loc).mem = s.mem := by
  unfold State.lineWritten
  dsimp only
  split_ifs
  · rfl
  · split
    · rfl
    · repeat' split
      all_goals simp
@[simp] theorem dropViews_mem (s : State) (h : Nat) (va : Word) (n : Nat) : (s.dropViews h va n).mem = s.mem := by
  unfold State.dropViews
  dsimp only
  split <;> simp
/-- What follows a write changes no byte. -/
@[simp] theorem wroteAt_mem (s : State) (loc n : Nat) : (s.wroteAt loc n).mem = s.mem := by
  unfold State.wroteAt
  exact ((foldl_mem _ _ _ (by intro s x; simp)).trans (foldl_mem _ _ _ (by intro s x; simp))).trans rfl
@[simp] theorem wrote_mem (s : State) (va : Word) (loc n : Nat) : (s.wrote va loc n).mem = s.mem := by
  simp [State.wrote]
@[simp] theorem pullFrom_mem (s : State) (h sector : Nat) (cs : List Nat) : (s.pullFrom h sector cs).mem = s.mem := by
  unfold State.pullFrom
  exact (State.modHome_mem _ _ _).trans (foldl_mem _ _ _ (by intro s x; simp))
@[simp] theorem forcePull_mem (s : State) (h : Nat) (b : DirEntry × List Nat) : (s.forcePull h b).mem = s.mem := by
  simp [State.forcePull]
@[simp] theorem recordRelease_mem (s : State) (h sector core : Nat) : (s.recordRelease h sector core).mem = s.mem := by
  simp [State.recordRelease]
/-- An error that a fill meets changes no byte; it may poison the sector (10 R242). -/
@[simp] theorem eccError_mem (s : State) (h line i e : Nat) : (s.eccError h line i e).mem = s.mem := by
  unfold State.eccError
  dsimp only
  split_ifs <;> simp [State.setStack]
@[simp] theorem eccLine_mem (s : State) (h line : Nat) (ecc : BitVec 8) : (s.eccLine h line ecc).mem = s.mem := by
  unfold State.eccLine
  exact foldl_mem _ _ _ (by intro s x; simp)
/-- A fill changes no byte (10 R237). -/
@[simp] theorem fillLine_mem (s : State) (x : LineKey) (ecc : BitVec 8) : (s.fillLine x ecc).mem = s.mem := by
  unfold State.fillLine
  dsimp only
  simp only [State.sampleHome, State.modHome_mem, State.countHome_mem, State.draw]
  exact foldl_mem _ _ _ (by intro s x; simp)
@[simp] theorem needLine_mem (s : State) (loc : Nat) (w : Bool) : (s.needLine loc w).mem = s.mem := by
  unfold State.needLine
  dsimp only
  split_ifs <;> simp
@[simp] theorem noteRelease_mem (s : State) (rel : Bool) (loc core : Nat) : (s.noteRelease rel loc core).mem = s.mem := by
  unfold State.noteRelease; split <;> simp
@[simp] theorem register_mem (s : State) (loc : Nat) (me : Owner) : (s.register loc me).1.mem = s.mem := by
  simp only [State.register]
  split
  · rfl
  · split
    · rfl
    · split <;> simp

/-! ### Operations entered, results put -/

@[simp] theorem startOp_mem (s : State) (t : Nat) (o : Op) (la : Nat) : (s.startOp t o la).mem = s.mem := by
  simp [State.startOp]
@[simp] theorem deferResult_mem (s : State) (t : Nat) (ds : List Opn) (vs : List Val) (f : Flags) (la : BitVec 4) :
    (s.deferResult t ds vs f la).mem = s.mem := by
  simp [State.deferResult]
@[simp] theorem push_mem (s : State) (c : Nat) (me : Owner) (dom : BitVec 16) (d : Opn) (v : Val) :
    (s.push c me dom d v).mem = s.mem := by
  unfold State.push; split <;> simp
@[simp] theorem putNow_mem (s : State) (t : Nat) (d : Opn) (v : Val) : (s.putNow t d v).mem = s.mem := by
  unfold State.putNow
  split
  · simp
  · split <;> simp
@[simp] theorem putDest_mem (s : State) (t : Nat) (d : Opn) (v : Val) : (s.putDest t d v).mem = s.mem := by
  unfold State.putDest
  split
  · split <;> simp
  · rfl
@[simp] theorem putGroup_mem (s : State) (d : Opn) (n bits : Nat) : (s.putGroup d n bits).mem = s.mem := by
  simp [State.putGroup]
@[simp] theorem setBank_mem (s : State) (t : Nat) (va : Word) : (s.setBank t va).mem = s.mem := by
  unfold State.setBank; split <;> simp
/-- A translation changes at most the order of the core's PLB. -/
theorem translate_mem {s s1 : State} {t : Nat} {va : Word} (h : translate s t va = .ok s1) : s1.mem = s.mem := by
  unfold translate at h
  split at h
  · cases h; rfl
  · simp only [] at h
    split at h
    · cases h; simp
    · cases h
theorem translatePages_mem {n : Nat} {s s1 : State} {t : Nat} {va : Word} (h : translatePages s t va n = .ok s1) :
    s1.mem = s.mem := by
  induction n generalizing s va with
  | zero => cases h; rfl
  | succ n ih =>
    simp only [translatePages] at h
    split at h
    · cases h
    · rename_i ht
      exact (ih h).trans (translate_mem ht)
/-- The checks of an access change at most that. -/
theorem accessStep_mem {s s1 : State} {th : Thread} {a : Val} {w : Want} {va : Word} {n align : Nat} {posted : Bool}
    (h : accessStep s th a w va n align posted = .ok s1) : s1.mem = s.mem := by
  unfold accessStep at h
  split at h
  · cases h
  · split at h
    · cases h
    · rename_i ht
      split at h
      · cases h
      · split at h
        · cases h
        · cases h; exact translatePages_mem ht

/-! ### The canonical form, for what writes bytes at homes and in areas -/

theorem memWf_rawGranules (l : List Val) (s : State) (loc : Nat) (h : memWf s.mem = true) :
    memWf (s.rawGranules loc l).mem = true := by
  induction l generalizing s loc with
  | nil => exact h
  | cons v r ih =>
    simp only [State.rawGranules]
    apply ih
    split
    · exact memWf_storeCap s loc v h
    · exact memWf_store s loc 16 _ h

theorem memWf_foldPut (l : List Host.Cell) (f : Host.Cell → Nat) (m : List Host.Cell) (h : memWf m = true) :
    memWf (l.foldl (fun m c => memPut m (f c) c.2) m) = true := by
  induction l generalizing m with
  | nil => exact h
  | cons c r ih => exact ih _ (memWf_memPut m _ _ h)
theorem memWf_storeMasked (s : State) (loc : Nat) (mask : BitVec 32) (data : BitVec 256) (tags : BitVec 2)
    (h : memWf s.mem = true) : memWf (s.storeMasked loc mask data tags).mem = true := by
  have : (s.storeMasked loc mask data tags).mem =
      memStore s.mem (loc / 32 * 32) 32 (mergeBytes mask (s.load (loc / 32 * 32) 32) data.toNat) := by
    simp only [State.storeMasked]
    repeat' split
    all_goals simp
  rw [this]
  exact memWf_memStore s.mem _ _ _ h
theorem memWf_flushBuffer (s : State) (hm sector : Nat) (h : memWf s.mem = true) : memWf (s.flushBuffer hm sector).mem = true := by
  simp only [State.flushBuffer]
  refine memWf_foldl _ _ _ (fun s b hs => ?_) (by simpa using h)
  rw [State.modCore_mem, wrote_mem]
  split
  · exact memWf_storeCap s _ _ hs
  · exact memWf_store s _ _ _ hs
theorem memWf_putGranules (l : List Val) (s : State) (loc : Nat) (h : memWf s.mem = true) :
    memWf (s.putGranules loc l).mem = true := by
  simp only [State.putGranules]
  split_ifs
  · exact h
  · rw [wroteAt_mem]
    refine memWf_rawGranules _ _ _ (memWf_foldl _ _ _ (fun s i hs => ?_) ?_)
    · split_ifs
      · exact hs
      · exact memWf_flushBuffer _ _ _ hs
    · rw [foldl_mem _ (fun s i => s.needLine (loc / 128 * 128 + 128 * i) true) _ (fun s x => needLine_mem ..)]
      exact h
theorem memWf_putCell (s : State) (va : Word) (loc w : Nat) (h : memWf s.mem = true) : memWf (s.putCell va loc w).mem = true := by
  simp only [State.putCell, wrote_mem]
  exact memWf_memStore s.mem loc 8 w h
theorem memWf_copyFrame (s : State) (src dst : Nat) (h : memWf s.mem = true) : memWf (s.copyFrame src dst).mem = true :=
  memWf_foldPut _ _ _ (memWf_zeroRange s dst _ h)
theorem memWf_clearPage (s : State) (c : Nat) (va : Word) (h : memWf s.mem = true) : memWf (s.clearPage c va).mem = true := by
  simp only [State.clearPage]
  split
  · exact h
  · rw [State.modHome_mem]; exact memWf_filter s.mem _ h
theorem memWf_putArea (l : List Val) (s : State) (c : Nat) (va : Word) (h : memWf s.mem = true) :
    memWf (s.putArea c va l).mem = true := by
  induction l generalizing s va with
  | nil => exact h
  | cons v r ih =>
    simp only [State.putArea]
    apply ih
    split
    · exact memWf_putGranules _ s _ h
    · exact h
@[simp] theorem unregister_mem (s : State) (loc : Nat) (me : Owner) : (s.unregister loc me).mem = s.mem := by
  simp [State.unregister]
@[simp] theorem settleCore_mem (s : State) (c : Nat) : (s.settleCore c).mem = s.mem := by
  unfold State.settleCore
  exact foldl_mem _ _ _ (by intro s x; split_ifs <;> rfl)
theorem memWf_wbackAt (s : State) (core : Nat) (va : Word) (mask : BitVec 32) (data : BitVec 256) (tags : BitVec 2) (o : Owner)
    (clear : Bool) (h : memWf s.mem = true) : memWf (s.wbackAt core va mask data tags o clear).mem = true := by
  unfold State.wbackAt
  split
  · have key (loc : Nat) (m : BitVec 32) :=
      memWf_storeMasked _ loc m data tags (memWf_flushBuffer (s.needLine loc true) (holder loc) (loc / 32) (by simpa using h))
    dsimp only
    split_ifs
    · rw [unregister_mem, wrote_mem]; exact key _ _
    · rw [wrote_mem]; exact key _ _
  · exact h
theorem memWf_landHeld (s : State) (c : Nat) (va : Word) (dom : BitVec 16) (clear : Bool) (h : memWf s.mem = true) :
    memWf (s.landHeld c va dom clear).mem = true :=
  memWf_wbackAt _ _ _ _ _ _ _ _ (by simpa using h)
theorem memWf_landSent (s : State) (hit : Nat → Owner → Bool → Bool) (h : memWf s.mem = true) :
    memWf (s.landSent hit).mem = true := by
  unfold State.landSent
  refine memWf_foldl s.msgs _ _ (fun s m hs => ?_) h
  split
  · split_ifs
    · exact memWf_wbackAt _ _ _ _ _ _ _ _ hs
    · exact hs
  · exact hs
/-- A pull made at once keeps the canonical form, whatever it writes back. -/
theorem memWf_pullCore (s : State) (c : Nat) (h : memWf s.mem = true) : memWf (s.pullCore c).mem = true :=
  memWf_foldl _ _ _ (fun _ _ hs => memWf_landHeld _ _ _ _ _ hs) (by simpa using memWf_landSent s _ h)
theorem memWf_pullNow (s : State) (hm sector : Nat) (h : memWf s.mem = true) : memWf (s.pullNow hm sector).mem = true := by
  unfold State.pullNow
  rw [State.modHome_mem]
  exact memWf_foldl _ _ _ (fun s c hs => memWf_pullCore s c hs) h
theorem memWf_homeRead (s : State) (loc : Nat) (h : memWf s.mem = true) : memWf (s.homeRead loc).mem = true := by
  unfold State.homeRead
  rw [needLine_mem]
  split_ifs
  · exact memWf_flushBuffer _ _ _ h
  · exact memWf_flushBuffer _ _ _ (memWf_pullNow _ _ _ h)
theorem memWf_readPhys (s : State) (loc n : Nat) (h : memWf s.mem = true) : memWf (s.readPhys loc n).mem = true :=
  memWf_foldl _ _ _ (fun s _ hs => memWf_homeRead s _ hs) h
theorem memWf_leaseRead (s : State) (dom : BitVec 16) (h : memWf s.mem = true) : memWf (s.leaseRead dom).mem = true := by
  unfold State.leaseRead
  split_ifs
  · exact memWf_readPhys _ _ _ h
  · exact h
theorem memWf_dump (s : State) (dom : BitVec 16) (owner : Owner) (kind core : Nat) (causes : List Cause) (context : List Val)
    (h : memWf s.mem = true) : memWf (s.dump dom owner kind core causes context).1.mem = true := by
  unfold State.dump
  have hp := memWf_leaseRead s dom h
  generalize s.leaseRead dom = s1 at hp
  dsimp only
  split
  · exact hp
  · split
    · exact hp
    · split
      · rw [wroteAt_mem]; exact memWf_store s1 _ _ _ hp
      · rw [State.signal_mem, wroteAt_mem]
        exact memWf_store _ _ _ _ (memWf_putGranules _ _ _ hp)
theorem memWf_resetBase (s : State) : memWf s.resetBase.mem = true :=
  memWf_foldPut _ _ [] rfl
@[simp] theorem markSpare_mem (s old : State) : (s.markSpare old).mem = s.mem := by
  unfold State.markSpare
  exact (foldl_mem _ _ _ (by intro s x; simp)).trans (by simp)
theorem memWf_resetAgain (s : State) : memWf s.resetAgain.mem = true := by
  rw [State.resetAgain, markSpare_mem]; exact memWf_resetBase s

/-! ### The frame of a trap leaves its thread alone -/

theorem foldl_threads {β : Type} (l : List β) (f : State → β → State) (s : State) (hf : ∀ s x, (f s x).threads = s.threads) :
    (l.foldl f s).threads = s.threads := by
  induction l generalizing s with
  | nil => rfl
  | cons x r ih => exact (ih _).trans (hf s x)

@[simp] theorem dropBytes_threads (s : State) (c : Nat) (va : Word) (dom : BitVec 16) (m : BitVec 32) :
    (s.dropBytes c va dom m).threads = s.threads := rfl
@[simp] theorem storeMasked_threads (s : State) (loc : Nat) (mask : BitVec 32) (data : BitVec 256) (tags : BitVec 2) :
    (s.storeMasked loc mask data tags).threads = s.threads := by
  unfold State.storeMasked
  dsimp only
  split_ifs <;> simp
@[simp] theorem wakeUp_threads (s : State) (h : Nat) (r : WaitRec) (v : Word) (acq : Bool) :
    (s.wakeUp h r v acq).threads = s.threads := by simp [State.wakeUp]
@[simp] theorem lineWritten_threads (s : State) (loc : Nat) : (s.lineWritten loc).threads = s.threads := by
  unfold State.lineWritten
  dsimp only
  split_ifs
  · rfl
  · split
    · rfl
    · repeat' split
      all_goals simp
@[simp] theorem dropViews_threads (s : State) (h : Nat) (va : Word) (n : Nat) : (s.dropViews h va n).threads = s.threads := by
  unfold State.dropViews
  dsimp only
  split <;> simp
@[simp] theorem serveWaitne_threads (s : State) (loc : Nat) : (s.serveWaitne loc).threads = s.threads := by
  unfold State.serveWaitne
  exact (foldl_threads _ _ _ (by intro s x; simp)).trans (by simp)
@[simp] theorem wroteAt_threads (s : State) (loc n : Nat) : (s.wroteAt loc n).threads = s.threads := by
  unfold State.wroteAt
  exact ((foldl_threads _ _ _ (by intro s x; simp)).trans (foldl_threads _ _ _ (by intro s x; simp))).trans rfl
@[simp] theorem wrote_threads (s : State) (va : Word) (loc n : Nat) : (s.wrote va loc n).threads = s.threads := by
  simp [State.wrote]
@[simp] theorem flushBuffer_threads (s : State) (h sector : Nat) : (s.flushBuffer h sector).threads = s.threads := by
  unfold State.flushBuffer
  exact (foldl_threads _ _ _ (by intro s x; simp; split_ifs <;> simp)).trans (by simp)
@[simp] theorem eccError_threads (s : State) (h line i e : Nat) : (s.eccError h line i e).threads = s.threads := by
  unfold State.eccError
  dsimp only
  split_ifs <;> simp [State.setStack]
@[simp] theorem eccLine_threads (s : State) (h line : Nat) (ecc : BitVec 8) : (s.eccLine h line ecc).threads = s.threads := by
  unfold State.eccLine
  exact foldl_threads _ _ _ (by intro s x; simp)
@[simp] theorem fillLine_threads (s : State) (x : LineKey) (ecc : BitVec 8) : (s.fillLine x ecc).threads = s.threads := by
  unfold State.fillLine
  dsimp only
  simp only [State.sampleHome, State.modHome_threads, State.countHome_threads, State.draw]
  exact foldl_threads _ _ _ (by intro s x; simp)
@[simp] theorem needLine_threads (s : State) (loc : Nat) (w : Bool) : (s.needLine loc w).threads = s.threads := by
  unfold State.needLine
  dsimp only
  split_ifs <;> simp
@[simp] theorem waitRaise_threads (s : State) (va : Word) (n : Nat) : (s.waitRaise va n).threads = s.threads := by
  unfold State.waitRaise; split <;> rfl
@[simp] theorem dropSent_threads (s : State) (c : Nat) (va : Word) (me : Owner) (m : BitVec 32) :
    (s.dropSent c va me m).threads = s.threads := rfl
@[simp] theorem register_threads (s : State) (loc : Nat) (me : Owner) : (s.register loc me).1.threads = s.threads := by
  unfold State.register
  dsimp only
  split_ifs <;> simp

/-- Threads that differ in what a store records only: BANKMASK and the sectors registered, written or sent through. -/
def SameButStores (x y : Thread) : Prop :=
  y = { x with bankmask := y.bankmask, epoch := y.epoch, written := y.written, shed := y.shed }
theorem SameButStores.trans {x y z : Thread} (h : SameButStores x y) (h' : SameButStores y z) : SameButStores x z := by
  unfold SameButStores at *; rw [h'] ; rw [h]

theorem modThread_thread {s : State} {t : Nat} {th : Thread} (f : Thread → Thread) (h : s.thread t = some th) :
    (s.modThread t f).thread t = some (f th) := by
  unfold State.modThread
  rw [h]
  exact tfind_tput_same ..

theorem writeSector_thread {s s2 : State} {t : Nat} {va : Word} {a b : Val} {th : Thread} (ht : s.thread t = some th)
    (h : writeSector s t va a b = .ok s2) : ∃ y, s2.thread t = some y ∧ SameButStores th y := by
  simp only [writeSector, ht] at h
  split at h
  · cases h
  · rename_i loc hl
    split at h
    · cases h
    · have key : ∀ (s3 : State), s3.threads = s.threads → ∀ f, (s3.modThread t f).thread t = some (f th) :=
        fun s3 h3 f => modThread_thread f (by rw [State.thread, h3]; exact ht)
      generalize hq : (State.modThread _ t _) = s4 at h
      have k1 : s4.thread t = some { th with bankmask := th.bankmask ||| bankBit (holder loc) } := by
        rw [← hq]
        exact key _ (by simp only [wrote_threads, storeMasked_threads, flushBuffer_threads, needLine_threads, waitRaise_threads, dropSent_threads]
                        split_ifs <;> simp) _
      split_ifs at h
      · split at h
        · cases h
        · cases h
          exact ⟨_, modThread_thread (th := { th with bankmask := th.bankmask ||| bankBit (holder loc) }) _
            (by rw [State.thread, register_threads]; exact k1), rfl⟩
        · cases h
          exact ⟨_, modThread_thread (th := { th with bankmask := th.bankmask ||| bankBit (holder loc) }) _
            (by rw [State.thread, register_threads]; exact k1), rfl⟩
      · cases h
        exact ⟨_, k1, rfl⟩

theorem writeGranules_thread (l : List Val) {s s2 : State} {t : Nat} {va : Word} {th : Thread} (ht : s.thread t = some th)
    (h : writeGranules s t va l = .ok s2) : ∃ y, s2.thread t = some y ∧ SameButStores th y := by
  induction l using List.twoStepInduction generalizing s va th with
  | nil => cases h; exact ⟨th, ht, rfl⟩
  | singleton a => exact writeSector_thread ht h
  | cons_cons a b r ih _ =>
    simp only [writeGranules] at h
    split at h
    · cases h
    · rename_i s1 h1
      obtain ⟨y, hy, e⟩ := writeSector_thread ht h1
      obtain ⟨z, hz, e'⟩ := ih hy h
      exact ⟨z, hz, e.trans e'⟩

/-- Writing a trap's frame changes nothing of its thread but what a store records. -/
theorem writeFrame_thread {s s2 : State} {t : Nat} {p : TrapPlan} {th : Thread} (ht : s.thread t = some th)
    (h : writeFrame s t p = .ok s2) : ∃ y, s2.thread t = some y ∧ SameButStores th y := by
  unfold writeFrame at h
  dsimp only at h
  split_ifs at h
  split at h
  · cases h
  · split at h
    · cases h
    · rename_i h1
      cases h
      exact writeGranules_thread _ ht h1

end Sys2Proof.Machine
end

