-- ==== Sys2Proof/Tests/Slice0.lean ====
section
/-!
SUPPORT. Tests: the smoke of the well-formedness checks, words of the spec decoded, single steps and operations checked against the
spec's own tables and examples, and a witness for the hypotheses of each obligation.
-/

namespace Sys2Proof.Tests

set_option maxRecDepth 100000
set_option Elab.async false

open Sys2Proof Sys2Proof.Machine

/-! ### Well-formedness: an ill-formed term for each check -/

def np : Pfx := Pfx.empty
/-- A kind 0x01 prefix. -/
def ar (round : BitVec 3) (sat pass : Bool) : Pfx := ⟨some ⟨round, sat, pass⟩, none, none⟩
/-- A kind 0x03 prefix. -/
def wd (type : BitVec 6) (sx : Option Opn) : Pfx := ⟨none, none, some ⟨type, sx⟩⟩

theorem test_wf_prefixes :
    wellFormed (.vadd ⟨ar 7 false false, 9, 0, 5, 6⟩ 7 false) = false ∧
    wellFormed (.vadd ⟨wd 27 none, 0, 0, 5, 6⟩ 7 false) = false ∧
    wellFormed (.vadd ⟨wd 0 none, 9, 0, 5, 6⟩ 7 false) = false ∧
    wellFormed (.vcvt ⟨⟨some ⟨1, false, false⟩, some ⟨3, false⟩, some ⟨9, none⟩⟩, 0, 0, 5, 6⟩ 256 11 false false) = false ∧
    wellFormed (.add ⟨ar 1 false false, 0, 6, 2, .imm 1⟩) = false ∧
    wellFormed (.and ⟨ar 0 true false, 0, 6, 2, .imm 1⟩) = false ∧
    wellFormed (.vabs ⟨ar 1 false false, 9, 0, 5, 6⟩) = false ∧
    wellFormed (.mov ⟨ar 0 true false, 6, 2⟩) = false ∧
    wellFormed (.vscale ⟨wd 9 (some 3), 0, 0, 5, 6⟩ 7) = false ∧
    wellFormed (.vadd ⟨wd 9 (some 3), 0, 0, 5, 6⟩ 7 false) = false := by decide +kernel

theorem test_wf_scalar :
    wellFormed (.add ⟨np, 1, 6, 2, .imm 1⟩) = false ∧ wellFormed (.div ⟨np, 1, 256, 2, .imm 1⟩) = false ∧
    wellFormed (.sext ⟨np, 0, 6, 2, .imm 64⟩) = false ∧ wellFormed (.bfx ⟨np, false, 6, 2, 60, 4⟩) = false ∧
    wellFormed (.bfi ⟨np, 6, 2, 3, 1, 63⟩) = false ∧ wellFormed (.candp ⟨np, 0, 6, 2, .imm 4096⟩) = false ∧
    wellFormed (.rds 6 0x00C) = false ∧ wellFormed (.wrs 6 0x108) = false ∧ wellFormed (.halt (.imm 256)) = false := by decide +kernel

theorem test_wf_packed :
    wellFormed (.vadd ⟨wd 9 none, 9, 0, 5, 6⟩ 7 false) = false ∧ wellFormed (.vadd ⟨np, 12, 0, 5, 6⟩ 7 false) = false ∧
    wellFormed (.vand ⟨np, 5, 0, 5, 6⟩ 7 false) = false ∧ wellFormed (.vshl ⟨np, 5, 0, 5, 6⟩ (.imm 64)) = false ∧
    wellFormed (.vcvt ⟨np, 9, 0, 5, 6⟩ 256 0 false false) = false ∧ wellFormed (.vcvt ⟨np, 9, 0, 5, 6⟩ 7 11 false false) = false ∧
    wellFormed (.vred ⟨np, 9, 0, 5, 6⟩ 3) = false ∧ wellFormed (.vexp2 ⟨np, 11, 0, 5, 6⟩ 0) = false ∧
    wellFormed (.vexp2 ⟨np, 9, 0, 256, 6⟩ 1) = false ∧ wellFormed (.plnenc ⟨np, 2, 3, 8, 16⟩) = false ∧
    wellFormed (.plnenc ⟨np, 1, 2, 8, 16⟩) = false ∧ wellFormed (.plndec ⟨np, 1, 3, 8, 16⟩ 9) = false ∧
    wellFormed (.vverd ⟨np, 11, 0, 5, 6⟩ true) = false ∧ wellFormed (.lld ⟨np, 0, 5, 0, 8, 256, .imm 0⟩) = false ∧
    wellFormed (.lst ⟨np, 1, 0, 0, 256, 8, .imm 0⟩) = false ∧ wellFormed (.ladd ⟨np, 0, 1, 0, 256, 8, .imm 0⟩) = false ∧
    wellFormed (.lld ⟨np, 0, 0, 0, 8, 256, .imm 1024⟩) = false := by decide +kernel

theorem test_wf_curve :
    wellFormed (.cqpack np 5 8 1) = false ∧ wellFormed (.cqsetd np 5 8 9) = false ∧
    wellFormed (.cqinbox ⟨np, 1, 5, 4, 6, 7⟩) = false ∧ wellFormed (.cqnext ⟨np, 1, 256, 4, 6, 7⟩) = false ∧
    wellFormed (.cqsplit ⟨np, 0, 4, 1, 6, 7, 256, 0, 0⟩) = false ∧ wellFormed (.cqsplit ⟨np, 0, 4, 1, 6, 7, 256, 257, 0⟩) = false :=
  by decide +kernel

theorem test_wf_memory :
    wellFormed (.ld ⟨np, 0, 4, 1, .imm 0⟩ 6 false false) = false ∧ wellFormed (.ld ⟨np, 0, 4, 1, .imm 0⟩ 4 true false) = false ∧
    wellFormed (.ld ⟨np, 1, 4, 1, .imm 0⟩ 3 false true) = false ∧ wellFormed (.st ⟨np, 0, 4, 1, .imm 0⟩ 6 false) = false ∧
    wellFormed (.st ⟨np, 1, 4, 1, .imm 0⟩ 3 false) = false ∧ wellFormed (.lda ⟨np, 0, 4, 1, .imm 0⟩ 5) = false ∧
    wellFormed (.stl ⟨np, 0, 4, 1, .imm 0⟩ 5) = false ∧ wellFormed (.ldcap ⟨np, 1, 256, 1, .imm 0⟩) = false ∧
    wellFormed (.fill ⟨np, 1, 9, 21, .imm 32⟩) = false ∧ wellFormed (.amo ⟨np, 1, 5, 2, 6, 0, .add, .acq, true⟩) = false ∧
    wellFormed (.cas ⟨np, 1, 5, 2, 6, 7, 0, .rel, true⟩) = false ∧ wellFormed (.topkins ⟨np, 1, 256, 4, 5, 6, 0⟩) = false ∧
    wellFormed (.wayconv np 9 256 9) = false ∧ wellFormed (.engst ⟨np, 1, 256, .imm 0⟩) = false := by decide +kernel

theorem test_wf_marks_tiles :
    wellFormed (.mdep ⟨np, 1, 6, 1, 5, 3⟩) = false ∧ wellFormed (.mread ⟨np, 1, 256, 1, 5, 3⟩) = false ∧
    wellFormed (.msense ⟨np, 1, 256, 1, 6, 7, 3⟩) = false ∧
    wellFormed (.mmaT32 ⟨ar 6 false false, 0, 4, 5, 256, 256, 0, 0, 11, 11, 0, 0, .none, false, true⟩) = false ∧
    wellFormed (.mmaT32 ⟨np, 0, 4, 5, 256, 256, 0, 0, 3, 11, 0, 0, .none, false, true⟩) = false ∧
    wellFormed (.smmaT32 ⟨np, 0, 4, 5, 256, 256, 0, 0, 10, 1, 0, 1, .none, false, true⟩) = false ∧
    wellFormed (.mmaT16 ⟨np, 0, 4, 5, 256, 256, 0, 0, 1, 1, 1, 0, .none, false, true⟩) = false ∧
    wellFormed (.mmaT32 ⟨np, 0, 4, 5, 256, 256, 0, 0, 11, 11, 1, 0, .none, false, true⟩) = false ∧
    wellFormed (.mmaT32 ⟨np, 0, 4, 5, 256, 256, 0, 0, 1, 1, 1, 1, .none, true, true⟩) = false ∧
    wellFormed (.macld ⟨np, 0, 4, false, 5, 8⟩) = false ∧ wellFormed (.macst ⟨ar 6 false false, 0, 4, false, false, 8⟩) = false ∧
    wellFormed (.vbound ⟨np, 5, 6, 7, 8, false, 11, 1, 1, 3⟩) = false := by decide +kernel

theorem test_wf_tasks :
    wellFormed (.spawn ⟨9, 4, 5⟩ 256 64) = false ∧ wellFormed (.crew ⟨6, 8, 256⟩ (some 1)) = false ∧
    wellFormed (.crew ⟨6, 8, 256⟩ (some 9)) = false ∧ wellFormed (.threadTurn 0) = false ∧ wellFormed .deviceReset = false := by decide +kernel

/-! ### Decoding: words of the spec's own encodings -/

theorem test_decode_scalar :
    decodeTableWord 64 0x0001030001018005 = some (.add ⟨np, 0, 6, 2, .imm 1⟩) ∧
    decodeTableWord 64 0x0001030002814009 = some (.sub ⟨np, 0, 5, 5, .imm 1⟩) ∧
    
    decodeTableWord 96 0x00000054000201008001009A = some (.li np 4 false 84) ∧
    decodeTableWord 128 0x3F803F803F803F80040201008002009F = some (.liw np 8 false 0x3F803F803F803F80) ∧
    decodeTableWord 64 0x0000000502018425 = some (.remu ⟨np, 1, 6, 4, .reg 5⟩) ∧
    decodeTableWord 64 0x0000010002810095 = some (.mov ⟨np, 4, 5⟩) ∧
    decodeTableWord 64 0x0004010001C003CD = some (.wrs 3 4) := by decide +kernel

theorem test_decode_control :
    decodeTableWord 64 0xFFF9010002C000E1 = some (.bnz 5 0xFFF9) ∧ decodeTableWord 64 0x00140100054000DD = some (.bz 10 20) ∧
    decodeTableWord 64 0xFFEE0100804000C1 = some (.br 0xFFEE) ∧ decodeTableWord 64 0xFFFE01008002C0ED = some (.loop 11 0xFFFE) ∧
    decodeTableWord 96 0x00000005000201008007C0E6 = some (.call 31 5) ∧ decodeTableWord 64 0x000001000FC000E9 = some (.jmpc 256 31) ∧
    decodeTableWord 64 0xF1 = some .nop ∧ decodeTableWord 64 0x1F1 = none := by decide +kernel

theorem test_decode_packed :
    decodeTableWord 128 0x00003612080401410000000000002804 = some (.vadd ⟨ar 2 true false, 11, 1, 16, 16⟩ 18 false) ∧
    decodeTableWord 128 0x00003612080501490000000000002404 = some (.vmul ⟨ar 1 true false, 11, 1, 20, 16⟩ 18 false) ∧
    decodeTableWord 96 0x00000000893813000403017E = some (.vcvt ⟨np, 14, 0, 12, 8⟩ 9 9 false true) ∧
    decodeTableWord 96 0x000000000024100E0782014E = some (.vfma ⟨np, 9, 0, 8, 15⟩ 14 8 false) ∧
    decodeTableWord 64 0x0000120904020149 = some (.vmul ⟨np, 9, 0, 8, 8⟩ 9 false) := by decide +kernel

theorem test_decode_curve :
    decodeTableWord 64 0x01010300020141C9 = some (.cqadd np 5 4 (.step 1 1) false) ∧
    decodeTableWord 128 0x000000000000000204000E06008101DF = some (.cqsplit ⟨np, 0, 4, 1, 6, 7, 256, 2, 0⟩) ∧
    decodeTableWord 128 0x000000000000000404001208070325DF = some (.cqsplit ⟨np, 9, 12, 14, 8, 9, 256, 4, 0⟩) ∧
    decodeTableWord 64 0x000201000381C1E1 = some (.cqsetd np 7 7 2) := by decide +kernel

theorem test_decode_memory :
    decodeTableWord 64 0x00101B0000810601 = some (.ld ⟨np, 1, 4, 1, .imm 16⟩ 3 false false) ∧
    decodeTableWord 64 0x0000181D08814205 = some (.st ⟨np, 0, 5, 17, .reg 29⟩ 3 false) ∧
    decodeTableWord 64 0x00202B0002028205 = some (.st ⟨np, 0, 10, 4, .imm 32⟩ 5 false) ∧
    decodeTableWord 64 0x00081B000603C209 = some (.lda ⟨np, 0, 15, 12, .imm 8⟩ 3) ∧
    decodeTableWord 64 0x00001B000101820D = some (.stl ⟨np, 0, 6, 2, .imm 0⟩ 3) ∧
    decodeTableWord 64 0x0000841B07070219 = some (.amo ⟨np, 0, 28, 14, 27, 0, .or, .rlx, true⟩) ∧
    decodeTableWord 64 0x0000030004038221 = some (.wld ⟨np, 0, 14, 8, .imm 0⟩ false) ∧
    decodeTableWord 64 0x0000000D05838221 = some (.wld ⟨np, 0, 14, 11, .reg 13⟩ false) ∧
    decodeTableWord 64 0x002003000A824225 = some (.fill ⟨np, 0, 9, 21, .imm 32⟩) ∧
    decodeTableWord 64 0x0000150080400235 = some (.fence np .full .dev) ∧
    decodeTableWord 96 0x0000000000000C0502024242 = some (.topkins ⟨np, 0, 9, 4, 5, 6, 0⟩) ∧
    decodeTableWord 128 0x000000000000000110200C050201C247 = some (.copy ⟨np, 7, 4, 5, 6, 8, .fill, 1⟩) := by decide +kernel

theorem test_decode_marks :
    decodeTableWord 64 0x0003000500818281 = some (.mdep ⟨np, 0, 6, 1, 5, 3⟩) ∧
    decodeTableWord 96 0x0000000300000E0600828286 = some (.msense ⟨np, 0, 10, 1, 6, 7, 3⟩) ∧
    decodeTableWord 96 0x0000000300000E060082828A = some (.msamp ⟨np, 0, 10, 1, 6, 7, 3⟩) ∧
    decodeTableWord 64 0x000300050082028D = some (.mread ⟨np, 0, 8, 1, 5, 3⟩) ∧
    decodeTableWord 64 0x0003000500C00291 = some (.merase ⟨np, 0, 256, 1, 5, 3⟩) ∧
    decodeTableWord 64 0x0003010000824295 = some (.mtick ⟨np, 9, 1, 3⟩) ∧
    decodeTableWord 64 0x0003010001024299 = some (.mbind ⟨np, 9, 2, 3⟩) ∧
    decodeTableWord 64 0x000301008002429D = some (.munbind np 9 3) := by decide +kernel

theorem test_decode_tiles :
    decodeTableWord 128 0x000B504100100010001C0C0502000317 =
      some (.mmaQ ⟨np, 0, 4, 5, 6, 7, 16, 16, 1, 1, 1, 1, .topk, false, true⟩) ∧
    decodeTableWord 128 0x000802CB000000000402000703000303 =
      some (.mmaT32 ⟨np, 0, 6, 7, 256, 256, 0, 0, 11, 11, 0, 0, .none, false, true⟩) ∧
    decodeTableWord 64 0x000001008000832D = some (.macz np 2 false) ∧ decodeTableWord 64 0x000003008000832D = some (.macz np 2 true) ∧
    decodeTableWord 96 0x000900080002010005800336 = some (.macst ⟨np, 0, 11, false, false, 8⟩) ∧
    decodeTableWord 64 0x0007010004000339 = some (.mdrain np 0 8 7) ∧
    decodeTableWord 96 0x00000000000200150A40033E = some (.mhset np 20 21) ∧
    decodeTableWord 64 0x0000010080400341 = some .hend := by decide +kernel

theorem test_decode_tasks :
    decodeTableWord 96 0x000000FF0002000502024382 = some (.spawn ⟨9, 4, 5⟩ 256 0xFF) ∧
    decodeTableWord 64 0x0000000780400385 = some (.yield ⟨256, 256, 7⟩) ∧
    decodeTableWord 64 0x0000010080400389 = some (.endTask ⟨256, 256, 256⟩) ∧
    decodeTableWord 64 0x000001000181838D = some (.join ⟨6, 3, 256⟩) ∧
    decodeTableWord 64 0x0000010001C00391 = some (.leave ⟨256, 3, 256⟩) ∧
    decodeTableWord 64 0x0000010001C00395 = some (.gbar ⟨256, 3, 256⟩) ∧
    decodeTableWord 64 0x0004030004018399 = some (.crew ⟨6, 8, 256⟩ (some 4)) ∧
    decodeTableWord 64 0x000003000582839D = some (.qstatTask ⟨10, 11, 256⟩) ∧
    decodeTableWord 64 0x00640300804003A1 = some (.sleep ⟨256, 256, 256⟩ (some 100)) := by decide +kernel

theorem test_decode_system :
    decodeTableWord 64 0x0000010000C003C5 = some (.rte 1) ∧ decodeTableWord 64 0x00050100804003C1 = some (.trap 5) ∧
    decodeTableWord 64 0x00010100804003E5 = some (.brk 1) ∧ decodeTableWord 64 0x00000100800243DD = some (.dump 9) ∧
    decodeTableWord 64 0x00000002804003E1 = some (.halt (.reg 2)) ∧ decodeTableWord 64 0x00230300804003E1 = some (.halt (.imm 35)) ∧
    decodeTableWord 128 0x0000000218711A00001C0C05020243DB = some (.gang ⟨9, 4, 5, 6, 7, 9000000000⟩) ∧
    decodeTableWord 64 0x00000100800103D1 = some (.repart 4 false) ∧ decodeTableWord 64 0x00000300800103D1 = some (.repart 4 true) ∧
    decodeTableWord 128 0x000000000000000004020100020243EB = some (.leaseAdd ⟨9, 4, 256, 256, 256, 0⟩) ∧
    decodeTableWord 128 0x00000000000000001C020100020243EB = some (.leaseUnmapForce ⟨9, 4, 256, 256, 256, 0⟩) ∧
    decodeTableWord 64 0x00000100020243D5 = some (.plbinv 9 4 256 .page) ∧
    decodeTableWord 64 0x00000500800243D5 = some (.plbinv 9 256 256 .all) ∧
    decodeTableWord 64 0x00000005020243ED = some (.pgmove 9 4 5) := by decide +kernel

/-! ### Helpers: one instruction staged in the scratchpad of core 0 -/

/-- Every permission over the scratchpad of the own core. -/
def full : Quad := capBounds 0xFFF 0xF000000000000000 0xF000000000030000

/-- Instruction i, encoded where the thread in slot t of core 0 fetches next; f sets the thread up, g the device. -/
def stage (t : Nat) (i : Instr) (f : Thread → Thread) (g : State → State) : State :=
  let s0 := State.reset.withFetchWord 256 (leNat (encode i))
  let th := f { Thread.blank with ranges := [full] }
  let s := g { s0 with threads := [(t, th)], cur := t }
  match s.thread t with
  | some th => { s with unit := (fetchNext s t th).unit }
  | none => s

/-- A thread with the given data registers. -/
def regs (l : List (Nat × Nat)) (th : Thread) : Thread :=
  l.foldl (fun t x => t.setReg x.1 (Val.data (BitVec.ofNat 128 x.2))) th
/-- A thread with the given capability registers. -/
def caps (l : List (Nat × Quad)) (th : Thread) : Thread := l.foldl (fun t x => t.setReg x.1 ⟨x.2, true⟩) th

/-- The thread after i has executed. -/
def after (i : Instr) (f : Thread → Thread) : Option Thread :=
  match exec i (stage 0 i f id) with
  | .next s => s.thread 0
  | _ => none
/-- Register k after i. -/
def reg (i : Instr) (f : Thread → Thread) (k : Nat) : Option Nat := (after i f).map (fun th => (th.reg k).v.bits.toNat)
/-- The values on their way to i's destinations. -/
def later (i : Instr) (f : Thread → Thread) : Option (List Nat) :=
  match (after i f).map (·.ops) with
  | some [o] => match o.phase with | .done vs => some (vs.map (·.bits.toNat)) | _ => none
  | _ => none
/-- A posted store that nobody has acknowledged yet. -/
def posted : Op := State.reset.newOp .posted .placed (.sent 1) 0
/-- The code with which i traps, its trap waiting for a posted store. -/
def traps (i : Instr) (f : Thread → Thread) : Option Code :=
  match (after i (fun th => f { th with ops := [posted] })).map (·.status) with
  | some (Status.trapping c _ _ _ _ _ _) => c
  | _ => none

/-! ### Results: the spec's tables and examples -/

def minus (n : Nat) : Nat := 2 ^ 64 - n

-- 06, the corner cases.
theorem test_div_truncates : later (.div ⟨np, 0, 7, 1, .reg 2⟩) (regs [(1, minus 7), (2, 2)]) = some [0xFFFFFFFFFFFFFFFD] := by decide +kernel
theorem test_div_wraps : later (.div ⟨np, 0, 7, 1, .reg 2⟩) (regs [(1, 2 ^ 63), (2, minus 1)]) = some [2 ^ 63] := by decide +kernel
theorem test_rem : later (.rem ⟨np, 0, 7, 1, .reg 2⟩) (regs [(1, minus 7), (2, 2)]) = some [minus 1] := by decide +kernel
theorem test_divu_by_zero : later (.divu ⟨np, 0, 7, 1, .reg 256⟩) (regs [(1, 40)]) = some [minus 1] := by decide +kernel
theorem test_remu_by_zero : later (.remu ⟨np, 0, 7, 1, .reg 256⟩) (regs [(1, 40)]) = some [40] := by decide +kernel
theorem test_mulh : reg (.mulh ⟨np, 0, 7, 1, .reg 2⟩) (regs [(1, minus 1), (2, 3)]) 7 = some (minus 1) := by decide +kernel
theorem test_mulhu : reg (.mulhu ⟨np, 0, 7, 1, .reg 2⟩) (regs [(1, minus 1), (2, 3)]) 7 = some 2 := by decide +kernel
theorem test_sra_200 : reg (.sra ⟨np, 0, 7, 1, .imm 200⟩) (regs [(1, minus 5)]) 7 = some (minus 1) := by decide +kernel
theorem test_add_sat : reg (.add ⟨ar 0 true false, 0, 7, 1, .reg 2⟩) (regs [(1, 2 ^ 63 - 10), (2, 20)]) 7 = some (2 ^ 63 - 1) := by
  decide
theorem test_add_wraps : reg (.add ⟨np, 0, 7, 1, .reg 2⟩) (regs [(1, minus 1), (2, 3)]) 7 = some 2 := by decide +kernel
theorem test_sext : reg (.sext ⟨np, 0, 7, 1, .imm 12⟩) (regs [(1, 0xA35)]) 7 = some 0xFFFFFFFFFFFFFA35 := by decide +kernel
theorem test_bfx : reg (.bfx ⟨np, true, 7, 1, 4, 7⟩) (regs [(1, 0xA35)]) 7 = some 0xFFFFFFFFFFFFFFA3 := by decide +kernel
-- 06 R128, R129: MOV keeps the tag; LIW.hi keeps the low word.
theorem test_mov_tag : (after (.mov ⟨np, 7, 1⟩) (caps [(1, full)])).map (fun th => (th.reg 7).v) = some ⟨full, true⟩ := by decide +kernel
theorem test_liw_hi : reg (.liw np 7 true 5) (regs [(7, 9)]) 7 = some (5 * 2 ^ 64 + 9) := by decide +kernel
theorem test_li : reg (.li np 7 false 0xFFFFFFFF) id 7 = some (minus 1) ∧ reg (.li np 7 true 0xFFFFFFFF) id 7 = some 0xFFFFFFFF := by
  decide

/-- The 8 KiB buffer of R107, cursor 0x403800. -/
def buffer : Quad := 0x00030002000060000000000000403800
/-- The parent of the CSETB table of 06: [0x10000000, 0x20000000) with R and W, its cursor at c. -/
def parent (c : Word) : Quad := (capMove ⟨capBounds 3 0x10000000 0x20000000, true⟩ c).bits

-- 05 R107.
theorem test_capability_fields : capBase buffer = 0x403000 ∧ capTop buffer = 0x405000 ∧ capPerms buffer = 3 ∧ capKind buffer = 0 ∧
    capE buffer = 0 := by decide +kernel
theorem test_cinc_keeps_tag : (after (.cinc ⟨np, 0, 5, 4, .reg 1⟩) (fun th => caps [(4, buffer)] (regs [(1, 0x7F000)] th))).map
    (fun th => ((th.reg 5).v.tag, capBase (th.reg 5).v.bits, capTop (th.reg 5).v.bits)) = some (true, 0x403000, 0x405000) := by decide +kernel
theorem test_capability_window : capCheck ⟨buffer, true⟩ permR 0x404FF8 8 8 = none ∧
    capCheck ⟨buffer, true⟩ permR 0x405000 8 8 = some .bounds := by decide +kernel
-- 06 R138 and its table.
theorem test_csetb : reg (.csetb ⟨np, 0, 5, 4, .imm 0x400⟩) (caps [(4, buffer)]) 5 = some 0x00030000000010000000000000403800 := by
  decide
theorem test_csetb_exact : (after (.csetb ⟨np, 0, 5, 4, .reg 1⟩) (fun th => caps [(4, parent 0x12345640)] (regs [(1, 0x1000000)] th))).map
    (fun th => let q := (th.reg 5).v.bits; (capE q, capDL q, capDT q)) = some (6, 0, 0x40000) := by decide +kernel
theorem test_csetb_inexact : traps (.csetb ⟨np, 0, 5, 4, .reg 1⟩)
    (fun th => caps [(4, parent 0x12345678)] (regs [(1, 0x1000000)] th)) = some .boundsInexact := by decide +kernel
theorem test_csetb_bounds : traps (.csetb ⟨np, 0, 5, 4, .reg 1⟩)
    (fun th => caps [(4, parent 0x1FF00000)] (regs [(1, 0x200000)] th)) = some .bounds := by decide +kernel

-- 07, the VCVT example and its reverse.
theorem test_vcvt : (after (.vcvt ⟨np, 14, 0, 12, 8⟩ 9 9 false true)
    (regs [(8, 0x3F40000041200000C020000040400000), (9, 0x80)])).map
      (fun th => ((th.reg 12).v.bits.toNat, th.flags.nx)) = some (0x16A3, true) := by decide +kernel
theorem test_vcvt_reverse : reg (.vcvt ⟨np, 9, 0, 16, 12⟩ 9 14 false true) (regs [(12, 0x16A3), (9, 0x80)]) 16 =
    some 0x3F80000041000000C000000040400000 := by decide +kernel
-- 04 R75, R77: wrap, saturate and round to nearest even.
theorem test_vadd_wraps : reg (.vadd ⟨np, 1, 0, 5, 6⟩ 7 false) (regs [(6, 0x7F), (7, 1)]) 5 = some 0x80 := by decide +kernel
theorem test_vadd_saturates : reg (.vadd ⟨ar 0 true false, 1, 0, 5, 6⟩ 7 false) (regs [(6, 0x7F), (7, 1)]) 5 = some 0x7F := by decide +kernel
theorem test_vmul_f32 : reg (.vmul ⟨np, 9, 0, 5, 6⟩ 7 false) (regs [(6, 0x40400000), (7, 0xC0200000)]) 5 = some 0xC0F00000 := by decide +kernel
theorem test_vfma_f32 : reg (.vfma ⟨np, 9, 0, 5, 6⟩ 7 8 false) (regs [(6, 0x40400000), (7, 0x40000000), (8, 0x3F800000)]) 5 =
    some 0x40E00000 := by decide +kernel
theorem test_abandoned_traps : traps (.vadd ⟨np, 9, 0, 5, 6⟩ 7 false) (regs [(6, 0x7FA0000A)]) = some .abandonedOperand := by decide +kernel
theorem test_vred : reg (.vred ⟨np, 5, 0, 5, 6⟩ 0) (regs [(6, 1 + 2 * 2 ^ 32 + 3 * 2 ^ 64 + 4 * 2 ^ 96)]) 5 = some 10 := by decide +kernel
theorem test_vperm : reg (.vperm ⟨np, 5, 0, 5, 6⟩ 7) (regs [(6, 1 + 2 * 2 ^ 32), (7, 1)]) 5 = some (2 + 2 ^ 32 + 2 ^ 64 + 2 ^ 96) := by
  decide
theorem test_vunpk_sign : reg (.vunpk ⟨np, 3, 0, 5, 6⟩ false) (regs [(6, 0xFFFF)]) 5 = some 0xFFFFFFFF := by decide +kernel

/-- The two-dimensional code with the given digits (08). -/
def c2 (digits : Nat) : Nat := 2 * 2 ^ 116 + digits
def box : List (Nat × Nat) := [(6, c2 3), (7, c2 12)]

-- 08, the worked codes.
theorem test_cqpack : reg (.cqpack np 5 10 2) (regs [(10, 5 + 3 * 2 ^ 64)]) 5 = some (c2 27) := by decide +kernel
theorem test_cqadd : reg (.cqadd np 5 4 (.step 1 1) false) (regs [(4, c2 27)]) 5 = some (c2 49) := by decide +kernel
theorem test_cqsub_flag : (reg (.cqsub np 5 4 (.step 0 6) false) (regs [(4, c2 27)]) 5).map (fun q => q / 2 ^ 120) = some 1 ∧
    (reg (.cqsub np 5 4 (.step 0 6) true) (regs [(4, c2 27)]) 5).map (fun q => q / 2 ^ 120) = some 0 := by decide +kernel
theorem test_cqcmp : reg (.cqcmp ⟨np, 5, 4, 6⟩) (regs [(4, c2 27), (6, c2 49)]) 5 = some (minus 1) := by decide +kernel
theorem test_cqtrunc : reg (.cqtrunc np 5 4 (.imm 1) false) (regs [(4, c2 27)]) 5 = some (c2 24) := by decide +kernel
theorem test_cqtrunc_up : reg (.cqtrunc np 5 4 (.imm 1) true) (regs [(4, c2 27)]) 5 = some (c2 6) := by decide +kernel
theorem test_cqnext : later (.cqnext ⟨np, 0, 5, 4, 6, 7⟩) (regs ((4, c2 4) :: box)) = some [c2 6] := by decide +kernel
theorem test_cqnext_end : later (.cqnext ⟨np, 0, 5, 4, 6, 7⟩) (regs ((4, c2 13) :: box)) = some [0x002F0000000000000000000000000000] := by
  decide
theorem test_cqinbox : reg (.cqinbox ⟨np, 0, 5, 4, 6, 7⟩) (regs ((4, c2 10) :: box)) 5 = some 0 ∧
    reg (.cqinbox ⟨np, 0, 5, 4, 6, 7⟩) (regs ((4, c2 9) :: box)) 5 = some 1 := by decide +kernel
theorem test_cqsplit :
    let q := fun n => BitVec.ofNat 128 (c2 n)
    let e := fun (a b : Quad) => (b ++ a : BitVec 256)
    splitEntries (q 3) (q 3) (q 12) 0 2 = ([e (q 3) (q 3), e (q 6) (q 6)], Val.ofWord 2, Val.data (q 9)) ∧
    splitEntries (q 9) (q 3) (q 12) 0 2 = ([e (q 9) (q 9), e (q 12) (q 12)], Val.ofWord 0x8000000000000002, Val.zero) ∧
    splitEntries (q 3) (q 3) (q 12) 2 2 = ([e (q 3) (q 12)], Val.ofWord 0x8000000000000001, Val.zero) := by decide +kernel

/-- A top-k list as bytes 0x00 to 0x17 of R265's example, at the storage address 2^40. -/
def topList : State := (((((State.reset.store (2 ^ 40) 4 0xFF800000).store (2 ^ 40 + 4) 4 0x00020004).store (2 ^ 40 + 8) 8
  0x0000000741180000)).store (2 ^ 40 + 16) 8 0x0000000240400000)
/-- The list after some insertions, and the last answer. -/
def inserted (l : List (BitVec 32 × BitVec 32)) : State × Reply :=
  l.foldl (fun r x => r.1.topkInsert 0 (Thread.blank.owner 0) 0xF000000000000000 (2 ^ 40) (2 ^ 64) x.1 x.2) (topList, .answer [])

-- 11, the top-k example, steps 1 to 5.
theorem test_topkins_answers :
    (inserted [(0x40A00000, 11)]).2 = .answer [Val.ofWord 0x00000001FF800000] ∧
    (inserted [(0x40A00000, 11), (0x3F800000, 4)]).2 = .answer [Val.ofWord 0x000000033F800000] ∧
    (inserted [(0x40A00000, 11), (0x3F800000, 4), (0x3F800000, 9), (0x40800000, 8)]).2 = .answer [Val.ofWord 0x0000000240400000] ∧
    (inserted [(0x40A00000, 11), (0x3F800000, 4), (0x3F800000, 9), (0x40800000, 8), (0x7FA0000A, 1)]).2 =
      .answer [Val.ofWord 0x0000FFFF40400000] := by decide +kernel
theorem test_topkins_entries : topkEntries (inserted [(0x40A00000, 11), (0x3F800000, 4), (0x40800000, 8)]).1 (2 ^ 40) 4 =
    [(0x41180000, 7), (0x40A00000, 11), (0x40800000, 8), (0x40400000, 2)] := by decide +kernel

/-- A bound domain whose descriptor holds the points (0, 64), (10, 16), (20, 0) and five times (20, 0), and KEEP−1 127. -/
def cooling : MarkDomain := { MarkDomain.reset with
  bound := true, desc := List.replicate 33 0 ++ [127] ++ List.replicate 30 0
    ++ [0, 0, 0, 0, 64, 0, 0, 0, 10, 0, 0, 0, 16, 0, 0, 0]
    ++ (List.replicate 6 ([20, 0, 0, 0, 0, 0, 0, 0] : List Byte)).flatten }
-- 12 R286, R287, R294, R297, R298.
theorem test_temper : cooling.temper 4 = 44 ∧ cooling.temper 15 = 8 ∧ cooling.temper 20 = 0 ∧ cooling.temper (2 ^ 40) = 0 := by decide +kernel
theorem test_cool : cooling.keepN = 128 ∧ coolWord 128 4 (cellWord 3 100) = 50 ∧ coolWord 128 5 (cellWord 4 200) = 100 ∧
    coolWord 128 4 (cellWord 4 200) = 200 := by decide +kernel
theorem test_msamp : sampVals 2 16 0xC0000000 [(3, 100), (6, 40), (9, 70), (12, 0)] =
    [Val.data (BitVec.ofNat 128 (16 * 2 ^ 64 + 70)), Val.data (BitVec.ofNat 128 (c2 9))] := by decide +kernel
theorem test_msense_tie : senseVals 2 [(3, 39), (6, 12), (9, 39), (12, 0)] = [Val.data 39, Val.data (BitVec.ofNat 128 (c2 3))] ∧
    senseVals 2 [] = [Val.data 0x8000000000000000, Val.zero] := by decide +kernel
/-- MDEP of an amount on a cell word of a stepped domain at core 0's scratchpad. -/
def deposited (w amount : Nat) : Nat :=
  let s := (State.reset.store (spadLoc 0 0) 8 w).modMark 3 (fun _ => { cooling with
    desc := cooling.desc.set 34 1, base := 0xF300000000000000, top := 0xF300000000000080 })
  let o := { s.newOp .posted (.mdep 3 0 (BitVec.ofNat 32 amount)) (.sent 1) 0xF300000000000000 with capture := true }
  (s.markAct 0 0 o).1.load (spadLoc 0 0) 8
theorem test_mdep_saturates : deposited 0xFFFFFFFFFB 10 = 0xFFFFFFFFFF := by decide +kernel
theorem test_mdep_adds : deposited 100 40 = 140 := by decide +kernel

-- 16, the walk of 0x401234_5678; 10 R246, window 3; 17, the capture example; 01 R24.
theorem test_walk :
    let s := (((State.reset.modDev (fun d => { d with ptroot := 0 })).store 0 8 (2 ^ 62 + 0x20000)).store (0x20000 + 8 * 256) 8
      (2 ^ 62 + 0x28000)).store (0x28000 + 8 * 18) 8 0x8001555064000000
    walk s 0x4012345678 = some ⟨2, 0x28000 + 8 * 18, 0x8001555064000000, 341, 100, 5⟩ ∧
    leafLoc 341 100 2 0x4012345678 = 354 * 2 ^ 30 + 100 * 2 ^ 18 + 0x5678 := by decide +kernel
theorem test_view :
    let w : FormatWindow := ⟨0x200000000000, 16, 0x300000000000, 0, 1 + 21 * 256⟩
    viewBytes 21 = 512 ∧ viewUnit w 0x300000001234 = 0x200000002400 := by decide +kernel
theorem test_capture :
    let e : Table Word := [(1, 10), (2, 20), (3, 40), (4, 80), (5, 160)] ++ (List.range 10).map (fun i => (6 + i, BitVec.allOnes 64))
    let x := [12, 35, 9, 170, 35].foldl (fun (t : Totals) v => t.add e v) Totals.reset
    (x.count, x.sum, x.min, x.max, (List.range 7).map (fun i => tget x.bins i 0)) = (5, 261, 9, 170, [1, 1, 2, 0, 0, 1, 0]) := by decide +kernel
theorem test_route : route 21 56 = (8 * 1 + 7, 3) := by decide +kernel

-- 09 R216, the worked decision: three blocks of one key.
def monitor (q : Nat) : Monitor := ⟨.ge, false, decodeFp f32 0x469C4000, q, .fin false (2 ^ (16 - q) - 512) 0, .fin false 0 0, .fin false 0 0⟩
theorem test_monitor :
    let x0 := monitorStep (monitor 0) 0xC59C4000 false 0 VerdictWord.reset
    let x1 := monitorStep (monitor 1) 0xC56A6000 false x0.1 x0.2
    let x2 := monitorStep (monitor 2) 0xC46A6000 false x1.1 x1.2
    x0.1 = 0xC59C4000 ∧ x1.1 = 0xC608B800 ∧ (x0.2.vst, x1.2.vst, x2.2.vst) = (.isOpen, .isOpen, .isFalse) ∧ x2.1 = 0x7FA00004 := by
  decide

-- 11 R263, 00 R5.
theorem test_amo_signed : amoVal .max 4 0xFFFFFFFF 1 = 1 ∧ amoVal .maxu 4 0xFFFFFFFF 1 = 0xFFFFFFFF ∧ amoVal .add 4 0xFFFFFFFF 2 = 1 :=
  by decide +kernel
theorem test_little_endian : (State.reset.store 32 8 5000000000).load 36 1 = 1 ∧ (State.reset.store 32 8 5000000000).load 33 1 = 0xF2 := by
  decide

/-- The secret key of the first test of RFC 8032, with which 18 R426 signs (section 7.1). -/
def rfcKey : List Byte := beBytes 32 0x9d61b19deffd5a60ba844af492ec2cc44449c5697b326919703bac031cae7f60
theorem test_signature_of_the_first_rfc_test :
    edPublic rfcKey = beBytes 32 0xd75a980182b10ab7d54bfed3c964073a0ee172f3daa62325af021a68f707511a ∧
    edSign rfcKey [] = beBytes 64 (0xe5564300c360ac729086e2cc806e828a84877f1eb8e5d974d873e06522490155 * 2 ^ 256 +
      0x5fb8821590a33bacc61e39701cf9b46bd25bf5f0595bbe24655141438e7a100b) := by decide +kernel

/-! ### Witnesses: states that meet the hypotheses of the obligations -/

/-- Some state in which i issues and ok holds of its values. -/
def Met (i : Instr) (ok : Vals → Thread → State → Prop) : Prop :=
  ∃ s th, Runs i s th ∧ ok (s.vals th i) th (s.begun th i)

/-- The test of a state. -/
def metIn (i : Instr) (s : State) (ok : Vals → Thread → State → Bool) : Bool :=
  match s.issuer with
  | some th => (issueCheck s s.cur th i).isNone && (s.unit.replay.isSome || !predOff i th) && ok (s.vals th i) th (s.begun th i)
  | none => false

theorem Met.of {i : Instr} {ok : Vals → Thread → State → Prop} (okB : Vals → Thread → State → Bool) (s : State)
    (h : metIn i s okB = true) (imp : ∀ v th s, okB v th s = true → ok v th s) : Met i ok := by
  unfold metIn at h
  split at h
  · rename_i th hth
    simp only [Bool.and_eq_true, Option.isNone_iff_eq_none, Bool.or_eq_true, Bool.not_eq_true'] at h
    obtain ⟨⟨h1, h2⟩, h3⟩ := h
    refine ⟨s, th, ⟨hth, h1, fun h0 => ?_⟩, imp _ _ _ h3⟩
    rcases h2 with h2 | h2
    · rw [h0] at h2; cases h2
    · exact h2
  · cases h

/-- A decidable condition, on a staged instruction. -/
theorem Met.at {i : Instr} {ok : Vals → Thread → State → Prop} [∀ v th s, Decidable (ok v th s)] (t : Nat)
    (f : Thread → Thread) (g : State → State)
    (h : metIn i (stage t i f g) (fun v th s => decide (ok v th s)) = true) : Met i ok :=
  Met.of _ _ h (fun _ _ _ => of_decide_eq_true)
theorem Met.dec {i : Instr} {ok : Vals → Thread → State → Prop} [∀ v th s, Decidable (ok v th s)] (f : Thread → Thread)
    (h : metIn i (stage 0 i f id) (fun v th s => decide (ok v th s)) = true) : Met i ok := Met.at 0 f id h
/-- A condition tested by okB, on a staged instruction. -/
theorem Met.test {i : Instr} {ok : Vals → Thread → State → Prop} (okB : Vals → Thread → State → Bool) (t : Nat)
    (f : Thread → Thread) (g : State → State) (h : metIn i (stage t i f g) okB = true)
    (imp : ∀ v th s, okB v th s = true → ok v th s) : Met i ok := Met.of okB _ h imp

/-- A test of every element of a list. -/
theorem every {α : Type} {l : List α} {p : α → Bool} (h : l.all p = true) : ∀ x ∈ l, p x = true := List.all_eq_true.mp h

/-- Every instruction of a list issues. -/
theorem runs_all {l : List Instr} (f : Thread → Thread)
    (h : l.all (fun i => metIn i (stage 0 i f id) (fun _ _ _ => true)) = true) : ∀ i ∈ l, Met i (fun _ _ _ => True) :=
  fun i hi => Met.of _ _ (List.all_eq_true.mp h i hi) (fun _ _ _ _ => trivial)

/-- Every instruction of a list, each with a condition, issues where the condition holds. -/
theorem met_all {l : List (Instr × (Vals → Thread → State → Bool))} (f : Thread → Thread) (g : State → State)
    (h : l.all (fun x => metIn x.1 (stage 0 x.1 f g) x.2) = true) : ∀ x ∈ l, Met x.1 (fun v th s => x.2 v th s = true) :=
  fun x hx => Met.of _ _ (List.all_eq_true.mp h x hx) (fun _ _ _ h => h)

theorem isSome_iff {α : Type} (x : Option α) : x.isSome = true → ∃ y, x = some y := by cases x <;> simp
/-- Whether a computation of the model answers. -/
def answers {ε α : Type} : Except ε α → Bool
  | .ok _ => true
  | .error _ => false
theorem answers_iff {ε α : Type} (x : Except ε α) : answers x = true → ∃ y, x = .ok y := by cases x <;> simp [answers]

def io : IntOps := ⟨np, 0, 7, 1, .reg 2⟩
def uo : UnOps := ⟨np, 7, 1⟩
def bo : BinOps := ⟨np, 7, 1, 2⟩

theorem witness_integer_results : ∀ i ∈ ([.add io, .sub io, .mul io, .mulh io, .mulhu io, .abs uo, .div io, .divu io, .rem io, .remu io,
    .and io, .or io, .xor io, .andn io, .shl io, .shr io, .sra io, .rotr io, .clz uo, .ctz uo, .popc uo] : List Instr),
    Met i (fun _ _ _ => True) := runs_all id (by decide +kernel)
theorem witness_field_and_order : ∀ i ∈ ([.zext io, .sext io, .bfx ⟨np, true, 7, 1, 0, 63⟩, .bfi ⟨np, 7, 1, 2, 63, 0⟩, .min io, .max io,
    .minu io, .maxu io, .cmpeq io, .cmpne io, .cmplt io, .cmpltu io, .cmple io, .cmpleu io] : List Instr),
    Met i (fun _ _ _ => True) := runs_all id (by decide +kernel)
theorem witness_move_and_constant : ∀ i ∈ ([.sel ⟨np, 7, 1, .imm 5, 2⟩, .sel ⟨np, 7, 1, .reg 3, 2⟩, .mov uo, .mov ⟨np, 256, 256⟩,
    .li np 7 true 1, .liw np 7 false 1, .liw np 7 true 1, .time np 7, .rand np 7] : List Instr),
    Met i (fun _ _ _ => True) := runs_all id (by decide +kernel)

/-- A target that passes, as a test. -/
def goodTarget (s : State) (th : Thread) (a : Int) : Bool :=
  decide (capBase th.pcc.bits ≤ a ∧ a < capTop th.pcc.bits ∧
    (placeAt s th (BitVec.ofInt 64 a) = none ∨ placeAt s th (BitVec.ofInt 64 a) = some (some false)))
theorem goodTarget_iff {s : State} {th : Thread} {a : Int} (h : goodTarget s th a = true) : GoodTarget s th a := by
  have := of_decide_eq_true h; exact this

/-- Where a branch is taken, and where it is not. -/
def Taken (i : Instr) {w : Nat} (off : BitVec w) (cond : Vals → Bool) : Prop :=
  Met i (fun v th s => cond v = true ∧ GoodTarget s th (relTarget s off))
def Falls (i : Instr) (cond : Vals → Bool) : Prop := Met i (fun v _ _ => cond v = false)
def two : Thread → Thread := regs [(1, 1), (2, minus 1)]
theorem taken {i : Instr} {w : Nat} {off : BitVec w} {cond : Vals → Bool}
    (h : metIn i (stage 0 i two id) (fun v th s => cond v && goodTarget s th (relTarget s off)) = true) : Taken i off cond :=
  Met.of _ _ h (fun _ _ _ h => by simp only [Bool.and_eq_true] at h; exact ⟨h.1, goodTarget_iff h.2⟩)

theorem witness_branches_taken :
    Taken (.br 0) (0 : BitVec 16) (fun _ => true) ∧
    Taken (.beq 1 1 0) (0 : BitVec 32) (fun v => decide (v.a.lo.toInt = v.b.lo.toInt)) ∧
    Taken (.bne 1 2 0) (0 : BitVec 32) (fun v => decide (v.a.lo.toInt ≠ v.b.lo.toInt)) ∧
    Taken (.blt 2 1 0) (0 : BitVec 32) (fun v => decide (v.a.lo.toInt < v.b.lo.toInt)) ∧
    Taken (.bge 1 2 0) (0 : BitVec 32) (fun v => decide (v.b.lo.toInt ≤ v.a.lo.toInt)) ∧
    Taken (.bltu 1 2 0) (0 : BitVec 32) (fun v => decide (v.a.lo.toNat < v.b.lo.toNat)) ∧
    Taken (.bgeu 2 1 0) (0 : BitVec 32) (fun v => decide (v.b.lo.toNat ≤ v.a.lo.toNat)) ∧
    Taken (.bz 3 0) (0 : BitVec 16) (fun v => decide (v.a.lo = 0)) ∧
    Taken (.bnz 1 0) (0 : BitVec 16) (fun v => decide (v.a.lo ≠ 0)) :=
  ⟨taken (by decide +kernel), taken (by decide +kernel), taken (by decide +kernel), taken (by decide +kernel), taken (by decide +kernel), taken (by decide +kernel),
    taken (by decide +kernel), taken (by decide +kernel), taken (by decide +kernel)⟩
theorem witness_branches_not_taken :
    Falls (.beq 1 2 0) (fun v => decide (v.a.lo.toInt = v.b.lo.toInt)) ∧
    Falls (.bne 1 1 0) (fun v => decide (v.a.lo.toInt ≠ v.b.lo.toInt)) ∧
    Falls (.blt 1 1 0) (fun v => decide (v.a.lo.toInt < v.b.lo.toInt)) ∧
    Falls (.bge 2 1 0) (fun v => decide (v.b.lo.toInt ≤ v.a.lo.toInt)) ∧
    Falls (.bltu 1 1 0) (fun v => decide (v.a.lo.toNat < v.b.lo.toNat)) ∧
    Falls (.bgeu 1 2 0) (fun v => decide (v.b.lo.toNat ≤ v.a.lo.toNat)) ∧
    Falls (.bz 1 0) (fun v => decide (v.a.lo = 0)) ∧ Falls (.bnz 3 0) (fun v => decide (v.a.lo ≠ 0)) ∧
    Met .nop (fun _ _ _ => True) :=
  ⟨.dec two (by decide +kernel), .dec two (by decide +kernel), .dec two (by decide +kernel), .dec two (by decide +kernel), .dec two (by decide +kernel),
    .dec two (by decide +kernel), .dec two (by decide +kernel), .dec two (by decide +kernel), .dec two (by decide +kernel)⟩

/-- A sealed entry at the placed program. -/
def entryCap : Quad := capWithKind placeCap 1

theorem witness_calls_and_jumps :
    Met (.call 31 0) (fun _ th s => GoodTarget s th (relTarget s (0 : BitVec 32))) ∧
    Met (.jmpc 31 1) (fun v th s => firstFailure (jumpRules s th v.a) = none ∧ capKind v.a.bits = 0) ∧
    Met (.jmpc 256 1) (fun v th s => firstFailure (jumpRules s th v.a) = none ∧ capKind v.a.bits = 1) ∧
    Met (.loop 2 0) (fun v th s => v.d.lo ≠ 1 ∧ GoodTarget s th (relTarget s (0 : BitVec 16))) ∧
    Met (.loop 1 0) (fun v _ _ => v.d.lo = 1) := by
  refine ⟨?_, ?_, ?_, ?_, .dec two (by decide +kernel)⟩
  · exact Met.test (fun _ th s => goodTarget s th (relTarget s (0 : BitVec 32))) 0 two id (by decide +kernel) (fun _ _ _ h => goodTarget_iff h)
  · exact Met.at 0 (caps [(1, placeCap)]) id (by decide +kernel)
  · exact Met.at 0 (caps [(1, entryCap)]) id (by decide +kernel)
  · exact Met.test (fun v th s => decide (v.d.lo ≠ 1) && goodTarget s th (relTarget s (0 : BitVec 16))) 0 two id (by decide +kernel)
      (fun _ _ _ h => by simp only [Bool.and_eq_true, decide_eq_true_eq] at h; exact ⟨h.1, goodTarget_iff h.2⟩)

/-- A transfer whose target, where it is taken, lies below PCC's bounds, above them, at no boundary, or after a prefix. -/
def Misses {w : Nat} (mk : BitVec w → Instr) (taken : Vals → Prop) : Prop :=
  (∃ off, Met (mk off) (fun v th s => taken v ∧ relTarget s off < capBase th.pcc.bits)) ∧
  (∃ off, Met (mk off) (fun v th s => taken v ∧ capTop th.pcc.bits ≤ relTarget s off)) ∧
  ∀ p ∈ [none, some true], ∃ off, Met (mk off) (fun v th s => taken v ∧ capBase th.pcc.bits ≤ relTarget s off ∧
    relTarget s off < capTop th.pcc.bits ∧ placeAt s th (BitVec.ofInt 64 (relTarget s off)) = some p)
theorem misses {w : Nat} {mk : BitVec w → Instr} {taken : Vals → Prop} [∀ v, Decidable (taken v)] (far odd orphan : BitVec w)
    (h : (metIn (mk (-1)) (stage 0 (mk (-1)) two id) (fun v th s => decide (taken v ∧ relTarget s (-1 : BitVec w) < capBase th.pcc.bits)) &&
      metIn (mk far) (stage 0 (mk far) two id) (fun v th s => decide (taken v ∧ capTop th.pcc.bits ≤ relTarget s far)) &&
      [(none, odd), (some true, orphan)].all (fun x => metIn (mk x.2) (stage 0 (mk x.2) two id) (fun v th s => decide (taken v ∧
        capBase th.pcc.bits ≤ relTarget s x.2 ∧ relTarget s x.2 < capTop th.pcc.bits ∧
        placeAt s th (BitVec.ofInt 64 (relTarget s x.2)) = some x.1)))) = true) : Misses mk taken := by
  simp only [Bool.and_eq_true, List.all_eq_true] at h
  refine ⟨⟨-1, Met.of _ _ h.1.1 (fun _ _ _ => of_decide_eq_true)⟩, ⟨far, Met.of _ _ h.1.2 (fun _ _ _ => of_decide_eq_true)⟩, ?_⟩
  intro p hp
  simp only [List.mem_cons, List.not_mem_nil, or_false] at hp
  rcases hp with rfl | rfl
  · exact ⟨odd, Met.of _ _ (h.2 (none, odd) (by simp)) (fun _ _ _ => of_decide_eq_true)⟩
  · exact ⟨orphan, Met.of _ _ (h.2 (some true, orphan) (by simp)) (fun _ _ _ => of_decide_eq_true)⟩
theorem witness_call_loop_br_miss :
    Misses (Instr.call 31) (fun _ => True) ∧ Misses (Instr.loop 2) (fun v => v.d.lo ≠ 1) ∧ Misses Instr.br (fun _ => True) ∧
    Misses (Instr.bz 3) (fun v => v.a.lo = 0) ∧ Misses (Instr.bnz 1) (fun v => v.a.lo ≠ 0) :=
  ⟨misses 8 1 5 (by decide +kernel), misses 8 1 4 (by decide +kernel), misses 8 1 4 (by decide +kernel), misses 8 1 4 (by decide +kernel),
    misses 8 1 4 (by decide +kernel)⟩
theorem witness_compared_branches_miss :
    Misses (Instr.beq 1 1) (fun v => v.a.lo.toInt = v.b.lo.toInt) ∧ Misses (Instr.bne 1 2) (fun v => v.a.lo.toInt ≠ v.b.lo.toInt) ∧
    Misses (Instr.blt 2 1) (fun v => v.a.lo.toInt < v.b.lo.toInt) ∧ Misses (Instr.bge 1 2) (fun v => v.b.lo.toInt ≤ v.a.lo.toInt) ∧
    Misses (Instr.bltu 1 2) (fun v => v.a.lo.toNat < v.b.lo.toNat) ∧ Misses (Instr.bgeu 2 1) (fun v => v.b.lo.toNat ≤ v.a.lo.toNat) :=
  ⟨misses 8 1 5 (by decide +kernel), misses 8 1 5 (by decide +kernel), misses 8 1 5 (by decide +kernel), misses 8 1 5 (by decide +kernel),
    misses 8 1 5 (by decide +kernel), misses 8 1 5 (by decide +kernel)⟩
/-- The capability of the placed program moved on by n bytes. -/
def placeOff (n : Nat) : Quad := (capMove ⟨placeCap, true⟩ (capCursor placeCap + BitVec.ofNat 64 n)).bits
theorem witness_jmpc_faults : ∀ x ∈ ([(Val.data placeCap, .tag), (⟨capWithKind placeCap 2, true⟩, .sealed), (⟨buffer, true⟩, .perm),
    (⟨placeOff 32, true⟩, .bounds), (⟨placeOff 2, true⟩, .misalignedTarget), (⟨placeOff 4, true⟩, .misalignedTarget),
    (⟨placeOff 16, true⟩, .orphanPrefix)] : List (Val × Code)),
    Met (.jmpc 31 1) (fun v th s => firstFailure (jumpRules s th v.a) = some x.2) := by
  intro x hx
  refine Met.of _ (stage 0 (.jmpc 31 1) (fun th => th.setReg 1 x.1) id) ?_ (fun _ _ _ => of_decide_eq_true)
  revert x
  decide +kernel

def ones : Nat × Nat := (2, 0x400)
/-- k1 the buffer of R107, k3 the same sealed, k4 every permission over the scratchpad, k5 a data word, k2 0x400. -/
def capRegs (th : Thread) : Thread := caps [(1, buffer), (3, capWithKind buffer 2), (4, full), (6, buffer)] (regs [ones, (5, 7)] th)

theorem witness_capabilities_narrow : ∀ i ∈ ([.cseta bo, .cinc io, .csetb io, .candp io, .cseal bo false, .cunseal ⟨np, 7, 3, 4⟩,
    .cclrt uo, .cgeta uo, .cgetb uo, .cgett uo, .cgetp uo, .ctest uo, .csub ⟨np, 7, 1, 4⟩] : List Instr),
    Met i (fun _ _ _ => True) := runs_all capRegs (by decide +kernel)
theorem witness_cursor_moves :
    Met (.cseta bo) (fun v _ _ => v.a.tag = true ∧ capKind v.a.bits = 0) ∧
    Met (.cseta ⟨np, 7, 5, 2⟩) (fun v _ _ => v.a.tag = false ∨ capKind v.a.bits = 0) ∧
    Met (.cinc io) (fun v _ _ => v.a.tag = false ∨ capKind v.a.bits = 0) ∧
    Met (.candp io) (fun v _ _ => v.a.tag = false ∨ capKind v.a.bits = 0) :=
  ⟨.dec capRegs (by decide +kernel), .dec capRegs (by decide +kernel), .dec capRegs (by decide +kernel), .dec capRegs (by decide +kernel)⟩
theorem witness_csetb :
    Met (.csetb io) (fun v _ _ =>
      let len := (srcWord false (.reg 2) v.b).toNat
      let nb := (capCursor v.a.bits).toNat
      v.a.tag = true ∧ capKind v.a.bits = 0 ∧ capBase v.a.bits ≤ nb ∧ (nb + len : Int) ≤ capTop v.a.bits ∧
      2 ^ capExp len ∣ nb ∧ 2 ^ capExp len ∣ nb + len) ∧
    Met (.csetb ⟨np, 0, 7, 5, .reg 2⟩) (fun v _ _ => v.a.tag = false) :=
  ⟨.dec capRegs (by decide +kernel), .dec capRegs (by decide +kernel)⟩
/-- The hypotheses of CSEAL, and of CUNSEAL. -/
def sealable (entry : Bool) (v : Vals) : Bool :=
  decide (v.a.tag = true ∧ capKind v.a.bits = 0 ∧ v.b.tag = true ∧ capKind v.b.bits = 0 ∧
    grants (capPerms v.b.bits) permSE = true ∧ (entry = true → grants (capPerms v.a.bits) permX = true) ∧
    capBase v.b.bits ≤ capBase v.a.bits ∧ capTop v.a.bits ≤ capTop v.b.bits)
theorem witness_cseal_cunseal :
    Met (.cseal ⟨np, 7, 4, 4⟩ true) (fun v _ _ => sealable true v = true) ∧
    Met (.cseal ⟨np, 7, 4, 4⟩ false) (fun v _ _ => sealable false v = true) ∧
    Met (.cunseal ⟨np, 7, 3, 6⟩) (fun v _ _ => v.a.tag = true ∧ capKind v.a.bits = 2 ∧ v.b.tag = true ∧ capKind v.b.bits = 0 ∧
      grants (capPerms v.b.bits) permUS = true ∧ capBase v.b.bits ≤ capBase v.a.bits ∧ capTop v.a.bits ≤ capTop v.b.bits) :=
  ⟨.dec capRegs (by decide +kernel), .dec capRegs (by decide +kernel),
    .dec (fun th => caps [(3, capWithKind full 2), (6, full)] th) (by decide +kernel)⟩

theorem witness_sealed_sources : ∀ i ∈ ([.cseta { bo with a := 3 }, .cinc { io with a := 3 }, .csetb { io with a := 3 },
    .candp { io with a := 3 }] : List Instr), Met i (fun v _ _ => v.a.tag = true ∧ capKind v.a.bits ≠ 0) := by
  have h : ∀ i ∈ ([.cseta { bo with a := 3 }, .cinc { io with a := 3 }, .csetb { io with a := 3 }, .candp { io with a := 3 }] : List Instr),
    metIn i (stage 0 i capRegs id) (fun v _ _ => decide (v.a.tag = true ∧ capKind v.a.bits ≠ 0)) = true := every (by decide +kernel)
  exact fun i hi => Met.of _ _ (h i hi) (fun _ _ _ => of_decide_eq_true)
theorem witness_capability_faults :
    Met (.csetb { io with b := .imm 0xFFFF }) (fun v _ _ => v.a.tag = true ∧ capKind v.a.bits = 0 ∧
      capTop v.a.bits < ((capCursor v.a.bits).toNat + (srcWord false (.imm 0xFFFF) v.b).toNat : Int)) ∧
    (∀ c ∈ ([.tag, .sealed] : List Code), ∃ a, Met (.cseal ⟨np, 7, a, 4⟩ false)
      (fun v _ _ => firstFailure (sealRules v.a v.b 0 permSE false) = some c)) ∧
    Met (.cseal ⟨np, 7, 4, 1⟩ true) (fun v _ _ => firstFailure (sealRules v.a v.b 0 permSE true) = some .perm) ∧
    Met (.cunseal ⟨np, 7, 1, 4⟩) (fun v _ _ => firstFailure (sealRules v.a v.b 2 permUS false) = some .sealed) := by
  refine ⟨.dec capRegs (by decide +kernel), fun c hc => ?_, .dec capRegs (by decide +kernel), .dec capRegs (by decide +kernel)⟩
  simp only [List.mem_cons, List.mem_nil_iff, or_false] at hc
  rcases hc with rfl | rfl
  · exact ⟨5, .dec capRegs (by decide +kernel)⟩
  · exact ⟨3, .dec capRegs (by decide +kernel)⟩
theorem witness_bounds_inexact : Met (.csetb io) (fun v _ _ =>
      let len := (srcWord false (.reg 2) v.b).toNat
      let nb := (capCursor v.a.bits).toNat
      v.a.tag = true ∧ capKind v.a.bits = 0 ∧ capBase v.a.bits ≤ nb ∧ (nb + len : Int) ≤ capTop v.a.bits ∧
      ¬ (2 ^ capExp len ∣ nb ∧ 2 ^ capExp len ∣ nb + len)) :=
  .dec (fun th => caps [(1, capBounds 0xFFF 0xF000000000000000 0xF000000000100000)] (regs [(2, 0x80001)] th)) (by decide +kernel)

theorem witness_rounding : ∃ rem sh, rem < 2 ^ sh ∧ rem ≠ 0 ∧ 2 * rem = 2 ^ sh := ⟨1, 1, by decide +kernel⟩
theorem witness_rounding_exact : ∃ rem sh, rem < 2 ^ sh ∧ rem = 0 := ⟨0, 0, by decide +kernel⟩
theorem witness_integer_types : isIntType 1 = true ∧ isIntType 8 = true ∧ isIntType 16 = true ∧ isIntType 19 = true := by decide +kernel

/-- Packed operands: FP32 groups of one register. -/
def pk : Pk := ⟨np, 9, 0, 5, 6⟩
/-- The packed members with their operand scan. -/
def packed : List (Instr × (Thread → BitVec 6 → List Nat)) :=
  let two := fun (th : Thread) t => firstElems pk th t ++ otherElems pk 7 false th t
  [(.vadd pk 7 false, two), (.vsub pk 7 false, two), (.vmul pk 7 false, two), (.vmin pk 7 false, two), (.vmax pk 7 false, two),
   (.vfma pk 7 8 false, fun th t => two th t ++ elemsOf (typeWidth t) (128 * groupSize pk.g / typeWidth t) (th.groupBits 8 (groupSize pk.g))),
   (.vabs pk, firstElems pk), (.vneg pk, firstElems pk), (.vcmp pk 7 false 2, two), (.vred pk 1, firstElems pk), (.vscale pk 7, firstElems pk)]
theorem witness_packed_go : ∀ x ∈ packed, Met x.1 (fun _ th s =>
    isFloatType (s.elemTypeOf x.1) = true ∧ abandonedIn pk.p (s.elemTypeOf x.1) (x.2 th (s.elemTypeOf x.1)) = false) := by
  have h : ∀ x ∈ packed, metIn x.1 (stage 0 x.1 id id) (fun _ th s => isFloatType (s.elemTypeOf x.1) &&
    !abandonedIn pk.p (s.elemTypeOf x.1) (x.2 th (s.elemTypeOf x.1))) = true := every (by decide +kernel)
  exact fun x hx => Met.of _ _ (h x hx) (fun _ _ _ h => by simpa using h)
theorem witness_packed_abandoned : ∀ x ∈ packed, Met x.1 (fun _ th s =>
    isFloatType (s.elemTypeOf x.1) = true ∧ pk.p.pass = false ∧
      ∃ y ∈ x.2 th (s.elemTypeOf x.1), isAbandoned (s.elemTypeOf x.1) y = true) := by
  have h : ∀ x ∈ packed, metIn x.1 (stage 0 x.1 (regs [(6, 0x7FA00000)]) id) (fun _ th s => isFloatType (s.elemTypeOf x.1) &&
    (x.2 th (s.elemTypeOf x.1)).any (fun y => isAbandoned (s.elemTypeOf x.1) y)) = true := every (by decide +kernel)
  refine fun x hx => Met.of _ _ (h x hx) (fun _ th s h => ?_)
  simp only [Bool.and_eq_true, List.any_eq_true] at h
  exact ⟨h.1, rfl, h.2⟩
theorem witness_conversions_abandoned :
    (∀ i ∈ ([.vexp2 pk 0, .vrcp pk 0, .vrsq pk 0] : List Instr), Met i (fun _ th _ => pk.p.pass = false ∧
      ∃ x ∈ elemsOf 32 (4 * groupSize pk.g) (th.groupBits pk.a (groupSize pk.g)), isAbandoned f32 x = true)) ∧
    Met (.vcvt ⟨np, 14, 0, 5, 6⟩ 7 9 false true) (fun _ th _ => isFloatType 9 = true ∧ np.pass = false ∧
      ∃ x ∈ firstElems pk th 9, isAbandoned 9 x = true) ∧
    Met (.vcvt ⟨np, 11, 0, 5, 6⟩ 256 9 false false) (fun _ th _ => isFloatType 9 = true ∧ np.pass = false ∧
      ∃ x ∈ firstElems pk th 9, isAbandoned 9 x = true) := by
  have h : ∀ i ∈ ([.vexp2 pk 0, .vrcp pk 0, .vrsq pk 0] : List Instr), metIn i (stage 0 i (regs [(6, 0x7FA00000)]) id) (fun _ th _ =>
    (elemsOf 32 (4 * groupSize pk.g) (th.groupBits pk.a (groupSize pk.g))).any (isAbandoned f32)) = true := every (by decide +kernel)
  refine ⟨fun i hi => Met.of _ _ (h i hi) (fun _ _ _ h => ⟨rfl, List.any_eq_true.1 h⟩), ?_, ?_⟩ <;>
    exact Met.test (fun _ th _ => (firstElems pk th 9).any (isAbandoned 9)) 0 (regs [(6, 0x7FA00000)]) id (by decide +kernel)
      (fun _ _ _ h => ⟨by decide, rfl, List.any_eq_true.1 h⟩)
def pi : Pk := ⟨np, 3, 0, 5, 6⟩
theorem witness_packed_integers : ∀ x ∈ ([.vadd pi 7 true, .vsub pi 7 true, .vred pi 0, .vshl pi (.imm 63), .vshr pi (.reg 7),
    .vsel pi 7 8, .vperm pi 7, .vbcast pi (.imm 1), .vbcast pi (.reg 7), .vpack pi 7, .vunpk pi true, .vunpk pi false,
    .vand ⟨np, 0, 0, 5, 6⟩ 7 false, .vor ⟨np, 0, 0, 5, 6⟩ 7 true, .vxor ⟨np, 0, 0, 5, 6⟩ 7 false, .vand ⟨np, 0, 0, 5, 6⟩ 7 true,
    .vor ⟨np, 0, 0, 5, 6⟩ 7 false, .vxor ⟨np, 0, 0, 5, 6⟩ 7 true, .plnenc ⟨np, 1, 3, 8, 16⟩, .plndec ⟨np, 1, 3, 8, 16⟩ 8,
    .plndec ⟨np, 1, 3, 8, 256⟩ 2, .vverd pk false, .vverd ⟨np, 9, 3, 8, 16⟩ true, .vexp2 pk 1, .vrcp pk 0, .vrsq pk 0] : List Instr),
    Met x (fun _ _ _ => True) := runs_all id (by decide +kernel)
theorem witness_packed_conversions :
    (∀ i ∈ ([.vexp2 pk 0, .vrcp pk 0, .vrsq pk 0] : List Instr), Met i (fun _ th _ =>
      abandonedIn pk.p f32 (elemsOf 32 (4 * groupSize pk.g) (th.groupBits pk.a (groupSize pk.g))) = false)) ∧
    Met (.vcvt ⟨np, 0, 0, 5, 6⟩ 256 9 true false) (fun _ _ _ => True) ∧
    Met (.vcvt ⟨np, 11, 0, 5, 6⟩ 256 9 false false) (fun _ th _ => isFloatType 9 = true → abandonedIn np 9 (firstElems pk th 9) = false) ∧
    Met (.vcvt ⟨np, 14, 0, 5, 6⟩ 7 9 false true) (fun _ th _ => isFloatType 9 = true → abandonedIn np 9 (firstElems pk th 9) = false) := by
  refine ⟨?_, .dec id (by decide +kernel), .dec id (by decide +kernel), .dec id (by decide +kernel)⟩
  have h : ∀ i ∈ ([.vexp2 pk 0, .vrcp pk 0, .vrsq pk 0] : List Instr), metIn i (stage 0 i id id) (fun _ th _ =>
    !abandonedIn pk.p f32 (elemsOf 32 (4 * groupSize pk.g) (th.groupBits pk.a (groupSize pk.g)))) = true := every (by decide +kernel)
  exact fun x hx => Met.of _ _ (h x hx) (fun _ _ _ h => by simpa using h)

/-- LLD, LST and LADD of a group of one register. -/
def ll : LaneOps := ⟨np, 0, 0, 0, 8, 256, .reg 9⟩
def ls : LaneOps := ⟨np, 0, 0, 0, 256, 8, .reg 9⟩
def la : LaneOps := ⟨np, 0, 9, 0, 256, 8, .reg 9⟩
/-- Two lane units, and offsets in k9. -/
def lanes (offs : Nat) (th : Thread) : Thread := regs [(9, offs)] { th with lanes := [0, 1] }
theorem witness_lanes_pass :
    Met (.lld ll) (fun _ th _ => LanesPass ll th) ∧ Met (.lst ls) (fun _ th _ => LanesPass ls th) ∧
    Met (.ladd la) (fun _ th s => LanesPass la th ∧ (isFloatType (s.elemTypeOf (.ladd la)) = true →
      abandonedIn la.p (s.elemTypeOf (.ladd la)) (elemsOf 32 (laneOffsets th la).length (th.groupBits la.a (groupSize la.g))
        ++ (List.range (laneOffsets th la).length).map (fun l => s.load (laneOf la th s l) 4)) = false)) := by
  refine ⟨?_, ?_, ?_⟩
  · exact Met.test (fun _ th _ => (laneOffsets th ll).all (fun x => decide (x + 4 ≤ allotment th ∧ x % 4 = 0))) 0 (lanes 508) id
      (by decide +kernel) (fun _ _ _ h x hx => of_decide_eq_true (List.all_eq_true.mp h x hx))
  · exact Met.test (fun _ th _ => (laneOffsets th ls).all (fun x => decide (x + 4 ≤ allotment th ∧ x % 4 = 0))) 0 (lanes 508) id
      (by decide +kernel) (fun _ _ _ h x hx => of_decide_eq_true (List.all_eq_true.mp h x hx))
  · refine Met.test (fun _ th s => (laneOffsets th la).all (fun x => decide (x + 4 ≤ allotment th ∧ x % 4 = 0)) &&
      !abandonedIn la.p (s.elemTypeOf (.ladd la)) (elemsOf 32 (laneOffsets th la).length (th.groupBits la.a (groupSize la.g))
        ++ (List.range (laneOffsets th la).length).map (fun l => s.load (laneOf la th s l) 4))) 0 (lanes 508) id (by decide +kernel) ?_
    intro _ _ _ h
    simp only [Bool.and_eq_true, Bool.not_eq_true'] at h
    exact ⟨fun x hx => of_decide_eq_true (List.all_eq_true.mp h.1 x hx), fun _ => h.2⟩
theorem witness_ladd_abandoned : Met (.ladd la) (fun _ th s => LanesPass la th ∧ isFloatType (s.elemTypeOf (.ladd la)) = true ∧
    abandonedIn la.p (s.elemTypeOf (.ladd la)) (elemsOf 32 (laneOffsets th la).length (th.groupBits la.a (groupSize la.g))
      ++ (List.range (laneOffsets th la).length).map (fun l => s.load (laneOf la th s l) 4)) = true) := by
  refine Met.test (fun _ th s => (laneOffsets th la).all (fun x => decide (x + 4 ≤ allotment th ∧ x % 4 = 0)) &&
      (isFloatType (s.elemTypeOf (.ladd la)) &&
      abandonedIn la.p (s.elemTypeOf (.ladd la)) (elemsOf 32 (laneOffsets th la).length (th.groupBits la.a (groupSize la.g))
        ++ (List.range (laneOffsets th la).length).map (fun l => s.load (laneOf la th s l) 4)))) 0
      (fun th => regs [(8, 0x7FA00000)] (lanes 508 th)) id (by decide +kernel) ?_
  intro _ _ _ h
  simp only [Bool.and_eq_true] at h
  exact ⟨fun x hx => of_decide_eq_true (List.all_eq_true.mp h.1 x hx), h.2.1, h.2.2⟩
/-- Lane 0 passes and lane 1 fails, on bounds at the first offset past the end, or on alignment. -/
def laneFails (o : LaneOps) (bounds : Bool) (th : Thread) : Bool :=
  decide (1 < (laneOffsets th o).length) &&
  decide ((laneOffsets th o).getD 0 0 + 4 ≤ allotment th ∧ (laneOffsets th o).getD 0 0 % 4 = 0) &&
  (if bounds then decide (allotment th < (laneOffsets th o).getD 1 0 + 4)
    else decide ((laneOffsets th o).getD 1 0 + 4 ≤ allotment th ∧ (laneOffsets th o).getD 1 0 % 4 ≠ 0))
theorem witness_lanes_fail :
    Met (.lld ll) (fun _ th _ => laneFails ll true th = true) ∧ Met (.lst ls) (fun _ th _ => laneFails ls true th = true) ∧
    Met (.ladd la) (fun _ th _ => laneFails la true th = true) ∧ Met (.lld ll) (fun _ th _ => laneFails ll false th = true) ∧
    Met (.lst ls) (fun _ th _ => laneFails ls false th = true) ∧ Met (.ladd la) (fun _ th _ => laneFails la false th = true) :=
  ⟨.dec (lanes (508 + 509 * 2 ^ 32)) (by decide +kernel), .dec (lanes (508 + 509 * 2 ^ 32)) (by decide +kernel),
    .dec (lanes (508 + 509 * 2 ^ 32)) (by decide +kernel), .dec (lanes (1 * 2 ^ 32)) (by decide +kernel), .dec (lanes (1 * 2 ^ 32)) (by decide +kernel),
    .dec (lanes (1 * 2 ^ 32)) (by decide +kernel)⟩

/-- Codes of a box in k6 and k7, a code in k4, an end marker in k8, a code of three dimensions in k9 and no code in k10. -/
def codes : Thread → Thread := regs ((4, c2 4) :: (8, 0x002F0000000000000000000000000000) :: (9, 3 * 2 ^ 116) :: (10, 1) :: box)

/-- Well-formed codes of one dimension, as a test. -/
def goodCodes (l : List Quad) : Bool := l.all codeOk && l.all (fun q => codeDim q == codeDim (l.headD 0))
theorem goodCodes_iff {l : List Quad} (h : goodCodes l = true) : GoodCodes l := by
  unfold goodCodes at h
  simp only [Bool.and_eq_true, List.all_eq_true, beq_iff_eq] at h
  exact ⟨fun q hq => h.1 q hq, fun q hq => h.2 q hq⟩
theorem Met.codes {i : Instr} (l : Vals → List Quad) (p : Vals → Prop) [∀ v, Decidable (p v)]
    (h : metIn i (stage 0 i codes id) (fun v _ _ => goodCodes (l v) && decide (p v)) = true) :
    Met i (fun v _ _ => GoodCodes (l v) ∧ p v) :=
  Met.of _ _ h (fun _ _ _ h => by simp only [Bool.and_eq_true, decide_eq_true_eq] at h; exact ⟨goodCodes_iff h.1, h.2⟩)

theorem witness_curve_codes :
    Met (.cqpack np 5 6 2) (fun _ _ _ => True) ∧ Met (.cqpack np 5 16 8) (fun _ _ _ => True) ∧ Met (.cqsetd np 5 4 2) (fun _ _ _ => True) ∧
    Met (.cqext np 5 4 (.imm 1) true) (fun v _ _ => GoodCodes [v.a.bits] ∧ 1 < codeDim v.a.bits) ∧
    Met (.cqext np 5 4 (.reg 20) false) (fun v _ _ => GoodCodes [v.a.bits] ∧ v.b.lo.toNat < codeDim v.a.bits) ∧
    Met (.cqtrunc np 5 4 (.imm 1) true) (fun v _ _ => GoodCodes [v.a.bits] ∧ True) ∧
    Met (.cqflags ⟨np, 12, 4⟩) (fun v _ _ => GoodCodes [v.a.bits] ∧ True) :=
  ⟨.dec codes (by decide +kernel), .dec codes (by decide +kernel), .dec codes (by decide +kernel), .codes (fun v => [v.a.bits]) _ (by decide +kernel),
    .codes (fun v => [v.a.bits]) (fun v => v.b.lo.toNat < codeDim v.a.bits) (by decide +kernel), .codes (fun v => [v.a.bits]) _ (by decide +kernel),
    .codes (fun v => [v.a.bits]) _ (by decide +kernel)⟩
theorem witness_curve_arithmetic :
    Met (.cqadd np 5 4 (.reg 6) false) (fun v _ _ => GoodCodes [v.a.bits, v.b.bits] ∧ True) ∧
    Met (.cqsub np 5 4 (.reg 6) true) (fun v _ _ => GoodCodes [v.a.bits, v.b.bits] ∧ True) ∧
    Met (.cqadd np 5 4 (.step 1 255) true) (fun v _ _ => GoodCodes [v.a.bits] ∧ (1 : BitVec 3).toNat < codeDim v.a.bits) ∧
    Met (.cqsub np 5 4 (.step 1 1) false) (fun v _ _ => GoodCodes [v.a.bits] ∧ (1 : BitVec 3).toNat < codeDim v.a.bits) ∧
    Met (.cqnext ⟨np, 1, 5, 4, 6, 7⟩) (fun v _ _ => GoodCodes [v.a.bits, v.b.bits, v.c.bits] ∧ True) :=
  ⟨.codes (fun v => [v.a.bits, v.b.bits]) _ (by decide +kernel), .codes (fun v => [v.a.bits, v.b.bits]) _ (by decide +kernel),
    .codes (fun v => [v.a.bits]) _ (by decide +kernel), .codes (fun v => [v.a.bits]) _ (by decide +kernel),
    .codes (fun v => [v.a.bits, v.b.bits, v.c.bits]) _ (by decide +kernel)⟩
theorem witness_curve_order :
    Met (.cqcmp ⟨np, 5, 4, 6⟩) (fun v _ _ => (codeOk v.a.bits = true ∨ isMarker v.a.bits = true) ∧
      (codeOk v.b.bits = true ∨ isMarker v.b.bits = true) ∧ codeDim v.a.bits = codeDim v.b.bits) ∧
    Met (.cqcmp ⟨np, 5, 8, 6⟩) (fun v _ _ => isMarker v.a.bits = true ∧ codeOk v.b.bits = true ∧ codeDim v.a.bits = codeDim v.b.bits) ∧
    Met (.cqinbox ⟨np, 0, 5, 4, 6, 7⟩) (fun v _ _ => codeOk v.a.bits = true ∧ codeOk v.b.bits = true ∧ codeOk v.c.bits = true ∧
      codeDim v.a.bits = codeDim v.b.bits ∧ codeDim v.a.bits = codeDim v.c.bits) ∧
    Met (.cqinbox ⟨np, 0, 5, 8, 6, 7⟩) (fun v _ _ => isMarker v.a.bits = true ∧ codeOk v.b.bits = true ∧ codeOk v.c.bits = true ∧
      codeDim v.a.bits = codeDim v.b.bits ∧ codeDim v.a.bits = codeDim v.c.bits) :=
  ⟨.dec codes (by decide +kernel), .dec codes (by decide +kernel), .dec codes (by decide +kernel), .dec codes (by decide +kernel)⟩
theorem Met.bad {i : Instr} (l : Vals → List Quad) (h : metIn i (stage 0 i Tests.codes id) (fun v _ _ => (l v).any (fun q => !codeOk q)) = true) :
    Met i (fun v _ _ => ∃ q ∈ l v, codeOk q = false) := Met.of _ _ h (fun _ _ _ h => by simpa using h)
theorem Met.mixed {i : Instr} (l : Vals → List Quad)
    (h : metIn i (stage 0 i Tests.codes id) (fun v _ _ => (l v).all codeOk && (l v).any (fun q => codeDim q != codeDim v.a.bits)) = true) :
    Met i (fun v _ _ => (∀ q ∈ l v, codeOk q = true) ∧ ∃ q ∈ l v, codeDim q ≠ codeDim v.a.bits) :=
  Met.of _ _ h (fun _ _ _ h => by simpa using h)
theorem witness_bad_curve_codes :
    Met (.cqext np 5 10 (.imm 0) false) (fun v _ _ => ∃ q ∈ [v.a.bits], codeOk q = false) ∧
    Met (.cqadd np 5 10 (.reg 6) false) (fun v _ _ => ∃ q ∈ [v.a.bits, v.b.bits], codeOk q = false) ∧
    Met (.cqadd np 5 10 (.step 0 1) false) (fun v _ _ => ∃ q ∈ [v.a.bits], codeOk q = false) ∧
    Met (.cqnext ⟨np, 0, 5, 4, 6, 10⟩) (fun v _ _ => ∃ q ∈ [v.a.bits, v.b.bits, v.c.bits], codeOk q = false) ∧
    Met (.cqtrunc np 5 10 (.imm 1) false) (fun v _ _ => ∃ q ∈ [v.a.bits], codeOk q = false) ∧
    Met (.cqflags ⟨np, 12, 10⟩) (fun v _ _ => ∃ q ∈ [v.a.bits], codeOk q = false) :=
  ⟨.bad (fun v => [v.a.bits]) (by decide +kernel), .bad (fun v => [v.a.bits, v.b.bits]) (by decide +kernel),
    .bad (fun v => [v.a.bits]) (by decide +kernel), .bad (fun v => [v.a.bits, v.b.bits, v.c.bits]) (by decide +kernel),
    .bad (fun v => [v.a.bits]) (by decide +kernel), .bad (fun v => [v.a.bits]) (by decide +kernel)⟩
theorem witness_mixed_curve_codes :
    Met (.cqsub np 5 4 (.reg 9) false) (fun v _ _ => (∀ q ∈ [v.a.bits, v.b.bits], codeOk q = true) ∧
      ∃ q ∈ [v.a.bits, v.b.bits], codeDim q ≠ codeDim v.a.bits) ∧
    Met (.cqnext ⟨np, 0, 5, 4, 6, 9⟩) (fun v _ _ => (∀ q ∈ [v.a.bits, v.b.bits, v.c.bits], codeOk q = true) ∧
      ∃ q ∈ [v.a.bits, v.b.bits, v.c.bits], codeDim q ≠ codeDim v.a.bits) :=
  ⟨.mixed (fun v => [v.a.bits, v.b.bits]) (by decide +kernel), .mixed (fun v => [v.a.bits, v.b.bits, v.c.bits]) (by decide +kernel)⟩
theorem witness_bad_compared_codes :
    Met (.cqcmp ⟨np, 5, 10, 6⟩) (fun v _ _ => ¬ (codeOk v.a.bits = true ∨ isMarker v.a.bits = true)) ∧
    Met (.cqcmp ⟨np, 5, 8, 9⟩) (fun v _ _ => isMarker v.a.bits = true ∧ codeOk v.b.bits = true ∧ codeDim v.a.bits ≠ codeDim v.b.bits) ∧
    Met (.cqinbox ⟨np, 0, 5, 4, 8, 7⟩) (fun v _ _ => codeOk v.b.bits = false) ∧
    Met (.cqinbox ⟨np, 0, 5, 8, 6, 9⟩) (fun v _ _ => isMarker v.a.bits = true ∧ codeOk v.b.bits = true ∧ codeOk v.c.bits = true ∧
      codeDim v.c.bits ≠ codeDim v.a.bits) :=
  ⟨.dec codes (by decide +kernel), .dec codes (by decide +kernel), .dec codes (by decide +kernel), .dec codes (by decide +kernel)⟩
theorem witness_axis_out_of_range :
    Met (.cqext np 5 4 (.imm 2) false) (fun v _ _ => GoodCodes [v.a.bits] ∧ codeDim v.a.bits ≤ 2) ∧
    Met (.cqadd np 5 4 (.step 2 1) false) (fun v _ _ => GoodCodes [v.a.bits] ∧ codeDim v.a.bits ≤ (2 : BitVec 3).toNat) ∧
    Met (.cqsub np 5 4 (.step 2 1) true) (fun v _ _ => GoodCodes [v.a.bits] ∧ codeDim v.a.bits ≤ (2 : BitVec 3).toNat) :=
  ⟨.codes (fun v => [v.a.bits]) _ (by decide +kernel), .codes (fun v => [v.a.bits]) _ (by decide +kernel),
    .codes (fun v => [v.a.bits]) _ (by decide +kernel)⟩

/-- An access that goes on. -/
def Goes (i : Instr) (w : Want) (n align : Nat) (posted : Bool) : Prop :=
  Met i (fun v th s => ∃ b, accessStep s th v.a w (capCursor v.a.bits + v.off) n align posted = .ok b)
/-- An access that a check stops. -/
def Stopped (i : Instr) (w : Want) (n align : Nat) : Prop :=
  Met i (fun v th s => ∃ c, accessCheck s th v.a w (capCursor v.a.bits + v.off) n align = some c)
/-- An access that parks. -/
def Parks (i : Instr) (w : Want) (n align : Nat) (posted : Bool) : Prop :=
  Met i (fun v th s => ∃ why, accessStep s th v.a w (capCursor v.a.bits + v.off) n align posted = .error (.park why))
/-- Every permission over the first 2^18 bytes of region 0x00. -/
def low : Quad := capBounds 0xFFF 0 0x40000
/-- k1 the scratchpad, k4 region 0x00 with no PLB entry, both leased; k2 no capability. -/
def memRegs (th : Thread) : Thread := caps [(1, full), (4, low)] { th with ranges := [full, low] }
/-- A computation that parks. -/
def parks {α : Type} : Except Stop α → Bool
  | .error (.park _) => true
  | _ => false
theorem parks_iff {α : Type} (x : Except Stop α) : parks x = true → ∃ y, x = .error (.park y) := by
  cases x with
  | ok _ => simp [parks]
  | error e => cases e <;> simp [parks]

/-- The accesses of an offset form, by the register that names their capability. -/
def accesses (a : Opn) : List (Instr × Want × Nat × Nat × Bool) :=
  let m : MemOps := ⟨np, 0, 8, a, .imm 0⟩
  [(.ld m 0 true false, wantLd, 1, 1, false), (.ld m 5 false false, wantLd, 32, 32, false), (.st m 0 false, wantSt, 1, 1, true),
   (.st m 5 false, wantSt, 32, 32, true), (.lda m 4, want permR permR, 16, 16, false), (.stl m 3, want permW permW, 8, 8, false),
   (.zline m, want permW permW, 128, 128, true), (.ldcap m, { wantLd with view := false, peer := false }, 16, 16, false),
   (.amo ⟨np, 0, 8, a, 6, 0, .add, .rlx, true⟩, want permAT permAT, 8, 8, false),
   (.amo ⟨np, 0, 8, a, 6, 0, .min, .acqrel, false⟩, want permAT permAT, 4, 4, false),
   (.cas ⟨np, 0, 8, a, 6, 7, 0, .acq, true⟩, want permAT permAT, 8, 8, false),
   (.topkins ⟨np, 0, 8, a, 6, 7, 0⟩, want (permR ||| permW ||| permAT) (permR ||| permW ||| permAT), 8, 8, false),
   (.wld m true, want (permR ||| permFE ||| permW) (permR ||| permFE), 8, 8, false),
   (.wld m false, want (permR ||| permFE ||| 0) (permR ||| permFE), 8, 8, false),
   (.fill m, want (permW ||| permFE) (permW ||| permFE), 8, 8, false), (.empty m, want (permW ||| permFE) (permW ||| permFE), 8, 8, true),
   (.fest m, want permFE (permR ||| permFE), 8, 8, false),
   (.waitne ⟨np, 8, a, 6, 0⟩, want permR (permR ||| permFE), 8, 8, false)]
theorem witness_accesses_go : ∀ x ∈ accesses 1, Goes x.1 x.2.1 x.2.2.1 x.2.2.2.1 x.2.2.2.2 := by
  have h : ∀ x ∈ accesses 1, metIn x.1 (stage 0 x.1 memRegs id) (fun v th s =>
    answers (accessStep s th v.a x.2.1 (capCursor v.a.bits + v.off) x.2.2.1 x.2.2.2.1 x.2.2.2.2)) = true := every (by decide +kernel)
  exact fun x hx => Met.of _ _ (h x hx) (fun _ _ _ => answers_iff _)
theorem witness_accesses_stop : ∀ x ∈ accesses 2, Stopped x.1 x.2.1 x.2.2.1 x.2.2.2.1 := by
  have h : ∀ x ∈ accesses 2, metIn x.1 (stage 0 x.1 memRegs id) (fun v th s =>
    (accessCheck s th v.a x.2.1 (capCursor v.a.bits + v.off) x.2.2.1 x.2.2.2.1).isSome) = true := every (by decide +kernel)
  exact fun x hx => Met.of _ _ (h x hx) (fun _ _ _ => isSome_iff _)
theorem witness_accesses_park : ∀ x ∈ accesses 4, Parks x.1 x.2.1 x.2.2.1 x.2.2.2.1 x.2.2.2.2 := by
  have h : ∀ x ∈ accesses 4, metIn x.1 (stage 0 x.1 memRegs id) (fun v th s =>
    parks (accessStep s th v.a x.2.1 (capCursor v.a.bits + v.off) x.2.2.1 x.2.2.2.1 x.2.2.2.2)) = true := every (by decide +kernel)
  exact fun x hx => Met.of _ _ (h x hx) (fun _ _ _ => parks_iff _)
theorem witness_fence : Met (.fence np .full .sys) (fun _ _ _ => True) := .dec id (by decide +kernel)

/-- The hypotheses of a store of a capability: allowed, and refused for want of GL. -/
theorem witness_stcap :
    Met (.stcap ⟨np, 0, 6, 1, .imm 0⟩) (fun v th s => stcapCheck s th v.a v.d (capCursor v.a.bits + v.off) = none ∧
      ∃ b, accessStep s th v.a { wantSt with peer := false } (capCursor v.a.bits + v.off) 16 16 true = .ok b) ∧
    Met (.stcap ⟨np, 0, 6, 4, .imm 0⟩) (fun v _ _ => v.a.tag = true ∧ capKind v.a.bits = 0 ∧ v.d.tag = true ∧
      selector (capCursor v.a.bits + v.off) = 0 ∧ grants (capPerms v.d.bits) permGL = false) ∧
    Met (.stcap ⟨np, 0, 6, 5, .imm 0⟩) (fun v _ _ => v.a.tag = true ∧ capKind v.a.bits = 0 ∧ v.d.tag = true ∧
      grants (capPerms v.a.bits) permSC = false) := by
  refine ⟨?_, .dec (fun th => caps [(6, buffer)] (memRegs th)) (by decide +kernel),
    .dec (fun th => caps [(6, buffer), (5, capBounds 3 0xF000000000000000 0xF000000000001000)] (memRegs th)) (by decide +kernel)⟩
  refine Met.test (fun v th s => decide (stcapCheck s th v.a v.d (capCursor v.a.bits + v.off) = none) &&
      answers (accessStep s th v.a { wantSt with peer := false } (capCursor v.a.bits + v.off) 16 16 true)) 0
    (fun th => caps [(6, buffer)] (memRegs th)) id (by decide +kernel) ?_
  intro _ _ _ h
  simp only [Bool.and_eq_true, decide_eq_true_eq] at h
  exact ⟨h.1, answers_iff _ h.2⟩
/-- Page tables that map the first GiB from home 1, frame 100, for lease domain 0, and a PLB entry of slot 0 for it. -/
def tables (s : State) : State := (s.store 0 8 (2 ^ 62 + 0x20000)).store 0x20000 8 (2 ^ 63 + 2 ^ 36 + 100 * 2 ^ 24)
def plbOne (s : State) : State := (tables s).modCore 0 (fun k => { k with plb := [⟨0, 1, 0, 1, 100, 0xFFF⟩] })
/-- The line of a PREF, and a PREF with work to do. -/
def prefVa (v : Vals) : Word := (capCursor v.a.bits + v.off) / 128 * 128
def busyPref (v : Vals) (th : Thread) (s : State) : Bool :=
  (accessCheck s th v.a ⟨permR, permR, true, false, false⟩ (prefVa v) 128 1).isNone && selector (prefVa v) == 0 && prefMapped s th (prefVa v)
def Prefetches (g : State → State) (p : Vals → Thread → State → Bool) : Prop :=
  metIn (.pref ⟨np, 0, 256, 4, .imm 0⟩ true) (stage 0 (.pref ⟨np, 0, 256, 4, .imm 0⟩ true) memRegs g)
    (fun v th s => busyPref v th s && p v th s) = true
theorem prefetches_of {g : State → State} {p : Vals → Thread → State → Bool}
    (h : metIn (.pref ⟨np, 0, 256, 4, .imm 0⟩ true) (stage 0 (.pref ⟨np, 0, 256, 4, .imm 0⟩ true) memRegs g)
      (fun v th s => busyPref v th s && p v th s) = true) : Prefetches g p := h
theorem witness_pref :
    Met (.pref ⟨np, 0, 256, 2, .imm 0⟩ false) (fun v th s => (accessCheck s th v.a ⟨permR, permR, true, false, false⟩
      ((capCursor v.a.bits + v.off) / 128 * 128) 128 1).isSome = true) ∧
    Prefetches plbOne (fun v th s => !postedFull th && answers (translate s s.cur (prefVa v))) ∧
    Prefetches tables (fun v _ s => parks (translate s s.cur (prefVa v))) :=
  ⟨.dec memRegs (by decide +kernel), prefetches_of (by decide +kernel), prefetches_of (by decide +kernel)⟩

/-- A travel task, with nothing outstanding or a posted store. -/
def travels (mayGo : Bool) (th : Thread) : Thread :=
  let th := memRegs { th with mode := .travel }
  if mayGo then th else { th with ops := [posted] }
/-- What stands ready for a task that may move: an access that has passed its checks, or a MIG. -/
def readyStep (i : Instr) (v : Vals) (th : Thread) (s : State) : Except Stop State :=
  let va := capCursor v.a.bits + v.off
  match i with
  | .ld _ sz _ _ => accessStep s th v.a wantLd va (Machine.sizeOf sz) (Machine.sizeOf sz) false
  | .st _ sz _ => accessStep s th v.a wantSt va (Machine.sizeOf sz) (Machine.sizeOf sz) true
  | _ => if firstFailure (migRules th v.a va) = none then translate s s.cur va else .error .wait
/-- LD and ST with GO, and MIG. -/
def going (a : Opn) : List Instr := [.ld ⟨np, 0, 8, a, .imm 0⟩ 3 false true, .st ⟨np, 0, 8, a, .imm 0⟩ 3 true, .mig ⟨np, 0, 256, a, .imm 0⟩]
/-- Whether such an instruction stays, may leave, or is held. -/
def Moves (i : Instr) (stays may : Bool) : Prop :=
  Met i (fun v th s => ∃ b, readyStep i v th s = .ok b ∧
    ((travelTarget b s.cur th (capCursor v.a.bits + v.off)).isNone = stays) ∧ mayLeave s.unit th = may)
theorem moves_of {i : Instr} {stays may : Bool} {f : Thread → Thread} {g : State → State}
    (h : metIn i (stage 0 i f g) (fun v th s =>
      match readyStep i v th s with
      | .ok b => ((travelTarget b s.cur th (capCursor v.a.bits + v.off)).isNone == stays) && mayLeave s.unit th == may
      | .error _ => false) = true) : Moves i stays may :=
  Met.of _ _ h (fun v th s h => by
    split at h
    · rename_i b hb; simp only [Bool.and_eq_true, beq_iff_eq] at h; exact ⟨b, hb, h.1, h.2⟩
    · cases h)
theorem witness_travel : (∀ x ∈ going 1, Moves x true true) ∧ (∀ x ∈ going 4, Moves x false true) ∧ (∀ x ∈ going 4, Moves x false false) := by
  refine ⟨fun x hx => moves_of (f := travels true) (g := id) ?_, fun x hx => moves_of (f := travels true) (g := plbOne) ?_,
    fun x hx => moves_of (f := travels false) (g := plbOne) ?_⟩
  all_goals revert x; decide +kernel
theorem witness_mig_stops : ∀ x ∈ ([(Val.data full, [full], .tag), (⟨capWithKind full 1, true⟩, [full], .sealed),
    (⟨(capMove ⟨full, true⟩ 0xF000000000030000).bits, true⟩, [full], .bounds), (⟨low, true⟩, [full], .lease)] : List (Val × List Quad × Code)),
    Met (.mig ⟨np, 0, 256, 7, .imm 0⟩) (fun v th _ => firstFailure (migRules th v.a (capCursor v.a.bits + v.off)) = some x.2.2) := by
  intro x hx
  refine Met.of _ (stage 0 (.mig ⟨np, 0, 256, 7, .imm 0⟩) (fun th => { th.setReg 7 x.1 with ranges := x.2.1 }) id) ?_
    (fun _ _ _ => of_decide_eq_true)
  revert x
  decide +kernel

/-- CQSPLIT: into the scratchpad, with no capability, and over codes of two dimensions. -/
def sp (a b : Opn) : SplitOps := ⟨np, 0, 12, a, b, 7, 256, 256, 0⟩
def splitRegs (th : Thread) : Thread := caps [(1, full)] (regs ((10, 1) :: box) th)
theorem witness_split :
    Met (.cqsplit (sp 2 6)) (fun v _ _ => ∃ c, capCheck v.a permW (capCursor v.a.bits).toNat 8192 32 = some c) ∧
    Met (.cqsplit (sp 1 10)) (fun v _ _ => capCheck v.a permW (capCursor v.a.bits).toNat 8192 32 = none ∧
      ∃ c, curveCheck [v.b.bits, v.c.bits, v.b.bits] = some c) ∧
    Met (.cqsplit (sp 8 6)) (fun v th s => capCheck v.a permW (capCursor v.a.bits).toNat 8192 32 = none ∧
      curveCheck [v.b.bits, v.c.bits, v.b.bits] = none ∧ ∃ c, regionCheck s th.sup th.ranges (want permW permW) (capCursor v.a.bits) 8192 = some c) ∧
    Met (.cqsplit (sp 1 6)) (fun v th s => capCheck v.a permW (capCursor v.a.bits).toNat 8192 32 = none ∧
      curveCheck [v.b.bits, v.c.bits, v.b.bits] = none ∧
      ∃ b, accessStep s th v.a (want permW permW) (capCursor v.a.bits) 8192 32 false = .ok b) := by
  refine ⟨?_, ?_, ?_, ?_⟩
  · exact Met.test (fun v _ _ => (capCheck v.a permW (capCursor v.a.bits).toNat 8192 32).isSome) 0 splitRegs id (by decide +kernel)
      (fun _ _ _ => isSome_iff _)
  · refine Met.test (fun v _ _ => decide (capCheck v.a permW (capCursor v.a.bits).toNat 8192 32 = none) &&
      (curveCheck [v.b.bits, v.c.bits, v.b.bits]).isSome) 0 splitRegs id (by decide +kernel) ?_
    intro _ _ _ h
    simp only [Bool.and_eq_true, decide_eq_true_eq] at h
    exact ⟨h.1, isSome_iff _ h.2⟩
  · refine Met.test (fun v th s => decide (capCheck v.a permW (capCursor v.a.bits).toNat 8192 32 = none ∧
      curveCheck [v.b.bits, v.c.bits, v.b.bits] = none) && (regionCheck s th.sup th.ranges (want permW permW) (capCursor v.a.bits) 8192).isSome)
      0 (fun th => caps [(8, low)] (splitRegs th)) id (by decide +kernel) ?_
    intro _ _ _ h
    simp only [Bool.and_eq_true, decide_eq_true_eq] at h
    exact ⟨h.1.1, h.1.2, isSome_iff _ h.2⟩
  · refine Met.test (fun v th s => decide (capCheck v.a permW (capCursor v.a.bits).toNat 8192 32 = none) &&
      decide (curveCheck [v.b.bits, v.c.bits, v.b.bits] = none) &&
      answers (accessStep s th v.a (want permW permW) (capCursor v.a.bits) 8192 32 false)) 0 splitRegs id (by decide +kernel) ?_
    intro _ _ _ h
    simp only [Bool.and_eq_true, decide_eq_true_eq] at h
    exact ⟨h.1.1, h.1.2, answers_iff _ h.2⟩

/-- An MMA of int8 rows in the scratchpad into tile 0, without scales. -/
def mo : MmaOps := ⟨np, 0, 1, 1, 256, 256, 16, 16, 1, 1, 0, 0, .none, false, true⟩
/-- The tile is the thread's to use, as a test. -/
def tileReady (s : State) (th : Thread) (i : Nat) : Bool :=
  let x := (s.core (tcore s.cur)).tile i
  !isHandler s.cur && (x.free || x.owner == th.taskid) && !x.busy && !x.drain
theorem tileReady_iff {s : State} {th : Thread} {i : Nat} (h : tileReady s th i = true) : TileReady s s.cur th i := by
  unfold tileReady at h
  simp only [Bool.and_eq_true, Bool.not_eq_true', Bool.or_eq_true, beq_iff_eq] at h
  exact ⟨h.1.1.1, h.1.1.2, h.1.2, h.2⟩
def tileWaits (s : State) (th : Thread) (i : Nat) : Bool :=
  let x := (s.core (tcore s.cur)).tile i
  !isHandler s.cur && ((!x.free && x.owner != th.taskid) || x.busy || x.drain)
theorem tileWaits_iff {s : State} {th : Thread} {i : Nat} (h : tileWaits s th i = true) : TileWaits s s.cur th i := by
  unfold tileWaits at h
  simp only [Bool.and_eq_true, Bool.not_eq_true', Bool.or_eq_true, bne_iff_ne] at h
  refine ⟨h.1, ?_⟩
  rcases h.2 with (h | h) | h
  · exact .inl h
  · exact .inr (.inl h)
  · exact .inr (.inr h)
/-- Another task's tile, a busy tile and a draining one. -/
def foreign (s : State) : State := s.modTile 0 0 (fun x => { x with free := false, owner := 77 })
def busyTile (s : State) : State := s.modTile 0 0 (fun x => { x with free := false, owner := 1, busy := true })
def draining (s : State) : State := s.modTile 0 0 (fun x => { x with free := false, owner := 1, drain := true })
/-- The matrix unit at work for another thread. -/
def working (s : State) : State := s.modCore 0 (fun k => { k with matrix := some (5, 9) })
/-- An earlier claim of task 77 on the matrix unit. -/
def claimed (s : State) : State := s.modCore 0 (fun k => { k with claims := [(77, none)] })

theorem witness_matrix_goes : ∀ x ∈ (List.range 11).zip (mmaOf mo), Met x.2 (fun v th s =>
    TileReady s s.cur th mo.d.toNat ∧ unitBusy (s.core (tcore s.cur)) th.taskid = false ∧ ∃ m, matrixChecks s s.cur th x.1 mo v = .ok m) := by
  have h : ∀ x ∈ (List.range 11).zip (mmaOf mo), metIn x.2 (stage 0 x.2 memRegs id) (fun v th s =>
    tileReady s th mo.d.toNat && !unitBusy (s.core (tcore s.cur)) th.taskid && answers (matrixChecks s s.cur th x.1 mo v)) = true := every (by decide +kernel)
  refine fun x hx => Met.of _ _ (h x hx) (fun _ _ _ h => ?_)
  simp only [Bool.and_eq_true, Bool.not_eq_true'] at h
  exact ⟨tileReady_iff h.1.1, h.1.2, answers_iff _ h.2⟩
theorem witness_matrix_stops : ∀ x ∈ (List.range 11).zip (mmaOf { mo with a := 2 }), Met x.2 (fun v th s =>
    TileReady s s.cur th mo.d.toNat ∧ unitBusy (s.core (tcore s.cur)) th.taskid = false ∧ ∃ e, matrixChecks s s.cur th x.1 { mo with a := 2 } v = .error e) := by
  have h : ∀ x ∈ (List.range 11).zip (mmaOf { mo with a := 2 }), metIn x.2 (stage 0 x.2 memRegs id) (fun v th s =>
    tileReady s th mo.d.toNat && !unitBusy (s.core (tcore s.cur)) th.taskid && !answers (matrixChecks s s.cur th x.1 { mo with a := 2 } v)) = true := every (by decide +kernel)
  refine fun x hx => Met.of _ _ (h x hx) (fun _ th s h => ?_)
  simp only [Bool.and_eq_true, Bool.not_eq_true'] at h
  refine ⟨tileReady_iff h.1.1, h.1.2, ?_⟩
  cases hc : matrixChecks s s.cur th x.1 { mo with a := 2 } _ with
  | ok m => rw [hc] at h; simp [answers] at h
  | error e => exact ⟨e, rfl⟩
theorem witness_matrix_waits :
    Met (.mmaT32 mo) (fun _ _ s => isHandler s.cur = true) ∧
    Met (.mmaT32 mo) (fun _ th s => TileWaits s s.cur th 0) ∧ Met (.smmaQ mo) (fun _ th s => TileWaits s s.cur th 0) ∧
    Met (.mmaQ mo) (fun _ th s => TileWaits s s.cur th 0) ∧
    Met (.mmaW mo) (fun _ th s => TileReady s s.cur th 0 ∧ unitBusy (s.core (tcore s.cur)) th.taskid = true) ∧
    Met (.smmaQ mo) (fun _ th s => TileReady s s.cur th 0 ∧ unitBusy (s.core (tcore s.cur)) th.taskid = true) :=
  ⟨.at 64 memRegs id (by decide +kernel),
    .test (fun _ th s => tileWaits s th 0) 0 memRegs foreign (by decide +kernel) (fun _ _ _ => tileWaits_iff),
    .test (fun _ th s => tileWaits s th 0) 0 memRegs busyTile (by decide +kernel) (fun _ _ _ => tileWaits_iff),
    .test (fun _ th s => tileWaits s th 0) 0 memRegs draining (by decide +kernel) (fun _ _ _ => tileWaits_iff),
    .test (fun _ th s => tileReady s th 0 && unitBusy (s.core (tcore s.cur)) th.taskid) 0 memRegs working (by decide +kernel)
      (fun _ _ _ h => by simp only [Bool.and_eq_true] at h; exact ⟨tileReady_iff h.1, h.2⟩),
    .test (fun _ th s => tileReady s th 0 && unitBusy (s.core (tcore s.cur)) th.taskid) 0 memRegs claimed (by decide +kernel)
      (fun _ _ _ h => by simp only [Bool.and_eq_true] at h; exact ⟨tileReady_iff h.1, h.2⟩)⟩
/-- The spans of an MMA answer over a thread and a state, and its formats clash or agree. -/
def spansOf (o : MmaOps) : Bool :=
  let s := stage 0 (.mmaT32 o) memRegs id
  let th := memRegs { Thread.blank with ranges := [full] }
  let v := s.vals th (.mmaT32 o)
  answers (matrixSpans s 0 th o v (matrixJob s th 0 o v Val.zero))
theorem witness_matrix_formats :
    spansOf mo = true ∧ spansOf { mo with fa := 0 } = true ∧ spansOf { mo with fb := 11 } = true ∧
    spansOf { mo with verd := .sign, ba := 0, bb := 1 } = true := by decide +kernel

theorem witness_monitor :
    (monitorStep (monitor 2) 0 false 0 { VerdictWord.reset with vst := .kept }).2.vst = .kept ∧
    (monitorStep (monitor 2) 0 true 0 VerdictWord.reset).2.nodec = true ∧
    (monitorStep (monitor 2) 0 false 5 { VerdictWord.reset with vst := .isFalse }).1 = 5 ∧
    (monitorStep (monitor 7) 0x47C35000 false 0 VerdictWord.reset).2.vst = .isTrue := by decide +kernel

/-- The tile instructions. -/
def tileUsers : List Instr := [.macz np 0 true, .macld ⟨np, 0, 1, false, 0, 8⟩, .macst ⟨np, 0, 1, true, true, 8⟩, .mdrain np 0 256 7]
theorem witness_tile_rules :
    (∀ i ∈ tileUsers, Met i (fun _ _ s => isHandler s.cur = true)) ∧ (∀ i ∈ tileUsers, Met i (fun _ th s => TileWaits s s.cur th 0)) := by
  have h1 : ∀ i ∈ tileUsers, metIn i (stage 64 i memRegs id) (fun _ _ s => isHandler s.cur) = true := every (by decide +kernel)
  have h2 : ∀ i ∈ tileUsers, metIn i (stage 0 i memRegs busyTile) (fun _ th s => tileWaits s th 0) = true := every (by decide +kernel)
  exact ⟨fun i hi => Met.of _ _ (h1 i hi) (fun _ _ _ h => h), fun i hi => Met.of _ _ (h2 i hi) (fun _ _ _ => tileWaits_iff)⟩
theorem witness_macz : Met (.macz np 0 true) (fun _ th s => TileReady s s.cur th 0) ∧ Met (.macz np 3 false) (fun _ th s => TileReady s s.cur th 3) :=
  ⟨.test (fun _ th s => tileReady s th 0) 0 memRegs id (by decide +kernel) (fun _ _ _ => tileReady_iff),
    .test (fun _ th s => tileReady s th 3) 0 memRegs id (by decide +kernel) (fun _ _ _ => tileReady_iff)⟩
theorem witness_macld : Met (.macld ⟨np, 0, 1, false, 3, 8⟩) (fun v th s => TileReady s s.cur th 0 ∧ ∃ b,
    accessStep s th v.a ⟨permR, permR, true, false, false⟩ (capCursor v.a.bits + v.off) (16 * 8 * (1 - 1) + rowBytes false 32) 16 false =
      .ok b ∧ ownWaits b s.cur th = false) := by
  refine .test (fun v th s => tileReady s th 0 && (match accessStep s th v.a ⟨permR, permR, true, false, false⟩
      (capCursor v.a.bits + v.off) (16 * 8 * (1 - 1) + rowBytes false 32) 16 false with
    | .ok b => !ownWaits b s.cur th | .error _ => false)) 0 memRegs id (by decide +kernel) (fun _ _ _ h => ?_)
  simp only [Bool.and_eq_true] at h
  refine ⟨tileReady_iff h.1, ?_⟩
  have := h.2
  split at this
  · rename_i b hb; exact ⟨b, hb, by simpa using this⟩
  · cases this
theorem witness_macst : Met (.macst ⟨np, 0, 1, true, true, 8⟩) (fun v th s => TileReady s s.cur th 0 ∧ ∃ b,
    accessStep s th v.a (want permW permW) (capCursor v.a.bits + v.off) (16 * 8 * (32 - 1) + rowBytes true 32) 16 true = .ok b) := by
  refine .test (fun v th s => tileReady s th 0 && answers (accessStep s th v.a (want permW permW)
      (capCursor v.a.bits + v.off) (16 * 8 * (32 - 1) + rowBytes true 32) 16 true)) 0 memRegs id (by decide +kernel) (fun _ _ _ h => ?_)
  simp only [Bool.and_eq_true] at h
  exact ⟨tileReady_iff h.1, answers_iff _ h.2⟩
/-- A HENTRY recorded for a lease domain. -/
def entered (dom : BitVec 16) (s : State) : State := s.modCore 0 (fun k => { k with hentry := ⟨placeCap, true⟩, hdomain := dom })
theorem witness_mdrain :
    Met (.mdrain np 0 256 7) (fun _ th s => TileReady s s.cur th 0 ∧ (s.core (tcore s.cur)).hentry.tag = false) ∧
    Met (.mdrain np 0 256 7) (fun _ th s => TileReady s s.cur th 0 ∧ (s.core (tcore s.cur)).hentry.tag = true ∧
      (s.core (tcore s.cur)).hdomain ≠ th.domain) ∧
    Met (.mdrain np 0 1 7) (fun v th s => TileReady s s.cur th 0 ∧ (s.core (tcore s.cur)).hentry.tag = true ∧
      (s.core (tcore s.cur)).hdomain = th.domain ∧ accessCheck s th v.a (want permFE (permW ||| permFE)) (capCursor v.a.bits) 8 8 = none) := by
  refine ⟨.test (fun _ th s => tileReady s th 0 && !(s.core (tcore s.cur)).hentry.tag) 0 memRegs id (by decide +kernel) ?_,
    .test (fun _ th s => tileReady s th 0 && decide ((s.core (tcore s.cur)).hentry.tag = true ∧
      (s.core (tcore s.cur)).hdomain ≠ th.domain)) 0 memRegs (entered 5) (by decide +kernel) ?_,
    .test (fun v th s => tileReady s th 0 && decide ((s.core (tcore s.cur)).hentry.tag = true ∧
      (s.core (tcore s.cur)).hdomain = th.domain ∧ accessCheck s th v.a (want permFE (permW ||| permFE)) (capCursor v.a.bits) 8 8 = none))
      0 memRegs (entered 0) (by decide +kernel) ?_⟩
  all_goals intro _ _ _ h
  all_goals simp only [Bool.and_eq_true, decide_eq_true_eq, Bool.not_eq_true'] at h
  · exact ⟨tileReady_iff h.1, h.2⟩
  · exact ⟨tileReady_iff h.1, h.2.1, h.2.2⟩
  · exact ⟨tileReady_iff h.1, h.2⟩
theorem witness_handlers :
    Met (.mhset np 3 1) (fun v _ _ => v.a.tag = true ∧ 2 ≤ capKind v.a.bits) ∧
    Met (.mhset np 6 1) (fun v _ _ => v.a.tag = true ∧ capKind v.a.bits < 2 ∧ grants (capPerms v.a.bits) permX = false) ∧
    Met (.mhset np 4 1) (fun v _ _ => v.a.tag = false ∨ (capKind v.a.bits < 2 ∧ grants (capPerms v.a.bits) permX = true)) ∧
    Met (.mhset np 5 1) (fun v _ _ => v.a.tag = false) ∧
    Met .hend (fun _ _ s => isHandler s.cur = false) ∧ Met .hend (fun _ th s => isHandler s.cur = true ∧ lateHandler s th = false) ∧
    Met .hend (fun _ th s => isHandler s.cur = true ∧ lateHandler s th = true) ∧
    Met (.vbound ⟨np, 5, 6, 7, 8, true, 1, 1, 1, 15⟩) (fun v _ _ => isAbandoned f32 (v.c.bits.setWidth 32 : BitVec 32).toNat = true) ∧
    Met (.vbound ⟨np, 5, 6, 7, 9, true, 1, 1, 1, 15⟩) (fun v _ _ => isAbandoned f32 (v.c.bits.setWidth 32 : BitVec 32).toNat = false) ∧
    Met (.vbound ⟨np, 5, 6, 7, 256, false, 14, 20, 1, 0⟩) (fun _ _ _ => isAbandoned f32 0 = false) :=
  ⟨.dec capRegs (by decide +kernel), .dec capRegs (by decide +kernel), .dec capRegs (by decide +kernel), .dec capRegs (by decide +kernel), .dec id (by decide +kernel),
    .at 64 id id (by decide +kernel), .at 64 (fun th => { th with dispatch := some ⟨3, 4, 0, 0⟩ }) (fun s => { s with cycle := 65536 }) (by decide +kernel), .dec (regs [(8, 0x7FA00000)]) (by decide +kernel), .dec id (by decide +kernel), .dec id (by decide +kernel)⟩

/-- `full` with its cursor at an offset. -/
def fullAt (off : Nat) : Quad := (capMove ⟨full, true⟩ (BitVec.ofNat 64 (0xF000000000000000 + off))).bits
/-- k1, k4 as in memRegs; k9 names the scratchpad from 0x1000; k8 shelf 0 with all planes, k10 shelf 4. -/
def engRegs (th : Thread) : Thread := caps [(9, fullAt 0x1000)] (regs [(8, 0xFF * 2 ^ 64), (10, 4)] (memRegs th))
/-- Lease table entry 0 with shelves 0 to 3, and a COPY shape of four 8-byte elements at 0x1000. -/
def shelves (s : State) : State :=
  let s := ((s.store 56 8 0).store 64 8 4).store 72 1 1
  (((s.store (spadLoc 0 0x1000) 16 0x301).store (spadLoc 0 0x1010) 8 4).store (spadLoc 0 0x1018) 8 8).store (spadLoc 0 0x1020) 8 8
/-- An engine whose queue is full. -/
def fullEngine (s : State) : State :=
  let v : Vals := ⟨Val.zero, Val.zero, Val.zero, Val.zero, Val.zero, Val.zero, 0, none⟩
  (shelves s).modCore 0 (fun k => { k with engine := List.replicate Config.engineQueueSize (newEngine 0 Thread.blank .copy v .none 0) })
def cp : EngOps := ⟨np, 7, 1, 1, 9, 1, .fill, 1⟩
def ao : EngOps := ⟨np, 7, 4, 8, 256, 1, .write, 1⟩
def ai : ArcinOps := ⟨np, 7, 4, 8, 256, 1, 1⟩
def ad : DropOps := ⟨np, 7, 1, 8, .fill, 1⟩
/-- The checks of an engine instruction pass. -/
def engineOk (i : Instr) (v : Vals) (th : Thread) (s : State) : Bool :=
  match i with
  | .copy o => (match readShape s s.cur th v.c with | .ok x => (copyCheck s th v.a v.b x.1 x.2).isNone | .error _ => false) &&
      (complCheck s th o.mode v.e).isNone
  | .arcout o => (spanCheck s th v.a wantPage (capCursor v.a.bits) (2 ^ 18) (2 ^ 18)).isNone &&
      !planesBad s (capCursor v.a.bits) v.b.bits && shelfLeased s th.domain v.b.lo.toNat && (complCheck s th o.mode v.e).isNone
  | .arcin _ => (spanCheck s th v.a wantWrite (capCursor v.a.bits) (2 ^ 18) (2 ^ 18)).isNone &&
      shelfLeased s th.domain v.b.lo.toNat && (complCheck s th .fill v.e).isNone
  | .arcdrop o => shelfLeased s th.domain v.b.lo.toNat && (complCheck s th o.mode v.a).isNone
  | _ => false
theorem witness_engine : ∀ i ∈ ([.copy cp, .arcout ao, .arcin ai, .arcdrop ad] : List Instr),
    Met i (fun v th s => engineOk i v th s = true ∧ engineFull s (tcore s.cur) = false) ∧
    Met i (fun v th s => engineOk i v th s = true ∧ engineFull s (tcore s.cur) = true) := by
  have h1 : ∀ i ∈ ([.copy cp, .arcout ao, .arcin ai, .arcdrop ad] : List Instr), metIn i (stage 0 i engRegs shelves)
    (fun v th s => engineOk i v th s && !engineFull s (tcore s.cur)) = true := every (by decide +kernel)
  have h2 : ∀ i ∈ ([.copy cp, .arcout ao, .arcin ai, .arcdrop ad] : List Instr), metIn i (stage 0 i engRegs fullEngine)
    (fun v th s => engineOk i v th s && engineFull s (tcore s.cur)) = true := every (by decide +kernel)
  exact fun i hi => ⟨Met.of _ _ (h1 i hi) (fun _ _ _ h => by simpa using h), Met.of _ _ (h2 i hi) (fun _ _ _ h => by simpa using h)⟩
theorem witness_engine_shelf :
    Met (.arcdrop { ad with b := 10 }) (fun v th s => shelfLeased s th.domain v.b.lo.toNat = false) ∧
    Met (.arcout { ao with b := 11 }) (fun v th s => spanCheck s th v.a wantPage (capCursor v.a.bits) (2 ^ 18) (2 ^ 18) = none ∧
      planesBad s (capCursor v.a.bits) v.b.bits = false ∧ shelfLeased s th.domain v.b.lo.toNat = false) ∧
    Met (.arcout { ao with b := 10 }) (fun v th s => spanCheck s th v.a wantPage (capCursor v.a.bits) (2 ^ 18) (2 ^ 18) = none ∧
      planesBad s (capCursor v.a.bits) v.b.bits = true) ∧
    Met (.arcin { ai with b := 10 }) (fun v th s => spanCheck s th v.a wantWrite (capCursor v.a.bits) (2 ^ 18) (2 ^ 18) = none ∧
      shelfLeased s th.domain v.b.lo.toNat = false) ∧
    Met (.engst ⟨np, 0, 7, .imm 3⟩) (fun _ _ _ => True) :=
  ⟨.at 0 engRegs shelves (by decide +kernel), .at 0 (fun th => regs [(11, 0xFF0000000000000063)] (engRegs th)) shelves (by decide +kernel),
    .at 0 engRegs shelves (by decide +kernel), .at 0 engRegs shelves (by decide +kernel), .dec id (by decide +kernel)⟩

/-- Mark domain 3 of 16 cells of two dimensions from virtual address 0x1000, stepped, with the page's tables and PLB entry. -/
def marked (stepped : Bool) (s : State) : State :=
  (plbOne s).modMark 3 (fun _ => { cooling with
    desc := (cooling.desc.set 32 2).set 34 (if stepped then 1 else 0), base := 0x1000, top := 0x1080, domain := 0 })
/-- k4 region 0x00; codes: k5 of a cell, k6 and k7 a box, k8 no code, k9 three dimensions, k10 past the domain, k11 a large box. -/
def markRegs (th : Thread) : Thread :=
  regs [(5, c2 15), (6, c2 3), (7, c2 12), (8, 1), (9, 3 * 2 ^ 116), (10, c2 16), (11, c2 16383), (12, c2 0)] (memRegs th)
/-- A mark operation on one cell. -/
def mk (b : Opn) : MarkOps := ⟨np, 0, 13, 4, b, 3⟩
def marks (b : Opn) : List Instr := [.mdep (mk b), .merase { mk b with d := 256 }, .mread (mk b)]
theorem witness_mark_checks : (∀ i ∈ marks 5, Met i (fun _ _ s => (s.mark 3).bound = false)) ∧
    (∀ i ∈ marks 8, Met i (fun v _ s => (s.mark 3).bound = true ∧ codeOk v.b.bits = false)) ∧
    (∀ i ∈ marks 9, Met i (fun v _ s => (s.mark 3).bound = true ∧ codeOk v.b.bits = true ∧ codeDim v.b.bits ≠ (s.mark 3).dims)) ∧
    (∀ i ∈ marks 10, Met i (fun v _ s => (s.mark 3).bound = true ∧ codeOk v.b.bits = true ∧ codeDim v.b.bits = (s.mark 3).dims ∧
      (s.mark 3).cells ≤ codeDigits v.b.bits)) := by
  have h1 : ∀ i ∈ marks 5, metIn i (stage 0 i markRegs id) (fun _ _ s => decide ((s.mark 3).bound = false)) = true := every (by decide +kernel)
  have h2 : ∀ i ∈ marks 8, metIn i (stage 0 i markRegs (marked true))
    (fun v _ s => decide ((s.mark 3).bound = true ∧ codeOk v.b.bits = false)) = true := every (by decide +kernel)
  have h3 : ∀ i ∈ marks 9, metIn i (stage 0 i markRegs (marked true)) (fun v _ s => decide ((s.mark 3).bound = true ∧
    codeOk v.b.bits = true ∧ codeDim v.b.bits ≠ (s.mark 3).dims)) = true := every (by decide +kernel)
  have h4 : ∀ i ∈ marks 10, metIn i (stage 0 i markRegs (marked true)) (fun v _ s => decide ((s.mark 3).bound = true ∧
    codeOk v.b.bits = true ∧ codeDim v.b.bits = (s.mark 3).dims ∧ (s.mark 3).cells ≤ codeDigits v.b.bits)) = true := every (by decide +kernel)
  exact ⟨fun i hi => Met.of _ _ (h1 i hi) (fun _ _ _ => of_decide_eq_true), fun i hi => Met.of _ _ (h2 i hi) (fun _ _ _ => of_decide_eq_true),
    fun i hi => Met.of _ _ (h3 i hi) (fun _ _ _ => of_decide_eq_true), fun i hi => Met.of _ _ (h4 i hi) (fun _ _ _ => of_decide_eq_true)⟩
/-- A translation that answers, with the thread in its slot and room for a posted access. -/
def translates (s : State) (va : Word) : Bool :=
  match translate s s.cur va with
  | .ok b => (match b.thread s.cur with | some th => !postedFull th | none => false)
  | .error _ => false
theorem translates_iff {s : State} {va : Word} (h : translates s va = true) :
    ∃ b th, translate s s.cur va = .ok b ∧ b.thread s.cur = some th ∧ postedFull th = false := by
  unfold translates at h
  split at h
  · rename_i b hb
    split at h
    · rename_i th hth; exact ⟨b, th, hb, hth, by simpa using h⟩
    · cases h
  · cases h
theorem witness_mark_cell : ∀ i ∈ marks 5, Met i (fun v th s => CellGood s th 3 v.a v.b.bits ∧
    ∃ b x, translate s s.cur (cellVa (s.mark 3) (codeDigits v.b.bits)) = .ok b ∧ b.thread s.cur = some x ∧ postedFull x = false) := by
  have h : ∀ i ∈ marks 5, metIn i (stage 0 i markRegs (marked true)) (fun v th s =>
    decide ((s.mark 3).bound = true ∧ codeOk v.b.bits = true ∧ codeDim v.b.bits = (s.mark 3).dims ∧
      codeDigits v.b.bits < (s.mark 3).cells ∧
      accessCheck s th v.a (want permAT permAT) (cellVa (s.mark 3) (codeDigits v.b.bits)) 8 8 = none) &&
    translates s (cellVa (s.mark 3) (codeDigits v.b.bits))) = true := every (by decide +kernel)
  refine fun i hi => Met.of _ _ (h i hi) (fun _ _ _ h => ?_)
  simp only [Bool.and_eq_true, decide_eq_true_eq] at h
  exact ⟨h.1, translates_iff h.2⟩
/-- Box operations. -/
def sn (b c : Opn) : SenseOps := ⟨np, 0, 14, 4, b, c, 3⟩
theorem witness_mark_box : ∀ i ∈ ([.msense (sn 6 7), .msamp (sn 6 7)] : List Instr), Met i (fun v th s => BoxGood s th 3 v ∧
    boxEmpty (s.mark 3).dims (codeDigits v.b.bits) (codeDigits v.c.bits) = false ∧
    ∃ b x, translate s s.cur (cellVa (s.mark 3) (codeDigits v.b.bits)) = .ok b ∧ b.thread s.cur = some x ∧ postedFull x = false) := by
  have h : ∀ i ∈ ([.msense (sn 6 7), .msamp (sn 6 7)] : List Instr), metIn i (stage 0 i markRegs (marked true)) (fun v th s =>
    decide ((s.mark 3).bound = true ∧ codeOk v.b.bits = true ∧ codeOk v.c.bits = true ∧ codeDim v.b.bits = (s.mark 3).dims ∧
      codeDim v.c.bits = (s.mark 3).dims ∧ boxCount (s.mark 3).dims (codeDigits v.b.bits) (codeDigits v.c.bits) ≤ 4096 ∧
      codeDigits v.c.bits < (s.mark 3).cells ∧
      accessCheck s th v.a (want permAT permAT) (cellVa (s.mark 3) (codeDigits v.b.bits))
        (8 * (codeDigits v.c.bits - codeDigits v.b.bits + 1)) 8 = none) &&
    !boxEmpty (s.mark 3).dims (codeDigits v.b.bits) (codeDigits v.c.bits) &&
    translates s (cellVa (s.mark 3) (codeDigits v.b.bits))) = true := every (by decide +kernel)
  refine fun i hi => Met.of _ _ (h i hi) (fun _ _ _ h => ?_)
  simp only [Bool.and_eq_true, decide_eq_true_eq, Bool.not_eq_true'] at h
  exact ⟨h.1.1, h.1.2, translates_iff h.2⟩
theorem witness_mark_box_limits : ∀ i ∈ ([.msense (sn 7 6), .msamp (sn 7 6)] : List Instr), ∀ k ∈ ([.msense (sn 12 11), .msamp (sn 12 11)] :
    List Instr),
    Met i (fun v _ s => (s.mark 3).bound = true ∧ markCodes (s.mark 3).dims [v.b.bits, v.c.bits] = none ∧
      boxEmpty (s.mark 3).dims (codeDigits v.b.bits) (codeDigits v.c.bits) = true) ∧
    Met k (fun v _ s => (s.mark 3).bound = true ∧ markCodes (s.mark 3).dims [v.b.bits, v.c.bits] = none ∧
      boxEmpty (s.mark 3).dims (codeDigits v.b.bits) (codeDigits v.c.bits) = false ∧
      4096 < boxCount (s.mark 3).dims (codeDigits v.b.bits) (codeDigits v.c.bits)) := by
  have h1 : ∀ i ∈ ([.msense (sn 7 6), .msamp (sn 7 6)] : List Instr), metIn i (stage 0 i markRegs (marked true)) (fun v _ s =>
    decide ((s.mark 3).bound = true ∧ markCodes (s.mark 3).dims [v.b.bits, v.c.bits] = none ∧
      boxEmpty (s.mark 3).dims (codeDigits v.b.bits) (codeDigits v.c.bits) = true)) = true := every (by decide +kernel)
  have h2 : ∀ i ∈ ([.msense (sn 12 11), .msamp (sn 12 11)] : List Instr), metIn i (stage 0 i markRegs (marked true)) (fun v _ s =>
    decide ((s.mark 3).bound = true ∧ markCodes (s.mark 3).dims [v.b.bits, v.c.bits] = none ∧
      boxEmpty (s.mark 3).dims (codeDigits v.b.bits) (codeDigits v.c.bits) = false ∧
      4096 < boxCount (s.mark 3).dims (codeDigits v.b.bits) (codeDigits v.c.bits))) = true := every (by decide +kernel)
  exact fun i hi k hk => ⟨Met.of _ _ (h1 i hi) (fun _ _ _ => of_decide_eq_true), Met.of _ _ (h2 k hk) (fun _ _ _ => of_decide_eq_true)⟩
theorem witness_mark_box_codes : ∀ i ∈ ([.msense (sn 6 8), .msamp (sn 6 8)] : List Instr), ∀ k ∈ ([.msense (sn 6 9), .msamp (sn 6 9)] :
    List Instr),
    Met i (fun _ _ s => (s.mark 3).bound = false) ∧
    Met i (fun v _ s => (s.mark 3).bound = true ∧ codeOk v.c.bits = false) ∧
    Met k (fun v _ s => (s.mark 3).bound = true ∧ codeOk v.b.bits = true ∧ codeOk v.c.bits = true ∧ codeDim v.c.bits ≠ (s.mark 3).dims) := by
  have h0 : ∀ i ∈ ([.msense (sn 6 8), .msamp (sn 6 8)] : List Instr), metIn i (stage 0 i markRegs id) (fun _ _ s =>
    decide ((s.mark 3).bound = false)) = true := every (by decide +kernel)
  have h1 : ∀ i ∈ ([.msense (sn 6 8), .msamp (sn 6 8)] : List Instr), metIn i (stage 0 i markRegs (marked true)) (fun v _ s =>
    decide ((s.mark 3).bound = true ∧ codeOk v.c.bits = false)) = true := every (by decide +kernel)
  have h2 : ∀ i ∈ ([.msense (sn 6 9), .msamp (sn 6 9)] : List Instr), metIn i (stage 0 i markRegs (marked true)) (fun v _ s =>
    decide ((s.mark 3).bound = true ∧ codeOk v.b.bits = true ∧ codeOk v.c.bits = true ∧ codeDim v.c.bits ≠ (s.mark 3).dims)) = true :=
    every (by decide +kernel)
  exact fun i hi k hk => ⟨Met.of _ _ (h0 i hi) (fun _ _ _ => of_decide_eq_true), Met.of _ _ (h1 i hi) (fun _ _ _ => of_decide_eq_true),
    Met.of _ _ (h2 k hk) (fun _ _ _ => of_decide_eq_true)⟩

/-- A FAULTED entry of MTICK, and its continuation whose bit 0 says whether the tick was made. -/
def tickAgain (made : Nat) (th : Thread) : Thread := { markRegs th with
  reinject := [⟨0, BitVec.ofNat 64 (leNat (encode (.mtick ⟨np, 13, 4, 3⟩))) ||| 0x800, ⟨low, true⟩, Val.zero, Val.zero⟩,
    ⟨0, 0, Val.data (BitVec.ofNat 128 made), Val.zero, Val.zero⟩] }
theorem witness_mtick :
    Met (.mtick ⟨np, 13, 4, 3⟩) (fun _ _ s => (s.mark 3).bound = false) ∧
    Met (.mtick ⟨np, 13, 4, 3⟩) (fun _ _ s => (s.mark 3).bound = true ∧ (s.mark 3).stepped = false) ∧
    Met (.mtick ⟨np, 13, 4, 3⟩) (fun v th s => (s.mark 3).bound = true ∧ (s.mark 3).stepped = true ∧ 0 < (s.mark 3).cells ∧
      accessCheck s th v.a (want permAT permAT) (cellVa (s.mark 3) 0) 8 8 = none ∧ v.cont = none ∧
      ∃ b x, translate s s.cur (cellVa (s.mark 3) 0) = .ok b ∧ b.thread s.cur = some x ∧ postedFull x = false) ∧
    Met (.mtick ⟨np, 13, 4, 3⟩) (fun _ _ s => (s.mark 3).bound = true ∧ (s.mark 3).stepped = true ∧ (s.mark 3).cells = 0) ∧
    Met (.mtick ⟨np, 13, 4, 3⟩) (fun v th s => (s.mark 3).bound = true ∧ (s.mark 3).stepped = true ∧ 0 < (s.mark 3).cells ∧
      accessCheck s th v.a (want permAT permAT) (cellVa (s.mark 3) 0) 8 8 = none ∧ v.cont = some 0 ∧
      ∃ b x, translate s s.cur (cellVa (s.mark 3) 0) = .ok b ∧ b.thread s.cur = some x ∧ postedFull x = false) ∧
    Met (.mtick ⟨np, 13, 4, 3⟩) (fun v th s => (s.mark 3).bound = true ∧ (s.mark 3).stepped = true ∧ 0 < (s.mark 3).cells ∧
      accessCheck s th v.a (want permAT permAT) (cellVa (s.mark 3) 0) 8 8 = none ∧ v.cont = some 1) := by
  refine ⟨.at 0 markRegs id (by decide +kernel), .at 0 markRegs (marked false) (by decide +kernel), ?_,
    .at 0 markRegs (fun s => (marked true s).modMark 3 (fun d => { d with top := d.base })) (by decide +kernel), ?_,
    .at 0 (tickAgain 1) (marked true) (by decide +kernel)⟩
  · refine .test (fun v th s => decide ((s.mark 3).bound = true ∧ (s.mark 3).stepped = true ∧ 0 < (s.mark 3).cells ∧
      accessCheck s th v.a (want permAT permAT) (cellVa (s.mark 3) 0) 8 8 = none ∧ v.cont = none) &&
      translates s (cellVa (s.mark 3) 0)) 0 markRegs (marked true) (by decide +kernel) (fun _ _ _ h => ?_)
    simp only [Bool.and_eq_true, decide_eq_true_eq] at h
    exact ⟨h.1.1, h.1.2.1, h.1.2.2.1, h.1.2.2.2.1, h.1.2.2.2.2, translates_iff h.2⟩
  · refine .test (fun v th s => decide ((s.mark 3).bound = true ∧ (s.mark 3).stepped = true ∧ 0 < (s.mark 3).cells ∧
      accessCheck s th v.a (want permAT permAT) (cellVa (s.mark 3) 0) 8 8 = none ∧ v.cont = some 0) &&
      translates s (cellVa (s.mark 3) 0)) 0 (tickAgain 0) (marked true) (by decide +kernel) (fun _ _ _ h => ?_)
    simp only [Bool.and_eq_true, decide_eq_true_eq] at h
    exact ⟨h.1.1, h.1.2.1, h.1.2.2.1, h.1.2.2.2.1, h.1.2.2.2.2, translates_iff h.2⟩

/-- A descriptor at scratchpad offset 0x1000: BASE over 16 cells, tagged or not, two dimensions or none. -/
def described (tag good : Bool) (s : State) : State :=
  let s := s.storeCap (spadLoc 0 0x1000) ⟨capBounds 0xFFF 0x1000 0x1080, tag⟩
  s.store (spadLoc 0 0x1020) 8 (if good then 0x017F02 else 0)
/-- What an MBIND of domain 3 meets. -/
def bindMeets (p : State → MarkDomain → List Val → Thread → Bool) (v : Vals) (th : Thread) (s : State) : Bool :=
  (accessCheck s th v.a (want permR permR) (capCursor v.a.bits) 128 64).isNone && !ownWaits s s.cur th &&
  (let r := s.pullSpan (tcore s.cur) (capCursor v.a.bits) 128
   match readGranules r s.cur th (capCursor v.a.bits) 8 with
   | .ok g => p r (domainOf th.domain g) g th
   | .error _ => false)
/-- The hypotheses of MBIND, with a condition on what its descriptor gives. -/
def BindMeets (p : State → MarkDomain → List Val → Thread → Bool) : Prop :=
  Met (.mbind ⟨np, 13, 9, 3⟩) (fun v th s => accessCheck s th v.a (want permR permR) (capCursor v.a.bits) 128 64 = none ∧
    ownWaits s s.cur th = false ∧ ∃ g, readGranules (s.pullSpan (tcore s.cur) (capCursor v.a.bits) 128) s.cur th (capCursor v.a.bits) 8 = .ok g ∧
      p (s.pullSpan (tcore s.cur) (capCursor v.a.bits) 128) (domainOf th.domain g) g th = true)
theorem bindMeets_of {p : State → MarkDomain → List Val → Thread → Bool} {g : State → State}
    (h : metIn (.mbind ⟨np, 13, 9, 3⟩) (stage 0 (.mbind ⟨np, 13, 9, 3⟩) engRegs g) (bindMeets p) = true) : BindMeets p :=
  Met.of _ _ h (fun v th s h => by
    unfold bindMeets at h
    simp only [Bool.and_eq_true, Option.isNone_iff_eq_none, Bool.not_eq_true'] at h
    refine ⟨h.1.1, h.1.2, ?_⟩
    have := h.2
    split at this
    · rename_i gs hg; exact ⟨gs, hg, this⟩
    · cases this)
theorem witness_mbind :
    BindMeets (fun _ d _ _ => descBad d) ∧
    BindMeets (fun _ d g th => !descBad d && (baseCheck th (g.headD Val.zero) d).isSome) ∧
    BindMeets (fun r d g th => !descBad d && (baseCheck th (g.headD Val.zero) d).isNone && bindStatus r 3 d != 0) ∧
    BindMeets (fun r d g th => !descBad d && (baseCheck th (g.headD Val.zero) d).isNone && bindStatus r 3 d == 0) :=
  ⟨bindMeets_of (g := described true false) (by decide +kernel), bindMeets_of (g := described false true) (by decide +kernel),
    bindMeets_of (g := fun s => described true true (marked true s)) (by decide +kernel), bindMeets_of (g := described true true) (by decide +kernel)⟩
/-- Mark domain 3 bound by another lease domain. -/
def others (s : State) : State := (marked true s).modMark 3 (fun d => { d with domain := 9 })
theorem witness_munbind :
    Met (.munbind np 13 3) (fun _ _ s => (s.mark 3).bound = false) ∧
    Met (.munbind np 13 3) (fun _ th s => (s.mark 3).bound = true ∧ (s.mark 3).domain ≠ th.domain ∧ th.sup = false) ∧
    Met (.munbind np 13 3) (fun _ th s => (s.mark 3).bound = true ∧ (s.mark 3).domain = th.domain) ∧
    Met (.munbind np 13 3) (fun _ th s => (s.mark 3).bound = true ∧ (s.mark 3).domain ≠ th.domain ∧ th.sup = true) :=
  ⟨.at 0 id id (by decide +kernel), .at 0 id others (by decide +kernel), .at 0 id (marked true) (by decide +kernel),
    .at 0 (fun th => { th with sup := true }) others (by decide +kernel)⟩

def so : SchedOps := ⟨9, 1, 256⟩
/-- The scheduling family. -/
def family : List Instr := [.spawn so 256 0xFF, .yield ⟨256, 256, 7⟩, .endTask ⟨256, 256, 256⟩, .join so, .leave so, .gbar so,
  .crew so (some 4), .qstatSet ⟨9, 256, 256⟩, .qstatTask so, .sleep ⟨256, 256, 256⟩ (some 100)]
theorem witness_scheduling_in_handlers : ∀ i ∈ family, Met i (fun _ _ s => isHandler s.cur = true) := by
  have h : ∀ i ∈ family, metIn i (stage 64 i memRegs id) (fun _ _ s => isHandler s.cur) = true := every (by decide +kernel)
  exact fun i hi => Met.of _ _ (h i hi) (fun _ _ _ h => h)
theorem witness_spawn : Met (.spawn so 256 0xFF) (fun v th s => isHandler s.cur = false ∧
    ∃ b, accessStep s th v.a ⟨permR ||| permLC, permR, false, false, false⟩ (capCursor v.a.bits) 64 64 false = .ok b) := by
  refine .test (fun v th s => !isHandler s.cur &&
    answers (accessStep s th v.a ⟨permR ||| permLC, permR, false, false, false⟩ (capCursor v.a.bits) 64 64 false)) 0 memRegs id (by decide +kernel)
    (fun _ _ _ h => ?_)
  simp only [Bool.and_eq_true, Bool.not_eq_true'] at h
  exact ⟨h.1, answers_iff _ h.2⟩
/-- Register 20 awaits a result. -/
def awaiting (th : Thread) : Thread :=
  { th.setPresent 20 false with ops := [{ State.reset.newOp .longLat (.load 3 false) (.sent 1) 0 with dests := [20] }] }
theorem witness_yield_end :
    Met (.yield ⟨256, 256, 7⟩) (fun _ _ s => isHandler s.cur = false) ∧ Met (.yield ⟨256, 256, 256⟩) (fun _ _ s => isHandler s.cur = false) ∧
    Met (.endTask ⟨256, 256, 256⟩) (fun _ th s => isHandler s.cur = false ∧ allPresent th = true) ∧
    Met (.endTask ⟨256, 256, 256⟩) (fun _ th s => isHandler s.cur = false ∧ allPresent th = false) :=
  ⟨.dec id (by decide +kernel), .dec id (by decide +kernel), .dec id (by decide +kernel), .dec awaiting (by decide +kernel)⟩
/-- k1 another core's scratchpads. -/
def farRegs (th : Thread) : Thread := caps [(1, capBounds 0xFFF 0xF300000000000000 0xF300000000001000)] th
theorem witness_groups : (∀ i ∈ ([.join so, .leave so, .gbar so] : List Instr), Met i (fun v th s => isHandler s.cur = false ∧
    capCheck v.a (permR ||| permW ||| permAT) (capCursor v.a.bits + v.off).toNat 16 16 = none ∧
    (selector (capCursor v.a.bits + v.off) = 0 ∨ (0xF0 ≤ selector (capCursor v.a.bits + v.off) ∧ selector (capCursor v.a.bits + v.off) ≤ 0xF2)) ∧
    ∃ b, accessStep s th v.a ⟨permR ||| permW ||| permAT, permR ||| permW ||| permAT, false, false, false⟩ (capCursor v.a.bits + v.off)
      16 16 false = .ok b)) ∧
    (∀ i ∈ ([.join so, .leave so, .gbar so] : List Instr), Met i (fun v _ s => isHandler s.cur = false ∧
      capCheck v.a (permR ||| permW ||| permAT) (capCursor v.a.bits + v.off).toNat 16 16 = none ∧
      selector (capCursor v.a.bits + v.off) ≠ 0 ∧
      (selector (capCursor v.a.bits + v.off) < 0xF0 ∨ 0xF2 < selector (capCursor v.a.bits + v.off)))) := by
  have h1 : ∀ i ∈ ([.join so, .leave so, .gbar so] : List Instr), metIn i (stage 0 i memRegs id) (fun v th s =>
    decide (isHandler s.cur = false ∧
      capCheck v.a (permR ||| permW ||| permAT) (capCursor v.a.bits + v.off).toNat 16 16 = none ∧
      (selector (capCursor v.a.bits + v.off) = 0 ∨
        (0xF0 ≤ selector (capCursor v.a.bits + v.off) ∧ selector (capCursor v.a.bits + v.off) ≤ 0xF2))) &&
    answers (accessStep s th v.a ⟨permR ||| permW ||| permAT, permR ||| permW ||| permAT, false, false, false⟩
      (capCursor v.a.bits + v.off) 16 16 false)) = true := every (by decide +kernel)
  have h2 : ∀ i ∈ ([.join so, .leave so, .gbar so] : List Instr), metIn i (stage 0 i farRegs id) (fun v _ s =>
    decide (isHandler s.cur = false ∧
      capCheck v.a (permR ||| permW ||| permAT) (capCursor v.a.bits + v.off).toNat 16 16 = none ∧
      selector (capCursor v.a.bits + v.off) ≠ 0 ∧
      (selector (capCursor v.a.bits + v.off) < 0xF0 ∨ 0xF2 < selector (capCursor v.a.bits + v.off)))) = true := every (by decide +kernel)
  refine ⟨fun i hi => Met.of _ _ (h1 i hi) (fun _ _ _ h => ?_), fun i hi => Met.of _ _ (h2 i hi) (fun _ _ _ => of_decide_eq_true)⟩
  simp only [Bool.and_eq_true, decide_eq_true_eq] at h
  exact ⟨h.1.1, h.1.2.1, h.1.2.2, answers_iff _ h.2⟩
/-- A task that leads its group, with an executable entry in k1. -/
def leads (th : Thread) : Thread := memRegs { th with lead := true }
theorem witness_crew :
    Met (.crew so (some 4)) (fun _ th s => isHandler s.cur = false ∧ th.lead = false) ∧
    Met (.crew so (some 4)) (fun v th s => isHandler s.cur = false ∧ th.lead = true ∧ firstFailure (entryRules v.a) = none ∧ th.crew = false ∧ 4 ≤ slotCount (s.core (tcore s.cur)).partn ∧
      (s.core (tcore s.cur)).crew.isSome = false) ∧
    Met (.crew so (some 4)) (fun v th s => isHandler s.cur = false ∧ th.lead = true ∧ firstFailure (entryRules v.a) = none ∧ th.crew = true) ∧
    Met (.crew ⟨9, 1, 5⟩ none) (fun v th s => isHandler s.cur = false ∧ th.lead = true ∧ firstFailure (entryRules v.a) = none ∧ v.b.lo.toNat < 2) :=
  ⟨.dec memRegs (by decide +kernel), .dec leads (by decide +kernel), .dec (fun th => leads { th with crew := true }) (by decide +kernel), .dec leads (by decide +kernel)⟩
theorem witness_crew_entries : ∀ x ∈ ([(Val.data full, .tag), (⟨capWithKind full 2, true⟩, .sealed), (⟨buffer, true⟩, .perm),
    (⟨(capMove ⟨full, true⟩ 0xF00000000002FFFD).bits, true⟩, .bounds)] : List (Val × Code)),
    Met (.crew so (some 4)) (fun v th s => isHandler s.cur = false ∧ th.lead = true ∧ firstFailure (entryRules v.a) = some x.2) := by
  intro x hx
  refine Met.of _ (stage 0 (.crew so (some 4)) (fun th => (leads th).setReg so.a.toNat x.1) id) ?_ (fun _ _ _ => of_decide_eq_true)
  revert x
  decide +kernel
theorem witness_qstat_sleep :
    Met (.qstatSet ⟨9, 256, 256⟩) (fun _ _ s => isHandler s.cur = false) ∧ Met (.qstatTask so) (fun _ _ s => isHandler s.cur = false) ∧
    Met (.sleep ⟨256, 256, 256⟩ (some 0)) (fun _ _ s => isHandler s.cur = false ∧ (BitVec.ofNat 64 (s.now s.cur + 64 * 0)).toNat ≤ s.now s.cur) ∧
    Met (.sleep ⟨256, 256, 7⟩ none) (fun v _ s => isHandler s.cur = false ∧ v.b.lo.toNat ≤ 0) :=
  ⟨.dec id (by decide +kernel), .dec id (by decide +kernel), .test (fun _ _ s => !isHandler s.cur) 0 id id (by decide +kernel)
    (fun _ _ s h => ⟨by simpa using h, by
      simp only [Nat.mul_zero, Nat.add_zero, BitVec.toNat_ofNat]; exact Nat.mod_le _ _⟩), .dec id (by decide +kernel)⟩
theorem witness_sleep_waits : Met (.sleep ⟨256, 256, 256⟩ (some 100)) (fun _ _ s => isHandler s.cur = false ∧
    s.now s.cur < (BitVec.ofNat 64 (s.now s.cur + 64 * 100)).toNat) := by
  refine .test (fun _ _ s => !isHandler s.cur && s.ts == 0) 0 id id (by decide +kernel) (fun _ _ s h => ?_)
  simp only [Bool.and_eq_true, Bool.not_eq_true', beq_iff_eq] at h
  have h0 : s.now s.cur = 0 := by unfold State.now State.tsAt; rw [h.2, Nat.zero_sub]
  exact ⟨h.1, by rw [h0]; decide⟩

/-- The numbers of the status registers (05 R112). -/
def statusNumbers : List (BitVec 12) := [0x000, 0x001, 0x002, 0x003, 0x004, 0x005, 0x006, 0x007, 0x008, 0x009, 0x00A, 0x00B,
  0x100, 0x101, 0x102, 0x103, 0x104, 0x105, 0x106, 0x107]
/-- Flags still to come, with a posted access. -/
def flagged (th : Thread) : Thread := { th with ops := [{ posted with flags := ⟨true, false, false, false, false⟩ }] }
def supervisor (th : Thread) : Thread := { memRegs th with sup := true }
theorem witness_rds : (∀ n ∈ statusNumbers, Met (.rds 7 n) (fun _ th s => (∃ now, s.thread s.cur = some now) ∧ ¬ (n = 1 ∧ flagsPending th = true))) ∧
    Met (.rds 7 1) (fun _ th s => (∃ now, s.thread s.cur = some now) ∧ flagsPending th = true) := by
  have h : ∀ n ∈ statusNumbers, metIn (.rds 7 n) (stage 0 (.rds 7 n) id id)
    (fun _ th s => (s.thread s.cur).isSome && !flagsPending th) = true := every (by decide +kernel)
  refine ⟨fun n hn => Met.of _ _ (h n hn) (fun _ _ _ h => ?_), .test (fun _ th s => (s.thread s.cur).isSome && flagsPending th) 0 flagged id
    (by decide +kernel) (fun _ _ _ h => ?_)⟩
  · simp only [Bool.and_eq_true, Bool.not_eq_true'] at h
    exact ⟨isSome_iff _ h.1, fun hc => by rw [h.2] at hc; exact absurd hc.2 (by decide +kernel)⟩
  · simp only [Bool.and_eq_true] at h
    exact ⟨isSome_iff _ h.1, h.2⟩
/-- What MayWrite says, as a test. -/
def mayWrite (t : Nat) (th : Thread) (n : BitVec 12) (v : Val) : Bool :=
  decide (n ∉ ([0x006, 0x009, 0x00A, 0x00B, 0x100, 0x101, 0x106] : List (BitVec 12))) &&
  decide ((0x100 ≤ n.toNat ∨ n ∈ ([0x000, 0x004, 0x005, 0x008] : List (BitVec 12))) → th.sup = true) &&
  decide (n = 0 → v.lo &&& 0x7F1E = tstatWord t th &&& 0x7F1E)
theorem mayWrite_iff {t : Nat} {th : Thread} {n : BitVec 12} {v : Val} : mayWrite t th n v = true ↔ MayWrite t th n v := by
  simp only [mayWrite, MayWrite, Bool.and_eq_true, decide_eq_true_eq, and_assoc]
theorem notWritten {t : Nat} {th : Thread} {n : BitVec 12} {v : Val} (h : mayWrite t th n v = false) : ¬ MayWrite t th n v :=
  fun hc => Bool.false_ne_true (h.symm.trans (mayWrite_iff.mpr hc))
/-- Status registers that a supervisor writes. -/
def writable : List (BitVec 12) := [0x000, 0x001, 0x002, 0x003, 0x004, 0x005, 0x007, 0x008, 0x102, 0x103, 0x104, 0x105, 0x107]
theorem witness_wrs : (∀ n ∈ writable, Met (.wrs 7 n) (fun v th s => MayWrite s.cur th n v.a ∧ (n = 1 → flagsPending th = false))) ∧
    Met (.wrs 7 1) (fun v th s => MayWrite s.cur th 1 v.a ∧ flagsPending th = true) ∧
    Met (.wrs 7 0x101) (fun v th s => ¬ MayWrite s.cur th 0x101 v.a) ∧ Met (.wrs 7 0x102) (fun v th s => ¬ MayWrite s.cur th 0x102 v.a) ∧
    Met (.wrs 7 0) (fun v th s => ¬ MayWrite s.cur th 0 v.a ∧ th.sup = true) := by
  have h : ∀ n ∈ writable, metIn (.wrs 7 n) (stage 0 (.wrs 7 n) supervisor id)
    (fun v th s => mayWrite s.cur th n v.a && !flagsPending th) = true := every (by decide +kernel)
  refine ⟨fun n hn => Met.of _ _ (h n hn) (fun _ _ _ h => ?_),
    .test (fun v th s => mayWrite s.cur th 1 v.a && flagsPending th) 0 flagged id (by decide +kernel) (fun _ _ _ h => ?_),
    .test (fun v th s => !mayWrite s.cur th 0x101 v.a) 0 supervisor id (by decide +kernel) (fun _ _ _ h => ?_),
    .test (fun v th s => !mayWrite s.cur th 0x102 v.a) 0 id id (by decide +kernel) (fun _ _ _ h => ?_),
    .test (fun v th s => !mayWrite s.cur th 0 v.a && th.sup) 0 (fun th => regs [(7, 2)] (supervisor th)) id (by decide +kernel) (fun _ _ _ h => ?_)⟩
  all_goals simp only [Bool.and_eq_true, Bool.not_eq_true'] at h
  · exact ⟨mayWrite_iff.mp h.1, fun _ => h.2⟩
  · exact ⟨mayWrite_iff.mp h.1, h.2⟩
  · exact notWritten h
  · exact notWritten h
  · exact ⟨notWritten h.1, h.2⟩

/-- Lease table entry 0, its line cached, without and with a trap entry. -/
def noEntry (s : State) : State := s.modHome (holder 0) (fun k => k.install s 0 false)
def enters (s : State) : State := noEntry ((s.storeCap 0 ⟨placeCap, true⟩).store 72 1 1)
/-- A thread of slot 0 in its trap, its frame to lie at scratchpad offset 0x2000. -/
def trapping (fatal : Bool) (th : Thread) : Thread :=
  { th with ranges := [full], trapcap := ⟨fullAt 0x2000, true⟩, status := .trapping (some .align) 8 [] 0 8 false fatal }
/-- Seventeen refused operations: more entries than a frame holds. -/
def refusals : List Op := (List.range 17).map (fun i => { State.reset.newOp .longLat (.load 3 false) (.refused .perm 8) 0 with id := i + 1 })
/-- A device with that thread. -/
def trapState (g : State → State) (f : Thread → Thread) : State := (g State.reset).setThread 0 (f Thread.blank)
/-- The hypotheses of entering a trap. -/
def TrapMeets (p : State → Thread → TrapPlan → State → Bool) (fatal : Bool) : Prop :=
  ∃ s th, s.thread 0 = some th ∧ th.status = .trapping (some .align) 8 [] 0 8 false fatal ∧ th.dispatch = none ∧
    p s th (trapPlan th (some .align) 8 [] 0 8 false) (((s.sampleLoads 0 th.ops).setThread 0 { (trapPlan th (some .align) 8 [] 0 8 false).th with
      ops := [], reinject := [], windows := [], status := .ready }).leaseRead th.domain) = true
theorem trapMeets_of {p : State → Thread → TrapPlan → State → Bool} {fatal : Bool} (g : State → State) (f : Thread → Thread)
    (h1 : (trapState g f).thread 0 = some (f Thread.blank)) (h2 : (f Thread.blank).status = .trapping (some .align) 8 [] 0 8 false fatal)
    (h3 : (f Thread.blank).dispatch = none)
    (h4 : p (trapState g f) (f Thread.blank) (trapPlan (f Thread.blank) (some .align) 8 [] 0 8 false)
      ((((trapState g f).sampleLoads 0 (f Thread.blank).ops).setThread 0 { (trapPlan (f Thread.blank) (some .align) 8 [] 0 8 false).th with
        ops := [], reinject := [], windows := [], status := .ready }).leaseRead (f Thread.blank).domain) = true) : TrapMeets p fatal :=
  ⟨trapState g f, f Thread.blank, h1, h2, h3, h4⟩
theorem witness_trap_entry :
    TrapMeets (fun _ th p s1 => th.trapActive.isNone && !codeFatal p.code && (trapEntryOf s1 th.domain).isSome &&
      (match writeFrame s1 0 p with | .ok _ => true | .error _ => false)) false ∧
    TrapMeets (fun _ th _ _ => th.trapActive.isSome) false ∧
    TrapMeets (fun _ th _ _ => th.trapActive.isNone) true ∧
    TrapMeets (fun _ th p s1 => th.trapActive.isNone && (trapEntryOf s1 th.domain).isNone) false ∧
    TrapMeets (fun _ th p s1 => th.trapActive.isNone && (trapEntryOf s1 th.domain).isSome &&
      (match writeFrame s1 0 p with | .ok _ => false | .error e => e.isSome)) false ∧
    TrapMeets (fun _ th p s1 => th.trapActive.isNone && (trapEntryOf s1 th.domain).isSome &&
      !codeFatal p.code && (match writeFrame s1 0 p with | .ok _ => false | .error e => e.isNone)) false :=
  ⟨trapMeets_of enters (trapping false) (by decide +kernel) (by decide +kernel) (by decide +kernel) (by decide +kernel),
    trapMeets_of enters (fun th => { trapping false th with trapActive := some ⟨0, 0, 0, .tag⟩ }) (by decide +kernel) (by decide +kernel) (by decide +kernel) (by decide +kernel),
    trapMeets_of enters (trapping true) (by decide +kernel) (by decide +kernel) (by decide +kernel) (by decide +kernel),
    trapMeets_of noEntry (trapping false) (by decide +kernel) (by decide +kernel) (by decide +kernel) (by decide +kernel),
    trapMeets_of enters (fun th => { trapping false th with trapcap := Val.zero }) (by decide +kernel) (by decide +kernel) (by decide +kernel) (by decide +kernel),
    trapMeets_of enters (fun th => { trapping false th with ops := refusals }) (by decide +kernel) (by decide +kernel) (by decide +kernel) (by decide +kernel)⟩

/-- A thread in a trap whose frame lies at k9's cursor, scratchpad offset 0x1000. -/
def inTrap (th : Thread) : Thread := { engRegs th with trapActive := some ⟨0, 0, 0, .tag⟩, sup := true }
/-- What an RTE meets: a frame of n entries, and whether they are well formed. -/
def rteMeets (p : Nat → List Val → Bool) (v : Vals) (th : Thread) (s : State) : Bool :=
  let va := capCursor v.a.bits
  let asks : Want := ⟨permR ||| permLC, permR ||| permLC, false, false, false⟩
  let b1 := s.pullSpan (tcore s.cur) va 128
  th.trapActive.isSome && (accessCheck s th v.a asks va 128 128).isNone && !ownWaits s s.cur th &&
  (match readGranules b1 s.cur th va 8 with
    | .ok head =>
      let n := (head.getD 5 Val.zero).lo.toNat / 256 % 256
      let b2 := b1.pullSpan (tcore s.cur) (va + 128) (64 * n)
      (accessCheck b1 th v.a asks va (128 + 64 * n) 128).isNone && (b2.thread s.cur).isSome &&
      (match readGranules b2 s.cur th (va + 128) (4 * n) with | .ok gs => p n gs | .error _ => false)
    | .error _ => false)
/-- TRAP as a re-injected unit, nothing before it unfinished. -/
def trapAgain (th : Thread) : Thread := { th with
  reinject := [⟨0, BitVec.ofNat 64 (leNat (encode (.trap 5))) ||| 0x800, Val.zero, Val.zero, Val.zero⟩, ⟨0, 0, Val.zero, Val.zero, Val.zero⟩] }
theorem witness_traps_and_returns :
    Met (.trap 5) (fun _ th s => isReplay s.unit th = false) ∧ Met (.brk 1) (fun _ th s => isReplay s.unit th = false) ∧
    Met (.trap 5) (fun _ th s => isReplay s.unit th = true ∧ th.ops.all Op.isSettled = true) ∧
    Met (.trap 5) (fun _ th s => isReplay s.unit th = true ∧ th.ops.all Op.isSettled = false) ∧
    Met (.rte 9) (fun _ th _ => th.trapActive = none) ∧
    Met (.rte 9) (fun v th s => rteMeets (fun n gs => decide (n ≤ 16) && entriesOk (entriesOf gs)) v th s = true) ∧
    Met (.rte 9) (fun v th s => rteMeets (fun n _ => decide (16 < n)) v th s = true) ∧
    Met (.dump 7) (fun _ _ _ => True) ∧ Met (.halt (.imm 255)) (fun _ _ _ => True) ∧ Met (.halt (.reg 7)) (fun _ _ _ => True) :=
  ⟨.dec id (by decide +kernel), .dec id (by decide +kernel), .dec trapAgain (by decide +kernel), .dec (fun th => { trapAgain th with ops := [posted] }) (by decide +kernel), .dec engRegs (by decide +kernel), .dec inTrap (by decide +kernel),
    .at 0 inTrap (fun s => s.store (spadLoc 0 0x1050) 8 (17 * 256)) (by decide +kernel), .dec id (by decide +kernel), .dec id (by decide +kernel), .dec id (by decide +kernel)⟩

def lo : LeaseOps := ⟨7, 4, 256, 256, 256, 3⟩
def go : GangOps := ⟨7, 14, 256, 15, 1, 20000⟩
/-- The privileged instructions. -/
def privileged : List Instr := [.repart 7 false, .gang go, .wayconv np 7 256 8, .leaseAdd lo, .leaseDrop lo, .leaseUnmap lo,
  .leaseUnmapForce lo, .leaseDom lo, .plbinv 7 4 256 .page, .pgmove 7 4 5]
theorem witness_privilege : ∀ i ∈ privileged, Met i (fun _ th _ => th.sup = false) := by
  have h : ∀ i ∈ privileged, metIn i (stage 0 i memRegs id) (fun _ th _ => decide (th.sup = false)) = true := every (by decide +kernel)
  exact fun i hi => Met.of _ _ (h i hi) (fun _ _ _ => of_decide_eq_true)
/-- Another thread of the core. -/
def beside (s : State) : State := { s with threads := s.threads ++ [(1, Thread.blank)] }
/-- The core at PARTN 3. -/
def widest (s : State) : State := s.modCore 0 (fun k => { k with partn := 3 })
theorem witness_repart :
    Met (.repart 7 true) (fun _ th s => th.sup = true ∧ (slotsTaken s s.cur = true ∨ th.crew = true)) ∧
    Met (.repart 7 false) (fun _ th s => th.sup = true ∧ slotsTaken s s.cur = false ∧ th.crew = false ∧ allPresent th = true ∧
      (s.core (tcore s.cur)).partn = 3) ∧
    Met (.repart 7 true) (fun _ th s => th.sup = true ∧ slotsTaken s s.cur = false ∧ th.crew = false ∧ allPresent th = true ∧
      (s.core (tcore s.cur)).partn ≠ 0) ∧
    Met (.repart 7 false) (fun _ th s => th.sup = true ∧ slotsTaken s s.cur = false ∧ th.crew = false ∧ allPresent th = true ∧
      (s.core (tcore s.cur)).partn ≠ 3) :=
  ⟨.at 0 supervisor beside (by decide +kernel), .at 0 supervisor widest (by decide +kernel), .at 0 supervisor id (by decide +kernel), .at 0 supervisor id (by decide +kernel)⟩
/-- k14 the first 32 MiB of region 0x00, leased. -/
def gangRegs (th : Thread) : Thread :=
  let q := capBounds 0xFFF 0 0x2000000
  caps [(14, q)] { supervisor th with ranges := [full, q] }
theorem witness_privileged :
    Met (.gang go) (fun v th s => th.sup = true ∧ accessCheck s th v.a ⟨permW ||| permEN, permW ||| permEN, false, false, false⟩
      (capCursor v.a.bits) (saveLength (v.c.bits.toNat % 4096)) 4096 = none ∧
      accessCheck s th v.e (wantCompl true) (capCursor v.e.bits) 8 8 = none) ∧
    Met (.wayconv np 7 256 8) (fun _ th _ => th.sup = true) ∧
    Met (.wayconv np 7 1 0) (fun v th s => th.sup = true ∧ complCheck s th .fill v.a = none) ∧
    Met (.leaseAdd lo) (fun v th _ => th.sup = true ∧ v.a.tag = true ∧ capKind v.a.bits = 0 ∧ capBase v.a.bits % 2 ^ 18 = 0 ∧
      capTop v.a.bits % 2 ^ 18 = 0 ∧ capTop v.a.bits ≤ 2 ^ 56) ∧
    Met (.plbinv 7 4 256 .page) (fun _ th _ => th.sup = true) ∧
    Met (.pgmove 7 4 5) (fun v th _ => th.sup = true ∧ v.a.tag = true ∧ capKind v.a.bits = 0 ∧
      (capCursor v.a.bits).toNat % 2 ^ 18 = 0 ∧ selector (capCursor v.a.bits) = 0 ∧ v.b.lo.toNat < 2 ^ 22) :=
  ⟨.dec gangRegs (by decide +kernel), .dec supervisor (by decide +kernel), .dec supervisor (by decide +kernel), .dec supervisor (by decide +kernel), .dec supervisor (by decide +kernel),
    .dec supervisor (by decide +kernel)⟩

/-! #### Operands, results, turns, storage, frames and steps -/

theorem witness_pop : ∃ (s : State) (before after : List QueueEntry) (e : QueueEntry), sideOf 258 = some .e ∧
    (s.core 5).inbox .e = before ++ e :: after ∧ (∀ y ∈ before, y.domain ≠ 3) ∧ e.domain = 3 ∧ before ≠ [] ∧
    (s.pop 5 3 258).1 = Val.ofWord 2 ∧ ((s.pop 5 3 258).2.core 5).linkdisc = 1 :=
  ⟨State.reset.modCore 5 (fun k => k.setInbox .e [⟨Val.ofWord 1, 7⟩, ⟨Val.ofWord 2, 3⟩, ⟨Val.ofWord 4, 3⟩]),
    [⟨Val.ofWord 1, 7⟩], [⟨Val.ofWord 4, 3⟩], ⟨Val.ofWord 2, 3⟩, by decide +kernel, by decide +kernel, by decide +kernel, by decide +kernel,
    by decide +kernel, by decide +kernel, by decide +kernel⟩
theorem witness_queue : ∃ (s : State) (before after : List QueueEntry) (e : QueueEntry), queueOf 263 = some 2 ∧
    tget (s.core 5).queues 2 [] = before ++ e :: after ∧ (∀ y ∈ before, y.domain ≠ 3) ∧ e.domain = 3 ∧ before ≠ [] ∧
    (s.pop 5 3 263).1 = Val.ofWord 2 ∧ ((s.pop 5 3 263).2.core 5).linkdisc = 0 :=
  ⟨State.reset.modCore 5 (fun k => { k with queues := [(2, [⟨Val.ofWord 1, 7⟩, ⟨Val.ofWord 2, 3⟩])] }),
    [⟨Val.ofWord 1, 7⟩], [], ⟨Val.ofWord 2, 3⟩, by decide +kernel, by decide +kernel, by decide +kernel, by decide +kernel,
    by decide +kernel, by decide +kernel, by decide +kernel⟩

/-- A staged addition. -/
def adding (t : Nat) (f : Thread → Thread) : State := stage t (.add io) f id
/-- A push that finds its neighbour's inbox full, and one that finds room. -/
theorem witness_pushes :
    ∃ s x, s.thread 0 = some x ∧ pushClear s 0 x s.nextId 258 = false ∧ pushClear State.reset 0 x State.reset.nextId 258 = true :=
  ⟨(State.reset.setThread 0 Thread.blank).modCore 0 (fun k => k.setFlying .e (List.replicate Config.inboxSize ⟨Val.zero, 0⟩)), Thread.blank, rfl,
    by decide +kernel, by decide +kernel⟩
theorem witness_turns :
    (∃ th, (adding 0 id).issuer = some th ∧ isHandler (adding 0 id).cur = false ∧ th.trapActive = none ∧ th.reinject = []) ∧
    (∃ th, (adding 64 id).issuer = some th ∧ isHandler (adding 64 id).cur = true) ∧
    (∃ th, (adding 0 inTrap).issuer = some th ∧ th.trapActive.isSome = true) ∧
    (∃ th, (adding 0 trapAgain).issuer = some th ∧ th.reinject ≠ []) :=
  ⟨⟨_, rfl, by decide +kernel, by decide +kernel, by decide +kernel⟩, ⟨_, rfl, by decide +kernel⟩, ⟨_, rfl, by decide +kernel⟩,
    ⟨_, rfl, by decide +kernel⟩⟩

/-- Whether i stops for want of a register only. -/
def lacks (i : Instr) (k : Nat) (s : State) : Bool :=
  match s.issuer with
  | some th =>
    let ty := i.elemType (s.core (tcore s.cur)).fmtr
    let f := i.fields ty
    s.unit.replay.isNone && typeLegal i ty && operandsOk i f th && (fetchFault s th s.unit.addr s.unit.bytes).isNone && i.pred.isNone &&
      !linkMissing (tcore s.cur) f && decide (k ∈ f.reads ∨ k ∈ f.writes) && !(th.reg k).present
  | none => false
theorem lacks_meets {i : Instr} {k : Nat} {s : State} (h : lacks i k s = true) : ∃ th, s.issuer = some th ∧ s.unit.replay = none ∧
    typeLegal i (i.elemType (s.core (tcore s.cur)).fmtr) = true ∧ operandsOk i (i.fields (i.elemType (s.core (tcore s.cur)).fmtr)) th = true ∧
    fetchFault s th s.unit.addr s.unit.bytes = none ∧ i.pred = none ∧
    linkMissing (tcore s.cur) (i.fields (i.elemType (s.core (tcore s.cur)).fmtr)) = false ∧
    (k ∈ (i.fields (i.elemType (s.core (tcore s.cur)).fmtr)).reads ∨ k ∈ (i.fields (i.elemType (s.core (tcore s.cur)).fmtr)).writes) ∧
    (th.reg k).present = false := by
  unfold lacks at h
  split at h
  · rename_i th hth
    simp only [Bool.and_eq_true, Option.isNone_iff_eq_none, Bool.not_eq_true', decide_eq_true_eq] at h
    exact ⟨th, hth, h.1.1.1.1.1.1.1, h.1.1.1.1.1.1.2, h.1.1.1.1.1.2, h.1.1.1.1.2, h.1.1.1.2, h.1.1.2, h.1.2, h.2⟩
  · cases h
theorem witness_absent : lacks (.add io) 1 (adding 0 (fun th => th.setPresent 1 false)) = true ∧
    lacks (.add io) 7 (adding 0 (fun th => th.setPresent 7 false)) = true ∧ (∀ o, Instr.add io ∉ mmaOf o) := by
  refine ⟨by decide +kernel, by decide +kernel, fun o => ?_⟩
  simp [mmaOf]
/-- Predicated on register 9, which is even. -/
def onlyIf : Pfx := ⟨none, some ⟨9, false⟩, none⟩
theorem witness_predicates :
    (∃ s th, s.issuer = some th ∧ issueCheck s s.cur th (.add { io with p := onlyIf }) = none ∧ s.unit.replay = none ∧
      predOff (.add { io with p := onlyIf }) th = true) :=
  ⟨stage 0 (.add { io with p := onlyIf }) id id, _, rfl, by decide +kernel, by decide +kernel, by decide +kernel⟩

/-- A device whose word at 0x100 is empty. -/
def emptied : State := State.reset.setFe (spadLoc 0 0x100) false
theorem witness_home_words :
    (opCheck State.reset 0 (Thread.blank.owner 0) 0xF000000000000100 8 = .ok (spadLoc 0 0x100)) ∧
    (State.reset.flushAll 0 (sectorsOf 0xF000000000000100 8)).feAt (spadLoc 0 0x100) = true ∧ State.reset.feAt (spadLoc 0 0x100) = true ∧
    (opCheck emptied 0 (Thread.blank.owner 0) 0xF000000000000100 8 = .ok (spadLoc 0 0x100)) ∧
    (emptied.flushAll 0 (sectorsOf 0xF000000000000100 8)).feAt (spadLoc 0 0x100) = false ∧
    ((emptied.flushAll 0 (sectorsOf 0xF000000000000100 8)).addWait 0 ⟨spadLoc 0 0x100, .take, .slot 0, 0, false⟩).isSome = true := by
  decide +kernel
/-- A FILL that serves two readers of a word and the taker after them, but not the reader behind it. -/
theorem witness_fill_serves :
    (servedByFill (spadLoc 0 0x100) [⟨spadLoc 0 0x100, .wld, .slot 0, 1, false⟩, ⟨spadLoc 0 0x108, .take, .slot 1, 2, false⟩,
      ⟨spadLoc 0 0x100, .take, .slot 2, 3, false⟩, ⟨spadLoc 0 0x100, .wld, .slot 3, 4, false⟩]) =
    ([⟨spadLoc 0 0x100, .wld, .slot 0, 1, false⟩, ⟨spadLoc 0 0x100, .take, .slot 2, 3, false⟩], true) := by decide +kernel

/-- A plain store on its way. -/
def storing : Msg := ⟨1, 0, 0, .core 0, .core 0, 0, .arrived, 0, 0, Thread.blank.owner 0, .probe 0 0⟩
theorem witness_store_bytes :
    storage State.reset 0 0xF000000000000104 = some (spadLoc 0 0x104) ∧ (State.reset.home 0).wbuf = [] ∧
    writeCheck State.reset 0xF000000000000104 (spadLoc 0 0x104) 0xF0 storing.owner = none ∧
    (writeCheck (State.reset.setPoison (spadLoc 0 0x100) true) 0xF000000000000104 (spadLoc 0 0x104) 0xF0 storing.owner).isSome = true := by
  decide +kernel

/-- Whether the access of i passes its checks, and a `.go` of it need not travel. -/
def letsIssue (w : Want) (n : Nat) (post go : Bool) (i : Instr) : Bool :=
  metIn i (stage 0 i (caps [(1, full), (2, full)]) id) (fun v th b =>
    match accessStep b th v.a w (capCursor v.a.bits + v.off) n n post with
    | .ok b1 => !go || (travelTarget b1 0 th (capCursor v.a.bits + v.off)).isNone
    | .error _ => false)
theorem witness_issue_writes :
    ([false, true].all fun go =>
      letsIssue wantLd 8 false go (.ld ⟨np, 3, 0, 1, .imm 0⟩ 3 false go) && letsIssue wantLd 32 false go (.ld ⟨np, 4, 0, 1, .imm 32⟩ 5 false go) &&
      letsIssue wantSt 4 true go (.st ⟨np, 3, 0, 1, .imm 4⟩ 2 go)) = true := by decide +kernel

/-- Whether i issues and goes on. -/
def goesOn (i : Instr) : Bool := metIn i (stage 0 i id id) (fun _ _ _ => true) && (after i id).isSome
theorem witness_frames : ([.add io, .div io, .clz uo, .add { io with d := 256 }, .rem { io with d := 258 },
    .vadd ⟨np, 9, 0, 5, 6⟩ 7 false, .vmul ⟨np, 3, 0, 5, 6⟩ 7 true] : List Instr).all goesOn = true := by decide +kernel

/-- A thread whose next unit lies in region 0x00. -/
def inMemory : State := (adding 0 (fun th => { th with pcc := ⟨capBounds 0xFFF 0x40000 0x80000, true⟩ }))
theorem witness_step : (∃ th r, inMemory.tickTime.issuer = some th ∧ inMemory.tickTime.fetchMiss inMemory.tickTime.cur th = some r) ∧
    ∃ (s : State) (th : Thread) (i : Instr) (n : Nat) (blk : List Byte) (b : Bool), s.tickTime.issuer = some th ∧ th.reinject = [] ∧ s.tickTime.fetchMiss s.tickTime.cur th = none ∧
      blockAt (s.tickTime.fetchFill s.tickTime.cur th) s.tickTime.cur th (BitVec.ofNat 64 th.pc) = .ok blk ∧
      boundaryAt blk 32 0 false ((BitVec.ofNat 64 th.pc).toNat % 32) = some b ∧
      decodeUnit (blk.drop ((BitVec.ofNat 64 th.pc).toNat % 32)) = .ok (i, n) := by
  constructor
  · have h : ∃ th, inMemory.tickTime.issuer = some th ∧ (inMemory.tickTime.fetchMiss inMemory.tickTime.cur th).isSome = true :=
      ⟨_, rfl, by decide +kernel⟩
    obtain ⟨th, a, b⟩ := h
    obtain ⟨r, c⟩ := isSome_iff _ b
    exact ⟨th, r, a, c⟩
  let s := adding 0 id
  have h1 : ∃ th, s.tickTime.issuer = some th ∧ th.reinject = [] ∧ s.tickTime.fetchMiss s.tickTime.cur th = none ∧
      (match blockAt (s.tickTime.fetchFill s.tickTime.cur th) s.tickTime.cur th (BitVec.ofNat 64 th.pc) with
      | .ok blk => (boundaryAt blk 32 0 false ((BitVec.ofNat 64 th.pc).toNat % 32)).isSome &&
        answers (decodeUnit (blk.drop ((BitVec.ofNat 64 th.pc).toNat % 32)))
      | .error _ => false) = true := ⟨_, rfl, by decide +kernel, by decide +kernel, by decide +kernel⟩
  obtain ⟨th, a, b, m, c⟩ := h1
  split at c
  · rename_i blk hb
    simp only [Bool.and_eq_true] at c
    obtain ⟨x, d⟩ := isSome_iff _ c.1
    obtain ⟨⟨i, n⟩, e⟩ := answers_iff _ c.2
    exact ⟨s, th, i, n, blk, x, a, b, m, hb, d, e⟩
  · cases c
theorem witness_well_formed : wellFormed (.add io) = true ∧ wellFormed (.li np 5 false 3) = true := by decide +kernel
theorem witness_canonical_step : ∃ s s', Memory.wf s.mem = true ∧ Machine.step s = .next s' := by
  have h : (match Machine.step (adding 0 id) with | .next _ => true | _ => false) = true ∧ Memory.wf (adding 0 id).mem = true := by
    constructor <;> decide +kernel
  match hs : Machine.step (adding 0 id) with
  | .next s' => exact ⟨_, s', h.2, hs⟩
  | .fault _ => rw [hs] at h; cases h.1
  | .refused _ => rw [hs] at h; cases h.1

/-! #### Events -/

/-- A device with one thread in slot 0 of core 0. -/
def alone (f : Thread → Thread) (g : State → State) : State := g (State.reset.setThread 0 (f Thread.blank))
/-- A thread's only operation, at scratchpad word 0x100. -/
def doing (cls : OpClass) (a : Act) (p : Phase) (th : Thread) : Thread :=
  { th with ops := [State.reset.newOp cls a p 0xF000000000000100] }
/-- A message at a place, that core 0 sent. -/
def arrived (dst : Place) (p : Payload) (s : State) : State :=
  { s with msgs := [⟨7, 0, 0, .core 0, dst, 0, .arrived, 0, 0, Owner.nobody, p⟩] }
def atCycle (n : Nat) (s : State) : State := { s with cycle := n }
/-- A DONE entry whose value goes to the east link. -/
def heldEntry : Entry := ⟨0, BitVec.ofNat 64 (258 * 2 ^ 14 + 2 ^ 10), Val.zero, Val.zero, Val.zero⟩
/-- A PREF stands at the blank thread's PC. -/
def prefetching (s : State) : State := s.store (spadLoc 0 0) 32 (leNat (encode (.pref ⟨np, 0, 256, 1, .imm 0⟩ false)))
/-- The thread waits in its trap. -/
def inTrapping (th : Thread) : Thread := { th with status := .trapping (some .align) 8 [] 0 8 false false }
/-- What is said of one thread of a device. -/
def Alone (f : Thread → Thread) (g : State → State) (p : State → Thread → Bool) : Prop :=
  (alone f g).thread 0 = some (f Thread.blank) ∧ ((alone f g).core 0).stopped = false ∧ p (alone f g) (f Thread.blank) = true
theorem alone_meets {f : Thread → Thread} {g : State → State} {p : State → Thread → Bool} (h : Alone f g p) :
    ∃ s t th, Running s t th ∧ p s th = true := ⟨alone f g, 0, f Thread.blank, ⟨h.1, h.2.1⟩, h.2.2⟩
theorem witness_turns_of_threads :
    Alone (doing .posted .placed (.refused .tag 0)) id (fun _ th => th.status == .ready && (oldestRefused th.ops).isSome) ∧
    Alone (fun th => { th with turns := 0 }) id (fun _ th => th.status == .ready && (oldestRefused th.ops).isNone && th.turns == 0 &&
      budgetDue 0 th && !lateHandler State.reset th && !headHeld State.reset 0 th) ∧
    Alone (fun th => { th.setPresent 7 false with turns := 5, windows := [⟨[7], 0⟩] }) id (fun _ th => th.status == .ready &&
      (oldestRefused th.ops).isNone && th.turns != 0 && waitsForResult th) ∧
    Alone (fun th => { th with turns := 5 }) id (fun _ th => th.status == .ready && (oldestRefused th.ops).isNone && th.turns != 0 &&
      !waitsForResult th && !waitsForPush th && !waitsForReplay th) ∧
    Alone (fun th => { th with turns := 5, ops := [{ State.reset.newOp .longLat .placed (.sent 1) 0 with dests := [258] }] }) id
      (fun _ th => th.status == .ready && (oldestRefused th.ops).isNone && th.turns != 0 && !waitsForResult th && waitsForPush th) ∧
    Alone (fun th => { doing .posted .placed (.sent 1) th with turns := 5, resuming := true }) id (fun _ th => th.status == .ready &&
      (oldestRefused th.ops).isNone && th.turns != 0 && !waitsForResult th && !waitsForPush th && waitsForReplay th) ∧
    Alone (fun th => { th with reinject := [heldEntry], turns := 5 }) (fun s => s.modCore 0 (fun k => k.setFlying .e (List.replicate Config.inboxSize ⟨Val.zero, 0⟩))) (fun s th =>
      ((s.flushEntries 0 17).thread 0).any (fun x => headHeld (s.flushEntries 0 17) 0 x) && !lateHandler s th) ∧
    Alone (fun th => { th with dispatch := some ⟨3, 4, 0, 0⟩ }) (atCycle (2 ^ 40)) (fun s th => th.status == .ready && lateHandler s th) ∧
    Alone inTrapping id (fun _ th => isTrapping th && th.ops.all Op.isSettled && !pushesLeft th) := by
  unfold Alone
  decide +kernel
theorem witness_operations_end :
    Alone (doing .longLat .placed (.done [Val.zero])) id (fun s th => th.ops.all (fun o => o.id == 1 && o.cls == .longLat &&
      o.phase == .done [Val.zero] && opClear s 0 o) && !th.ops.isEmpty && !isTrapping th) ∧
    Alone (doing .posted .placed (.done [Val.zero])) id (fun s th => (th.op 1).any (fun o => o.cls == .posted && opClear s 0 o)) ∧
    Alone (doing .out .placed (.done [Val.zero])) id (fun s th => (th.op 1).any (fun o => o.cls == .out && opClear s 0 o) && !isTrapping th) ∧
    Alone (fun th => inTrapping { th with ops := [{ State.reset.newOp .out .placed (.done [Val.zero]) 0 with dests := [258] }] }) id
      (fun s th => isTrapping th && (th.op 1).any (fun o => th.pushDue o && opClear s 0 o)) ∧
    Alone (fun th => inTrapping (doing .out .endTask (.sent 0) th)) id (fun _ th => isTrapping th && (th.op 1).any (fun o => o.act.ends)) ∧
    Alone (doing .out (.fence .full .dev) (.sent 0)) id (fun s th => (th.op 1).any (fun o => (s.finishAct 0 th o).isSome)) ∧
    Alone (doing .longLat .placed (.refusing .perm 8)) id (fun _ th => (th.op 1).any (fun o => o.phase == .refusing .perm 8)) ∧
    Alone (doing .longLat (.wld true) .resend) (atCycle 256) (fun s th =>
      (th.ops.find? (fun o => o.phase == .resend)).any (fun o => decide (o.issued + 256 ≤ s.cycle))) := by
  unfold Alone
  decide +kernel
/-- The tables of page 0, their lines cached. -/
def cachedTables (s : State) : State := (tables s).modHome 0 (fun k => (k.install (tables s) 0 false).install (tables s) 1024 false)
theorem witness_parks_end :
    Alone (fun th => { th with status := .parked .postedRoom 0 }) id (fun s th => parkOver s 0 th .postedRoom) ∧
    Alone (fun th => { th with status := .parked (.sleep 0) 0 }) id (fun _ th => th.status == .parked (.sleep 0) 0) ∧
    Alone (fun th => { th with status := .parked (.plb 0 8) 0 }) noEntry (fun s th => (leafOf (s.walkNow 0) 0).isNone &&
      fetchAddr { th with status := .ready } != some 8 && !prefNext (s.walkNow 0) 0 { th with status := .ready }) ∧
    Alone (fun th => { th with status := .parked (.plb 0 8) 0, ranges := [full] }) (fun s => noEntry (prefetching s)) (fun s th =>
      (leafOf (s.walkNow 0) 0).isNone && fetchAddr { th with status := .ready } != some 8 && prefNext (s.walkNow 0) 0 { th with status := .ready }) ∧
    Alone (fun th => { th with status := .parked (.plb 0 64) 0, pcc := ⟨capBounds 0xFFF 64 128, true⟩ }) noEntry (fun s th =>
      (leafOf (s.walkNow 0) 0).isNone && fetchAddr { th with status := .ready } == some 64) ∧
    Alone (fun th => { th with status := .parked (.plb 0 8) 0, domain := 3 }) cachedTables (fun s th => (leafOf (s.walkNow 0) 0).any (fun l =>
      l.domain != 0xFFFF && l.domain != th.domain)) ∧
    Alone (fun th => { th with status := .parked (.plb 0 8) 0 }) cachedTables (fun s th =>
      (leafOf (s.walkNow 0) 0).any (fun l => l.domain == th.domain)) := by
  unfold Alone
  decide +kernel

/-- A state in which message 7 is next at a core. -/
def Arrived (s : State) (h : Nat) (p : State → Msg → Bool) : Prop := (match s.ready 7 with | some (x, k) => k == h && p s x | none => false) = true
theorem arrived_meets {s : State} {h : Nat} {p : State → Msg → Bool} (w : Arrived s h p) : ∃ m x, AtHome s m x h ∧ p s x = true := by
  unfold Arrived at w
  split at w
  · rename_i x k e
    simp only [Bool.and_eq_true, beq_iff_eq] at w
    obtain ⟨rfl, w⟩ := w
    exact ⟨7, x, e, w⟩
  · cases w
/-- The access of a load at scratchpad word 0x100, at its home. -/
def loading (g : State → State) : State := alone (doing .longLat (.load 3 false) (.sent 1)) (fun s => arrived (.core 0) (.access 0 1) (g s))
/-- The access of a load at address 0x100 of region 0x00. -/
def loadingFar (h : Nat) (g : State → State) : State :=
  alone (fun th => { th with ops := [State.reset.newOp .longLat (.load 3 false) (.sent 1) 0x100] })
    (fun s => arrived (.core h) (.access 0 1) (g (tables s)))
/-- The access of a release store, and of a FILL of an empty word, at scratchpad word 0x100, at its home. -/
def releasing (g : State → State) : State :=
  alone (doing .out (.storeRel 3 Val.zero) (.sent 1)) (fun s => arrived (.core 0) (.access 0 1) (g s))
def filling (g : State → State) : State :=
  alone (doing .out (.fill 5) (.sent 1)) (fun s => arrived (.core 0) (.access 0 1) (g (s.setFe (spadLoc 0 0x100) false)))
/-- Home frame entries of the page. -/
def walked (h f : Nat) (s : State) : State :=
  s.modHome h (fun k => { k with frames := [(f, { HomeFrame.reset with valid := true, vpn := 0 })] })
theorem witness_accesses :
    Arrived (loading id) 0 (fun s x => x.isAccess && (unwalkedPages s 0 x).isEmpty && (missingLines s 0 x).isEmpty &&
      !x.raised s && (x.blocked s 0).isNone && (s.noteAwaited 0 x).isNone && (pullsNeeded s 0 x).isEmpty) ∧
    Arrived (loading (fun s => s.modHome 0 (fun k => { k with directory := [⟨spadLoc 0 0x100 / 32, [3], false⟩] }))) 0 (fun s x =>
      x.isAccess && (unwalkedPages s 0 x).isEmpty && (missingLines s 0 x).isEmpty && !x.raised s && (x.blocked s 0).isNone && (s.noteAwaited 0 x).isNone &&
      (pullsNeeded s 0 x).any (fun p => !p.2.2)) ∧
    Arrived (releasing (fun s => s.modHome 0 (fun k => { k with directory := [⟨spadLoc 0 0x100 / 32, [3, 4, 5, 6], false⟩] }))) 0 (fun s x =>
      x.isAccess && (unwalkedPages s 0 x).isEmpty && (missingLines s 0 x).isEmpty && !x.raised s && (x.blocked s 0).any (fun b => !b.1.pulling)) ∧
    Arrived (filling (fun s => s.modHome 0 (fun k => { k with waits := [⟨spadLoc 0 0x100, .take, .slot 5, 0, false⟩] }))) 0 (fun s x =>
      x.isAccess && (unwalkedPages s 0 x).isEmpty && (missingLines s 0 x).isEmpty && !x.raised s && (x.blocked s 0).isNone &&
      (s.noteAwaited 0 x).isSome && (pullsNeeded ((s.noteAwaited 0 x).getD s) 0 x).any (fun p => !p.2.2)) ∧
    Arrived (loadingFar 1 id) 1 (fun s x => x.isAccess && x.needsLines && !(unwalkedPages s 1 x).isEmpty) := by
  unfold Arrived
  decide +kernel
theorem witness_home_messages :
    Arrived (arrived (.core 3) (.register 0 1 0x100 1) State.reset) 3 (fun _ _ => true) ∧
    Arrived (arrived (.core 3) (.probe 0 1) State.reset) 3 (fun _ _ => true) ∧
    Arrived (arrived (.core 3) (.echo 0 1) State.reset) 3 (fun _ _ => true) ∧
    Arrived (arrived (.core 3) (.wback 0 0xF000000000000100 1 5 0 Owner.nobody true none) State.reset) 3 (fun s x =>
      (unwalkedPages s 3 x).isEmpty && (missingLines s 3 x).isEmpty) ∧
    Arrived (arrived (.core 3) (.wback 0 0xF000000000000100 1 5 0 Owner.nobody true (some (0, 1))) State.reset) 3 (fun s x =>
      (unwalkedPages s 3 x).isEmpty && (missingLines s 3 x).isEmpty) ∧
    Arrived (arrived (.core 3) (.pull 5 8 true) State.reset) 3 (fun s _ => !coveredOut s 3) ∧
    Arrived (arrived (.core 3) (.pullReply 3 8 5) State.reset) 3 (fun _ _ => true) := by
  unfold Arrived
  decide +kernel

/-- A message that wakes operation 1 of the thread in slot 0. -/
def waking (s : State) : State := arrived (.core 0) (.wake (.slot 0) 1 5 true) s
theorem witness_home_units :
    (∃ b ∈ ((State.reset.modHome 3 (fun k => { k with wbuf := [⟨0x100, 8, 256, 8, Val.zero, Owner.nobody, 0⟩] })).home 3).wbuf, b.sector = 8) ∧
    (lineWanted (loadingFar 1 (walked 1 100)) ⟨1, 8593410, false⟩ = true ∧ ((loadingFar 1 (walked 1 100)).home 1).shift = false ∧
      tfind ((loadingFar 1 (walked 1 100)).home 1).backoff (Config.bankOf 8593410) = none) ∧
    (match (waking State.reset).msg 7 with
      | some x => x.ride == .arrived && x.payload == .wake (.slot 0) 1 5 true && (savedFor (waking State.reset) 1).isNone
      | none => false) = true := by
  refine ⟨⟨_, List.mem_singleton.mpr rfl, rfl⟩, ⟨by decide +kernel, by decide +kernel, rfl⟩, by decide +kernel⟩

/-- A thread asleep until far away. -/
def asleep (th : Thread) : Thread := { th with status := .parked (.sleep (BitVec.allOnes 64)) 0 }
/-- The cluster's store has one page. -/
def stored (s : State) : State := (s.modCore 0 (fun k => { k with parklim := 256 })).modStation 0 (fun k => { k with pkstore := 0x40001 })
theorem witness_swaps :
    Alone (fun th => { th with status := .parked .store 0 }) stored (fun s th => (swapOf th).any (fun w => maySwap s 0 th w) &&
      (freeStore (s.station 0)).isSome) ∧
    Alone (fun th => { doing .out (.wld true) .waiting th with status := .out 1 0 }) (fun s => (atCycle 256 s).modHome 0 (fun k => { k with
      waits := [⟨spadLoc 0 0x100, .take, .slot 0, 1, false⟩] }))
      (fun s th => (swapOf (th)).any (fun w => w.limited && th.fullSince != some w.since) && (freeStore (s.station 0)).isNone) := by
  unfold Alone
  decide +kernel
/-- A stored task. -/
def entryOf (woken : Bool) (st : Status) : StoreEntry := ⟨{ Thread.blank with status := st }, 0, 0, woken, false, false, []⟩
def storingTask (e : StoreEntry) : State := State.reset.modStation 0 (fun k => { k with store := [(3, e)] })
theorem witness_stored_tasks :
    (tfind ((storingTask (entryOf true .ready)).station 0).store 3 = some (entryOf true .ready) ∧
      ((storingTask (entryOf true .ready)).station 0).stopped = false ∧ ((storingTask (entryOf true .ready)).station 0).room 1 = true) ∧
    storedOver (storingTask (entryOf false (.parked .postedRoom 0))) (entryOf false (.parked .postedRoom 0)) = true := by decide +kernel
/-- Queue 5 enabled or not. -/
def queue5 (on : Word) : State := State.reset.modDev (fun d => { d with intake := [(5, { IntakeQueue.reset with cfg := on })] })
theorem witness_intake : (tget (queue5 0).dev.intake 5 IntakeQueue.reset).cfg.getLsbD 0 = false ∧
    (tget (queue5 1).dev.intake 5 IntakeQueue.reset).cfg.getLsbD 0 = true ∧ (List.replicate 63 (0 : Byte)).length ≠ 64 ∧
    (List.replicate 64 (0 : Byte)).length = 64 ∧ windowWaits (queue5 0) (.link 1) = false ∧ windowWaits (queue5 1) (.link 1) = false := by decide +kernel
/-- A ready-set entry. -/
def entry (st : EntryState) : ReadyEntry := ⟨Thread.blank.tcb, 9, 0, 0, st, 0, [], 0, none, none, none⟩
def readySet (st : EntryState) : State := State.reset.modStation 0 (fun k => { k with heap := [entry st] })
/-- A crew with a reservation. -/
def crewed : CrewState := ⟨1, ⟨placeCap, true⟩, 2, [0], 1, none, Thread.blank⟩
theorem witness_slots :
    (((readySet .staging).station 0).heap ++ ((readySet .staging).station 0).overflow).find? (fun e => e.taskid == 9 && e.state == .staging) =
      some (entry .staging) ∧ ((readySet .staging).station 0).stopped = false ∧ resident ((readySet .staging).walkPages ((entry .staging).ranges.map pagesOf).flatten) (entry .staging).ranges = true ∧
    forcing ((readySet .staging).walkPages ((entry .staging).ranges.map pagesOf).flatten) (tnum noCore 0) ((entry .staging).ranges.map pagesOf).flatten = false ∧
    slotFree (State.reset.modCore 0 (fun k => { k with arrivals := [⟨Thread.blank, 0, 3⟩] })) 0 0 = true ∧
    slotFree (State.reset.modCore 0 (fun k => { k with crew := some crewed })) 0 0 = true ∧
    ((State.reset.modCore 0 (fun k => { k with crew := some crewed })).core 0).arrivals = [] ∧
    crewClaim ((State.reset.modCore 0 (fun k => { k with crew := some crewed })).core 0) = some crewed ∧
    slotFree (readySet .eligible) 0 0 = true ∧ ((readySet .eligible).core 0).arrivals = [] ∧ crewClaim ((readySet .eligible).core 0) = none ∧
    firstFit (readySet .eligible) 0 = some (entry .eligible) := by decide +kernel
/-- Core 3's arrival queue is full. -/
def crowded (s : State) : State := s.modCore 3 (fun k => { k with arrivals := List.replicate Config.arrivalSize ⟨Thread.blank, 0, 0⟩ })
theorem witness_arrivals :
    ((arrived (.core 3) (.travel ⟨Thread.blank, 0, 0⟩) State.reset).msg 7).any (fun x => x.ride == .arrived && x.dst == .core 3) = true ∧
    ((arrived (.core 3) (.travel ⟨Thread.blank, 0, 0⟩) State.reset).core 3).arrivals.length < Config.arrivalSize ∧
    Config.arrivalSize ≤ ((arrived (.core 3) (.travel ⟨Thread.blank, 0, 0⟩) (crowded State.reset)).core 3).arrivals.length ∧
    (State.reset.station 5).stopped = false ∧ (State.reset.station 5).steal = none ∧ idleCluster State.reset 5 = true ∧
    nextVictim 5 0 = some (1, 6) ∧
    ((arrived (.station 5) (.stealReply [entry .eligible]) State.reset).msg 7).any (fun x => x.ride == .arrived && x.dst == .station 5) = true ∧
    (((arrived (.station 5) (.stealReply [entry .eligible]) State.reset).requeueAll 5).station 5).roomNew 1 = true := by
  decide +kernel

/-- An engine operation. -/
def engineOp (kind : EngKind) (running answered : Bool) (progress : Nat) : EngOp :=
  ⟨4, kind, 9, 0, [], Val.zero, Val.zero, Val.zero, Val.zero, .none, 0, 16, [], running, progress, none, answered, false, 0, 0, 0, 0, 0, 0⟩
def engines (e : EngOp) : State := State.reset.modCore 0 (fun k => { k with engine := [e] })
def job : MatrixJob := ⟨0, 0, 0, false, Val.zero, Val.zero, Val.zero, Val.zero, Val.zero, 0, 0, 0, 0, 0, 0, none, none, .none, false, true, 0, [], ⟨[], 0, none, 0, 0⟩⟩
theorem witness_engines :
    (nextEngine ((engines (engineOp .copy false false 0)).core 0)).isSome = true ∧
    (((engines (engineOp .copy false false 0)).core 0).engine.findSome? ((engines (engineOp .copy false false 0)).nextCommand 0)).isNone = true ∧
    (((engines (engineOp .arcin true false 0)).core 0).engine.findSome? ((engines (engineOp .arcin true false 0)).nextCommand 0)).isSome = true ∧
    (((engines (engineOp .copy true false 1)).core 0).engOp (BitVec.ofNat 16 4)).any EngOp.ended = true ∧
    (((engines (engineOp .arcin true false 1)).core 0).engOp (BitVec.ofNat 16 4)).any EngOp.outstanding = true ∧
    Alone (doing .out (.matrix job) (.sent 1)) (fun s => s.modCore 0 (fun k => { k with matrix := some (0, 1) })) (fun s th =>
      (s.core 0).matrix == some (0, 1) && (th.op 1).any (fun o => o.act == .matrix job && o.phase == .sent 1)) ∧
    Alone (doing .out (.rows 3 false false 0 128) (.sent 5)) id (fun _ th => (th.op 1).any (fun o => o.phase == .sent 5)) := by
  unfold Alone
  decide +kernel
/-- A drain of tile 3. -/
def drain3 : Drain := ⟨3, 7, Val.zero, 32, 4, 4, none, 9, 0, 0, 0, [], true⟩
def drainingCore (entry : Val) (dom : BitVec 16) : State :=
  State.reset.modCore 0 (fun k => { k with drains := [drain3], hentry := entry, hdomain := dom })
/-- A row handler long at work. -/
def longAtWork : State := atCycle (2 ^ 40) (State.reset.setThread 64 { Thread.blank with dispatch := some ⟨3, 4, 0, 0⟩, mode := .handler })
theorem witness_drains :
    (drainingCore Val.zero 0).thread (tnum 0 64) = none ∧ ((drainingCore Val.zero 0).core 0).stopped = false ∧
    nextDrain ((drainingCore Val.zero 0).core 0) = some drain3 ∧ ((drainingCore Val.zero 0).core 0).hentry.tag = false ∧
    nextDrain ((drainingCore ⟨placeCap, true⟩ 5).core 0) = some drain3 ∧
    ((drainingCore ⟨placeCap, true⟩ 5).core 0).hdomain ≠ (((drainingCore ⟨placeCap, true⟩ 5).core 0).tile 3).domain ∧
    ((drainingCore ⟨placeCap, true⟩ 0).core 0).hdomain = (((drainingCore ⟨placeCap, true⟩ 0).core 0).tile 3).domain ∧
    (longAtWork.thread (tnum 0 64)).any (fun th => th.dispatch.any (fun d => decide (d.start + Config.handlerCycles ≤ longAtWork.cycle)) &&
      !isTrapping th) = true ∧ tcore (tnum 0 64) = 0 := by decide +kernel
/-- A repartition that waits for nothing else, and a way conversion. -/
def splitting (p : Nat) (rest : List Op) : State := alone (fun th => { doing .out .nothing (.sent 1) th with
    ops := (doing .out .nothing (.sent 1) th).ops ++ rest, status := .out 1 0 })
  (fun s => s.modCore 0 (fun k => { k with repart := some p }))
/-- A register of its issuer is absent. -/
def absentOne : State := (splitting 1 []).modThread 0 (fun th => th.setPresent 5 false)
/-- What stands beside the REPART of core 0. -/
def besides (p : Nat) (rest : List Op) (ok : State → List Op → Bool) : Bool :=
  match repartIssuer (splitting p rest) 0 with
  | some (_, th, o) => ok (splitting p rest) (th.ops.filter (fun x => x.id != o.id))
  | none => false
def converting : State := State.reset.modHome 3 (fun k => { k with conv := some ⟨8, Val.zero, 0, 0⟩ })
/-- A timed domain whose cells lie in the scratchpad of core 0; a stepped one; and work at home 0. -/
def timedDomain : MarkDomain := { cooling with desc := cooling.desc.set 24 1, base := 0xF000000000000000, top := 0xF000000000000080 }
def markedHome (w : List BindWork) (s : State) : State := (s.modMark 3 (fun _ => timedDomain)).modHome 0 (fun k => { k with work := w })
theorem witness_units :
    ((splitting 2 []).core 0).repart = some 2 ∧ besides 2 [] (fun s l => l.isEmpty && (s.core 0).partn != 2) = true ∧
    besides 1 [{ State.reset.newOp .posted .placed (.sent 1) 0 with id := 9 }] (fun s l => (oldestRefused l).isNone &&
      !l.isEmpty && (s.core 0).partn == 1) = true ∧
    (splitting 1 []).threads.all (fun x => x.2.regs.all (fun y => !decide (y.1 < x.2.count) || y.2.present)) = true ∧
    (absentOne.core 0).repart = some 1 ∧ (repartIssuer absentOne 0).any (fun x => x.2.1.regs.any (fun y =>
      decide (y.1 < x.2.1.count) && !y.2.present) && (oldestRefused (x.2.1.ops.filter (fun y => y.id != x.2.2.id))).isNone) = true ∧
    besides 2 [{ State.reset.newOp .posted .placed (.refused .perm 8) 0 with id := 9 }] (fun _ l => (oldestRefused l).isSome &&
      l.all Op.isSettled) = true ∧ (converting.home 3).conv.isSome = true ∧
    ((markedHome [] State.reset).mark 3).bound = true ∧ ((markedHome [] State.reset).mark 3).stepped = false ∧
    markLive (markedHome [] State.reset) 0 3 = true ∧ 1 < ((markedHome [] State.reset).mark 3).cells ∧
    cellHome (markedHome [] State.reset) ((markedHome [] State.reset).mark 3) 1 = 0 ∧
    workOf ((markedHome [⟨3, true, 0, 1⟩] State.reset).home 0) 3 true = some ⟨3, true, 0, 1⟩ ∧
    ownEarlier (markedHome [⟨3, true, 0, 1⟩] State.reset) 0 ⟨3, true, 0, 1⟩ = false ∧
    workOf ((markedHome [⟨3, false, 0, 1⟩] State.reset).home 0) 3 false = some ⟨3, false, 0, 1⟩ ∧
    bindPending (markedHome [⟨3, false, 0, 1⟩] State.reset) 0 3 true = false ∧
    markArrived (markedHome [⟨3, false, 0, 1⟩] State.reset) 0 3 = false ∧
    ownEarlier (markedHome [⟨3, false, 0, 1⟩] State.reset) 0 ⟨3, false, 0, 1⟩ = false ∧
    Arrived (atCycle 1 (arrived (.core 3) (.tick 3 0 5 0 1) State.reset)) 3 (fun s x => (s.ticksUpTo x).all (fun y => y.id == 7)) := by
  unfold Arrived
  decide +kernel
theorem witness_timed_tick : tget ((atCycle 300 (markedHome [] State.reset)).home 0).ticks 3 0 <
    timedTick ((atCycle 300 (markedHome [] State.reset)).mark 3) ((atCycle 300 (markedHome [] State.reset)).tsAt 0) := by
  have h1 : tget ((atCycle 300 (markedHome [] State.reset)).home 0).ticks 3 0 = 0 := by decide +kernel
  have h2 : ((atCycle 300 (markedHome [] State.reset)).mark 3).origin = 0 ∧ ((atCycle 300 (markedHome [] State.reset)).mark 3).period = 1 := by
    decide +kernel
  have h3 : 3 ≤ (atCycle 300 (markedHome [] State.reset)).ts := by decide +kernel
  rw [h1]
  unfold timedTick State.tsAt
  rw [h2.1, h2.2]
  have := Nat.mod_lt (Config.skew 0) (show 3 > 0 by decide)
  simp only [Nat.not_lt_zero, if_false, Nat.div_one, Nat.sub_zero]
  omega

/-- The gang switch of partition 1: cluster 0, or clusters 0 and 1. -/
def gangOf (rect : Nat) (stopped : Bool) : Gang :=
  ⟨1, ⟨full, true⟩, none, BitVec.ofNat 128 rect, Val.zero, 0, 0, [], stopped⟩
def switching (stopped : Bool) (s : State) : State := { s with gangs := [gangOf 0 stopped] }
/-- A message that rides, from core 0 to core 900. -/
def rider (r : Ride) (leg : Nat) : Msg := ⟨7, 0, 0, .core 0, .core 900, 0, r, leg, 0, Owner.nobody, .access 0 1⟩
def riding (r : Ride) (s : State) : State := { s with msgs := [rider r 0] }
/-- On the last loop of its way, whose ejection buffer is full or not, or behind an earlier message of its owner. -/
def arriving (l : List Msg) (s : State) : State := { s with msgs := rider (.onLoop 5) 2 :: l }
def buffered (i : Nat) : Msg := { rider .arrived 2 with id := 101 + 2 * i }
/-- Two messages wait for one loop; the other one has a reserved run. -/
def rivals (s : State) : State := { s with msgs := [rider (.waiting 0 false) 0, { rider (.waiting 0 true) 0 with id := 9 }] }
/-- A saved partition whose thread awaits operation 1. -/
def savedOne : Saved := ⟨1, 0, 0, [], [(0, doing .out (.wld true) .waiting Thread.blank)], [], [], (0, 0), [], [], [], [], []⟩
theorem witness_links_and_loops :
    ((State.reset.modCore 0 (fun k => k.setFlying .e [⟨Val.ofWord 5, 0⟩])).core 0).flying .e = ⟨Val.ofWord 5, 0⟩ :: [] ∧
    neighbour 0 .e = some 1 ∧
    ((State.reset.modCore 0 (fun k => k.setFlying .e [⟨Val.ofWord 5, 0⟩])).core 1).inbox (Side.opposite .e) = [] ∧
    (((riding (.waiting 0 false) (atCycle 64 State.reset)).msg 7).any (fun x => x.ride == .waiting 0 false)) = true ∧
    (((riding (.onLoop 5) State.reset).msg 7).any (fun x => x.ride == .onLoop 5 && (captureKey (riding (.onLoop 5) State.reset) x).isNone &&
      mayEject (riding (.onLoop 5) State.reset) x && !x.lastLeg)) = true ∧
    (((arriving [] State.reset).msg 7).any (fun x => x.ride == .onLoop 5 && (captureKey (arriving [] State.reset) x).isNone &&
      mayEject (arriving [] State.reset) x && x.lastLeg)) = true ∧
    (((arriving ((List.range 16).map buffered) State.reset).msg 7).any (fun x => x.ride == .onLoop 5 &&
      (captureKey (arriving ((List.range 16).map buffered) State.reset) x).isNone &&
      !mayEject (arriving ((List.range 16).map buffered) State.reset) x)) = true := by decide +kernel
theorem witness_insertion :
    mayInsert (riding (.waiting 0 false) State.reset) (rider (.waiting 0 false) 0) = true ∧
    mayInsert (rivals State.reset) (rider (.waiting 0 false) 0) = false ∧
    (rivals State.reset).msg 7 = some (rider (.waiting 0 false) 0) ∧
    captureKey (riding (.waiting 0 false) State.reset) (rider (.waiting 0 false) 0) = none ∧
    captureKey (rivals State.reset) (rider (.waiting 0 false) 0) = none := by
  refine ⟨?_, ?_, by decide +kernel, by decide +kernel, by decide +kernel⟩
  · simp only [mayInsert, Bool.and_eq_true, decide_eq_true_eq]
    exact ⟨Nat.le_trans (m := 16) (by decide +kernel) (Nat.le_add_left ..), by decide +kernel⟩
  · simp only [mayInsert, Bool.and_eq_false_iff]
    exact .inr (by decide +kernel)
theorem witness_gangs :
    (switching false State.reset).gangs.find? (fun g => g.part == 1 && !g.stopped) = some (gangOf 0 false) ∧
    ((rectCores (gangOf 0 false).area).all (fun c => decide ((gangOf 0 false).ts.toNat ≤ (switching false State.reset).tsAt c)) = true) ∧
    ((waking { State.reset with saved := [savedOne] }).msg 7).any (fun x => x.wakes == some 1) = true ∧
    savedFor (waking { State.reset with saved := [savedOne] }) 1 = some savedOne ∧
    ((riding (.onLoop 5) (switching true State.reset)).msg 7).any (fun x => x.wakes.isNone && x.ride == .onLoop 5 && ((riding (.onLoop 5) (switching true State.reset)).gangs.find? (fun g => g.stopped &&
        (x.taken g.part g.area || followsTaken (riding (.onLoop 5) (switching true State.reset)) x (falloutKey g.part g.ts)))).isSome) = true ∧
    (switching true State.reset).gangs.find? (fun g => g.part == 1 && g.stopped) = some (gangOf 0 true) ∧
    atRest (switching true State.reset) 1 (gangOf 0 true).area = true ∧
    (∃ x k, (waking { State.reset with saved := [savedOne] }).msg 7 = some x ∧
      captureKey (waking { State.reset with saved := [savedOne] }) x = some k) := by
  refine ⟨by decide +kernel, ?_, by decide +kernel, by decide +kernel, by decide +kernel, by decide +kernel, by decide +kernel, ⟨_, _, rfl, rfl⟩⟩
  have : (gangOf 0 false).ts.toNat = 0 := by decide +kernel
  simp [this]

/-- Stack 3 with live shifting on, spares left and an error on lane 5. -/
def failing : State := State.reset.setStack 3 ⟨0x104, 2, [(5, 1)], []⟩
/-- The memory window on, over the tables' page. -/
def windowed (s : State) : State :=
  ((cachedTables s).modDev (fun d => { d with hwin := 1 })).modHome 1 (fun k => k.install s 8593408 false)
theorem witness_device :
    tfind (State.reset.home 3).backoff 5 = none ∧
    tfind ((State.reset.modHome 3 (fun k => { k with backoff := [(5, 0)] })).home 3).backoff 5 = some 0 ∧
    (failing.stack 3).repairmode.getLsbD 2 = true ∧ (failing.stack 3).spares.extractLsb' 0 16 ≠ 0 ∧
    ((failing.stack 3).repairmode.extractLsb' 8 8).toNat ≤ tget (failing.stack 3).lanecrc 5 0 ∧ 0 < tget (failing.stack 3).lanecrc 5 0 ∧
    ((State.reset.modHome 3 (fun k => { k with shift := true })).home 3).shift = true ∧
    (State.reset.window (.link 1) 0 8 none).map Prod.snd = some .unsupported ∧
    ((windowed State.reset).window (.link 1) 0 8 none).map Prod.snd = some (.data (List.replicate 8 0)) ∧
    ((windowed State.reset).window (.port 2) 0 8 none).map Prod.snd = some (.data (List.replicate 8 0)) ∧
    ((windowed State.reset).window (.link 1) 0 8 (some [1, 2])).map Prod.snd = some .taken ∧
    barSize 0 < 2 ^ 27 - 4 + 8 ∧ ¬ barSize 0 < 8 + 8 ∧ barSize 2 < 2 ^ 20 + 1 ∧ 0x40000 + ([1, 2, 3, 4] : List Byte).length ≤ barSize 2 ∧
    windowWaits State.reset (.link 1) = false ∧
    portUp (State.reset.modDev (fun d => { d with ppstat := [(2, 1)] })) 2 = true ∧
    (((atCycle 1500000000 (engines (engineOp .arcin true false 1))).core 0).engOp (BitVec.ofNat 16 4)).any (fun e => e.outstanding &&
      decide (e.since + 1500000000 ≤ 1500000000)) = true ∧
    deviceIdle State.reset = true ∧ State.reset.dev.pwrlim.toNat < 1801 ∧ 1800 ≤ State.reset.dev.pwrlim.toNat ∧
    (State.reset.modDev (fun d => { d with trust := { d.trust with busy := 1 } })).dev.trust.busy = 1 ∧
    channelOn ((State.reset.modHome 3 (fun k => { k with captures := [(2, ⟨10, true, [], Totals.reset, Totals.reset, (0, Totals.reset)⟩)] })).home 3).captures 2 10 = true ∧
    channelOn ((State.reset.modCore 3 (fun k => { k with captures := [(2, ⟨5, true, [], Totals.reset, Totals.reset, (0, Totals.reset)⟩)] })).core 3).captures 2 5 = true := by
  decide +kernel
theorem witness_management : mgmtClass 0x1000100 = .counter ∧ mgmtClass 0x1001000 = .capcfg ∧ mgmtClass 0x2000000 = .area ∧
    mgmtClass 0x800 = .window ∧ mgmtClass 0x408 = .pmap ∧ (0x6060 : Nat) < 0x6080 ∧
    busyWrite State.reset 0x10000 0x7800000000 = true := by decide +kernel

end Sys2Proof.Tests
end

section
/-!
The scalar instructions of 06: the integer members as their effects, what each word function of the model computes in exact
arithmetic, and the results of the division, bitwise, shift, rotate and count members.
-/

namespace Sys2Proof.Machine

/-! ### The shared effects -/

/-- A two-source member yields its word function of a and the second source. -/
theorem yieldsWord_of_intEffect {i : Instr} {o : IntOps} {sx : Bool} {f : Word → Word → Word} {g : Vals → Word}
    (hx : ∀ s, exec i s = issue i s (intEffect o sx f)) (hf : ∀ v, f v.a.lo (srcWord sx o.b v.b) = g v) :
    YieldsWord i o.d (fun v _ _ => g v) :=
  yields_of hx (fun v _ s => by rw [intEffect, finish, hf])

/-- A one-source member yields its word function of a. -/
theorem yieldsWord_of_unEffect {i : Instr} {o : UnOps} {f : Word → Word} {g : Vals → Word}
    (hx : ∀ s, exec i s = issue i s (unEffect o f)) (hf : ∀ v, f v.a.lo = g v) :
    YieldsWord i o.d (fun v _ _ => g v) :=
  yields_of hx (fun v _ s => by rw [unEffect, finish, hf])

/-- A division member defers its word function of a and the second source, with no flag (06 R123). -/
theorem defers_of_divEffect {i : Instr} {o : IntOps} {sx : Bool} {f : Word → Word → Word} {g : Vals → Word}
    (hx : ∀ s, exec i s = issue i s (divEffect o sx f)) (hf : ∀ v, f v.a.lo (srcWord sx o.b v.b) = g v) :
    Defers i [o.d] o.la (fun v _ _ => ([Val.ofWord (g v)], Flags.none)) := by
  intro s th h _
  refine exec_goes h (hx s) ?_
  simp [divEffect, hf]

/-! ### Quotients and remainders (06 R125) -/

/-- The signed quotient as 64 bits; that of the most negative number by -1, which is 2^63, wraps. -/
theorem sdiv_eq_ofInt (a b : Word) : a.sdiv b = BitVec.ofInt 64 (a.toInt.tdiv b.toInt) := by
  apply BitVec.eq_of_toInt_eq
  rw [BitVec.toInt_sdiv, BitVec.toInt_ofInt]

theorem srem_eq_ofInt (a b : Word) : a.srem b = BitVec.ofInt 64 (a.toInt.tmod b.toInt) := by
  rw [← BitVec.toInt_srem, BitVec.ofInt_toInt]

theorem divWord_eq (a b : Word) :
    divWord a b = if b = 0 then BitVec.allOnes 64 else BitVec.ofInt 64 (a.toInt.tdiv b.toInt) := by
  simp only [divWord, sdiv_eq_ofInt, beq_iff_eq]

theorem divuWord_eq (a b : Word) :
    divuWord a b = if b = 0 then BitVec.allOnes 64 else BitVec.ofNat 64 (a.toNat / b.toNat) := by
  simp only [divuWord, BitVec.udiv_def, beq_iff_eq]

theorem remWord_eq (a b : Word) : remWord a b = if b = 0 then a else BitVec.ofInt 64 (a.toInt.tmod b.toInt) := by
  simp only [remWord, srem_eq_ofInt, beq_iff_eq]

theorem remuWord_eq (a b : Word) : remuWord a b = if b = 0 then a else BitVec.ofNat 64 (a.toNat % b.toNat) := by
  simp only [remuWord, BitVec.umod_def, beq_iff_eq]

/-! ### Shifts and rotation (06 R126) -/

/-- A left shift by any count multiplies, modulo 2^64. -/
theorem shiftLeft_eq_ofNat (a : Word) (n : Nat) : a <<< n = BitVec.ofNat 64 (a.toNat * 2 ^ n) := by
  apply BitVec.eq_of_toNat_eq
  rw [BitVec.toNat_shiftLeft, BitVec.toNat_ofNat, Nat.shiftLeft_eq]

/-- A right shift by any count divides. -/
theorem ushiftRight_eq_ofNat (a : Word) (n : Nat) : a >>> n = BitVec.ofNat 64 (a.toNat / 2 ^ n) := by
  rw [← Nat.shiftRight_eq_div_pow, ← BitVec.toNat_ushiftRight, BitVec.ofNat_toNat, BitVec.setWidth_eq]

theorem shlWord_eq (a c : Word) : shlWord a c = BitVec.ofNat 64 (a.toNat * 2 ^ c.toNat) := by
  rw [← shiftLeft_eq_ofNat, shlWord]
  split
  next h => exact (BitVec.shiftLeft_eq_zero h).symm
  next => rfl

theorem shrWord_eq (a c : Word) : shrWord a c = BitVec.ofNat 64 (a.toNat / 2 ^ c.toNat) := by
  rw [← ushiftRight_eq_ofNat, shrWord]
  split
  next h => exact (BitVec.ushiftRight_eq_zero h).symm
  next => rfl

/-- Beyond the width an arithmetic shift leaves only the sign, so its count may stop at 64. -/
theorem sshiftRight_min_width (a : Word) (n : Nat) : a.sshiftRight (min n 64) = a.sshiftRight n := by
  by_cases h : n ≤ 64
  · rw [Nat.min_eq_left h]
  · ext i hi
    rw [BitVec.getElem_sshiftRight, BitVec.getElem_sshiftRight, dif_neg (by omega), dif_neg (by omega)]

theorem sraWord_eq (a c : Word) : sraWord a c = BitVec.ofInt 64 (a.toInt / 2 ^ c.toNat) := by
  rw [sraWord, sshiftRight_min_width, ← BitVec.ofInt_toInt (x := a.sshiftRight c.toNat), BitVec.toInt_sshiftRight,
    Int.shiftRight_eq_div_pow, Nat.cast_pow, Nat.cast_ofNat]

/-- The two parts of a rotation have no bit in common. -/
theorem rotation_parts_disjoint (a : Word) (n : Nat) : a >>> n &&& a <<< (64 - n) = 0#64 := by
  ext i hi
  rw [BitVec.getElem_and, BitVec.getElem_ushiftRight, BitVec.getElem_shiftLeft]
  by_cases h : i < 64 - n
  · simp [h]
  · simp [BitVec.getLsbD_of_ge a (n + i) (by omega)]

theorem rotrWord_eq (a c : Word) : rotrWord a c =
    BitVec.ofNat 64 (a.toNat / 2 ^ (c.toNat % 64) + a.toNat * 2 ^ (64 - c.toNat % 64)) := by
  rw [rotrWord, BitVec.rotateRight_def, Nat.mod_mod, ← BitVec.add_eq_or_of_and_eq_zero _ _ (rotation_parts_disjoint a _),
    ushiftRight_eq_ofNat, shiftLeft_eq_ofNat, ← BitVec.ofNat_add]

/-! ### Counts of bits (06 R124) -/

theorem size_eq_succ_log2 {n : Nat} (h : n ≠ 0) : n.size = n.log2 + 1 := by
  apply Nat.le_antisymm
  · exact Nat.size_le.mpr Nat.lt_log2_self
  · exact Nat.lt_size.mpr (Nat.log2_self_le h)

theorem clzWord_eq (a : Word) : clzWord a = BitVec.ofNat 64 (64 - a.toNat.size) := by
  by_cases h : a = 0
  · simp [clzWord, h]
  · have hn : a.toNat ≠ 0 := fun h0 => h (BitVec.eq_of_toNat_eq h0)
    simp only [clzWord, beq_iff_eq, h, if_false, size_eq_succ_log2 hn]
    congr 1
    omega

/-- The first place of a range that passes a test stands behind as many as fail it before; with none, the end does. -/
theorem find_getD_range' (p : Nat → Bool) (k n : Nat) :
    ((List.range' k n).find? p).getD (k + n) = k + ((List.range' k n).takeWhile (fun i => !p i)).length := by
  induction n generalizing k with
  | zero => rfl
  | succ n ih =>
    rw [List.range'_succ]
    cases hp : p k with
    | true => simp [hp]
    | false =>
      rw [List.find?_cons_of_neg (by simp [hp]), List.takeWhile_cons_of_pos (by simp [hp]), List.length_cons,
        Nat.add_comm n, ← Nat.add_assoc, ih]
      omega

theorem ctzWord_eq (a : Word) :
    ctzWord a = BitVec.ofNat 64 ((List.range 64).takeWhile (fun i => !a.getLsbD i)).length := by
  have h := find_getD_range' (fun i => a.getLsbD i) 0 64
  rw [Nat.zero_add, Nat.zero_add, ← List.range_eq_range'] at h
  rw [ctzWord, h]

/-- The numbers of a range that pass a test, counted by a list or as a set. -/
theorem length_filter_range (p : Nat → Bool) (n : Nat) :
    ((List.range n).filter p).length = (Finset.univ.filter (fun i : Fin n => p i = true)).card := by
  rw [← List.toFinset_card_of_nodup (List.nodup_range.filter p), List.toFinset_filter, List.toFinset_range,
    Finset.card_filter, Finset.card_filter, Fin.sum_univ_eq_sum_range (fun i => if p i = true then 1 else 0)]

theorem popcWord_eq (a : Word) :
    popcWord a = BitVec.ofNat 64 (Finset.univ.filter (fun i : Fin 64 => a.getLsbD i = true)).card := by
  rw [popcWord, length_filter_range]

/-! ### The statements -/

/-- Settles O2: each member defers its word function, which is the truncating quotient or remainder. -/
theorem divisionResults : Obligations.DivisionResults :=
  ⟨fun _ => defers_of_divEffect (fun _ => rfl) (fun _ => divWord_eq ..),
   fun _ => defers_of_divEffect (fun _ => rfl) (fun _ => divuWord_eq ..),
   fun _ => defers_of_divEffect (fun _ => rfl) (fun _ => remWord_eq ..),
   fun _ => defers_of_divEffect (fun _ => rfl) (fun _ => remuWord_eq ..)⟩

/-- Settles O3: each member yields its word function; AND, OR, XOR and ANDN are those of the statement themselves. -/
theorem bitwiseAndShiftResults : Obligations.BitwiseAndShiftResults :=
  ⟨fun _ => yieldsWord_of_intEffect (fun _ => rfl) (fun _ => rfl),
   fun _ => yieldsWord_of_intEffect (fun _ => rfl) (fun _ => rfl),
   fun _ => yieldsWord_of_intEffect (fun _ => rfl) (fun _ => rfl),
   fun _ => yieldsWord_of_intEffect (fun _ => rfl) (fun _ => rfl),
   fun _ => yieldsWord_of_intEffect (fun _ => rfl) (fun _ => shlWord_eq ..),
   fun _ => yieldsWord_of_intEffect (fun _ => rfl) (fun _ => shrWord_eq ..),
   fun _ => yieldsWord_of_intEffect (fun _ => rfl) (fun _ => sraWord_eq ..),
   fun _ => yieldsWord_of_intEffect (fun _ => rfl) (fun _ => rotrWord_eq ..),
   fun _ => yieldsWord_of_unEffect (fun _ => rfl) (fun _ => clzWord_eq ..),
   fun _ => yieldsWord_of_unEffect (fun _ => rfl) (fun _ => ctzWord_eq ..),
   fun _ => yieldsWord_of_unEffect (fun _ => rfl) (fun _ => popcWord_eq ..)⟩

end Sys2Proof.Machine
end

section
/-!
The packed members of 07 that act on bits alone: the effects as lists of elements, what a shift makes of one element, and the results
of the bitwise, shift, select, permute, pack, plane and verdict members.
-/

namespace Sys2Proof.Machine

/-! ### Elements of a group -/

@[simp] theorem length_elemsOf (w n bits : Nat) : (elemsOf w n bits).length = n := by
  simp [elemsOf]

theorem lt_of_mem_elemsOf {w n bits x : Nat} (h : x ∈ elemsOf w n bits) : x < 2 ^ w := by
  simp only [elemsOf, List.mem_map] at h
  obtain ⟨_, _, rfl⟩ := h
  exact Nat.mod_lt _ (Nat.two_pow_pos w)

@[simp] theorem length_groupElems (i : Instr) (k : Pk) (x : Opn) (th : Thread) (s : State) :
    (groupElems i k x th s).length = 128 * groupSize k.g / typeWidth (s.elemTypeOf i) :=
  length_elemsOf ..

theorem lt_of_mem_groupElems {i : Instr} {k : Pk} {r : Opn} {th : Thread} {s : State} {x : Nat}
    (h : x ∈ groupElems i k r th s) : x < 2 ^ typeWidth (s.elemTypeOf i) :=
  lt_of_mem_elemsOf h

/-- A member whose effect writes a group of elements and nothing else rearranges. -/
theorem rearranges_of {i : Instr} {k : Pk} {n : Nat} {w : State → Nat} {f : Vals → Thread → State → List Nat} {eff : Effect}
    (hx : ∀ s, exec i s = issue i s eff)
    (he : ∀ v th s, eff v th s = .ok (s.putGroup k.d n (joinElems (w s) (f v th s)))) : Rearranges i k n w f :=
  effects_of hx (fun v th s _ => he v th s)

/-! ### Bitwise members (07 R152) -/

/-- A bitwise member applies its operation to the 128·G bits of two groups. -/
theorem effects_of_bitsEffect {i : Instr} {k : Pk} {b : Opn} {f : Nat → Nat → Nat}
    (hx : ∀ s, exec i s = issue i s (bitsEffect k b false f)) :
    Effects i (fun _ _ _ => True) (fun _ th s =>
      s.putGroup k.d (groupSize k.g) (f (th.groupBits k.a (groupSize k.g)) (th.groupBits b (groupSize k.g)))) :=
  effects_of hx (fun _ _ _ _ => rfl)

/-- Under `.bs` the second operand is one register's bits in every register of the group. -/
theorem effects_of_bitsEffect_bs {i : Instr} {k : Pk} {b : Opn} {f : Nat → Nat → Nat}
    (hx : ∀ s, exec i s = issue i s (bitsEffect k b true f)) :
    Effects i (fun _ _ _ => True) (fun _ th s =>
      s.putGroup k.d (groupSize k.g) (f (th.groupBits k.a (groupSize k.g))
        (joinElems 128 (List.replicate (groupSize k.g) (th.read b).bits.toNat)))) :=
  effects_of hx (fun _ _ _ _ => rfl)

/-! ### Shifts (07 R153) -/

theorem signed_bounds (w v : Nat) : -(2 : Int) ^ w ≤ signed w v ∧ signed w v < 2 ^ w := by
  have hlt : ((v % 2 ^ w : Nat) : Int) < 2 ^ w := by exact_mod_cast Nat.mod_lt v (Nat.two_pow_pos w)
  unfold signed
  split <;> omega

/-- A number within w bits and its sign, shifted by c ≥ w places, leaves only the sign. -/
theorem ediv_two_pow_of_le {x : Int} {w c : Nat} (hlo : -(2 : Int) ^ w ≤ x) (hhi : x < 2 ^ w) (hc : w ≤ c) :
    x / 2 ^ c = if x < 0 then -1 else 0 := by
  have hp : (2 : Int) ^ w ≤ 2 ^ c := pow_le_pow_right₀ (by decide) hc
  split
  next hneg => exact Int.ediv_eq_neg_one_of_neg_of_le hneg (by omega)
  next hpos => exact Int.ediv_eq_zero_of_lt (by omega) (by omega)

/-- So the count of an arithmetic shift may stop at the width. -/
theorem ediv_two_pow_min {x : Int} {w : Nat} (c : Nat) (hlo : -(2 : Int) ^ w ≤ x) (hhi : x < 2 ^ w) :
    x / 2 ^ min c w = x / 2 ^ c := by
  by_cases h : c ≤ w
  · rw [Nat.min_eq_left h]
  · have hc : w ≤ c := by omega
    rw [Nat.min_eq_right hc, ediv_two_pow_of_le hlo hhi le_rfl, ediv_two_pow_of_le hlo hhi hc]

/-- A left shift multiplies, modulo 2^w; a count of w or more leaves a multiple of 2^w. -/
theorem shiftElem_left (t : BitVec 6) (a c : Nat) : shiftElem false t a c = a * 2 ^ c % 2 ^ typeWidth t := by
  simp only [shiftElem, Bool.false_eq_true, if_false]
  split
  next h => exact (Nat.mod_eq_zero_of_dvd ((pow_dvd_pow 2 h).mul_left a)).symm
  next => rfl

/-- A right shift of an element divides its value, rounding down. -/
theorem shiftElem_right {t : BitVec 6} {a : Nat} (c : Nat) (ha : a < 2 ^ typeWidth t) :
    shiftElem true t a c = (intVal t a / 2 ^ c % 2 ^ typeWidth t).toNat := by
  simp only [shiftElem, if_true]
  cases hs : isSignedType t with
  | true =>
    obtain ⟨hlo, hhi⟩ := signed_bounds (typeWidth t) a
    simp only [intVal, hs, if_true, ediv_two_pow_min c hlo hhi]
  | false =>
    have hv : intVal t a / 2 ^ c % 2 ^ typeWidth t = ((a / 2 ^ c % 2 ^ typeWidth t : Nat) : Int) := by
      simp [intVal, hs, Nat.mod_eq_of_lt ha]
    rw [hv, Int.toNat_natCast, Nat.mod_eq_of_lt ((Nat.div_le_self _ _).trans_lt ha)]
    simp only [Bool.false_eq_true, if_false]
    split
    next hc => exact (Nat.div_eq_of_lt (ha.trans_le (Nat.pow_le_pow_right (by decide) hc))).symm
    next => rfl

/-- A shift member shifts every element of a by its own count, or by the one that the immediate gives. -/
theorem rearranges_of_shiftEffect {i : Instr} {right : Bool} {k : Pk} {b : SrcB} {f : BitVec 6 → Nat → Nat → Nat}
    (hx : ∀ s, exec i s = issue i s (shiftEffect i right k b))
    (hf : ∀ t a c, a < 2 ^ typeWidth t → shiftElem right t a c = f t a c) :
    Rearranges i k (groupSize k.g) (fun s => typeWidth (s.elemTypeOf i)) (fun _ th s =>
      let xs := groupElems i k k.a th s
      let cs := match b with | .imm v => List.replicate xs.length v.toNat | .reg r => groupElems i k r th s
      xs.zipWith (f (s.elemTypeOf i)) cs) := by
  have hz (th : Thread) (s : State) (cs : List Nat) :
      ((groupElems i k k.a th s).zip cs).map (fun z => shiftElem right (s.elemTypeOf i) z.1 z.2)
        = (groupElems i k k.a th s).zipWith (f (s.elemTypeOf i)) cs := by
    rw [← List.map_uncurry_zip_eq_zipWith]
    exact List.map_congr_left fun z hmem => hf _ _ _ (lt_of_mem_groupElems (List.of_mem_zip hmem).1)
  refine rearranges_of hx (fun _ th s => ?_)
  cases b with
  | imm v =>
    rw [← hz, length_groupElems]
    rfl
  | reg r =>
    rw [← hz]
    rfl

/-! ### Selection, permutation and widening (07 R155, R166, R167) -/

theorem vsel_rearranges (k : Pk) (b c : Opn) :
    Rearranges (.vsel k b c) k (groupSize k.g) (fun s => typeWidth (s.elemTypeOf (.vsel k b c))) (fun _ th s =>
      let g := fun x => groupElems (.vsel k b c) k x th s
      ((g k.a).zip ((g b).zip (g c))).map (fun z => if z.2.2 ≠ 0 then z.1 else z.2.1)) := by
  refine rearranges_of (fun _ => rfl) (fun _ _ _ => ?_)
  simp only [← bne_iff_ne]
  rfl

/-- VPERM takes its indices modulo the number of elements. -/
theorem vperm_rearranges (k : Pk) (b : Opn) :
    Rearranges (.vperm k b) k (groupSize k.g) (fun s => typeWidth (s.elemTypeOf (.vperm k b))) (fun _ th s =>
      let xs := groupElems (.vperm k b) k k.a th s
      (groupElems (.vperm k b) k b th s).map (fun j => xs.getD (j % xs.length) 0)) := by
  refine rearranges_of (fun _ => rfl) (fun _ _ _ => ?_)
  simp only [length_groupElems]
  rfl

/-! ### Planes (07 R169) -/

/-- Bits read highest first by doubling are the sum of the bits at their places. -/
theorem foldl_double_add (f : Nat → Nat) (n : Nat) :
    (List.range n).foldl (fun acc j => 2 * acc + f j) 0 = ((List.range n).map (fun j => f j * 2 ^ (n - 1 - j))).sum := by
  induction n with
  | zero => rfl
  | succ n ih =>
    have hplace : (List.range n).map (fun j => f j * 2 ^ (n - j)) = (List.range n).map (fun j => 2 * (f j * 2 ^ (n - 1 - j))) := by
      refine List.map_congr_left fun j hj => ?_
      have hlt : j < n := List.mem_range.mp hj
      rw [show n - j = n - 1 - j + 1 by omega, pow_succ]
      ring
    simp [List.range_succ, ih, hplace, List.sum_map_mul_left]

/-- PLNDEC gathers bit t of its p plane lines, the first line highest. -/
theorem plndec_rearranges (k : Pk) (p : BitVec 4) :
    Rearranges (.plndec k p) k 8 (fun _ => 8) (fun _ th _ =>
      (List.range 128).map (fun t => ((List.range p.toNat).map (fun j =>
        (if k.a = 256 then 0 else (th.read (k.a + BitVec.ofNat 9 j)).bits.toNat / 2 ^ t % 2) * 2 ^ (p.toNat - 1 - j))).sum
        * 2 ^ (8 - p.toNat))) := by
  refine rearranges_of (fun _ => rfl) (fun _ th _ => ?_)
  have hbit (j t : Nat) :
      (if k.a == 256 then 0 else (th.read (k.a + BitVec.ofNat 9 j)).bits.toNat) / 2 ^ t % 2
        = if k.a = 256 then 0 else (th.read (k.a + BitVec.ofNat 9 j)).bits.toNat / 2 ^ t % 2 := by
    simp only [beq_iff_eq]
    split
    next => simp
    next => rfl
  simp only [List.foldl_map, hbit, foldl_double_add]

/-! ### The statement -/

/-- Settles O14: the bitwise and shift members by their shared effects, the others by the list of elements that each writes. -/
theorem packedMoveResults : Obligations.PackedMoveResults :=
  ⟨fun _ _ => effects_of_bitsEffect (fun _ => rfl),
   fun _ _ => effects_of_bitsEffect (fun _ => rfl),
   fun _ _ => effects_of_bitsEffect (fun _ => rfl),
   fun _ _ => effects_of_bitsEffect_bs (fun _ => rfl),
   fun _ _ => effects_of_bitsEffect_bs (fun _ => rfl),
   fun _ _ => effects_of_bitsEffect_bs (fun _ => rfl),
   fun _ _ => rearranges_of_shiftEffect (f := fun t x c => x * 2 ^ c % 2 ^ typeWidth t) (fun _ => rfl)
     (fun _ _ _ _ => shiftElem_left ..),
   fun _ _ => rearranges_of_shiftEffect (f := fun t x c => (intVal t x / 2 ^ c % 2 ^ typeWidth t).toNat) (fun _ => rfl)
     (fun _ _ _ ha => shiftElem_right _ ha),
   vsel_rearranges,
   vperm_rearranges,
   fun _ _ => rearranges_of (fun _ => rfl) (fun _ _ _ => rfl),
   fun _ _ => rearranges_of (fun _ => rfl) (fun _ _ _ => rfl),
   fun _ _ => rearranges_of (fun _ => rfl) (fun _ _ _ => rfl),
   fun _ => rearranges_of (fun _ => rfl) (fun _ _ _ => rfl),
   plndec_rearranges,
   fun _ => rearranges_of (fun _ => rfl) (fun _ _ _ => rfl),
   fun _ => rearranges_of (fun _ => rfl) (fun _ _ _ => rfl)⟩

end Sys2Proof.Machine
end

section
/-!
Decoding and encoding (03): bytes and words read back, prefixes and words cut off in turn, and the fields of every row, which name it again.
-/

namespace Sys2Proof

/-! ### Bytes -/

@[simp] theorem length_leBytes (n v : Nat) : (leBytes n v).length = n := by
  induction n generalizing v with
  | zero => rfl
  | succ n ih => simp [leBytes, ih]

theorem leNat_leBytes (n v : Nat) : leNat (leBytes n v) = v % 2 ^ (8 * n) := by
  induction n generalizing v with
  | zero => simp [leBytes, leNat, Nat.mod_one]
  | succ n ih =>
    rw [leBytes, leNat, ih, BitVec.toNat_ofNat, Nat.mul_succ, Nat.add_comm (8 * n), pow_add, Nat.mod_mul,
      show 2 ^ 8 = 256 from rfl]

/-- Eight bytes at the head of a list read back as the word they hold. -/
theorem leWord_leBytes_append (w : Word) (l : List Byte) : leWord (leBytes 8 w.toNat ++ l) = w := by
  rw [leWord, List.take_left' (length_leBytes ..), leNat_leBytes, Nat.mod_eq_of_lt w.isLt, BitVec.ofNat_toNat, BitVec.setWidth_eq]

/-! ### Fields of a concatenation

The library's laws, stated so that `simp` finds them where the width of the whole is written as a numeral. -/

section
variable {v w : Nat} (x : BitVec v) (y : BitVec w)

@[simp] theorem extract_above {start len : Nat} (h : w ≤ start) :
    (HAppend.hAppend (γ := BitVec (no_index (v + w))) x y).extractLsb' start len = x.extractLsb' (start - w) len :=
  BitVec.extractLsb'_append_eq_of_le h

@[simp] theorem extract_below {start len : Nat} (h : start + len ≤ w) :
    (HAppend.hAppend (γ := BitVec (no_index (v + w))) x y).extractLsb' start len = y.extractLsb' start len :=
  BitVec.extractLsb'_append_eq_of_add_le h

@[simp] theorem getElem_above {i : Nat} (h : w ≤ i) (hi : i < v + w) :
    getElem (coll := BitVec (no_index (v + w))) (HAppend.hAppend (γ := BitVec (no_index (v + w))) x y) i hi = x[i - w]'(by omega) := by
  rw [BitVec.getElem_append, dif_neg (by omega)]

@[simp] theorem getElem_below {i : Nat} (h : i < w) (hi : i < v + w) :
    getElem (coll := BitVec (no_index (v + w))) (HAppend.hAppend (γ := BitVec (no_index (v + w))) x y) i hi = y[i] := by
  rw [BitVec.getElem_append, dif_pos h]

end

/-! ### Words cut into fields (03 R48) -/

/-- The opcode of a word. -/
def Raw.op : Raw → BitVec 8
  | .s op .. | .m op .. | .l op .. => op

/-- The format of a word. -/
def Raw.fmt : Raw → Fmt
  | .s .. => .s
  | .m .. => .m
  | .l .. => .l

/-- The bytes after the first eight. -/
def Raw.tail : Raw → List Byte
  | .s .. => []
  | .m _ _ _ _ _ _ _ imm => leBytes 4 imm.toNat
  | .l _ _ _ _ _ _ _ _ imm => leBytes 8 imm.toNat

theorem bytes_eq (r : Raw) : r.bytes = leBytes 8 r.lo.toNat ++ r.tail := by
  cases r <;> rfl

@[simp] theorem length_bytes (r : Raw) : r.bytes.length = r.fmt.len := by
  cases r <;> simp [bytes_eq, Raw.tail, Raw.fmt, Fmt.len]

@[simp] theorem leWord_bytes_append (r : Raw) (l : List Byte) : leWord (r.bytes ++ l) = r.lo := by
  rw [bytes_eq, List.append_assoc, leWord_leBytes_append]

@[simp] theorem drop_bytes_append (r : Raw) (l : List Byte) : (r.bytes ++ l).drop 8 = r.tail ++ l := by
  rw [bytes_eq, List.append_assoc, List.drop_left' (length_leBytes ..)]

@[simp] theorem opcodeOf_lo (r : Raw) : opcodeOf r.lo = r.op.toNat := by
  rw [opcodeOf]
  congr 1
  cases r <;> simp [Raw.lo, Raw.op]

/-- The number in the length bits of a format's words (03 R47). -/
def Fmt.lengthBits : Fmt → Nat
  | .s => 1
  | .m => 2
  | .l => 3

theorem lo_mod_four (r : Raw) : r.lo.toNat % 4 = r.fmt.lengthBits := by
  have h : r.lo.toNat % 4 = (r.lo.extractLsb' 0 2).toNat := by rw [BitVec.extractLsb'_toNat]; rfl
  have hlow : r.lo.extractLsb' 0 2 = BitVec.ofNat 2 r.fmt.lengthBits := by
    cases r <;> simp [Raw.lo, Raw.fmt, Fmt.lengthBits]
  rw [h, hlow]
  cases r <;> rfl

/-- A word cut into fields gives back the fields it was made of. -/
theorem rawOf_bytes (r : Raw) (l : List Byte) : rawOf r.fmt (r.bytes ++ l) = r := by
  cases r with
  | s => simp [rawOf, Raw.fmt, Raw.lo]
  | m op la d a b c md imm =>
    have himm : leNat (leBytes 4 imm.toNat) = imm.toNat := by
      rw [leNat_leBytes, Nat.mod_eq_of_lt imm.isLt]
    simp [rawOf, Raw.fmt, Raw.lo, Raw.tail, himm]
  | l => simp [rawOf, Raw.fmt, Raw.lo, Raw.tail, leWord_leBytes_append]

/-! ### Prefixes (03 R54 to R60) -/

/-- Eight bytes whose length bits are 0 are a prefix word (03 R47). -/
theorem scanPrefixes_leBytes (w : Word) (l : List Byte) (h : w.toNat % 4 = 0) :
    scanPrefixes (leBytes 8 w.toNat ++ l) = (w :: (scanPrefixes l).1, (scanPrefixes l).2) := by
  have hw := leWord_leBytes_append w []
  simp only [leBytes, List.cons_append, List.nil_append] at hw ⊢
  rw [scanPrefixes, if_pos (by simp; omega), hw]

/-- Other length bits end the prefixes. -/
theorem scanPrefixes_bytes (r : Raw) (l : List Byte) : scanPrefixes (r.bytes ++ l) = ([], r.bytes ++ l) := by
  have h : r.lo.toNat % 4 ≠ 0 := by
    rw [lo_mod_four]
    cases r.fmt <;> decide
  rw [bytes_eq, List.append_assoc]
  simp only [leBytes, List.cons_append, List.nil_append]
  rw [scanPrefixes, if_neg (by simp; omega)]

theorem scanPrefixes_words (ws : List Word) (hw : ∀ w ∈ ws, w.toNat % 4 = 0) (r : Raw) (l : List Byte) :
    scanPrefixes ((ws.map (fun w => leBytes 8 w.toNat)).flatten ++ (r.bytes ++ l)) = (ws, r.bytes ++ l) := by
  induction ws with
  | nil => exact scanPrefixes_bytes r l
  | cons w ws ih =>
    obtain ⟨hw, hws⟩ := List.forall_mem_cons.mp hw
    rw [List.map_cons, List.flatten_cons, List.append_assoc, scanPrefixes_leBytes w _ hw, ih hws]

/-- A kind 0x01 prefix names what it was made of (03 R56). -/
theorem addPrefix_arith (a : Arith) (p : Pfx) (h : p.arith = none) : addPrefix a.word p = some { p with arith := some a } := by
  simp [addPrefix, opcodeOf, Arith.word, h]

/-- So does a kind 0x02 prefix (03 R57). -/
theorem addPrefix_pred (q : Pred) (p : Pfx) (h : p.pred = none) : addPrefix q.word p = some { p with pred := some q } := by
  simp [addPrefix, opcodeOf, Pred.word, h]

/-- So does a kind 0x03 prefix, with or without a scale register (03 R58). -/
theorem addPrefix_wide (v : Wide) (p : Pfx) (h : p.wide = none) : addPrefix v.word p = some { p with wide := some v } := by
  obtain ⟨t, none | r⟩ := v <;> simp [addPrefix, opcodeOf, Wide.word, h]

/-- The words of at most two prefixes name them (03 R60). -/
theorem pfxOf_words (p : Pfx) (h : p.ok = true) : pfxOf p.words = some p := by
  obtain ⟨arith, pred, wide⟩ := p
  cases arith with
  | none => cases pred <;> cases wide <;> simp [Pfx.words, pfxOf, Pfx.empty, addPrefix_pred, addPrefix_wide]
  | some a =>
    cases pred with
    | none => cases wide <;> simp [Pfx.words, pfxOf, Pfx.empty, addPrefix_arith, addPrefix_wide]
    | some q =>
      cases wide with
      | none => simp [Pfx.words, pfxOf, Pfx.empty, addPrefix_arith, addPrefix_pred]
      | some v => simp [Pfx.ok] at h

theorem mem_words {p : Pfx} {w : Word} (h : w ∈ p.words) :
    (∃ a : Arith, w = a.word) ∨ (∃ q : Pred, w = q.word) ∨ ∃ v : Wide, w = v.word := by
  obtain ⟨arith, pred, wide⟩ := p
  simp only [Pfx.words, List.mem_append] at h
  rcases h with (h | h) | h
  · cases arith with
    | none => simp at h
    | some a => exact .inl ⟨a, by simpa using h⟩
  · cases pred with
    | none => simp at h
    | some q => exact .inr (.inl ⟨q, by simpa using h⟩)
  · cases wide with
    | none => simp at h
    | some v => exact .inr (.inr ⟨v, by simpa using h⟩)

/-- A prefix word has length bits 0 and an assigned kind (03 R47, R55). -/
theorem prefixWord_of_mem {p : Pfx} {w : Word} (h : w ∈ p.words) : w.toNat % 4 = 0 ∧ kindAssigned w = true := by
  have hbits : w.toNat % 4 = (w.extractLsb' 0 2).toNat := by rw [BitVec.extractLsb'_toNat]; rfl
  rw [hbits]
  obtain ⟨a, rfl⟩ | ⟨q, rfl⟩ | ⟨v, rfl⟩ := mem_words h
  · simp [kindAssigned, opcodeOf, Arith.word]
  · simp [kindAssigned, opcodeOf, Pred.word]
  · simp [kindAssigned, opcodeOf, Wide.word]

/-! ### Fields read back (03 R48, R49) -/

@[simp] theorem srcB_of (b : SrcB) : srcB b.isImm b.fld b.im = b := by cases b <;> rfl

/-- Only an immediate source uses the immediate field. -/
@[simp] theorem isImm_or_im_eq_zero (b : SrcB) : b.isImm = true ∨ b.im = 0#16 := by
  cases b with
  | reg b => exact .inr rfl
  | imm v => exact .inl rfl

@[simp] theorem ofCode_code (o : Ord) : Ord.ofCode o.code = o := by cases o <;> rfl
@[simp] theorem verd_ofCode_code (o : Verd) : Verd.ofCode o.code = o := by cases o <;> rfl

/-- imm64 of an MMA or SMMA holds its fields, and 0 in its other bits (09 R206). -/
@[simp] theorem mmaOps_imm (o : MmaOps) : mmaOps o.p o.d o.a o.b o.c o.e o.imm = o := by
  simp [mmaOps, MmaOps.imm]
@[simp] theorem imm_high_eq_zero (o : MmaOps) : o.imm.extractLsb' 52 12 = 0#12 := by
  simp [MmaOps.imm]

theorem ifz_eq {c : Bool} {i j : Instr} (hc : c = true) (hj : i = j) : ifz c i = some j := by
  rw [ifz, if_pos hc, hj]

/-- What decoding needs of a row that is no event: its fields name it again, its opcode is assigned in its format, and it has no prefix
where its family takes none. -/
def Readable (i : Instr) : Prop :=
  rowLegal i = true → ∃ r, fieldsOf i = some (i.pfx, r) ∧ build i.pfx r = some i ∧ formatOf r.op.toNat = some r.fmt ∧
    (noPrefixFamily r.op.toNat = true → i.pfx = Pfx.empty)

/-- A row of a family that takes prefixes. -/
theorem readable_of {i : Instr} {p : Pfx} {r : Raw} (hf : fieldsOf i = some (p, r)) (hb : build p r = some i)
    (hop : formatOf r.op.toNat = some r.fmt) (hn : noPrefixFamily r.op.toNat = false) (hp : i.pfx = p) : Readable i := by
  subst hp
  exact fun _ => ⟨r, hf, hb, hop, by simp [hn]⟩

/-- A row without prefixes. -/
theorem readable_bare {i : Instr} {r : Raw} (hf : fieldsOf i = some (Pfx.empty, r)) (hb : build Pfx.empty r = some i)
    (hop : formatOf r.op.toNat = some r.fmt) (hp : i.pfx = Pfx.empty) : Readable i := by
  intro _
  rw [hp]
  exact ⟨r, hf, hb, hop, fun _ => rfl⟩

/-- An event is no row of 03 R67 step 6. -/
theorem readable_event {i : Instr} (hr : rowLegal i = false) : Readable i :=
  fun h => absurd (hr.symm.trans h) Bool.false_ne_true

/-- A two-source integer member: LA, the second source by the immediate bit, and no other modifier bit (06 R124). -/
theorem readable_int {C : IntOps → Instr} {op : BitVec 8} (o : IntOps)
    (hp : (C o).pfx = o.p) (hf : fieldsOf (C o) = some (o.p, .s op o.la o.d o.a o.b.fld ((0 : BitVec 6) ++ BitVec.ofBool o.b.isImm) o.b.im))
    (hb : ∀ p la d a b md imm, build p (.s op la d a b md imm) =
      ifz (md.extractLsb' 1 6 == 0) (C ⟨p, la, d, a, srcB (md.getLsbD 0) b imm⟩))
    (hop : formatOf op.toNat = some .s) (hn : noPrefixFamily op.toNat = false) : Readable (C o) :=
  readable_of hf ((hb ..).trans (ifz_eq (by simp) (by simp))) hop hn hp
/-! ### Rows whose modifier selects among forms -/

@[simp] theorem all_getElem?_code (fn : AmoFn) : AmoFn.all[fn.code.toNat]? = some fn := by cases fn <;> rfl

@[simp] theorem compl_ofCode_code (m : Compl) : Compl.ofCode m.code = some m := by cases m <;> rfl

theorem readable_amo (o : AmoOps) : Readable (.amo o) := by
  refine readable_of rfl ?_ rfl rfl rfl
  simp [build, buildMemory]

theorem readable_macld (o : MacldOps) : Readable (.macld o) := by
  obtain ⟨p, d, a, bf16, shape, st⟩ := o
  refine readable_of rfl ?_ rfl rfl rfl
  cases bf16 <;> simp [build, buildM, ifz]

theorem readable_macst (o : MacstOps) : Readable (.macst o) := by
  obtain ⟨p, d, a, bf16, rel, st⟩ := o
  refine readable_of rfl ?_ rfl rfl rfl
  cases bf16 <;> simp [build, buildM, ifz]

/-- A form of LEASE, by its number in the modifier field (16 R393). -/
theorem readable_lease {C : LeaseOps → Instr} {md : BitVec 5} (o : LeaseOps)
    (hp : (C o).pfx = Pfx.empty)
    (hf : fieldsOf (C o) = some (Pfx.empty, .l 0xFA 0 o.d o.a o.b o.c o.e md ((0 : BitVec 48) ++ o.dom)))
    (hb : ∀ p d a b c e imm, build p (.l 0xFA 0 d a b c e md imm) =
      if (imm.extractLsb' 16 48 != 0 || (0 : BitVec 4) != 0) = true then none else some (C ⟨d, a, b, c, e, imm.extractLsb' 0 16⟩)) :
    Readable (C o) :=
  readable_bare hf ((hb ..).trans (by simp)) rfl hp

/-! ### Every row -/

/-- The fields of every instruction name it again. -/
theorem readable (i : Instr) : Readable i := by
  cases i
  -- Rows of one source shape, read back for all its members at once
  case add o | sub o | mul o | mulh o | mulhu o | div o | divu o | rem o | remu o | and o | or o | xor o | andn o | shl o | shr o
      | sra o | rotr o | min o | max o | minu o | maxu o | sext o | zext o | cmpeq o | cmpne o | cmplt o | cmpltu o | cmple o
      | cmpleu o | cinc o | csetb o | candp o =>
    exact readable_int o rfl rfl (fun _ _ _ _ _ _ _ => rfl) rfl rfl
  -- Rows whose modifier and immediate fields are constants
  case clz | ctz | popc | abs | mov | cgeta | cgetb | cgett | cgetp | ctest | cclrt | cqflags | cseta | cunseal | csub | cqcmp
      | time | rand | cqinbox | cqnext | waitne | topkins | arcin | mdrain | mhset =>
    exact readable_of rfl rfl rfl rfl rfl
  case br | beq | bne | blt | bge | bltu | bgeu | bz | bnz | call | jmpc | loop | nop | hend | yield | endTask | join | leave | gbar
      | qstatSet | qstatTask | trap | brk | rte | dump | pgmove | gang =>
    exact readable_bare rfl rfl rfl rfl
  -- Rows whose modifier or immediate fields hold operands
  case vadd | vsub | vmul | vmin | vmax | vand | vor | vxor | vunpk | vverd | vcvt =>
    exact readable_of rfl (congrArg some (by simp)) rfl rfl rfl
  case vfma | vabs | vneg | vshl | vshr | vcmp | vsel | vscale | vred | vexp2 | vrcp | vrsq | vperm | vbcast | vpack
      | plnenc | plndec | lld | lst | ladd | cqpack | cqsplit | cqsetd | ld | st | lda | stl | ldcap | stcap | fill | empty | fest
      | zline | mig | cas | engst | wayconv | mdep | msense | msamp | mread | merase | mtick | mbind | munbind | mmaT32
      | mmaT64 | mmaT128 | mmaW | mmaH | mmaQ | mmaQ8 | mmaT16 | smmaT32 | smmaT64 | smmaQ | macz | vbound | bfx | bfi | li | liw =>
    exact readable_of rfl (ifz_eq (by simp) (by simp)) rfl rfl rfl
  case rds | wrs | repart | halt | spawn => exact readable_bare rfl (ifz_eq (by simp) (by simp)) rfl rfl
  -- Rows that choose a form or a code
  case sel o => obtain ⟨p, d, a, b | v, c⟩ := o <;> exact readable_of rfl rfl rfl rfl rfl
  case crew o n | sleep o n => cases n <;> exact readable_bare rfl rfl rfl rfl
  case cseal o entry => cases entry <;> exact readable_of rfl rfl rfl rfl rfl
  case wld m x | pref m x => cases x <;> exact readable_of rfl (ifz_eq (by simp) (by simp)) rfl rfl rfl
  case cqext p d a k sgn =>
    cases k with
    | reg b => cases sgn <;> exact readable_of rfl rfl rfl rfl rfl
    | imm k => cases sgn <;> exact readable_of rfl (ifz_eq (by simp) (by simp)) rfl rfl rfl
  case cqadd p d a k sgn | cqsub p d a k sgn =>
    cases k with
    | reg b => cases sgn <;> exact readable_of rfl rfl rfl rfl rfl
    | step k v => cases sgn <;> exact readable_of rfl (ifz_eq (by simp) (by simp)) rfl rfl rfl
  case cqtrunc p d a m up =>
    cases m with
    | reg b => cases up <;> exact readable_of rfl rfl rfl rfl rfl
    | imm m => cases up <;> exact readable_of rfl (ifz_eq (by simp) (by simp)) rfl rfl rfl
  case amo o => exact readable_amo o
  case fence p kind scope => cases kind <;> cases scope <;> exact readable_of rfl rfl rfl rfl rfl
  case plbinv d a b scope => cases scope <;> exact readable_bare rfl rfl rfl rfl
  case copy o => exact readable_of rfl (by simp [build, buildL, ifz]) rfl rfl rfl
  case arcout o => exact readable_of rfl (by simp [build, buildL, ifz]) rfl rfl rfl
  case arcdrop o => exact readable_of rfl (by simp [build, buildMemory, ifz]) rfl rfl rfl
  case macld o => exact readable_macld o
  case macst o => exact readable_macst o
  case leaseAdd o | leaseDrop o | leaseUnmap o | leaseUnmapForce o | leaseDom o =>
    exact readable_lease o rfl rfl (fun _ _ _ _ _ _ _ => rfl)
  -- The others are events
  all_goals exact readable_event rfl


/-! ### The statement -/

theorem encode_of_fieldsOf {i : Instr} {p : Pfx} {r : Raw} (h : fieldsOf i = some (p, r)) :
    encode i = (p.words.map (fun w => leBytes 8 w.toNat)).flatten ++ r.bytes := by
  simp only [encode, h]

/-- The length of a unit: eight bytes for each prefix, and its word. -/
theorem length_encode {i : Instr} {p : Pfx} {r : Raw} (h : fieldsOf i = some (p, r)) :
    (encode i).length = 8 * p.words.length + r.fmt.len := by
  simp [encode_of_fieldsOf h, Function.comp_def, Nat.mul_comm]

/-- Settles O50: a unit's prefixes and its word are cut off in turn, and the fields of each row name it again. -/
theorem decodingReadsWhatEncodingWrites : Obligations.DecodingReadsWhatEncodingWrites := by
  intro i rest hw
  obtain ⟨⟨hok, hrow⟩, -⟩ : (i.pfx.ok = true ∧ rowLegal i = true) ∧ _ := by simpa only [wellFormed, Bool.and_eq_true] using hw
  obtain ⟨r, hf, hb, hop, hn⟩ := readable i hrow
  have hscan : scanPrefixes (encode i ++ rest) = (i.pfx.words, r.bytes ++ rest) := by
    rw [encode_of_fieldsOf hf, List.append_assoc]
    exact scanPrefixes_words _ (fun w h => (prefixWord_of_mem h).1) r rest
  have hkinds : i.pfx.words.any (fun w => !kindAssigned w) = false := by
    simpa using fun w h => (prefixWord_of_mem h).2
  have hbits := lo_mod_four r
  have hfamily : (noPrefixFamily r.op.toNat && !i.pfx.words.isEmpty) = false := by
    cases hx : noPrefixFamily r.op.toNat with
    | false => rfl
    | true => rw [hn hx]; rfl
  have hlen : ¬ r.fmt.len + rest.length < 8 := by
    have : 8 ≤ r.fmt.len := by cases r.fmt <;> decide
    omega
  rw [decodeUnit, length_encode hf]
  simp only [hscan, hkinds, leWord_bytes_append, opcodeOf_lo, hop, hbits, hfamily, pfxOf_words _ hok, rawOf_bytes, hb, hw,
    List.length_append, length_bytes, hlen]
  cases r.fmt <;> simp [Fmt.len, Fmt.lengthBits]

end Sys2Proof
end

section
/-!
The integer members of 06 that compute: exact arithmetic wrapped or clamped, fields extended, extracted and inserted, order, and moves of
values and constants.
-/

namespace Sys2Proof.Machine

/-! ### Exact results (06 R124) -/

theorem addWord_eq (sat : Bool) (a b : Word) : addWord sat a b = clampWord sat (a.toInt + b.toInt) := by
  cases sat with
  | true => rfl
  | false => simp [addWord, clampWord, BitVec.ofInt_add]

theorem subWord_eq (sat : Bool) (a b : Word) : subWord sat a b = clampWord sat (a.toInt - b.toInt) := by
  cases sat with
  | true => rfl
  | false => simp [subWord, clampWord, Int.sub_eq_add_neg, BitVec.ofInt_add, BitVec.ofInt_neg, BitVec.sub_eq_add_neg]

theorem mulWord_eq (sat : Bool) (a b : Word) : mulWord sat a b = clampWord sat (a.toInt * b.toInt) := by
  cases sat with
  | true => rfl
  | false => simp [mulWord, clampWord, BitVec.ofInt_mul]

/-- The absolute value leaves the signed range on the most negative number alone. -/
theorem abs_toInt_le (a : Word) (h : a ≠ BitVec.intMin 64) : |a.toInt| ≤ 2 ^ 63 - 1 := by
  have hlo := a.le_toInt
  have hhi := a.toInt_lt
  have hne : a.toInt ≠ -(2 : Int) ^ 63 := fun he => h (BitVec.eq_of_toInt_eq (he.trans (by decide)))
  rw [abs_le]
  omega

theorem absWord_eq (sat : Bool) (a : Word) : absWord sat a = clampWord sat |a.toInt| := by
  have hslt : a.slt 0 = decide (a.toInt < 0) := BitVec.slt_eq_decide
  have habs : (if a.slt 0 then -a else a) = BitVec.ofInt 64 |a.toInt| := by
    rw [hslt]
    by_cases hneg : a.toInt < 0
    · rw [abs_of_neg hneg, BitVec.ofInt_neg, BitVec.ofInt_toInt, if_pos (by simpa using hneg)]
    · rw [abs_of_nonneg (by omega), BitVec.ofInt_toInt, if_neg (by simpa using hneg)]
  by_cases hmin : a = BitVec.intMin 64
  · subst hmin
    cases sat <;> decide
  · have hle := abs_toInt_le a hmin
    have hge := abs_nonneg a.toInt
    have hclamp : (if sat then max (-(2 : Int) ^ 63) (min ((2 : Int) ^ 63 - 1) |a.toInt|) else |a.toInt|) = |a.toInt| := by
      split <;> omega
    rw [clampWord, hclamp, ← habs]
    simp [absWord, hmin]

/-! ### Fields (06 R124, R127) -/

theorem toInt_eq_signed {n : Nat} (hn : 0 < n) (x : BitVec n) : x.toInt = signed n x.toNat := by
  obtain ⟨k, rfl⟩ : ∃ k, n = k + 1 := ⟨n - 1, by omega⟩
  have hp : 2 ^ (k + 1) = 2 * 2 ^ k := by rw [pow_succ, Nat.mul_comm]
  have hx := x.isLt
  rw [BitVec.toInt_eq_toNat_cond, signed, Nat.add_sub_cancel, Nat.mod_eq_of_lt hx]
  split <;> split <;> push_cast <;> omega

@[simp] theorem signed_mod (n v : Nat) : signed n (v % 2 ^ n) = signed n v := by
  simp [signed]

/-- The width b mod 64, 0 meaning 64. -/
theorem extWidth_eq (b : Word) : extWidth b = (b.toNat + 63) % 64 + 1 := by
  simp only [extWidth, beq_iff_eq]
  split <;> omega

theorem zextWord_eq (a b : Word) : zextWord a b = (a.setWidth ((b.toNat + 63) % 64 + 1)).setWidth 64 := by
  rw [zextWord, extWidth_eq]
  apply BitVec.eq_of_toNat_eq
  simp

theorem sextWord_eq (a b : Word) : sextWord a b = (a.setWidth ((b.toNat + 63) % 64 + 1)).signExtend 64 := by
  rw [sextWord, extWidth_eq, ← signed_mod, ← BitVec.toNat_setWidth, ← toInt_eq_signed (Nat.succ_pos _)]
  rfl

theorem bfxWord_eq (sx : Bool) (pos len : Nat) (a : Word) : bfxWord sx pos len a =
    if sx then (a.extractLsb' pos (len + 1)).signExtend 64 else (a.extractLsb' pos (len + 1)).setWidth 64 := by
  have hfield : a.toNat / 2 ^ pos % 2 ^ (len + 1) = (a.extractLsb' pos (len + 1)).toNat := by
    rw [BitVec.extractLsb'_toNat, Nat.shiftRight_eq_div_pow]
  cases sx with
  | true =>
    have hs := toInt_eq_signed (Nat.succ_pos len) (a.extractLsb' pos (len + 1))
    simp only [bfxWord, hfield, if_true, ← hs]
    rfl
  | false =>
    simp only [bfxWord, hfield, Bool.false_eq_true, if_false, BitVec.ofNat_toNat]

/-- A mask of len + 1 ones from bit pos. -/
theorem getLsbD_fieldMask (pos len i : Nat) (hi : i < 64) :
    (BitVec.ofNat 64 ((2 ^ (len + 1) - 1) * 2 ^ pos)).getLsbD i = decide (pos ≤ i ∧ i < pos + len + 1) := by
  rw [BitVec.getLsbD_ofNat, Nat.mul_comm, Nat.testBit_two_pow_mul, Nat.testBit_two_pow_sub_one]
  simp only [hi, decide_true, Bool.true_and, ← Bool.decide_and, ge_iff_le, decide_eq_decide]
  omega

theorem bfiWord_getLsbD (pos len : Nat) (a b : Word) (i : Nat) (hi : i < 64) : (bfiWord pos len a b).getLsbD i =
    if pos ≤ i ∧ i < pos + len + 1 then b.getLsbD (i - pos) else a.getLsbD i := by
  simp only [bfiWord, BitVec.getLsbD_or, BitVec.getLsbD_and, BitVec.getLsbD_not, BitVec.getLsbD_shiftLeft,
    getLsbD_fieldMask pos len i hi]
  split
  next hin => simp [hin, hi]
  next hout =>
    rw [decide_eq_false hout]
    simp [hi]

/-! ### Order (06 R124) -/

theorem minWord_eq (a b : Word) : minWord a b = BitVec.ofInt 64 (min a.toInt b.toInt) := by
  rw [minWord, BitVec.slt_eq_decide]
  by_cases h : b.toInt < a.toInt
  · rw [if_pos (by simpa using h), min_eq_right h.le, BitVec.ofInt_toInt]
  · rw [if_neg (by simpa using h), min_eq_left (not_lt.mp h), BitVec.ofInt_toInt]

theorem maxWord_eq (a b : Word) : maxWord a b = BitVec.ofInt 64 (max a.toInt b.toInt) := by
  rw [maxWord, BitVec.slt_eq_decide]
  by_cases h : a.toInt < b.toInt
  · rw [if_pos (by simpa using h), max_eq_right h.le, BitVec.ofInt_toInt]
  · rw [if_neg (by simpa using h), max_eq_left (not_lt.mp h), BitVec.ofInt_toInt]

theorem minuWord_eq (a b : Word) : minuWord a b = BitVec.ofNat 64 (min a.toNat b.toNat) := by
  rw [minuWord]
  split
  next h => rw [min_eq_right (BitVec.lt_def.mp h).le, BitVec.ofNat_toNat, BitVec.setWidth_eq]
  next h => rw [min_eq_left (not_lt.mp fun hn => h (BitVec.lt_def.mpr hn)), BitVec.ofNat_toNat, BitVec.setWidth_eq]

theorem maxuWord_eq (a b : Word) : maxuWord a b = BitVec.ofNat 64 (max a.toNat b.toNat) := by
  rw [maxuWord]
  split
  next h => rw [max_eq_right (BitVec.lt_def.mp h).le, BitVec.ofNat_toNat, BitVec.setWidth_eq]
  next h => rw [max_eq_left (not_lt.mp fun hn => h (BitVec.lt_def.mpr hn)), BitVec.ofNat_toNat, BitVec.setWidth_eq]

theorem bitWord_of_iff {c : Bool} {p : Prop} [Decidable p] (h : c = true ↔ p) : bitWord c = truthWord p := by
  rw [bitWord, truthWord]
  exact if_congr h rfl rfl

/-- A concatenation as a number. -/
theorem append_eq_ofNat {v w : Nat} (x : BitVec v) (y : BitVec w) : x ++ y = BitVec.ofNat (v + w) (y.toNat + x.toNat * 2 ^ w) := by
  apply BitVec.eq_of_toNat_eq
  rw [BitVec.toNat_append, BitVec.toNat_ofNat, ← Nat.shiftLeft_add_eq_or_of_lt y.isLt, Nat.shiftLeft_eq, Nat.add_comm,
    Nat.mod_eq_of_lt]
  have hx : x.toNat + 1 ≤ 2 ^ v := x.isLt
  have hy := y.isLt
  calc y.toNat + x.toNat * 2 ^ w < (x.toNat + 1) * 2 ^ w := by rw [Nat.add_mul]; omega
    _ ≤ 2 ^ (v + w) := by rw [pow_add]; exact Nat.mul_le_mul_right _ hx

/-! ### The statements -/

/-- Settles O1: each member yields its word function, which is the exact result wrapped or clamped. -/
theorem integerArithmeticIsExact : Obligations.IntegerArithmeticIsExact :=
  ⟨fun _ => yieldsWord_of_intEffect (fun _ => rfl) (fun _ => addWord_eq ..),
   fun _ => yieldsWord_of_intEffect (fun _ => rfl) (fun _ => subWord_eq ..),
   fun _ => yieldsWord_of_intEffect (fun _ => rfl) (fun _ => mulWord_eq ..),
   fun _ => yieldsWord_of_intEffect (fun _ => rfl) (fun _ => rfl),
   fun _ => yieldsWord_of_intEffect (fun _ => rfl) (fun _ => rfl),
   fun _ => yieldsWord_of_unEffect (fun _ => rfl) (fun _ => absWord_eq ..)⟩

theorem bfi_yields (o : BfiOps) (s : State) (th : Thread) (h : Runs (.bfi o) s th) : ∃ w : Word,
    (∀ i, i < 64 → w.getLsbD i =
      if o.pos.toNat ≤ i ∧ i < o.pos.toNat + o.len.toNat + 1 then (s.vals th (.bfi o)).b.lo.getLsbD (i - o.pos.toNat)
      else (s.vals th (.bfi o)).a.lo.getLsbD i) ∧
    exec (.bfi o) s = .next ((s.begun th (.bfi o)).putDest s.cur o.d (Val.ofWord w)) := by
  refine ⟨_, bfiWord_getLsbD _ _ _ _, exec_goes h rfl ?_⟩
  rw [finish, begun_cur]

/-- Settles O4: each member yields its word function, which reads as the field or the order that the statement names. -/
theorem fieldAndOrderResults : Obligations.FieldAndOrderResults :=
  ⟨⟨fun _ => yieldsWord_of_intEffect (fun _ => rfl) (fun _ => zextWord_eq ..),
    fun _ => yieldsWord_of_intEffect (fun _ => rfl) (fun _ => sextWord_eq ..),
    fun _ => yields_of (fun _ => rfl) (fun _ _ _ => by rw [finish, bfxWord_eq]),
    bfi_yields⟩,
   fun _ => yieldsWord_of_intEffect (fun _ => rfl) (fun _ => minWord_eq ..),
   fun _ => yieldsWord_of_intEffect (fun _ => rfl) (fun _ => maxWord_eq ..),
   fun _ => yieldsWord_of_intEffect (fun _ => rfl) (fun _ => minuWord_eq ..),
   fun _ => yieldsWord_of_intEffect (fun _ => rfl) (fun _ => maxuWord_eq ..),
   fun _ => yieldsWord_of_intEffect (fun _ => rfl) (fun _ => bitWord_of_iff (by simp [BitVec.toInt_inj])),
   fun _ => yieldsWord_of_intEffect (fun _ => rfl) (fun _ => bitWord_of_iff (by simp [BitVec.toInt_inj])),
   fun _ => yieldsWord_of_intEffect (fun _ => rfl) (fun _ => bitWord_of_iff BitVec.slt_iff_toInt_lt),
   fun _ => yieldsWord_of_intEffect (fun _ => rfl) (fun _ => bitWord_of_iff BitVec.ult_iff_lt),
   fun _ => yieldsWord_of_intEffect (fun _ => rfl) (fun _ => bitWord_of_iff BitVec.sle_iff_toInt_le),
   fun _ => yieldsWord_of_intEffect (fun _ => rfl) (fun _ => bitWord_of_iff BitVec.ule_iff_le)⟩

/-- Settles O5: each member puts what it reads, or the constant, to its destination; RAND keeps the generator after its two draws. -/
theorem moveAndConstantResults : Obligations.MoveAndConstantResults := by
  refine ⟨fun _ => yields_of (fun _ => rfl) (fun v _ s => ?_), fun _ => yields_of (fun _ => rfl) (fun _ _ _ => rfl),
    fun p d zx imm => yields_of (fun _ => rfl) (fun _ _ _ => ?_), fun _ _ _ => yields_of (fun _ => rfl) (fun _ _ _ => rfl),
    fun _ _ _ => yields_of (fun _ => rfl) (fun _ _ _ => ?_), fun _ _ => yields_of (fun _ => rfl) (fun _ _ _ => rfl),
    fun p d s th h => exec_goes h rfl ?_⟩
  · exact congrArg (fun x => Except.ok (s.putDest s.cur _ x)) (if_congr bne_iff_ne rfl rfl)
  · simp only [finish, BitVec.ofNat_toNat]
    rfl
  · simp only [finish, if_true, append_eq_ofNat, Nat.add_comm]
    rfl
  · simp only [finish, begun_cur, append_eq_ofNat, Nat.mul_comm]

end Sys2Proof.Machine
end

section
/-!
The control family of 06: targets checked against their blocks, taken and untaken branches, links and counts.
-/

namespace Sys2Proof.Machine

/-! ### Targets (03 R66, 06 R134) -/

/-- What the check of a target answers, by its place in its block. -/
theorem targetCheck_eq (s : State) (th : Thread) (a : Word) : targetCheck s s.cur th a =
    match placeAt s th a with
    | some none => some .misalignedTarget
    | some (some true) => some .orphanPrefix
    | _ => none := by
  simp only [targetCheck, placeAt]
  cases blockAt s s.cur th a with
  | error _ => rfl
  | ok blk =>
    dsimp only
    cases boundaryAt blk 32 0 false (a.toNat % 32) with
    | none => rfl
    | some b => cases b <;> rfl

theorem targetCheck_of_goodPlace {s : State} {th : Thread} {a : Word} (h : GoodPlace s th a) : targetCheck s s.cur th a = none := by
  rw [targetCheck_eq]
  obtain h | h := h <;> rw [h]

/-- A target outside PCC's bounds. -/
theorem relCheck_outside {s : State} {th : Thread} {a : Int} (h : a < capBase th.pcc.bits ∨ capTop th.pcc.bits ≤ a) :
    relCheck s s.cur th a = some .bounds := by
  simp [relCheck, h]

/-- A target inside them is judged by its place. -/
theorem relCheck_inside {s : State} {th : Thread} {a : Int} (hb : capBase th.pcc.bits ≤ a) (ht : a < capTop th.pcc.bits) :
    relCheck s s.cur th a = targetCheck s s.cur th (BitVec.ofInt 64 a) := by
  simp [relCheck, ofInt, not_lt.mpr hb, not_le.mpr ht]

theorem target_eq_relTarget {w : Nat} (s : State) (off : BitVec w) : target s off = relTarget s off := rfl

/-- A transfer to a good target. -/
theorem jumpRel_good {s : State} {th : Thread} {a : Int} {k : State → State} (h : GoodTarget s th a) :
    jumpRel s th a k = .ok (k (s.jump th a)) := by
  obtain ⟨hb, ht, hp⟩ := h
  rw [jumpRel, relCheck_inside hb ht, targetCheck_of_goodPlace hp]
  rfl

theorem jumpRel_bad {s : State} {th : Thread} {a : Int} {k : State → State} {c : Code} (h : relCheck s s.cur th a = some c) :
    jumpRel s th a k = .error (.trap c (BitVec.ofInt 64 a)) := by
  rw [jumpRel, h]
  rfl

/-- A transfer whose effect, where it is taken, is a jump to a relative target traps on a bad one. -/
theorem badTargets_of {w : Nat} {i : Instr} {off : BitVec w} {taken : Vals → Prop} {eff : Effect}
    (hx : ∀ s, exec i s = issue i s eff) (he : ∀ v th s, taken v → ∃ k, eff v th s = jumpRel s th (relTarget s off) k) :
    BadTargets i off taken := by
  refine ⟨traps_of hx ?_, traps_of hx ?_, traps_of hx ?_⟩
  · rintro v th s ⟨htaken, hout⟩
    obtain ⟨k, hk⟩ := he v th s htaken
    rw [hk, jumpRel_bad (relCheck_outside hout)]
  · rintro v th s ⟨htaken, hb, ht, hplace⟩
    obtain ⟨k, hk⟩ := he v th s htaken
    rw [hk, jumpRel_bad ((relCheck_inside hb ht).trans (by rw [targetCheck_eq, hplace]))]
  · rintro v th s ⟨htaken, hb, ht, hplace⟩
    obtain ⟨k, hk⟩ := he v th s htaken
    rw [hk, jumpRel_bad ((relCheck_inside hb ht).trans (by rw [targetCheck_eq, hplace]))]

/-! ### Branches (06 R132, R133) -/

theorem branches_of {w : Nat} {i : Instr} {off : BitVec w} {cond : Word → Word → Bool} {p : Vals → Prop} [∀ v, Decidable (p v)]
    (hx : ∀ s, exec i s = issue i s (branchEffect off cond)) (hc : ∀ v : Vals, cond v.a.lo v.b.lo = true ↔ p v) :
    Branches i off (fun v => decide (p v)) := by
  constructor
  · refine effects_of hx (fun v th s h => ?_)
    have hn : cond v.a.lo v.b.lo = false := by simpa [← hc] using h
    simp [branchEffect, hn]
  · refine effects_of hx (fun v th s h => ?_)
    obtain ⟨hcond, hgood⟩ := h
    rw [branchEffect, if_pos ((hc v).mpr (of_decide_eq_true hcond)), target_eq_relTarget, jumpRel_good hgood]
    rfl

theorem badTargets_of_branch {w : Nat} {i : Instr} {off : BitVec w} {cond : Word → Word → Bool} {p : Vals → Prop}
    (hx : ∀ s, exec i s = issue i s (branchEffect off cond)) (hc : ∀ v : Vals, cond v.a.lo v.b.lo = true ↔ p v) :
    BadTargets i off p :=
  badTargets_of hx (fun v th s h => ⟨id, by rw [branchEffect, if_pos ((hc v).mpr h), target_eq_relTarget]⟩)

theorem beq_lo_iff (a b : Word) : (a == b) = true ↔ a.toInt = b.toInt := by simp [BitVec.toInt_inj]
theorem bne_lo_iff (a b : Word) : (a != b) = true ↔ a.toInt ≠ b.toInt := by simp [BitVec.toInt_inj]

/-- Settles O6: every member is a branch on its condition. -/
theorem branchResults : Obligations.BranchResults := by
  refine ⟨fun off => ?_, fun _ _ _ => branches_of (fun _ => rfl) (fun _ => beq_lo_iff ..),
    fun _ _ _ => branches_of (fun _ => rfl) (fun _ => bne_lo_iff ..),
    fun _ _ _ => branches_of (fun _ => rfl) (fun _ => BitVec.slt_iff_toInt_lt),
    fun _ _ _ => branches_of (fun _ => rfl) (fun _ => BitVec.sle_iff_toInt_le),
    fun _ _ _ => branches_of (fun _ => rfl) (fun _ => BitVec.ult_iff_lt),
    fun _ _ _ => branches_of (fun _ => rfl) (fun _ => BitVec.ule_iff_le),
    fun _ _ => branches_of (fun _ => rfl) (fun _ => beq_iff_eq), fun _ _ => branches_of (fun _ => rfl) (fun _ => bne_iff_ne),
    effects_of (fun _ => rfl) (fun _ _ _ _ => rfl)⟩
  have h : Branches (.br off) off (fun _ => decide True) := branches_of (fun _ => rfl) (fun _ => by simp)
  exact h

/-! ### CALL, JMPC and LOOP (06 R135) -/

/-- JMPC's checks are its rules in their order. -/
theorem jmpcCheck_eq (s : State) (th : Thread) (v : Val) : jmpcCheck s th v = firstFailure (jumpRules s th v) := by
  have hplace : targetCheck s s.cur th (capCursor v.bits) =
      if placeAt s th (capCursor v.bits) = some none then some .misalignedTarget
      else if placeAt s th (capCursor v.bits) = some (some true) then some .orphanPrefix else none := by
    rw [targetCheck_eq]
    cases placeAt s th (capCursor v.bits) with
    | none => rfl
    | some b =>
      cases b with
      | none => rfl
      | some b => cases b <;> rfl
  simp [jmpcCheck, jumpRules, firstFailure, hplace]

/-- LOOP jumps unless its count was 1. -/
theorem sub_one_bne_zero {w : Word} (h : w ≠ 1) : (w - 1 != 0) = true := by
  rw [bne_iff_ne, ne_eq, BitVec.sub_eq_iff_eq_add]
  simpa using h

/-- Settles O7: links, targets and counts by the jump to a good target, traps by the first check that fails. -/
theorem callJumpLoopResults : Obligations.CallJumpLoopResults := by
  refine ⟨⟨fun d off => ?_, fun d a => ?_, fun d off => ?_, fun d off => ?_⟩, fun d off => ?_, fun d off => ?_,
    fun _ => badTargets_of_branch (fun _ => rfl) (fun _ => by simp),
    fun _ _ _ => badTargets_of_branch (fun _ => rfl) (fun _ => beq_lo_iff ..),
    fun _ _ _ => badTargets_of_branch (fun _ => rfl) (fun _ => bne_lo_iff ..),
    fun _ _ _ => badTargets_of_branch (fun _ => rfl) (fun _ => BitVec.slt_iff_toInt_lt),
    fun _ _ _ => badTargets_of_branch (fun _ => rfl) (fun _ => BitVec.sle_iff_toInt_le),
    fun _ _ _ => badTargets_of_branch (fun _ => rfl) (fun _ => BitVec.ult_iff_lt),
    fun _ _ _ => badTargets_of_branch (fun _ => rfl) (fun _ => BitVec.ule_iff_le),
    fun _ _ => badTargets_of_branch (fun _ => rfl) (fun _ => beq_iff_eq),
    fun _ _ => badTargets_of_branch (fun _ => rfl) (fun _ => bne_iff_ne), fun d a c => ?_⟩
  · refine effects_of (fun _ => rfl) (fun v th s h => ?_)
    rw [target_eq_relTarget, jumpRel_good h]
    rw [State.jump, State.modThread_cur]
    rfl
  · refine effects_of (fun _ => rfl) (fun v th s h => ?_)
    simp only [jmpcCheck_eq, h, beq_iff_eq]
    rfl
  · refine effects_of (fun _ => rfl) (fun v th s h => ?_)
    obtain ⟨hne, hgood⟩ := h
    rw [if_pos (sub_one_bne_zero hne), target_eq_relTarget, jumpRel_good hgood, State.jump, State.modThread_cur]
  · refine effects_of (fun _ => rfl) (fun v th s h => ?_)
    simp [h]
  · exact badTargets_of (fun _ => rfl) (fun _ _ _ _ => ⟨_, rfl⟩)
  · exact badTargets_of (fun _ => rfl) (fun _ _ _ h => ⟨_, if_pos (sub_one_bne_zero h)⟩)
  · refine traps_of (fun _ => rfl) (fun v th s h => ?_)
    simp only [jmpcCheck_eq, h]

end Sys2Proof.Machine
end

section
/-!
Capabilities (05 R102 to R106, 06 R136 to R140): fields of the values that moves, encodings and replaced fields make, and what the family
makes, traps on and reads.
-/

namespace Sys2Proof.Machine

/-! ### Fields -/

theorem capCursor_eq (q : Quad) : capCursor q = q.extractLsb' 0 64 := BitVec.setWidth_eq_extractLsb' (by decide)

/-- A field of a field. -/
theorem extract_extract {w : Nat} (x : BitVec w) {i m j n : Nat} (h : j + n ≤ m) :
    (x.extractLsb' i m).extractLsb' j n = x.extractLsb' (i + j) n := by
  ext k hk
  simp [show j + k < m by omega, Nat.add_assoc]

/-- A value of n bits, two's complement, that fits in them reads back. -/
theorem signed_ofInt {n : Nat} (hn : 0 < n) {x : Int} (hlo : -(2 : Int) ^ (n - 1) ≤ x) (hhi : x < 2 ^ (n - 1)) :
    signed n (ofInt n x).toNat = x := by
  rw [← toInt_eq_signed hn, ofInt]
  exact BitVec.toInt_ofInt_eq_self hn hlo hhi

section
variable (v : Val) (c : Word)

/-- The cursor's move, in units of 2^E. -/
def capDelta : Int := ((c.toNat / 2 ^ capE v.bits : Nat) : Int) - ((capCursor v.bits).toNat / 2 ^ capE v.bits : Nat)

/-- A distance that its 20 bits hold. -/
def FitsDistance (x : Int) : Prop := -(2 : Int) ^ 19 ≤ x ∧ x < (2 : Int) ^ 19

@[simp] theorem capCursor_capMove : capCursor (capMove v c).bits = c := by
  simp [capCursor_eq, capMove]
@[simp] theorem capE_capMove : capE (capMove v c).bits = capE v.bits := by
  simp [capE, bitsOf, capMove]
@[simp] theorem capPerms_capMove : capPerms (capMove v c).bits = capPerms v.bits := by
  simp [capPerms, capMove, extract_extract]
@[simp] theorem capKind_capMove : capKind (capMove v c).bits = capKind v.bits := by
  refine congrArg BitVec.toNat ?_
  simp [capMove, extract_extract]

theorem capMove_tag : (capMove v c).tag = true ↔
    v.tag = true ∧ FitsDistance (capDL v.bits + capDelta v c) ∧ FitsDistance (capDT v.bits - capDelta v c) := by
  simp [capMove, FitsDistance, capDelta, and_assoc]

variable {v c}

theorem capDL_capMove (h : (capMove v c).tag = true) : capDL (capMove v c).bits = capDL v.bits + capDelta v c := by
  obtain ⟨-, ⟨hlo, hhi⟩, -⟩ := (capMove_tag v c).mp h
  refine Eq.trans (congrArg (fun x : BitVec 20 => signed 20 x.toNat) ?_) (signed_ofInt (by decide) hlo hhi)
  simp [capMove, capDelta]

theorem capDT_capMove (h : (capMove v c).tag = true) : capDT (capMove v c).bits = capDT v.bits - capDelta v c := by
  obtain ⟨-, -, hlo, hhi⟩ := (capMove_tag v c).mp h
  refine Eq.trans (congrArg (fun x : BitVec 20 => signed 20 x.toNat) ?_) (signed_ofInt (by decide) hlo hhi)
  simp [capMove, capDelta]

theorem capBase_capMove (h : (capMove v c).tag = true) : capBase (capMove v c).bits = capBase v.bits := by
  rw [capBase, capBase, capDL_capMove h, capCursor_capMove, capE_capMove, capDelta]
  ring

theorem capTop_capMove (h : (capMove v c).tag = true) : capTop (capMove v c).bits = capTop v.bits := by
  rw [capTop, capTop, capDT_capMove h, capCursor_capMove, capE_capMove, capDelta]
  ring

end

/-- Settles O8: the fields of a moved value, one by one. -/
theorem cursorMovesKeepBounds : Obligations.CursorMovesKeepBounds :=
  fun v c => ⟨capCursor_capMove v c, capKind_capMove v c, capPerms_capMove v c, capE_capMove v c, capMove_tag v c,
    fun h => ⟨capBase_capMove h, capTop_capMove h⟩⟩

/-! ### Values with another kind or other permissions, and exact encodings -/

section
variable (q : Quad) (kind : Nat) (p : BitVec 12)

@[simp] theorem capCursor_capWithKind : capCursor (capWithKind q kind) = capCursor q := by
  simp [capCursor_eq, capWithKind]
@[simp] theorem capPerms_capWithKind : capPerms (capWithKind q kind) = capPerms q := by
  simp [capPerms, capWithKind]
@[simp] theorem capE_capWithKind : capE (capWithKind q kind) = capE q :=
  congrArg BitVec.toNat (by simp [capWithKind])
@[simp] theorem capDL_capWithKind : capDL (capWithKind q kind) = capDL q :=
  congrArg (fun x : BitVec 20 => signed 20 x.toNat) (by simp [capWithKind])
@[simp] theorem capDT_capWithKind : capDT (capWithKind q kind) = capDT q :=
  congrArg (fun x : BitVec 20 => signed 20 x.toNat) (by simp [capWithKind])
@[simp] theorem capBase_capWithKind : capBase (capWithKind q kind) = capBase q := by
  simp [capBase]
@[simp] theorem capTop_capWithKind : capTop (capWithKind q kind) = capTop q := by
  simp [capTop]

@[simp] theorem capCursor_capWithPerms : capCursor (capWithPerms q p) = capCursor q := by
  simp [capCursor_eq, capWithPerms]
@[simp] theorem capPerms_capWithPerms : capPerms (capWithPerms q p) = p := by
  simp [capPerms, capWithPerms]
@[simp] theorem capE_capWithPerms : capE (capWithPerms q p) = capE q :=
  congrArg BitVec.toNat (by simp [capWithPerms])
@[simp] theorem capDL_capWithPerms : capDL (capWithPerms q p) = capDL q :=
  congrArg (fun x : BitVec 20 => signed 20 x.toNat) (by simp [capWithPerms])
@[simp] theorem capDT_capWithPerms : capDT (capWithPerms q p) = capDT q :=
  congrArg (fun x : BitVec 20 => signed 20 x.toNat) (by simp [capWithPerms])
@[simp] theorem capBase_capWithPerms : capBase (capWithPerms q p) = capBase q := by
  simp [capBase]
@[simp] theorem capTop_capWithPerms : capTop (capWithPerms q p) = capTop q := by
  simp [capTop]

variable (e : Nat) (dl dt : Int) (c : Word)

@[simp] theorem capCursor_capMake : capCursor (capMake kind p e dl dt c) = c := by
  simp [capCursor_eq, capMake]
@[simp] theorem capPerms_capMake : capPerms (capMake kind p e dl dt c) = p := by
  simp [capPerms, capMake]
theorem capE_capMake (h : e < 64) : capE (capMake kind p e dl dt c) = e := by
  refine (congrArg BitVec.toNat (a₂ := BitVec.ofNat 6 e) (by simp [capMake])).trans ?_
  rw [BitVec.toNat_ofNat, Nat.mod_eq_of_lt h]
theorem capDL_capMake (h : FitsDistance dl) : capDL (capMake kind p e dl dt c) = dl :=
  (congrArg (fun x : BitVec 20 => signed 20 x.toNat) (by simp [capMake])).trans (signed_ofInt (by decide) h.1 h.2)
theorem capDT_capMake (h : FitsDistance dt) : capDT (capMake kind p e dl dt c) = dt :=
  (congrArg (fun x : BitVec 20 => signed 20 x.toNat) (by simp [capMake])).trans (signed_ofInt (by decide) h.1 h.2)

end

/-- The smallest exponent leaves a length of 19 bits. -/
theorem div_capExp_lt (len : Nat) : len / 2 ^ capExp len < 2 ^ 19 := by
  rw [capExp]
  split
  case isTrue h => simpa using h
  case isFalse h =>
    have hlog : 19 ≤ Nat.log2 len := (Nat.le_log2 (by omega)).mpr (not_lt.mp h)
    rw [Nat.div_lt_iff_lt_mul (by positivity), ← pow_add, show 19 + (Nat.log2 len - 18) = Nat.log2 len + 1 by omega]
    exact Nat.lt_log2_self

theorem fitsDistance_natCast {n : Nat} (h : n < 2 ^ 19) : FitsDistance n := ⟨by omega, by omega⟩

/-- The exponent of a 64-bit length fits its field. -/
theorem capExp_lt {len : Nat} (h : len < 2 ^ 64) : capExp len < 64 := by
  have hlog : Nat.log2 len < 64 ∨ len = 0 := by
    by_cases h0 : len = 0
    · exact .inr h0
    · exact .inl ((Nat.log2_lt h0).mpr h)
  rw [capExp]
  split <;> omega

/-- An encoding from an aligned cursor over an aligned length has them as its bounds. -/
theorem capBounds_capMake {kind : Nat} {p : BitVec 12} {len : Nat} {c : Word} (hlen : len < 2 ^ 64)
    (hc : 2 ^ capExp len ∣ c.toNat) (ht : 2 ^ capExp len ∣ c.toNat + len) :
    capBase (capMake kind p (capExp len) 0 (len / 2 ^ capExp len : Nat) c) = c.toNat ∧
      capTop (capMake kind p (capExp len) 0 (len / 2 ^ capExp len : Nat) c) = c.toNat + len := by
  have hl : 2 ^ capExp len ∣ len := (Nat.dvd_add_right hc).mp ht
  have hmul (n : Nat) (h : 2 ^ capExp len ∣ n) : ((n / 2 ^ capExp len : Nat) : Int) * 2 ^ capExp len = n := by
    exact_mod_cast Nat.div_mul_cancel h
  rw [capBase, capTop, capE_capMake _ _ _ _ _ _ (capExp_lt hlen), capDL_capMake _ _ _ _ _ _ ⟨by decide, by decide⟩,
    capDT_capMake _ _ _ _ _ _ (fitsDistance_natCast (div_capExp_lt len)), capCursor_capMake, add_mul, sub_zero, hmul _ hc, hmul _ hl]
  exact ⟨rfl, rfl⟩

/-! ### No wider than the source -/

theorem grants_self (p : BitVec 12) : grants p p = true := by
  simp [grants]

theorem grants_and (p m : BitVec 12) : grants p (p &&& m) = true := by
  have h : p &&& m &&& ~~~p = 0 := by
    ext i hi
    simp
    tauto
  simp [grants, h]

theorem noWider_untagged {x y : Val} (h : x.tag = false) : NoWider x y := fun hx => by simp [h] at hx

theorem noWider_pushed {x y : Val} (d : Opn) (h : NoWider x y) : NoWider (pushed d x) y := by
  rw [pushed]
  split
  · exact noWider_untagged rfl
  · exact h

theorem noWider_capMove (v : Val) (c : Word) : NoWider (capMove v c) v := fun h =>
  ⟨((capMove_tag v c).mp h).1, (capBase_capMove h).ge, (capTop_capMove h).le, by rw [capPerms_capMove]; exact grants_self _⟩

theorem noWider_capWithKind (v : Val) (kind : Nat) (h : v.tag = true) : NoWider ⟨capWithKind v.bits kind, true⟩ v := fun _ =>
  ⟨h, by simp, by simp, by simp [grants_self]⟩

theorem noWider_capWithPerms (v : Val) (m : BitVec 12) : NoWider ⟨capWithPerms v.bits (capPerms v.bits &&& m), v.tag⟩ v := fun h =>
  ⟨h, by simp, by simp, by simp [grants_and]⟩

/-- What a member writes or pushes of its source. -/
theorem finishCap_eq (d : Opn) (v : Val) (s : State) : finishCap d v s = .ok (s.putDest s.cur d (pushed d v)) := rfl

theorem isSealedCap_of_ok {v : Val} (h : v.tag = false ∨ capKind v.bits = 0) : isSealedCap v = false := by
  obtain h | h := h <;> simp [isSealedCap, h]
theorem isSealedCap_of_sealed {v : Val} (h : v.tag = true ∧ capKind v.bits ≠ 0) : isSealedCap v = true := by
  simp [isSealedCap, h]

/-- A member whose effect makes a value no wider than its source, or traps. -/
theorem narrows_of {i : Instr} {d : Opn} {eff : Effect} (hx : ∀ s, exec i s = issue i s eff)
    (he : ∀ v th s, (∃ x, NoWider x v.a ∧ eff v th s = .ok (s.putDest s.cur d x)) ∨ ∃ c, eff v th s = capTrap c) : Narrows i d := by
  intro s th h
  obtain ⟨x, hxw, heff⟩ | ⟨c, heff⟩ := he (s.vals th i) th (s.begun th i)
  · refine .inl ⟨x, hxw, ?_⟩
    rw [exec_goes h (hx s) heff, begun_cur]
  · exact .inr ⟨c, exec_traps h (hx s) heff⟩

/-- A value that is finished as the family's are may lose its tag on the way, no more. -/
theorem finishes_noWider {x y : Val} (d : Opn) (s : State) (h : NoWider x y) :
    ∃ z, NoWider z y ∧ finishCap d x s = .ok (s.putDest s.cur d z) :=
  ⟨pushed d x, noWider_pushed d h, finishCap_eq d x s⟩

theorem narrows_of_cursorEffect {i : Instr} {d : Opn} {new : Vals → Word} (hx : ∀ s, exec i s = issue i s (cursorEffect d new)) :
    Narrows i d := by
  refine narrows_of hx (fun v th s => ?_)
  rw [cursorEffect]
  split
  · exact .inr ⟨_, rfl⟩
  · exact .inl (finishes_noWider d s (noWider_capMove v.a (new v)))

/-! ### CSETB (06 R138) -/

/-- The value CSETB makes of a capability, without its tag. -/
def csetbBits (q : Quad) (len : Nat) : Quad :=
  capMake (capKind q) (capPerms q) (capExp len) 0 (len / 2 ^ capExp len : Nat) (capCursor q)

/-- A value that may be re-bounded: tagged and of kind 0. -/
def Rebindable (v : Val) : Prop := v.tag = true ∧ capKind v.bits = 0

theorem csetbVal_untagged {v : Val} (len : Nat) (h : v.tag = false) : csetbVal v len = .ok ⟨csetbBits v.bits len, false⟩ := by
  simp [csetbVal, csetbBits, h]

theorem csetbVal_sealed {v : Val} (len : Nat) (h : v.tag = true ∧ capKind v.bits ≠ 0) : csetbVal v len = .error .sealed := by
  simp [csetbVal, h]

theorem csetbVal_outside {v : Val} {len : Nat} (h : Rebindable v)
    (hout : ((capCursor v.bits).toNat : Int) < capBase v.bits ∨ capTop v.bits < ((capCursor v.bits).toNat + len : Int)) :
    csetbVal v len = .error .bounds := by
  obtain ⟨htag, hkind⟩ := h
  simp [csetbVal, htag, hkind, hout]

theorem csetbVal_inexact {v : Val} {len : Nat} (h : Rebindable v) (hb : capBase v.bits ≤ (capCursor v.bits).toNat)
    (ht : ((capCursor v.bits).toNat + len : Int) ≤ capTop v.bits)
    (hex : ¬ (2 ^ capExp len ∣ (capCursor v.bits).toNat ∧ 2 ^ capExp len ∣ (capCursor v.bits).toNat + len)) :
    csetbVal v len = .error .boundsInexact := by
  obtain ⟨htag, hkind⟩ := h
  simp only [Nat.dvd_iff_mod_eq_zero, not_and_or] at hex
  simp [csetbVal, htag, hkind, not_lt.mpr hb, not_lt.mpr ht, hex]

theorem csetbVal_exact {v : Val} {len : Nat} (h : Rebindable v) (hb : capBase v.bits ≤ (capCursor v.bits).toNat)
    (ht : ((capCursor v.bits).toNat + len : Int) ≤ capTop v.bits)
    (hex : 2 ^ capExp len ∣ (capCursor v.bits).toNat ∧ 2 ^ capExp len ∣ (capCursor v.bits).toNat + len) :
    csetbVal v len = .ok ⟨csetbBits v.bits len, true⟩ := by
  obtain ⟨htag, hkind⟩ := h
  simp only [Nat.dvd_iff_mod_eq_zero] at hex
  simp [csetbVal, csetbBits, htag, hkind, not_lt.mpr hb, not_lt.mpr ht, hex]

/-- CSETB's value lies in its source's bounds, or CSETB traps. -/
theorem noWider_csetb (v : Val) {len : Nat} (hlen : len < 2 ^ 64) :
    (∃ x, NoWider x v ∧ csetbVal v len = .ok x) ∨ ∃ c, csetbVal v len = .error c := by
  by_cases htag : v.tag = true
  case neg => exact .inl ⟨_, noWider_untagged rfl, csetbVal_untagged len (by simpa using htag)⟩
  by_cases hkind : capKind v.bits = 0
  case neg => exact .inr ⟨_, csetbVal_sealed len ⟨htag, hkind⟩⟩
  by_cases hout : ((capCursor v.bits).toNat : Int) < capBase v.bits ∨ capTop v.bits < ((capCursor v.bits).toNat + len : Int)
  case pos => exact .inr ⟨_, csetbVal_outside ⟨htag, hkind⟩ hout⟩
  obtain ⟨hb, ht⟩ := not_or.mp hout
  rw [not_lt] at hb ht
  by_cases hex : 2 ^ capExp len ∣ (capCursor v.bits).toNat ∧ 2 ^ capExp len ∣ (capCursor v.bits).toNat + len
  case neg => exact .inr ⟨_, csetbVal_inexact ⟨htag, hkind⟩ hb ht hex⟩
  refine .inl ⟨_, fun _ => ?_, csetbVal_exact ⟨htag, hkind⟩ hb ht hex⟩
  obtain ⟨hbase, htop⟩ := capBounds_capMake (kind := capKind v.bits) (p := capPerms v.bits) hlen hex.1 hex.2
  exact ⟨htag, hb.trans hbase.ge, htop.le.trans ht, by simp [csetbBits, grants_self]⟩

/-! ### CSEAL and CUNSEAL (06 R139) -/

/-- Their checks are their rules in their order. -/
theorem sealCheck_eq (a b : Val) (kind : Nat) (need : BitVec 12) (entry : Bool) :
    sealCheck a b kind need entry = firstFailure (sealRules a b kind need entry) := by
  have hperm (p q : Bool) (x : Option Code) : (if p || q then some Code.perm else x) = if p then some .perm else if q then some .perm else x := by
    cases p <;> simp
  simp only [sealCheck, sealRules, firstFailure, hperm]
  simp

/-- An object passes only with its tag. -/
theorem tag_of_sealCheck {a b : Val} {kind : Nat} {need : BitVec 12} {entry : Bool} (h : sealCheck a b kind need entry = none) :
    a.tag = true := by
  by_contra ht
  rw [sealCheck, if_pos (by simpa using ht)] at h
  contradiction

theorem narrows_of_seal {i : Instr} {d : Opn} {kind new : Nat} {need : BitVec 12} {entry : Bool}
    (hx : ∀ s, exec i s = issue i s (fun v _ s => match sealCheck v.a v.b kind need entry with
      | some c => capTrap c
      | none => finishCap d ⟨capWithKind v.a.bits new, true⟩ s)) : Narrows i d := by
  refine narrows_of hx (fun v th s => ?_)
  cases h : sealCheck v.a v.b kind need entry with
  | some c => exact .inr ⟨c, rfl⟩
  | none => exact .inl (finishes_noWider d s (noWider_capWithKind v.a new (tag_of_sealCheck h)))

/-- Settles O9: member by member, its value is no wider than its source. -/
theorem capabilitiesNeverGrow : Obligations.CapabilitiesNeverGrow := by
  refine ⟨fun o => narrows_of_cursorEffect (fun _ => rfl), fun o => narrows_of_cursorEffect (fun _ => rfl), fun o => ?_, fun o => ?_,
    fun o e => narrows_of_seal (fun _ => rfl), fun o => narrows_of_seal (fun _ => rfl),
    fun o => narrows_of (fun _ => rfl) (fun v _ _ => .inl ⟨_, noWider_untagged rfl, rfl⟩)⟩
  · refine narrows_of (fun _ => rfl) (fun v th s => ?_)
    obtain ⟨x, hx, h⟩ | ⟨c, h⟩ := noWider_csetb v.a (srcWord false o.b v.b).isLt
    · rw [h]
      exact .inl (finishes_noWider o.d s hx)
    · exact .inr ⟨c, by rw [h]⟩
  · refine narrows_of (fun _ => rfl) (fun v th s => ?_)
    split
    · exact .inr ⟨_, rfl⟩
    · exact .inl (finishes_noWider o.d s (noWider_capWithPerms v.a _))

/-! ### Results, getters and traps -/

theorem effects_of_cursorEffect {i : Instr} {d : Opn} {new : Vals → Word} (hx : ∀ s, exec i s = issue i s (cursorEffect d new)) :
    Effects i (fun v _ _ => v.a.tag = false ∨ capKind v.a.bits = 0)
      (fun v _ s => s.putDest s.cur d (pushed d (capMove v.a (new v)))) :=
  effects_of hx (fun v th s h => by rw [cursorEffect, isSealedCap_of_ok h]; rfl)

/-- Members that change a capability refuse a sealed one (06 R136). -/
theorem traps_sealed_of {i : Instr} {eff : Effect} (hx : ∀ s, exec i s = issue i s eff)
    (he : ∀ v th s, isSealedCap v.a = true → eff v th s = capTrap .sealed) :
    Traps i (fun v _ _ => v.a.tag = true ∧ capKind v.a.bits ≠ 0) .sealed (fun _ _ _ => 0) :=
  traps_of hx (fun v th s h => he v th s (isSealedCap_of_sealed h))

theorem yieldsWord_of_finish {i : Instr} {d : Opn} {f : Vals → Thread → State → Word} {g : Vals → Word}
    (hx : ∀ s, exec i s = issue i s (fun v _ s => finish s.cur d (Val.ofWord (g v)) s)) (h : ∀ v th s, g v = f v th s) :
    YieldsWord i d f :=
  yields_of hx (fun v th s => by rw [h v th s]; rfl)

theorem capWithin_eq (a b : Val) : capWithin a b = decide (a.tag = true ∧ b.tag = true ∧ capKind a.bits = capKind b.bits ∧
    capBase b.bits ≤ capBase a.bits ∧ capTop a.bits ≤ capTop b.bits ∧ grants (capPerms b.bits) (capPerms a.bits) = true) := by
  rw [Bool.eq_iff_iff, decide_eq_true_iff]
  simp [capWithin, and_assoc]

theorem ctestWord_eq (v : Val) : ctestWord v =
    if v.tag = false then 0
    else BitVec.ofNat 64 (1 + (if capKind v.bits = 0 then 2 else 0)
      + (if capBase v.bits ≤ (capCursor v.bits).toNat ∧ ((capCursor v.bits).toNat : Int) < capTop v.bits then 4 else 0)
      + (if capKind v.bits = 1 then 8 else 0) + (if capKind v.bits = 2 then 16 else 0)) := by
  cases h : v.tag <;> simp [ctestWord, h]

/-- What passes the checks of CSEAL and CUNSEAL. -/
theorem sealCheck_passes {a b : Val} {kind : Nat} {need : BitVec 12} {entry : Bool} (h : a.tag = true ∧ capKind a.bits = kind ∧
    b.tag = true ∧ capKind b.bits = 0 ∧ grants (capPerms b.bits) need = true ∧ (entry = true → grants (capPerms a.bits) permX = true) ∧
    capBase b.bits ≤ capBase a.bits ∧ capTop a.bits ≤ capTop b.bits) : sealCheck a b kind need entry = none := by
  obtain ⟨hat, hak, hbt, hbk, hneed, hx, hb, ht⟩ := h
  simp [sealCheck, hat, hak, hbt, hbk, hneed, not_lt.mpr hb, not_lt.mpr ht]
  exact hx

/-- Settles O10: every member's effect by the case its operands are in. -/
theorem capabilityResults : Obligations.CapabilityResults := by
  refine ⟨⟨fun o => effects_of_cursorEffect (fun _ => rfl), fun o => effects_of_cursorEffect (fun _ => rfl), fun o => ?_, fun o => ?_,
      fun o => ?_, fun o entry => ?_, fun o => ?_⟩,
    ⟨fun o => yields_of (fun _ => rfl) (fun _ _ _ => rfl), fun o => yields_of (fun _ => rfl) (fun _ _ _ => rfl),
      fun o => yields_of (fun _ => rfl) (fun _ _ _ => rfl), fun o => ?_, fun o => ?_,
      fun o => yields_of (fun _ => rfl) (fun _ _ _ => rfl), fun o => ?_⟩,
    ⟨?_, fun o => ?_, fun o => ?_, fun o entry c => ?_, fun o c => ?_⟩⟩
  · refine effects_of (fun _ => rfl) (fun v th s h => ?_)
    obtain ⟨htag, hkind, hb, ht, hex⟩ := h
    rw [csetbVal_exact ⟨htag, hkind⟩ hb ht hex, csetbBits, hkind]
    rfl
  · refine effects_of (fun _ => rfl) (fun v th s h => ?_)
    rw [csetbVal_untagged _ h]
    dsimp only
    rw [finishCap_eq, pushed, ite_self]
    rfl
  · refine effects_of (fun _ => rfl) (fun v th s h => ?_)
    rw [isSealedCap_of_ok h]
    rfl
  · refine effects_of (fun _ => rfl) (fun v th s h => ?_)
    rw [sealCheck_passes h]
    rfl
  · refine effects_of (fun _ => rfl) (fun v th s h => ?_)
    obtain ⟨hat, hak, hbt, hbk, hneed, hb, ht⟩ := h
    rw [sealCheck_passes (entry := false) ⟨hat, hak, hbt, hbk, hneed, by simp, hb, ht⟩]
    rfl
  · exact yieldsWord_of_finish (fun _ => rfl) (fun v _ _ => congrArg (BitVec.ofNat 64) (by ring))
  · exact yieldsWord_of_finish (fun _ => rfl) (fun v _ _ => ctestWord_eq v.a)
  · exact yieldsWord_of_finish (fun _ => rfl) (fun v _ _ => bitWord_of_iff (by rw [capWithin_eq, decide_eq_true_iff]))
  · rintro i (⟨o, rfl⟩ | ⟨o, rfl⟩ | ⟨o, rfl⟩ | ⟨o, rfl⟩)
    · exact traps_sealed_of (fun _ => rfl) (fun _ _ _ h => if_pos h)
    · exact traps_sealed_of (fun _ => rfl) (fun _ _ _ h => if_pos h)
    · refine traps_of (fun _ => rfl) (fun v th s h => ?_)
      rw [csetbVal_sealed _ h]
      rfl
    · exact traps_sealed_of (fun _ => rfl) (fun _ _ _ h => if_pos h)
  · refine traps_of (fun _ => rfl) (fun v th s h => ?_)
    obtain ⟨htag, hkind, hout⟩ := h
    rw [csetbVal_outside ⟨htag, hkind⟩ hout]
    rfl
  · refine traps_of (fun _ => rfl) (fun v th s h => ?_)
    obtain ⟨htag, hkind, hb, ht, hex⟩ := h
    rw [csetbVal_inexact ⟨htag, hkind⟩ hb ht hex]
    rfl
  · exact traps_of (fun _ => rfl) (fun v th s h => by rw [sealCheck_eq, h]; rfl)
  · exact traps_of (fun _ => rfl) (fun v th s h => by rw [sealCheck_eq, h]; rfl)

end Sys2Proof.Machine
end

section
/-!
What stands at reset and in the words of the spec's encodings, by evaluation; bytes stored and read back.
-/

namespace Sys2Proof.Machine

/-- Settles O49: each word is decoded. -/
theorem specWordsDecode : Obligations.SpecWordsDecode :=
  ⟨rfl, rfl, rfl, rfl, rfl, rfl, rfl, rfl, rfl, rfl, rfl, rfl, rfl, rfl, rfl, rfl, rfl, rfl, rfl, rfl, rfl, rfl⟩

/-- Settles O51: no table lists anything at reset, so each entry reads as its reset value. -/
theorem resetLeavesTheStatedValues : Obligations.ResetLeavesTheStatedValues := by
  refine ⟨rfl, rfl, rfl, rfl, rfl, fun c => ⟨rfl, rfl, rfl, rfl, rfl, rfl, fun sd => ?_, rfl⟩,
    fun c i => ⟨rfl, rfl, rfl, rfl, rfl, rfl, rfl, rfl⟩, fun a => ⟨rfl, rfl, rfl, rfl⟩, rfl, fun h => ⟨rfl, rfl, rfl, rfl⟩,
    fun c => ⟨rfl, rfl, rfl⟩, fun c => rfl, fun d => rfl, rfl, rfl⟩
  cases sd <;> rfl

/-- Settles O52: nothing is listed. -/
theorem resetMemoryIsCanonical : Obligations.ResetMemoryIsCanonical := memWf_nil

/-! ### Bytes stored and read back (00 R5) -/

/-- Stored bytes are the number's, from the lowest on; other bytes are as before. -/
theorem memByte_memStore (m : List Host.Cell) (a n v x : Nat) : memByte (memStore m a n v) x =
    if a ≤ x ∧ x < a + n then BitVec.ofNat 8 (v / 256 ^ (x - a)) else memByte m x := by
  induction n generalizing m a v with
  | zero => rw [if_neg (by omega)]; rfl
  | succ n ih =>
    rw [memStore, ih, memByte_memPut]
    by_cases hx : x = a
    · subst hx
      rw [if_neg (by omega), if_pos rfl, if_pos (by omega), Nat.sub_self, pow_zero, Nat.div_one]
    · by_cases hin : a + 1 ≤ x ∧ x < a + 1 + n
      · rw [if_pos hin, if_pos (by omega), Nat.div_div_eq_div_mul, ← pow_succ', show x - (a + 1) + 1 = x - a by omega]
      · rw [if_neg hin, if_neg hx, if_neg (by omega)]

theorem memByte_memStore_outside {m : List Host.Cell} {a n v x : Nat} (h : ¬ (a ≤ x ∧ x < a + n)) :
    memByte (memStore m a n v) x = memByte m x := by
  rw [memByte_memStore, if_neg h]

theorem memByte_store_outside {s : State} {a n v x : Nat} (h : ¬ (a ≤ x ∧ x < a + n)) :
    memByte (s.store a n v).mem x = memByte s.mem x := memByte_memStore_outside h

/-- A load whose bytes are a number's is the number's low bytes. -/
theorem load_eq_of_bytes {s : State} {a n v : Nat} (h : ∀ i < n, memByte s.mem (a + i) = BitVec.ofNat 8 (v / 256 ^ i)) :
    s.load a n = v % 2 ^ (8 * n) := by
  induction n generalizing a v with
  | zero => simp [State.load, Nat.mod_one]
  | succ n ih =>
    have hrest : s.load (a + 1) n = v / 256 % 2 ^ (8 * n) :=
      ih (fun i hi => by rw [Nat.add_assoc, Nat.add_comm 1 i, h (i + 1) (by omega), Nat.div_div_eq_div_mul, ← pow_succ'])
    rw [State.load, hrest, ← Nat.add_zero a, h 0 (by omega), pow_zero, Nat.div_one, BitVec.toNat_ofNat, Nat.mul_succ,
      Nat.add_comm (8 * n), pow_add, Nat.mod_mul, show 2 ^ 8 = 256 from rfl]

/-- A load reads its own bytes only. -/
theorem load_congr {s t : State} {a n : Nat} (h : ∀ x, a ≤ x → x < a + n → memByte s.mem x = memByte t.mem x) :
    s.load a n = t.load a n := by
  induction n generalizing a with
  | zero => rfl
  | succ n ih => rw [State.load, State.load, h a le_rfl (by omega), ih (fun x h1 h2 => h x (by omega) (by omega))]

theorem load_store (s : State) (a n v : Nat) : (s.store a n v).load a n = v % 2 ^ (8 * n) :=
  load_eq_of_bytes (fun i hi => by
    rw [show (s.store a n v).mem = memStore s.mem a n v from rfl, memByte_memStore, if_pos (by omega), Nat.add_sub_cancel_left])

theorem load_lt (s : State) (a n : Nat) : s.load a n < 2 ^ (8 * n) := by
  induction n generalizing a with
  | zero => simp [State.load]
  | succ n ih =>
    have hb := (memByte s.mem a).isLt
    have hr := ih (a + 1)
    rw [State.load, Nat.mul_succ, pow_add]
    omega

/-- Tags of granules stored to are cleared, no others (10 R241). -/
theorem tagAt_store (s : State) (a n v x : Nat) :
    (s.store a n v).tagAt x = (s.tagAt x && !(decide (x / 16 * 16 < a + n) && decide (a < x / 16 * 16 + 16))) := by
  rw [Bool.eq_iff_iff]
  simp [State.tagAt, State.store, clearTags]

/-- Settles O42: bytes read back by what each stored byte is. -/
theorem storedBytesReadBack : Obligations.StoredBytesReadBack := fun s a n v =>
  ⟨load_store s a n v, fun _ => memByte_store_outside, fun x => tagAt_store s a n v x, fun _ => rfl, fun _ => rfl⟩

end Sys2Proof.Machine
end

section
/-!
The turn and the registers of an issue: cores and their links read after a write, what pops and pushes do, what an issue charges and
counts, and what holds a unit or turns it off.
-/

namespace Sys2Proof.Machine

/-! ### Cores read after a write -/

@[simp] theorem core_setCore_same (s : State) (c : Nat) (k : Core) : (s.setCore c k).core c = k := tget_tput_same ..
theorem core_setCore_other (s : State) {c n : Nat} (k : Core) (h : n ≠ c) : (s.setCore c k).core n = s.core n :=
  tget_tput_other _ _ _ _ _ h
@[simp] theorem core_modCore_same (s : State) (c : Nat) (f : Core → Core) : (s.modCore c f).core c = f (s.core c) :=
  core_setCore_same ..
theorem core_modCore_other (s : State) {c n : Nat} (f : Core → Core) (h : n ≠ c) : (s.modCore c f).core n = s.core n :=
  core_setCore_other _ _ h

theorem tget_tmod_same {α : Type} (t : Table α) (k : Nat) (d : α) (f : α → α) : tget (tmod t k d f) k d = f (tget t k d) :=
  tget_tput_same ..
theorem tget_tmod_other {α : Type} (t : Table α) {k j : Nat} (d e : α) (f : α → α) (h : j ≠ k) : tget (tmod t k d f) j e = tget t j e :=
  tget_tput_other _ _ _ _ _ h

/-- Setting one inbox, or the values flying to one side, leaves the others. -/
theorem inbox_setInbox (k : Core) (sd o : Side) (l : List QueueEntry) : (k.setInbox sd l).inbox o = if o = sd then l else k.inbox o := by
  cases sd <;> cases o <;> rfl
theorem flying_setFlying (k : Core) (sd o : Side) (l : List QueueEntry) :
    (k.setFlying sd l).flying o = if o = sd then l else k.flying o := by
  cases sd <;> cases o <;> rfl

/-! ### Pops (05 R111) -/

theorem foreignHead_append {dom : BitVec 16} {before after : List QueueEntry} {e : QueueEntry} (hb : ∀ y ∈ before, y.domain ≠ dom)
    (he : e.domain = dom) : foreignHead dom (before ++ e :: after) = before.length := by
  induction before with
  | nil => simp [foreignHead, he]
  | cons y ys ih =>
    obtain ⟨hy, hys⟩ := List.forall_mem_cons.mp hb
    simp [foreignHead, hy, ih hys]

/-- A pop of an inbox that holds an entry of the thread's domain. -/
theorem pop_inbox {s : State} {c : Nat} {dom : BitVec 16} {x : Opn} {sd : Side} {before after : List QueueEntry} {e : QueueEntry}
    (hx : sideOf x = some sd) (hl : (s.core c).inbox sd = before ++ e :: after) (hb : ∀ y ∈ before, y.domain ≠ dom) (he : e.domain = dom) :
    s.pop c dom x = (e.v, s.setCore c
      { (s.core c).setInbox sd after with linkdisc := satAdd (s.core c).linkdisc before.length }) := by
  simp [State.pop, hx, hl, foreignHead_append hb he]

/-- A pop of a crew queue that does. -/
theorem pop_queue {s : State} {c : Nat} {dom : BitVec 16} {x : Opn} {q : Nat} {before after : List QueueEntry} {e : QueueEntry}
    (hx : sideOf x = none) (hq : queueOf x = some q) (hl : tget (s.core c).queues q [] = before ++ e :: after)
    (hb : ∀ y ∈ before, y.domain ≠ dom) (he : e.domain = dom) :
    s.pop c dom x = (e.v, s.setCore c { s.core c with queues := tput (s.core c).queues q after }) := by
  simp [State.pop, hx, hq, hl, foreignHead_append hb he]

/-- An operand names a link or a crew queue, not both. -/
theorem sideOf_of_queueOf {x : Opn} {q : Nat} (h : queueOf x = some q) : sideOf x = none := by
  have hx : 261 ≤ x.toNat := by
    by_contra hlt
    simp [queueOf, hlt] at h
  unfold sideOf
  split
  · omega
  · omega
  · omega
  · omega
  · rfl

/-- Whatever it finds, a pop changes the inboxes, crew queues and LINKDISC of its core alone. -/
def PopsOnly (c : Nat) (s s' : State) : Prop :=
  (∀ n, n ≠ c → s'.core n = s.core n) ∧
  s'.core c = { s.core c with
    inN := (s'.core c).inN, inE := (s'.core c).inE, inS := (s'.core c).inS, inW := (s'.core c).inW, queues := (s'.core c).queues
    linkdisc := (s'.core c).linkdisc }

theorem PopsOnly.refl (c : Nat) (s : State) : PopsOnly c s s := ⟨fun _ _ => rfl, rfl⟩

theorem PopsOnly.trans {c : Nat} {s s' s'' : State} (h : PopsOnly c s s') (h' : PopsOnly c s' s'') : PopsOnly c s s'' := by
  obtain ⟨hother, hc⟩ := h
  obtain ⟨hother', hc'⟩ := h'
  refine ⟨fun n hn => (hother' n hn).trans (hother n hn), ?_⟩
  rw [hc', hc]

theorem popsOnly_setCore {c : Nat} {s : State} {k : Core} (h : k = { s.core c with
    inN := k.inN, inE := k.inE, inS := k.inS, inW := k.inW, queues := k.queues, linkdisc := k.linkdisc }) :
    PopsOnly c s (s.setCore c k) :=
  ⟨fun _ hn => core_setCore_other s k hn, by rw [core_setCore_same]; exact h⟩

theorem popsOnly_setInbox (c : Nat) (s : State) (sd : Side) (l : List QueueEntry) (w : Word) :
    PopsOnly c s (s.setCore c { (s.core c).setInbox sd l with linkdisc := w }) := by
  cases sd <;> exact popsOnly_setCore rfl

theorem popsOnly_pop (s : State) (c : Nat) (dom : BitVec 16) (x : Opn) : PopsOnly c s (s.pop c dom x).2 := by
  unfold State.pop
  split
  case h_1 => exact popsOnly_setInbox ..
  case h_2 => exact popsOnly_setCore rfl
  case h_3 => exact PopsOnly.refl c s

theorem popsOnly_readField (s : State) (t : Nat) (th : Thread) (f : Field) : PopsOnly (tcore t) s (readField s t th f).2 := by
  unfold readField
  split
  case isTrue => exact popsOnly_pop ..
  case isFalse => split <;> exact PopsOnly.refl ..

/-- A field that pops nothing leaves the state. -/
theorem readField_of_no_pop (s : State) (t : Nat) (th : Thread) {f : Field} (h : fieldPop f = []) : (readField s t th f).2 = s := by
  unfold readField
  split
  case isTrue hpop => simp [fieldPop, hpop] at h
  case isFalse => split <;> rfl

theorem popsOnly_readVals (s : State) (t : Nat) (th : Thread) (i : Instr) (f : Fields) : PopsOnly (tcore t) s (readVals s t th i f).2 := by
  simp only [readVals]
  exact ((((popsOnly_readField ..).trans (popsOnly_readField ..)).trans (popsOnly_readField ..)).trans (popsOnly_readField ..)).trans
    (popsOnly_readField ..)

theorem readVals_of_no_pops (s : State) (t : Nat) (th : Thread) (i : Instr) {f : Fields} (h : f.pops = []) : (readVals s t th i f).2 = s := by
  simp only [Fields.pops, fieldsAll, List.map_cons, List.map_nil, List.flatten_cons, List.flatten_nil, List.append_nil,
    List.append_eq_nil_iff] at h
  obtain ⟨hd, ha, hb, hc, he⟩ := h
  simp only [readVals, readField_of_no_pop _ t th hd, readField_of_no_pop _ t th ha, readField_of_no_pop _ t th hb,
    readField_of_no_pop _ t th hc, readField_of_no_pop _ t th he]

/-! ### Results put to their destinations (03 R50 to R53, 05 R110) -/

/-- A destination that names a register or z is written at once. -/
theorem putDest_low {s : State} {t : Nat} {th : Thread} {d : Opn} (v : Val) (ht : s.thread t = some th) (hd : d.toNat ≤ 256) :
    s.putDest t d v = s.setThread t (th.write d v) := by
  have hclear : pushClear s t th s.nextId d = true := by simp [pushClear, hd]
  simp [State.putDest, ht, hclear, State.putNow, hd, State.modThread]

/-- A link or queue that may be pushed to is pushed to. -/
theorem putDest_push {s : State} {t : Nat} {th : Thread} {d : Opn} (v : Val) (ht : s.thread t = some th) (hd : 257 ≤ d.toNat)
    (hclear : pushClear s t th s.nextId d = true) : s.putDest t d v = s.push (tcore t) (th.owner t) th.domain d v := by
  simp [State.putDest, ht, hclear, State.putNow, show ¬ d.toNat ≤ 256 by omega]

theorem lt_of_sideOf {x : Opn} {sd : Side} (h : sideOf x = some sd) : 257 ≤ x.toNat := by
  unfold sideOf at h
  split at h
  · omega
  · omega
  · omega
  · omega
  · contradiction

theorem lt_of_queueOf {x : Opn} {q : Nat} (h : queueOf x = some q) : 257 ≤ x.toNat := by
  by_contra hlt
  simp [queueOf, show ¬ 261 ≤ x.toNat by omega] at h

/-- Settles O39: reads by their number, pops by the first entry of the domain, results by where they go. -/
theorem operandsAndResultsUseTheirRegisters : Obligations.OperandsAndResultsUseTheirRegisters := by
  refine ⟨⟨fun th x => ⟨fun hx => if_pos hx, fun hx => if_neg (by omega)⟩, ?_, ?_⟩, ?_⟩
  · intro s c dom x sd before after e hx hl hb he
    rw [pop_inbox hx hl hb he]
    refine ⟨rfl, ?_, ?_, fun o ho => ?_, fun d hd => core_setCore_other _ _ hd⟩
    · rw [core_setCore_same]
      exact (inbox_setInbox (s.core c) sd sd after).trans (if_pos rfl)
    · rw [core_setCore_same]
      rfl
    · rw [core_setCore_same]
      exact (inbox_setInbox (s.core c) sd o after).trans (if_neg ho)
  · intro s c dom x q before after e hq hl hb he
    rw [pop_queue (sideOf_of_queueOf hq) hq hl hb he]
    refine ⟨rfl, ?_, fun r hr => ?_, ?_, fun d hd => core_setCore_other _ _ hd⟩
    · rw [core_setCore_same]
      exact tget_tput_same ..
    · rw [core_setCore_same]
      exact tget_tput_other _ _ _ _ _ hr
    · rw [core_setCore_same]
  · intro s t th d v ht
    refine ⟨fun hd => ⟨th.write d v, putDest_low v ht hd.le, ?_, fun k hk => ?_, ?_⟩, fun hd => ?_, fun hclear => ?_, fun sd hsd hclear => ?_,
      fun q hq hclear => ?_⟩
    · simp [reg_write, hd]
    · simp [reg_write, hk]
    · rw [Thread.write, if_pos hd]
      rfl
    · subst hd
      rw [putDest_low v ht (by decide)]
      rfl
    · simp [State.putDest, ht, hclear]
    · rw [putDest_push v ht (lt_of_sideOf hsd) hclear]
      simp only [State.push, hsd]
      refine ⟨?_, fun o ho => ?_, rfl, rfl⟩
      · rw [core_modCore_same, flying_setFlying, if_pos rfl]
        rfl
      · rw [core_modCore_same, flying_setFlying, if_neg ho]
        rfl
    · rw [putDest_push v ht (lt_of_queueOf hq) hclear]
      simp only [State.push, hq, sideOf_of_queueOf hq]
      refine ⟨fun r => ?_, rfl, rfl⟩
      rw [core_modCore_same]
      by_cases hr : r = q
      · subst hr
        rw [tget_tmod_same, if_pos rfl]
        rfl
      · rw [tget_tmod_other _ _ _ _ hr, if_neg hr, List.append_nil]
        rfl

/-! ### The turn of an issue (14 R339, 03 R65) -/

theorem charge_of_free {t : Nat} {th : Thread} (h : isHandler t = true ∨ th.trapActive.isSome = true) : th.charge t = th := by
  rw [Thread.charge, if_pos (by simpa using h)]

theorem charge_of_not_free {t : Nat} {th : Thread} (h : ¬ (isHandler t = true ∨ th.trapActive.isSome = true)) :
    th.charge t = { th with turns := if th.turns = 0 then 0 else th.turns - 1 } := by
  rw [Thread.charge, if_neg (by simpa using h)]
  simp

/-- A charge changes TURNS alone. -/
theorem charge_only (t : Nat) (th : Thread) : th.charge t = { th with turns := (th.charge t).turns } := by
  unfold Thread.charge
  split <;> rfl

/-- The thread after its issue: charged, windows counted, PCC past the unit or the replayed entry off the queue. -/
def Thread.issued (th : Thread) (t : Nat) (u : UnitWords) : Thread := ((th.charge t).tickWindows).advance u

theorem issued_eq_of_fresh {t : Nat} {th : Thread} (u : UnitWords) (h : th.reinject = []) :
    th.issued t u = { (th.charge t).tickWindows with pcc := (th.setPc u.next.toNat).pcc } := by
  rw [Thread.issued, charge_only]
  simp only [Thread.advance, Thread.tickWindows, h, List.isEmpty_nil, if_true]
  rfl

theorem issued_eq_of_replay {t : Nat} {th : Thread} (u : UnitWords) (h : th.reinject ≠ []) :
    th.issued t u = { (th.charge t).tickWindows with reinject := th.reinject.drop (if u.replay.isSome then 2 else 1) } := by
  rw [Thread.issued, charge_only]
  simp only [Thread.advance, Thread.tickWindows, List.isEmpty_iff, h, if_false]

theorem issued_sameStatus (th : Thread) (t : Nat) (u : UnitWords) : SameStatus th (th.issued t u) := by
  rw [Thread.issued, charge_only]
  unfold Thread.advance
  split <;> simp [SameStatus, Thread.tickWindows, Thread.setPc]

theorem issued_turns (th : Thread) (t : Nat) (u : UnitWords) : (th.issued t u).turns = (th.charge t).turns := by
  unfold Thread.issued Thread.advance
  split <;> rfl

/-- The state of a begun issue: what it pops, then its thread, then the count of ISSUED. -/
theorem begun_eq (s : State) (th : Thread) (i : Instr) : ∃ r, PopsOnly (tcore s.cur) s r ∧
    (s.unit.replay.isSome = true ∨ (i.fields (i.elemType (s.core (tcore s.cur)).fmtr)).pops = [] → r.core (tcore s.cur) = s.core (tcore s.cur)) ∧
    s.begun th i = (r.setThread s.cur (th.issued s.cur s.unit)).countCore (tcore s.cur) cISSUED 1 := by
  cases hr : s.unit.replay with
  | some x => exact ⟨{ s with issuing := false }, PopsOnly.refl .., fun _ => rfl, by simp only [State.begun, State.begin, hr]; rfl⟩
  | none =>
    refine ⟨_, popsOnly_readVals { s with issuing := false } s.cur th i (i.fields (i.elemType (s.core (tcore s.cur)).fmtr)),
      fun h => ?_, by simp only [State.begun, State.begin, hr]; rfl⟩
    obtain h | h := h
    · contradiction
    · rw [readVals_of_no_pops _ _ _ _ h]
      rfl

theorem begun_sameStorage (s : State) (th : Thread) (i : Instr) : SameStorage s (s.begun th i) := by
  simp [SameStorage]

theorem begun_sameDevice (s : State) (th : Thread) (i : Instr) : SameDevice s (s.begun th i) := by
  rw [begun_only]
  exact ⟨rfl, rfl, rfl, rfl, rfl, rfl, rfl, rfl, rfl, rfl, rfl, rfl, rfl, rfl⟩

/-- What the count of ISSUED leaves of the core that the pops leave. -/
theorem begun_core {s r : State} {th x : Thread} {i : Instr} (hb : s.begun th i = (r.setThread s.cur x).countCore (tcore s.cur) cISSUED 1) :
    (s.begun th i).core (tcore s.cur) = { r.core (tcore s.cur) with
      counters := countIn (r.core (tcore s.cur)).counters cISSUED 1
      recent := ((s.begun th i).core (tcore s.cur)).recent } := by
  rw [hb, State.countCore, core_modCore_same]
  rfl

/-- Settles O40: the issued thread field by field, and on its core the pops before the count. -/
theorem issueChargesAndAdvances : Obligations.IssueChargesAndAdvances := by
  intro i s th _
  obtain ⟨r, ⟨hother, hcore⟩, hnone, hb⟩ := begun_eq s th i
  have hc := begun_core hb
  refine ⟨⟨th.issued s.cur s.unit, begun_thread s th i, begun_reg s th i, issued_sameStatus .., fun hf => ?_, fun hf => ?_, fun hq => ?_,
    fun hq => ?_⟩, ⟨?_, fun k hk => ?_, ?_, fun hp => ?_, fun n hn => ?_⟩, begun_sameStorage .., begun_others s th i, begun_sameDevice ..⟩
  · rw [issued_turns, charge_of_free hf]
  · rw [issued_turns, charge_of_not_free hf]
  · rw [issued_eq_of_fresh _ hq, charge_only]
    exact ⟨rfl, hq⟩
  · rw [issued_eq_of_replay _ hq, charge_only]
    exact ⟨rfl, rfl⟩
  · rw [hc, hcore]
    exact tget_tput_same ..
  · rw [hc, hcore]
    exact tget_tput_other _ _ _ _ _ hk
  · rw [hc, hcore]
  · rw [hc, hnone hp]
  · rw [hb, State.countCore, core_modCore_other _ _ hn]
    exact hother n hn

/-! ### Held and turned off (05 R100, 03 R57) -/

/-- An instruction is the issue of an effect; an event has no predicate and no operands. -/
theorem issues_or_event (i : Instr) : (∃ eff, ∀ s, exec i s = issue i s eff) ∨
    (i.pred = none ∧ ∀ ty, (i.fields ty).reads = [] ∧ (i.fields ty).writes = []) := by
  cases i with
  | threadTurn | budgetTrap | trapEntry | resultArrival | postedAck | homeRefusal | homeAcknowledgement | homeAccess | registration
  | probe | probeEcho | pull | pullReply | writeBack | releaseStoreWritten | hbmFill | plbFill | homeWalk | waitRecordDelivery
  | waitResend | parkResume | swapOut | swappedWake | sleepExpiry | intakeRecord | stagingDone | slotOffer | crewMemberStart
  | travelArrival | stealRequest | stealReply | engineStart | engineCompletion | matrixCompletion | macldRowArrival
  | rowHandlerDispatch | handlerOverrun | repartComplete | wayconvCompletion | timedTick | tickMessage | coolingSweep | mbindRewrite
  | munbindHome | gangStop | falloutCapture | gangLoad | linkDelivery | loopInsertion | slotReservation | hbmRefresh | alertBackOffEnd
  | liveShift | liveShiftDone | archiveTimeout | capturePeriodicSample | deviceReset | maintenanceReset | alertBackOff | linkCrcError
  | hostWindowAccess | peerWindowAccess | peerLinkUp | peerLinkLoss | archiveDriveCompletion | d3hotEntry | powerLimit | attgo
  | attestReady | nonceWrite | counterClear | captureSnap | captureEnable | inqcfgWrite | areaRegisterWrite | formatWindowWrite
  | pmapWrite | hwinWrite | arqcfgWrite | pwrlimWrite | lanecrcClear | mgmtRegisterWrite | d3hotExit | powerBelowLimit => exact .inr ⟨rfl, fun _ => ⟨rfl, rfl⟩⟩
  | _ => exact .inl ⟨_, fun _ => rfl⟩

theorem issueCheck_absent {i : Instr} {s : State} {th : Thread} {k : Nat} (hr : s.unit.replay = none)
    (hl : typeLegal i (i.elemType (s.core (tcore s.cur)).fmtr) = true)
    (ho : operandsOk i (i.fields (i.elemType (s.core (tcore s.cur)).fmtr)) th = true)
    (hf : fetchFault s th s.unit.addr s.unit.bytes = none) (hp : i.pred = none)
    (hm : linkMissing (tcore s.cur) (i.fields (i.elemType (s.core (tcore s.cur)).fmtr)) = false)
    (hk : k ∈ (i.fields (i.elemType (s.core (tcore s.cur)).fmtr)).reads ∨ k ∈ (i.fields (i.elemType (s.core (tcore s.cur)).fmtr)).writes)
    (habs : (th.reg k).present = false) : issueCheck s s.cur th i = some .hold := by
  have hoff : predOff i th = false := by simp [predOff, hp]
  have hany (l : List Nat) : (((i.fields (i.elemType (s.core (tcore s.cur)).fmtr)).reads ++
      (i.fields (i.elemType (s.core (tcore s.cur)).fmtr)).writes ++ l ++ implied i).any fun r => !(th.reg r).present) = true :=
    List.any_eq_true.mpr ⟨k, by simp only [List.mem_append]; tauto, by simp [habs]⟩
  simp only [issueCheck, hl, ho, hr, hf, hp, hoff, hm, hany]
  rfl

/-- Settles O41: an absent register is met by the check of the issue; a predicate that is off ends it. -/
theorem absentRegistersAndPredicates : Obligations.AbsentRegistersAndPredicates := by
  refine ⟨fun i s th k hi hr hl ho hf hp hm hk habs => ?_, fun i s th hi hc hr hoff => ?_⟩
  · obtain ⟨eff, hx⟩ | ⟨-, hev⟩ := issues_or_event i
    · rw [hx, issue_check hi (issueCheck_absent hr hl ho hf hp hm hk habs)]
      rfl
    · rw [(hev _).1, (hev _).2] at hk
      simp at hk
  · obtain ⟨eff, hx⟩ | ⟨hp, -⟩ := issues_or_event i
    · rw [hx, issue_off hi hc hr hoff]
      rfl
    · simp [predOff, hp] at hoff

end Sys2Proof.Machine
end

section
/-!
Frames of register instructions: what a result put to its destination, a deferred result and a written group leave alone.
-/

namespace Sys2Proof.Machine

/-! ### Outside the issuing thread -/

theorem OnlyThread.trans {s b t : State} (hcur : b.cur = s.cur) (h : OnlyThread s b) (h' : OnlyThread b t) : OnlyThread s t := by
  obtain ⟨hmem, hfe, htags, hpoison, hth, hdev⟩ := h
  obtain ⟨hmem', hfe', htags', hpoison', hth', hdev'⟩ := h'
  refine ⟨fun a => (hmem' a).trans (hmem a), hfe'.trans hfe, htags'.trans htags, hpoison'.trans hpoison,
    fun m hm => (hth' m (by rwa [hcur])).trans (hth m hm), ?_⟩
  simp only [SameDevice] at hdev hdev' ⊢
  simp only [hdev, hdev', and_self]

theorem onlyThread_begun (s : State) (th : Thread) (i : Instr) : OnlyThread s (s.begun th i) := by
  obtain ⟨hmem, hfe, htags, hpoison, -⟩ := begun_sameStorage s th i
  exact ⟨hmem, hfe, htags, hpoison, begun_others s th i, begun_sameDevice s th i⟩

/-- A state that differs in the threads, with the others as before, and in cores, owners and operation numbers only. -/
theorem onlyThread_of {s t : State} (ht : t = { s with threads := t.threads, cores := t.cores, owners := t.owners, nextId := t.nextId })
    (hth : SameThreads s t s.cur) : OnlyThread s t := by
  refine ⟨fun a => ?_, ?_, ?_, ?_, hth, ?_⟩
  · rw [ht]
  · rw [ht]
  · rw [ht]
  · rw [ht]
  · rw [ht]
    exact ⟨rfl, rfl, rfl, rfl, rfl, rfl, rfl, rfl, rfl, rfl, rfl, rfl, rfl, rfl⟩

theorem onlyThread_modThread (s : State) (f : Thread → Thread) : OnlyThread s (s.modThread s.cur f) := by
  refine onlyThread_of ?_ (fun m hm => thread_modThread_other s s.cur m f hm)
  unfold State.modThread
  split <;> rfl

theorem onlyThread_startOp (s : State) (o : Op) (la : Nat) : OnlyThread s (s.startOp s.cur o la) :=
  OnlyThread.trans rfl (onlyThread_of rfl (fun _ _ => rfl) : OnlyThread s { s with nextId := s.nextId + 1 }) (onlyThread_modThread ..)

theorem onlyThread_push (s : State) (c : Nat) (me : Owner) (dom : BitVec 16) (d : Opn) (v : Val) : OnlyThread s (s.push c me dom d v) := by
  unfold State.push
  split
  · exact onlyThread_of rfl (fun _ _ => rfl)
  · exact onlyThread_of rfl (fun _ _ => rfl)
  · exact onlyThread_of rfl (fun _ _ => rfl)

theorem onlyThread_putDest (s : State) (d : Opn) (v : Val) : OnlyThread s (s.putDest s.cur d v) := by
  unfold State.putDest
  split
  · split
    · unfold State.putNow
      split
      · exact onlyThread_modThread ..
      · split
        · exact onlyThread_push ..
        · exact onlyThread_of rfl (fun _ _ => rfl)
    · exact onlyThread_startOp ..
  · exact onlyThread_of rfl (fun _ _ => rfl)

/-! ### Of the issuing thread -/

/-- Of a thread only the register that d names, if any, differs, beside TURNS, PCC and what it has outstanding. -/
def WritesOnly (d : Opn) (a b : Thread) : Prop :=
  SameStatus a b ∧ b.flags = a.flags ∧ b.prng = a.prng ∧ ∀ k, k ≠ d.toNat → b.reg k = a.reg k

theorem WritesOnly.trans {d : Opn} {a b c : Thread} (h : WritesOnly d a b) (h' : WritesOnly d b c) : WritesOnly d a c := by
  obtain ⟨hst, hfl, hpr, hreg⟩ := h
  obtain ⟨hst', hfl', hpr', hreg'⟩ := h'
  refine ⟨?_, hfl'.trans hfl, hpr'.trans hpr, fun k hk => (hreg' k hk).trans (hreg k hk)⟩
  simp only [SameStatus] at hst hst' ⊢
  simp only [hst, hst', and_self]

theorem issued_flags_prng (th : Thread) (t : Nat) (u : UnitWords) : (th.issued t u).flags = th.flags ∧ (th.issued t u).prng = th.prng := by
  rw [Thread.issued, charge_only]
  unfold Thread.advance
  split <;> exact ⟨rfl, rfl⟩

theorem issued_writesOnly (d : Opn) (s : State) (th : Thread) : WritesOnly d th (th.issued s.cur s.unit) :=
  ⟨issued_sameStatus .., (issued_flags_prng ..).1, (issued_flags_prng ..).2, fun k _ => begun_reg s th .nop k⟩

theorem write_writesOnly (d : Opn) (v : Val) (th : Thread) : WritesOnly d th (th.write d v) := by
  refine ⟨?_, ?_, ?_, fun k hk => by simp [reg_write, hk]⟩
  all_goals
    unfold Thread.write
    split
  · simp [SameStatus, Thread.setReg]
  · simp [SameStatus]
  all_goals rfl

/-- A record that keeps registers, status registers, flags and generator. -/
theorem writesOnly_ops (d : Opn) (th : Thread) (l : List Op) : WritesOnly d th { th with ops := l } := by
  simp [WritesOnly, SameStatus, Thread.reg]

theorem thread_push (s : State) (c t : Nat) (me : Owner) (dom : BitVec 16) (d : Opn) (v : Val) : (s.push c me dom d v).thread t = s.thread t := by
  unfold State.push
  split <;> rfl

/-- A thread with an operation entered: one of the rotation takes it out, a long-latency one marks its registers absent and opens its
window. -/
def Thread.withOp (th : Thread) (o : Op) (now la : Nat) : Thread :=
  let th := { th with ops := th.ops ++ [o] }
  match o.cls with
  | .posted => th
  | .out => { th with status := .out o.id now }
  | .longLat =>
    let th' := (regsOf o.dests).foldl (fun th r => th.setPresent r false) th
    if (regsOf o.dests).isEmpty then th' else { th' with windows := th'.windows ++ [⟨regsOf o.dests, if th'.resuming then 0 else la⟩] }

theorem startOp_eq (s : State) (t : Nat) (o : Op) (la : Nat) :
    s.startOp t o la = ({ s with nextId := s.nextId + 1 } : State).modThread t (fun th => th.withOp o s.cycle la) := rfl

theorem thread_startOp {s : State} {t : Nat} {th : Thread} (o : Op) (la : Nat) (h : s.thread t = some th) :
    (s.startOp t o la).thread t = some (th.withOp o s.cycle la) := by
  rw [startOp_eq]
  exact modThread_thread _ h

/-- A push that must wait stays behind as an operation. -/
theorem putDest_waits {s : State} {t : Nat} {th : Thread} {d : Opn} (v : Val) (ht : s.thread t = some th)
    (hclear : pushClear s t th s.nextId d = false) :
    s.putDest t d v = s.startOp t { s.newOp .posted .nothing (.done [v]) 0 with dests := [d] } 0 := by
  simp [State.putDest, ht, hclear]

/-- A value put to a destination changes no other register of the thread. -/
theorem putDest_writesOnly {s : State} {t : Nat} {th : Thread} (d : Opn) (v : Val) (h : s.thread t = some th) :
    ∃ x, (s.putDest t d v).thread t = some x ∧ WritesOnly d th x := by
  by_cases hlow : d.toNat ≤ 256
  · exact ⟨_, by rw [putDest_low v h hlow, thread_setThread_same], write_writesOnly d v th⟩
  · by_cases hclear : pushClear s t th s.nextId d = true
    · exact ⟨th, by rw [putDest_push v h (by omega) hclear, thread_push, h], writesOnly_ops d th th.ops⟩
    · rw [putDest_waits v h (by simpa using hclear)]
      exact ⟨_, thread_startOp _ 0 h, writesOnly_ops d th _⟩

theorem setPresent_writesOnly {d : Opn} {k : Nat} (th : Thread) (p : Bool) (hk : k = d.toNat) :
    WritesOnly d th (th.setPresent k p) := by
  refine ⟨by simp [SameStatus, Thread.setPresent], rfl, rfl, fun j hj => ?_⟩
  exact tget_tput_other _ _ _ _ _ (by omega)

/-- A deferred result of one destination marks it absent and changes no other register. -/
theorem deferResult_writesOnly {s : State} {t : Nat} {th : Thread} (d : Opn) (vs : List Val) (fl : Flags) (la : BitVec 4)
    (h : s.thread t = some th) : ∃ x, (s.deferResult t [d] vs fl la).thread t = some x ∧ WritesOnly d th x ∧
      (d.toNat < 256 → x.reg d.toNat = ⟨(th.reg d.toNat).v, false⟩) := by
  refine ⟨_, thread_startOp _ _ h, ?_⟩
  rw [Thread.withOp]
  by_cases hd : d.toNat < 256
  · have hregs : regsOf [d] = [d.toNat] := by simp [regsOf, hd]
    simp only [State.newOp, hregs, List.foldl_cons, List.foldl_nil, List.isEmpty_cons]
    refine ⟨(setPresent_writesOnly th false rfl).trans ?_, fun _ => ?_⟩
    · simp [WritesOnly, SameStatus, Thread.reg, Thread.setPresent]
    · exact tget_tput_same ..
  · have hregs : regsOf [d] = [] := by simp [regsOf, hd]
    simp only [State.newOp, hregs, List.foldl_nil, List.isEmpty_nil]
    exact ⟨writesOnly_ops .., fun h => absurd h hd⟩

/-! ### Integer members (06 R121 to R127) -/

theorem yields_of_mem_wordOps {o : IntOps} {i : Instr} (hi : i ∈ wordOps o) : (∃ f, Yields i o.d f) ∧ ∀ o', i ∉ divOps o' := by
  fin_cases hi <;> exact ⟨⟨_, yields_of (fun _ => rfl) (fun _ _ _ => rfl)⟩, fun _ => by simp [divOps]⟩

theorem yields_of_mem_oneOps {o : UnOps} {i : Instr} (hi : i ∈ oneOps o) : (∃ f, Yields i o.d f) ∧ ∀ o', i ∉ divOps o' := by
  fin_cases hi <;> exact ⟨⟨_, yields_of (fun _ => rfl) (fun _ _ _ => rfl)⟩, fun _ => by simp [divOps]⟩

theorem defers_of_mem_divOps {o : IntOps} {i : Instr} (hi : i ∈ divOps o) : ∃ f, Defers i [o.d] o.la f := by
  fin_cases hi <;> exact ⟨fun v _ _ => ([_], Flags.none), effects_of (fun _ => rfl) (fun _ _ _ _ => rfl)⟩

theorem frame_of_yields {i : Instr} {d : Opn} {f : Vals → Thread → State → Val} {s s' : State} {th : Thread} (hy : Yields i d f)
    (hr : Runs i s th) (hx : exec i s = .next s') : OnlyThread s s' ∧ ∃ x, s'.thread s.cur = some x ∧ WritesOnly d th x := by
  obtain rfl := Host.Outcome.next.inj ((hy s th hr).symm.trans hx)
  obtain ⟨x, hthread, hw⟩ := putDest_writesOnly d (f (s.vals th i) th (s.begun th i)) (begun_thread s th i)
  refine ⟨OnlyThread.trans (begun_cur s th i) (onlyThread_begun s th i) ?_, x, hthread, (issued_writesOnly d s th).trans hw⟩
  have h := onlyThread_putDest (s.begun th i) d (f (s.vals th i) th (s.begun th i))
  rwa [begun_cur] at h

theorem frame_of_defers {i : Instr} {d : Opn} {la : BitVec 4} {f : Vals → Thread → State → List Val × Flags} {s s' : State} {th : Thread}
    (hd : Defers i [d] la f) (hr : Runs i s th) (hx : exec i s = .next s') : OnlyThread s s' ∧ ∃ x, s'.thread s.cur = some x ∧
      WritesOnly d th x ∧ (d.toNat < 256 → x.reg d.toNat = ⟨(th.reg d.toNat).v, false⟩) := by
  obtain rfl := Host.Outcome.next.inj ((hd s th hr trivial).symm.trans hx)
  dsimp only
  rw [begun_cur]
  obtain ⟨x, hthread, hw, habs⟩ := deferResult_writesOnly d (f (s.vals th i) th (s.begun th i)).1 (f (s.vals th i) th (s.begun th i)).2 la
    (begun_thread s th i)
  refine ⟨OnlyThread.trans (begun_cur s th i) (onlyThread_begun s th i) ?_, x, hthread, (issued_writesOnly d s th).trans hw, fun hlt => ?_⟩
  · have h := onlyThread_startOp (s.begun th i)
    rw [begun_cur] at h
    exact h ..
  · rw [habs hlt, begun_reg s th i]

/-- Settles O46: word and one-source members put a value, divisions defer one. -/
theorem integerInstructionsChangeOnlyTheirDestination : Obligations.IntegerInstructionsChangeOnlyTheirDestination := by
  rintro i d (⟨o, hi, rfl⟩ | ⟨o, hi, rfl⟩ | ⟨o, hi, rfl⟩) s th s' hr hx
  · obtain ⟨⟨f, hy⟩, hdiv⟩ := yields_of_mem_wordOps hi
    obtain ⟨honly, x, hthread, hst, hfl, hpr, hreg⟩ := frame_of_yields hy hr hx
    exact ⟨honly, x, hthread, hst, hfl, hpr, hreg, fun o' h => absurd h (hdiv o')⟩
  · obtain ⟨⟨f, hy⟩, hdiv⟩ := yields_of_mem_oneOps hi
    obtain ⟨honly, x, hthread, hst, hfl, hpr, hreg⟩ := frame_of_yields hy hr hx
    exact ⟨honly, x, hthread, hst, hfl, hpr, hreg, fun o' h => absurd h (hdiv o')⟩
  · obtain ⟨f, hd⟩ := defers_of_mem_divOps hi
    obtain ⟨honly, x, hthread, ⟨hst, hfl, hpr, hreg⟩, habs⟩ := frame_of_defers hd hr hx
    exact ⟨honly, x, hthread, hst, hfl, hpr, hreg, fun _ _ => habs⟩

/-! ### Packed arithmetic (07 R146, R150) -/

/-- A written group changes registers alone, and of those only its own. -/
theorem writeGroup_only (th : Thread) (d : Opn) (n bits : Nat) : th.writeGroup d n bits = { th with regs := (th.writeGroup d n bits).regs } := by
  induction n generalizing th d bits with
  | zero => rfl
  | succ n ih =>
    rw [Thread.writeGroup]
    split
    · rw [ih]
      rfl
    · rfl

theorem reg_writeGroup_outside (th : Thread) (d : Opn) (n bits : Nat) {j : Nat} (hj : ¬ (d.toNat ≤ j ∧ j < d.toNat + n)) :
    (th.writeGroup d n bits).reg j = th.reg j := by
  induction n generalizing th d bits with
  | zero => rfl
  | succ n ih =>
    rw [Thread.writeGroup]
    split
    case isTrue hd =>
      have hnext : (d + 1).toNat = d.toNat + 1 := by bv_omega
      rw [ih _ _ _ (by omega), reg_setReg_other _ _ _ _ (by omega)]
    case isFalse => rfl

/-- The thread that a packed result leaves: its group written, flags joined and the generator after the draws. -/
def Thread.packed (th : Thread) (d : Opn) (n bits : Nat) (f : Flags) (g : Prng) : Thread :=
  { th.writeGroup d n bits with flags := th.flags.or f, prng := g }

theorem putGroup_settleFloat_thread {s : State} {th : Thread} (d : Opn) (n bits : Nat) (f : Flags) (g : Prng) (h : s.thread s.cur = some th) :
    ((s.putGroup d n bits).settleFloat s.cur f g).thread s.cur = some (th.packed d n bits f g) := by
  rw [State.settleFloat, State.putGroup, modThread_thread _ (modThread_thread _ h), Thread.packed, writeGroup_only]

theorem onlyThread_putGroup_settleFloat (s : State) (d : Opn) (n bits : Nat) (f : Flags) (g : Prng) :
    OnlyThread s ((s.putGroup d n bits).settleFloat s.cur f g) := by
  have hcur : (s.putGroup d n bits).cur = s.cur := State.modThread_cur ..
  have h := onlyThread_modThread (s.putGroup d n bits) (fun th => { th with flags := th.flags.or f, prng := g })
  rw [hcur] at h
  exact OnlyThread.trans hcur (onlyThread_modThread ..) h

theorem packed_sameStatus (th : Thread) (d : Opn) (n bits : Nat) (f : Flags) (g : Prng) : SameStatus th (th.packed d n bits f g) := by
  rw [Thread.packed, writeGroup_only]
  simp [SameStatus]

theorem arithEffect_ok {i : Instr} {fn : ArithFn} {k : Pk} {b : Opn} {bs : Bool} {th : Thread} {s : State} (v : Vals)
    (h : isFloatType (s.elemTypeOf i) = true → abandonedIn k.p (s.elemTypeOf i)
      (firstElems k th (s.elemTypeOf i) ++ otherElems k b bs th (s.elemTypeOf i)) = false) :
    ∃ bits f g, arithEffect i fn k b bs v th s = .ok ((s.putGroup k.d (groupSize k.g) bits).settleFloat s.cur f g) := by
  refine ⟨_, _, _, if_neg ?_⟩
  rw [Bool.and_eq_true, not_and, Bool.not_eq_true]
  exact h

theorem exec_of_mem_packedOps {k : Pk} {b : Opn} {bs : Bool} {i : Instr} (hi : i ∈ packedOps k b bs) :
    ∃ fn, ∀ s, exec i s = issue i s (arithEffect i fn k b bs) := by
  fin_cases hi <;> exact ⟨_, fun _ => rfl⟩

theorem SameStatus.trans {a b c : Thread} (h : SameStatus a b) (h' : SameStatus b c) : SameStatus a c := by
  simp only [SameStatus] at h h' ⊢
  simp only [h, h', and_self]

/-- Settles O47: a packed result that is not a trap writes its group and settles its flags. -/
theorem packedInstructionsChangeOnlyTheirGroup : Obligations.PackedInstructionsChangeOnlyTheirGroup := by
  intro k b bs i hi s th s' hr habs hx
  obtain ⟨fn, hexec⟩ := exec_of_mem_packedOps hi
  obtain ⟨bits, f, g, heff⟩ := arithEffect_ok (fn := fn) (s.vals th i) habs
  obtain rfl := Host.Outcome.next.inj ((exec_goes hr (hexec s) heff).symm.trans hx)
  have hframe := onlyThread_putGroup_settleFloat (s.begun th i) k.d (groupSize k.g) bits f g
  have hthread := putGroup_settleFloat_thread (s := s.begun th i) k.d (groupSize k.g) bits f g (by rw [begun_cur]; exact begun_thread s th i)
  rw [begun_cur] at hframe hthread ⊢
  refine ⟨OnlyThread.trans (begun_cur s th i) (onlyThread_begun s th i) hframe, _, hthread,
    (issued_sameStatus ..).trans (packed_sameStatus ..), fun j hj => ?_, f, ?_⟩
  · exact (reg_writeGroup_outside _ _ _ _ hj).trans (begun_reg s th i j)
  · exact congrArg (·.or f) (issued_flags_prng ..).1

end Sys2Proof.Machine
end

section
/-!
Packed groups (04, 07): rounding, integer elements, the members that compute elements in order, conversions and lanes.
-/

namespace Sys2Proof.Machine

/-! ### Rounding (04 R84) -/

/-- Settles O11: the neighbour each code chooses, by its test against the half. -/
theorem roundingChoosesTheStatedNeighbour : Obligations.RoundingChoosesTheStatedNeighbour := by
  intro neg lo rem sh u _
  refine ⟨fun h mode => by simp [chooseMag, h], fun h => ?_⟩
  have h0 : (rem == 0) = false := by simpa using h
  simp only [chooseMag, h0, Bool.false_eq_true, if_false, Bool.or_eq_true, Bool.and_eq_true, decide_eq_true_eq, beq_iff_eq]
  refine ⟨?_, trivial, ⟨?_, trivial⟩, trivial, ?_⟩
  · generalize 2 ^ sh = p
    split_ifs <;> omega
  · cases neg <;> simp
  · generalize 2 ^ sh = p
    split_ifs <;> omega

/-! ### Integer elements (04 R75) -/

theorem fitInt_eq_elementOf (t : BitVec 6) (sat : Bool) (x : Int) : fitInt t sat x = elementOf t sat x := by
  have hpow : (1 : Int) ≤ 2 ^ (typeWidth t - 1) ∧ (1 : Int) ≤ 2 ^ typeWidth t :=
    ⟨one_le_pow₀ (by decide), one_le_pow₀ (by decide)⟩
  have hclamp (lo hi : Int) (h : lo ≤ hi) : max lo (min hi x) = if x < lo then lo else if hi < x then hi else x := by
    split_ifs <;> omega
  simp only [fitInt, elementOf]
  rw [hclamp]
  split <;> omega

theorem isFloatType_of_isIntType {t : BitVec 6} (h : isIntType t = true) : isFloatType t = false := by
  simp only [isIntType, isFloatType, Bool.or_eq_true, Bool.and_eq_true, decide_eq_true_eq] at h ⊢
  rw [Bool.and_eq_false_iff, decide_eq_false_iff_not, decide_eq_false_iff_not]
  omega

/-- Settles O12: an integer type is no floating type, and fitting is clamping or wrapping. -/
theorem packedIntegerElementsAreExact : Obligations.PackedIntegerElementsAreExact := by
  intro t ht mode sat a b c g
  simp [arithElem, fmaElem, isFloatType_of_isIntType ht, fitInt_eq_elementOf]

/-! ### Elements computed in order (07 R149 to R161) -/

theorem packedResult_ok {p : Pfx} {t : BitVec 6} {w : Nat} {scan : List Nat} {fs : List ElemFn} {d : Opn} {n : Nat} {th : Thread} {s : State}
    (h : isFloatType t = true → abandonedIn p t scan = false) : packedResult p t w scan fs d n th s =
      .ok ((s.putGroup d n (joinElems w (runElems fs th.prng).1)).settleFloat s.cur (runElems fs th.prng).2.1 (runElems fs th.prng).2.2) :=
  if_neg (by simpa using h)

theorem packedResult_abandons {p : Pfx} {t : BitVec 6} {w : Nat} {scan : List Nat} {fs : List ElemFn} {d : Opn} {n : Nat} {th : Thread}
    {s : State} (h : isFloatType t = true ∧ p.pass = false ∧ ∃ x ∈ scan, isAbandoned t x = true) :
    packedResult p t w scan fs d n th s = abandonTrap := by
  obtain ⟨hfloat, hpass, habs⟩ := h
  exact if_pos (by simp [hfloat, abandonedIn, hpass, habs])

/-- A member whose effect is a packed result of the elements of its operands. -/
theorem packs_of {i : Instr} {k : Pk} {n : Nat} {scan : Thread → BitVec 6 → List Nat} {fs : Thread → BitVec 6 → List ElemFn} {eff : Effect}
    (hx : ∀ s, exec i s = issue i s eff)
    (he : ∀ v th s, eff v th s = packedResult k.p (s.elemTypeOf i) (typeWidth (s.elemTypeOf i)) (scan th (s.elemTypeOf i))
      (fs th (s.elemTypeOf i)) k.d n th s) : Packs i k n scan fs :=
  effects_of hx (fun v th s h => by rw [he, packedResult_ok h])

/-- Whatever it computes, it traps on an abandoned operand. -/
theorem abandonTraps_of {i : Instr} {k : Pk} {scan : Thread → BitVec 6 → List Nat} {eff : Effect} (hx : ∀ s, exec i s = issue i s eff)
    (he : ∀ v th s, ∃ fs n, eff v th s = packedResult k.p (s.elemTypeOf i) (typeWidth (s.elemTypeOf i)) (scan th (s.elemTypeOf i)) fs k.d n
      th s) : AbandonTraps i k scan :=
  traps_of hx (fun v th s h => by
    obtain ⟨fs, n, heff⟩ := he v th s
    rw [heff, packedResult_abandons h]
    rfl)

theorem zip_map_eq_zipWith {α β γ : Type} (f : α → β → γ) (l : List α) (m : List β) :
    (l.zip m).map (fun z => f z.1 z.2) = l.zipWith f m := by
  rw [List.zip, List.map_zipWith]

/-- Elements with their numbers, in either order. -/
theorem range_zip_map {α β : Type} (f : Nat × α → β) (l : List α) :
    ((List.range l.length).zip l).map f = l.zipIdx.map (fun z => f (z.2, z.1)) := by
  rw [List.zipIdx_eq_zip_range', List.range_eq_range', List.zip, List.zip, List.map_zipWith, List.map_zipWith, List.zipWith_comm]

theorem arithEffect_eq (i : Instr) (fn : ArithFn) (k : Pk) (b : Opn) (bs : Bool) (v : Vals) (th : Thread) (s : State) :
    arithEffect i fn k b bs v th s = packedResult k.p (s.elemTypeOf i) (typeWidth (s.elemTypeOf i))
      (firstElems k th (s.elemTypeOf i) ++ otherElems k b bs th (s.elemTypeOf i))
      ((firstElems k th (s.elemTypeOf i)).zipWith (arithElem fn (s.elemTypeOf i) (roundMode k.p th) k.p.sat)
        (otherElems k b bs th (s.elemTypeOf i))) k.d (groupSize k.g) th s := by
  rw [← zip_map_eq_zipWith]
  rfl

theorem packsArith_of {i : Instr} {fn : ArithFn} {k : Pk} {b : Opn} {bs : Bool} (hx : ∀ s, exec i s = issue i s (arithEffect i fn k b bs)) :
    PacksArith i fn k b bs :=
  packs_of hx (arithEffect_eq i fn k b bs)

theorem abandonTraps_of_arith {i : Instr} {fn : ArithFn} {k : Pk} {b : Opn} {bs : Bool}
    (hx : ∀ s, exec i s = issue i s (arithEffect i fn k b bs)) :
    AbandonTraps i k (fun th t => firstElems k th t ++ otherElems k b bs th t) :=
  abandonTraps_of hx (fun v th s => ⟨_, _, arithEffect_eq i fn k b bs v th s⟩)

/-- The sum VRED makes of integer elements. -/
theorem foldl_add_eq_sum (f : Nat → Int) (l : List Nat) (x : Int) : l.foldl (fun a y => a + f y) x = x + (l.map f).sum := by
  induction l generalizing x with
  | nil => simp
  | cons y ys ih => rw [List.foldl_cons, ih, List.map_cons, List.sum_cons, add_assoc]

/-- VRED's one element. -/
theorem redElem_eq (t : BitVec 6) (op : BitVec 2) (mode : Nat) (sat : Bool) (xs : List Nat) (g : Prng) :
    (if op == 0 && !isFloatType t then (fitInt t sat (xs.foldl (fun a x => a + intVal t x) 0), Flags.none, g)
      else redTree (arithElem (match op.toNat with | 0 => .add | 1 => .min | _ => .max) t mode sat) 10 xs g) =
    if op = 0 ∧ isFloatType t = false then (elementOf t sat ((xs.map (intVal t)).sum), Flags.none, g)
      else redTree (arithElem (if op = 0 then .add else if op = 1 then .min else .max) t mode sat) 10 xs g := by
  have hfn : (match op.toNat with | 0 => ArithFn.add | 1 => .min | _ => .max) = if op = 0 then .add else if op = 1 then .min else .max := by
    revert op
    decide
  rw [hfn, fitInt_eq_elementOf, foldl_add_eq_sum, zero_add]
  simp

/-- One element of VSCALE. -/
theorem scaleElem_eq (t : BitVec 6) (mode : Nat) (sat : Bool) (x : Fp) (sc : Nat) (g : Prng) :
    (if sc == 255 then (defaultNan t, nvIf (isSignalling x), g) else fpResult t mode sat [x] (scaled sc false x, false) g) =
    if sc = 255 then (defaultNan t, nvIf (isSignalling x), g) else fpResult t mode sat [x] (x.scale (sc - 127), false) g := by
  simp only [beq_iff_eq]
  split
  case isTrue => rfl
  case isFalse h => simp [scaled, h]

/-- Settles O13: every member is a packed result of its elements. -/
theorem packedArithmeticResults : Obligations.PackedArithmeticResults := by
  refine ⟨⟨fun _ _ _ => packsArith_of (fun _ => rfl), fun _ _ _ => packsArith_of (fun _ => rfl), fun _ _ _ => packsArith_of (fun _ => rfl),
      fun _ _ _ => packsArith_of (fun _ => rfl), fun _ _ _ => packsArith_of (fun _ => rfl),
      fun _ _ _ _ => packs_of (fun _ => rfl) (fun _ _ _ => rfl), fun _ => packs_of (fun _ => rfl) (fun _ _ _ => rfl),
      fun _ => packs_of (fun _ => rfl) (fun _ _ _ => rfl), fun k b bs cond => ?_, fun k op => ?_, fun k b => ?_⟩,
    fun _ _ _ => abandonTraps_of_arith (fun _ => rfl), fun _ _ _ => abandonTraps_of_arith (fun _ => rfl),
    fun _ _ _ => abandonTraps_of_arith (fun _ => rfl), fun _ _ _ => abandonTraps_of_arith (fun _ => rfl),
    fun _ _ _ => abandonTraps_of_arith (fun _ => rfl), fun _ => abandonTraps_of (fun _ => rfl) (fun _ _ _ => ⟨_, _, rfl⟩),
    fun _ => abandonTraps_of (fun _ => rfl) (fun _ _ _ => ⟨_, _, rfl⟩), fun _ _ _ _ => abandonTraps_of (fun _ => rfl) (fun _ _ _ => ⟨_, _, rfl⟩),
    fun _ _ _ _ => abandonTraps_of (fun _ => rfl) (fun _ _ _ => ⟨_, _, rfl⟩), fun _ _ => abandonTraps_of (fun _ => rfl) (fun _ _ _ => ⟨_, _, rfl⟩),
    fun _ _ => abandonTraps_of (fun _ => rfl) (fun _ _ _ => ⟨_, _, rfl⟩)⟩
  · refine packs_of (fun _ => rfl) (fun _ th s => ?_)
    rw [← zip_map_eq_zipWith]
    rfl
  · refine packs_of (fun _ => rfl) (fun _ th s => ?_)
    simp only [← redElem_eq]
    rfl
  · refine packs_of (fun _ => rfl) (fun _ th s => ?_)
    simp only [← scaleElem_eq]
    rw [range_zip_map]
    rfl

/-! ### Conversions and stepwise functions (07 R156 to R165) -/

theorem abandonedIn_of {p : Pfx} {t : BitVec 6} {l : List Nat} (hpass : p.pass = false) (h : ∃ x ∈ l, isAbandoned t x = true) :
    abandonedIn p t l = true := by
  simp [abandonedIn, hpass, h]

theorem stepsLater_of {i : Instr} {k : Pk} {la : BitVec 4} {f : Nat → Nat × Flags} (hx : ∀ s, exec i s = issue i s (stepwiseEffect k la f)) :
    StepsLater i k la f :=
  effects_of hx (fun v th s h => by
    rw [stepwiseEffect, if_neg (by simpa using h)])

theorem traps_of_stepwise {i : Instr} {k : Pk} {la : BitVec 4} {f : Nat → Nat × Flags}
    (hx : ∀ s, exec i s = issue i s (stepwiseEffect k la f)) :
    Traps i (fun _ th _ => k.p.pass = false ∧ ∃ x ∈ elemsOf 32 (4 * groupSize k.g) (th.groupBits k.a (groupSize k.g)),
      isAbandoned f32 x = true) .abandonedOperand (fun _ _ _ => 0) :=
  traps_of hx (fun v th s h => by
    obtain ⟨hpass, habs⟩ := h
    rw [stepwiseEffect, if_pos (abandonedIn_of hpass habs)]
    rfl)

/-- One element of VCVT, with its number: scaled where the prefix asks for it, converted, NV where its source signals. -/
def convElem (k : Pk) (c : Opn) (src t : BitVec 6) (scl : Bool) (th : Thread) (z : Nat × Nat) : ElemFn :=
  let sv := scaleVal k th c
  let x := if scl && isBlockScaled src then scaled (scaleByte sv z.1) false (decodeFp src z.2) else decodeFp src z.2
  let x := if scl && isBlockScaled t then scaled (scaleByte sv z.1) true x else x
  raisingNv src z.2 (convTo src t (roundMode k.p th) k.p.sat x)

/-- Effect of VCVT without `.mask`. -/
def convEffect (k : Pk) (c : Opn) (src : BitVec 6) (scl : Bool) : Effect := fun _ th s =>
  if isFloatType src && abandonedIn k.p src (firstElems k th src) then abandonTrap
  else
    let t := s.elemTypeOf (.vcvt k c src false scl)
    let r := runElems (((List.range (128 * groupSize k.g / typeWidth src)).zip (firstElems k th src)).map (convElem k c src t scl th)) th.prng
    .ok ((s.putGroup k.d (vcvtDest k src t) (joinElems (typeWidth t) r.1)).settleFloat s.cur r.2.1 r.2.2)

theorem exec_vcvt (k : Pk) (c : Opn) (src : BitVec 6) (scl : Bool) (s : State) :
    exec (.vcvt k c src false scl) s = issue (.vcvt k c src false scl) s (convEffect k c src scl) := rfl

theorem effects_of_vcvt (k : Pk) (c : Opn) (src : BitVec 6) (scl : Bool) : Effects (.vcvt k c src false scl)
    (fun _ th _ => isFloatType src = true → abandonedIn k.p src (firstElems k th src) = false)
    (fun _ th s =>
      let t := s.elemTypeOf (.vcvt k c src false scl)
      let r := runElems ((firstElems k th src).zipIdx.map (fun z => convElem k c src t scl th (z.2, z.1))) th.prng
      (s.putGroup k.d (vcvtDest k src t) (joinElems (typeWidth t) r.1)).settleFloat s.cur r.2.1 r.2.2) :=
  effects_of (exec_vcvt k c src scl) (fun v th s h => by
    have hlen : (firstElems k th src).length = 128 * groupSize k.g / typeWidth src := length_elemsOf ..
    rw [convEffect, if_neg (by simpa using h), ← hlen]
    simp only [range_zip_map])

/-- Without a scale the element's number does not count. -/
theorem zipIdx_map_fst {α β : Type} (f : α → β) (l : List α) : l.zipIdx.map (fun z => f z.1) = l.map f := by
  exact (List.map_map (f := Prod.fst) (g := f)).symm.trans (by rw [List.zipIdx_map_fst])

theorem convElems_unscaled (k : Pk) (c : Opn) (src t : BitVec 6) (th : Thread) (l : List Nat) :
    l.zipIdx.map (fun z => convElem k c src t false th (z.2, z.1)) =
      l.map (fun x => raisingNv src x (convTo src t (roundMode k.p th) k.p.sat (decodeFp src x))) :=
  zipIdx_map_fst (fun x => raisingNv src x (convTo src t (roundMode k.p th) k.p.sat (decodeFp src x))) l

/-- Settles O15: stepwise results defer their group; VCVT gathers bits or converts each element, its source scanned first. -/
theorem packedConversionResults : Obligations.PackedConversionResults := by
  refine ⟨fun _ _ => stepsLater_of (fun _ => rfl), fun _ _ => stepsLater_of (fun _ => rfl), fun _ _ => stepsLater_of (fun _ => rfl),
    fun k c src scl => effects_of (fun _ => rfl) (fun _ _ _ _ => rfl), fun k c src => ?_, fun k c src => effects_of_vcvt k c src true, ?_,
    fun k c src scl => ?_⟩
  · have h := effects_of_vcvt k c src false
    simp only [convElems_unscaled] at h
    exact h
  · rintro i k la (rfl | rfl | rfl)
    · exact traps_of_stepwise (fun _ => rfl)
    · exact traps_of_stepwise (fun _ => rfl)
    · exact traps_of_stepwise (fun _ => rfl)
  · refine traps_of (exec_vcvt k c src scl) (fun v th s h => ?_)
    obtain ⟨hfloat, hpass, habs⟩ := h
    rw [convEffect, if_pos (by rw [hfloat, abandonedIn_of hpass habs]; rfl)]
    rfl

/-! ### Lane slices (07 R171 to R174) -/

theorem laneFault_cons_pass {size l x : Nat} {os : List Nat} (h : x + 4 ≤ size ∧ x % 4 = 0) :
    laneFault size l (x :: os) = laneFault size (l + 1) os := by
  simp [laneFault, not_lt.mpr h.1, h.2]

theorem laneFault_of_pass {size : Nat} {os : List Nat} (l : Nat) (h : ∀ x ∈ os, x + 4 ≤ size ∧ x % 4 = 0) : laneFault size l os = none := by
  induction os generalizing l with
  | nil => rfl
  | cons x xs ih =>
    obtain ⟨hx, hxs⟩ := List.forall_mem_cons.mp h
    rw [laneFault_cons_pass hx, ih _ hxs]

theorem laneFault_bounds {size l x : Nat} {os : List Nat} (h : size < x + 4) :
    laneFault size l (x :: os) = some (.bounds, BitVec.ofNat 64 (1024 * l + x % 1024)) := by
  rw [laneFault, if_pos h, Nat.mul_comm]

theorem laneFault_align {size l x : Nat} {os : List Nat} (hin : x + 4 ≤ size) (h : x % 4 ≠ 0) :
    laneFault size l (x :: os) = some (.align, BitVec.ofNat 64 (1024 * l + x % 1024)) := by
  rw [laneFault, if_neg (by omega), if_pos (by simpa using h), Nat.mul_comm]

/-- The first lane whose offset fails is the fault. -/
theorem laneFault_of_first {size : Nat} {os : List Nat} (l k : Nat) (hk : k < os.length)
    (hpass : ∀ j < k, os.getD j 0 + 4 ≤ size ∧ os.getD j 0 % 4 = 0) :
    laneFault size l os = laneFault size (l + k) (os.getD k 0 :: os.drop (k + 1)) := by
  induction os generalizing l k with
  | nil => contradiction
  | cons x xs ih =>
    cases k with
    | zero => rfl
    | succ k =>
      have hx := hpass 0 (Nat.succ_pos k)
      rw [laneFault_cons_pass (by simpa using hx), ih (l + 1) k (by simpa using hk) (fun j hj => by simpa using hpass (j + 1) (by omega)),
        show l + 1 + k = l + (k + 1) by omega]
      rfl

/-- Lanes with their offsets. -/
theorem range_zip_eq_map (os : List Nat) : (List.range os.length).zip os = (List.range os.length).map (fun l => (l, os.getD l 0)) := by
  apply List.ext_getElem
  · simp
  · intro i h1 h2
    have hi : i < os.length := by simpa using h2
    simp [hi]

/-- The effect of a lane member whose offsets pass. -/
theorem laneEffect_pass {o : LaneOps} {k : List (Nat × Nat) → Thread → State → Except Stop State} {v : Vals} {th : Thread} {s : State}
    (h : LanesPass o th) : laneEffect o k v th s =
      k ((List.range (laneOffsets th o).length).map (fun l => (l, (laneOffsets th o).getD l 0))) th s := by
  simp only [laneEffect, laneFault_of_pass 0 h, range_zip_eq_map]

/-- The words of the lanes. -/
theorem laneWords_eq (o : LaneOps) (th : Thread) (s : State) (ls : List Nat) :
    (ls.map (fun l => (l, (laneOffsets th o).getD l 0))).map (fun x => laneWord s th x.1 x.2) =
      ls.map (fun l => s.load (laneOf o th s l) 4) := by
  rw [List.map_map]
  rfl

theorem storeLanes_cons (th : Thread) (s : State) (x : (Nat × Nat) × Nat) (l : List ((Nat × Nat) × Nat)) :
    storeLanes th s (x :: l) = storeLanes th (s.store (laneAt th (tcore s.cur) x.1.1 x.1.2) 4 x.2) l :=
  List.foldl_cons ..

/-- Words stored lane by lane, at the addresses that the first state names. -/
theorem storeLanes_eq (o : LaneOps) (th : Thread) (s : State) (ls vs : List Nat) :
    storeLanes th s ((ls.map (fun l => (l, (laneOffsets th o).getD l 0))).zip vs) =
      (ls.zip vs).foldl (fun r x => r.store (laneOf o th s x.1) 4 x.2) s := by
  have hcur (r : State) (l : List ((Nat × Nat) × Nat)) (h : r.cur = s.cur) : storeLanes th r l =
      l.foldl (fun r x => r.store (laneAt th (tcore s.cur) x.1.1 x.1.2) 4 x.2) r := by
    induction l generalizing r with
    | nil => rw [storeLanes, List.foldl_nil, List.foldl_nil]
    | cons x xs ih =>
      rw [storeLanes_cons, List.foldl_cons, h, ih _ (by rw [State.store_cur, h])]
  rw [hcur s _ rfl, List.zip_map_left, List.foldl_map]
  rfl

/-- What a lane member traps with at its first failing lane. -/
theorem laneTraps_of {i : Instr} {o : LaneOps} {k : List (Nat × Nat) → Thread → State → Except Stop State} (hx : ∀ s, exec i s = issue i s (laneEffect o k))
    (l : Nat) :
    let fails (th : Thread) : Prop := l < (laneOffsets th o).length ∧
      ∀ j < l, (laneOffsets th o).getD j 0 + 4 ≤ allotment th ∧ (laneOffsets th o).getD j 0 % 4 = 0
    Traps i (fun _ th _ => fails th ∧ allotment th < (laneOffsets th o).getD l 0 + 4) .bounds
      (fun _ th _ => BitVec.ofNat 64 (1024 * l + (laneOffsets th o).getD l 0 % 1024)) ∧
    Traps i (fun _ th _ => fails th ∧ (laneOffsets th o).getD l 0 + 4 ≤ allotment th ∧ (laneOffsets th o).getD l 0 % 4 ≠ 0) .align
      (fun _ th _ => BitVec.ofNat 64 (1024 * l + (laneOffsets th o).getD l 0 % 1024)) := by
  refine ⟨traps_of hx (fun v th s h => ?_), traps_of hx (fun v th s h => ?_)⟩
  · obtain ⟨⟨hl, hpass⟩, hout⟩ := h
    rw [laneEffect, laneFault_of_first 0 l hl hpass, laneFault_bounds hout, Nat.zero_add]
  · obtain ⟨⟨hl, hpass⟩, hin, hal⟩ := h
    rw [laneEffect, laneFault_of_first 0 l hl hpass, laneFault_align hin hal, Nat.zero_add]

/-- Settles O16: lanes in order where every offset passes, else the first that fails. -/
theorem laneSliceResults : Obligations.LaneSliceResults := by
  refine ⟨⟨fun o => ?_, fun o => ?_, fun o => ?_⟩, fun o => ?_, ?_⟩
  · refine effects_of (fun _ => rfl) (fun v th s h => ?_)
    rw [laneEffect_pass h, List.map_map]
    rfl
  · refine effects_of (fun _ => rfl) (fun v th s h => ?_)
    rw [laneEffect_pass h, storeLanes_eq, List.length_map, List.length_range]
  · refine effects_of (fun _ => rfl) (fun v th s h => ?_)
    obtain ⟨hpass, habs⟩ := h
    rw [laneEffect_pass hpass]
    simp only [laneWords_eq, storeLanes_eq, List.length_map, List.length_range, zip_map_eq_zipWith]
    exact if_neg (by simpa using habs)
  · refine traps_of (fun _ => rfl) (fun v th s h => ?_)
    obtain ⟨hpass, hfloat, habs⟩ := h
    rw [laneEffect_pass hpass]
    simp only [laneWords_eq, List.length_map, List.length_range]
    exact if_pos (by rw [hfloat, habs]; rfl)
  · rintro i o (rfl | rfl | rfl)
    · exact laneTraps_of (fun _ => rfl)
    · exact laneTraps_of (fun _ => rfl)
    · exact laneTraps_of (fun _ => rfl)

end Sys2Proof.Machine
end

section
/-!
Curve codes (08): numbers as sums of their bits, digits and axes by their bits, codes and their fields, and what the members that build, read
and order codes answer.
-/

namespace Sys2Proof.Machine

/-! ### Sums of bits -/

/-- The number whose bits below m are given. -/
def bitSum (m : Nat) (p : Nat → Bool) : Nat := ((List.range m).map (fun k => (p k).toNat * 2 ^ k)).sum

theorem bitSum_succ (m : Nat) (p : Nat → Bool) : bitSum (m + 1) p = bitSum m p + (p m).toNat * 2 ^ m := by
  simp [bitSum, List.range_succ]

theorem bitSum_lt (m : Nat) (p : Nat → Bool) : bitSum m p < 2 ^ m := by
  induction m with
  | zero => simp [bitSum]
  | succ m ih =>
    rw [bitSum_succ, pow_succ]
    cases p m <;> simp <;> omega

theorem testBit_bitSum (m : Nat) (p : Nat → Bool) (k : Nat) : (bitSum m p).testBit k = (decide (k < m) && p k) := by
  induction m with
  | zero => simp [bitSum]
  | succ m ih =>
    have hlt := bitSum_lt m p
    rw [bitSum_succ, Nat.mul_comm, Nat.add_comm, Nat.two_pow_add_eq_or_of_lt hlt, Nat.testBit_or, ih, Nat.testBit_two_pow_mul]
    obtain h | h | h := Nat.lt_trichotomy k m
    · simp [h, show ¬ m ≤ k by omega, Nat.lt_succ_of_lt h]
    · subst h
      cases p k <;> simp
    · have hbit : (p m).toNat.testBit (k - m) = false :=
        Nat.testBit_lt_two_pow (lt_of_lt_of_le (b := 2 ^ 1) (Bool.toNat_lt (p m)) (Nat.pow_le_pow_right two_pos (by omega)))
      simp [show ¬ k < m by omega, show ¬ k < m + 1 by omega, hbit]

/-- A number below 2^m is the sum of its bits. -/
theorem bitSum_testBit {m x : Nat} (h : x < 2 ^ m) : bitSum m x.testBit = x := by
  apply Nat.eq_of_testBit_eq
  intro k
  rw [testBit_bitSum]
  by_cases hk : k < m
  · simp [hk]
  · simp [hk, Nat.testBit_lt_two_pow (lt_of_lt_of_le h (Nat.pow_le_pow_right (by decide) (not_lt.mp hk)))]

theorem sum_div_mod_two (m x : Nat) (g : Nat → Nat) :
    ((List.range m).map (fun k => x / 2 ^ g k % 2 * 2 ^ k)).sum = bitSum m (fun k => x.testBit (g k)) := by
  simp only [bitSum, Nat.toNat_testBit]

theorem sum_ite_two_pow (m : Nat) (c : Nat → Prop) [DecidablePred c] :
    ((List.range m).map (fun k => if c k then 2 ^ k else 0)).sum = bitSum m (fun k => decide (c k)) := by
  rw [bitSum]
  congr 2
  funext k
  by_cases h : c k <;> simp [h]

/-! ### Digits and axes (08 R176) -/

/-- Levels of an axis: bit l of axis i is bit l·n + i of the digits. -/
theorem axisOf_eq (n x i m : Nat) : axisOf n x i m = bitSum m (fun l => x.testBit (l * n + i)) := by
  induction m with
  | zero => rfl
  | succ m ih => rw [axisOf, ih, bitSum_succ, Nat.toNat_testBit]

theorem axisVal_eq (n x i : Nat) : axisVal n x i = bitSum (112 / n) (fun l => x.testBit (l * n + i)) := axisOf_eq ..

theorem testBit_axisVal (n x i l : Nat) : (axisVal n x i).testBit l = (decide (l < 112 / n) && x.testBit (l * n + i)) := by
  rw [axisVal_eq, testBit_bitSum]

theorem axisVal_lt (n x i : Nat) : axisVal n x i < 2 ^ (112 / n) := by
  rw [axisVal_eq]
  exact bitSum_lt ..

theorem axisBitsOf_eq (q : Quad) (i : Nat) : axisBitsOf q i = axisVal (codeDim q) (codeDigits q) i := by
  rw [axisBitsOf, axisVal_eq]
  exact sum_div_mod_two _ _ (fun l => l * codeDim q + i)

/-- A sum by levels and axes is one by places. -/
theorem sum_levels (n m : Nat) (g : Nat → Nat) :
    ((List.range m).map (fun l => ((List.range n).map (fun i => g (l * n + i))).sum)).sum = ((List.range (m * n)).map g).sum := by
  induction m with
  | zero => simp
  | succ m ih =>
    rw [List.range_succ, List.map_append, List.sum_append, ih, Nat.succ_mul, List.range_add, List.map_append, List.sum_append]
    simp [Function.comp_def]

/-- Bit k of the digits is bit k / n of axis k mod n. -/
theorem interleaved_eq (n : Nat) (f : Nat → Nat) : interleaved n f = bitSum (112 / n * n) (fun k => (f (k % n)).testBit (k / n)) := by
  rw [interleaved, bitSum, ← sum_levels]
  congr 2
  funext l
  congr 1
  apply List.map_congr_left
  intro i hi
  have hin : i < n := List.mem_range.mp hi
  rw [Nat.mul_comm l n, Nat.mul_add_mod, Nat.mod_eq_of_lt hin, Nat.mul_add_div (by omega), Nat.div_eq_of_lt hin, Nat.add_zero,
    Nat.toNat_testBit]

theorem testBit_interleaved (n : Nat) (f : Nat → Nat) (k : Nat) :
    (interleaved n f).testBit k = (decide (k < 112 / n * n) && (f (k % n)).testBit (k / n)) := by
  rw [interleaved_eq, testBit_bitSum]

theorem interleaved_lt (n : Nat) (f : Nat → Nat) : interleaved n f < 2 ^ (112 / n * n) := by
  rw [interleaved_eq]
  exact bitSum_lt ..

theorem interleaved_congr {n : Nat} {f g : Nat → Nat} (h : ∀ i < n, f i = g i) : interleaved n f = interleaved n g := by
  rw [interleaved, interleaved]
  congr 2
  funext l
  congr 1
  apply List.map_congr_left
  intro i hi
  rw [h i (List.mem_range.mp hi)]

theorem digitsOf_eq {n : Nat} {l : List Nat} : digitsOf n l = interleaved n (fun i => l.getD i 0) := rfl

theorem digitsOf_range_map (n : Nat) (f : Nat → Nat) : digitsOf n ((List.range n).map f) = interleaved n f := by
  rw [digitsOf_eq]
  exact interleaved_congr (fun i hi => by simp [hi])

/-! ### Codes and their fields (08 R176, R177) -/

theorem pow_le_digits (n : Nat) : 2 ^ (112 / n * n) ≤ 2 ^ 112 := Nat.pow_le_pow_right (by decide) (Nat.div_mul_le_self ..)

theorem codeMake_eq {flags dims digits : Nat} (hf : flags < 256) (hd : dims < 16) (hx : digits < 2 ^ 112) :
    codeMake flags dims digits = codeOf flags dims digits := by
  rw [codeMake, codeOf, Nat.mod_eq_of_lt hf, Nat.mod_eq_of_lt hd, Nat.mod_eq_of_lt hx]

theorem bitsOf_ofNat (x lo n : Nat) (h : x < 2 ^ 128) : bitsOf (BitVec.ofNat 128 x) lo n = x / 2 ^ lo % 2 ^ n := by
  rw [bitsOf, BitVec.extractLsb'_toNat, BitVec.toNat_ofNat, Nat.mod_eq_of_lt h, Nat.shiftRight_eq_div_pow]

section
variable {flags dims digits : Nat} (hf : flags < 256) (hd : dims < 16) (hx : digits < 2 ^ 112)
include hf hd hx

theorem codeDigits_codeOf : codeDigits (codeOf flags dims digits) = digits := by
  rw [codeDigits, codeOf, bitsOf_ofNat _ _ _ (by omega)]
  omega

theorem codeDim_codeOf : codeDim (codeOf flags dims digits) = dims := by
  rw [codeDim, codeOf, bitsOf_ofNat _ _ _ (by omega)]
  omega

end

theorem bitsOf_lt (q : Quad) (lo n : Nat) : bitsOf q lo n < 2 ^ n := (q.extractLsb' lo n).isLt

theorem codeDigits_lt (q : Quad) : codeDigits q < 2 ^ 112 := bitsOf_lt ..

/-- What a well-formed code's fields are. -/
theorem codeOk_iff (q : Quad) : codeOk q = true ↔ 2 ≤ codeDim q ∧ codeDim q ≤ 8 ∧ bitsOf q 112 4 = 0 ∧
    codeDigits q < 2 ^ (codeDim q * (112 / codeDim q)) ∧ codeFlags q < 2 ^ codeDim q := by
  simp only [codeOk, Bool.and_eq_true, decide_eq_true_iff, beq_iff_eq, and_assoc]
  exact Iff.rfl

/-! ### The checks of codes (08 R177, R178) -/

theorem curveCheck_good {l : List Quad} (h : GoodCodes l) : curveCheck l = none := by
  obtain ⟨hok, hdim⟩ := h
  rw [curveCheck, if_neg (by simpa using hok), if_neg (by simpa using hdim)]

theorem curveCheck_header {l : List Quad} (h : ∃ q ∈ l, codeOk q = false) : curveCheck l = some .curveHeader :=
  if_pos (by simpa using h)

theorem curveCheck_dim {l : List Quad} (hok : ∀ q ∈ l, codeOk q = true) (hdim : ∃ q ∈ l, codeDim q ≠ codeDim (l.headD 0)) :
    curveCheck l = some .curveDimMismatch := by
  rw [curveCheck, if_neg (by simpa using hok), if_pos (by simpa using hdim)]

/-- A member that reads codes traps with what their check answers. -/
theorem codeTraps_of {i : Instr} {codes : Vals → List Quad} {eff : Effect} (hx : ∀ s, exec i s = issue i s eff)
    (hhead : ∀ v, (codes v).headD 0 = v.a.bits)
    (he : ∀ v th s c, curveCheck (codes v) = some c → eff v th s = .error (.trap c 0)) :
    Traps i (fun v _ _ => ∃ q ∈ codes v, codeOk q = false) .curveHeader (fun _ _ _ => 0) ∧
    Traps i (fun v _ _ => (∀ q ∈ codes v, codeOk q = true) ∧ ∃ q ∈ codes v, codeDim q ≠ codeDim v.a.bits) .curveDimMismatch
      (fun _ _ _ => 0) := by
  refine ⟨traps_of hx (fun v th s h => he v th s _ (curveCheck_header h)), traps_of hx (fun v th s h => he v th s _ ?_)⟩
  obtain ⟨hok, hdim⟩ := h
  exact curveCheck_dim hok (by rwa [hhead])

theorem curveEffect_check {d : Opn} {codes : Vals → List Quad} {k : Vals → Except Code Quad} (v : Vals) (th : Thread) (s : State) (c : Code)
    (h : curveCheck (codes v) = some c) : curveEffect d codes k v th s = .error (.trap c 0) := by
  rw [curveEffect, h]

theorem curveEffect_ok {d : Opn} {codes : Vals → List Quad} {k : Vals → Except Code Quad} {v : Vals} {q : Quad} (th : Thread) (s : State)
    (h : curveCheck (codes v) = none) (hk : k v = .ok q) : curveEffect d codes k v th s = .ok (s.putDest s.cur d (Val.data q)) := by
  rw [curveEffect, h, hk]
  rfl

theorem curveEffect_error {d : Opn} {codes : Vals → List Quad} {k : Vals → Except Code Quad} {v : Vals} {c : Code} (th : Thread) (s : State)
    (h : curveCheck (codes v) = none) (hk : k v = .error c) : curveEffect d codes k v th s = .error (.trap c 0) := by
  rw [curveEffect, h, hk]

theorem codeTraps_of_curveEffect {i : Instr} {d : Opn} {codes : Vals → List Quad} {k : Vals → Except Code Quad}
    (hx : ∀ s, exec i s = issue i s (curveEffect d codes k)) (hhead : ∀ v, (codes v).headD 0 = v.a.bits) :
    Traps i (fun v _ _ => ∃ q ∈ codes v, codeOk q = false) .curveHeader (fun _ _ _ => 0) ∧
    Traps i (fun v _ _ => (∀ q ∈ codes v, codeOk q = true) ∧ ∃ q ∈ codes v, codeDim q ≠ codeDim v.a.bits) .curveDimMismatch
      (fun _ _ _ => 0) :=
  codeTraps_of hx hhead curveEffect_check

theorem curveAdd_axis {sub sgn : Bool} {k : BitVec 3} {e : BitVec 8} {v : Vals} (h : codeDim v.a.bits ≤ k.toNat) :
    curveAdd sub sgn (.step k e) v = .error .curveDimMismatch :=
  if_pos h

theorem codeOrMarker_iff (q : Quad) : (codeOk q || isMarker q) = true ↔ CodeOrMarker q := by
  simp [CodeOrMarker]

theorem curveCompare_header {a b : Quad} (h : ¬ CodeOrMarker a ∨ ¬ CodeOrMarker b) : curveCompare a b = .error .curveHeader := by
  simp only [← codeOrMarker_iff, Bool.not_eq_true] at h
  exact if_pos (by simpa using h)

theorem curveCompare_dim {a b : Quad} (ha : CodeOrMarker a) (hb : CodeOrMarker b) (h : codeDim a ≠ codeDim b) :
    curveCompare a b = .error .curveDimMismatch := by
  rw [← codeOrMarker_iff] at ha hb
  simp [curveCompare, ha, hb, h]

theorem boxTest_header {a b c : Quad} (h : ¬ CodeOrMarker a ∨ codeOk b = false ∨ codeOk c = false) : boxTest a b c = .error .curveHeader := by
  simp only [← codeOrMarker_iff, Bool.not_eq_true] at h
  refine if_pos ?_
  obtain h | h | h := h <;> simp only [h, Bool.not_false, Bool.true_or, Bool.or_true]

theorem boxTest_dim {a b c : Quad} (ha : CodeOrMarker a) (hb : codeOk b = true) (hc : codeOk c = true)
    (h : codeDim b ≠ codeDim a ∨ codeDim c ≠ codeDim a) : boxTest a b c = .error .curveDimMismatch := by
  rw [← codeOrMarker_iff] at ha
  have hdim : (codeDim a != codeDim b || codeDim a != codeDim c) = true := by obtain h | h := h <;> simp [h.symm]
  simp only [boxTest, ha, hb, hc, hdim]
  rfl

/-- Settles O20: each member that reads codes traps with what their check answers, CQCMP and CQINBOX with their own. -/
theorem badCurveCodesTrap : Obligations.BadCurveCodesTrap := by
  refine ⟨?_, fun o => ⟨?_, ?_⟩, fun o => ⟨?_, ?_⟩, fun p d a k sgn => ?_, ?_⟩
  · rintro i codes (⟨p, d, a, k, sgn, rfl, rfl⟩ | ⟨p, d, a, b, sgn, rfl | rfl, rfl⟩ | ⟨p, d, a, k, e, sgn, rfl | rfl, rfl⟩ | ⟨o, rfl, rfl⟩ |
      ⟨p, d, a, m, up, rfl, rfl⟩ | ⟨o, rfl, rfl⟩)
    · exact codeTraps_of_curveEffect (fun _ => rfl) (fun _ => rfl)
    · exact codeTraps_of_curveEffect (fun _ => rfl) (fun _ => rfl)
    · exact codeTraps_of_curveEffect (fun _ => rfl) (fun _ => rfl)
    · exact codeTraps_of_curveEffect (fun _ => rfl) (fun _ => rfl)
    · exact codeTraps_of_curveEffect (fun _ => rfl) (fun _ => rfl)
    · exact codeTraps_of (fun _ => rfl) (fun _ => rfl) (fun v th s c h => by rw [h])
    · exact codeTraps_of_curveEffect (fun _ => rfl) (fun _ => rfl)
    · exact codeTraps_of (fun _ => rfl) (fun _ => rfl) (fun v th s c h => by rw [h])
  · exact traps_of (fun _ => rfl) (fun v th s h => curveEffect_error th s rfl (curveCompare_header h))
  · exact traps_of (fun _ => rfl) (fun v th s h => curveEffect_error th s rfl (curveCompare_dim h.1 h.2.1 h.2.2))
  · exact traps_of (fun _ => rfl) (fun v th s h => curveEffect_error th s rfl (boxTest_header h))
  · exact traps_of (fun _ => rfl) (fun v th s h => curveEffect_error th s rfl (boxTest_dim h.1 h.2.1 h.2.2.1 h.2.2.2))
  · refine traps_of (fun _ => rfl) (fun v th s h => ?_)
    obtain ⟨hgood, hk⟩ := h
    exact curveEffect_error th s (curveCheck_good hgood) (if_pos hk)
  · rintro i k (⟨p, d, a, e, sgn, rfl⟩ | ⟨p, d, a, e, sgn, rfl⟩)
    · exact traps_of (fun _ => rfl) (fun v th s h => curveEffect_error th s (curveCheck_good h.1) (curveAdd_axis h.2))
    · exact traps_of (fun _ => rfl) (fun v th s h => curveEffect_error th s (curveCheck_good h.1) (curveAdd_axis h.2))

/-! ### Building and reading codes (08 R180, R181, R191, R192) -/

theorem flags_lt {n : Nat} (h : n ≤ 8) (p : Nat → Bool) : bitSum n p < 256 :=
  lt_of_lt_of_le (bitSum_lt n p) (Nat.pow_le_pow_right (by decide) h)

theorem interleaved_lt_112 (n : Nat) (f : Nat → Nat) : interleaved n f < 2 ^ 112 := (interleaved_lt n f).trans_le (pow_le_digits n)

theorem codeDim_lt (q : Quad) : codeDim q < 16 := bitsOf_lt ..
theorem codeFlags_lt (q : Quad) : codeFlags q < 256 := bitsOf_lt ..

/-- An axis under `.s`, read as the W-bit number it is. -/
theorem signed_axisVal (n x i : Nat) : signed (112 / n) (axisVal n x i) =
    if 2 ^ (112 / n - 1) ≤ axisVal n x i then (axisVal n x i : Int) - (2 : Int) ^ (112 / n) else axisVal n x i := by
  rw [signed, Nat.mod_eq_of_lt (axisVal_lt n x i)]
  split <;> split <;> omega

theorem axisRead_eq (sgn : Bool) (q : Quad) (i : Nat) :
    (if sgn then signed (112 / codeDim q) (axisVal (codeDim q) (codeDigits q) i) else (axisVal (codeDim q) (codeDigits q) i : Int)) =
      axisRead sgn (112 / codeDim q) (axisBitsOf q i) := by
  rw [axisBitsOf_eq, axisRead, signed_axisVal]
  cases sgn <;> simp

/-- CQEXT's word. -/
theorem extWord_eq (sgn : Bool) (q : Quad) (i : Nat) :
    (if sgn then ofInt 64 (signed (axisBits (codeDim q)) (axisVal (codeDim q) (codeDigits q) i))
      else BitVec.ofNat 64 (axisVal (codeDim q) (codeDigits q) i)) =
    if sgn ∧ 2 ^ (112 / codeDim q - 1) ≤ axisBitsOf q i then BitVec.ofInt 64 ((axisBitsOf q i : Int) - (2 : Int) ^ (112 / codeDim q))
      else BitVec.ofNat 64 (axisBitsOf q i) := by
  rw [axisBits, signed_axisVal, axisBitsOf_eq]
  cases sgn with
  | false => simp
  | true =>
    by_cases h : 2 ^ (112 / codeDim q - 1) ≤ axisVal (codeDim q) (codeDigits q) i
    · simp [h, ofInt]
    · simp [h, ofInt]

theorem div_mul_pow_eq_sub (x k : Nat) : x / 2 ^ k * 2 ^ k = x - x % 2 ^ k := by
  have h := Nat.div_add_mod x (2 ^ k)
  rw [Nat.mul_comm] at h
  omega

/-- CQTRUNC's code. -/
theorem truncCode_eq (q : Quad) (m : Nat) (up : Bool) : truncCode q m up = codeOf (codeFlags q) (codeDim q)
    (if 112 / codeDim q ≤ m then 0 else if up then codeDigits q / 2 ^ (m * codeDim q) else codeDigits q - codeDigits q % 2 ^ (m * codeDim q)) := by
  have hlt : (if 112 / codeDim q ≤ m then 0 else if up then codeDigits q / 2 ^ (m * codeDim q)
      else codeDigits q - codeDigits q % 2 ^ (m * codeDim q)) < 2 ^ 112 := by
    have hx := codeDigits_lt q
    have hd := Nat.div_le_self (codeDigits q) (2 ^ (m * codeDim q))
    split_ifs <;> omega
  rw [← codeMake_eq (codeFlags_lt q) (codeDim_lt q) hlt, truncCode, axisBits, div_mul_pow_eq_sub]

/-- CQPACK's code of n axis values. -/
theorem packCode_eq {n : Nat} (h8 : n ≤ 8) (f : Nat → Nat) :
    codeMake ((List.range n).map (fun i => if 2 ^ axisBits n ≤ ((List.range n).map f).getD i 0 then 2 ^ i else 0)).sum n
      (digitsOf n ((List.range n).map f)) =
    codeOf ((List.range n).map (fun i => if 2 ^ (112 / n) ≤ f i then 2 ^ i else 0)).sum n (interleaved n f) := by
  have hflags : (List.range n).map (fun i => if 2 ^ axisBits n ≤ ((List.range n).map f).getD i 0 then 2 ^ i else 0) =
      (List.range n).map (fun i => if 2 ^ (112 / n) ≤ f i then 2 ^ i else 0) := by
    apply List.map_congr_left
    intro i hi
    have hin : i < n := List.mem_range.mp hi
    simp [hin, axisBits]
  rw [hflags, digitsOf_range_map, sum_ite_two_pow, codeMake_eq (flags_lt h8 _) (by omega) (interleaved_lt_112 n f)]

/-- Settles O17: each code built has its fields in range, each axis read is the sum of its bits. -/
theorem curveCodeResults : Obligations.CurveCodeResults := by
  refine ⟨fun p d a dims h2 h8 => ?_, fun p d a k sgn => ?_, fun p d a dims h2 h8 => ?_, fun p d a m up => ?_, fun o => ?_⟩
  · refine effects_of (fun _ => rfl) (fun v th s _ => ?_)
    exact congrArg (fun q => Except.ok (s.putDest s.cur d (Val.data q)))
      (packCode_eq h8 (fun i => th.groupBits a (axisGroup dims) / 2 ^ (64 * i) % 2 ^ 64))
  · refine effects_of (fun _ => rfl) (fun v th s h => ?_)
    obtain ⟨hgood, hk⟩ := h
    rw [curveEffect_ok th s (curveCheck_good hgood) (if_neg (not_le.mpr hk)), extWord_eq]
    rfl
  · refine effects_of (fun _ => rfl) (fun v th s _ => ?_)
    rw [← codeMake_eq (by decide) (by omega) ((Nat.mod_lt _ (Nat.two_pow_pos _)).trans_le (by rw [Nat.mul_comm]; exact pow_le_digits _))]
    rfl
  · refine effects_of (fun _ => rfl) (fun v th s h => ?_)
    rw [curveEffect_ok th s (curveCheck_good h) rfl]
    exact congrArg (fun q => Except.ok (s.putDest s.cur d (Val.data q))) (truncCode_eq ..)
  · refine effects_of (fun _ => rfl) (fun v th s h => ?_)
    simp only [curveCheck_good h, codeMake_eq (by decide : 0 < 256) (codeDim_lt _) (codeDigits_lt _), beq_iff_eq]

/-! ### Arithmetic and order (08 R182 to R184) -/

theorem testBit_flags {q : Quad} (h : codeFlags q < 2 ^ codeDim q) {k : Nat} (hk : ¬ k < codeDim q) : (codeFlags q).testBit k = false :=
  Nat.testBit_lt_two_pow (h.trans_le (Nat.pow_le_pow_right (by decide) (not_lt.mp hk)))

/-- Flags that were set, joined with those that a result sets. -/
theorem or_flags {n x : Nat} (hx : ∀ k, ¬ k < n → x.testBit k = false) (p : Nat → Bool) :
    x ||| bitSum n p = bitSum n (fun k => p k || x.testBit k) := by
  apply Nat.eq_of_testBit_eq
  intro k
  rw [Nat.testBit_or, testBit_bitSum, testBit_bitSum]
  by_cases hk : k < n
  · simp [hk, Bool.or_comm]
  · simp [hk, hx k hk]

/-- Whether an exact axis does not fit. -/
def axisOut (sgn : Bool) (w : Nat) (x : Int) : Bool :=
  if sgn then decide (x < -(2 : Int) ^ (w - 1)) || decide ((2 : Int) ^ (w - 1) ≤ x) else decide (x < 0) || decide ((2 : Int) ^ w ≤ x)

/-- A code of exact axes: each wrapped modulo 2^W, its flag set where it does not fit or was set. -/
def axisCode (sgn : Bool) (n old : Nat) (v : Nat → Int) : Quad :=
  codeOf (bitSum n (fun i => axisOut sgn (112 / n) (v i) || old.testBit i)) n (interleaved n (fun i => (v i % (2 : Int) ^ (112 / n)).toNat))

theorem axisCode_eq {sgn : Bool} {n old : Nat} {v : Nat → Int} (h8 : n ≤ 8) (hold : ∀ k, ¬ k < n → old.testBit k = false) :
    codeMake (old ||| ((List.range n).map (fun i => if axisOut sgn (axisBits n) (v i) then 2 ^ i else 0)).sum) n
      (digitsOf n ((List.range n).map (fun i => (v i % 2 ^ axisBits n).toNat))) = axisCode sgn n old v := by
  rw [sum_ite_two_pow, or_flags hold, digitsOf_range_map, axisCode, codeMake_eq (flags_lt h8 _) (by omega) (interleaved_lt_112 n _)]
  simp only [Bool.decide_eq_true]
  rfl

theorem axisCode_congr {sgn : Bool} {n old : Nat} {v v' : Nat → Int} (h : ∀ i < n, v i = v' i) :
    axisCode sgn n old v = axisCode sgn n old v' := by
  have hflags : bitSum n (fun i => axisOut sgn (112 / n) (v i) || old.testBit i) = bitSum n (fun i => axisOut sgn (112 / n) (v' i) || old.testBit i) := by
    rw [bitSum, bitSum]
    congr 1
    apply List.map_congr_left
    intro i hi
    rw [h i (List.mem_range.mp hi)]
  rw [axisCode, axisCode, hflags, interleaved_congr (fun i hi => by rw [h i hi])]

/-- Axis i of a code as the model reads it. -/
def axisNum (sgn : Bool) (q : Quad) (i : Nat) : Int :=
  if sgn then signed (axisBits (codeDim q)) (axisVal (codeDim q) (codeDigits q) i) else axisVal (codeDim q) (codeDigits q) i

theorem axisNum_eq (sgn : Bool) (q : Quad) (i : Nat) : axisNum sgn q i = axisRead sgn (112 / codeDim q) (axisBitsOf q i) := axisRead_eq ..

theorem axisSum_eq (sub sgn : Bool) (a b : Quad) : axisSum sub sgn a b = axisCode sgn (codeDim a) (codeFlags a ||| codeFlags b) (fun i =>
    if sub then axisRead sgn (112 / codeDim a) (axisBitsOf a i) - axisRead sgn (112 / codeDim a) (axisBitsOf b i)
    else axisRead sgn (112 / codeDim a) (axisBitsOf a i) + axisRead sgn (112 / codeDim a) (axisBitsOf b i)) := by
  rw [axisSum, axisCode]
  simp only [sum_ite_two_pow, Nat.testBit_or, Bool.or_assoc, Bool.decide_eq_true]
  rfl

theorem axisStep_eq (sub sgn : Bool) (a : Quad) (k : Nat) (delta : Int) : axisStep sub sgn a k delta = axisCode sgn (codeDim a) (codeFlags a)
    (fun i => if sub then axisRead sgn (112 / codeDim a) (axisBitsOf a i) - (if i = k then delta else 0)
      else axisRead sgn (112 / codeDim a) (axisBitsOf a i) + (if i = k then delta else 0)) := by
  rw [axisStep, axisCode]
  simp only [sum_ite_two_pow, Bool.decide_eq_true]
  rfl

theorem curveAdd_reg {sub sgn : Bool} {b : Opn} {v : Vals} (h : GoodCodes [v.a.bits, v.b.bits]) :
    curveAdd sub sgn (.reg b) v = .ok (axisSum sub sgn v.a.bits v.b.bits) := by
  obtain ⟨hok, hdim⟩ := h
  have hbdim : codeDim v.b.bits = codeDim v.a.bits := hdim _ (by simp)
  obtain ⟨h2, h8, -, -, hfa⟩ := (codeOk_iff _).mp (hok v.a.bits (by simp))
  obtain ⟨-, -, -, -, hfb⟩ := (codeOk_iff _).mp (hok v.b.bits (by simp))
  have hold (k : Nat) (hk : ¬ k < codeDim v.a.bits) : (codeFlags v.a.bits ||| codeFlags v.b.bits).testBit k = false := by
    rw [Nat.testBit_or, testBit_flags hfa hk, testBit_flags hfb (by rwa [hbdim]), Bool.or_self]
  have hb (i : Nat) : axisRead sgn (112 / codeDim v.a.bits) (axisBitsOf v.b.bits i) =
      if sgn then signed (axisBits (codeDim v.a.bits)) (axisVal (codeDim v.a.bits) (codeDigits v.b.bits) i)
      else axisVal (codeDim v.a.bits) (codeDigits v.b.bits) i := by
    rw [← hbdim, ← axisNum_eq]
    rfl
  rw [axisSum_eq]
  simp only [← axisNum_eq, hb]
  exact (if_neg (not_le.mpr (show 0 < codeDim v.a.bits by omega))).trans (congrArg Except.ok (axisCode_eq h8 hold))

theorem curveAdd_step {sub sgn : Bool} {k : BitVec 3} {e : BitVec 8} {v : Vals} (h : GoodCodes [v.a.bits]) (hk : k.toNat < codeDim v.a.bits) :
    curveAdd sub sgn (.step k e) v = .ok (axisStep sub sgn v.a.bits k.toNat e.toInt) := by
  obtain ⟨-, h8, -, -, hfa⟩ := (codeOk_iff _).mp (h.1 v.a.bits (by simp))
  have hold (k : Nat) (hk : ¬ k < codeDim v.a.bits) : (codeFlags v.a.bits ||| 0).testBit k = false := by
    rw [Nat.or_zero, testBit_flags hfa hk]
  rw [axisStep_eq]
  simp only [← axisNum_eq]
  rw [← Nat.or_zero (codeFlags v.a.bits)]
  exact (if_neg (not_le.mpr hk)).trans (congrArg Except.ok (axisCode_eq h8 hold))

theorem curveCompare_ok {a b : Quad} (ha : CodeOrMarker a) (hb : CodeOrMarker b) (h : codeDim a = codeDim b) :
    curveCompare a b = .ok (if (if isMarker a then 2 ^ 112 else codeDigits a) < (if isMarker b then 2 ^ 112 else codeDigits b)
      then (BitVec.allOnes 64).setWidth 128
      else if (if isMarker a then 2 ^ 112 else codeDigits a) = (if isMarker b then 2 ^ 112 else codeDigits b) then 0 else 1) := by
  rw [← codeOrMarker_iff] at ha hb
  simp [curveCompare, ha, hb, h]

/-- The word of a comparison, in the order that puts the marker above every code. -/
theorem compareWord_eq (a b : Quad) :
    Val.data (if (if isMarker a then 2 ^ 112 else codeDigits a) < (if isMarker b then 2 ^ 112 else codeDigits b)
      then (BitVec.allOnes 64).setWidth 128
      else if (if isMarker a then 2 ^ 112 else codeDigits a) = (if isMarker b then 2 ^ 112 else codeDigits b) then 0 else 1) =
    Val.ofWord (if ((isMarker b && !isMarker a) || (!isMarker a && !isMarker b && decide (codeDigits a < codeDigits b))) = true
      then BitVec.ofInt 64 (-1)
      else if ((isMarker a && isMarker b) || (!isMarker a && !isMarker b && codeDigits a == codeDigits b)) = true then 0 else 1) := by
  have hda := codeDigits_lt a
  have hdb := codeDigits_lt b
  cases isMarker a with
  | true =>
    cases isMarker b with
    | true => simp [Val.ofWord, Val.data]
    | false =>
      simp only [if_true, Bool.false_eq_true, if_false]
      rw [if_neg (not_lt.mpr hdb.le), if_neg hdb.ne']
      rfl
  | false =>
    cases isMarker b with
    | true =>
      simp only [if_true, Bool.false_eq_true, if_false]
      rw [if_pos hda]
      rfl
    | false =>
      simp only [Bool.false_eq_true, if_false, Bool.not_false, Bool.and_true, Bool.true_and, Bool.false_or, Bool.false_and, decide_eq_true_iff,
        beq_iff_eq]
      split_ifs
      · rfl
      · rfl
      · rfl

theorem axisVal_le_iff {q r : Quad} {n i : Nat} (hq : codeDim q = n) (hr : codeDim r = n) :
    axisVal n (codeDigits q) i ≤ axisVal n (codeDigits r) i ↔ axisBitsOf q i ≤ axisBitsOf r i := by
  rw [axisBitsOf_eq, axisBitsOf_eq, hq, hr]

theorem inBox_iff {n : Nat} {lo hi x : Quad} (hx : codeDim x = n) (hlo : codeDim lo = n) (hhi : codeDim hi = n) :
    inBox n (codeDigits lo) (codeDigits hi) (codeDigits x) = true ↔ WithinBox lo hi x := by
  simp only [inBox, List.all_eq_true, List.mem_range, Bool.and_eq_true, decide_eq_true_eq, WithinBox, hx, axisVal_le_iff hlo hx,
    axisVal_le_iff hx hhi]

theorem boxTest_ok {a b c : Quad} (ha : CodeOrMarker a) (hb : codeOk b = true) (hc : codeOk c = true) (hab : codeDim a = codeDim b)
    (hac : codeDim a = codeDim c) : boxTest a b c =
      .ok (if (!isMarker a && inBox (codeDim a) (codeDigits b) (codeDigits c) (codeDigits a)) = true then 1 else 0) := by
  rw [← codeOrMarker_iff] at ha
  simp only [boxTest, ha, hb, hc, ← hab, ← hac]
  simp

/-- Settles O18: sums axis by axis, comparison by digits, the box by its axes. -/
theorem curveArithmeticAndOrderResults : Obligations.CurveArithmeticAndOrderResults := by
  refine ⟨⟨fun p d a b sgn => ?_, fun p d a b sgn => ?_, fun p d a k e sgn => ?_, fun p d a k e sgn => ?_⟩, fun o => ?_, fun o s th hr => ?_⟩
  · exact effects_of (fun _ => rfl) (fun v th s h => curveEffect_ok th s (curveCheck_good h) (curveAdd_reg h))
  · exact effects_of (fun _ => rfl) (fun v th s h => curveEffect_ok th s (curveCheck_good h) (curveAdd_reg h))
  · exact effects_of (fun _ => rfl) (fun v th s h => curveEffect_ok th s (curveCheck_good h.1) (curveAdd_step h.1 h.2))
  · exact effects_of (fun _ => rfl) (fun v th s h => curveEffect_ok th s (curveCheck_good h.1) (curveAdd_step h.1 h.2))
  · refine effects_of (fun _ => rfl) (fun v th s h => ?_)
    obtain ⟨ha, hb, hdim⟩ := h
    rw [curveEffect_ok th s rfl (curveCompare_ok ha hb hdim), compareWord_eq]
  · intro v ha hb hc hab hac
    have hexec := exec_goes hr (i := .cqinbox o) rfl (curveEffect_ok th (s.begun th (.cqinbox o)) rfl (boxTest_ok ha hb hc hab hac))
    rw [begun_cur] at hexec
    have hbox := inBox_iff (rfl : codeDim v.a.bits = _) hab.symm hac.symm
    by_cases h : isMarker v.a.bits = false ∧ WithinBox v.b.bits v.c.bits v.a.bits
    · refine ⟨1, .inl ⟨h.1, h.2, rfl⟩, ?_⟩
      rw [hexec, if_pos (by rw [h.1, hbox.mpr h.2]; rfl)]
      rfl
    · refine ⟨0, .inr ⟨h, rfl⟩, ?_⟩
      rw [hexec, if_neg (by rw [Bool.and_eq_true, Bool.not_eq_true', hbox]; exact h)]
      rfl

end Sys2Proof.Machine
end

section
/-!
The next code of a box (08 R185): codes are ordered as their axes are, the codes after one fall into blocks, each a box of axis values, and
the first block that meets the box gives the least code.
-/

namespace Sys2Proof.Machine

/-! ### Order by the highest bit that differs -/

theorem exists_top_difference {x y : Nat} (h : y < x) :
    ∃ k, y.testBit k = false ∧ x.testBit k = true ∧ ∀ j, k < j → x.testBit j = y.testBit j := by
  have hne : x ^^^ y ≠ 0 := by simpa [Nat.xor_eq_zero_iff] using h.ne'
  obtain ⟨k, hk, habove⟩ := Nat.exists_most_significant_bit hne
  have heq (j : Nat) (hj : k < j) : x.testBit j = y.testBit j := by simpa [Nat.testBit_xor] using habove j hj
  have hdiff : x.testBit k ≠ y.testBit k := by simpa [Nat.testBit_xor] using hk
  cases hx : x.testBit k with
  | true => exact ⟨k, by simpa [hx] using hdiff, hx, heq⟩
  | false =>
    have hy : y.testBit k = true := by simpa [hx] using hdiff
    exact absurd (Nat.lt_of_testBit k hx hy heq) (by omega)

/-- Codes of the same bits from place j on are in the same block of 2^j. -/
theorem div_pow_eq_iff (x y j : Nat) : x / 2 ^ j = y / 2 ^ j ↔ ∀ k, j ≤ k → x.testBit k = y.testBit k := by
  constructor
  · intro h k hk
    obtain ⟨d, rfl⟩ := Nat.exists_eq_add_of_le hk
    rw [Nat.add_comm, ← Nat.testBit_div_two_pow, ← Nat.testBit_div_two_pow, h]
  · intro h
    apply Nat.eq_of_testBit_eq
    intro i
    rw [Nat.testBit_div_two_pow, Nat.testBit_div_two_pow, h _ (by omega)]

/-- The values that agree with v above f bits. -/
theorem div_pow_eq_iff_span (v x f : Nat) : x / 2 ^ f = v / 2 ^ f ↔ v / 2 ^ f * 2 ^ f ≤ x ∧ x ≤ v / 2 ^ f * 2 ^ f + (2 ^ f - 1) := by
  have hpos := Nat.two_pow_pos f
  rw [Nat.div_eq_iff hpos]
  generalize v / 2 ^ f = q
  generalize 2 ^ f = m at hpos ⊢
  have : (q + 1) * m = q * m + m := Nat.succ_mul ..
  constructor
  · rintro ⟨h1, h2⟩
    constructor <;> omega
  · rintro ⟨h1, h2⟩
    constructor <;> omega

theorem inBox_apply {n lo hi x i : Nat} (h : inBox n lo hi x = true) (hi' : i < n) :
    axisVal n lo i ≤ axisVal n x i ∧ axisVal n x i ≤ axisVal n hi i := by
  simpa using List.all_eq_true.mp h i (List.mem_range.mpr hi')

/-! ### Codes and their axes -/

section
variable {n : Nat} (hn : 0 < n)
include hn

theorem level_lt_iff {k : Nat} : k < 112 / n * n ↔ k / n < 112 / n := (Nat.div_lt_iff_lt_mul hn).symm

/-- A code is the digits of its axes. -/
theorem interleaved_axisVal {x : Nat} (hx : x < 2 ^ (112 / n * n)) : interleaved n (axisVal n x) = x := by
  apply Nat.eq_of_testBit_eq
  intro k
  rw [testBit_interleaved, testBit_axisVal, Nat.div_add_mod']
  by_cases hk : k < 112 / n * n
  · simp [hk, (level_lt_iff hn).mp hk]
  · simp [hk, Nat.testBit_lt_two_pow (hx.trans_le (Nat.pow_le_pow_right two_pos (not_lt.mp hk)))]

/-- The axes of digits are those they were made of. -/
theorem axisVal_interleaved {f : Nat → Nat} {i : Nat} (hi : i < n) (hf : f i < 2 ^ (112 / n)) : axisVal n (interleaved n f) i = f i := by
  apply Nat.eq_of_testBit_eq
  intro l
  have hdiv : (l * n + i) / n = l := by rw [Nat.mul_comm, Nat.mul_add_div hn, Nat.div_eq_of_lt hi, Nat.add_zero]
  have hmod : (l * n + i) % n = i := by rw [Nat.mul_comm, Nat.mul_add_mod, Nat.mod_eq_of_lt hi]
  rw [testBit_axisVal, testBit_interleaved, hdiv, hmod]
  by_cases hl : l < 112 / n
  · simp [hl, (level_lt_iff hn).mpr (by rw [hdiv]; exact hl)]
  · simp [hl, Nat.testBit_lt_two_pow (hf.trans_le (Nat.pow_le_pow_right two_pos (not_lt.mp hl)))]

/-- Codes are ordered at least as their axes are. -/
theorem le_of_axes_le {x y : Nat} (hx : x < 2 ^ (112 / n * n)) (h : ∀ i < n, axisVal n x i ≤ axisVal n y i) : x ≤ y := by
  by_contra hlt
  obtain ⟨k, hyk, hxk, habove⟩ := exists_top_difference (not_le.mp hlt)
  have hk : k < 112 / n * n := by
    by_contra hk
    rw [Nat.testBit_lt_two_pow (hx.trans_le (Nat.pow_le_pow_right two_pos (not_lt.mp hk)))] at hxk
    contradiction
  have hlevel := (level_lt_iff hn).mp hk
  have hplace : k / n * n + k % n = k := Nat.div_add_mod' ..
  have haxis : axisVal n y (k % n) < axisVal n x (k % n) := by
    apply Nat.lt_of_testBit (k / n)
    · rw [testBit_axisVal, hplace, hyk, Bool.and_false]
    · rw [testBit_axisVal, hplace, hxk]
      simpa using hlevel
    · intro l hl
      rw [testBit_axisVal, testBit_axisVal, habove]
      have hmul : (k / n + 1) * n ≤ l * n := Nat.mul_le_mul_right n hl
      rw [Nat.succ_mul] at hmul
      have := Nat.mod_lt k hn
      omega
  exact absurd (h (k % n) (Nat.mod_lt k hn)) (not_le.mpr haxis)

/-! ### Blocks of codes as boxes of axis values -/

/-- The number of free bits of axis i in a block of 2^j codes. -/
def freeBits (n j i : Nat) : Nat := (j + n - 1 - i) / n

theorem freeBits_le_iff {j i l : Nat} (hi : i < n) : freeBits n j i ≤ l ↔ j ≤ l * n + i := by
  rw [freeBits, ← Nat.lt_succ_iff, Nat.div_lt_iff_lt_mul hn, Nat.succ_mul]
  omega

/-- Codes of one block have the same axes above the free bits. -/
theorem axisVal_div_of_block {p y j i : Nat} (hi : i < n) (h : y / 2 ^ j = p / 2 ^ j) :
    axisVal n y i / 2 ^ freeBits n j i = axisVal n p i / 2 ^ freeBits n j i := by
  rw [div_pow_eq_iff] at h ⊢
  intro l hl
  rw [testBit_axisVal, testBit_axisVal, h _ ((freeBits_le_iff hn hi).mp hl)]

/-- Axis values that agree above the free bits make a code of the block. -/
theorem interleaved_div_of_block {p j : Nat} {f : Nat → Nat} (hp : p < 2 ^ (112 / n * n))
    (h : ∀ i < n, f i / 2 ^ freeBits n j i = axisVal n p i / 2 ^ freeBits n j i) : interleaved n f / 2 ^ j = p / 2 ^ j := by
  rw [div_pow_eq_iff]
  intro k hk
  have hi := Nat.mod_lt k hn
  have hplace : k / n * n + k % n = k := Nat.div_add_mod' ..
  rw [testBit_interleaved]
  by_cases hkb : k < 112 / n * n
  · have hlevel : freeBits n j (k % n) ≤ k / n := (freeBits_le_iff hn hi).mpr (by rw [hplace]; exact hk)
    rw [(div_pow_eq_iff ..).mp (h _ hi) _ hlevel, testBit_axisVal, hplace]
    simp [hkb, (level_lt_iff hn).mp hkb]
  · simp [hkb, Nat.testBit_lt_two_pow (hp.trans_le (Nat.pow_le_pow_right two_pos (not_lt.mp hkb)))]

/-- A block that holds a code of the box. -/
theorem someIn_of_mem {lo hi p j y : Nat} (hy : y / 2 ^ j = p / 2 ^ j) (hbox : inBox n lo hi y = true) : someIn n lo hi p j = true := by
  refine List.all_eq_true.mpr (fun i hi => ?_)
  have hin := List.mem_range.mp hi
  obtain ⟨h1, h2⟩ := (div_pow_eq_iff_span _ _ _).mp (axisVal_div_of_block hn hin hy)
  obtain ⟨h3, h4⟩ := inBox_apply hbox hin
  exact decide_eq_true (max_le (le_min (h1.trans h2) (h1.trans h4)) (le_min (h3.trans h2) (h3.trans h4)))

/-- The least axis values of a block in a box. -/
def leastAxis (n lo p j i : Nat) : Nat := max (axisSpan n p j i).1 (axisVal n lo i)

/-- Where a block meets the box, its least code there: the least on every axis. -/
theorem leastAxis_spec {lo hi p j : Nat} (hp : p < 2 ^ (112 / n * n)) (h : someIn n lo hi p j = true) :
    interleaved n (leastAxis n lo p j) / 2 ^ j = p / 2 ^ j ∧ inBox n lo hi (interleaved n (leastAxis n lo p j)) = true ∧
      ∀ y, y / 2 ^ j = p / 2 ^ j → inBox n lo hi y = true → interleaved n (leastAxis n lo p j) ≤ y := by
  have hspan (i : Nat) (hi' : i < n) : leastAxis n lo p j i ≤ (axisSpan n p j i).1 + (axisSpan n p j i).2 ∧
      leastAxis n lo p j i ≤ axisVal n hi i :=
    le_min_iff.mp (of_decide_eq_true (List.all_eq_true.mp h i (List.mem_range.mpr hi')))
  have haxis (i : Nat) (hi' : i < n) : axisVal n (interleaved n (leastAxis n lo p j)) i = leastAxis n lo p j i :=
    axisVal_interleaved hn hi' ((hspan i hi').2.trans_lt (axisVal_lt ..))
  refine ⟨interleaved_div_of_block hn hp (fun i hi' => ?_), List.all_eq_true.mpr (fun i hi' => ?_), fun y hy hbox => ?_⟩
  · exact (div_pow_eq_iff_span _ _ _).mpr ⟨le_max_left .., (hspan i hi').1⟩
  · have hin := List.mem_range.mp hi'
    rw [haxis i hin]
    simpa using ⟨le_max_right .., (hspan i hin).2⟩
  · refine le_of_axes_le hn (interleaved_lt ..) (fun i hi' => ?_)
    rw [haxis i hi']
    exact max_le ((div_pow_eq_iff_span _ _ _).mp (axisVal_div_of_block hn hi' hy)).1 (inBox_apply hbox hi').1

end

/-! ### The blocks after a code -/

/-- The codes of the block that sets bit j of x. -/
def InBlock (x j y : Nat) : Prop := y / 2 ^ j = x / 2 ^ j + 1

theorem div_pow_succ (x j : Nat) : x / 2 ^ (j + 1) = x / 2 ^ j / 2 := by
  rw [pow_succ, Nat.div_div_eq_div_mul]

/-- A later code lies in the block of the highest bit in which it differs. -/
theorem exists_inBlock {x y : Nat} (h : x < y) : ∃ j, x / 2 ^ j % 2 = 0 ∧ InBlock x j y := by
  obtain ⟨j, hx, hy, habove⟩ := exists_top_difference h
  have hhigh : y / 2 ^ (j + 1) = x / 2 ^ (j + 1) := (div_pow_eq_iff ..).mpr (fun k hk => habove k hk)
  rw [div_pow_succ, div_pow_succ] at hhigh
  have hxbit : x / 2 ^ j % 2 = 0 := by rw [← Nat.toNat_testBit, hx]; rfl
  have hybit : y / 2 ^ j % 2 = 1 := by rw [← Nat.toNat_testBit, hy]; rfl
  exact ⟨j, hxbit, by rw [InBlock]; omega⟩

theorem InBlock.lt {x j y : Nat} (h : InBlock x j y) : x < y := by
  by_contra hle
  have := Nat.div_le_div_right (c := 2 ^ j) (not_lt.mp hle)
  rw [InBlock] at h
  omega

/-- Blocks of higher bits come later. -/
theorem InBlock.lt_of_lt {x j k y z : Nat} (hz : InBlock x j z) (hy : InBlock x k y) (hbit : x / 2 ^ j % 2 = 0) (hjk : j < k) : z < y := by
  have hsame : z / 2 ^ k = x / 2 ^ k := by
    obtain ⟨d, rfl⟩ := Nat.exists_eq_add_of_lt hjk
    have hhigh : z / 2 ^ (j + 1) = x / 2 ^ (j + 1) := by
      rw [InBlock] at hz
      rw [div_pow_succ, div_pow_succ]
      omega
    rw [show j + d + 1 = (j + 1) + d by omega, pow_add, ← Nat.div_div_eq_div_mul, ← Nat.div_div_eq_div_mul, hhigh]
  by_contra hle
  have := Nat.div_le_div_right (c := 2 ^ k) (not_lt.mp hle)
  rw [InBlock] at hy
  omega

/-- The first code of the block. -/
theorem blockStart_div (x j : Nat) : (x / 2 ^ j * 2 ^ j + 2 ^ j) / 2 ^ j = x / 2 ^ j + 1 := by
  rw [← Nat.succ_mul, Nat.mul_div_cancel _ (Nat.two_pow_pos j)]

theorem inBlock_iff (x j y : Nat) : InBlock x j y ↔ y / 2 ^ j = (x / 2 ^ j * 2 ^ j + 2 ^ j) / 2 ^ j := by
  rw [blockStart_div, InBlock]

theorem blockStart_lt {x j m : Nat} (hx : x < 2 ^ m) (hj : j < m) (hbit : x / 2 ^ j % 2 = 0) : x / 2 ^ j * 2 ^ j + 2 ^ j < 2 ^ m := by
  obtain ⟨d, rfl⟩ := Nat.exists_eq_add_of_lt hj
  have hpow : 2 ^ (j + d + 1) = 2 * 2 ^ d * 2 ^ j := by ring
  have hdiv : x / 2 ^ j < 2 * 2 ^ d := by
    rw [Nat.div_lt_iff_lt_mul (Nat.two_pow_pos j), ← hpow]
    exact hx
  rw [← Nat.succ_mul, hpow]
  exact Nat.mul_lt_mul_of_pos_right (by omega) (Nat.two_pow_pos j)

/-- The place of a bit that a code has set lies below its length. -/
theorem InBlock.place_lt {x j y m : Nat} (h : InBlock x j y) (hy : y < 2 ^ m) : j < m := by
  by_contra hle
  have hzero : y / 2 ^ j = 0 := Nat.div_eq_of_lt (hy.trans_le (Nat.pow_le_pow_right two_pos (not_lt.mp hle)))
  rw [InBlock, hzero] at h
  exact absurd h (Nat.succ_ne_zero _).symm

/-- Which later block is found first. -/
theorem find_laterBlocks_eq_some {bits x : Nat} {p : Nat × Nat → Bool} {b : Nat × Nat} (h : (laterBlocks bits x).find? p = some b) :
    ∃ j, b = (x / 2 ^ j * 2 ^ j + 2 ^ j, j) ∧ j < bits ∧ x / 2 ^ j % 2 = 0 ∧ p b = true ∧
      ∀ k < j, x / 2 ^ k % 2 = 0 → p (x / 2 ^ k * 2 ^ k + 2 ^ k, k) = false := by
  rw [laterBlocks, List.find?_map, List.find?_filter] at h
  obtain ⟨j, hj, rfl⟩ := Option.map_eq_some_iff.mp h
  obtain ⟨hp, hmem, hleast⟩ := List.find?_range_eq_some.mp hj
  simp at hp
  refine ⟨j, rfl, List.mem_range.mp hmem, hp.1, hp.2, fun k hk hbit => ?_⟩
  simpa [hbit] using hleast k hk

theorem find_laterBlocks_eq_none {bits x : Nat} {p : Nat × Nat → Bool} (h : (laterBlocks bits x).find? p = none) {j : Nat} (hj : j < bits)
    (hbit : x / 2 ^ j % 2 = 0) : p (x / 2 ^ j * 2 ^ j + 2 ^ j, j) = false := by
  rw [List.find?_eq_none] at h
  have hmem : (x / 2 ^ j * 2 ^ j + 2 ^ j, j) ∈ laterBlocks bits x := by
    simp only [laterBlocks, List.mem_map, List.mem_filter, List.mem_range, beq_iff_eq]
    exact ⟨j, ⟨hj, hbit⟩, rfl⟩
  simpa using h _ hmem

/-! ### The least code of the box at or after x (08 R185) -/

/-- x is a code of the box from y on, and no code of the box lies between. -/
def LeastFrom (n lo hi y x : Nat) : Prop :=
  x < 2 ^ (112 / n * n) ∧ y ≤ x ∧ inBox n lo hi x = true ∧ ∀ z, y ≤ z → z < x → inBox n lo hi z = false

/-- The first block that meets the box holds its least code. -/
theorem leastFrom_of_block {n lo hi x j : Nat} (hn : 0 < n) (hx : x < 2 ^ (112 / n * n)) (hout : inBox n lo hi x = false)
    (hj : j < 112 / n * n) (hbit : x / 2 ^ j % 2 = 0) (hsome : someIn n lo hi (x / 2 ^ j * 2 ^ j + 2 ^ j) j = true)
    (hfirst : ∀ k < j, x / 2 ^ k % 2 = 0 → someIn n lo hi (x / 2 ^ k * 2 ^ k + 2 ^ k) k = false) :
    LeastFrom n lo hi x (interleaved n (leastAxis n lo (x / 2 ^ j * 2 ^ j + 2 ^ j) j)) := by
  obtain ⟨hblock, hbox, hleast⟩ := leastAxis_spec hn (blockStart_lt hx hj hbit) hsome
  rw [← inBlock_iff] at hblock
  refine ⟨interleaved_lt .., hblock.lt.le, hbox, fun z hxz hz => ?_⟩
  by_contra hzbox
  rw [Bool.not_eq_false] at hzbox
  have hne : x ≠ z := fun h => by simp [h, hzbox] at hout
  obtain ⟨k, hkbit, hkblock⟩ := exists_inBlock (lt_of_le_of_ne hxz hne)
  have hmeets := someIn_of_mem hn ((inBlock_iff ..).mp hkblock) hzbox
  obtain hkj | rfl | hjk := Nat.lt_trichotomy k j
  · rw [hfirst k hkj hkbit] at hmeets
    contradiction
  · exact absurd (hleast z ((inBlock_iff ..).mp hkblock) hzbox) (not_le.mpr hz)
  · exact absurd (hblock.lt_of_lt hkblock hbit hjk) (not_lt.mpr hz.le)

/-- Without such a block no later code is in the box. -/
theorem none_of_no_block {n lo hi x : Nat} (hn : 0 < n) (hout : inBox n lo hi x = false)
    (hno : ∀ j < 112 / n * n, x / 2 ^ j % 2 = 0 → someIn n lo hi (x / 2 ^ j * 2 ^ j + 2 ^ j) j = false) {z : Nat} (hxz : x ≤ z)
    (hz : z < 2 ^ (112 / n * n)) : inBox n lo hi z = false := by
  by_contra hzbox
  rw [Bool.not_eq_false] at hzbox
  have hne : x ≠ z := fun h => by simp [h, hzbox] at hout
  obtain ⟨k, hkbit, hkblock⟩ := exists_inBlock (lt_of_le_of_ne hxz hne)
  have hmeets := someIn_of_mem hn ((inBlock_iff ..).mp hkblock) hzbox
  rw [hno k (hkblock.place_lt hz) hkbit] at hmeets
  contradiction

/-- What nextIn answers. -/
theorem nextIn_spec {n lo hi x : Nat} (hn : 0 < n) (hx : x < 2 ^ (112 / n * n)) :
    match nextIn n lo hi x with
    | some z => LeastFrom n lo hi x z
    | none => ∀ z, x ≤ z → z < 2 ^ (112 / n * n) → inBox n lo hi z = false := by
  have hbits : n * axisBits n = 112 / n * n := Nat.mul_comm ..
  rw [nextIn, hbits, if_neg (not_le.mpr hx)]
  cases hin : inBox n lo hi x with
  | true => exact ⟨hx, le_rfl, hin, fun z h1 h2 => absurd h1 (not_le.mpr h2)⟩
  | false =>
    cases hfind : (laterBlocks (112 / n * n) x).find? (fun b => someIn n lo hi b.1 b.2) with
    | some b =>
      obtain ⟨j, rfl, hj, hbit, hsome, hfirst⟩ := find_laterBlocks_eq_some hfind
      dsimp only
      rw [digitsOf_range_map]
      exact leastFrom_of_block hn hx hin hj hbit hsome hfirst
    | none => exact fun z hxz hz => none_of_no_block hn hin (fun j hj hbit => find_laterBlocks_eq_none hfind hj hbit) hxz hz

/-- A code of given digits is in a box as its digits are. -/
theorem withinBox_codeOf {lo hi : Quad} {n x : Nat} (hn : n < 16) (hlo : codeDim lo = n) (hhi : codeDim hi = n) (hx : x < 2 ^ (112 / n * n)) :
    WithinBox lo hi (codeOf 0 n x) ↔ inBox n (codeDigits lo) (codeDigits hi) x = true := by
  have hx' : x < 2 ^ 112 := hx.trans_le (pow_le_digits n)
  rw [← inBox_iff (codeDim_codeOf (by decide) hn hx') hlo hhi, codeDigits_codeOf (by decide) hn hx']

/-- Settles O19: CQNEXT defers what nextIn finds. -/
theorem nextCodeIsTheLeastInTheBox : Obligations.NextCodeIsTheLeastInTheBox := by
  intro o s th hr v n hgood
  have hdim (q : Quad) (hq : q ∈ [v.a.bits, v.b.bits, v.c.bits]) : codeDim q = n := hgood.2 q hq
  obtain ⟨h2, h8, -, hdigits, -⟩ := (codeOk_iff _).mp (hgood.1 v.a.bits (by simp))
  rw [Nat.mul_comm] at hdigits
  have hspec := nextIn_spec (lo := codeDigits v.b.bits) (hi := codeDigits v.c.bits) (by omega) hdigits
  have hwithin {x : Nat} (hx : x < 2 ^ (112 / n * n)) :=
    withinBox_codeOf (n := n) (by omega) (hdim v.b.bits (by simp)) (hdim v.c.bits (by simp)) hx
  have hexec : exec (.cqnext o) s = .next ((s.begun th (.cqnext o)).deferResult s.cur [o.d]
      [Val.data (nextCode v.a.bits v.b.bits v.c.bits)] Flags.none o.la) := by
    have heff := exec_goes (i := .cqnext o) hr rfl (s' := (s.begun th (.cqnext o)).deferResult (s.begun th (.cqnext o)).cur [o.d]
      [Val.data (nextCode v.a.bits v.b.bits v.c.bits)] Flags.none o.la) (by
        rw [curveCheck_good hgood])
    rwa [begun_cur] at heff
  refine ⟨nextCode v.a.bits v.b.bits v.c.bits, ?_, hexec⟩
  rw [nextCode]
  rw [Nat.mul_comm n]
  revert hspec
  cases nextIn (codeDim v.a.bits) (codeDigits v.b.bits) (codeDigits v.c.bits) (codeDigits v.a.bits) with
  | some x =>
    rintro ⟨hlt, hle, hbox, hleast⟩
    refine .inl ⟨x, codeMake_eq (by decide) (codeDim_lt _) (hlt.trans_le (pow_le_digits _)), hlt, hle, (hwithin hlt).mpr hbox, fun y hy hyx => ?_⟩
    rw [hwithin (hyx.trans hlt), hleast y hy hyx]
    exact Bool.false_ne_true
  | none =>
    intro hnone
    refine .inr ⟨rfl, fun y hy hlt => ?_⟩
    rw [hwithin hlt, hnone y hy hlt]
    exact Bool.false_ne_true

end Sys2Proof.Machine
end

section
/-!
Accesses at their issue (05 R106, 10 R231, 11 R253 to R270): the checks as lists whose first failure decides, what a stopped access leaves,
and the travel of a task before its access.
-/

namespace Sys2Proof.Machine

/-! ### Checks as lists -/

theorem firstFailure_append (l m : List (Bool × Code)) : firstFailure (l ++ m) = (firstFailure l).or (firstFailure m) := by
  induction l with
  | nil => rfl
  | cons x l ih => cases h : x.1 <;> simp [firstFailure, h, ih]

theorem mem_of_firstFailure {l : List (Bool × Code)} {c : Code} (h : firstFailure l = some c) : (true, c) ∈ l := by
  induction l with
  | nil => cases h
  | cons x l ih =>
    obtain ⟨fails, d⟩ := x
    cases fails with
    | false => exact List.mem_cons_of_mem _ (ih h)
    | true => cases h; exact List.mem_cons_self

/-- The checks of a capability, in order (05 R106). -/
def capRules (v : Val) (need : BitVec 12) (addr n align : Nat) : List (Bool × Code) :=
  [(v.tag == false, .tag), (capKind v.bits != 0, .sealed), (!grants (capPerms v.bits) need, .perm),
   (decide ((addr : Int) < capBase v.bits) || decide (capTop v.bits < ((addr + n : Nat) : Int)), .bounds), (addr % align != 0, .align)]

theorem capCheck_eq (v : Val) (need : BitVec 12) (addr n align : Nat) :
    capCheck v need addr n align = firstFailure (capRules v need addr n align) := by
  simp [capCheck, capRules, firstFailure]

/-- The checks of an address, in order (10 R231). -/
def regionRules (s : State) (sup : Bool) (ranges : List Quad) (w : Want) (va : Word) (n : Nat) : List (Bool × Code) :=
  [(!regionOk s va n, .region),
   (selector va == 0xF8 && (!w.peer || decide (32 < n) || !(tget s.dev.ppstat (va56 va / 2 ^ 53) 0).getLsbD 0), .region),
   (selector va == 0xFC && (!w.host || decide (32 < n)), .region),
   ((selector va == 0xF3 || (selector va == 0xFC && va.getLsbD 55)) && !sup, .privilege),
   (!leased ranges w.lease va n, .lease), (selector va == 0 && !w.view && viewMeets s (va56 va) n, .viewReadonly)]

theorem regionCheck_eq (s : State) (sup : Bool) (ranges : List Quad) (w : Want) (va : Word) (n : Nat) :
    regionCheck s sup ranges w va n = firstFailure (regionRules s sup ranges w va n) := rfl

theorem accessCheck_eq (s : State) (th : Thread) (v : Val) (w : Want) (va : Word) (n align : Nat) :
    accessCheck s th v w va n align =
      firstFailure (capRules v (withSy w.need va) va.toNat n align ++ regionRules s th.sup th.ranges w va n) := by
  rw [firstFailure_append, ← capCheck_eq, ← regionCheck_eq]
  unfold accessCheck
  cases capCheck v (withSy w.need va) va.toNat n align <;> rfl

/-! ### Views (10 R244 to R246) -/

/-- Where one of the ranges of a valid window begins or ends. -/
def windowEnds (s : State) : List Nat :=
  ((s.windows.filter windowValid).map (fun w => [w.base.toNat, storedEnd w, w.view.toNat, viewEnd w])).flatten

theorem inRange_succ {lo hi p : Nat} (h1 : p + 1 ≠ lo) (h2 : p + 1 ≠ hi) :
    (lo ≤ p + 1 ↔ lo ≤ p) ∧ (p + 1 < hi ↔ p < hi) := by omega

/-- A window that does not begin or end at an address holds it as it holds the one before. -/
theorem inWindow_succ {s : State} {p : Nat} (hp : p + 1 ∉ windowEnds s) {w : FormatWindow} (hw : w ∈ s.windows) :
    inView w (p + 1) = inView w p ∧ inStored w (p + 1) = inStored w p := by
  cases hv : windowValid w with
  | false => simp [inView, inStored, hv]
  | true =>
    have hends : ∀ e ∈ [w.base.toNat, storedEnd w, w.view.toNat, viewEnd w], p + 1 ≠ e := by
      rintro e he rfl
      exact hp (List.mem_flatten.mpr ⟨_, List.mem_map.mpr ⟨w, List.mem_filter.mpr ⟨hw, hv⟩, rfl⟩, he⟩)
    obtain ⟨hb, hs, hview, hve⟩ : p + 1 ≠ w.base.toNat ∧ p + 1 ≠ storedEnd w ∧ p + 1 ≠ w.view.toNat ∧ p + 1 ≠ viewEnd w := by
      simpa using hends
    simp only [inView, inStored, inRange_succ hb hs, inRange_succ hview hve, and_self]

/-- So a view holds an address as it holds the one before, but where a window begins or ends. -/
theorem viewOf_succ {s : State} {p : Nat} (hp : p + 1 ∉ windowEnds s) : viewOf s (p + 1) = viewOf s p := by
  have hfind : windowOf s (p + 1) = windowOf s p := by
    unfold windowOf
    refine List.find?_congr fun w hw => ?_
    rw [(inWindow_succ hp hw).1, (inWindow_succ hp hw).2]
  unfold viewOf
  rw [hfind]
  cases hw : windowOf s p with
  | none => rfl
  | some w => simp [Option.filter, (inWindow_succ hp (List.mem_of_find?_eq_some hw)).1]

theorem viewMeets_iff (s : State) (a n : Nat) :
    viewMeets s a n = true ↔
      (viewOf s a).isSome = true ∨ ∃ e ∈ windowEnds s, a < e ∧ e < a + n ∧ (viewOf s e).isSome = true := by
  simp only [viewMeets, List.any_cons, List.any_filter, Bool.or_eq_true, List.any_eq_true, Bool.and_eq_true, decide_eq_true_iff,
    windowEnds, and_assoc]

/-- A view that holds one of the bytes from a on holds byte a or begins among them. -/
theorem view_begins {s : State} {a : Nat} : ∀ i, (viewOf s (a + i)).isSome = true →
    (viewOf s a).isSome = true ∨ ∃ e ∈ windowEnds s, a < e ∧ e ≤ a + i ∧ (viewOf s e).isSome = true
  | 0, h => .inl h
  | i + 1, h => by
    by_cases he : a + (i + 1) ∈ windowEnds s
    · exact .inr ⟨_, he, by omega, le_refl _, h⟩
    · rw [← Nat.add_assoc, viewOf_succ (by rwa [Nat.add_assoc])] at h
      obtain ha | ⟨e, he, hlt, hle, hs⟩ := view_begins i h
      · exact .inl ha
      · exact .inr ⟨e, he, hlt, by omega, hs⟩

theorem viewMeets_iff_byte {s : State} {a n : Nat} (hn : 0 < n) :
    viewMeets s a n = true ↔ ∃ i < n, (viewOf s (a + i)).isSome = true := by
  rw [viewMeets_iff]
  constructor
  · rintro (h | ⟨e, -, hlt, hle, hs⟩)
    · exact ⟨0, hn, h⟩
    · exact ⟨e - a, by omega, by rwa [Nat.add_sub_cancel' hlt.le]⟩
  · rintro ⟨i, hi, hs⟩
    obtain h | ⟨e, he, hlt, hle, hse⟩ := view_begins i hs
    · exact .inl h
    · exact .inr ⟨e, he, hlt, by omega, hse⟩

/-- Settles O21: capCheck and regionCheck are the two halves of the list, and a view reaches an access at its first byte or at a
window's end within it. -/
theorem accessChecksRunInOrder : Obligations.AccessChecksRunInOrder := by
  unfold Obligations.AccessChecksRunInOrder
  refine ⟨fun s th v w va n align => ?_, fun s a n hn => viewMeets_iff_byte hn⟩
  rw [accessCheck_eq]
  rfl

/-! ### What an access does at its issue (11 R255, R256) -/

theorem accessStep_trap {s : State} {th : Thread} {a : Val} {w : Want} {va : Word} {n align : Nat} {posted : Bool} {c : Code}
    (h : accessCheck s th a w va n align = some c) : accessStep s th a w va n align posted = .error (.trap c va) := by
  simp [accessStep, h]

/-- An effect that stops where its access stops, and else goes on with `k` of the state its access leaves. -/
def accessThen (w : Want) (n align : Nat) (posted : Bool) (k : Vals → Thread → State → Except Stop State) : Effect := fun v th s =>
  match accessStep s th v.a w (accessVa v) n align posted with
  | .error e => .error e
  | .ok b => k v th b

section

variable {w : Want} {n align : Nat} {posted : Bool} {k : Vals → Thread → State → Except Stop State} {v : Vals} {th : Thread} {s b : State}

theorem accessThen_stop {e : Stop} (h : accessStep s th v.a w (accessVa v) n align posted = .error e) :
    accessThen w n align posted k v th s = .error e := by
  unfold accessThen
  rw [h]
theorem accessThen_go (h : accessStep s th v.a w (accessVa v) n align posted = .ok b) :
    accessThen w n align posted k v th s = k v th b := by
  unfold accessThen
  rw [h]

end

theorem accesses_of {i : Instr} {w : Want} {n align : Nat} {posted : Bool} {go : Vals → Thread → State → State}
    {k : Vals → Thread → State → Except Stop State} (hx : ∀ s, exec i s = issue i s (accessThen w n align posted k))
    (hgo : ∀ v th b, k v th b = .ok (go v th b)) : Accesses i w n align posted go :=
  fun s _ h => ⟨fun _ hc => exec_traps h (hx s) (accessThen_stop (accessStep_trap hc)),
    fun _ hp => exec_stops h (hx s) (accessThen_stop hp), fun _ hb => exec_goes h (hx s) ((accessThen_go hb).trans (hgo _ _ _))⟩

/-- Where no travel is asked, or none is due, the access is performed where it stands. -/
theorem withTravel_stay {go : Bool} {held : Stop} {va : Word} {th : Thread} {s : State} {k : State → Except Stop State}
    (h : go = true → travelTarget s s.cur th va = none) :
    withTravel go held va th s k = k (s.modThread s.cur (fun x => { x with travelGo := false })) := by
  cases go with
  | false => rfl
  | true => simp [withTravel, h rfl]

theorem withTravel_leave {held : Stop} {va : Word} {th : Thread} {s : State} {k : State → Except Stop State} {h : Nat}
    (ht : travelTarget s s.cur th va = some h) :
    withTravel true held va th s k = .error (if mayLeave s.unit th then .travel h else held) := by
  simp [withTravel, ht]

theorem exec_ld (m : MemOps) (sz : BitVec 3) (sx go : Bool) (s : State) :
    exec (.ld m sz sx go) s = issue (.ld m sz sx go) s (accessThen wantLd (Machine.sizeOf sz) (Machine.sizeOf sz) false
      (fun v th b => withTravel go .wait (accessVa v) th b (fun x => .ok (loadOn m sz sx v th x)))) := by
  change issue (.ld m sz sx go) s (accessThen wantLd (Machine.sizeOf sz) (Machine.sizeOf sz) false (fun v th b => _)) = _
  congr 2
  funext v th b
  congr 1
  funext x
  simp only [loadOn, accessVa, beq_iff_eq]
  cases nearHit x x.cur th (capCursor v.a.bits + v.off) (Machine.sizeOf sz) <;> rfl

theorem exec_st (m : MemOps) (sz : BitVec 3) (go : Bool) (s : State) :
    exec (.st m sz go) s = issue (.st m sz go) s (accessThen wantSt (Machine.sizeOf sz) (Machine.sizeOf sz) true
      (fun v th b => withTravel go .wait (accessVa v) th b (fun x => .ok (storeOn sz v x)))) := by
  change issue (.st m sz go) s (accessThen wantSt (Machine.sizeOf sz) (Machine.sizeOf sz) true (fun v th b => _)) = _
  congr 2
  funext v th b
  congr 1
  funext x
  exact (apply_ite Except.ok _ _ _).symm

theorem ordClass_eq (x : Ord) : ordClass x = if x = .rlx then .longLat else .out := by cases x <;> rfl

/-- Settles O22: each effect is its access, then what the access goes on to. -/
theorem loadAndStoreIssue : Obligations.LoadAndStoreIssue := by
  unfold Obligations.LoadAndStoreIssue
  refine ⟨fun m sz sx => ?_, fun m sz => ?_, fun m sz => ?_, fun m sz => ?_, fun m => ?_⟩
  · exact accesses_of (exec_ld m sz sx false) (fun v th b => withTravel_stay nofun)
  · exact accesses_of (exec_st m sz false) (fun v th b => withTravel_stay nofun)
  · exact accesses_of (fun _ => rfl) (fun _ _ _ => rfl)
  · exact accesses_of (fun _ => rfl) (fun _ _ _ => rfl)
  · exact accesses_of (fun _ => rfl) (fun _ _ _ => rfl)

/-- Settles O25: as O22; a fence has no access to check. -/
theorem atomicAndWaitIssue : Obligations.AtomicAndWaitIssue := by
  unfold Obligations.AtomicAndWaitIssue
  refine ⟨fun o => ?_, fun o => ?_, fun o => ?_, fun m take => ?_, fun m => ?_, fun m => ?_, fun m => ?_, fun o => ?_, fun p kind scope => ?_⟩
  · exact accesses_of (fun _ => rfl) (fun _ _ _ => by rw [← ordClass_eq]; rfl)
  · exact accesses_of (fun _ => rfl) (fun _ _ _ => by rw [← ordClass_eq]; rfl)
  · exact accesses_of (fun _ => rfl) (fun _ _ _ => rfl)
  · exact accesses_of (fun _ => rfl) (fun _ _ _ => rfl)
  · exact accesses_of (fun _ => rfl) (fun _ _ _ => rfl)
  · exact accesses_of (fun _ => rfl) (fun _ _ _ => rfl)
  · exact accesses_of (fun _ => rfl) (fun _ _ _ => rfl)
  · exact accesses_of (fun _ => rfl) (fun _ _ _ => rfl)
  · exact effects_of (fun _ => rfl) (fun _ _ _ _ => rfl)

/-! ### What the checks of an access change -/

/-- The translation of an address changes what the PLB of its core used last, and nothing else. -/
theorem translate_only {s b : State} {t : Nat} {va : Word} (h : translate s t va = .ok b) : b = { s with cores := b.cores } := by
  unfold translate at h
  split at h
  · cases h; rfl
  · dsimp only at h
    split at h
    · cases h; rfl
    · cases h

theorem translatePages_only {n : Nat} {s b : State} {t : Nat} {va : Word} (h : translatePages s t va n = .ok b) :
    b = { s with cores := b.cores } := by
  induction n generalizing s va with
  | zero => cases h; rfl
  | succ n ih =>
    simp only [translatePages] at h
    split at h
    · cases h
    · rename_i s1 ht
      have hb := ih h
      rw [translate_only ht] at hb
      exact hb

theorem accessStep_ok {s b : State} {th : Thread} {a : Val} {w : Want} {va : Word} {n align : Nat} {posted : Bool}
    (h : accessStep s th a w va n align posted = .ok b) :
    accessCheck s th a w va n align = none ∧ translateSpan s s.cur va n = .ok b := by
  unfold accessStep at h
  split at h
  · cases h
  next hc =>
    split at h
    · cases h
    next ht =>
      split at h
      · cases h
      · split at h
        · cases h
        · exact ⟨hc, by rwa [← Except.ok.inj h]⟩

theorem accessStep_only {s b : State} {th : Thread} {a : Val} {w : Want} {va : Word} {n align : Nat} {posted : Bool}
    (h : accessStep s th a w va n align posted = .ok b) : b = { s with cores := b.cores } :=
  translatePages_only (accessStep_ok h).2

/-! ### Travel (11 R270, 14 R348, R349) -/

/-- An effect that, once its state is ready, travels first or goes on as `stay`. -/
theorem travels_of {i : Instr} {ready : Vals → Thread → State → State → Prop} {held : Stop} {stay : Vals → Thread → State → State}
    {eff : Effect} (hx : ∀ s, exec i s = issue i s eff)
    (hu : ∀ v th b b1, ready v th b b1 → b1 = { b with cores := b1.cores })
    (he : ∀ v th b b1, ready v th b b1 → eff v th b = withTravel true held (accessVa v) th b1 (fun x => .ok (stay v th x))) :
    Travels i ready held stay := by
  intro s th b1 h v va hr
  change ready v th (s.begun th i) b1 at hr
  have hcur : b1.cur = s.cur := by rw [hu _ _ _ _ hr]; exact begun_cur s th i
  have hunit : b1.unit = s.unit := by rw [hu _ _ _ _ hr]; exact begun_unit s th i
  refine ⟨fun ht => ?_, fun d ht hl => ?_, fun d ht hl => ?_⟩ <;> rw [← hcur] at ht
  · have hgo := (he _ _ _ _ hr).trans (withTravel_stay fun _ => ht)
    rw [hcur] at hgo
    exact exec_goes h (hx s) hgo
  · have hgo := (he _ _ _ _ hr).trans (withTravel_leave ht)
    rw [hunit, if_pos hl] at hgo
    exact exec_stops h (hx s) hgo
  · have hgo := (he _ _ _ _ hr).trans (withTravel_leave ht)
    rw [hunit, if_neg (by simp [hl])] at hgo
    exact exec_stops h (hx s) hgo

theorem migCheck_eq (th : Thread) (v : Val) (va : Word) : migCheck th v va = firstFailure (migRules th v va) := by
  have hneed : grants (capPerms v.bits) 0#12 = true := by simp [grants]
  have hcap : capCheck v 0 va.toNat 1 1 = firstFailure (migRules th v va |>.take 3) := by
    simp [capCheck, migRules, firstFailure, hneed, Nat.mod_one]
  rw [← List.take_append_drop 3 (migRules th v va), firstFailure_append, ← hcap, migCheck]
  cases capCheck v 0 va.toNat 1 1 with
  | some c => rfl
  | none => cases h : leased th.ranges 0#12 va 1 <;> simp [migRules, firstFailure, h]

/-- Settles O23. -/
theorem travelMovesTheTask : Obligations.TravelMovesTheTask := by
  unfold Obligations.TravelMovesTheTask
  refine ⟨fun m sz sx => ?_, fun m sz => ?_, fun m => ?_, fun m c => ?_⟩
  · exact travels_of (exec_ld m sz sx true) (fun _ _ _ _ h => accessStep_only h) (fun _ _ _ _ h => accessThen_go h)
  · exact travels_of (exec_st m sz true) (fun _ _ _ _ h => accessStep_only h) (fun _ _ _ _ h => accessThen_go h)
  · exact travels_of (fun _ => rfl) (fun _ _ _ _ h => translate_only h.2)
      (fun v th b b1 ⟨hc, ht⟩ => by simp only [accessVa, migCheck_eq, hc, ht])
  · exact traps_of (fun _ => rfl) (fun v th s h => by simp only [accessVa, migCheck_eq, h])

/-! ### Capabilities in memory and prefetch (11 R259, R260) -/

theorem accessCheck_of_cap {s : State} {th : Thread} {a : Val} {w : Want} {va : Word} {n align : Nat} (ht : a.tag = true)
    (hk : capKind a.bits = 0) : accessCheck s th a w va n align ≠ some .tag ∧ accessCheck s th a w va n align ≠ some .sealed := by
  rw [accessCheck_eq]
  constructor <;>
  · intro h
    simpa [capRules, regionRules, ht, hk] using mem_of_firstFailure h

/-- STCAP of a tagged value without GL into global space, through a capability that is tagged and unsealed. -/
theorem stcapCheck_global {s : State} {th : Thread} {a d : Val} {va : Word} (ht : a.tag = true) (hk : capKind a.bits = 0) (hd : d.tag = true)
    (hs : selector va = 0) (hg : grants (capPerms d.bits) permGL = false) : stcapCheck s th a d va = some .perm := by
  simp only [stcapCheck, hd, hs, hg]
  split
  next h => exact absurd h (accessCheck_of_cap ht hk).1
  next h => exact absurd h (accessCheck_of_cap ht hk).2
  next => rfl

theorem grants_or (p x y : BitVec 12) : grants p (x ||| y) = (grants p x && grants p y) := by
  have hbits : (x ||| y) &&& ~~~p = (x &&& ~~~p) ||| (y &&& ~~~p) := by
    ext i hi
    simp [Bool.and_or_distrib_right]
  rw [Bool.eq_iff_iff]
  simp [grants, hbits, BitVec.or_eq_zero_iff]

/-- STCAP of a tagged value through a capability without SC. -/
theorem stcapCheck_right {s : State} {th : Thread} {a d : Val} {va : Word} (ht : a.tag = true) (hk : capKind a.bits = 0) (hd : d.tag = true)
    (hs : grants (capPerms a.bits) permSC = false) : stcapCheck s th a d va = some .perm := by
  have hneed : grants (capPerms a.bits) (withSy (permW ||| permSC) va) = false := by
    unfold withSy
    split <;> simp only [grants_or, hs, Bool.and_false, Bool.false_and]
  have hperm : accessCheck s th a ⟨permW ||| permSC, permW ||| permSC, false, true, false⟩ va 16 16 = some .perm := by
    rw [accessCheck_eq]
    simp [capRules, firstFailure, ht, hk, hneed]
  simp only [stcapCheck, hd, if_true, hperm]
  split <;> rfl

/-- What a PREF does nothing for (11 R260). -/
def prefIdle (home : Bool) (v : Vals) (th : Thread) (s : State) : Bool :=
  let va := accessVa v / 128 * 128
  (accessCheck s th v.a ⟨permR, permR, true, false, false⟩ va 128 1).isSome || selector va != 0 || !prefMapped s th va
    || (!home && (s.ensureLine (tcore s.cur) va th.domain).isNone)

/-- The effect of PREF where it does something. -/
def prefAsks (home : Bool) (v : Vals) (th : Thread) (s : State) : Except Stop State :=
  let va := accessVa v / 128 * 128
  match translate s s.cur va with
  | .error e => .error e
  | .ok s =>
    if postedFull th then .error (.park .postedRoom)
    else .ok (s.launch s.cur { s.newOp .posted (.pref home) (.sent 1) va with slot1 := slotA v va, capture := true } 0)

theorem prefIdle_iff {home : Bool} {v : Vals} {th : Thread} {s : State} {line : Word} (hl : accessVa v / 128 * 128 = line) :
    prefIdle home v th s = true ↔ (accessCheck s th v.a ⟨permR, permR, true, false, false⟩ line 128 1).isSome = true ∨ selector line ≠ 0 ∨
      prefMapped s th line = false ∨ (home = false ∧ s.ensureLine (tcore s.cur) line th.domain = none) := by
  subst hl
  simp [prefIdle, or_assoc]

theorem exec_pref (m : MemOps) (home : Bool) (s : State) :
    exec (.pref m home) s = issue (.pref m home) s (fun v th b => if prefIdle home v th b then .ok b else prefAsks home v th b) := rfl

/-- Settles O24. -/
theorem capabilityAccessIssue : Obligations.CapabilityAccessIssue := by
  unfold Obligations.CapabilityAccessIssue
  refine ⟨fun m => ?_, fun m s th h => ⟨fun ht hk hd hs hg => ?_, fun ht hk hd hs => ?_, fun b1 hc hb => ?_⟩,
    fun m home s th h => ⟨fun hi => ?_, fun b1 hi ht hp => ?_, fun why hi hw => ?_⟩⟩
  · refine accesses_of (k := _) (fun _ => rfl) (fun v th b => ?_)
    dsimp only [accessVa]
    cases nearHit b b.cur th (capCursor v.a.bits + v.off) 16 <;> rfl
  · exact exec_traps h rfl (by simp only [accessVa, stcapCheck_global ht hk hd hs hg])
  · exact exec_traps h rfl (by simp only [accessVa, stcapCheck_right ht hk hd hs])
  · refine exec_goes h rfl ?_
    simp only [accessVa, hc, hb]
    have hcur : b1.cur = s.cur := by rw [accessStep_only hb]; exact begun_cur s th _
    rw [hcur]
    exact (apply_ite Except.ok _ _ _).symm
  · exact exec_goes h (exec_pref m home s) (if_pos ((prefIdle_iff rfl).mpr (by rwa [begun_cur])))
  · refine exec_goes h (exec_pref m home s) ((if_neg ?_).trans ?_)
    · rwa [prefIdle_iff rfl, begun_cur]
    · have hcur : b1.cur = s.cur := by rw [translate_only ht]; exact begun_cur s th _
      rw [← begun_cur s th (.pref m home)] at ht
      simp only [prefAsks, accessVa, ht, hp, hcur]
      rfl
  · refine exec_stops h (exec_pref m home s) ((if_neg ?_).trans ?_)
    · rwa [prefIdle_iff rfl, begun_cur]
    · rw [← begun_cur s th (.pref m home)] at hw
      obtain ht | ⟨rfl, hp, b1, ht⟩ := hw
      · simp only [prefAsks, accessVa, ht]
      · simp only [prefAsks, accessVa, ht, hp, if_true]

end Sys2Proof.Machine
end

section
/-!
The issue of a load or store (11 R255, R258): until the home performs it, it changes near slices, messages and what its thread has
outstanding, and nothing else.
-/

namespace Sys2Proof.Machine

/-- Of a thread only registers among `dests`, BANKMASK, the notes of its stores and what it has outstanding differ. -/
def OwnKept (dests : List Opn) (a b : Thread) : Prop :=
  SameOwn a b ∧ b.pcc = a.pcc ∧ ∀ k, (∀ d ∈ dests, d.toNat ≠ k) → b.reg k = a.reg k

theorem OwnKept.refl (dests : List Opn) (a : Thread) : OwnKept dests a a :=
  ⟨⟨rfl, rfl, rfl, rfl, rfl, rfl, rfl, rfl, rfl, rfl, rfl, rfl, rfl, rfl⟩, rfl, fun _ _ => rfl⟩

theorem sameOwn_trans {a b c : Thread} (h : SameOwn a b) (h' : SameOwn b c) : SameOwn a c := by
  simp only [SameOwn] at h h' ⊢
  simp only [h, h', and_self]

theorem OwnKept.trans {dests : List Opn} {a b c : Thread} (h : OwnKept dests a b) (h' : OwnKept dests b c) : OwnKept dests a c := by
  obtain ⟨hown, hpc, hreg⟩ := h
  obtain ⟨hown', hpc', hreg'⟩ := h'
  exact ⟨sameOwn_trans hown hown', hpc'.trans hpc, fun k hk => (hreg' k hk).trans (hreg k hk)⟩

theorem ownKept_setPresent {dests : List Opn} (a : Thread) {k : Nat} (p : Bool) (hk : ∃ d ∈ dests, d.toNat = k) :
    OwnKept dests a (a.setPresent k p) := by
  refine ⟨OwnKept.refl dests a |>.1, rfl, fun j hj => tget_tput_other _ _ _ _ _ ?_⟩
  rintro rfl
  obtain ⟨d, hd, hdk⟩ := hk
  exact hj d hd hdk

theorem ownKept_absent {dests : List Opn} (ks : List Nat) (a : Thread) (hks : ∀ k ∈ ks, ∃ d ∈ dests, d.toNat = k) :
    OwnKept dests a (ks.foldl (fun th r => th.setPresent r false) a) := by
  induction ks generalizing a with
  | nil => exact .refl dests a
  | cons k ks ih =>
    exact (ownKept_setPresent a false (hks k List.mem_cons_self)).trans (ih _ fun j hj => hks j (List.mem_cons_of_mem _ hj))

theorem mem_regsOf {dests : List Opn} {k : Nat} (h : k ∈ regsOf dests) : ∃ d ∈ dests, d.toNat = k := by
  obtain ⟨d, hd, rfl⟩ := List.mem_map.mp h
  exact ⟨d, (List.mem_filter.mp hd).1, rfl⟩

/-- An operation entered marks at most its destinations absent. -/
theorem ownKept_withOp (a : Thread) (o : Op) (now la : Nat) : OwnKept o.dests a (a.withOp o now la) := by
  unfold Thread.withOp
  split
  · exact .refl _ _
  · exact .refl _ _
  · have h : OwnKept o.dests a ((regsOf o.dests).foldl (fun th r => th.setPresent r false) { a with ops := a.ops ++ [o] }) :=
      ownKept_absent _ _ fun _ => mem_regsOf
    split
    · exact h
    · exact h

/-- What the issue of an access of thread t changes: cores, messages, the numbers given out, and of the threads its own, which keeps
its registers but for `dests`. -/
def IssueFrame (t : Nat) (dests : List Opn) (s r : State) : Prop :=
  r = { s with cores := r.cores, msgs := r.msgs, nextId := r.nextId, threads := r.threads } ∧ SameThreads s r t ∧
  ∀ a, s.thread t = some a → ∃ b, r.thread t = some b ∧ OwnKept dests a b

namespace IssueFrame

variable {t : Nat} {dests : List Opn} {s r u : State}

theorem of_threads (h : r = { s with cores := r.cores, msgs := r.msgs, nextId := r.nextId }) : IssueFrame t dests s r := by
  refine ⟨?_, fun m _ => ?_, fun a ha => ⟨a, ?_, .refl dests a⟩⟩
  · rw [h]
  · rw [h]; rfl
  · rw [h]; exact ha

theorem refl (t : Nat) (dests : List Opn) (s : State) : IssueFrame t dests s s := of_threads rfl

theorem trans (h : IssueFrame t dests s r) (h' : IssueFrame t dests r u) : IssueFrame t dests s u := by
  obtain ⟨heq, hoth, hown⟩ := h
  obtain ⟨heq', hoth', hown'⟩ := h'
  refine ⟨?_, fun m hm => (hoth' m hm).trans (hoth m hm), fun a ha => ?_⟩
  · rw [heq] at heq'
    exact heq'
  · obtain ⟨b, hb, hab⟩ := hown a ha
    obtain ⟨c, hc, hbc⟩ := hown' b hb
    exact ⟨c, hc, hab.trans hbc⟩

theorem foldl {α : Type} (l : List α) (f : State → α → State) (s : State) (h : ∀ s x, IssueFrame t dests s (f s x)) :
    IssueFrame t dests s (l.foldl f s) := by
  induction l generalizing s with
  | nil => exact refl t dests s
  | cons x l ih => exact (h s x).trans (ih _)

theorem either {p : Prop} [Decidable p] (h : IssueFrame t dests s r) (h' : IssueFrame t dests s u) :
    IssueFrame t dests s (if p then r else u) := by
  split
  · exact h
  · exact h'

theorem modCore (s : State) (c : Nat) (f : Core → Core) : IssueFrame t dests s (s.modCore c f) := of_threads rfl
theorem countCore (s : State) (c n k : Nat) : IssueFrame t dests s (s.countCore c n k) := of_threads rfl
theorem send (s : State) (x y : Place) (o : Owner) (p : Payload) : IssueFrame t dests s (s.send x y o p) := of_threads rfl

theorem modThread (s : State) (f : Thread → Thread) (hf : ∀ a, OwnKept dests a (f a)) : IssueFrame t dests s (s.modThread t f) := by
  refine ⟨?_, fun m hm => thread_modThread_other s t m f hm, fun a ha => ⟨f a, ?_, hf a⟩⟩
  · unfold State.modThread
    split <;> rfl
  · rw [thread_modThread_same, ha]; rfl

theorem startOp (s : State) (o : Op) (la : Nat) : IssueFrame t o.dests s (s.startOp t o la) := by
  rw [startOp_eq]
  exact (of_threads rfl : IssueFrame t o.dests s { s with nextId := s.nextId + 1 }).trans (modThread _ _ fun a => ownKept_withOp a o _ la)

theorem deferResult (s : State) (ds : List Opn) (vs : List Val) (fl : Flags) (la : BitVec 4) :
    IssueFrame t ds s (s.deferResult t ds vs fl la) :=
  startOp s { s.newOp .longLat .nothing (.done vs) 0 with dests := ds, flags := fl } la.toNat

theorem setBank (s : State) (va : Word) : IssueFrame t dests s (s.setBank t va) := by
  unfold State.setBank
  split
  · exact refl ..
  · exact modThread _ _ fun a => .refl dests a

theorem setPhase (s : State) (op : Nat) (p : Phase) : IssueFrame t dests s (s.setPhase t op p) :=
  modThread _ _ fun a => .refl dests a

/-! The near slice -/

theorem writeBack (s : State) (c : Nat) (va : Word) (dom : BitVec 16) (clear : Bool) (w : Option (Nat × Nat)) :
    IssueFrame t dests s (s.writeBack c va dom clear w) := (modCore s c _).trans (send ..)

theorem evictLine (s : State) (c : Nat) (l : NearLine) : IssueFrame t dests s (s.evictLine c l) := by
  unfold State.evictLine
  dsimp only
  refine (foldl l.sectors _ s fun s x => ?_).trans (modCore ..)
  split
  · exact writeBack ..
  · exact refl ..

theorem ensureLine {c : Nat} {va : Word} {dom : BitVec 16} (h : s.ensureLine c va dom = some r) : IssueFrame t dests s r := by
  unfold State.ensureLine at h
  dsimp only at h
  split at h
  · cases h; exact modCore ..
  · split at h
    · cases h; exact modCore ..
    · split at h
      · cases h; exact (evictLine ..).trans (modCore ..)
      · cases h

theorem roomFor (s : State) (va : Word) : IssueFrame t dests s (s.roomFor t va) := by
  unfold State.roomFor
  split
  · split
    · exact refl ..
    · split
      next h => exact ensureLine h
      · exact countCore ..
  · exact refl ..

/-! What is sent home -/

theorem sendAccess (s : State) (op : Nat) (va : Word) : IssueFrame t dests s (s.sendAccess t op va) := by
  unfold State.sendAccess
  split
  · exact refl ..
  · refine trans (trans (u := _) (r := ite _ _ _) ?_ (send ..)) (setPhase ..)
    split_ifs
    · exact setBank ..
    · exact refl ..

/-- An operation that releases nothing is entered and sent. -/
theorem launch (s : State) (o : Op) (la : Nat) (hrel : o.act.relKind = .none)
    (hsend : ∀ (s : State) th, s.afterRelease t th o = s.sendAccess t o.id o.va) : IssueFrame t o.dests s (s.launch t o la) := by
  refine (startOp s o la).trans ?_
  unfold State.launch
  dsimp only
  rw [hrel]
  split
  · exact refl ..
  · rw [hsend]; exact sendAccess ..
  next hne => simp at hne

/-- A sector of a plain store: the near slice takes it, or it goes through to its home. -/
theorem plainStore (s : State) (op : Nat) (va : Word) (mask : BitVec 32) (data : BitVec 256) (tag : Option Bool) :
    IssueFrame t dests s (s.plainStore t op va mask data tag).1 := by
  have bank (s : State) (h : Nat) : IssueFrame t dests s (s.modThread t (fun x => { x with bankmask := x.bankmask ||| bankBit h })) :=
    modThread s _ fun a => .refl dests a
  unfold State.plainStore
  split
  · exact refl ..
  next th _ =>
    dsimp only
    split
    · exact (send ..).trans (bank ..)
    · split
      · refine trans (trans (r := ite _ _ _) ?_ (send ..)) (bank ..)
        split_ifs
        · exact refl ..
        · exact writeBack ..
        · exact modCore ..
      · have hreleased : IssueFrame t dests s _ :=
          either (p := (nearSector (s.core (tcore t)) va th.domain).st == .released) (writeBack s (tcore t) va th.domain true none) (refl ..)
        generalize (if (nearSector (s.core (tcore t)) va th.domain).st == .released then
          s.writeBack (tcore t) va th.domain true none else s) = s1 at hreleased ⊢
        refine hreleased.trans ?_
        split
        · exact ((countCore ..).trans (send ..)).trans (bank ..)
        next hroom =>
          refine (ensureLine hroom).trans ?_
          rw [apply_ite Prod.fst]
          refine either ?_ ?_
          · exact (modCore ..).trans (bank ..)
          · exact (((modCore ..).trans (bank ..)).trans (modThread _ (·.wroteSector (va.toNat / 32)) fun a => .refl dests a)).trans (send ..)

theorem plainRun (op : Nat) (tag : Option Bool) (fuel : Nat) (va : Word) (n v : Nat) (s : State) :
    IssueFrame t dests s (s.plainRun t op tag fuel va n v).1 := by
  induction fuel generalizing va n v s with
  | zero => exact refl ..
  | succ fuel ih =>
    unfold State.plainRun
    split
    · exact refl ..
    · exact (plainStore ..).trans (ih ..)

theorem post (s : State) (o : Op) (k : State → State × Nat) (hk : ∀ s, IssueFrame t o.dests s (k s).1) :
    IssueFrame t o.dests s (s.post t o k) := by
  have h := (startOp s o 0).trans (hk (s.startOp t o 0))
  unfold State.post
  dsimp only
  split
  · exact h.trans (modThread _ _ fun a => .refl _ a)
  · exact h.trans (setPhase ..)

end IssueFrame

/-! ### LD and ST -/

theorem withHeld_eq (s : State) (t : Nat) (o : Op) : ∃ mask held tags, s.withHeld t o = { o with mask := mask, held := held, tags := tags } := by
  unfold State.withHeld
  split
  · dsimp only
    split
    · exact ⟨_, _, _, rfl⟩
    · exact ⟨_, _, _, rfl⟩
  · exact ⟨_, _, _, rfl⟩

theorem issued_sameOwn (th : Thread) (t : Nat) (u : UnitWords) : SameOwn th (th.issued t u) := by
  rw [Thread.issued, charge_only]
  unfold Thread.advance
  split <;> simp [SameOwn, Thread.tickWindows, Thread.setPc]

/-- The frame of a whole issue: from its begin on, through the checks of the access and `go`. -/
theorem issuesOnly_of {i : Instr} {go : Bool} {w : Want} {n : Nat} {posted : Bool} {dests : List Opn} {f : Vals → Thread → State → State}
    (hx : ∀ s, exec i s = issue i s (accessThen w n n posted
      (fun v th b => withTravel go .wait (accessVa v) th b (fun x => .ok (f v th x)))))
    (hf : ∀ v th s, IssueFrame s.cur dests s (f v th s)) : IssuesOnly i go w n posted dests := by
  intro s th b1 h v va hb htravel
  have hb1 := accessStep_only hb
  have hcur : b1.cur = s.cur := by rw [hb1]; exact begun_cur s th i
  have hgo : exec i s = .next (f v th (b1.modThread s.cur (fun x => { x with travelGo := false }))) := by
    refine exec_goes h (hx s) ((accessThen_go hb).trans ((withTravel_stay ?_).trans ?_))
    · rwa [hcur]
    · rw [hcur]
  have hframe := hf v th (b1.modThread s.cur (fun x => { x with travelGo := false }))
  rw [State.modThread_cur, hcur] at hframe
  obtain ⟨heq, hoth, hown⟩ := (hb1 ▸ .of_threads rfl : IssueFrame s.cur dests (s.begun th i) b1).trans
    ((IssueFrame.modThread b1 (fun x => { x with travelGo := false }) fun a => .refl dests a).trans hframe)
  obtain ⟨x, hx, hkept, hpc, hreg⟩ := hown _ (begun_thread s th i)
  refine ⟨_, x, hgo, ?_, ?_, hx, ?_, ?_, ?_⟩
  · obtain ⟨hmem, hfe, htags, hpoison, howners⟩ := begun_sameStorage s th i
    rw [heq]
    exact ⟨hmem, hfe, htags, hpoison, howners⟩
  · exact fun m hm => (hoth m hm).trans (begun_others s th i m hm)
  · exact sameOwn_trans (issued_sameOwn th s.cur s.unit) hkept
  · exact fun k hk => (hreg k hk).trans (begun_reg s th i k)
  · intro hq
    rw [hpc]
    change (th.issued s.cur s.unit).pcc = _
    rw [issued_eq_of_fresh s.unit hq]

/-- Settles O45: neither the near slice nor the messages of an issue reach storage. -/
theorem issueWritesNoStorage : Obligations.IssueWritesNoStorage := by
  unfold Obligations.IssueWritesNoStorage
  refine ⟨fun m sz sx go => issuesOnly_of (exec_ld m sz sx go) fun v th s => ?_,
    fun m sz go => issuesOnly_of (exec_st m sz go) fun v th s => ?_⟩
  · unfold loadOn
    dsimp only
    generalize (if sz = 5 then destGroup m.d 2 else [m.d]) = ds
    split
    · exact ((IssueFrame.modCore ..).trans (IssueFrame.setBank ..)).trans (IssueFrame.deferResult ..)
    · have hroom : IssueFrame s.cur ds s _ := IssueFrame.roomFor s (capCursor v.a.bits + v.off)
      generalize s.roomFor s.cur (capCursor v.a.bits + v.off) = r at hroom ⊢
      obtain ⟨mask, held, tags, heq⟩ := withHeld_eq r s.cur { r.newOp .longLat (.load (Machine.sizeOf sz) sx) (.sent 1)
        (capCursor v.a.bits + v.off) with dests := ds, slot1 := slotA v (capCursor v.a.bits + v.off), capture := true }
      rw [heq]
      exact hroom.trans (IssueFrame.launch r _ _ rfl fun _ _ => rfl)
  · unfold storeOn
    dsimp only
    split
    · exact IssueFrame.launch _ _ _ rfl fun _ _ => rfl
    · exact IssueFrame.post _ _ _ fun _ => IssueFrame.plainRun ..

end Sys2Proof.Machine
end

section
/-!
CQSPLIT at its issue (08 R178, R186 to R189).
-/

namespace Sys2Proof.Machine

/-- The code at which a CQSPLIT starts: where it was stopped, else its operand (08 R187). -/
def splitStart (o : SplitOps) (v : Vals) : Quad := match v.cont with | some q => q | none => if o.e == 256 then v.b.bits else v.e.bits

theorem splitStart_eq (o : SplitOps) (v : Vals) : v.cont.getD (if o.e = 256 then v.b.bits else v.e.bits) = splitStart o v := by
  unfold splitStart
  cases v.cont <;> simp

/-- The effect of CQSPLIT: the checks of its capability, of its codes and of its access, then its entries stored. -/
def splitEffect (o : SplitOps) : Effect := fun v th s =>
  let va := capCursor v.a.bits
  match capCheck v.a (withSy permW va) va.toNat (32 * o.limit.toNat) 32, curveCheck [v.b.bits, v.c.bits, splitStart o v] with
  | some c, _ => .error (.trap c va)
  | none, some c => .error (.trap c 0)
  | none, none =>
    match accessStep s th v.a (want permW permW) va (32 * o.limit.toNat) 32 false with
    | .error e => .error e
    | .ok b =>
      let x := splitEntries (splitStart o v) v.b.bits v.c.bits o.gap.toNat o.limit.toNat
      let p := { b.newOp .longLat (.split x.2.1 x.2.2) (.sent 1) va with
        dests := destGroup o.d 2, slot1 := slotA v va, slot2 := v.b, slot3 := v.c, cont := splitStart o v, capture := true }
      let r := storeEntries s.cur p.id va x.1 (b.startOp s.cur p o.la.toNat)
      .ok (r.1.setPhase s.cur p.id (if r.2 = 0 then .done [x.2.1, x.2.2] else .sent r.2))

theorem exec_cqsplit (o : SplitOps) (s : State) : exec (.cqsplit o) s = issue (.cqsplit o) s (splitEffect o) := rfl

/-- Settles O26: each check stops the effect before an entry is stored. -/
theorem splitResults : Obligations.SplitResults := by
  unfold Obligations.SplitResults
  intro o s th h v b va n start asks
  have hs : start = splitStart o v := splitStart_eq o v
  rw [hs]
  refine ⟨fun c hcap => ?_, fun c hcap hcode => ?_, fun c hcap hcode hregion => ?_, fun b1 hcap hcode hb => ?_⟩
  · refine exec_traps h (exec_cqsplit o s) ?_
    change capCheck v.a (withSy permW va) va.toNat n 32 = some c at hcap
    simp only [splitEffect]
    rw [hcap]
  · refine exec_traps h (exec_cqsplit o s) ?_
    change capCheck v.a (withSy permW va) va.toNat n 32 = none at hcap
    simp only [splitEffect]
    rw [hcap, hcode]
  · refine exec_traps h (exec_cqsplit o s) ?_
    change capCheck v.a (withSy permW va) va.toNat n 32 = none at hcap
    have hcheck : accessCheck b th v.a (want permW permW) va n 32 = some c := by
      change (match capCheck v.a (withSy permW va) va.toNat n 32 with | some c => some c | none => _) = _
      rw [hcap]
      exact hregion
    simp only [splitEffect]
    rw [hcap, hcode, accessStep_trap hcheck]
  · refine exec_goes h (exec_cqsplit o s) ?_
    change capCheck v.a (withSy permW va) va.toNat n 32 = none at hcap
    simp only [splitEffect, begun_cur]
    rw [hcap, hcode, hb]

end Sys2Proof.Machine
end

section
/-!
Accesses performed at their homes (10 R238, 11 R263, R264, R268): bytes merged and read back, and what the housekeeping after a write
leaves alone.
-/

namespace Sys2Proof.Machine

/-! ### Bytes of numbers -/

theorem leNat_map_range_succ (f : Nat → Byte) (n : Nat) :
    leNat ((List.range (n + 1)).map f) = (f 0).toNat + 256 * leNat ((List.range n).map (fun i => f (i + 1))) := by
  rw [List.range_succ_eq_map, List.map_cons, List.map_map]
  rfl

theorem byte_leNat (f : Nat → Byte) {n i : Nat} (hi : i < n) : BitVec.ofNat 8 (leNat ((List.range n).map f) / 256 ^ i) = f i := by
  induction n generalizing f i with
  | zero => omega
  | succ n ih =>
    have hlow : (f 0).toNat < 256 := (f 0).isLt
    rw [leNat_map_range_succ]
    cases i with
    | zero =>
      apply BitVec.eq_of_toNat_eq
      simp [Nat.mod_eq_of_lt hlow]
    | succ i =>
      rw [Nat.pow_succ', ← Nat.div_div_eq_div_mul, Nat.add_mul_div_left _ _ (by decide), Nat.div_eq_of_lt hlow, Nat.zero_add]
      exact ih _ (by omega)

theorem leNat_bytes (n x : Nat) : leNat ((List.range n).map (fun i => BitVec.ofNat 8 (x / 2 ^ (8 * i)))) = x % 2 ^ (8 * n) := by
  induction n generalizing x with
  | zero => simp [leNat, Nat.mod_one]
  | succ n ih =>
    have hshift : (fun i => BitVec.ofNat 8 (x / 2 ^ (8 * (i + 1)))) = fun i => BitVec.ofNat 8 (x / 256 / 2 ^ (8 * i)) := by
      funext i
      rw [Nat.div_div_eq_div_mul, Nat.mul_add, Nat.add_comm, Nat.pow_add]
    have hpow : 2 ^ (8 * (n + 1)) = 256 * 2 ^ (8 * n) := by ring
    rw [leNat_map_range_succ, hshift, ih, hpow, Nat.mod_mul]
    simp

/-- Each byte of merged sectors is the new or the old one, as the mask says. -/
theorem byte_mergeBytes (mask : BitVec 32) (old new : Nat) {i : Nat} (hi : i < 32) :
    BitVec.ofNat 8 (mergeBytes mask old new / 256 ^ i) = BitVec.ofNat 8 ((if mask.getLsbD i then new else old) / 2 ^ (8 * i)) :=
  byte_leNat _ hi

theorem mergeBytes_zero (old new : Nat) : mergeBytes 0 old new = old % 2 ^ 256 := by
  unfold mergeBytes
  simpa using leNat_bytes 32 old

theorem load_add (s : State) (a k m : Nat) : s.load a (k + m) = s.load a k + 2 ^ (8 * k) * s.load (a + k) m := by
  induction k generalizing a with
  | zero => simp [State.load]
  | succ k ih =>
    rw [Nat.succ_add, State.load, ih, State.load, Nat.add_right_comm a 1 k, ← Nat.add_assoc a k 1]
    ring

/-- A field of loaded bytes is loaded from its own place. -/
theorem load_field (s : State) (a : Nat) {k m n : Nat} (h : k + m ≤ n) : s.load a n / 2 ^ (8 * k) % 2 ^ (8 * m) = s.load (a + k) m := by
  obtain ⟨r, rfl⟩ := Nat.exists_eq_add_of_le h
  rw [Nat.add_assoc, load_add, Nat.add_mul_div_left _ _ (by positivity), Nat.div_eq_of_lt (load_lt s a k), Nat.zero_add, load_add,
    Nat.add_mul_mod_self_left, Nat.mod_eq_of_lt (load_lt s _ m)]

theorem byte_load (s : State) (a : Nat) {i n : Nat} (hi : i < n) : BitVec.ofNat 8 (s.load a n / 2 ^ (8 * i)) = memByte s.mem (a + i) := by
  have hfield : s.load a n / 2 ^ (8 * i) % 2 ^ (8 * 1) = s.load (a + i) 1 := load_field s a (by omega)
  apply BitVec.eq_of_toNat_eq
  simpa [State.load] using hfield

/-! ### The new value of an atomic (11 R263) -/

theorem signed_of_lt {n x : Nat} (hx : x < 2 ^ n) : signed n x = if x < 2 ^ (n - 1) then (x : Int) else (x : Int) - 2 ^ n := by
  rw [signed, Nat.mod_eq_of_lt hx]

theorem amoVal_eq_atomicNew (fn : AmoFn) {n old v : Nat} (hold : old < 2 ^ (8 * n)) (hv : v < 2 ^ (8 * n)) :
    amoVal fn n old v = atomicNew fn n old v := by
  cases fn with
  | max => simp only [amoVal, atomicNew, signed_of_lt hold, signed_of_lt hv]
  | min => simp only [amoVal, atomicNew, signed_of_lt hold, signed_of_lt hv]
  | maxu =>
    simp only [amoVal, atomicNew]
    split
    · exact Nat.max_eq_right (by omega)
    · exact Nat.max_eq_left (by omega)
  | minu =>
    simp only [amoVal, atomicNew]
    split
    · exact Nat.min_eq_right (by omega)
    · exact Nat.min_eq_left (by omega)
  | _ => rfl

theorem atomicNew_lt (fn : AmoFn) {n old v : Nat} (hold : old < 2 ^ (8 * n)) (hv : v < 2 ^ (8 * n)) : atomicNew fn n old v < 2 ^ (8 * n) := by
  have pick (p : Prop) [Decidable p] : (if p then v else old) < 2 ^ (8 * n) := by split <;> assumption
  cases fn with
  | add => exact Nat.mod_lt _ (by positivity)
  | and => exact Nat.and_lt_two_pow _ hv
  | or => exact Nat.or_lt_two_pow hold hv
  | xor => exact Nat.xor_lt_two_pow hold hv
  | swap => exact hv
  | max => exact pick _
  | min => exact pick _
  | maxu => exact pick _
  | minu => exact pick _

/-! ### What the housekeeping after a write leaves alone -/

/-- A record that no FILL serves. -/
def noTaker (r : WaitRec) : Prop := r.kind ≠ .take ∧ r.kind ≠ .wld

theorem servedByFill_filter (w : Nat) (p : WaitRec → Bool) (l : List WaitRec) (hp : ∀ r, p r = false → noTaker r) :
    servedByFill w (l.filter p) = servedByFill w l := by
  induction l with
  | nil => rfl
  | cons r l ih =>
    cases hr : p r with
    | true => 
      rw [List.filter_cons_of_pos hr]
      simp only [servedByFill, ih]
    | false =>
      obtain ⟨htake, hwld⟩ := hp r hr
      rw [List.filter_cons_of_neg (by simp [hr]), ih]
      rw [servedByFill]
      split
      · split
        next h => exact absurd h htake
        next h => exact absurd h hwld
        next => rfl
      · rfl

/-- Storage, FE bits and the records that a FILL serves are as before, no record is new, and messages stay on their way. -/
def HomesKept (s r : State) : Prop :=
  r.mem = s.mem ∧ r.feEmpty = s.feEmpty ∧ (∀ m ∈ s.msgs, m ∈ r.msgs) ∧
  ∀ h, (∀ y ∈ (r.home h).waits, y ∈ (s.home h).waits) ∧ ∀ w, servedByFill w (r.home h).waits = servedByFill w (s.home h).waits

namespace HomesKept

variable {s r u : State}

theorem refl (s : State) : HomesKept s s := ⟨rfl, rfl, fun _ h => h, fun _ => ⟨fun _ h => h, fun _ => rfl⟩⟩

theorem trans (h : HomesKept s r) (h' : HomesKept r u) : HomesKept s u := by
  obtain ⟨hmem, hfe, hmsg, hh⟩ := h
  obtain ⟨hmem', hfe', hmsg', hh'⟩ := h'
  exact ⟨hmem'.trans hmem, hfe'.trans hfe, fun m hm => hmsg' m (hmsg m hm),
    fun k => ⟨fun y hy => (hh k).1 y ((hh' k).1 y hy), fun w => ((hh' k).2 w).trans ((hh k).2 w)⟩⟩

theorem foldl {α : Type} (l : List α) (f : State → α → State) (s : State) (h : ∀ s x, HomesKept s (f s x)) : HomesKept s (l.foldl f s) := by
  induction l generalizing s with
  | nil => exact refl s
  | cons x l ih => exact (h s x).trans (ih _)

theorem of_cores (h : r = { s with cores := r.cores, threads := r.threads, nextId := r.nextId, owners := r.owners }) : HomesKept s r := by
  rw [h]
  exact refl _

theorem modCore (s : State) (c : Nat) (f : Core → Core) : HomesKept s (s.modCore c f) := of_cores rfl

theorem modThread (s : State) (t : Nat) (f : Thread → Thread) : HomesKept s (s.modThread t f) := by
  unfold State.modThread
  split
  · exact of_cores rfl
  · exact refl s

theorem send (s : State) (x y : Place) (o : Owner) (p : Payload) : HomesKept s (s.send x y o p) :=
  ⟨rfl, rfl, fun _ h => List.mem_append_left _ h, fun _ => ⟨fun _ h => h, fun _ => rfl⟩⟩

theorem home_setHome_same (s : State) (h : Nat) (k : Home) : (s.setHome h k).home h = k := tget_tput_same ..
theorem home_setHome_other (s : State) (h j : Nat) (k : Home) (hj : j ≠ h) : (s.setHome h k).home j = s.home j :=
  tget_tput_other _ _ _ _ _ hj

/-- A home changed, but for its records. -/
theorem setHome (s : State) (h : Nat) (k : Home) (hk : ∃ p : WaitRec → Bool, (∀ r, p r = false → noTaker r) ∧ k.waits = (s.home h).waits.filter p) :
    HomesKept s (s.setHome h k) := by
  obtain ⟨p, hp, hw⟩ := hk
  refine ⟨rfl, rfl, fun _ h => h, fun j => ?_⟩
  by_cases hj : j = h
  · subst hj
    rw [home_setHome_same, hw]
    exact ⟨fun y hy => List.mem_of_mem_filter hy, fun w => servedByFill_filter w p _ hp⟩
  · rw [home_setHome_other _ _ _ _ hj]
    exact ⟨fun _ h => h, fun _ => rfl⟩

theorem setHome_waits (s : State) (h : Nat) (k : Home) (hk : k.waits = (s.home h).waits) : HomesKept s (s.setHome h k) :=
  setHome s h k ⟨fun _ => true, nofun, by simp [hk]⟩

theorem countHome (s : State) (h c n : Nat) : HomesKept s (s.countHome h c n) := setHome_waits _ _ _ rfl

theorem serveWaitne (s : State) (loc : Nat) : HomesKept s (s.serveWaitne loc) := by
  unfold State.serveWaitne
  refine (setHome s _ _ ⟨_, fun r hr => ?_, rfl⟩).trans (foldl _ _ _ fun _ _ => send ..)
  simp only [Bool.not_eq_false', Bool.and_eq_true] at hr
  obtain ⟨-, hr⟩ := hr
  constructor
  · intro hk
    simp [hk] at hr
  · intro hk
    simp [hk] at hr

theorem lineWritten (s : State) (loc : Nat) : HomesKept s (s.lineWritten loc) := by
  unfold State.lineWritten
  split
  · exact refl s
  · dsimp only
    split
    · exact refl s
    · split
      · refine setHome_waits _ _ _ ?_
        unfold Home.install
        split
        · rfl
        · rfl
      · split
        · exact setHome_waits _ _ _ rfl
        · split
          · exact setHome_waits _ _ _ rfl
          · refine (setHome_waits _ _ _ ?_).trans (countHome ..)
            rfl

theorem dropViews (s : State) (h : Nat) (va : Word) (n : Nat) : HomesKept s (s.dropViews h va n) := by
  unfold State.dropViews
  dsimp only
  split
  · exact setHome_waits _ _ _ rfl
  · exact refl s

theorem wrote (s : State) (va : Word) (loc n : Nat) : HomesKept s (s.wrote va loc n) := by
  unfold State.wrote State.wroteAt
  exact (((of_cores rfl).trans (foldl _ _ _ fun _ _ => lineWritten ..)).trans (foldl _ _ _ fun _ _ => serveWaitne ..)).trans (dropViews ..)

theorem dropOthers (s : State) (t : Nat) (va : Word) (mask : BitVec 32) : HomesKept s (s.dropOthers t va mask) := by
  unfold State.dropOthers
  split
  · dsimp only
    split
    · exact modCore ..
    · exact refl s
  · exact refl s

theorem dropSpan (s : State) (t : Nat) (va : Word) (n : Nat) : HomesKept s (s.dropSpan t va n) := foldl _ _ _ fun _ _ => dropOthers ..

theorem noteRelease (s : State) (rel : Bool) (loc core : Nat) : HomesKept s (s.noteRelease rel loc core) := by
  unfold State.noteRelease
  split
  · exact setHome_waits _ _ _ rfl
  · exact refl s

end HomesKept

/-! ### A masked write (O44) -/

theorem storeMasked_mem (s : State) (loc : Nat) (mask : BitVec 32) (data : BitVec 256) (tags : BitVec 2) :
    (s.storeMasked loc mask data tags).mem =
      memStore s.mem (loc / 32 * 32) 32 (mergeBytes mask (s.load (loc / 32 * 32) 32) data.toNat) := by
  unfold State.storeMasked
  dsimp only
  split_ifs <;> simp

/-- Where no release store of a sector is buffered, flushing its buffer changes no storage. -/
theorem flushBuffer_mem {s : State} {h sector : Nat} (hbuf : ∀ b ∈ (s.home h).wbuf, b.sector ≠ sector) : (s.flushBuffer h sector).mem = s.mem := by
  have hnone : (s.home h).wbuf.filter (fun b => b.sector == sector) = [] := by
    rw [List.filter_eq_nil_iff]
    intro b hb
    simp [hbuf b hb]
  unfold State.flushBuffer
  simp only [hnone, List.foldl_nil]
  rfl

theorem performWrite_alone (s : State) (m : Msg) (t : Nat) (va : Word) (mask : BitVec 32) (data : BitVec 256) (tag : Option Bool) (h loc : Nat) :
    (State.performWrite.alone s m t va mask data tag h loc).1.mem =
        (((s.dropOthers t va mask).flushBuffer h (loc / 32)).storeMasked loc mask data (mergeTags mask 0 tag)).mem ∧
      (State.performWrite.alone s m t va mask data tag h loc).2 = .answer [] := by
  unfold State.performWrite.alone
  dsimp only
  split_ifs <;> simp

theorem dropOthers_homes (s : State) (t : Nat) (va : Word) (mask : BitVec 32) : (s.dropOthers t va mask).homes = s.homes := by
  unfold State.dropOthers
  split
  · dsimp only
    split <;> rfl
  · rfl

/-- Settles O44: without a buffered store the write goes through alone, and the housekeeping after it changes no byte. -/
theorem storesReachOnlyTheirBytes : Obligations.StoresReachOnlyTheirBytes := by
  unfold Obligations.StoresReachOnlyTheirBytes
  intro s m t va mask data tag loc hloc hbuf
  refine ⟨fun hc => ?_, fun c hc => by simp only [State.performWrite, hloc, hc]⟩
  have hnone : (s.home (holder loc)).wbuf.filter (fun b => b.sector == loc / 32 && b.owner == m.owner
      && (mask &&& byteMask (b.loc % 32) b.size) != 0) = [] := by
    rw [List.filter_eq_nil_iff]
    intro b hb
    simp [hbuf b hb]
  have halone : s.performWrite m t va mask data tag = State.performWrite.alone s m t va mask data tag (holder loc) loc := by
    simp only [State.performWrite, hloc, hc, hnone]
  obtain ⟨hmem, hreply⟩ := performWrite_alone s m t va mask data tag (holder loc) loc
  have hdropped : (s.dropOthers t va mask).home (holder loc) = s.home (holder loc) := by rw [State.home, dropOthers_homes]; rfl
  have hflush : ((s.dropOthers t va mask).flushBuffer (holder loc) (loc / 32)).mem = s.mem := by
    rw [flushBuffer_mem (by rwa [hdropped]), (HomesKept.dropOthers ..).1]
  rw [halone]
  refine ⟨hreply, fun i hi => ?_, fun x hx => ?_⟩
  · rw [hmem, storeMasked_mem, memByte_memStore, if_pos (by omega), Nat.add_sub_cancel_left, byte_mergeBytes _ _ _ hi]
    split
    · apply BitVec.eq_of_toNat_eq
      simp [BitVec.extractLsb'_toNat, Nat.shiftRight_eq_div_pow]
    · rw [byte_load _ _ hi, hflush]
  · rw [hmem, storeMasked_mem, memByte_memStore_outside (by omega), hflush]

end Sys2Proof.Machine
end

section
/-!
Atomics and full/empty words performed at their home (11 R263, R264, R268).
-/

namespace Sys2Proof.Machine

/-! ### Each operation at its home, in storage -/

section

variable {s : State} {h t : Nat} {th : Thread} {o : Op} {loc n : Nat}

theorem not_port (hf8 : selector o.va ≠ 0xF8) (hfc : selector o.va ≠ 0xFC) : (selector o.va == 0xF8 || selector o.va == 0xFC) = false := by
  simp [hf8, hfc]

theorem perform_amo {fn : AmoFn} {v : Word} {ord : Ord} (hport : (selector o.va == 0xF8 || selector o.va == 0xFC) = false)
    (hop : opCheck s (tcore t) (th.owner t) o.va n = .ok loc) (hact : o.act = Act.amo fn n v ord) :
    s.perform h t th o =
      let b := (s.flushAll (tcore t) (sectorsOf o.va n)).dropSpan t o.va n
      (((b.store loc n (amoVal fn n (b.load loc n) (v.toNat % 2 ^ (8 * n)))).wrote o.va loc n).noteRelease ord.isRel loc (tcore t),
        .answer [Val.ofWord (BitVec.ofNat 64 (b.load loc n))]) := by
  have hspan : (Act.amo fn n v ord).span = n := rfl
  have hreads : ((Act.amo fn n v ord).readsWords || (Act.amo fn n v ord).fills) = true := rfl
  unfold State.perform
  rw [hport]
  simp only [hact, hspan, hreads, hop, if_true, Bool.false_eq_true, if_false]

theorem perform_cas {want new : Word} {ord : Ord} (hport : (selector o.va == 0xF8 || selector o.va == 0xFC) = false)
    (hop : opCheck s (tcore t) (th.owner t) o.va n = .ok loc) (hact : o.act = Act.cas n want new ord) :
    s.perform h t th o =
      let b := (s.flushAll (tcore t) (sectorsOf o.va n)).dropSpan t o.va n
      ((if b.load loc n = want.toNat % 2 ^ (8 * n) then (b.store loc n new.toNat).wrote o.va loc n else b).noteRelease ord.isRel loc (tcore t),
        .answer [Val.ofWord (BitVec.ofNat 64 (b.load loc n))]) := by
  have hspan : (Act.cas n want new ord).span = n := rfl
  have hreads : ((Act.cas n want new ord).readsWords || (Act.cas n want new ord).fills) = true := rfl
  unfold State.perform
  rw [hport]
  simp only [hact, hspan, hreads, hop, if_true, Bool.false_eq_true, if_false]

theorem perform_wld {take : Bool} (hport : (selector o.va == 0xF8 || selector o.va == 0xFC) = false)
    (hop : opCheck s (tcore t) (th.owner t) o.va 8 = .ok loc) (hact : o.act = Act.wld take) :
    s.perform h t th o =
      let b := s.flushAll (tcore t) (sectorsOf o.va 8)
      if b.feAt loc then (if take then b.setFe loc false else b,
        .answer [Val.ofWord (BitVec.ofNat 64 (sectorField (o.seen (b.load (loc / 32 * 32) 32)) o.va 8))])
      else b.leaveWait h loc (if take then .take else .wld) t o := by
  have hspan : (Act.wld take).span = 8 := rfl
  have hreads : ((Act.wld take).readsWords || (Act.wld take).fills) = true := rfl
  unfold State.perform
  rw [hport]
  simp only [hact, hspan, hreads, hop, if_true, Bool.false_eq_true, if_false]

theorem perform_fill {v : Word} {b : State} (hport : (selector o.va == 0xF8 || selector o.va == 0xFC) = false)
    (hop : opCheck s (tcore t) (th.owner t) o.va 8 = .ok loc) (hact : o.act = .fill v)
    (hfill : (s.flushAll (tcore t) (sectorsOf o.va 8)).fillWord o.va loc v = some b) :
    s.perform h t th o = ((b.dropOthers t o.va (byteMask (o.va.toNat % 32) 8)).noteRelease true loc (tcore t), .answer []) := by
  have hspan : (Act.fill v).span = 8 := rfl
  have hreads : ((Act.fill v).readsWords || (Act.fill v).fills) = true := rfl
  unfold State.perform
  rw [hport]
  simp only [hact, hspan, hreads, hop, hfill, if_true, Bool.false_eq_true, if_false]

theorem perform_fill_full {v : Word} (hport : (selector o.va == 0xF8 || selector o.va == 0xFC) = false)
    (hop : opCheck s (tcore t) (th.owner t) o.va 8 = .ok loc) (hact : o.act = .fill v)
    (hfill : (s.flushAll (tcore t) (sectorsOf o.va 8)).fillWord o.va loc v = none) :
    s.perform h t th o = (s.flushAll (tcore t) (sectorsOf o.va 8), .refuse .doubleFill o.va) := by
  have hspan : (Act.fill v).span = 8 := rfl
  have hreads : ((Act.fill v).readsWords || (Act.fill v).fills) = true := rfl
  unfold State.perform
  rw [hport]
  simp only [hact, hspan, hreads, hop, hfill, if_true, Bool.false_eq_true, if_false]

theorem perform_empty (hport : (selector o.va == 0xF8 || selector o.va == 0xFC) = false)
    (hop : opCheck s (tcore t) (th.owner t) o.va 8 = .ok loc) (hact : o.act = Act.empty) :
    s.perform h t th o =
      (s.setFe loc false, .answer []) := by
  have hspan : (Act.empty).span = 8 := rfl
  have hreads : ((Act.empty).readsWords || (Act.empty).fills) = false := rfl
  unfold State.perform
  rw [hport]
  simp only [hact, hspan, hreads, hop, Bool.false_eq_true, if_false]

theorem perform_fest (hport : (selector o.va == 0xF8 || selector o.va == 0xFC) = false)
    (hop : opCheck s (tcore t) (th.owner t) o.va 8 = .ok loc) (hact : o.act = Act.fest) :
    s.perform h t th o =
      let b := s.flushAll (tcore t) (sectorsOf o.va 8)
      (b, .answer [Val.ofWord (BitVec.ofNat 64 (b.feAt loc).toNat)]) := by
  have hspan : (Act.fest).span = 8 := rfl
  have hreads : ((Act.fest).readsWords || (Act.fest).fills) = true := rfl
  unfold State.perform
  rw [hport]
  simp only [hact, hspan, hreads, hop, if_true, Bool.false_eq_true, if_false]

end

/-! ### FE bits -/

theorem mem_linsert (l : List Nat) (k x : Nat) : x ∈ linsert l k ↔ x = k ∨ x ∈ l := by
  induction l with
  | nil => simp [linsert]
  | cons j l ih =>
    unfold linsert
    split
    · simp
    · split
      · simp_all
      · simp only [List.mem_cons, ih]
        tauto

theorem feAt_setFe (s : State) (a x : Nat) (full : Bool) :
    (s.setFe a full).feAt x = if x / 8 = a / 8 then full else s.feAt x := by
  have hword : x / 8 * 8 = a / 8 * 8 ↔ x / 8 = a / 8 := by omega
  cases full with
  | true =>
    rw [Bool.eq_iff_iff]
    simp only [State.setFe, State.feAt, if_true, List.contains_eq_mem, Bool.not_eq_true', decide_eq_false_iff_not, List.mem_filter,
      bne_iff_ne, ne_eq, hword]
    split <;> simp_all
  | false =>
    rw [Bool.eq_iff_iff]
    simp only [State.setFe, State.feAt, Bool.false_eq_true, if_false, List.contains_eq_mem, Bool.not_eq_true', decide_eq_false_iff_not,
      mem_linsert, hword]
    split <;> simp_all

/-! ### FILL (11 R268) -/

theorem fillWord_full {s : State} {va : Word} {loc : Nat} {v : Word} (h : s.feAt loc = true) : s.fillWord va loc v = none := by
  simp [State.fillWord, h]

/-- The records a FILL serves are woken with its value. -/
theorem wake_sent (l : List WaitRec) (s : State) (h : Nat) (v : Word) :
    HomesKept s (l.foldl (fun s r => s.wakeUp h r v true) s) ∧
    ∀ y ∈ l, ∃ m ∈ (l.foldl (fun s r => s.wakeUp h r v true) s).msgs, m.payload = .wake y.who y.op v true := by
  induction l generalizing s with
  | nil => exact ⟨.refl s, nofun⟩
  | cons r l ih =>
    obtain ⟨hkept, hwoken⟩ := ih (s.wakeUp h r v true)
    refine ⟨(HomesKept.send ..).trans hkept, fun y hy => ?_⟩
    obtain rfl | hy := List.mem_cons.mp hy
    · exact ⟨_, hkept.2.2.1 _ (List.mem_append_right _ List.mem_cons_self), rfl⟩
    · exact hwoken y hy

/-- A FILL of an empty word: its value, its FE bit, and the records it served. -/
def Filled (s r : State) (loc : Nat) (v : Word) : Prop :=
  let served := servedByFill loc (s.home (holder loc)).waits
  r.load loc 8 = v.toNat ∧ (∀ x, ¬ (loc ≤ x ∧ x < loc + 8) → memByte r.mem x = memByte s.mem x) ∧
  r.feAt loc = !served.2 ∧ (∀ x, x / 8 ≠ loc / 8 → r.feAt x = s.feAt x) ∧
  ∀ y ∈ served.1, (∃ m ∈ r.msgs, m.payload = .wake y.who y.op v true) ∧ y ∉ (r.home (holder loc)).waits

theorem Filled.kept {s r u : State} {loc : Nat} {v : Word} (h : Filled s r loc v) (hk : HomesKept r u) : Filled s u loc v := by
  obtain ⟨hload, hout, hfe, hfes, hserved⟩ := h
  obtain ⟨hmem, hfe', hmsgs, hhomes⟩ := hk
  refine ⟨(load_congr fun _ _ _ => by rw [hmem]).trans hload, fun x hx => by rw [hmem, hout x hx], ?_, fun x hx => ?_, fun y hy => ?_⟩
  · rw [← hfe, State.feAt, hfe']; rfl
  · rw [← hfes x hx, State.feAt, hfe']; rfl
  · obtain ⟨⟨m, hm, hp⟩, hgone⟩ := hserved y hy
    exact ⟨⟨m, hmsgs m hm, hp⟩, fun hw => hgone ((hhomes _).1 y hw)⟩

/-- The records served taken from their chain and woken: storage, FE bits and the messages before stay. -/
theorem serve_records (s : State) (h : Nat) (served : List WaitRec) (v : Word) :
    let r := served.foldl (fun s r => s.wakeUp h r v true) (s.modHome h (fun k => { k with waits := k.waits.filter (fun r => !served.contains r) }))
    r.mem = s.mem ∧ r.feEmpty = s.feEmpty ∧
      ∀ y ∈ served, (∃ m ∈ r.msgs, m.payload = .wake y.who y.op v true) ∧ y ∉ (r.home h).waits := by
  obtain ⟨⟨hmem, hfe, -, hhomes⟩, hwoken⟩ :=
    wake_sent served (s.modHome h (fun k => { k with waits := k.waits.filter (fun r => !served.contains r) })) h v
  refine ⟨hmem, hfe, fun y hy => ⟨hwoken y hy, fun hw => ?_⟩⟩
  have hleft := (hhomes h).1 y hw
  rw [State.modHome, HomesKept.home_setHome_same] at hleft
  simp [hy] at hleft

/-- A taker leaves its word empty. -/
theorem taken (s : State) (loc : Nat) (taker : Bool) :
    let r := if taker then s.setFe loc false else s
    r.mem = s.mem ∧ r.msgs = s.msgs ∧ r.homes = s.homes ∧ ∀ x, r.feAt x = if x / 8 = loc / 8 ∧ taker = true then false else s.feAt x := by
  cases taker with
  | true => exact ⟨rfl, rfl, rfl, fun x => by simp [feAt_setFe]⟩
  | false => exact ⟨rfl, rfl, rfl, fun x => by simp⟩

/-- A FILL of an empty word writes it, makes it full and serves its records. -/
theorem fillWord_empty {s : State} {va : Word} {loc : Nat} {v : Word} (h : s.feAt loc = false) :
    ∃ r, s.fillWord va loc v = some r ∧ Filled s r loc v := by
  obtain ⟨hmem, hfe, -, hhomes⟩ : HomesKept ((s.store loc 8 v.toNat).setFe loc true) (((s.store loc 8 v.toNat).setFe loc true).wrote va loc 8) :=
    .wrote ..
  have hserved : servedByFill loc ((((s.store loc 8 v.toNat).setFe loc true).wrote va loc 8).home (holder loc)).waits =
      servedByFill loc (s.home (holder loc)).waits := (hhomes _).2 loc
  unfold State.fillWord
  simp only [h, Bool.false_eq_true, if_false, hserved]
  refine ⟨_, rfl, ?_⟩
  obtain ⟨hmem', hfe', hwoken⟩ := serve_records (((s.store loc 8 v.toNat).setFe loc true).wrote va loc 8) (holder loc)
    (servedByFill loc (s.home (holder loc)).waits).1 v
  generalize List.foldl _ _ _ = r at hmem' hfe' hwoken ⊢
  rw [hmem] at hmem'
  have hbits (x : Nat) : r.feAt x = if x / 8 = loc / 8 then true else s.feAt x := by
    rw [State.feAt, hfe', hfe]
    exact feAt_setFe (s.store loc 8 v.toNat) loc x true
  obtain ⟨hm, hmsgs, hhomes', hf⟩ := taken r loc (servedByFill loc (s.home (holder loc)).waits).2
  generalize (if (servedByFill loc (s.home (holder loc)).waits).2 = true then r.setFe loc false else r) = u at hm hmsgs hhomes' hf ⊢
  have hstored : u.mem = (s.store loc 8 v.toNat).mem := hm.trans hmem'
  refine ⟨?_, fun x hx => ?_, ?_, fun x hx => ?_, fun y hy => ?_⟩
  · rw [load_congr (t := s.store loc 8 v.toNat) (fun _ _ _ => by rw [hstored]), load_store]
    exact Nat.mod_eq_of_lt v.isLt
  · rw [hstored, memByte_store_outside hx]
  · cases hs : (servedByFill loc (s.home (holder loc)).waits).2 <;> simp [hf, hbits, hs]
  · simp [hf, hbits, hx]
  · rw [hmsgs, State.home, hhomes']
    exact hwoken y hy

/-! ### The value of a full word -/

theorem op_seen_unmasked {o : Op} (h : o.mask = 0) {bytes : Nat} (hb : bytes < 2 ^ 256) : o.seen bytes = bytes := by
  rw [Op.seen, h, mergeBytes_zero, Nat.mod_eq_of_lt hb]

theorem sectorField_load {s : State} {va : Word} {loc : Nat} (h : loc % 32 = va.toNat % 32) (hend : loc % 32 ≤ 24) :
    sectorField (s.load (loc / 32 * 32) 32) va 8 = s.load loc 8 := by
  rw [sectorField, ← h, load_field _ _ (by omega), Nat.div_add_mod']

/-! ### Bytes that the housekeeping leaves -/

theorem load_of_mem {s r : State} (h : r.mem = s.mem) (a n : Nat) : r.load a n = s.load a n := load_congr fun _ _ _ => by rw [h]

theorem wrote_load (s : State) (va : Word) (loc n a m : Nat) : (s.wrote va loc n).load a m = s.load a m := load_of_mem (wrote_mem ..) a m
theorem noteRelease_load (s : State) (rel : Bool) (loc core a m : Nat) : (s.noteRelease rel loc core).load a m = s.load a m :=
  load_of_mem (noteRelease_mem ..) a m
theorem dropSpan_mem (s : State) (t : Nat) (va : Word) (n : Nat) : (s.dropSpan t va n).mem = s.mem := (HomesKept.dropSpan ..).1
theorem dropSpan_load (s : State) (t : Nat) (va : Word) (n a m : Nat) : (s.dropSpan t va n).load a m = s.load a m :=
  load_of_mem (dropSpan_mem ..) a m

/-- Settles O43: an atomic stores its new value once; a FILL serves the chain it finds. -/
theorem atomicsAndFullEmptyWordsAtTheirHome : Obligations.AtomicsAndFullEmptyWordsAtTheirHome := by
  unfold Obligations.AtomicsAndFullEmptyWordsAtTheirHome
  refine ⟨fun s h t th o loc n hf8 hfc hn hop => ⟨fun fn v ord hact => ?_, fun want new ord hact => ?_⟩,
    fun s h t th o loc hf8 hfc hop => ?_⟩
  · rw [perform_amo (not_port hf8 hfc) hop hact]
    dsimp only
    refine ⟨by rw [dropSpan_load], ?_, fun x hx => ?_⟩
    · rw [noteRelease_load, wrote_load, load_store, dropSpan_load, amoVal_eq_atomicNew fn (load_lt ..) (Nat.mod_lt _ (by positivity)),
        Nat.mod_eq_of_lt (atomicNew_lt fn (load_lt ..) (Nat.mod_lt _ (by positivity)))]
    · rw [noteRelease_mem, wrote_mem, memByte_store_outside hx, dropSpan_mem]
  · rw [perform_cas (not_port hf8 hfc) hop hact]
    dsimp only
    refine ⟨by rw [dropSpan_load], ?_, fun x hx => ?_⟩
    · rw [noteRelease_load, dropSpan_load]
      split
      · rw [wrote_load, load_store]
      · exact dropSpan_load ..
    · rw [noteRelease_mem]
      split
      · rw [wrote_mem, memByte_store_outside hx, dropSpan_mem]
      · rw [dropSpan_mem]
  · have hport := not_port hf8 hfc
    refine ⟨fun take hact hfull => ?_, fun take hact hempty s1 hwait => ?_, fun v hact hempty => ?_, fun v hact hfull => ?_,
      fun hact => perform_empty hport hop hact, fun hact => ?_⟩
    · refine ⟨?_, fun hmask hloc hend => ?_⟩
      · rw [perform_wld hport hop hact]
        exact if_pos hfull
      · rw [op_seen_unmasked hmask (load_lt _ _ 32), sectorField_load hloc hend]
    · rw [perform_wld hport hop hact]
      refine (if_neg (by simp [hempty])).trans ?_
      rw [State.leaveWait, hwait]
    · obtain ⟨r, hfill, hfilled⟩ := fillWord_empty (va := o.va) (v := v) hempty
      rw [perform_fill hport hop hact hfill]
      exact ⟨rfl, hfilled.kept ((HomesKept.dropOthers ..).trans (HomesKept.noteRelease ..))⟩
    · exact perform_fill_full hport hop hact (fillWord_full hfull)
    · rw [perform_fest hport hop hact]
      cases hfe : (s.flushAll (tcore t) (sectorsOf o.va 8)).feAt loc <;> simp [hfe]

end Sys2Proof.Machine
end

section
/-!
The matrix unit, its tiles and the row handlers at their issue (09 R198 to R228).
-/

namespace Sys2Proof.Machine

/-! ### Tile rules (09 R198) -/

theorem tileStop_handler {s : State} {t : Nat} (th : Thread) (i : Nat) (h : isHandler t = true) :
    tileStop s t th i = some (.trap .privilege 0) := by
  simp [tileStop, h]

theorem tileStop_ready {s : State} {t : Nat} {th : Thread} {i : Nat} (h : TileReady s t th i) : tileStop s t th i = none := by
  obtain ⟨hslot, howner, hbusy, hdrain⟩ := h
  obtain hfree | hmine := howner
  · simp [tileStop, hslot, hbusy, hdrain, hfree]
  · simp [tileStop, hslot, hbusy, hdrain, hmine]

theorem tileStop_waits {s : State} {t : Nat} {th : Thread} {i : Nat} (h : TileWaits s t th i) : tileStop s t th i = some (.park (.tile i)) := by
  obtain ⟨hslot, ⟨hfree, hother⟩ | hbusy | hdrain⟩ := h
  · simp [tileStop, hslot, hfree, hother]
  · simp [tileStop, hslot, hbusy]
  · simp [tileStop, hslot, hdrain]

/-- An effect that stops where the tile rules stop it. -/
theorem tileGuards_of {i : Instr} {tile : Nat} {eff : Effect} (hx : ∀ s, exec i s = issue i s eff)
    (he : ∀ v th s e, tileStop s s.cur th tile = some e → eff v th s = .error e) : TileGuards i tile :=
  fun s th h => ⟨fun hh => exec_traps h (hx s) (he _ _ _ _ (tileStop_handler th tile (by rwa [begun_cur]))),
    fun hw => exec_stops h (hx s) (he _ _ _ _ (tileStop_waits (by rwa [begun_cur])))⟩

/-! ### MMA and SMMA (09 R206 to R208) -/

theorem exec_mma {o : MmaOps} {k : Nat} {i : Instr} (h : (mmaOf o)[k]? = some i) (s : State) : exec i s = issue i s (mmaEffect k o) := by
  obtain ⟨hk, rfl⟩ := List.getElem?_eq_some_iff.mp h
  change k < 11 at hk
  interval_cases k <;> rfl

theorem mma_tile {o : MmaOps} {k : Nat} {i : Instr} (h : (mmaOf o)[k]? = some i) (f : BitVec 6) : (i.fields f).d.x = o.d := by
  obtain ⟨hk, rfl⟩ := List.getElem?_eq_some_iff.mp h
  change k < 11 at hk
  interval_cases k <;> rfl

section

variable {o : MmaOps} {k : Nat} {v : Vals} {th : Thread} {s : State}

theorem mmaEffect_tile {e : Stop} (h : tileStop s s.cur th o.d.toNat = some e) : mmaEffect k o v th s = .error e := by
  simp only [mmaEffect, h]

theorem mmaEffect_busy (hr : TileReady s s.cur th o.d.toNat) (hu : unitBusy (s.core (tcore s.cur)) th.taskid = true) :
    mmaEffect k o v th s = .error (.park .matrixUnit) := by
  simp only [mmaEffect, tileStop_ready hr, hu, if_true]

theorem mmaEffect_checks {e : Stop} (hr : TileReady s s.cur th o.d.toNat) (hu : unitBusy (s.core (tcore s.cur)) th.taskid = false)
    (hc : matrixChecks s s.cur th k o v = .error e) : mmaEffect k o v th s = .error e := by
  simp only [mmaEffect, tileStop_ready hr, hu, hc, Bool.false_eq_true, if_false]

theorem mmaEffect_goes {m : MatrixJob} (hr : TileReady s s.cur th o.d.toNat) (hu : unitBusy (s.core (tcore s.cur)) th.taskid = false)
    (hc : matrixChecks s s.cur th k o v = .ok m) :
    mmaEffect k o v th s =
      let x := s.claimTile s.cur th m.tile
      let y := (x.1.core (tcore s.cur)).takeUnit s.cur th.taskid s.nextId
      let p := { s.newOp .out (.matrix m) (.sent 1) 0 with ticks := (x.2 || y.2).toNat }
      .ok (((x.1.setCore (tcore s.cur) y.1).modTile (tcore s.cur) m.tile (fun z => { z with busy := true })).launch s.cur p 0) := by
  simp only [mmaEffect, tileStop_ready hr, hu, hc, Bool.false_eq_true, if_false]

end

/-- A unit that waits for the matrix unit claims it and its tile. -/
theorem stopUnit_matrixUnit {i : Instr} {d : Opn} (s : State) (t : Nat) (th : Thread) (hd : ∀ f, (i.fields f).d.x = d) :
    s.stopUnit t th i (.park .matrixUnit) = (s.queueClaim t th d.toNat).setThread t { th with status := .parked .matrixUnit s.cycle } := by
  have hcycle : (s.queueClaim t th d.toNat).cycle = s.cycle := by
    unfold State.queueClaim State.claimTile
    split
    · rfl
    · dsimp only
      split <;> rfl
  have hother : (Park.matrixUnit == Park.operand) = false := rfl
  simp only [State.stopUnit, hother, Bool.false_eq_true, if_false, hd, hcycle]

/-- Settles O27: each stop of the effect and its outcome. -/
theorem matrixIssue : Obligations.MatrixIssue := by
  unfold Obligations.MatrixIssue
  intro o k i s th hi h v b c
  have hx := exec_mma hi s
  have hcur : b.cur = s.cur := begun_cur s th i
  refine ⟨fun hh => ?_, fun hw => ?_, fun hr hu => ?_, fun e hr hu hc => ?_, fun m hr hu hc => ?_⟩
  · exact exec_traps h hx (mmaEffect_tile (tileStop_handler th _ (by rwa [begun_cur])))
  · exact exec_stops h hx (mmaEffect_tile (tileStop_waits (by rwa [begun_cur])))
  · rw [exec_stops h hx (mmaEffect_busy (by rwa [begun_cur]) (by rwa [begun_cur])), stopUnit_matrixUnit _ _ _ (mma_tile hi)]
  · exact exec_stops h hx (mmaEffect_checks (by rwa [begun_cur]) (by rwa [begun_cur]) (by rwa [begun_cur]))
  · have hgoes := mmaEffect_goes (k := k) (v := v) (m := m) (by rwa [hcur]) (by rwa [hcur]) (by rwa [hcur])
    rw [hcur] at hgoes
    exact exec_goes h hx hgoes

/-! ### Formats of operands (09 R202, R204, R214) -/

theorem sideFormat_none (code : BitVec 6) (w : Option FormatWindow) : (sideFormat code w).isNone = true ↔ (w.isSome ↔ code ≠ 0) := by
  cases w <;> by_cases h : code = 0 <;> simp [sideFormat, h]

theorem intFormat_iff (f : BitVec 6) (verd : Verd) : (if f == 14 then verd != .none else isIntegerClass f) = true ↔
    (f = 14 ∧ verd ≠ .none) ∨ (f ≠ 14 ∧ isIntegerClass f = true) := by
  by_cases h : f = 14#6 <;> simp [h]

theorem iff_of_not_iff_not {p q : Prop} (h : ¬ (p ↔ ¬ q)) : p ↔ q := by tauto

theorem bne_bool_iff (a b : Bool) : (a != b) = true ↔ ¬ (a = true ↔ b = true) := by
  cases a <;> cases b <;> decide

theorem formatClash_iff (fa fb : BitVec 6) (verd : Verd) (ba bb : Nat) : formatClash fa fb verd ba bb = true ↔
    ¬ ((fa = 14 ∧ verd ≠ .none) ∨ (fa ≠ 14 ∧ isIntegerClass fa = true) ↔ (fb = 14 ∧ verd ≠ .none) ∨ (fb ≠ 14 ∧ isIntegerClass fb = true)) ∨
      (verd ≠ .none ∧ (¬ ((fa = 14 ∧ verd ≠ .none) ∨ (fa ≠ 14 ∧ isIntegerClass fa = true)) ∨
        ¬ ((fb = 14 ∧ verd ≠ .none) ∨ (fb ≠ 14 ∧ isIntegerClass fb = true)) ∨ ba ≠ bb)) := by
  rw [← intFormat_iff fa verd, ← intFormat_iff fb verd, ← bne_bool_iff]
  simp only [formatClash, Bool.or_eq_true, Bool.and_eq_true, bne_iff_ne, Bool.not_eq_true', Bool.not_eq_true, or_assoc]

/-- Settles O28: the checks after the spans are those of the formats, then that of abandoned operands. -/
theorem matrixFormatsMustAgree : Obligations.MatrixFormatsMustAgree := by
  unfold Obligations.MatrixFormatsMustAgree
  intro s t k th o v thr m int hspans
  have hA := sideFormat_none o.fa m.winA
  have hB := sideFormat_none o.fb m.winB
  have hclash : formatClash m.fa m.fb o.verd m.ba m.bb = true ↔
      ¬ (int m.fa ↔ int m.fb) ∨ (o.verd ≠ .none ∧ (¬ int m.fa ∨ ¬ int m.fb ∨ m.ba ≠ m.bb)) := formatClash_iff ..
  have hchecks : matrixChecks s t th k o v =
      if (sideFormat o.fa m.winA).isNone || (sideFormat o.fb m.winB).isNone || formatClash m.fa m.fb o.verd m.ba m.bb then
        .error (.trap .formatMismatch 0)
      else if matrixAbandoned s t m then .error (.trap .abandonedOperand 0)
      else .ok { m with thr := thr } := by
    change matrixSpans s t th o v (matrixJob s th k o v Val.zero) = .ok thr at hspans
    simp only [matrixChecks, hspans]
    rfl
  refine ⟨fun h => ?_, fun m' h => ?_⟩
  · rw [hchecks, if_pos]
    simp only [Bool.or_eq_true, hA, hB, hclash, or_assoc]
    exact h
  · rw [hchecks] at h
    split at h
    · cases h
    next hbad =>
      split at h
      · cases h
      · simp only [Bool.or_eq_true, hA, hB, hclash, not_or] at hbad
        obtain ⟨⟨hwa, hwb⟩, hint, hverd⟩ := hbad
        refine ⟨(Except.ok.inj h).symm, iff_of_not_iff_not hwa, iff_of_not_iff_not hwb, not_not.mp hint, fun hv => ?_⟩
        obtain ⟨ha, hb, hblock⟩ := by simpa only [hv, ne_eq, not_false_eq_true, true_and, not_or, not_not] using hverd
        exact ⟨ha, hb, hblock⟩

/-! ### The verdict monitor (09 R216) -/

/-- The step of an element that is not decided: the block added, and the tests unless the decision is closed. -/
theorem monitorStep_undecided {x : Monitor} {f c : BitVec 32} {inexact : Bool} {w : VerdictWord} (hf : w.vst ≠ .isFalse) (ht : w.vst ≠ .isTrue) :
    let c1 := BitVec.ofNat 32 (round32 1 ((decodeFp f32 c.toNat).plus (decodeFp f32 f.toNat)))
    let w1 := { w with nadd := min 65535 (w.nadd + 1), amax := amaxNext w.amax c1, nodec := w.nodec || inexact }
    monitorStep x f inexact c w =
      if w1.vst == .kept || w1.nodec then (c1, w1)
      else if falseTest x.verd ((decodeFp f32 c1.toNat).plus (monitorBound x w1)) x.theta then
        (BitVec.ofNat 32 (0x7FA00000 + 2 * x.q), { w1 with vst := .isFalse })
      else if trueTest x.verd ((decodeFp f32 c1.toNat).plus (monitorBound x w1).negate) x.theta then
        (if x.verd == .topk || x.need then (c1, { w1 with vst := .kept })
        else (BitVec.ofNat 32 (0x7FA00000 + 2 * x.q + 1), { w1 with vst := .isTrue }))
      else (c1, w1) := by
  unfold monitorStep
  split
  next h => exact absurd h hf
  next h => exact absurd h ht
  next => rfl

/-- Settles O29: a decided element stays, and the step of any other is its tests. -/
theorem monitorDecidesByTheBound : Obligations.MonitorDecidesByTheBound := by
  unfold Obligations.MonitorDecidesByTheBound
  intro x f c inexact w c1 w1 low high
  refine ⟨fun h => ?_, fun h => ?_, fun hopen hnodec => ?_⟩
  · obtain h | h := h <;> simp only [monitorStep, h]
  · have hkept : (w1.vst == .kept || w1.nodec) = true := by
      obtain hk | ⟨-, hn⟩ := h
      · have : w1.vst = .kept := hk
        simp [this]
      · simp [hn]
    refine (monitorStep_undecided ?_ ?_).trans (if_pos hkept)
    · obtain hk | ⟨ho, -⟩ := h <;> simp [*]
    · obtain hk | ⟨ho, -⟩ := h <;> simp [*]
  · have hopen' : (w1.vst == .kept || w1.nodec) = false := by
      have : w1.vst = .isOpen := hopen
      simp [this, hnodec]
    refine (monitorStep_undecided (by simp [hopen]) (by simp [hopen])).trans ((if_neg fun hb => Bool.false_ne_true (hopen'.symm.trans hb)).trans ?_)
    simp only [Bool.or_eq_true, beq_iff_eq]
    rfl

/-! ### Tiles to and from memory, row handlers (09 R218 to R228) -/

theorem exec_macz (p : Pfx) (d : Opn) (rel : Bool) (s : State) : exec (.macz p d rel) s = issue (.macz p d rel) s (fun _ th s =>
    match tileStop s s.cur th d.toNat with
    | some e => .error e
    | none => .ok ((s.claimed th d.toNat).modTile (tcore s.cur) d.toNat
        (fun x => if rel then { Tile.reset with fpsnap := x.fpsnap } else { x with elems := [], verd := [], shape := 0 }))) := rfl

/-- Settles O30: each effect meets the tile rules first, then its own checks. -/
theorem tileInstructionResults : Obligations.TileInstructionResults := by
  unfold Obligations.TileInstructionResults
  refine ⟨fun p d rel => ⟨?_, ?_⟩, fun o => ⟨?_, ?_⟩, fun o => ⟨?_, ?_⟩, fun p d a id => ⟨?_, ?_, ?_, ?_⟩, fun p a b => ⟨?_, ?_, ?_⟩,
    ⟨?_, ?_, ?_⟩, fun o => ⟨?_, ?_⟩⟩
  · exact tileGuards_of (exec_macz p d rel) fun v th s e h => by simp only [h]
  · exact effects_of (exec_macz p d rel) fun v th s h => by simp only [tileStop_ready h]
  · exact tileGuards_of (fun _ => rfl) fun v th s e h => by simp only [h]
  · intro s th b1 h v va c i m n hr hb hw
    have hready : tileStop (s.begun th (.macld o)) s.cur th o.d.toNat = none := tileStop_ready hr
    refine exec_goes h rfl ?_
    simp only [begun_cur, hready, accessVa, tileSpan]
    rw [hb]
    simp only [hw, Bool.false_eq_true, if_false]
    rfl
  · exact tileGuards_of (fun _ => rfl) fun v th s e h => by simp only [h]
  · intro s th b1 h v va b tl m n hr hb mode rows b2 p b3
    have hready : tileStop (s.begun th (.macst o)) s.cur th o.d.toNat = none := tileStop_ready hr
    refine exec_goes h rfl ?_
    simp only [begun_cur, hready, accessVa, tileSpan, beq_iff_eq]
    rw [hb]
    rfl
  · exact tileGuards_of (fun _ => rfl) fun v th s e h => by simp only [h]
  · exact traps_of (fun _ => rfl) fun v th s ⟨hr, ht⟩ => by simp [tileStop_ready hr, ht]
  · exact traps_of (fun _ => rfl) fun v th s ⟨hr, ht, hd⟩ => by simp [tileStop_ready hr, ht, hd]
  · refine effects_of (fun _ => rfl) fun v th s ⟨hr, ht, hd, ha⟩ => ?_
    have hcheck : (if a == 256 then none else accessCheck s th v.a (want permFE (permW ||| permFE)) (capCursor v.a.bits) 8 8) = none := by
      obtain rfl | ha := ha
      · rfl
      · rw [ha, ite_self]
    simp only [tileStop_ready hr, ht, hd, hcheck, bne_self_eq_false, Bool.not_true, Bool.false_eq_true, if_false]
    rfl
  · exact traps_of (fun _ => rfl) fun v th s ⟨ht, hk⟩ => by simp [hentryCheck, ht, hk]
  · exact traps_of (fun _ => rfl) fun v th s ⟨ht, hk, hg⟩ => by simp [hentryCheck, ht, hg, Nat.not_le.mpr hk]
  · refine effects_of (fun _ => rfl) fun v th s h => ?_
    have hentry : hentryCheck v.a = none := by
      obtain ht | ⟨hk, hg⟩ := h
      · simp [hentryCheck, ht]
      · simp [hentryCheck, hg, Nat.not_le.mpr hk]
    simp only [hentry]
  · exact traps_of (fun _ => rfl) fun v th s h => by simp [h]
  · exact traps_of (fun _ => rfl) fun v th s ⟨h, hl⟩ => by simp [h, hl]
  · exact effects_of (fun _ => rfl) fun v th s ⟨h, hl⟩ => by simp [h, hl]
  · exact traps_of (fun _ => rfl) fun v th s h => if_pos h
  · exact effects_of (fun _ => rfl) fun v th s h => if_neg (fun hb => Bool.false_ne_true (h.symm.trans hb))

end Sys2Proof.Machine
end

section
/-!
The engine and the mark family at their issue (11 R271 to R281, 12 R291 to R302).
-/

namespace Sys2Proof.Machine

/-! ### Engine operations (11 R271 to R281) -/

/-- An effect that hands an operation to the engine once its own checks have passed. -/
theorem engineTakes_of {i : Instr} {d : Opn} {ok : Vals → Thread → State → Prop} {e : Vals → Thread → State → EngOp} {eff : Effect}
    (hx : ∀ s, exec i s = issue i s eff) (he : ∀ v th s, ok v th s → eff v th s = toEngine d (e v th s) s) : EngineTakes i d ok e := by
  refine ⟨effects_of hx fun v th s ⟨hok, hroom⟩ => ?_, fun s th h hok hfull => exec_stops h (hx s) ((he _ _ _ hok).trans ?_)⟩
  · rw [he v th s hok, toEngine, hroom]
    rfl
  · rw [← begun_cur s th i] at hfull
    rw [toEngine, hfull]
    rfl

theorem shelfCheck_leased {s : State} {th : Thread} {b e : Val} {mode : Compl} (h : shelfLeased s th.domain b.lo.toNat = true) :
    shelfCheck s th b mode e = complCheck s th mode e := by
  simp [shelfCheck, h]
theorem shelfCheck_other {s : State} {th : Thread} {b e : Val} {mode : Compl} (h : shelfLeased s th.domain b.lo.toNat = false) :
    shelfCheck s th b mode e = some (.trap .lease 0) := by
  simp [shelfCheck, h]

/-- Settles O31: each effect hands its operation over once the checks before it have passed. -/
theorem engineIssue : Obligations.EngineIssue := by
  unfold Obligations.EngineIssue
  refine ⟨fun o => ?_, fun o => ?_, fun o => ?_, fun o => ?_, fun o => ?_, fun o => ⟨?_, ?_⟩, fun o => ?_, fun o => ?_⟩
  · refine engineTakes_of (fun _ => rfl) fun v th s ⟨⟨x, hshape, hcopy⟩, hcompl⟩ => ?_
    simp only [hshape, hcopy, hcompl]
    rfl
  · refine engineTakes_of (fun _ => rfl) fun v th s ⟨hspan, hplanes, hshelf, hcompl⟩ => ?_
    simp only [hspan, hplanes, shelfCheck_leased hshelf, hcompl, Bool.false_eq_true, if_false]
    rfl
  · refine engineTakes_of (fun _ => rfl) fun v th s ⟨hspan, hshelf, hcompl⟩ => ?_
    simp only [hspan, shelfCheck_leased hshelf, hcompl, beq_iff_eq]
    rfl
  · refine engineTakes_of (fun _ => rfl) fun v th s ⟨hshelf, hcompl⟩ => ?_
    simp only [shelfCheck_leased hshelf, hcompl]
    rfl
  · exact traps_of (fun _ => rfl) fun v th s hshelf => by simp only [shelfCheck_other hshelf]
  · exact traps_of (fun _ => rfl) fun v th s ⟨hspan, hplanes, hshelf⟩ => by
      simp only [hspan, hplanes, shelfCheck_other hshelf, Bool.false_eq_true, if_false]
  · exact traps_of (fun _ => rfl) fun v th s ⟨hspan, hplanes⟩ => by simp only [hspan, hplanes, if_true]
  · exact traps_of (fun _ => rfl) fun v th s ⟨hspan, hshelf⟩ => by simp only [hspan, shelfCheck_other hshelf]
  · exact effects_of (fun _ => rfl) fun v th s _ => rfl

/-! ### Checks on cells (12 R292) -/

theorem markCodes_one {dims : Nat} {q : Quad} : markCodes dims [q] =
    if codeOk q = false then some .curveHeader else if codeDim q ≠ dims then some .curveDimMismatch else none := by
  simp [markCodes]

theorem markCodes_two {dims : Nat} {q r : Quad} : markCodes dims [q, r] =
    firstFailure [(!codeOk q || !codeOk r, .curveHeader), (decide (codeDim q ≠ dims) || decide (codeDim r ≠ dims), .curveDimMismatch)] := by
  simp [markCodes, firstFailure]

section

variable {s : State} {th : Thread} {dom : Nat} {a : Val} {code lo hi : Quad}

theorem markCell_unbound (h : (s.mark dom).bound = false) : markCell s th dom a code = .error (.trap .wrongClass 0) := by
  simp [markCell, h]
theorem markCell_codes {c : Code} (h : (s.mark dom).bound = true) (hc : markCodes (s.mark dom).dims [code] = some c) :
    markCell s th dom a code = .error (.trap c 0) := by
  simp [markCell, h, hc]
theorem markCell_outside (h : (s.mark dom).bound = true) (hc : markCodes (s.mark dom).dims [code] = none)
    (ho : (s.mark dom).cells ≤ codeDigits code) :
    markCell s th dom a code = .error (.trap .bounds (cellVa (s.mark dom) (codeDigits code))) := by
  simp [markCell, h, hc, markSpan, ho]
theorem markCell_good (h : CellGood s th dom a code) : markCell s th dom a code = .ok (codeDigits code) := by
  obtain ⟨hbound, hok, hdim, hin, hacc⟩ := h
  have hcodes : markCodes (s.mark dom).dims [code] = none := by simp [markCodes_one, hok, hdim]
  simp [markCell, hbound, hcodes, markSpan, Nat.not_le.mpr hin, hacc]

theorem markBox_unbound (h : (s.mark dom).bound = false) : markBox s th dom a lo hi = .error (.trap .wrongClass 0) := by
  simp [markBox, h]
theorem markBox_codes {c : Code} (h : (s.mark dom).bound = true) (hc : markCodes (s.mark dom).dims [lo, hi] = some c) :
    markBox s th dom a lo hi = .error (.trap c 0) := by
  simp [markBox, h, hc]
theorem markBox_empty (h : (s.mark dom).bound = true) (hc : markCodes (s.mark dom).dims [lo, hi] = none)
    (he : boxEmpty (s.mark dom).dims (codeDigits lo) (codeDigits hi) = true) : markBox s th dom a lo hi = .ok true := by
  simp [markBox, h, hc, he]
theorem markBox_large (h : (s.mark dom).bound = true) (hc : markCodes (s.mark dom).dims [lo, hi] = none)
    (he : boxEmpty (s.mark dom).dims (codeDigits lo) (codeDigits hi) = false)
    (hn : 4096 < boxCount (s.mark dom).dims (codeDigits lo) (codeDigits hi)) : markBox s th dom a lo hi = .error (.trap .senseTooLarge 0) := by
  simp [markBox, h, hc, he, hn]

end

theorem markBox_good {s : State} {th : Thread} {dom : Nat} {v : Vals} (h : BoxGood s th dom v)
    (he : boxEmpty (s.mark dom).dims (codeDigits v.b.bits) (codeDigits v.c.bits) = false) :
    markBox s th dom v.a v.b.bits v.c.bits = .ok false := by
  obtain ⟨hbound, hlo, hhi, hdlo, hdhi, hn, hin, hacc⟩ := h
  have hcodes : markCodes (s.mark dom).dims [v.b.bits, v.c.bits] = none := by simp [markCodes_two, firstFailure, hlo, hhi, hdlo, hdhi]
  simp [markBox, hbound, hcodes, he, Nat.not_lt.mpr hn, markSpan, Nat.not_le.mpr hin, hacc]

/-! ### Operations on cells and boxes sent -/

theorem dropCell_cur (s : State) (t : Nat) (th : Thread) (va : Word) : (s.dropCell t th va).cur = s.cur := by
  unfold State.dropCell State.surrender
  dsimp only
  split
  · split <;> rfl
  · rfl

theorem sendMark_goes {cls : OpClass} {act : Act} {dom c : Nat} {dests : List Opn} {v : Vals} {b d : Val} {la : BitVec 4} {s b1 : State}
    {th1 : Thread} (ht : translate s s.cur (cellVa (s.mark dom) c) = .ok b1) (hth : b1.thread s.cur = some th1)
    (hp : cls = .posted → postedFull th1 = false) :
    sendMark cls act dom c dests v b d la s = .ok (markSent cls act dom c dests v b d la th1 b1) := by
  have hcur : b1.cur = s.cur := by rw [translate_only ht]
  have hmark : s.mark dom = b1.mark dom := by rw [translate_only ht]; rfl
  have hroom : (cls == .posted && postedFull th1) = false := by
    by_cases h : cls = .posted
    · simp [hp h]
    · simp [h]
  rw [← hcur] at hth
  rw [hmark] at ht
  simp only [sendMark, hmark, ht, hth, hroom, issueHome, markSent, dropCell_cur, Bool.false_eq_true, if_false]

theorem sendBox_goes {act : Act} {dom : Nat} {o : SenseOps} {v : Vals} {cont : Quad} {s b1 : State} {th1 : Thread}
    (ht : translate s s.cur (cellVa (s.mark dom) (codeDigits v.b.bits)) = .ok b1) (hth : b1.thread s.cur = some th1) :
    sendBox act dom o v cont false s = .ok (boxSent act dom o v cont th1 b1) := by
  have hb := translate_only ht
  have hcur : b1.cur = s.cur := by rw [hb]
  have hmark : s.mark dom = b1.mark dom := by rw [hb]; rfl
  have hop : s.newOp .longLat act (.sent 1) (cellVa (s.mark dom) (codeDigits v.b.bits)) =
      b1.newOp .longLat act (.sent 1) (cellVa (b1.mark dom) (codeDigits v.b.bits)) := by rw [hb]; rfl
  have hth' : s.thread s.cur = some th1 := by rw [← hth, hb]; rfl
  rw [hmark] at ht hop
  simp only [sendBox, ht, hth', hop, boxSent, hcur, hmark, Bool.false_eq_true, if_false]

/-- What the one-cell operations send. -/
theorem sendMark_exec {i : Instr} {dom : Nat} {cls : OpClass} {act : Vals → Nat → Act} {dests : List Opn} {d : Vals → Val} {la : BitVec 4}
    (hx : ∀ s, exec i s = issue i s (fun v th s =>
      match markCell s th dom v.a v.b.bits with
      | .error e => .error e
      | .ok c => sendMark cls (act v c) dom c dests v v.b (d v) la s))
    {s b1 : State} {th th1 : Thread} (h : Runs i s th) (hgood : CellGood (s.begun th i) th dom (s.vals th i).a (s.vals th i).b.bits)
    (ht : translate (s.begun th i) s.cur (cellVa ((s.begun th i).mark dom) (codeDigits (s.vals th i).b.bits)) = .ok b1)
    (hth : b1.thread s.cur = some th1) (hp : cls = .posted → postedFull th1 = false) :
    exec i s = .next (markSent cls (act (s.vals th i) (codeDigits (s.vals th i).b.bits)) dom (codeDigits (s.vals th i).b.bits) dests (s.vals th i) (s.vals th i).b
      (d (s.vals th i)) la th1 b1) := by
  rw [← begun_cur s th i] at ht hth
  refine exec_goes h (hx s) ?_
  rw [markCell_good hgood]
  exact sendMark_goes ht hth hp

/-- A stop of the checks on a cell is the instruction's. -/
theorem markCell_exec {o : MarkOps} {i : Instr} (hi : i = .mdep o ∨ i = .merase o ∨ i = .mread o) {ok : Vals → Thread → State → Prop}
    {c : Code} {a : Vals → Thread → State → Word}
    (hc : ∀ v th s, ok v th s → markCell s th o.dom.toNat v.a v.b.bits = .error (.trap c (a v th s))) : Traps i ok c a := by
  obtain rfl | rfl | rfl := hi
  · exact traps_of (fun _ => rfl) fun v th s h => by simp only [hc v th s h]
  · exact traps_of (fun _ => rfl) fun v th s h => by simp only [hc v th s h]
  · exact traps_of (fun _ => rfl) fun v th s h => by simp only [hc v th s h]

theorem markBox_exec {o : SenseOps} {i : Instr} (hi : i = .msense o ∨ i = .msamp o) {ok : Vals → Thread → State → Prop}
    {c : Code} {a : Vals → Thread → State → Word}
    (hc : ∀ v th s, ok v th s → markBox s th o.dom.toNat v.a v.b.bits v.c.bits = .error (.trap c (a v th s))) : Traps i ok c a := by
  obtain rfl | rfl := hi
  · exact traps_of (fun _ => rfl) fun v th s h => by simp only [hc v th s h]
  · exact traps_of (fun _ => rfl) fun v th s h => by simp only [hc v th s h]

/-- Settles O32: the checks in order, then what is sent to the homes. -/
theorem markIssue : Obligations.MarkIssue := by
  unfold Obligations.MarkIssue
  refine ⟨⟨fun o i hi => ⟨?_, ?_, ?_, ?_⟩, ?_⟩, ⟨?_, ?_, fun o => ?_, fun o => ?_, fun o i hi => ⟨?_, fun c => ?_, ?_⟩⟩⟩
  · exact markCell_exec hi fun v th s h => markCell_unbound h
  · exact markCell_exec hi fun v th s ⟨hb, hc⟩ => markCell_codes hb (by simp [markCodes_one, hc])
  · exact markCell_exec hi fun v th s ⟨hb, hok, hd⟩ => markCell_codes hb (by simp [markCodes_one, hok, hd])
  · exact markCell_exec hi fun v th s ⟨hb, hok, hd, hc⟩ => markCell_outside hb (by simp [markCodes_one, hok, hd]) hc
  · rintro o i cls act dests d la hi s th h v b c hgood b1 th1 ht hth hp
    obtain ⟨rfl, rfl, rfl, rfl, rfl, rfl⟩ | ⟨rfl, rfl, rfl, rfl, rfl, rfl⟩ | ⟨rfl, rfl, rfl, rfl, rfl, rfl⟩ := hi
    · exact sendMark_exec (act := fun v c => .mdep o.dom.toNat c (v.d.bits.setWidth 32)) (d := fun v => v.d) (fun _ => rfl) h hgood ht hth hp
    · exact sendMark_exec (act := fun _ c => .merase o.dom.toNat c) (d := fun _ => Val.zero) (fun _ => rfl) h hgood ht hth hp
    · exact sendMark_exec (act := fun _ c => .mread o.dom.toNat c) (d := fun _ => Val.zero) (fun _ => rfl) h hgood ht hth hp
  · intro o s th b1 th1 h v b m hgood he ht hth
    have hbox : markBox (s.begun th (.msense o)) th o.dom.toNat (s.vals th (.msense o)).a (s.vals th (.msense o)).b.bits (s.vals th (.msense o)).c.bits =
      .ok false := markBox_good hgood he
    rw [← begun_cur s th (.msense o)] at ht hth
    refine exec_goes h rfl ?_
    dsimp only
    rw [hbox]
    exact sendBox_goes ht hth
  · intro o s th b1 th1 h v b m r hgood he ht hth
    have hbox : markBox (s.begun th (.msamp o)) th o.dom.toNat (s.vals th (.msamp o)).a (s.vals th (.msamp o)).b.bits (s.vals th (.msamp o)).c.bits =
      .ok false := markBox_good hgood he
    have hcur : ((s.begun th (.msamp o)).modThread (s.begun th (.msamp o)).cur (fun x => { x with prng := r.2 })).cur = s.cur := by
      rw [State.modThread_cur, begun_cur]
    have hmark : ((s.begun th (.msamp o)).modThread (s.begun th (.msamp o)).cur (fun x => { x with prng := r.2 })).mark o.dom.toNat = m := by
      simp [State.mark, m, b]
    have hstate : b.modThread s.cur (fun x => { x with prng := r.2 }) =
        (s.begun th (.msamp o)).modThread (s.begun th (.msamp o)).cur (fun x => { x with prng := r.2 }) := by rw [begun_cur]
    rw [hstate, ← hmark, ← hcur] at ht
    rw [← hcur] at hth
    refine exec_goes h rfl ?_
    dsimp only
    rw [hbox]
    exact sendBox_goes ht hth
  · exact effects_of (fun _ => rfl) fun v th s ⟨hb, hc, he⟩ => by simp only [markBox_empty hb hc he]; rfl
  · exact effects_of (fun _ => rfl) fun v th s ⟨hb, hc, he⟩ => by simp only [markBox_empty hb hc he]; rfl
  · exact markBox_exec hi fun v th s h => markBox_unbound h
  · exact markBox_exec hi fun v th s ⟨hb, hc⟩ => markBox_codes hb (markCodes_two.trans hc)
  · exact markBox_exec hi fun v th s ⟨hb, hc, he, hn⟩ => markBox_large hb hc he hn

/-! ### Domains (12 R299 to R301) -/

theorem markSpan_outside {s : State} {th : Thread} {d : MarkDomain} {a : Val} {lo hi : Nat} (h : d.cells ≤ hi) :
    markSpan s th d a lo hi = some (.trap .bounds (cellVa d hi)) := by
  simp [markSpan, h]

theorem markSpan_good {s : State} {th : Thread} {d : MarkDomain} {a : Val} {lo hi : Nat} (h : hi < d.cells)
    (hacc : accessCheck s th a (want permAT permAT) (cellVa d lo) (8 * (hi - lo + 1)) 8 = none) : markSpan s th d a lo hi = none := by
  simp [markSpan, Nat.not_le.mpr h, hacc]

/-- The effect of MTICK past its checks: `again` says that it was done before it was re-injected (12 R299). -/
def tickOn (o : DomOps) (again : Bool) (v : Vals) (s : State) : Except Stop State :=
  let va := cellVa (s.mark o.dom.toNat) 0
  if again then .ok (s.putDest s.cur o.d (Val.ofWord (BitVec.ofNat 64 (s.mark o.dom.toNat).tick)))
  else match translate s s.cur va with
    | .error e => .error e
    | .ok s => .ok (s.launch s.cur { s.newOp .out (.mtick o.dom.toNat) (.sent 1) va with
        dests := [o.d], slot1 := slotA v va, capture := true } 0)

/-- The effect of MTICK (12 R299). -/
def mtickEffect (o : DomOps) : Effect := fun v th s =>
  if !(s.mark o.dom.toNat).bound || !(s.mark o.dom.toNat).stepped then .error (.trap .wrongClass 0)
  else match markSpan s th (s.mark o.dom.toNat) v.a 0 0 with
    | some f => .error f
    | none => tickOn o (match v.cont with | some q => q.getLsbD 0 | none => false) v s

theorem exec_mtick (o : DomOps) (s : State) : exec (.mtick o) s = issue (.mtick o) s (mtickEffect o) := rfl

theorem mtickEffect_span {o : DomOps} {v : Vals} {th : Thread} {s : State} (hb : (s.mark o.dom.toNat).bound = true)
    (hs : (s.mark o.dom.toNat).stepped = true) : mtickEffect o v th s =
      match markSpan s th (s.mark o.dom.toNat) v.a 0 0 with
      | some f => .error f
      | none => tickOn o (match v.cont with | some q => q.getLsbD 0 | none => false) v s := by
  simp only [mtickEffect, hb, hs, Bool.not_true, Bool.or_self, Bool.false_eq_true, if_false]

/-- The effect of MBIND once its descriptor is read (12 R300). -/
def bindOn (o : DomOps) (t : Nat) (a : Word) (th : Thread) (g : List Val) (s : State) : Except Stop State :=
  let dom := o.dom.toNat
  let d := domainOf th.domain g
  let d1 := { d with dhome := targetCore s (tcore t) (cellVa d 0) }
  let hs := homesOf s d1
  if descBad d then .error (.trap .formatMismatch a)
  else match baseCheck th (g.headD Val.zero) d with
    | some c => .error (.trap c (BitVec.ofNat 64 d.base))
    | none =>
      if bindStatus s dom d != 0 then .ok (s.putDest t o.d (Val.ofWord (BitVec.ofNat 64 (bindStatus s dom d))))
      else .ok (bindOp t dom o.d true hs (hs.foldl (fun z h => z.modHome h (fun k => { k with ticks := tput k.ticks dom 0 }))
        ((s.modMark dom (fun x => { d1 with gen := x.gen + 1 })).yieldCells th.domain d1)))

/-- The effect of MBIND (12 R300). -/
def mbindEffect (o : DomOps) : Effect := fun v th s =>
  let a := capCursor v.a.bits
  match accessCheck s th v.a (want permR permR) a 128 64 with
  | some c => .error (.trap c a)
  | none =>
    if ownWaits s s.cur th then .error (.park .own)
    else match readGranules (s.pullSpan (tcore s.cur) a 128) s.cur th a 8 with
      | .error c => .error (.trap c a)
      | .ok g => bindOn o s.cur a th g (s.pullSpan (tcore s.cur) a 128)

theorem exec_mbind (o : DomOps) (s : State) : exec (.mbind o) s = issue (.mbind o) s (mbindEffect o) := rfl

theorem mbindEffect_read {o : DomOps} {v : Vals} {th : Thread} {s : State} {g : List Val}
    (hacc : accessCheck s th v.a (want permR permR) (capCursor v.a.bits) 128 64 = none) (hown : ownWaits s s.cur th = false)
    (hread : readGranules (s.pullSpan (tcore s.cur) (capCursor v.a.bits) 128) s.cur th (capCursor v.a.bits) 8 = .ok g) :
    mbindEffect o v th s = bindOn o s.cur (capCursor v.a.bits) th g (s.pullSpan (tcore s.cur) (capCursor v.a.bits) 128) := by
  simp only [mbindEffect, hacc, hown, hread, Bool.false_eq_true, if_false]

section

variable {o : DomOps} {t : Nat} {a : Word} {th : Thread} {g : List Val} {s : State}

theorem bindOn_bad (h : descBad (domainOf th.domain g) = true) : bindOn o t a th g s = .error (.trap .formatMismatch a) := by
  simp [bindOn, h]
theorem bindOn_base {c : Code} (h : descBad (domainOf th.domain g) = false) (hc : baseCheck th (g.headD Val.zero) (domainOf th.domain g) = some c) :
    bindOn o t a th g s = .error (.trap c (BitVec.ofNat 64 (domainOf th.domain g).base)) := by
  simp only [bindOn, h, hc, Bool.false_eq_true, if_false]
theorem bindOn_refused (h : descBad (domainOf th.domain g) = false) (hc : baseCheck th (g.headD Val.zero) (domainOf th.domain g) = none)
    (hs : bindStatus s o.dom.toNat (domainOf th.domain g) ≠ 0) : bindOn o t a th g s =
      .ok (s.putDest t o.d (Val.ofWord (BitVec.ofNat 64 (bindStatus s o.dom.toNat (domainOf th.domain g))))) := by
  simp only [bindOn, h, hc, Bool.false_eq_true, if_false, bne_iff_ne, ne_eq, hs, not_false_eq_true, if_true]
theorem bindOn_bound (h : descBad (domainOf th.domain g) = false) (hc : baseCheck th (g.headD Val.zero) (domainOf th.domain g) = none)
    (hs : bindStatus s o.dom.toNat (domainOf th.domain g) = 0) : bindOn o t a th g s =
      let d1 := { domainOf th.domain g with dhome := targetCore s (tcore t) (cellVa (domainOf th.domain g) 0) }
      let hs := homesOf s d1
      .ok (bindOp t o.dom.toNat o.d true hs (hs.foldl (fun z h => z.modHome h (fun k => { k with ticks := tput k.ticks o.dom.toNat 0 }))
        ((s.modMark o.dom.toNat (fun x => { d1 with gen := x.gen + 1 })).yieldCells th.domain d1))) := by
  simp only [bindOn, h, hc, Bool.false_eq_true, if_false, hs, bne_self_eq_false]

end

/-- Settles O33: the checks of each instruction in order, then its access, its binding or its work for the homes. -/
theorem domainIssue : Obligations.DomainIssue := by
  unfold Obligations.DomainIssue
  refine ⟨fun o => ?_, fun o => ?_, fun o s th b1 h => ?_, fun o s th g h => ?_, fun p d dom => ?_, fun p d dom => ?_, fun p d dom => ?_⟩
  · refine traps_of (exec_mtick o) fun v th s hb => ?_
    have hbad : (!(s.mark o.dom.toNat).bound || !(s.mark o.dom.toNat).stepped) = true := by
      obtain hb | hb := hb <;> simp [hb]
    simp only [mtickEffect, hbad, if_true]
  · refine traps_of (exec_mtick o) fun v th s ⟨hb, hs, hc⟩ => ?_
    rw [mtickEffect_span hb hs, markSpan_outside hc.le]
  · intro v b va hb hs hc hacc
    have heff : mtickEffect o v th b = tickOn o (match v.cont with | some q => q.getLsbD 0 | none => false) v b := by
      rw [mtickEffect_span hb hs, markSpan_good hc hacc]
    have hcur : b.cur = s.cur := begun_cur s th _
    refine ⟨fun q hq hdone => exec_goes h (exec_mtick o s) (heff.trans ?_), fun hq ht => exec_goes h (exec_mtick o s) (heff.trans ?_)⟩
    · simp only [hq, hdone, tickOn, hcur, if_true]
    · have hnew : (match v.cont with | some q => q.getLsbD 0 | none => false) = false := by
        cases hv : v.cont with
        | none => rfl
        | some q => exact hq q hv
      have hcur1 : b1.cur = s.cur := by rw [translate_only ht, hcur]
      rw [hnew]
      simp only [tickOn, hcur, Bool.false_eq_true, if_false]
      rw [ht]
      simp only [hcur1]
      rfl
  · intro v b a r d hacc hown hread
    have hcur : b.cur = s.cur := begun_cur s th _
    have heff : mbindEffect o v th b = bindOn o s.cur a th g r := by
      rw [mbindEffect_read hacc (by rwa [hcur]) (by rwa [hcur]), hcur]
    refine ⟨fun hbad => ?_, fun c hgood hc => ?_, fun hgood hc hs => ?_, fun hgood hc hs => ?_⟩
    · exact exec_traps h (exec_mbind o s) (heff.trans (bindOn_bad hbad))
    · exact exec_traps h (exec_mbind o s) (heff.trans (bindOn_base hgood hc))
    · exact exec_goes h (exec_mbind o s) (heff.trans (bindOn_refused hgood hc hs))
    · exact exec_goes h (exec_mbind o s) (heff.trans (bindOn_bound hgood hc hs))
  · refine effects_of (fun _ => rfl) fun v th s hb => ?_
    simp only [hb, Bool.not_false, if_true]
    rfl
  · refine traps_of (fun _ => rfl) fun v th s ⟨hb, hd, hs⟩ => ?_
    simp [hb, hd, hs]
  · refine effects_of (fun _ => rfl) fun v th s ⟨hb, hd⟩ => ?_
    have hmay : ((s.mark dom.toNat).domain != th.domain && !th.sup) = false := by
      obtain hd | hd := hd <;> simp [hd]
    simp only [hb, hmay, Bool.not_true, Bool.false_eq_true, if_false]

end Sys2Proof.Machine
end

section
/-!
The scheduling family at its issue (14 R356 to R364).
-/

namespace Sys2Proof.Machine

/-! ### Partition slots and handler slots (14 R356) -/

theorem sched_handler {eff : Effect} {v : Vals} {th : Thread} {s : State} (h : isHandler s.cur = true) :
    sched eff v th s = .error (.trap .handlerOverrun 0) := by
  simp [sched, h]
theorem sched_partition {eff : Effect} {v : Vals} {th : Thread} {s : State} (h : isHandler s.cur = false) :
    sched eff v th s = eff v th s := by
  simp [sched, h]

section

variable {i : Instr} {eff : Effect}

theorem handlerTraps_of (hx : ∀ s, exec i s = issue i s (sched eff)) :
    Traps i (fun _ _ s => isHandler s.cur = true) .handlerOverrun (fun _ _ _ => 0) :=
  traps_of hx fun _ _ _ h => sched_handler h

theorem schedules_of {ok : Vals → Thread → State → Prop} {f : Vals → Thread → State → State}
    (hx : ∀ s, exec i s = issue i s (sched eff)) (he : ∀ v th s, ok v th s → eff v th s = .ok (f v th s)) : Schedules i ok f :=
  effects_of hx fun v th s ⟨hslot, hok⟩ => (sched_partition hslot).trans (he v th s hok)

theorem sched_begun {s : State} {th : Thread} (h : isHandler s.cur = false) (v : Vals) :
    sched eff v th (s.begun th i) = eff v th (s.begun th i) :=
  sched_partition (by rwa [begun_cur s th i])

end

/-! ### Group words (14 R361) -/

theorem surrender_cur (s : State) (c : Nat) (va : Word) (dom : BitVec 16) : (s.surrender c va dom).cur = s.cur := by
  unfold State.surrender
  dsimp only
  split <;> rfl
theorem giveUp_cur (s : State) (t : Nat) (th : Thread) (va : Word) : (s.giveUp t th va).cur = s.cur := by
  unfold State.giveUp
  split
  · exact surrender_cur ..
  · rfl

theorem groupRegion_iff (va : Word) :
    groupRegion va = true ↔ selector va = 0 ∨ (0xF0 ≤ selector va ∧ selector va ≤ 0xF2) := by
  simp [groupRegion]

section

variable {act : Act} {acq : Bool} {d : Opn} {v : Vals} {th : Thread} {s b : State}

theorem groupEffect_goes (hcap : capCheck v.a wantGroup.need (accessVa v).toNat 16 16 = none) (hreg : groupRegion (accessVa v) = true)
    (hstep : accessStep s th v.a wantGroup (accessVa v) 16 16 false = .ok b) :
    groupEffect act acq d v th s = .ok (groupSent act acq d v th b) := by
  simp only [groupEffect, hcap, hreg, hstep, Bool.not_true, Bool.false_eq_true, if_false, issueHome, giveUp_cur]
  rfl
theorem groupEffect_region (hcap : capCheck v.a wantGroup.need (accessVa v).toNat 16 16 = none)
    (hreg : groupRegion (accessVa v) = false) : groupEffect act acq d v th s = .error (.trap .region (accessVa v)) := by
  simp only [groupEffect, hcap, hreg, Bool.not_false, if_true]

end

/-! ### CREW (14 R362) -/

theorem crewEntry_eq (v : Val) : crewEntry v = firstFailure (entryRules v) := by
  simp [crewEntry, entryRules, firstFailure]

/-- What CREW does in a partition slot. -/
def crewEffect (o : SchedOps) (n : Option (BitVec 16)) : Effect := fun v th s =>
  let m : Nat := match n with | some i => i.toNat | none => v.b.lo.toNat
  if !th.lead then .error (.trap .privilege 0)
  else match crewEntry v.a with
    | some f => .error (.trap f 0)
    | none =>
      let st := crewStatus (s.core (tcore s.cur)) th m
      if st != 0 then .ok (s.answers o.d (Val.ofWord (BitVec.ofNat 64 st)))
      else
        let p := { s.newOp .out .nothing (.sent (m - 1)) 0 with dests := [o.d] }
        let w : CrewState :=
          { leader := th.taskid, entry := v.a, size := m, members := [s.cur], reserved := m - 1, waiting := some p.id, template := th }
        .ok ((s.modCore (tcore s.cur) (fun k => { k with crew := some w })).startOp s.cur p 0)

theorem exec_crew (o : SchedOps) (n : Option (BitVec 16)) (s : State) :
    exec (.crew o n) s = issue (.crew o n) s (sched (crewEffect o n)) := rfl

theorem crewStatus_eq (k : Core) (th : Thread) (m : Nat) : crewStatus k th m =
    if m < 2 ∨ 8 < m then 1 else if th.crew = true then 2
    else if slotCount k.partn < m then 3 else if k.crew.isSome = true then 4 else 0 := by
  simp [crewStatus]

section

variable {o : SchedOps} {n : Option (BitVec 16)} {v : Vals} {th : Thread} {s : State}

theorem crewEffect_member (h : th.lead = false) : crewEffect o n v th s = .error (.trap .privilege 0) := by
  simp [crewEffect, h]
theorem crewEffect_entry {c : Code} (h : th.lead = true) (he : firstFailure (entryRules v.a) = some c) :
    crewEffect o n v th s = .error (.trap c 0) := by
  simp [crewEffect, h, crewEntry_eq, he]

end

/-! ### The obligation -/

theorem spawn_goes {o : SchedOps} {c : Opn} {cl : BitVec 8} {s b : State} {th : Thread} (h : Runs (.spawn o c cl) s th)
    (hslot : isHandler s.cur = false)
    (hstep : accessStep (s.begun th (.spawn o c cl)) th (s.vals th (.spawn o c cl)).a wantTcb
      (capCursor (s.vals th (.spawn o c cl)).a.bits) 64 64 false = .ok b) :
    exec (.spawn o c cl) s = .next (b.launch s.cur
      { b.newOp .out (.spawn (s.vals th (.spawn o c cl)).a (if o.b = 256 then 1 else (s.vals th (.spawn o c cl)).b.lo) cl.toNat) (.sent 0)
          (capCursor (s.vals th (.spawn o c cl)).a.bits) with dests := [o.d] } 0) := by
  have hcur : b.cur = s.cur := by rw [accessStep_only hstep]; exact begun_cur s th _
  refine exec_goes h rfl ((sched_begun hslot _).trans ?_)
  simp only [hstep, hcur, beq_iff_eq]

theorem group_goes {i : Instr} {act : Act} {acq : Bool} {o : SchedOps} (hx : ∀ s, exec i s = issue i s (sched (groupEffect act acq o.d)))
    {s b : State} {th : Thread} (h : Runs i s th) (hslot : isHandler s.cur = false)
    (hcap : capCheck (s.vals th i).a wantGroup.need (accessVa (s.vals th i)).toNat 16 16 = none)
    (hreg : selector (accessVa (s.vals th i)) = 0 ∨ (0xF0 ≤ selector (accessVa (s.vals th i)) ∧ selector (accessVa (s.vals th i)) ≤ 0xF2))
    (hstep : accessStep (s.begun th i) th (s.vals th i).a wantGroup (accessVa (s.vals th i)) 16 16 false = .ok b) :
    exec i s = .next (groupSent act acq o.d (s.vals th i) th b) :=
  exec_goes h (hx s) ((sched_begun hslot _).trans (groupEffect_goes hcap ((groupRegion_iff _).mpr hreg) hstep))

theorem groupTraps_of {i : Instr} {act : Act} {acq : Bool} {o : SchedOps}
    (hx : ∀ s, exec i s = issue i s (sched (groupEffect act acq o.d))) :
    Traps i (fun v _ s => isHandler s.cur = false ∧
      (let va := capCursor v.a.bits + v.off
       capCheck v.a (permR ||| permW ||| permAT) va.toNat 16 16 = none ∧ selector va ≠ 0 ∧
       (selector va < 0xF0 ∨ 0xF2 < selector va))) .region (fun v _ _ => capCursor v.a.bits + v.off) := by
  refine traps_of hx fun v th s ⟨hslot, hcap, hzero, hrange⟩ => (sched_partition hslot).trans (groupEffect_region hcap ?_)
  have hno : ¬ groupRegion (accessVa v) = true := by
    rw [groupRegion_iff]
    rintro (h | ⟨hlo, hhi⟩)
    · exact hzero h
    · rcases hrange with h | h
      · exact absurd hlo (Nat.not_le.mpr h)
      · exact absurd hhi (Nat.not_le.mpr h)
  simpa using hno

theorem crew_answers {o : SchedOps} {n : Option (BitVec 16)} {v : Vals} {th : Thread} {s : State} {m st : Nat}
    (hm : m = match n with | some i => i.toNat | none => v.b.lo.toNat) (hst : st = crewStatus (s.core (tcore s.cur)) th m)
    (hlead : th.lead = true) (he : firstFailure (entryRules v.a) = none) (h : st ≠ 0) :
    crewEffect o n v th s = .ok (s.answers o.d (Val.ofWord (BitVec.ofNat 64 st))) := by
  subst hm hst
  simp [crewEffect, hlead, crewEntry_eq, he, h]

theorem crew_reserves {o : SchedOps} {n : Option (BitVec 16)} {v : Vals} {th : Thread} {s : State} {m : Nat}
    (hm : m = match n with | some i => i.toNat | none => v.b.lo.toNat) (hst : crewStatus (s.core (tcore s.cur)) th m = 0)
    (hlead : th.lead = true) (he : firstFailure (entryRules v.a) = none) :
    crewEffect o n v th s =
      let p := { s.newOp .out .nothing (.sent (m - 1)) 0 with dests := [o.d] }
      let w : CrewState :=
        { leader := th.taskid, entry := v.a, size := m, members := [s.cur], reserved := m - 1, waiting := some p.id, template := th }
      .ok ((s.modCore (tcore s.cur) (fun k => { k with crew := some w })).startOp s.cur p 0) := by
  subst hm
  simp [crewEffect, hlead, crewEntry_eq, he, hst]

/-- Settles O34: each member is its own effect behind the check of its slot. -/
theorem schedulingResults : Obligations.SchedulingResults := by
  unfold Obligations.SchedulingResults
  refine ⟨?_, fun o c cl s th b1 h hslot hstep => spawn_goes h hslot hstep, fun o => ?_, fun o => ?_, fun o s th h hslot habs => ?_,
    ?_, ?_, fun o n => ?_, fun o n s th h hslot hlead => ?_, fun o n c => ?_, fun o => ?_, fun o => ?_, fun o ns => ⟨?_, ?_⟩⟩
  · rintro i (⟨o, c, cl, rfl⟩ | ⟨o, rfl⟩ | ⟨o, rfl⟩ | ⟨o, rfl⟩ | ⟨o, rfl⟩ | ⟨o, rfl⟩ | ⟨o, n, rfl⟩ | ⟨o, rfl⟩ | ⟨o, rfl⟩ | ⟨o, n, rfl⟩)
    all_goals exact handlerTraps_of fun _ => rfl
  · exact schedules_of (fun _ => rfl) fun v th s _ => by simp only [beq_iff_eq]
  · exact schedules_of (fun _ => rfl) fun v th s h => by simp only [h, Bool.not_true, Bool.false_eq_true, if_false]
  · refine exec_stops h rfl ((sched_begun hslot _).trans ?_)
    simp only [habs, Bool.not_false, if_true]
  · rintro o i act acq (⟨rfl, rfl, rfl⟩ | ⟨rfl, rfl, rfl⟩ | ⟨rfl, rfl, rfl⟩) s th b1 h hslot
    all_goals exact fun hcap hreg hstep => group_goes (fun _ => rfl) h hslot hcap hreg hstep
  · rintro o i (rfl | rfl | rfl)
    all_goals exact groupTraps_of (o := o) fun _ => rfl
  · exact traps_of (exec_crew o n) fun v th s ⟨hslot, hmember⟩ => (sched_partition hslot).trans (crewEffect_member hmember)
  · intro v b m st hentry
    have hcur : b.cur = s.cur := begun_cur s th (.crew o n)
    have hst : st = crewStatus (b.core (tcore b.cur)) th m := by rw [crewStatus_eq, hcur]
    refine ⟨fun hne => ?_, fun hzero => ?_⟩
    · exact exec_goes h (exec_crew o n s) ((sched_begun hslot v).trans (crew_answers rfl hst hlead hentry hne))
    · intro p w
      refine exec_goes h (exec_crew o n s) ((sched_begun hslot v).trans ?_)
      rw [show s.begun th (.crew o n) = b from rfl, crew_reserves rfl (hst.symm.trans hzero) hlead hentry, hcur] <;> rfl
  · exact traps_of (exec_crew o n) fun v th s ⟨hslot, hlead, he⟩ => (sched_partition hslot).trans (crewEffect_entry hlead he)
  · exact schedules_of (fun _ => rfl) fun v th s _ => by simp only [beq_iff_eq]; rfl
  · exact schedules_of (fun _ => rfl) fun v th s _ => rfl
  · exact schedules_of (fun _ => rfl) fun v th s h => if_pos h
  · exact schedules_of (fun _ => rfl) fun v th s h => if_neg (Nat.not_le.mpr h)

end Sys2Proof.Machine
end

section
/-!
RDS and WRS (05 R111 to R117, 06 R141 to R143).
-/

namespace Sys2Proof.Machine

/-! ### What the registers hold and store -/

theorem ofWords_eq_seeded (a b : Word) : Prng.ofWords a b = seeded a b := by
  unfold Prng.ofWords seeded
  by_cases h : a = 0 ∧ b = 0
  · rw [if_pos h]
    obtain ⟨rfl, rfl⟩ := h
    rfl
  · rw [if_neg h]
    have hz : (a == 0 && b == 0) = false := by simpa using h
    simp only [hz, Bool.false_eq_true, if_false]

theorem drmOf_eq_storedMode (w : Word) : drmOf w = storedMode w := by
  simp [drmOf, storedMode]
theorem fmtrOf_eq_storedType (w : Word) : fmtrOf w = storedType w := by
  simp [fmtrOf, storedType]
theorem parklimOf_eq (w : Word) : parklimOf w = BitVec.ofNat 32 (max 256 (w.toNat % 2 ^ 32)) := by
  have hn : (w.extractLsb' 0 32).toNat = w.toNat % 2 ^ 32 := by simp
  unfold parklimOf
  dsimp only
  rw [← hn]
  split
  next h =>
    rw [max_eq_left h.le]
    rfl
  next h => rw [max_eq_right (Nat.not_lt.mp h), BitVec.ofNat_toNat, BitVec.setWidth_eq]

theorem prng0Word_eq (p : Prng) : prng0Word p = BitVec.ofNat 64 (p.s0.toNat + 2 ^ 32 * p.s1.toNat) := by
  rw [Nat.mul_comm]
  exact append_eq_ofNat p.s1 p.s0
theorem prng1Word_eq (p : Prng) : prng1Word p = BitVec.ofNat 64 (p.s2.toNat + 2 ^ 32 * p.s3.toNat) := by
  rw [Nat.mul_comm]
  exact append_eq_ofNat p.s3 p.s2

/-! ### The rights of a WRS (05 R112, 06 R143) -/

theorem readOnlyStatus_iff (n : BitVec 12) : readOnlyStatus n.toNat = true ↔
    n ∈ ([0x006, 0x009, 0x00A, 0x00B, 0x100, 0x101, 0x106] : List (BitVec 12)) := by
  simp [readOnlyStatus, ← BitVec.toNat_inj]
theorem supStatus_iff (n : BitVec 12) : supStatus n.toNat = true ↔
    0x100 ≤ n.toNat ∨ n ∈ ([0x000, 0x004, 0x005, 0x008] : List (BitVec 12)) := by
  simp [supStatus, ← BitVec.toNat_inj]

theorem wrsCheck_none_iff {t : Nat} {th : Thread} {n : BitVec 12} {v : Val} :
    wrsCheck t th n.toNat v = none ↔ MayWrite t th n v := by
  have hzero : n.toNat = 0 ↔ n = 0 := by simp [← BitVec.toNat_inj]
  rw [MayWrite, ← readOnlyStatus_iff, ← supStatus_iff, ← hzero]
  simp only [wrsCheck, tstatFixed, Bool.and_eq_true, bne_iff_ne, beq_iff_eq, Bool.not_eq_true']
  by_cases hro : readOnlyStatus n.toNat = true
  · simp [hro]
  rw [if_neg hro]
  by_cases hsup : supStatus n.toNat = true ∧ th.sup = false
  · simp [hsup]
  rw [if_neg hsup]
  have hs : supStatus n.toNat = true → th.sup = true := by simpa using hsup
  simp only [hro, not_false_eq_true, true_and, ite_eq_right_iff, reduceCtorEq, imp_false, not_and, ne_eq, not_not]
  exact ⟨fun h => ⟨hs, h⟩, fun h => h.2⟩

theorem wrsCheck_cases (t : Nat) (th : Thread) (n : Nat) (v : Val) :
    wrsCheck t th n v = none ∨ wrsCheck t th n v = some .privilege := by
  unfold wrsCheck
  split
  · exact .inr rfl
  · split
    · exact .inr rfl
    · split
      · exact .inr rfl
      · exact .inl rfl

theorem wrsCheck_refused {t : Nat} {th : Thread} {n : BitVec 12} {v : Val} (h : ¬ MayWrite t th n v) :
    wrsCheck t th n.toNat v = some .privilege :=
  (wrsCheck_cases t th n.toNat v).resolve_left fun hn => h (wrsCheck_none_iff.mp hn)

/-! ### The two instructions -/

section

variable {d a : Opn} {n : BitVec 12} {s : State} {th : Thread}

theorem rds_waits (h : Runs (.rds d n) s th) (hn : n = 1) (hf : flagsPending th = true) :
    exec (.rds d n) s = .next (({ s with issuing := false }).stopUnit s.cur th (.rds d n) .wait) := by
  refine exec_stops h rfl ?_
  simp only [hn, hf, beq_self_eq_true, Bool.and_self, if_true]

theorem rds_goes {now : Thread} (h : Runs (.rds d n) s th) (hnow : (s.begun th (.rds d n)).thread s.cur = some now)
    (hf : ¬ (n = 1 ∧ flagsPending th = true)) :
    exec (.rds d n) s =
      .next ((s.begun th (.rds d n)).putDest s.cur d (statusVal (s.begun th (.rds d n)) s.cur now s.unit.addr n.toNat)) := by
  have hgo : (n == 1 && flagsPending th) = false := by simpa using hf
  refine exec_goes h rfl ?_
  simp only [hgo, Bool.false_eq_true, if_false, begun_cur, begun_unit, hnow, Option.getD_some, finish]

theorem wrs_traps : Traps (.wrs a n) (fun v th s => ¬ MayWrite s.cur th n v.a) .privilege (fun _ _ _ => 0) :=
  traps_of (fun _ => rfl) fun v th s h => by simp only [wrsCheck_refused h]

theorem wrs_waits (h : Runs (.wrs a n) s th) (hm : MayWrite s.cur th n (s.vals th (.wrs a n)).a) (hn : n = 1)
    (hf : flagsPending th = true) :
    exec (.wrs a n) s = .next (({ s with issuing := false }).stopUnit s.cur th (.wrs a n) .wait) := by
  refine exec_stops h rfl ?_
  simp only [begun_cur, wrsCheck_none_iff.mpr hm]
  simp only [hn, hf, beq_self_eq_true, Bool.and_self, if_true]

theorem wrs_goes (h : Runs (.wrs a n) s th) (hm : MayWrite s.cur th n (s.vals th (.wrs a n)).a)
    (hf : n = 1 → flagsPending th = false) :
    exec (.wrs a n) s = .next (
      if n.toNat < 0x100 then (s.begun th (.wrs a n)).modThread s.cur (fun x => x.wrs n.toNat (s.vals th (.wrs a n)).a)
      else (s.begun th (.wrs a n)).modCore (tcore s.cur) (fun k => k.wrs th.domain n.toNat (s.vals th (.wrs a n)).a)) := by
  have hgo : (n == 1 && flagsPending th) = false := by
    rw [Bool.and_eq_false_imp, beq_iff_eq]
    exact hf
  refine exec_goes h rfl ?_
  simp only [begun_cur, wrsCheck_none_iff.mpr hm, hgo, Bool.false_eq_true, if_false]
  exact (apply_ite Except.ok _ _ _).symm

end

/-- Settles O35: RDS delivers the value of its register, WRS stores into the one it names, each clause one row of the table. -/
theorem statusRegisterResults : Obligations.StatusRegisterResults := by
  unfold Obligations.StatusRegisterResults
  refine ⟨fun d n s th h => ?_, fun a n => ⟨wrs_traps, fun s th h hm => wrs_waits h hm, fun s th h hm hf => ?_⟩⟩
  · intro b now hnow
    refine ⟨rds_waits h, fun hf => ⟨_, rds_goes h hnow hf, ?_⟩⟩
    refine ⟨?_, ?_, ?_, ?_, ?_, ?_, ?_, ?_, ?_, ?_, ?_, ?_, ?_, ?_, ?_, ?_, ?_, ?_, ?_, ?_⟩
    all_goals rintro rfl
    case refine_3 => exact congrArg Val.ofWord (prng0Word_eq now.prng)
    case refine_4 => exact congrArg Val.ofWord (prng1Word_eq now.prng)
    case refine_5 => exact congrArg Val.ofWord (BitVec.ofNat_toNat 64 now.turns).symm
    case refine_14 => exact congrArg Val.ofWord (BitVec.ofNat_toNat 64 (b.core (tcore s.cur)).partn).symm
    case refine_15 => exact congrArg Val.ofWord (BitVec.ofNat_toNat 64 (b.core (tcore s.cur)).fmtr).symm
    case refine_16 => exact congrArg Val.ofWord (BitVec.ofNat_toNat 64 (b.core (tcore s.cur)).parklim).symm
    all_goals rfl
  · intro v b mine cores
    have hgo := wrs_goes h hm hf
    refine ⟨?_, ?_, ?_, ?_, ?_, ?_, ?_, ?_, ?_, ?_, ?_, ?_, ?_⟩
    all_goals
      rintro rfl
      refine hgo.trans ?_
    case refine_2 => simp only [← drmOf_eq_storedMode]; rfl
    case refine_3 => simp only [← ofWords_eq_seeded]; rfl
    case refine_4 => simp only [← ofWords_eq_seeded]; rfl
    case refine_9 => simp only [← fmtrOf_eq_storedType]; rfl
    case refine_10 => simp only [← parklimOf_eq]; rfl
    all_goals rfl

end Sys2Proof.Machine
end

section
/-!
Traps entered and left (15 R366 to R377).
-/

namespace Sys2Proof.Machine

/-! ### Reads made in one go leave the threads as they are -/

@[simp] theorem unregister_threads (s : State) (loc : Nat) (me : Owner) : (s.unregister loc me).threads = s.threads := by
  simp [State.unregister]
@[simp] theorem wbackAt_threads (s : State) (c : Nat) (va : Word) (mask : BitVec 32) (data : BitVec 256) (tags : BitVec 2) (me : Owner)
    (clear : Bool) : (s.wbackAt c va mask data tags me clear).threads = s.threads := by
  unfold State.wbackAt
  split
  · dsimp only
    split_ifs <;> simp
  · rfl
@[simp] theorem landHeld_threads (s : State) (c : Nat) (va : Word) (dom : BitVec 16) (clear : Bool) :
    (s.landHeld c va dom clear).threads = s.threads := by
  unfold State.landHeld
  simp
@[simp] theorem landSent_threads (s : State) (hit : Nat → Owner → Bool → Bool) : (s.landSent hit).threads = s.threads := by
  unfold State.landSent
  refine foldl_threads _ _ _ fun s m => ?_
  split
  · split_ifs <;> simp
  · rfl
@[simp] theorem settleCore_threads (s : State) (c : Nat) : (s.settleCore c).threads = s.threads := by
  unfold State.settleCore
  refine foldl_threads _ _ _ fun s x => ?_
  split_ifs <;> rfl
@[simp] theorem pullCore_threads (s : State) (c : Nat) : (s.pullCore c).threads = s.threads := by
  unfold State.pullCore
  exact (foldl_threads _ _ _ fun s x => by simp).trans (by simp)
@[simp] theorem pullNow_threads (s : State) (h sector : Nat) : (s.pullNow h sector).threads = s.threads := by
  unfold State.pullNow
  exact (State.modHome_threads ..).trans (foldl_threads _ _ _ fun s c => by simp)
@[simp] theorem homeRead_threads (s : State) (loc : Nat) : (s.homeRead loc).threads = s.threads := by
  unfold State.homeRead
  dsimp only
  split_ifs <;> simp
@[simp] theorem readPhys_threads (s : State) (loc n : Nat) : (s.readPhys loc n).threads = s.threads := by
  unfold State.readPhys
  exact foldl_threads _ _ _ fun s i => by simp
@[simp] theorem leaseRead_threads (s : State) (dom : BitVec 16) : (s.leaseRead dom).threads = s.threads := by
  unfold State.leaseRead
  split_ifs <;> simp

/-! ### The plan of a trap (15 R367) -/

theorem deliver_revoked (th : Thread) (ds : List Opn) (vs : List Val) : (th.deliver ds vs).revoked = th.revoked := by
  unfold Thread.deliver
  generalize ds.zip vs = l
  induction l generalizing th with
  | nil => rfl
  | cons x xs ih =>
    rw [List.foldl_cons, ih]
    unfold Thread.write Thread.setReg
    split <;> rfl
theorem keepRest_revoked (th : Thread) (o : Op) (vs : List Val) : (th.keepRest o vs).revoked = th.revoked := by
  unfold Thread.keepRest
  split <;> rfl
theorem foldl_revoked {α : Type} (f : Thread → α → Thread) (hf : ∀ th x, (f th x).revoked = th.revoked) (l : List α) (th : Thread) :
    (l.foldl f th).revoked = th.revoked := by
  induction l generalizing th with
  | nil => rfl
  | cons x xs ih => rw [List.foldl_cons, ih, hf]

theorem trapPlan_revoked (th : Thread) (code : Option Code) (cause : Word) (held : List Entry) (fpc next : Word) (again : Bool) :
    (trapPlan th code cause held fpc next again).th.revoked = th.revoked := by
  have hfin : ∀ (ops : List Op) (th : Thread), (ops.foldl (fun th o => match o.phase with
      | .done vs => let x := th.deliver o.dests vs; { x with flags := x.flags.or o.flags }
      | _ => th) th).revoked = th.revoked := fun ops th => foldl_revoked _ (fun th o => by
    split
    · exact deliver_revoked ..
    · rfl) ops th
  unfold trapPlan
  dsimp only
  split
  · refine (foldl_revoked _ (fun th o => ?_) _ _).trans (hfin _ _)
    split
    · exact keepRest_revoked ..
    · rfl
  · exact hfin _ _

/-- The causes of the statement are those of the plan. -/
theorem trapPlan_causes (th : Thread) (code : Option Code) (cause : Word) (held : List Entry) (fpc next : Word) (again fatal : Bool)
    (now : Word) :
    (trapPlan th code cause held fpc next again).causes now th.ops code cause fpc fatal =
      let p := trapPlan th code cause held fpc next again
      let me : Cause := ⟨p.fpc, p.cause, now, p.code⟩
      if th.revoked = true then [me, ⟨BitVec.ofNat 64 p.th.pc, 0, now, .leaseRevoked⟩]
      else match code, oldestRefused th.ops with
        | some x, some _ => if fatal = true then [me, ⟨fpc, cause, now, x⟩] else [me]
        | _, _ => [me] := by
  unfold TrapPlan.causes
  rw [trapPlan_revoked] <;> rfl

/-! ### The thread that enters its handler (15 R367) -/

/-- A thread as it enters its handler. -/
def Thread.entering (x : Thread) (p : TrapPlan) (entry : Val) (me : Cause) : Thread :=
  { (((x.setReg 0 entry).setReg 1 p.th.trapcap).setReg 2 (Val.ofWord (p.code.num.setWidth 64))).setReg 3 (Val.ofWord p.cause) with
    pcc := entry, sup := true, trapActive := some me, resuming := false }

/-- The thread as its frame is written. -/
def TrapPlan.settled (p : TrapPlan) : Thread := { p.th with ops := [], reinject := [], windows := [], status := .ready }

theorem entering_trapped {p : TrapPlan} {x : Thread} (entry : Val) (me : Cause) (h : SameButStores p.settled x) :
    Trapped p entry me (x.entering p entry me) := by
  have hreg : ∀ k, x.reg k = p.th.reg k := fun k => by rw [h]; rfl
  rw [h]
  refine ⟨?_, ?_, ?_, ?_, fun k hk => ?_, rfl, rfl, rfl, rfl, rfl, rfl, rfl, rfl, rfl, rfl⟩
  · exact (reg_setReg_other _ _ _ _ (by decide)).trans ((reg_setReg_other _ _ _ _ (by decide)).trans
      ((reg_setReg_other _ _ _ _ (by decide)).trans (reg_setReg_same ..)))
  · exact (reg_setReg_other _ _ _ _ (by decide)).trans ((reg_setReg_other _ _ _ _ (by decide)).trans (reg_setReg_same ..))
  · exact (reg_setReg_other _ _ _ _ (by decide)).trans (reg_setReg_same ..)
  · exact reg_setReg_same ..
  · have other : ∀ (y : Thread) j v, j < 4 → (y.setReg j v).reg k = y.reg k := fun y j v hj =>
      reg_setReg_other _ _ _ _ (by omega)
    exact (other _ 3 _ (by decide)).trans ((other _ 2 _ (by decide)).trans ((other _ 1 _ (by decide)).trans
      ((other _ 0 _ (by decide)).trans rfl)))

section

variable {s : State} {t : Nat} {th : Thread} {code : Option Code} {cause fpc next : Word} {held : List Entry} {again fatal : Bool}

/-- The state as a settled thread's trap is entered: its loads sampled, its operations done with. -/
def State.trapSettled (s : State) (t : Nat) (th : Thread) (p : TrapPlan) : State := (s.sampleLoads t th.ops).setThread t p.settled

theorem enterTrap_eq (ht : s.thread t = some th) (hst : th.status = .trapping code cause held fpc next again fatal)
    (hd : th.dispatch = none) :
    s.enterTrap t =
      let p := trapPlan th code cause held fpc next again
      let now := BitVec.ofNat 64 (s.now t)
      let me : Cause := ⟨p.fpc, p.cause, now, p.code⟩
      let own := p.causes now th.ops code cause fpc fatal
      let s := s.trapSettled t th p
      match th.trapActive with
      | some old => s.fatalEnd t p (old :: own)
      | none =>
        if fatal || codeFatal p.code then s.fatalEnd t p own
        else
          let s := s.leaseRead th.domain
          match trapEntryOf s th.domain with
          | none => s.fatalEnd t p [me]
          | some entry =>
            match writeFrame s t p with
            | .error none => s.fatalEnd t p [me]
            | .error (some f) => s.fatalEnd t p [me, ⟨p.fpc, capCursor p.th.trapcap.bits, now, f⟩]
            | .ok s => s.modThread t (fun x => x.entering p entry me) := by
  simp only [State.enterTrap, ht, hst, hd, Option.isSome_none, Bool.false_eq_true, if_false]
  rfl

theorem leaseRead_trapSettled_thread (s : State) (t : Nat) (th : Thread) (p : TrapPlan) (dom : BitVec 16) :
    ((s.trapSettled t th p).leaseRead dom).thread t = some p.settled := by
  rw [State.thread, leaseRead_threads]
  exact thread_setThread_same ..

end

/-- Settles O36: with the checks before it passed, each clause is one branch of the entry. -/
theorem trapEntrySavesAndJumps : Obligations.TrapEntrySavesAndJumps := by
  unfold Obligations.TrapEntrySavesAndJumps
  intro s t th code cause fpc next held again fatal ht hst hd p me own s1 s0
  have hown : own = p.causes (BitVec.ofNat 64 (s.now t)) th.ops code cause fpc fatal := (trapPlan_causes ..).symm
  have henter := enterTrap_eq ht hst hd
  have hs0 : (s.trapSettled t th p).leaseRead th.domain = s0 := rfl
  simp only [show trapPlan th code cause held fpc next again = p from rfl, hs0, ← hown] at henter
  refine ⟨fun hact hfatal hcode entry s2 hentry hframe => ?_, fun old hact => ?_, fun hact => ⟨fun hf => ?_, fun hfatal hcode => ⟨fun he => ?_,
    fun entry he => ⟨fun hframe => ?_, fun f hframe => ?_⟩⟩⟩⟩
  · obtain ⟨y, hy, hsame⟩ := writeFrame_thread (leaseRead_trapSettled_thread s t th p th.domain) hframe
    have hgo : s.enterTrap t = s2.setThread t (y.entering p entry me) := by
      simp only [henter, hact, hfatal, hcode, hentry, hframe, Bool.or_self, Bool.false_eq_true, if_false, State.modThread, hy]
      rfl
    exact ⟨y.entering p entry me, y, by rw [hgo, thread_setThread_same], entering_trapped entry me hsame, hy, rfl, hgo⟩
  · simp only [henter, hact]
    rfl
  · simp only [henter, hact, Bool.or_eq_true, hf, if_true]
    rfl
  · simp only [henter, hact, hfatal, hcode, he, Bool.or_self, Bool.false_eq_true, if_false]
    rfl
  · simp only [henter, hact, hfatal, hcode, he, hframe, Bool.or_self, Bool.false_eq_true, if_false]
    rfl
  · simp only [henter, hact, hfatal, hcode, he, hframe, Bool.or_self, Bool.false_eq_true, if_false]
    rfl

end Sys2Proof.Machine
end

section
/-!
The system family at its issue: returns, dumps, halts and the privileged instructions (15 R372 to R379, 16 R392 to R395).
-/

namespace Sys2Proof.Machine

/-! ### TRAP and BRK (15 R373) -/

section

variable {code : Code} {imm : BitVec 16} {v : Vals} {th : Thread} {s : State}

theorem softEffect_first (h : isReplay s.unit th = false) :
    softEffect code imm v th s = .ok (s.softTrap s.cur false code (imm.setWidth 64)) := by
  simp [softEffect, h]
theorem softEffect_again (h : isReplay s.unit th = true) (hset : th.ops.all Op.isSettled = true) :
    softEffect code imm v th s = .ok (s.softTrap s.cur true code (imm.setWidth 64)) := by
  simp only [softEffect, h, hset, Bool.not_true, Bool.and_false, Bool.false_eq_true, if_false]
theorem softEffect_waits (h : isReplay s.unit th = true) (hset : th.ops.all Op.isSettled = false) :
    softEffect code imm v th s = .error .wait := by
  simp only [softEffect, h, hset, Bool.not_false, Bool.and_self, if_true]

end

/-! ### RTE (15 R372) -/

/-- A thread as a frame's first eight granules and its entries restore it. -/
def Thread.returned (x : Thread) (head : List Val) (es : List Entry) : Thread :=
  { (((x.setReg 0 (head.getD 1 Val.zero)).setReg 1 (head.getD 2 Val.zero)).setReg 2 (head.getD 3 Val.zero)).setReg 3
      (head.getD 4 Val.zero) with
    sup := (head.getD 5 Val.zero).lo.toNat / 2 ^ 16 % 2 == 1, trapActive := none, pcc := head.headD Val.zero
    reinject := es, resuming := true }

theorem returned_spec (head : List Val) (es : List Entry) (th : Thread) : Returned head es th (th.returned head es) := by
  have other : ∀ (y : Thread) i j v, j ≠ i → (y.setReg i v).reg j = y.reg j := fun y i j v h => reg_setReg_other _ _ _ _ h
  refine ⟨fun k hk => ?_, fun k hk => ?_, ?_, rfl, rfl, rfl, rfl⟩
  · obtain rfl | rfl | rfl | rfl : k = 0 ∨ k = 1 ∨ k = 2 ∨ k = 3 := by omega
    · exact (other _ 3 0 _ (by decide)).trans ((other _ 2 0 _ (by decide)).trans ((other _ 1 0 _ (by decide)).trans
        (reg_setReg_same ..)))
    · exact (other _ 3 1 _ (by decide)).trans ((other _ 2 1 _ (by decide)).trans (reg_setReg_same ..))
    · exact (other _ 3 2 _ (by decide)).trans (reg_setReg_same ..)
    · exact reg_setReg_same ..
  · exact (other _ 3 k _ (by omega)).trans ((other _ 2 k _ (by omega)).trans ((other _ 1 k _ (by omega)).trans
      (other _ 0 k _ (by omega))))
  · show ((head.getD 5 Val.zero).lo.toNat / 2 ^ 16 % 2 == 1) = (head.getD 5 Val.zero).lo.getLsbD 16
    rw [BitVec.getLsbD, Nat.testBit_eq_decide_div_mod_eq]
    rfl

section

variable {s : State} {t : Nat} {th : Thread} {v : Val} {head gs : List Val}

/-- A frame that is read whole: what is left is whether its entries form a queue. -/
theorem returnFromTrap_read (hhead : accessCheck s th v wantRte (capCursor v.bits) 128 128 = none) (hown : ownWaits s t th = false)
    (hread : readGranules (s.pullSpan (tcore t) (capCursor v.bits) 128) t th (capCursor v.bits) 8 = .ok head)
    (hrest : accessCheck (s.pullSpan (tcore t) (capCursor v.bits) 128) th v wantRte (capCursor v.bits)
      (128 + 64 * ((head.getD 5 Val.zero).lo.toNat / 256 % 256)) 128 = none)
    (hgs : readGranules ((s.pullSpan (tcore t) (capCursor v.bits) 128).pullSpan (tcore t) (capCursor v.bits + 128)
      (64 * ((head.getD 5 Val.zero).lo.toNat / 256 % 256))) t th (capCursor v.bits + 128)
      (4 * ((head.getD 5 Val.zero).lo.toNat / 256 % 256)) = .ok gs) :
    s.returnFromTrap t th v =
      if 16 < (head.getD 5 Val.zero).lo.toNat / 256 % 256 || !entriesOk (entriesOf gs) then
        .error (.trap .formatMismatch (capCursor v.bits))
      else
        let b := (s.pullSpan (tcore t) (capCursor v.bits) 128).pullSpan (tcore t) (capCursor v.bits + 128)
          (64 * ((head.getD 5 Val.zero).lo.toNat / 256 % 256))
        .ok ((b.setThread t (((b.thread t).getD th).returned head (entriesOf gs))).flushEntries t 16) := by
  simp only [State.returnFromTrap, hhead, hown, hread, hrest, hgs, Bool.false_eq_true, if_false]
  rfl

end

/-- Settles O37: TRAP and BRK by their effect's three cases, RTE by the frame it reads. -/
theorem trapReturnDumpHaltResults : Obligations.TrapReturnDumpHaltResults := by
  unfold Obligations.TrapReturnDumpHaltResults
  refine ⟨?_, fun a => ?_, ?_, fun d => ?_, fun b => ?_⟩
  · rintro imm i c (⟨rfl, rfl⟩ | ⟨rfl, rfl⟩)
    all_goals
      refine ⟨effects_of (fun _ => rfl) fun v th s h => softEffect_first h,
        effects_of (fun _ => rfl) fun v th s h => softEffect_again h.1 h.2, fun s th h hr hset => exec_stops h rfl ?_⟩
      exact softEffect_waits (by rwa [begun_unit]) hset
  · exact traps_of (fun _ => rfl) fun v th s h => by simp only [h, Option.isNone_none, if_true]
  · intro a s th head gs h hact v b va asks hhead hown b1 hread n hrest b2 hgs
    have hno : th.trapActive.isNone = false := by rw [Option.isNone_eq_false_iff]; exact hact
    have hret := returnFromTrap_read hhead hown hread hrest hgs
    refine ⟨fun hbad => ?_, fun hn hok now hnow => ⟨now.returned head (entriesOf gs), returned_spec head _ now, ?_⟩⟩
    · refine exec_traps h rfl ?_
      simp only [hno, Bool.false_eq_true, if_false, begun_cur]
      refine hret.trans (if_pos ?_)
      rw [Bool.or_eq_true, decide_eq_true_iff, Bool.not_eq_true']
      exact hbad
    · refine exec_goes h rfl ?_
      simp only [hno, Bool.false_eq_true, if_false, begun_cur]
      refine hret.trans ((if_neg ?_).trans ?_)
      · rw [hok, Bool.not_true, Bool.or_false, decide_eq_true_iff]
        exact Nat.not_lt.mpr hn
      show Except.ok ((b2.setThread s.cur (((b2.thread s.cur).getD th).returned head (entriesOf gs))).flushEntries s.cur 16) = _
      rw [hnow]
      rfl
  · exact effects_of (fun _ => rfl) fun v th s _ => rfl
  · exact effects_of (fun _ => rfl) fun v th s _ => rfl

/-! ### The privileged instructions -/

/-- A check that a z operand passes. -/
theorem optionalCheck_none {α : Type} {p : Prop} [Decidable p] {c : Option α} (h : p ∨ c = none) : (if p then none else c) = none :=
  ite_eq_left_iff.mpr fun hp => h.resolve_left hp

theorem repartCode_toNat (p : BitVec 2) (split : Bool) :
    (repartCode p split).toNat = if split then p.toNat - 1 else min 3 (p.toNat + 1) := by
  revert p split
  decide

theorem leaseRangeCheck_good {v : Val} (h : GoodRange v) : leaseRangeCheck v = none := by
  obtain ⟨htag, hkind, hbase, htop, hend⟩ := h
  simp only [leaseRangeCheck, htag, hkind, hbase, htop, Bool.not_true, Bool.false_eq_true, if_false, bne_self_eq_false, Bool.or_self,
    Int.not_lt.mpr hend]

theorem pgmoveCheck_good {a b : Val} (htag : a.tag = true) (hkind : capKind a.bits = 0) (halign : (capCursor a.bits).toNat % 2 ^ 18 = 0)
    (hreg : selector (capCursor a.bits) = 0) (hb : b.lo.toNat < 2 ^ 22) : pgmoveCheck a b = none := by
  simp only [pgmoveCheck, htag, hkind, halign, hreg, Nat.div_eq_of_lt hb, Bool.not_true, Bool.false_eq_true, if_false, bne_self_eq_false]

/-- Settles O38: SUP first, then each instruction's own checks and its operation. -/
theorem privilegedInstructionResults : Obligations.PrivilegedInstructionResults := by
  unfold Obligations.PrivilegedInstructionResults
  refine ⟨?_, fun d split => ?_, fun d split => ?_, fun o => ?_, fun p d a w => ?_, ?_, fun d a b sc => ?_, fun d a b => ?_⟩
  · rintro i (⟨d, split, rfl⟩ | ⟨o, rfl⟩ | ⟨p, d, a, w, rfl⟩ | ⟨o, rfl⟩ | ⟨o, rfl⟩ | ⟨o, rfl⟩ | ⟨o, rfl⟩ | ⟨o, rfl⟩ | ⟨d, a, b, sc, rfl⟩ |
      ⟨d, a, b, rfl⟩)
    all_goals
      refine traps_of (fun _ => rfl) fun v th s h => ?_
      simp only [leaseEffect, h, Bool.not_false, if_true]
  · refine traps_of (fun _ => rfl) fun v th s ⟨hsup, hbusy⟩ => ?_
    simp only [hsup, Bool.or_eq_true, hbusy, Bool.not_true, Bool.false_eq_true, if_false, if_true]
  · refine effects_of (fun _ => rfl) fun v th s ⟨hsup, htaken, hcrew⟩ => ?_
    simp only [hsup, htaken, hcrew, Bool.not_true, Bool.or_self, Bool.false_eq_true, if_false, repartCode_toNat]
  · refine effects_of (fun _ => rfl) fun v th s ⟨hsup, hsave, hcompl⟩ => ?_
    have hs : accessCheck s th v.a wantSave (capCursor v.a.bits) (saveLength (v.c.bits.toNat % 4096)) 4096 = none := hsave
    simp only [hsup, hs, beq_iff_eq, optionalCheck_none hcompl, Bool.not_true, Bool.false_eq_true, if_false, finish]
  · refine effects_of (fun _ => rfl) fun v th s ⟨hsup, hcompl⟩ => ?_
    simp only [hsup, beq_iff_eq, optionalCheck_none hcompl, Bool.not_true, Bool.false_eq_true, if_false, finish]
  · rintro o i op (⟨rfl, rfl⟩ | ⟨rfl, rfl⟩ | ⟨rfl, rfl⟩ | ⟨rfl, rfl⟩ | ⟨rfl, rfl⟩)
    all_goals
      refine effects_of (fun _ => rfl) fun v th s ⟨hsup, hrange⟩ => ?_
      simp only [leaseEffect, hsup, leaseRangeCheck_good hrange, Bool.not_true, Bool.false_eq_true, if_false]
  · refine effects_of (fun _ => rfl) fun v th s hsup => ?_
    simp only [hsup, Bool.not_true, Bool.false_eq_true, if_false]
  · refine effects_of (fun _ => rfl) fun v th s ⟨hsup, htag, hkind, halign, hreg, hb⟩ => ?_
    have hx : v.b.lo.toNat / 1024 % 4096 = v.b.lo.toNat / 1024 := Nat.mod_eq_of_lt (by omega)
    simp only [hsup, pgmoveCheck_good htag hkind halign hreg hb, hx, Bool.not_true, Bool.false_eq_true, if_false]
    rfl

end Sys2Proof.Machine
end

section
/-!
One step of a turn: the fetch, the decoded unit, its execution (03 R63 to R67).
-/

namespace Sys2Proof.Machine

/-! ### A fetch leaves the turn in hand as it is -/

/-- What decides whose turn it is, and the time. -/
def State.inTurn (s : State) : List (Nat × Thread) × Nat × Bool × Nat := (s.threads, s.cur, s.issuing, s.cycle)

theorem issuer_of_inTurn {s r : State} (h : r.inTurn = s.inTurn) : r.issuer = s.issuer := by
  simp only [State.inTurn, Prod.mk.injEq] at h
  obtain ⟨hth, hcur, hissuing, -⟩ := h
  simp only [State.issuer, State.thread, hth, hcur, hissuing]

theorem foldl_inTurn {β : Type} (l : List β) (f : State → β → State) (s : State) (hf : ∀ s x, (f s x).inTurn = s.inTurn) :
    (l.foldl f s).inTurn = s.inTurn := by
  induction l generalizing s with
  | nil => rfl
  | cons x r ih => exact (ih _).trans (hf s x)

@[simp] theorem modCore_inTurn (s : State) (c : Nat) (f : Core → Core) : (s.modCore c f).inTurn = s.inTurn := rfl
@[simp] theorem modHome_inTurn (s : State) (h : Nat) (f : Home → Home) : (s.modHome h f).inTurn = s.inTurn := rfl
@[simp] theorem countCore_inTurn (s : State) (c i n : Nat) : (s.countCore c i n).inTurn = s.inTurn := rfl
@[simp] theorem countHome_inTurn (s : State) (h i n : Nat) : (s.countHome h i n).inTurn = s.inTurn := rfl
@[simp] theorem sampleHome_inTurn (s : State) (h i n : Nat) : (s.sampleHome h i n).inTurn = s.inTurn := rfl
@[simp] theorem draw_inTurn (s : State) : s.draw.2.inTurn = s.inTurn := rfl
@[simp] theorem store_inTurn (s : State) (a n v : Nat) : (s.store a n v).inTurn = s.inTurn := rfl
@[simp] theorem send_inTurn (s : State) (x y : Place) (o : Owner) (p : Payload) : (s.send x y o p).inTurn = s.inTurn := rfl
@[simp] theorem writeBack_inTurn (s : State) (c : Nat) (va : Word) (dom : BitVec 16) (clear : Bool) (w : Option (Nat × Nat)) :
    (s.writeBack c va dom clear w).inTurn = s.inTurn := rfl
@[simp] theorem setTag_inTurn (s : State) (a : Nat) (b : Bool) : (s.setTag a b).inTurn = s.inTurn := by
  unfold State.setTag
  split_ifs <;> rfl
@[simp] theorem setPoison_inTurn (s : State) (a : Nat) (b : Bool) : (s.setPoison a b).inTurn = s.inTurn := by
  unfold State.setPoison
  split_ifs <;> rfl
@[simp] theorem storeCap_inTurn (s : State) (a : Nat) (v : Val) : (s.storeCap a v).inTurn = s.inTurn := by
  simp [State.storeCap]
@[simp] theorem storeMasked_inTurn (s : State) (loc : Nat) (mask : BitVec 32) (data : BitVec 256) (tags : BitVec 2) :
    (s.storeMasked loc mask data tags).inTurn = s.inTurn := by
  unfold State.storeMasked
  dsimp only
  split_ifs <;> simp [State.inTurn]
@[simp] theorem wakeUp_inTurn (s : State) (h : Nat) (r : WaitRec) (v : Word) (acq : Bool) : (s.wakeUp h r v acq).inTurn = s.inTurn := by
  simp [State.wakeUp]
@[simp] theorem lineWritten_inTurn (s : State) (loc : Nat) : (s.lineWritten loc).inTurn = s.inTurn := by
  unfold State.lineWritten
  dsimp only
  split_ifs
  · rfl
  · split
    · rfl
    · repeat' split
      all_goals rfl
@[simp] theorem dropViews_inTurn (s : State) (h : Nat) (va : Word) (n : Nat) : (s.dropViews h va n).inTurn = s.inTurn := by
  unfold State.dropViews
  dsimp only
  split <;> simp
@[simp] theorem serveWaitne_inTurn (s : State) (loc : Nat) : (s.serveWaitne loc).inTurn = s.inTurn := by
  unfold State.serveWaitne
  exact (foldl_inTurn _ _ _ (by intro s x; simp)).trans (by simp)
@[simp] theorem wroteAt_inTurn (s : State) (loc n : Nat) : (s.wroteAt loc n).inTurn = s.inTurn := by
  unfold State.wroteAt
  exact ((foldl_inTurn _ _ _ (by intro s x; simp)).trans (foldl_inTurn _ _ _ (by intro s x; simp))).trans rfl
@[simp] theorem wrote_inTurn (s : State) (va : Word) (loc n : Nat) : (s.wrote va loc n).inTurn = s.inTurn := by
  simp [State.wrote]
@[simp] theorem flushBuffer_inTurn (s : State) (h sector : Nat) : (s.flushBuffer h sector).inTurn = s.inTurn := by
  unfold State.flushBuffer
  exact (foldl_inTurn _ _ _ (by intro s x; simp; split_ifs <;> simp)).trans (by simp)
@[simp] theorem eccError_inTurn (s : State) (h line i e : Nat) : (s.eccError h line i e).inTurn = s.inTurn := by
  unfold State.eccError
  dsimp only
  split_ifs
  · rfl
  · rfl
  · exact setPoison_inTurn (s.countHome h cECCUNC 1) _ _
  · rfl
@[simp] theorem eccLine_inTurn (s : State) (h line : Nat) (ecc : BitVec 8) : (s.eccLine h line ecc).inTurn = s.inTurn := by
  unfold State.eccLine
  exact foldl_inTurn _ _ _ (by intro s x; simp)
@[simp] theorem fillLine_inTurn (s : State) (x : LineKey) (ecc : BitVec 8) : (s.fillLine x ecc).inTurn = s.inTurn := by
  unfold State.fillLine
  dsimp only
  rw [sampleHome_inTurn, countHome_inTurn, modHome_inTurn, draw_inTurn]
  exact foldl_inTurn _ _ _ (by intro s x; simp)
@[simp] theorem needLine_inTurn (s : State) (loc : Nat) (w : Bool) : (s.needLine loc w).inTurn = s.inTurn := by
  unfold State.needLine
  dsimp only
  split_ifs
  · rfl
  · rfl
  · rfl
  · exact fillLine_inTurn ..
@[simp] theorem waitRaise_inTurn (s : State) (va : Word) (n : Nat) : (s.waitRaise va n).inTurn = s.inTurn := by
  unfold State.waitRaise
  split <;> rfl
@[simp] theorem unregister_inTurn (s : State) (loc : Nat) (me : Owner) : (s.unregister loc me).inTurn = s.inTurn := by
  simp [State.unregister]
@[simp] theorem wbackAt_inTurn (s : State) (c : Nat) (va : Word) (mask : BitVec 32) (data : BitVec 256) (tags : BitVec 2) (me : Owner)
    (clear : Bool) : (s.wbackAt c va mask data tags me clear).inTurn = s.inTurn := by
  unfold State.wbackAt
  split
  · dsimp only
    split_ifs <;> simp
  · rfl
@[simp] theorem landHeld_inTurn (s : State) (c : Nat) (va : Word) (dom : BitVec 16) (clear : Bool) :
    (s.landHeld c va dom clear).inTurn = s.inTurn := by
  simp [State.landHeld]
@[simp] theorem landSent_inTurn (s : State) (hit : Nat → Owner → Bool → Bool) : (s.landSent hit).inTurn = s.inTurn := by
  unfold State.landSent
  refine foldl_inTurn _ _ _ fun s m => ?_
  split
  · split_ifs <;> simp
  · rfl
@[simp] theorem settleCore_inTurn (s : State) (c : Nat) : (s.settleCore c).inTurn = s.inTurn := by
  unfold State.settleCore
  refine foldl_inTurn _ _ _ fun s x => ?_
  split_ifs <;> rfl
@[simp] theorem pullCore_inTurn (s : State) (c : Nat) : (s.pullCore c).inTurn = s.inTurn := by
  unfold State.pullCore
  exact (foldl_inTurn _ _ _ fun s x => by simp).trans (by simp)
@[simp] theorem pullNow_inTurn (s : State) (h sector : Nat) : (s.pullNow h sector).inTurn = s.inTurn := by
  unfold State.pullNow
  exact (modHome_inTurn ..).trans (foldl_inTurn _ _ _ fun s c => by simp)
@[simp] theorem homeRead_inTurn (s : State) (loc : Nat) : (s.homeRead loc).inTurn = s.inTurn := by
  unfold State.homeRead
  dsimp only
  split_ifs <;> simp
@[simp] theorem pullSpan_inTurn (s : State) (c : Nat) (va : Word) (n : Nat) : (s.pullSpan c va n).inTurn = s.inTurn := by
  unfold State.pullSpan
  refine (foldl_inTurn _ _ _ fun s a => ?_).trans (waitRaise_inTurn ..)
  split
  · exact homeRead_inTurn ..
  · rfl
theorem evictLine_inTurn (s : State) (c : Nat) (l : NearLine) : (s.evictLine c l).inTurn = s.inTurn := by
  unfold State.evictLine
  refine (modCore_inTurn ..).trans (foldl_inTurn _ _ _ fun s x => ?_)
  split <;> simp
theorem ensureLine_inTurn {s r : State} {c : Nat} {va : Word} {dom : BitVec 16} (h : s.ensureLine c va dom = some r) : r.inTurn = s.inTurn := by
  unfold State.ensureLine at h
  dsimp only at h
  split_ifs at h
  · cases h; rfl
  · cases h; rfl
  · split at h
    · cases h; exact evictLine_inTurn ..
    · cases h
@[simp] theorem installClean_inTurn (s : State) (c : Nat) (va : Word) (dom : BitVec 16) (bytes : Nat) (tags : BitVec 2) :
    (s.installClean c va dom bytes tags).inTurn = s.inTurn := by
  unfold State.installClean
  split <;> rfl
theorem fetchFill_inTurn (s : State) (t : Nat) (th : Thread) : (s.fetchFill t th).inTurn = s.inTurn := by
  unfold State.fetchFill
  dsimp only
  split
  · rfl
  · split_ifs
    · rfl
    · split
      · exact pullSpan_inTurn ..
      · split_ifs
        · exact pullSpan_inTurn ..
        · split
          next h => exact (installClean_inTurn ..).trans ((ensureLine_inTurn h).trans (pullSpan_inTurn ..))
          · exact (countCore_inTurn ..).trans (pullSpan_inTurn ..)

/-! ### The unit fetched -/

/-- A well-formed instruction is no event. -/
theorem issues_of_wellFormed {i : Instr} (h : wellFormed i = true) : ∃ eff, ∀ s, exec i s = issue i s eff := by
  cases i with
  | threadTurn | budgetTrap | trapEntry | resultArrival | postedAck | homeRefusal | homeAcknowledgement | homeAccess | registration
  | probe | probeEcho | pull | pullReply | writeBack | releaseStoreWritten | hbmFill | plbFill | homeWalk | waitRecordDelivery
  | waitResend | parkResume | swapOut | swappedWake | sleepExpiry | intakeRecord | stagingDone | slotOffer | crewMemberStart
  | travelArrival | stealRequest | stealReply | engineStart | engineCompletion | matrixCompletion | macldRowArrival
  | rowHandlerDispatch | handlerOverrun | repartComplete | wayconvCompletion | timedTick | tickMessage | coolingSweep | mbindRewrite
  | munbindHome | gangStop | falloutCapture | gangLoad | linkDelivery | loopInsertion | slotReservation | hbmRefresh | alertBackOffEnd
  | liveShift | liveShiftDone | archiveTimeout | capturePeriodicSample | deviceReset | maintenanceReset | alertBackOff | linkCrcError
  | hostWindowAccess | peerWindowAccess | peerLinkUp | peerLinkLoss | archiveDriveCompletion | d3hotEntry | powerLimit | attgo
  | attestReady | nonceWrite | counterClear | captureSnap | captureEnable | inqcfgWrite | areaRegisterWrite | formatWindowWrite
  | pmapWrite | hwinWrite | arqcfgWrite | pwrlimWrite | lanecrcClear | mgmtRegisterWrite | d3hotExit | powerBelowLimit => cases h
  | _ => exact ⟨_, fun _ => rfl⟩

theorem wellFormed_of_decodeUnit {l : List Byte} {i : Instr} {n : Nat} (h : decodeUnit l = .ok (i, n)) : wellFormed i = true := by
  unfold decodeUnit at h
  dsimp only at h
  repeat' split at h
  all_goals cases h
  all_goals assumption

theorem prefixWord_eq (l : List Byte) : prefixWord l = ((scanPrefixes l).1.find? (fun w => opcodeOf w == 1)).getD 0 := by
  unfold prefixWord
  split
  next h => rw [h]; rfl
  next h => rw [h]; rfl

/-- The unit at the PC of a thread that re-injects nothing, where its block and boundary are there and its bytes decode. -/
theorem fetchNext_decoded {s : State} {t : Nat} {th : Thread} {blk : List Byte} {b : Bool} {i : Instr} {n : Nat}
    (hre : th.reinject = []) (hblk : blockAt s t th (BitVec.ofNat 64 th.pc) = .ok blk)
    (hb : boundaryAt blk 32 0 false ((BitVec.ofNat 64 th.pc).toNat % 32) = some b)
    (hdec : decodeUnit (blk.drop ((BitVec.ofNat 64 th.pc).toNat % 32)) = .ok (i, n)) :
    fetchNext s t th =
      ⟨unitOf (BitVec.ofNat 64 th.pc) (blk.drop ((BitVec.ofNat 64 th.pc).toNat % 32))
        (fetchFault s th (BitVec.ofNat 64 th.pc) (unitLen (blk.drop ((BitVec.ofNat 64 th.pc).toNat % 32)))).isNone, .ok i⟩ := by
  have hat : fetchNext s t th = fetchAt s t th (BitVec.ofNat 64 th.pc) := by
    simp only [fetchNext, fetchAddr, hre, Option.getD_some]
  rw [hat, fetchAt, hblk]
  dsimp only
  rw [hb, hdec]
  dsimp only [unitOf]
  rw [prefixWord_eq]
  cases fetchFault s th (BitVec.ofNat 64 th.pc) (unitLen (blk.drop ((BitVec.ofNat 64 th.pc).toNat % 32)))
  · rfl
  · rfl

/-- Settles O48: a turn that fetches decodes its unit, and a decoded unit is issued. -/
theorem stepRunsTheDecodedUnit : Obligations.StepRunsTheDecodedUnit := by
  unfold Obligations.StepRunsTheDecodedUnit
  intro s th i n blk b a s1 s2 l hissuer
  have hstep : Machine.step s = stepTurn s1 th := by
    unfold Machine.step
    dsimp only
    rw [show s.tickTime.issuer = some th from hissuer]
  refine ⟨fun r hmiss => ?_, fun hre hmiss hblk hb hdec => ?_⟩
  · rw [hstep, stepTurn, hmiss]
  · intro u
    obtain ⟨eff, hx⟩ := issues_of_wellFormed (wellFormed_of_decodeUnit hdec)
    have hnext : State.issuer { s2 with unit := u } = some th := (issuer_of_inTurn (fetchFill_inTurn s1 s1.cur th)).trans hissuer
    have hrun : exec i { s2 with unit := u } = .next (({ s2 with unit := u } : State).issueBy s2.cur th i eff) := by
      rw [hx, issue, hnext]
    refine ⟨_, hrun, ?_⟩
    have hfetch : fetchNext s2 s1.cur th = ⟨u, .ok i⟩ := fetchNext_decoded hre hblk hb hdec
    rw [hstep, stepTurn, hmiss]
    dsimp only
    rw [show s1.fetchFill s1.cur th = s2 from rfl, hfetch]
    dsimp only
    rw [hrun, orStall]
    exact (apply_ite Host.Outcome.next _ _ _).symm

end Sys2Proof.Machine
end

section
/-!
Events of threads (11 R256, 14 R339 to R344, R364, 15 R366, R367, 16 R387, R388).
-/

namespace Sys2Proof.Machine

theorem happens_some (s : State) : happens (some s) = .next s := rfl
theorem whenever_true {c : Bool} {s : State} (h : c = true) : whenever c s = some s := by
  rw [h]; rfl
theorem whenever_false {c : Bool} {s : State} (h : c = false) : whenever c s = none := by
  rw [h]; rfl

/-! ### Turns (15 R366) -/

section

variable {s f : State} {t : Nat} {th x : Thread}

theorem exec_threadTurn (hrun : Running s t th) (hst : th.status = .ready) (hlate : lateHandler s th = false) :
    exec (.threadTurn t) s = .next (s.turn t th) := by
  obtain ⟨hth, hstop⟩ := hrun
  show execThreadTurn t s = _
  simp only [execThreadTurn, hth, hst, hlate, hstop, beq_self_eq_true, Bool.not_false, Bool.and_self, whenever_true, happens_some]

theorem threadTurn_late (hrun : Running s t th) (hlate : lateHandler s th = true) : exec (.threadTurn t) s = .refused .notEnabled := by
  obtain ⟨hth, hstop⟩ := hrun
  show execThreadTurn t s = _
  simp only [execThreadTurn, hth, hlate, Bool.not_true, Bool.and_false, Bool.false_and]
  rfl

theorem turn_refused (h : (oldestRefused th.ops).isSome = true) :
    s.turn t th = (s.startTrap t none 0 [] (BitVec.ofNat 64 th.pc) (BitVec.ofNat 64 th.pc) false false).trapNow t := by
  simp only [State.turn, h, if_true]

/-- What a turn does once the entries that issue nothing are taken. -/
def State.turnOn (f : State) (t : Nat) (x : Thread) : State :=
  if headHeld f t x then f.holdTurn t x false
  else if budgetDue t x then f.faultNext t x .budget 0
  else if waitsForResult x then f.holdTurn t x true
  else if waitsForPush x || waitsForReplay x then f.holdTurn t x false
  else { f.modThread t (fun x => { x with resuming := x.resuming && !x.reinject.isEmpty }) with cur := t, issuing := true }

theorem turn_flushed (hnone : oldestRefused th.ops = none) (hf : f = s.flushEntries t 17) (hx : f.thread t = some x) :
    s.turn t th = f.turnOn t x := by
  subst hf
  simp only [State.turn, hnone, Option.isSome_none, Bool.false_eq_true, if_false, hx]
  rfl

theorem exec_budgetTrap (hrun : Running s t th) (hf : f = s.flushEntries t 17) (hx : f.thread t = some x)
    (hheld : headHeld f t x = false) (hdue : budgetDue t x = true) (hdue0 : budgetDue t th = true) :
    exec (.budgetTrap t) s = .next (f.faultNext t x .budget 0) := by
  obtain ⟨hth, hstop⟩ := hrun
  subst hf
  show execBudgetTrap t s = _
  simp only [execBudgetTrap, hth, hdue0, hstop, State.budgetTurn, hx, hdue, hheld, Bool.not_false, Bool.and_self, if_true,
    whenever_true, happens_some]

end

/-! ### Operations that end (11 R256) -/

section

variable {s : State} {t op : Nat} {th : Thread} {o : Op}

theorem opOf_some (h : HasOperation s t op th o) : s.opOf t op = some (th, o) := by
  obtain ⟨hth, hop⟩ := h
  simp only [State.opOf, hth, Option.bind_some, hop, Option.map_some]

theorem exec_resultArrival {vs : List Val} (h : HasOperation s t op th o) (hdone : o.phase = .done vs) (hclear : opClear s t o = true)
    (hcls : o.cls = .longLat) (hgo : isTrapping th = false ∨ th.pushDue o = true) :
    exec (.resultArrival t op) s = .next (s.arrive t o vs) := by
  have hgo' : (!isTrapping th || th.pushDue o) = true := by
    rcases hgo with h | h <;> simp [h]
  show execResultArrival t op s = _
  simp only [execResultArrival, opOf_some h, hdone, hcls, hgo', hclear, beq_self_eq_true, Bool.and_self, whenever_true, happens_some]

theorem exec_postedAck {vs : List Val} (h : HasOperation s t op th o) (hdone : o.phase = .done vs) (hclear : opClear s t o = true)
    (hcls : o.cls = .posted) : exec (.postedAck t op) s = .next (s.arrive t o vs) := by
  show execPostedAck t op s = _
  simp only [execPostedAck, opOf_some h, hdone, hcls, hclear, beq_self_eq_true, Bool.and_self, whenever_true, happens_some]

theorem ack_completes {vs : List Val} (h : HasOperation s t op th o) (hdone : o.phase = .done vs) (hclear : opClear s t o = true)
    (hcls : o.cls = .out) (hstop : (s.core (tcore t)).stopped = false) (htrap : isTrapping th = false) :
    exec (.homeAcknowledgement t op) s = .next (s.completeOut t o vs) := by
  show execHomeAcknowledgement t op s = _
  simp only [execHomeAcknowledgement, hstop, opOf_some h, hdone, hcls, htrap, hclear, beq_self_eq_true, Bool.not_false, Bool.true_or,
    Bool.and_self, Bool.false_eq_true, if_false, whenever_true, happens_some]

theorem ack_pushes {vs : List Val} (h : HasOperation s t op th o) (hdone : o.phase = .done vs) (hclear : opClear s t o = true)
    (hcls : o.cls = .out) (hstop : (s.core (tcore t)).stopped = false) (htrap : isTrapping th = true) (hdue : th.pushDue o = true) :
    exec (.homeAcknowledgement t op) s = .next (s.arrive t o vs) := by
  show execHomeAcknowledgement t op s = _
  simp only [execHomeAcknowledgement, hstop, opOf_some h, hdone, hcls, htrap, hdue, hclear, beq_self_eq_true, Bool.or_true,
    Bool.and_self, Bool.false_eq_true, if_false, if_true, whenever_true, happens_some]

theorem ack_undone (h : HasOperation s t op th o) (hsent : o.phase = .sent 0) (hstop : (s.core (tcore t)).stopped = false)
    (htrap : isTrapping th = true) (hends : o.act.ends = true) :
    exec (.homeAcknowledgement t op) s = .next (s.modThread t (fun x => x.dropOp op)) := by
  show execHomeAcknowledgement t op s = _
  simp only [execHomeAcknowledgement, hstop, opOf_some h, hsent, htrap, hends, Bool.and_self, Bool.false_eq_true, if_false, if_true,
    happens_some]

theorem ack_acts {s1 : State} (h : HasOperation s t op th o) (hsent : o.phase = .sent 0) (hstop : (s.core (tcore t)).stopped = false)
    (hno : ¬ (isTrapping th = true ∧ o.act.ends = true)) (hact : s.finishAct t th o = some s1) :
    exec (.homeAcknowledgement t op) s = .next (if o.act.revokes then s1.settleAll else s1) := by
  show execHomeAcknowledgement t op s = _
  simp only [execHomeAcknowledgement, hstop, opOf_some h, hsent, Bool.and_eq_true, hno, hact, Option.map_some, Bool.false_eq_true,
    if_false, happens_some]

end

/-! ### Refusals -/

theorem op_id {th : Thread} {n : Nat} {o : Op} (h : th.op n = some o) : o.id = n := by
  simpa using List.find?_some h

theorem op_modOp {th : Thread} {n : Nat} {o : Op} (f : Op → Op) (h : th.op n = some o) (hf : ∀ o, (f o).id = o.id) :
    (th.modOp n f).op n = some (f o) := by
  unfold Thread.op at h
  unfold Thread.op Thread.modOp
  dsimp only
  generalize th.ops = l at h ⊢
  induction l with
  | nil => cases h
  | cons p ps ih =>
    by_cases hp : p.id = n
    · rw [List.find?_cons_of_pos (by simpa using hp)] at h
      cases h
      simp [hp, hf]
    · rw [List.find?_cons_of_neg (by simpa using hp)] at h
      rw [List.map_cons, if_neg (by simpa using hp), List.find?_cons_of_neg (by simpa using hp)]
      exact ih h

/-- A thread told of its operation's refusal. -/
def Thread.refused (th : Thread) (op : Nat) (c : Code) (a : Word) : Thread :=
  let x := th.modOp op (fun y => { y with phase := .refused c a })
  match x.status with | .out w _ => if w == op then x.rejoin else x | _ => x

theorem refused_op {th : Thread} {op : Nat} {o : Op} (c : Code) (a : Word) (h : th.op op = some o) :
    (th.refused op c a).op op = some { o with phase := .refused c a } := by
  have hop : (th.modOp op (fun y => { y with phase := .refused c a })).op op = some { o with phase := .refused c a } :=
    op_modOp _ h fun _ => rfl
  unfold Thread.refused
  dsimp only
  split
  · split_ifs
    · unfold Thread.rejoin
      split
      · exact hop
      · exact hop
    · exact hop
  · exact hop

theorem refused_status {th : Thread} {op since : Nat} (c : Code) (a : Word) (h : th.status = .out op since) :
    (th.refused op c a).status = .ready := by
  have hst : (th.modOp op (fun y => { y with phase := .refused c a })).status = .out op since := h
  simp only [Thread.refused, hst, beq_self_eq_true, if_true, Thread.rejoin]

/-- The state in which a refused operation's thread is told: its tile given up where it is a MACLD's. -/
def State.refusing (s : State) (t : Nat) (o : Op) : State :=
  match o.act with | .rows tile .. => s.unclaim (tcore t) tile (o.ticks == 1) | _ => s

theorem refusing_thread (s : State) (t : Nat) (o : Op) : (s.refusing t o).thread t = s.thread t := by
  unfold State.refusing
  split <;> rfl

theorem exec_homeRefusal {s : State} {t op : Nat} {th : Thread} {o : Op} {c : Code} {a : Word} (h : HasOperation s t op th o)
    (hph : o.phase = .refusing c a) :
    exec (.homeRefusal t op) s = .next ((s.refusing t o).modThread t (fun th => th.refused op c a)) := by
  show execHomeRefusal t op s = _
  simp only [execHomeRefusal, opOf_some h, hph]
  rfl

/-! ### The ends of parks (14 R340, R364, 16 R388) -/

section

variable {s : State} {t : Nat} {th : Thread}

theorem exec_trapEntry (hrun : Running s t th) (htrap : isTrapping th = true) (hset : th.ops.all Op.isSettled = true)
    (hpush : pushesLeft th = false) : exec (.trapEntry t) s = .next ((s.enterTrap t).settleDrains (tcore t)) := by
  obtain ⟨hth, hstop⟩ := hrun
  show execTrapEntry t s = _
  simp only [execTrapEntry, hth, htrap, hset, hpush, hstop, Bool.not_false, Bool.and_self, whenever_true, happens_some]

theorem exec_waitResend {o : Op} (hrun : Running s t th) (ho : th.ops.find? (fun o => o.phase == .resend) = some o)
    (hdue : o.issued + 256 ≤ s.cycle) :
    exec (.waitResend t) s =
      .next ((s.modThread t (fun x => x.modOp o.id (fun y => { y with issued := s.cycle }))).sendAccess t o.id o.va) := by
  obtain ⟨hth, hstop⟩ := hrun
  show execWaitResend t s = _
  simp only [execWaitResend, hth, ho, hdue, hstop, decide_true, Bool.not_false, Bool.and_self, whenever_true, happens_some]

theorem exec_parkResume {why : Park} {since : Nat} (hrun : Running s t th) (hst : th.status = .parked why since)
    (hover : parkOver s t th why = true) : exec (.parkResume t) s = .next (s.unpark t) := by
  obtain ⟨hth, hstop⟩ := hrun
  show execParkResume t s = _
  simp only [execParkResume, hth, hst, hover, hstop, Bool.not_false, Bool.and_self, whenever_true, happens_some]

theorem exec_sleepExpiry {target : Word} {since : Nat} (hrun : Running s t th) (hst : th.status = .parked (.sleep target) since)
    (hover : target.toNat ≤ s.now t) : exec (.sleepExpiry t) s = .next (s.modThread t (fun x => { x with status := .ready })) := by
  obtain ⟨hth, hstop⟩ := hrun
  show execSleepExpiry t s = _
  simp only [execSleepExpiry, hth, hst, hover, hstop, decide_true, Bool.not_false, Bool.and_self, whenever_true, happens_some]

theorem exec_plbFill {page : Nat} {va : Word} {since : Nat} (hth : s.thread t = some th)
    (hst : th.status = .parked (.plb page va) since) : exec (.plbFill t) s = .next (s.fillPlb t th page va since) := by
  show execPlbFill t s = _
  simp only [execPlbFill, hth, hst, happens_some]

/-- What a failed walk answers to a thread that is ready again. -/
def State.walkFault (w : State) (t : Nat) (th : Thread) (va : Word) (f : Code) : State :=
  if fetchAddr th == some va then w.faultNext t th ((fetchFault w th va 8).getD f) va
  else if prefNext w t th then w.setThread t th else w.faultNext t th f va

theorem fillPlb_unmapped {page : Nat} {va : Word} {since : Nat} (h : leafOf (s.walkNow (page * 2 ^ 18)) page = none) :
    s.fillPlb t th page va since = (s.walkNow (page * 2 ^ 18)).walkFault t { th with status := .ready } va .machine := by
  simp only [State.fillPlb, h]
  rfl

theorem fillPlb_foreign {page : Nat} {va : Word} {since : Nat} {l : Leaf} (h : leafOf (s.walkNow (page * 2 ^ 18)) page = some l)
    (hall : l.domain ≠ 0xFFFF) (hown : l.domain ≠ th.domain) :
    s.fillPlb t th page va since = (s.walkNow (page * 2 ^ 18)).walkFault t { th with status := .ready } va .lease := by
  have hno : (l.domain != 0xFFFF && l.domain != th.domain) = true := by
    rw [Bool.and_eq_true, bne_iff_ne, bne_iff_ne]
    exact ⟨hall, hown⟩
  simp only [State.fillPlb, h, hno, if_true]
  rfl

theorem fillPlb_mapped {page : Nat} {va : Word} {since : Nat} {l : Leaf} (h : leafOf (s.walkNow (page * 2 ^ 18)) page = some l)
    (hdom : l.domain = 0xFFFF ∨ l.domain = th.domain) :
    s.fillPlb t th page va since =
      (((s.walkNow (page * 2 ^ 18)).setThread t { th with status := .ready }).modCore (tcore t) (fun k => plbInstall k
        ⟨tslot t, l.level, page * 2 ^ 18 / 2 ^ Leaf.bits l.level, l.home, l.frame, coveringRights { th with status := .ready } (page * 2 ^ 18)⟩)
        ).sampleCore (tcore t) 4 ((s.walkNow (page * 2 ^ 18)).cycle - since) := by
  have hok : (l.domain != 0xFFFF && l.domain != th.domain) = false := by
    rcases hdom with hd | hd <;> simp [hd]
  simp only [State.fillPlb, h, hok, Bool.false_eq_true, if_false]

end

/-! A walk takes no time of its own. -/

theorem readPhys_inTurn (s : State) (loc n : Nat) : (s.readPhys loc n).inTurn = s.inTurn := by
  unfold State.readPhys
  exact foldl_inTurn _ _ _ fun s i => homeRead_inTurn ..
theorem walkReads_inTurn (levels : List (Nat × Nat × Nat)) (s : State) (va table : Nat) :
    (s.walkReads va table levels).inTurn = s.inTurn := by
  induction levels generalizing s table with
  | nil => rfl
  | cons level rest ih =>
    unfold State.walkReads
    dsimp only
    split_ifs
    · exact (ih ..).trans (readPhys_inTurn ..)
    · exact readPhys_inTurn ..
theorem walkNow_cycle (s : State) (va : Nat) : (s.walkNow va).cycle = s.cycle :=
  congrArg (fun x => x.2.2.2) (walkReads_inTurn walkLevels s va _)

/-- Settles O54: each event answers the next state of its own branch. -/
theorem threadEventResults : Obligations.ThreadEventResults := by
  unfold Obligations.ThreadEventResults
  refine ⟨fun s t th hrun hst => ⟨threadTurn_late hrun, fun hlate href => ?_, fun hlate hnone f x hf hx => ⟨fun hheld => ?_,
    fun hheld hdue => ⟨?_, fun hdue0 => ?_⟩, fun hheld hdue hres => ?_, fun hheld hdue hres hpush => ?_,
    fun hheld hdue hres hpush hrep => ?_⟩⟩, fun s t th => exec_trapEntry, fun s t op th o vs h hdone hclear => ⟨fun hcls hgo => ?_,
    fun hcls => ?_, fun hcls hstop => ⟨fun htrap => ?_, fun htrap hdue => ?_⟩⟩, fun s t op th o h hsent hstop => ⟨?_, fun hno s1 hact => ?_⟩,
    fun s t op th o c a h hph => ?_, fun s t th o => exec_waitResend, fun s t th why since => exec_parkResume,
    fun s t th target since => exec_sleepExpiry, fun s t th page va since hth hst => ?_⟩
  · rw [exec_threadTurn hrun hst hlate, turn_refused href]
  · rw [exec_threadTurn hrun hst hlate, turn_flushed hnone hf hx]
    simp only [State.turnOn, hheld, if_true, State.holdTurn, Bool.false_eq_true, if_false]
  · rw [exec_threadTurn hrun hst hlate, turn_flushed hnone hf hx]
    simp only [State.turnOn, hheld, hdue, if_true, Bool.false_eq_true, if_false]
    rfl
  · exact exec_budgetTrap hrun hf hx hheld hdue hdue0
  · rw [exec_threadTurn hrun hst hlate, turn_flushed hnone hf hx]
    simp only [State.turnOn, hheld, hdue, hres, if_true, State.holdTurn, Bool.false_eq_true, if_false]
  · have hwait : (waitsForPush x || waitsForReplay x) = true := Bool.or_eq_true .. ▸ hpush
    rw [exec_threadTurn hrun hst hlate, turn_flushed hnone hf hx]
    simp only [State.turnOn, hheld, hdue, hres, hwait, if_true, State.holdTurn, Bool.false_eq_true, if_false]
  · rw [exec_threadTurn hrun hst hlate, turn_flushed hnone hf hx]
    simp only [State.turnOn, hheld, hdue, hres, hpush, hrep, Bool.or_self, Bool.false_eq_true, if_false]
  · exact exec_resultArrival h hdone hclear hcls hgo
  · exact exec_postedAck h hdone hclear hcls
  · exact ack_completes h hdone hclear hcls hstop htrap
  · exact ack_pushes h hdone hclear hcls hstop htrap hdue
  · exact ack_undone h hsent hstop
  · exact ack_acts h hsent hstop hno hact
  · obtain ⟨hth, hop⟩ := id h
    refine ⟨_, exec_homeRefusal h hph, th.refused op c a, _, ?_, refused_op c a hop, rfl, fun since => refused_status c a⟩
    rw [thread_modThread_same, refusing_thread, hth]
    rfl
  · intro ready w fault
    have hexec := exec_plbFill hth hst
    have hfault : ∀ f, w.walkFault t ready va f = fault f := fun f => by
      simp only [State.walkFault, beq_iff_eq]
      rfl
    refine ⟨fun hleaf => ?_, fun l hleaf hall hown => ?_, fun l hleaf hdom => ?_⟩
    · rw [hexec, fillPlb_unmapped hleaf, ← hfault]
    · rw [hexec, fillPlb_foreign hleaf hall hown, ← hfault]
    · refine ⟨⟨tslot t, l.level, page * 2 ^ 18 / 2 ^ Leaf.bits l.level, l.home, l.frame, coveringRights ready (page * 2 ^ 18)⟩,
        rfl, rfl, ?_⟩
      rw [hexec, fillPlb_mapped hleaf hdom, walkNow_cycle]

end Sys2Proof.Machine
end

section
/-!
Events of homes (10 R237 to R243, 13 R312 to R320, 14 R344, 16 R389).
-/

namespace Sys2Proof.Machine

/-! ### Accesses (10 R237, R238, 13 R319) -/

/-- What comes of an arrived access that has its pages and lines at hand. -/
def State.accessNext (s : State) (m h : Nat) (x : Msg) : Option State :=
  match x.blocked s h with
  | some b => whenever (!b.1.pulling) (s.forcePull h b)
  | none =>
    let s := (s.noteAwaited h x).getD s
    if (pullsNeeded s h x).isEmpty then some (((s.dropMsg m).touchLines (x.lines s h)).access x h)
    else whenever ((pullsNeeded s h x).any (fun p => !p.2.2)) (s.startPulls (pullsNeeded s h x))

/-- What comes of a write-back performed for a release that awaits it, or for none. -/
def State.flushedFor (s : State) (w : Option (Nat × Nat)) : State :=
  match w with
  | some (t, op) => s.flushedOne t op
  | none => s

section

variable {s : State} {m h : Nat} {x : Msg}

theorem served_of_nil (hpages : unwalkedPages s h x = []) (hlines : missingLines s h x = []) : served s h x = true := by
  simp [served, hpages, hlines]

/-- An arrived access with its pages and lines at hand: what is left is what stands in the way of its record, or its pulls. -/
theorem exec_homeAccess_served (hat : AtHome s m x h) (hacc : x.isAccess = true) (hpages : unwalkedPages s h x = [])
    (hlines : missingLines s h x = []) (hraised : x.raised s = false) :
    exec (.homeAccess m) s = happens (s.accessNext m h x) := by
  have hat' : s.ready m = some (x, h) := hat
  show execHomeAccess m s = _
  simp only [execHomeAccess, hat', hacc, served_of_nil hpages hlines, hraised, Bool.not_true, Bool.or_self, Bool.false_eq_true, if_false]
  rfl

theorem homeAccess_performs {s1 : State} (hat : AtHome s m x h) (hacc : x.isAccess = true) (hpages : unwalkedPages s h x = [])
    (hlines : missingLines s h x = []) (hraised : x.raised s = false) (hfree : x.blocked s h = none)
    (hs1 : s1 = (s.noteAwaited h x).getD s) (hpulls : pullsNeeded s1 h x = []) :
    exec (.homeAccess m) s = .next (((s1.dropMsg m).touchLines (x.lines s1 h)).access x h) := by
  subst hs1
  rw [exec_homeAccess_served hat hacc hpages hlines hraised, State.accessNext, hfree]
  simp only [hpulls, List.isEmpty_nil, if_true, happens_some]

theorem homeAccess_pulls {s1 : State} {p : Nat × Nat × Bool} (hat : AtHome s m x h) (hacc : x.isAccess = true)
    (hpages : unwalkedPages s h x = []) (hlines : missingLines s h x = []) (hraised : x.raised s = false) (hfree : x.blocked s h = none)
    (hs1 : s1 = (s.noteAwaited h x).getD s) (hp : p ∈ pullsNeeded s1 h x) (hnew : p.2.2 = false) :
    exec (.homeAccess m) s = .next (s1.startPulls (pullsNeeded s1 h x)) := by
  have hsome : (pullsNeeded s1 h x).isEmpty = false := List.isEmpty_eq_false_iff.mpr (List.ne_nil_of_mem hp)
  have hany : (pullsNeeded s1 h x).any (fun p => !p.2.2) = true := List.any_eq_true.mpr ⟨p, hp, by rw [hnew]; rfl⟩
  subst hs1
  rw [exec_homeAccess_served hat hacc hpages hlines hraised, State.accessNext, hfree]
  simp only [hsome, hany, Bool.false_eq_true, if_false, whenever_true, happens_some]

theorem homeAccess_forces {b : DirEntry × List Nat} (hat : AtHome s m x h) (hacc : x.isAccess = true) (hpages : unwalkedPages s h x = [])
    (hlines : missingLines s h x = []) (hraised : x.raised s = false) (hblocked : x.blocked s h = some b) (hnew : b.1.pulling = false) :
    exec (.homeAccess m) s = .next (s.forcePull h b) := by
  rw [exec_homeAccess_served hat hacc hpages hlines hraised, State.accessNext, hblocked]
  simp only [hnew, Bool.not_false, whenever_true, happens_some]

/-! ### Write-backs, pulls, fills, walks -/

theorem exec_writeBack {core : Nat} {va : Word} {mask : BitVec 32} {data : BitVec 256} {tags : BitVec 2} {owner : Owner} {clear : Bool}
    {w : Option (Nat × Nat)} (hat : AtHome s m x h) (hp : x.payload = .wback core va mask data tags owner clear w)
    (hpages : unwalkedPages s h x = []) (hlines : missingLines s h x = []) :
    exec (.writeBack m) s = .next (((s.dropMsg m).wbackAt core va mask data tags owner clear).flushedFor w) := by
  have hat' : s.ready m = some (x, h) := hat
  show execWriteBack m s = _
  simp only [execWriteBack, hat', served_of_nil hpages hlines, hp, Bool.not_true, Bool.false_eq_true, if_false, happens_some]
  rfl

theorem exec_pull_sent {home sector : Nat} (hat : AtHome s m x h) (hp : x.payload = .pull home sector true)
    (hout : coveredOut s h = false) :
    exec (.pull m) s = .next ((s.dropMsg m).send (.core h) (.core home) Owner.nobody (.pullReply home sector h)) := by
  have hat' : s.ready m = some (x, h) := hat
  show execPull m s = _
  simp only [execPull, hat', hp, State.pulled, if_true, hout, Bool.false_eq_true, if_false, happens_some]

theorem exec_hbmFill {home line : Nat} (ecc : BitVec 8) (hline : line < 2 ^ 60) (hwant : lineWanted s ⟨home, line, false⟩ = true)
    (hshift : (s.home home).shift = false) (hback : tfind (s.home home).backoff (Config.bankOf line) = none) :
    exec (.hbmFill home line ecc) s = .next (s.fillLine ⟨home, line, false⟩ ecc) := by
  have hkey : keyOf home line = ⟨home, line, false⟩ := if_neg (Nat.not_le.mpr hline)
  have hreads : LineKey.reads s ⟨home, line, false⟩ = [line] := rfl
  show execHbmFill home line ecc s = _
  simp only [execHbmFill, hkey, hreads, hwant, hshift, hback, List.any_cons, List.any_nil, Option.isSome_none, Bool.or_self,
    Bool.not_false, Bool.and_self, whenever_true, happens_some]

theorem exec_homeWalk {va : Word} {rest : List Word} (hat : AtHome s m x h) (hneeds : x.needsLines = true)
    (hpages : unwalkedPages s h x = va :: rest) : exec (.homeWalk m) s = .next (s.walkPage x va) := by
  have hat' : s.ready m = some (x, h) := hat
  show execHomeWalk m s = _
  simp only [execHomeWalk, hat', hpages, hneeds, whenever_true, happens_some]

theorem exec_waitRecordDelivery {who : Waiter} {op : Nat} {v : Word} {late : Bool} (hm : s.msg m = some x)
    (hp : x.payload = .wake who op v late) (hride : x.ride = .arrived) (hsaved : savedFor s op = none) :
    exec (.waitRecordDelivery m) s =
      .next (((s.dropMsg m).sampleCore (wakeCore s who) 2 (s.cycle - x.born)).delivered who op v) := by
  show execWaitRecordDelivery m s = _
  simp only [execWaitRecordDelivery, hm, hp, hride, hsaved, Option.isNone_none, whenever_true, happens_some]

end

/-- Settles O55: each event answers the next state of its own branch. -/
theorem homeEventResults : Obligations.HomeEventResults := by
  unfold Obligations.HomeEventResults
  refine ⟨fun s m x h hat hacc hpages hlines hraised hfree s1 => homeAccess_performs hat hacc hpages hlines hraised hfree,
    fun s m x h p hat hacc hpages hlines hraised hfree s1 => homeAccess_pulls hat hacc hpages hlines hraised hfree,
    fun s m x h b => homeAccess_forces, fun s m x h t op va mask hat hp => ?_, fun s m x h t op hat hp => ?_,
    fun s m x h t op hat hp => ?_, fun s m x h core va mask data tags owner clear hat hp => exec_writeBack hat hp,
    fun s m x h core va mask data tags owner clear t op hat hp => exec_writeBack hat hp, fun s m x c home sector => exec_pull_sent,
    fun s m x c home sector hat hp => ?_, fun s home sector b hb hsec => ?_, fun s home line ecc => exec_hbmFill ecc,
    fun s m x h va rest => exec_homeWalk, fun s m x who op v late => exec_waitRecordDelivery⟩
  · have hat' : s.ready m = some (x, h) := hat
    show execRegistration m s = _
    simp only [execRegistration, hat', hp, happens_some]
  · have hat' : s.ready m = some (x, h) := hat
    show execProbe m s = _
    simp only [execProbe, hat', hp, happens_some]
  · have hat' : s.ready m = some (x, h) := hat
    show execProbeEcho m s = _
    simp only [execProbeEcho, hat', hp, happens_some]
  · have hat' : s.ready m = some (x, c) := hat
    show execPullReply m s = _
    simp only [execPullReply, hat', hp, happens_some]
  · have hany : (s.home home).wbuf.any (fun b => b.sector == sector) = true :=
      List.any_eq_true.mpr ⟨b, hb, beq_iff_eq.mpr hsec⟩
    show execReleaseStoreWritten home sector s = _
    simp only [execReleaseStoreWritten, hany, whenever_true, happens_some]

end Sys2Proof.Machine
end

section
/-!
Events of the queues (14 R336 to R353).
-/

namespace Sys2Proof.Machine

/-! ### Swap-out and wake (14 R340 to R342) -/

section

variable {s : State} {t : Nat} {th : Thread} {w : Swap}

theorem swapOut_stores {i : Nat} (hth : s.thread t = some th) (hw : swapOf th = some w) (hmay : maySwap s t th w = true)
    (hfree : freeStore (s.station (clusterOf (tcore t))) = some i) : exec (.swapOut t) s = .next (s.swapOut t th w i) := by
  show execSwapOut t s = _
  simp only [execSwapOut, hth, hw, hmay, hfree, Bool.not_true, Bool.false_eq_true, if_false, happens_some]

theorem swapOut_full (hth : s.thread t = some th) (hw : swapOf th = some w) (hmay : maySwap s t th w = true)
    (hfull : freeStore (s.station (clusterOf (tcore t))) = none) (hlim : w.limited = true) (hnew : th.fullSince ≠ some w.since) :
    exec (.swapOut t) s = .next ((s.modThread t (fun x => { x with fullSince := some w.since })).countStation
      (clusterOf (tcore t)) cSTOREFULL 1) := by
  have hcount : (w.limited && th.fullSince != some w.since) = true := by
    rw [hlim, Bool.true_and, bne_iff_ne]
    exact hnew
  show execSwapOut t s = _
  simp only [execSwapOut, hth, hw, hmay, hfull, hcount, Bool.not_true, Bool.false_eq_true, if_false, whenever_true, happens_some]

theorem swappedWake_again {cl i : Nat} {e : StoreEntry} (he : tfind (s.station cl).store i = some e)
    (hstop : (s.station cl).stopped = false) (hq : e.queued = false) (hwoken : e.woken = true) (hroom : (s.station cl).room 1 = true) :
    exec (.swappedWake cl i) s = .next (s.requeue cl i) := by
  show execSwappedWake cl i s = _
  simp only [execSwappedWake, he, hstop, hq, hwoken, hroom, Bool.or_self, Bool.false_eq_true, if_false, if_true, whenever_true,
    happens_some]

theorem swappedWake_over {cl i : Nat} {e : StoreEntry} (he : tfind (s.station cl).store i = some e)
    (hstop : (s.station cl).stopped = false) (hq : e.queued = false) (hwoken : e.woken = false) (hover : storedOver s e = true) :
    exec (.swappedWake cl i) s = .next ((s.modStation cl (fun k => { k with
      store := tput k.store i { e with woken := true } })).requeue cl i) := by
  show execSwappedWake cl i s = _
  simp only [execSwappedWake, he, hstop, hq, hwoken, hover, Bool.or_self, Bool.false_eq_true, if_false, whenever_true, happens_some]

end

/-! ### Intake and staging (14 R336, R352, R353) -/

theorem exec_intakeRecord {s : State} {q link off : Nat} (bytes : List Byte) (hq : q < 64) (hlink : link < 2) (hoff : off < 4096)
    (hwait : windowWaits s (.link link) = false) : exec (.intakeRecord q link off bytes) s = .next (s.intake q link off bytes) := by
  show execIntakeRecord q link off bytes s = _
  simp only [execIntakeRecord, hq, hlink, hoff, hwait, decide_true, Bool.not_false, Bool.and_self, whenever_true, happens_some]

theorem intake_off {s : State} {q link off : Nat} {bytes : List Byte} (h : (tget s.dev.intake q IntakeQueue.reset).cfg.getLsbD 0 = false) :
    s.intake q link off bytes = s := by
  simp only [State.intake, h, Bool.not_false, if_true]

theorem intake_malformed {s : State} {q link off : Nat} {bytes : List Byte}
    (h : (tget s.dev.intake q IntakeQueue.reset).cfg.getLsbD 0 = true) (hbad : bytes.length ≠ 64 ∨ off % 64 ≠ 0) :
    s.intake q link off bytes =
      s.modDev (fun d => { d with intake := tput d.intake q ((tget s.dev.intake q IntakeQueue.reset).reject 1) }) := by
  have hb : (bytes.length != 64 || off % 64 != 0) = true := by
    rw [Bool.or_eq_true, bne_iff_ne, bne_iff_ne]
    exact hbad
  simp only [State.intake, h, hb, Bool.not_true, Bool.false_eq_true, if_false, if_true]

theorem exec_stagingDone {s : State} {cl : Nat} {task : Word} {e : ReadyEntry}
    (he : ((s.station cl).heap ++ (s.station cl).overflow).find? (fun e => e.taskid == task && e.state == .staging) = some e)
    (hstop : (s.station cl).stopped = false) (hres : resident (s.walkPages (e.ranges.map pagesOf).flatten) e.ranges = true)
    (hforce : forcing (s.walkPages (e.ranges.map pagesOf).flatten) (tnum noCore 0) (e.ranges.map pagesOf).flatten = false) :
    exec (.stagingDone cl task) s =
      .next (((s.walkPages (e.ranges.map pagesOf).flatten).pinRanges true e.ranges).putStation cl ((s.station cl).modEntry task
        (fun x => { x with state := if noSlotFor s cl e then .noFit else .eligible }))) := by
  show execStagingDone cl task s = _
  simp only [execStagingDone, he, hstop, hres, hforce, Bool.not_false, Bool.and_self, whenever_true, happens_some]

/-! ### Slots (14 R337, R338, R346, R348) -/

section

variable {s : State} {c slot : Nat}

theorem exec_slotOffer (hfree : slotFree s c slot = true) : exec (.slotOffer c slot) s = happens (s.offer c slot) := by
  show execSlotOffer c slot s = _
  simp only [execSlotOffer, hfree, if_true]

theorem offer_arrival {p : Packed} {rest : List Packed} (h : (s.core c).arrivals = p :: rest) :
    s.offer c slot = some (s.arriveTravel c slot p) := by
  simp only [State.offer, h]
theorem offer_crew {w : CrewState} (h : (s.core c).arrivals = []) (hcrew : crewClaim (s.core c) = some w) :
    s.offer c slot = some (s.startMember c slot w) := by
  simp only [State.offer, h, hcrew]
theorem offer_first {e : ReadyEntry} (h : (s.core c).arrivals = []) (hcrew : crewClaim (s.core c) = none)
    (hfit : firstFit s c = some e) : s.offer c slot = some (s.startEntry c slot e) := by
  simp only [State.offer, h, hcrew, hfit]

theorem exec_crewMemberStart {w : CrewState} (hfree : slotFree s c slot = true) (h : (s.core c).arrivals = [])
    (hcrew : crewClaim (s.core c) = some w) : exec (.crewMemberStart c slot) s = .next (s.startMember c slot w) := by
  show execCrewMemberStart c slot s = _
  simp only [execCrewMemberStart, hcrew, hfree, h, List.isEmpty_nil, Bool.and_self, whenever_true, happens_some]

end

/-! ### Travel and donation (14 R348, R351) -/

theorem travelArrival_room {s : State} {m : Nat} {x : Msg} {p : Packed} {c : Nat} (hm : s.msg m = some x) (hp : x.payload = .travel p)
    (hride : x.ride = .arrived) (hdst : x.dst = .core c) (hroom : (s.core c).arrivals.length < Config.arrivalSize) :
    exec (.travelArrival m) s = .next ((s.dropMsg m).modCore c (fun k => { k with arrivals := k.arrivals ++ [p] })) := by
  show execTravelArrival m s = _
  simp only [execTravelArrival, hm, hp, hride, hdst, hroom, if_true, happens_some]

theorem travelArrival_full {s : State} {m : Nat} {x : Msg} {p : Packed} {c : Nat} (hm : s.msg m = some x) (hp : x.payload = .travel p)
    (hride : x.ride = .arrived) (hdst : x.dst = .core c) (hfull : Config.arrivalSize ≤ (s.core c).arrivals.length) :
    exec (.travelArrival m) s = .next { s with
      msgs := s.msgs.map (fun y => if y.id == m then { y with ride := .onLoop 0 } else y) } := by
  show execTravelArrival m s = _
  simp only [execTravelArrival, hm, hp, hride, hdst, Nat.not_lt.mpr hfull, if_false, happens_some]

theorem exec_stealRequest {s : State} {cl j v : Nat} (hcl : cl < 64) (hstop : (s.station cl).stopped = false)
    (hnone : (s.station cl).steal = none) (hidle : idleCluster s cl = true) (hnext : nextVictim cl 0 = some (j, v)) :
    exec (.stealRequest cl) s = .next (s.steal cl j v) := by
  show execStealRequest cl s = _
  simp only [execStealRequest, hnone, Option.bind_some, hnext, hcl, hstop, hidle, decide_true, Bool.not_false, Bool.or_true,
    Bool.and_self, whenever_true, happens_some]

theorem exec_stealReply {s : State} {m : Nat} {x : Msg} {es : List ReadyEntry} {cl : Nat} (hm : s.msg m = some x)
    (hp : x.payload = .stealReply es) (hride : x.ride = .arrived) (hdst : x.dst = .station cl)
    (hroom : es = [] ∨ ((s.requeueAll cl).station cl).roomNew es.length = true) :
    exec (.stealReply m) s = .next (((s.requeueAll cl).dropMsg m).stolen cl es) := by
  have hgo : (es.isEmpty || ((s.requeueAll cl).station cl).roomNew es.length) = true := by
    rw [Bool.or_eq_true, List.isEmpty_iff]
    exact hroom
  show execStealReply m s = _
  simp only [execStealReply, hm, hp, hride, hdst, hgo, whenever_true, happens_some]

/-- Settles O56: each event answers the next state of its own branch. -/
theorem queueEventResults : Obligations.QueueEventResults := by
  unfold Obligations.QueueEventResults
  refine ⟨fun s t th w i => swapOut_stores, fun s t th w => swapOut_full,
    fun s cl i e he hstop hq => ⟨swappedWake_again he hstop hq, swappedWake_over he hstop hq⟩, fun s q link off bytes hq hlink hoff hwait => ?_,
    fun s cl task e he hstop => exec_stagingDone he hstop, fun s c slot hfree => ?_,
    fun s m x p c hm hp hride hdst => ⟨travelArrival_room hm hp hride hdst, travelArrival_full hm hp hride hdst⟩,
    fun s cl j v => exec_stealRequest, fun s m x es cl => exec_stealReply⟩
  · have hexec := exec_intakeRecord bytes hq hlink hoff hwait
    exact ⟨fun h => by rw [hexec, intake_off h], fun h hbad => by rw [hexec, intake_malformed h hbad],
      fun _ _ _ => hexec⟩
  · have hexec := exec_slotOffer hfree
    exact ⟨fun p rest h => by rw [hexec, offer_arrival h, happens_some],
      fun w h hcrew => ⟨by rw [hexec, offer_crew h hcrew, happens_some], exec_crewMemberStart hfree h hcrew⟩,
      fun e h hcrew hfit => by rw [hexec, offer_first h hcrew hfit, happens_some]⟩

end Sys2Proof.Machine
end

section
/-!
Events of the units (05 R109, 09 R208, R221 to R228, 10 R247, 11 R271 to R276, 12 R285, R288, R299 to R301).
-/

namespace Sys2Proof.Machine

/-! ### Engines, the matrix unit, tiles -/

section

variable {s : State} {c : Nat}

theorem engineStart_command {s1 : State} (hstop : (s.core c).stopped = false)
    (h : (s.core c).engine.findSome? (s.nextCommand c) = some s1) : exec (.engineStart c) s = .next s1 := by
  show execEngineStart c s = _
  simp only [execEngineStart, hstop, h, Bool.false_eq_true, if_false, happens_some]

theorem engineStart_operation {e : EngOp} (hstop : (s.core c).stopped = false)
    (h : (s.core c).engine.findSome? (s.nextCommand c) = none) (hnext : nextEngine (s.core c) = some e) :
    exec (.engineStart c) s = .next (s.startEngine c e) := by
  show execEngineStart c s = _
  simp only [execEngineStart, hstop, h, hnext, Option.map_some, Bool.false_eq_true, if_false, happens_some]

theorem exec_engineCompletion {id : Nat} {e : EngOp} (he : (s.core c).engOp (BitVec.ofNat 16 id) = some e) (hend : e.ended = true)
    (hstop : (s.core c).stopped = false) : exec (.engineCompletion c id) s = .next (s.endEngine c e) := by
  show execEngineCompletion c id s = _
  simp only [execEngineCompletion, he, hend, hstop, Bool.not_false, Bool.and_self, whenever_true, happens_some]

theorem exec_matrixCompletion {t op : Nat} {th : Thread} {o : Op} {m : MatrixJob} (hunit : (s.core c).matrix = some (t, op))
    (h : HasOperation s t op th o) (hsent : o.phase = .sent 1) (hact : o.act = .matrix m) :
    exec (.matrixCompletion c) s = .next (if ((s.stepMatrix t th o m).core c).stopped && ((s.stepMatrix t th o m).core c).matrix.isNone
      then (s.stepMatrix t th o m).writeBackAll c else s.stepMatrix t th o m) := by
  show execMatrixCompletion c s = _
  simp only [execMatrixCompletion, runningMatrix, hunit, opOf_some h, hsent, hact, Option.map_some, happens_some]

theorem exec_macldRowArrival {t op left tile : Nat} {bf16 pass : Bool} {shape : BitVec 3} {st : Nat} {th : Thread} {o : Op}
    (h : HasOperation s t op th o) (hsent : o.phase = .sent left) (hact : o.act = .rows tile bf16 pass shape st)
    (hstop : (s.core (tcore t)).stopped = false) :
    exec (.macldRowArrival t op) s = .next (s.rowArrives t o left tile bf16 pass shape) := by
  show execMacldRowArrival t op s = _
  simp only [execMacldRowArrival, opOf_some h, hsent, hact, hstop, Bool.not_false, whenever_true, happens_some]

/-! ### Row handlers (09 R225 to R227) -/

theorem exec_rowHandlerDispatch {slot : Nat} {d : Drain} (hslot : slot = 64 ∨ slot = 65) (hfree : s.thread (tnum c slot) = none)
    (hstop : (s.core c).stopped = false) (hd : nextDrain (s.core c) = some d) :
    exec (.rowHandlerDispatch c slot) s = .next (s.dispatchRow c slot d) := by
  have hs : (slot == 64 || slot == 65) = true := by
    rw [Bool.or_eq_true, beq_iff_eq, beq_iff_eq]
    exact hslot
  show execRowHandlerDispatch c slot s = _
  simp only [execRowHandlerDispatch, hd, hs, hfree, hstop, Option.isNone_none, Bool.not_false, Bool.and_self, whenever_true, happens_some]

theorem dispatchRow_untagged {slot : Nat} {d : Drain} (h : (s.core c).hentry.tag = false) :
    s.dispatchRow c slot d = (s.modDrain c d.tile (fun x => { x with failed := some .tag })).settleDrains c := by
  simp only [State.dispatchRow, h, Bool.not_false, if_true]

theorem dispatchRow_foreign {slot : Nat} {d : Drain} (h : (s.core c).hentry.tag = true)
    (hdom : (s.core c).hdomain ≠ ((s.core c).tile d.tile).domain) :
    s.dispatchRow c slot d = (s.modDrain c d.tile (fun x => { x with failed := some .perm })).settleDrains c := by
  simp only [State.dispatchRow, h, bne_iff_ne.mpr hdom, Bool.not_true, Bool.false_eq_true, if_false, if_true]

theorem dispatchRow_starts {slot : Nat} {d : Drain} (h : (s.core c).hentry.tag = true)
    (hdom : (s.core c).hdomain = ((s.core c).tile d.tile).domain) :
    s.dispatchRow c slot d = (((s.modDrain c d.tile (fun x => { x with next := x.next + 1 })).setThread (tnum c slot)
      (handlerThread s c slot (d.present s))).modCore c (fun y => { y with dispatches := tmod y.dispatches slot 0 (· + 1) })).acquireInv c
        (fun _ => true) := by
  simp only [State.dispatchRow, h, hdom, bne_self_eq_false, Bool.not_true, Bool.false_eq_true, if_false]

theorem exec_handlerOverrun {slot : Nat} {th : Thread} {d : Dispatch} (hth : s.thread (tnum c slot) = some th) (hd : th.dispatch = some d)
    (hlate : d.start + Config.handlerCycles ≤ s.cycle) (hend : ∀ o ∈ th.ops, o.act ≠ .hend) (htrap : isTrapping th = false)
    (hstop : (s.core c).stopped = false) : exec (.handlerOverrun c slot) s = .next (s.overrun (tnum c slot) th) := by
  have hno : th.ops.any (fun o => o.act == .hend) = false := List.any_eq_false.mpr fun o ho => by simpa using hend o ho
  have hl : lateHandler s th = true := by
    simp only [lateHandler, hd, hlate, hno, decide_true, Bool.not_false, Bool.and_self]
  show execHandlerOverrun c slot s = _
  simp only [execHandlerOverrun, hth, hd, hl, htrap, hstop, Bool.not_false, Bool.and_self, whenever_true, happens_some]

end

/-! ### REPART (05 R109) -/

/-- What comes of a repartition whose issuer waits. -/
def State.repartNext (s : State) (c p t : Nat) (th : Thread) (o : Op) : Option State :=
  let rest := th.ops.filter (fun x => x.id != o.id)
  let freed := s.modCore c (fun k => { k with repart := none })
  if (oldestRefused rest).isSome then whenever (rest.all Op.isSettled) (freed.trapInstead t o)
  else if th.regs.any (fun x => decide (x.1 < th.count) && !x.2.present) then none
  else if p == (s.core c).partn.toNat then some (freed.completeOut t o [Val.zero])
  else whenever rest.isEmpty (s.repartDone c t th o p)

theorem exec_repartComplete {s : State} {c p t : Nat} {th : Thread} {o : Op} (hp : (s.core c).repart = some p)
    (hi : repartIssuer s c = some (t, th, o)) : exec (.repartComplete c) s = happens (s.repartNext c p t th o) := by
  show execRepartComplete c s = _
  simp only [execRepartComplete, hp, hi]
  rfl

theorem registersPresent {th : Thread} (h : ∀ x ∈ th.regs, x.1 < th.count → x.2.present = true) :
    th.regs.any (fun x => decide (x.1 < th.count) && !x.2.present) = false := by
  refine List.any_eq_false.mpr fun x hx => ?_
  rw [Bool.and_eq_true, decide_eq_true_iff, Bool.not_eq_true']
  rintro ⟨hlt, habs⟩
  rw [h x hx hlt] at habs
  cases habs

theorem registerAbsent {th : Thread} (h : ∃ x ∈ th.regs, x.1 < th.count ∧ x.2.present = false) :
    th.regs.any (fun x => decide (x.1 < th.count) && !x.2.present) = true := by
  obtain ⟨x, hx, hlt, habs⟩ := h
  exact List.any_eq_true.mpr ⟨x, hx, by simp [hlt, habs]⟩

section

variable {s : State} {c p t : Nat} {th : Thread} {o : Op}

theorem repartNext_refused (href : (oldestRefused (th.ops.filter (fun x => x.id != o.id))).isSome = true)
    (hset : (th.ops.filter (fun x => x.id != o.id)).all Op.isSettled = true) :
    s.repartNext c p t th o = some ((s.modCore c (fun k => { k with repart := none })).trapInstead t o) := by
  simp only [State.repartNext, href, hset, if_true, whenever_true]

theorem repartNext_waits (hnone : oldestRefused (th.ops.filter (fun x => x.id != o.id)) = none)
    (habs : ∃ x ∈ th.regs, x.1 < th.count ∧ x.2.present = false) : s.repartNext c p t th o = none := by
  simp only [State.repartNext, hnone, registerAbsent habs, Option.isSome_none, Bool.false_eq_true, if_false, if_true]

theorem repartNext_same (hnone : oldestRefused (th.ops.filter (fun x => x.id != o.id)) = none)
    (hall : ∀ x ∈ th.regs, x.1 < th.count → x.2.present = true) (hp : p = (s.core c).partn.toNat) :
    s.repartNext c p t th o = some ((s.modCore c (fun k => { k with repart := none })).completeOut t o [Val.zero]) := by
  simp only [State.repartNext, hnone, registersPresent hall, hp, beq_self_eq_true, Option.isSome_none, Bool.false_eq_true, if_false, if_true]

theorem repartNext_done (hrest : th.ops.filter (fun x => x.id != o.id) = [])
    (hall : ∀ x ∈ th.regs, x.1 < th.count → x.2.present = true) (hp : p ≠ (s.core c).partn.toNat) :
    s.repartNext c p t th o = some (s.repartDone c t th o p) := by
  have hnone : oldestRefused ([] : List Op) = none := rfl
  simp only [State.repartNext, hrest, hnone, registersPresent hall, beq_iff_eq, hp, List.isEmpty_nil, Option.isSome_none,
    Bool.false_eq_true, if_false, whenever_true]

end

/-! ### Mark domains (12 R285, R288, R300, R301) -/

section

variable {s : State} {h dom : Nat}

theorem exec_timedTick (hbound : (s.mark dom).bound = true) (hstep : (s.mark dom).stepped = false) (hh : h < Config.cores)
    (hlt : tget (s.home h).ticks dom 0 < timedTick (s.mark dom) (s.tsAt h)) :
    exec (.timedTick h dom) s = .next (s.modHome h (fun k => { k with ticks := tput k.ticks dom (timedTick (s.mark dom) (s.tsAt h)) })) := by
  show execTimedTick h dom s = _
  simp only [execTimedTick, hbound, hstep, hh, hlt, decide_true, Bool.not_false, Bool.and_self, whenever_true, happens_some]

theorem exec_tickMessage {m gen n t op : Nat} {x : Msg} (hat : AtHome s m x h) (hp : x.payload = .tick dom gen n t op)
    (hall : ∀ y ∈ s.ticksUpTo x, y.id = m) : exec (.tickMessage m) s = .next ((s.dropMsg m).applyTick h dom gen n t op) := by
  have hat' : s.ready m = some (x, h) := hat
  have hfirst : (s.ticksUpTo x).all (fun y => y.id == m) = true := List.all_eq_true.mpr fun y hy => beq_iff_eq.mpr (hall y hy)
  show execTickMessage m s = _
  simp only [execTickMessage, hat', hp, hfirst, whenever_true, happens_some]

theorem exec_coolingSweep {c : Nat} (hbound : (s.mark dom).bound = true) (hlive : markLive s h dom = true) (hc : c < (s.mark dom).cells)
    (hhome : cellHome s (s.mark dom) c = h) : exec (.coolingSweep h dom c) s = .next (s.updateCell h dom c id).1 := by
  show execCoolingSweep h dom c s = _
  simp only [execCoolingSweep, hbound, hlive, hc, hhome, beq_self_eq_true, decide_true, Bool.and_self, whenever_true, happens_some]

theorem exec_mbindRewrite {w : BindWork} (hw : workOf (s.home h) dom true = some w) (hown : ownEarlier s h w = false) :
    exec (.mbindRewrite h dom) s = .next ((((cellsAt s h (s.mark dom)).foldl (fun r c => r.rewriteCell h dom c) s).endWork h w).takeReply
      w.t w.op (.answer [Val.zero])) := by
  show execMbindRewrite h dom s = _
  simp only [execMbindRewrite, hw, hown, Bool.not_false, whenever_true, happens_some]

theorem exec_munbindHome {w : BindWork} (hw : workOf (s.home h) dom false = some w) (hbind : bindPending s h dom true = false)
    (harr : markArrived s h dom = false) (hown : ownEarlier s h w = false) :
    exec (.munbindHome h dom) s = .next ((((s.updateCells h dom (cellsAt s h (s.mark dom))).1).endWork h w).takeReply w.t w.op
      (.answer [Val.zero])) := by
  show execMunbindHome h dom s = _
  simp only [execMunbindHome, hw, hbind, harr, hown, Bool.not_false, Bool.and_self, whenever_true, happens_some]

end

/-- Settles O57: each event answers the next state of its own branch. -/
theorem unitEventResults : Obligations.UnitEventResults := by
  unfold Obligations.UnitEventResults
  refine ⟨fun s c hstop => ⟨fun s1 => engineStart_command hstop, fun e => engineStart_operation hstop⟩, fun s c id e => exec_engineCompletion,
    fun s c t op th o m => exec_matrixCompletion, fun s t op th o left tile bf16 pass shape st => exec_macldRowArrival,
    fun s c slot d hslot hfree hstop hd => ?_, fun s c slot th d => exec_handlerOverrun, fun s c p t th o hp hi => ?_, fun s h v hv => ?_,
    fun s h dom => exec_timedTick, fun s m x h dom gen n t op => exec_tickMessage, fun s h dom c => exec_coolingSweep,
    fun s h dom w => exec_mbindRewrite, fun s h dom w => exec_munbindHome⟩
  · have hexec := exec_rowHandlerDispatch hslot hfree hstop hd
    exact ⟨fun htag => by rw [hexec, dispatchRow_untagged htag], fun htag hdom => by rw [hexec, dispatchRow_foreign htag hdom],
      fun htag hdom => by rw [hexec, dispatchRow_starts htag hdom]⟩
  · have hexec := exec_repartComplete hp hi
    exact ⟨fun href hset => by rw [hexec, repartNext_refused href hset, happens_some],
      fun hnone habs => by rw [hexec, repartNext_waits hnone habs]; rfl,
      fun hnone hall hsame => by rw [hexec, repartNext_same hnone hall hsame, happens_some],
      fun hrest hall hother => by rw [hexec, repartNext_done hrest hall hother, happens_some]⟩
  · show execWayconvCompletion h s = _
    simp only [execWayconvCompletion, hv, Option.map_some, happens_some]

end Sys2Proof.Machine
end

section
/-!
Events of links, loops and gang switches (01 R18 to R26, 05 R110, 15 R379 to R383, 16 R400, R401).
-/

namespace Sys2Proof.Machine

/-! ### Links and loops -/

theorem exec_linkDelivery {s : State} {c n : Nat} {side : Side} {v : QueueEntry} {rest : List QueueEntry}
    (hfly : (s.core c).flying side = v :: rest) (hn : neighbour c side = some n)
    (hroom : ((s.core n).inbox (Side.opposite side)).length < Config.inboxSize) :
    exec (.linkDelivery c side) s = .next ((s.modCore c (fun k => k.setFlying side rest)).modCore n
      (fun k => k.setInbox (Side.opposite side) ((s.core n).inbox (Side.opposite side) ++ [v]))) := by
  show execLinkDelivery c side s = _
  simp only [execLinkDelivery, hfly, hn, hroom, decide_true, whenever_true, happens_some]

section

variable {s : State} {m : Nat} {x : Msg}

theorem loopInsertion_taken {k : Nat} (hm : s.msg m = some x) (hk : captureKey s x = some k) :
    exec (.loopInsertion m) s = .refused .notEnabled := by
  show execLoopInsertion m s = _
  simp only [execLoopInsertion, hm, hk, Option.isSome_some, if_true]
  rfl

theorem exec_falloutCapture {k : Nat} (hm : s.msg m = some x) (hk : captureKey s x = some k) :
    exec (.falloutCapture m) s = .next (s.capture x k) := by
  show execFalloutCapture m s = _
  simp only [execFalloutCapture, hm, hk, Option.map_some, happens_some]

/-- A waiting message that no store takes. -/
theorem loopInsertion_waiting {since : Nat} {res : Bool} (hm : s.msg m = some x) (hk : captureKey s x = none)
    (hride : x.ride = .waiting since res) :
    exec (.loopInsertion m) s = happens (whenever (mayInsert s x) (s.setRide m (fun y =>
      { y with ride := .onLoop x.loop.hops, entered := if x.leg = 0 then s.cycle else x.entered }))) := by
  show execLoopInsertion m s = _
  simp only [execLoopInsertion, hm, hk, hride, Option.isSome_none, Bool.false_eq_true, if_false]

/-- A riding message that no store takes. -/
theorem loopInsertion_riding {n : Nat} (hm : s.msg m = some x) (hk : captureKey s x = none) (hride : x.ride = .onLoop n) :
    exec (.loopInsertion m) s = .next (if !mayEject s x then s else if x.lastLeg then (s.eject x).sampleTransit x
      else s.setRide m (fun y => { y with ride := .waiting s.cycle false, leg := x.leg + 1 })) := by
  show execLoopInsertion m s = _
  simp only [execLoopInsertion, hm, hk, hride, Option.isSome_none, Bool.false_eq_true, if_false]
  split_ifs
  · rfl
  · rfl
  · rfl

theorem exec_slotReservation {since : Nat} (hm : s.msg m = some x) (hride : x.ride = .waiting since false) (hdue : since + 64 ≤ s.cycle) :
    exec (.slotReservation m) s = .next (s.setRide m (fun y => { y with ride := .waiting since true })) := by
  show execSlotReservation m s = _
  simp only [execSlotReservation, hm, hride, hdue, decide_true, whenever_true, happens_some]

end

/-! ### The stop of a gang (15 R380) -/

/-- A fold that makes P hold of each element and keeps it where it holds makes it hold of all. -/
theorem foldl_establishes {β : Type} {P : β → State → Prop} {f : State → β → State} (hset : ∀ s x, P x (f s x))
    (hkeep : ∀ s x y, P y s → P y (f s x)) (l : List β) (s : State) : ∀ x ∈ l, P x (l.foldl f s) := by
  have keeps : ∀ (l : List β) (s : State) y, P y s → P y (l.foldl f s) := fun l => by
    induction l with
    | nil => exact fun _ _ h => h
    | cons x l ih => exact fun s y h => ih _ y (hkeep s x y h)
  induction l generalizing s with
  | nil => exact fun _ hx => absurd hx List.not_mem_nil
  | cons z l ih =>
    intro x hx
    rcases List.mem_cons.mp hx with rfl | hx
    · exact keeps l _ x (hset s x)
    · exact ih _ x hx

theorem modCore_stopped (s : State) (c n : Nat) (f : Core → Core) (hf : ∀ k, (f k).stopped = k.stopped) :
    ((s.modCore c f).core n).stopped = (s.core n).stopped := by
  by_cases h : n = c
  · rw [h, core_modCore_same, hf]
  · rw [core_modCore_other s f h]

theorem writeBackAll_stopped (s : State) (c n : Nat) : ((s.writeBackAll c).core n).stopped = (s.core n).stopped := by
  have hfold : ∀ (xs : List (Word × BitVec 16)) (s : State),
      ((xs.foldl (fun s x => s.writeBack c x.1 x.2 false none) s).core n).stopped = (s.core n).stopped := fun xs => by
    induction xs with
    | nil => exact fun _ => rfl
    | cons x xs ih =>
      exact fun s => (ih _).trans (modCore_stopped s c n (fun k => nearPut k x.1 x.2 Sector.invalid) fun _ => rfl)
  exact (modCore_stopped _ c n (fun k => { k with near := [] }) fun _ => rfl).trans (hfold _ s)

/-- A core as a gang stop leaves it: stopped, its near slice sent back unless its matrix unit runs. -/
def State.stopCore (s : State) (c : Nat) : State :=
  (if (runningMatrix s c).isSome then s else s.writeBackAll c).modCore c (fun k => { k with stopped := true })

theorem stopCore_sets (s : State) (c : Nat) : ((s.stopCore c).core c).stopped = true := by
  rw [State.stopCore, core_modCore_same]

theorem stopCore_keeps (s : State) (c n : Nat) (h : (s.core n).stopped = true) : ((s.stopCore c).core n).stopped = true := by
  by_cases hn : n = c
  · rw [hn]
    exact stopCore_sets s c
  · rw [State.stopCore, core_modCore_other _ _ hn]
    split_ifs
    · exact h
    · rw [writeBackAll_stopped, h]

def State.stopStation (s : State) (cl : Nat) : State := s.modStation cl (fun k => { k with stopped := true })

theorem stopStation_sets (s : State) (cl : Nat) : ((s.stopStation cl).station cl).stopped = true := by
  rw [State.stopStation, State.modStation, State.station, State.setStation, tget_tput_same]

theorem stopStation_keeps (s : State) (cl n : Nat) (h : (s.station n).stopped = true) : ((s.stopStation cl).station n).stopped = true := by
  by_cases hn : n = cl
  · rw [hn]
    exact stopStation_sets s cl
  · rw [State.stopStation, State.modStation, State.station, State.setStation, tget_tput_other _ _ _ _ _ hn]
    exact h

theorem stopStations_core (l : List Nat) (s : State) (c : Nat) : (l.foldl State.stopStation s).core c = s.core c := by
  induction l generalizing s with
  | nil => rfl
  | cons cl l ih => exact ih _

/-- The cores and stations of a rectangle stopped. -/
def State.stopArea (s : State) (g : Gang) : State := (rectClusters g.area).foldl State.stopStation ((rectCores g.area).foldl State.stopCore s)

theorem exec_gangStop {s : State} {part : Nat} {g : Gang} (hg : s.gangs.find? (fun g => g.part == part && !g.stopped) = some g)
    (hts : (rectCores g.area).all (fun c => decide (g.ts.toNat ≤ s.tsAt c)) = true) :
    exec (.gangStop part) s = .next { s.stopArea g with
      gangs := (s.stopArea g).gangs.map (fun x => if x == g then { x with stopped := true } else x) } := by
  show execGangStop part s = _
  simp only [execGangStop, hg, hts, whenever_true, happens_some]
  rfl

theorem stopArea_cores (s : State) (g : Gang) : ∀ c ∈ rectCores g.area, ((s.stopArea g).core c).stopped = true := by
  intro c hc
  rw [State.stopArea, stopStations_core]
  exact foldl_establishes (P := fun c s => (s.core c).stopped = true) stopCore_sets stopCore_keeps _ s c hc

theorem stopArea_stations (s : State) (g : Gang) : ∀ cl ∈ rectClusters g.area, ((s.stopArea g).station cl).stopped = true :=
  foldl_establishes (P := fun cl s => (s.station cl).stopped = true) stopStation_sets stopStation_keeps _ _

/-! ### What a stopped partition takes, and its load (15 R380 to R383) -/

theorem captureKey_wakes {s : State} {x : Msg} {v : Saved} {op : Nat} (hw : x.wakes = some op) (hv : savedFor s op = some v) :
    captureKey s x = some (falloutKey v.part v.ts) := by
  simp only [captureKey, hw, Option.bind_some, hv]

theorem captureKey_gang {s : State} {x : Msg} {g : Gang} (hw : x.wakes = none)
    (hg : s.gangs.find? (fun g => g.stopped && (x.taken g.part g.area || followsTaken s x (falloutKey g.part g.ts))) = some g)
    (h : (x.ride ≠ .arrived ∧ (x.src.cluster ≠ x.dst.cluster ∨ ∃ n, x.dst = .station n)) ∨
      followsTaken s x (falloutKey g.part g.ts) = true) : captureKey s x = some (falloutKey g.part g.ts) := by
  simp only [captureKey, hw, Option.bind_none, hg, ite_eq_left_iff, reduceCtorEq, imp_false, not_not]
  rw [Bool.or_eq_true, Bool.and_eq_true, Bool.or_eq_true, bne_iff_ne, bne_iff_ne]
  rcases h with ⟨hride, hcluster | ⟨n, hn⟩⟩ | hfollows
  · exact .inl ⟨hride, .inl hcluster⟩
  · exact .inl ⟨hride, .inr (by rw [hn])⟩
  · exact .inr hfollows

/-- Settles O58: each event answers the next state of its own branch; a stop reaches every core and station of its rectangle. -/
theorem linkLoopAndGangEventResults : Obligations.LinkLoopAndGangEventResults := by
  unfold Obligations.LinkLoopAndGangEventResults
  refine ⟨fun s c side v rest n => exec_linkDelivery, fun s m x hm => ⟨fun k hk => ⟨loopInsertion_taken hm hk, exec_falloutCapture hm hk⟩,
    fun hk => ⟨fun since res hride => ⟨fun hgo => ?_, fun hno => ?_⟩, fun n hride => ⟨fun hno => ?_, fun hgo hlast => ?_, fun hgo hnot => ?_⟩⟩,
    fun since => exec_slotReservation hm⟩, fun s part g hg hts => ⟨_, exec_gangStop hg hts, stopArea_cores s g, stopArea_stations s g⟩,
    fun s x v op => captureKey_wakes, fun s x g => captureKey_gang, fun s part g hg hrest => ?_⟩
  · rw [loopInsertion_waiting hm hk hride, whenever_true hgo, happens_some]
  · rw [loopInsertion_waiting hm hk hride, whenever_false hno]
    rfl
  · rw [loopInsertion_riding hm hk hride, hno]
    rfl
  · rw [loopInsertion_riding hm hk hride, hgo, hlast]
    rfl
  · rw [loopInsertion_riding hm hk hride, hgo, hnot]
    rfl
  · intro r
    show execGangLoad part s = _
    simp only [execGangLoad, hg, hrest, Bool.not_true, Bool.false_eq_true, if_false, happens_some] <;> rfl

end Sys2Proof.Machine
end

section
/-!
Events of the device and the world outside (10 R250 to R252, 17 R404 to R411, 18 R412 to R426).
-/

namespace Sys2Proof.Machine

/-! ### Refresh, back-off, lanes (10 R250, R252) -/

section

variable {s : State} {h b : Nat}

theorem exec_hbmRefresh (hh : h < Config.cores) :
    exec (.hbmRefresh h b) s = .next (s.modHome h (fun k => { k with
      debt := tput k.debt b (if bankBusy s h b then min 8 (tget (s.home h).debt b 0 + 1) else tget (s.home h).debt b 0 - 1) })) := by
  show execHbmRefresh h b s = _
  simp only [execHbmRefresh, hh, decide_true, whenever_true, happens_some]

theorem exec_alertBackOff (hh : h < Config.cores) (hnone : tfind (s.home h).backoff b = none) :
    exec (.alertBackOff h b) s = .next ((s.modHome h (fun k => { k with
      backoff := tput k.backoff b s.cycle
      debt := if tget (s.home h).debt b 0 = 8 then tput k.debt b 7 else k.debt })).countHome h cREFSTALL 1) := by
  show execAlertBackOff h b s = _
  simp only [execAlertBackOff, hh, hnone, Option.isNone_none, decide_true, Bool.and_self, whenever_true, happens_some]

theorem exec_alertBackOffEnd {since : Nat} (hsome : tfind (s.home h).backoff b = some since) :
    exec (.alertBackOffEnd h b) s = .next ((s.modHome h (fun k => { k with backoff := tdel k.backoff b })).sampleHome h 8
      (2 * (s.cycle - since) / 3)) := by
  show execAlertBackOffEnd h b s = _
  simp only [execAlertBackOffEnd, hsome, Option.map_some, happens_some]

theorem exec_linkCrcError {k l : Nat} (hk : k < 16) (hl : l < 2048) :
    exec (.linkCrcError k l) s = .next (s.setStack k { s.stack k with
      lanecrc := tmod (s.stack k).lanecrc l 0 (fun n => min 65535 (n + 1)) }) := by
  show execLinkCrcError k l s = _
  simp only [execLinkCrcError, laneCount, hk, hl, decide_true, Bool.and_self, whenever_true, happens_some]

theorem exec_liveShift {k l : Nat} (hk : k < 16) (hon : (s.stack k).repairmode.getLsbD 2 = true)
    (hspare : (s.stack k).spares.extractLsb' 0 16 ≠ 0)
    (hthr : ((s.stack k).repairmode.extractLsb' 8 8).toNat ≤ tget (s.stack k).lanecrc l 0) (hpos : 0 < tget (s.stack k).lanecrc l 0) :
    exec (.liveShift k l) s = .next (s.shiftLane k l) := by
  show execLiveShift k l s = _
  simp only [execLiveShift, hk, hon, bne_iff_ne.mpr hspare, hthr, hpos, decide_true, Bool.and_self, whenever_true, happens_some]

theorem exec_liveShiftDone (hshift : (s.home h).shift = true) :
    exec (.liveShiftDone h) s =
      let waits := (s.byArrival (s.msgs.filter (fun m =>
        m.ride == .arrived && m.dst == .core h && m.needsLines && !(missingLines s h m).isEmpty))).map Msg.id
      .next (s.modHome h (fun k => { k with
        shift := false, parked := k.parked.filter (fun i => (s.msg i).isSome && !waits.contains i) ++ waits })) := by
  show execLiveShiftDone h s = _
  simp only [execLiveShiftDone, hshift, whenever_true, happens_some]

end

/-! ### The window and the BARs (18 R412, R416, R419) -/

/-- A reply to a host link's window access, told to the link. -/
def State.tellHost (link off : Nat) (r : State × WindowReply) : State :=
  match r.2 with
  | .data bytes => r.1.emit (.hostReply link 4 off bytes)
  | .taken => r.1
  | .unsupported => r.1.emit (.unsupported link 4 off)

/-- A reply to a peer's window access, told to its port. -/
def State.tellPeer (port off : Nat) (r : State × WindowReply) : State :=
  match r.2 with
  | .data bytes => r.1.emit (.peerReply port off bytes)
  | .taken => r.1
  | .unsupported => r.1.emit (.peerUnsupported port off)

section

variable {s : State} {off len : Nat} {data : Option (List Byte)} {r : State × WindowReply}

theorem exec_hostWindowAccess {link bar : Nat} (hlink : link < 2) :
    exec (.hostWindowAccess ⟨link, bar⟩ off len data) s = happens (s.hostAccess link bar off len data) := by
  show execHostWindowAccess ⟨link, bar⟩ off len data s = _
  simp only [execHostWindowAccess, Nat.not_le.mpr hlink, if_false]

theorem hostAccess_window {link : Nat} (hr : s.window (.link link) off len data = some r) :
    s.hostAccess link 4 off len data = some (State.tellHost link off r) := by
  simp only [State.hostAccess, if_true, hr, Option.map_some]
  rfl

theorem hostAccess_read {link bar : Nat} (hbar : bar ≠ 4) :
    s.hostAccess link bar off len none = some (s.emit
      (if barSize bar < off + len then .unsupported link bar off else .hostReply link bar off (barRead s link bar off len))) := by
  simp only [State.hostAccess, hbar, if_false]
  split_ifs
  · rfl
  · rfl

theorem hostAccess_beyond {link bar : Nat} {bytes : List Byte} (hbar : bar ≠ 4) (hout : barSize bar < off + bytes.length) :
    s.hostAccess link bar off len (some bytes) = some (s.emit (.unsupported link bar off)) := by
  simp only [State.hostAccess, hbar, hout, if_false, if_true]

theorem hostAccess_write {link bar : Nat} {bytes : List Byte} (hbar : bar ≠ 4) (hin : off + bytes.length ≤ barSize bar)
    (hwait : bar = 2 → off < 0x40000 → windowWaits s (.link link) = false) :
    s.hostAccess link bar off len (some bytes) = some (s.barWrite link bar off bytes) := by
  have hgo : ¬ (bar = 2 && off < 0x40000 && windowWaits s (.link link)) = true := by
    rw [Bool.and_eq_true, Bool.and_eq_true, decide_eq_true_iff, decide_eq_true_iff]
    rintro ⟨⟨htwo, hoff⟩, hw⟩
    rw [hwait htwo hoff] at hw
    cases hw
  simp only [State.hostAccess, hbar, Nat.not_lt.mpr hin, if_false]
  exact if_neg hgo

theorem exec_peerWindowAccess {port : Nat} (hport : port < 8) (hup : portUp s port = true)
    (hr : s.window (.port port) off len data = some r) :
    exec (.peerWindowAccess port off len data) s = .next (State.tellPeer port off r) := by
  show execPeerWindowAccess port off len data s = _
  simp only [execPeerWindowAccess, Nat.not_le.mpr hport, hup, decide_false, Bool.not_true, Bool.or_self, Bool.false_eq_true, if_false, hr,
    Option.map_some, happens_some]
  rfl

end

/-! ### Ports, drives, power, trust, samples (18 R419 to R426, 17 R408) -/

section

variable {s : State}

theorem exec_peerLinkUp {port : Nat} (serial : BitVec 32) (hport : port < 8) :
    exec (.peerLinkUp port serial) s = .next (s.modDev (fun d => { d with
      ppstat := tput d.ppstat port (serial ++ (1 : BitVec 32)) })) := by
  show execPeerLinkUp port serial s = _
  simp only [execPeerLinkUp, hport, decide_true, whenever_true, happens_some]

theorem exec_peerLinkLoss {port : Nat} (hport : port < 8) :
    exec (.peerLinkLoss port) s = .next ((portFlights s port).foldl
      (fun r x => (r.dropMsg x.1).takeReply x.2.1 x.2.2.1 (.refuse .machine x.2.2.2))
      (s.modDev (fun d => { d with ppstat := tmod d.ppstat port 0 (fun w => w &&& ~~~1) }))) := by
  show execPeerLinkLoss port s = _
  simp only [execPeerLinkLoss, hport, decide_true, whenever_true, happens_some]

theorem exec_archiveDriveCompletion {c id : Nat} {e : EngOp} (status : BitVec 32) (folio : List Byte)
    (he : (s.core c).engOp (BitVec.ofNat 16 id) = some e) (hout : e.outstanding = true) :
    exec (.archiveDriveCompletion c id status folio) s = .next (s.driveAnswer c e status folio) := by
  show execArchiveDriveCompletion c id status folio s = _
  simp only [execArchiveDriveCompletion, he, hout, whenever_true, happens_some]

theorem exec_archiveTimeout {c id : Nat} {e : EngOp} (he : (s.core c).engOp (BitVec.ofNat 16 id) = some e) (hout : e.outstanding = true)
    (hdue : e.since + 1500000000 ≤ s.cycle) :
    exec (.archiveTimeout c id) s = .next ((((s.failEng c e.id .machine).modEng c e.id
      (fun x => { x with answered := true })).driveFail e.drive
        ((tget s.dev.arcq e.drive ArcQueue.reset).st.extractLsb' 32 32)).driveOut e.drive false) := by
  show execArchiveTimeout c id s = _
  simp only [execArchiveTimeout, secondCycles, he, hout, hdue, decide_true, Bool.and_self, whenever_true, happens_some]

theorem exec_d3hotEntry (hidle : deviceIdle s = true) :
    exec .d3hotEntry s = .next (s.modDev (fun d => { d with devstat := d.devstat ||| 4 })) := by
  show execD3hotEntry s = _
  simp only [execD3hotEntry, hidle, whenever_true, happens_some]

theorem exec_powerLimit {w : Nat} (h : s.dev.pwrlim.toNat < w) :
    exec (.powerLimit w) s = .next ((s.modDev (fun d => { d with throttled := true })).signal 122 0) := by
  show execPowerLimit w s = _
  simp only [execPowerLimit, h, decide_true, whenever_true, happens_some]

theorem exec_powerBelowLimit {w : Nat} (h : w ≤ s.dev.pwrlim.toNat) :
    exec (.powerBelowLimit w) s = .next (s.modDev (fun d => { d with throttled := false })) := by
  show execPowerBelowLimit w s = _
  simp only [execPowerBelowLimit, h, decide_true, whenever_true, happens_some]

theorem exec_attestReady (hbusy : s.dev.trust.busy = 1) :
    exec .attestReady s = .next (s.modDev (fun d => { d with trust := { d.trust with
      busy := 2, report := reportOf s, sig := signReport (reportOf s), count := d.trust.count + 1 } })) := by
  show execAttestReady s = _
  simp only [execAttestReady, hbusy, beq_self_eq_true, whenever_true, happens_some]

theorem exec_sampleHome {place chan : Nat} (hon : channelOn (s.home place).captures chan 10 = true) :
    exec (.capturePeriodicSample true place chan) s =
      .next (s.modHome place (fun k => { k with captures := sampleChannel k.captures chan s.cycle 10 k.waits.length })) := by
  show execCapturePeriodicSample true place chan s = _
  simp only [execCapturePeriodicSample, hon, if_true, whenever_true, happens_some]

theorem exec_sampleCore {place chan : Nat} (hon : channelOn (s.core place).captures chan 5 = true) :
    exec (.capturePeriodicSample false place chan) s =
      .next (s.modCore place (fun k => { k with captures := sampleChannel k.captures chan s.cycle 5 k.engine.length })) := by
  show execCapturePeriodicSample false place chan s = _
  simp only [execCapturePeriodicSample, hon, Bool.false_eq_true, if_false, whenever_true, happens_some]

end

/-- Settles O59: each event answers the next state of its own branch. -/
theorem deviceEventResults : Obligations.DeviceEventResults := by
  unfold Obligations.DeviceEventResults
  refine ⟨fun s h b hh => exec_hbmRefresh hh, fun s h b hh hnone => exec_alertBackOff hh hnone, fun s h b since => exec_alertBackOffEnd,
    fun s k l => exec_linkCrcError, fun s k l => exec_liveShift, fun s h hshift => exec_liveShiftDone hshift, fun s => ⟨rfl, rfl⟩,
    fun s link off len data r hlink hr => ?_, fun s link bar off len hlink hbar => ?_, fun s link bar off len bytes hlink hbar => ⟨?_, ?_⟩,
    fun s port off len data r hport hup hr => ?_, fun s port serial => exec_peerLinkUp serial, fun s port => exec_peerLinkLoss,
    fun s c id e status folio => exec_archiveDriveCompletion status folio, fun s c id e he hout hdue => exec_archiveTimeout he hout hdue,
    fun s => exec_d3hotEntry, fun s => rfl, fun s w => ⟨exec_powerLimit, exec_powerBelowLimit⟩, fun s => exec_attestReady,
    fun s place chan => exec_sampleHome, fun s place chan => exec_sampleCore⟩
  · have hexec : exec (.hostWindowAccess ⟨link, 4⟩ off len data) s = .next (State.tellHost link off r) := by
      rw [exec_hostWindowAccess hlink, hostAccess_window hr, happens_some]
    exact ⟨fun bytes h => by rw [hexec, State.tellHost, h], fun h => by rw [hexec, State.tellHost, h],
      fun h => by rw [hexec, State.tellHost, h]⟩
  · rw [exec_hostWindowAccess hlink, hostAccess_read hbar, happens_some]
  · intro hout
    rw [exec_hostWindowAccess hlink, hostAccess_beyond hbar hout, happens_some]
  · intro hin hwait
    rw [exec_hostWindowAccess hlink, hostAccess_write hbar hin hwait, happens_some]
  · have hexec := exec_peerWindowAccess hport hup hr
    exact ⟨fun bytes h => by rw [hexec, State.tellPeer, h], fun h => by rw [hexec, State.tellPeer, h],
      fun h => by rw [hexec, State.tellPeer, h]⟩

end Sys2Proof.Machine
end

section
/-!
Management writes (18 R413): a clear of a counter leaves what was counted in the cycle of the write (17 R405).
-/

namespace Sys2Proof.Machine

/-- After reset, counter 0 of core 0 has counted one event in the present cycle. -/
def State.countedNow : State := State.reset.countCore 0 0 1

/-- The clear of that counter leaves the event that its own cycle counted. -/
theorem counterClear_countedNow : tfind ((mgmtWrite State.countedNow 0x1000100 0).core 0).counters 0 = some 1 := by
  decide

/-- Refutes O60: its clause that a write of 0 leaves no count of counter 0 fails in a state that has counted in the cycle of the
write, whose count stands (17 R405). -/
theorem not_managementEventResults : ¬ Obligations.ManagementEventResults := by
  unfold Obligations.ManagementEventResults
  rintro ⟨-, -, -, -, -, -, -, -, -, -, -, -, -, -, -, -, hclear, -⟩
  have hnone := hclear State.countedNow
  rw [counterClear_countedNow] at hnone
  cases hnone

end Sys2Proof.Machine
end

section
/-!
Storage keeps its canonical form (log 5): the predicate, what carries it through the shapes that the model's functions have, and the
operations of the state, of near slices, of homes and of threads that keep it. Each lemma is named after the function whose result
it is about.
-/

namespace Sys2Proof.Machine

/-- Storage of s is in the canonical form. -/
def State.Canonical (s : State) : Prop := memWf s.mem = true

/-- The state, where there is one, has canonical storage. -/
def SomeCanonical (x : Option State) : Prop := ∀ s, x = some s → s.Canonical

/-- The state, where the computation ends without an error, has canonical storage. -/
def OkCanonical {ε : Type} (x : Except ε State) : Prop := ∀ s, x = .ok s → s.Canonical

/-- The state after the step, where there is one, has canonical storage. -/
def NextCanonical (x : Host.Outcome State Fault Refusal) : Prop := ∀ s, x = .next s → s.Canonical

/-- The effect keeps storage canonical. -/
def EffectCanonical (e : Effect) : Prop := ∀ v th s, s.Canonical → OkCanonical (e v th s)

namespace State.Canonical

variable {s r : State}

theorem of_mem (h : s.Canonical) (hm : r.mem = s.mem) : r.Canonical := by
  unfold State.Canonical
  rw [hm]
  exact h

theorem ite {p : Prop} [Decidable p] (h : s.Canonical) (h' : r.Canonical) : (if p then s else r).Canonical := by
  split
  · exact h
  · exact h'

theorem foldl {α : Type} {l : List α} {f : State → α → State} (h : s.Canonical)
    (hf : ∀ s x, s.Canonical → (f s x).Canonical) : (l.foldl f s).Canonical :=
  memWf_foldl l f s hf h

/-- A fold that carries a value beside the state. -/
theorem foldlFst {α β : Type} {l : List α} {f : State × β → α → State × β} {p : State × β} (h : p.1.Canonical)
    (hf : ∀ p x, p.1.Canonical → (f p x).1.Canonical) : (l.foldl f p).1.Canonical := by
  induction l generalizing p with
  | nil => exact h
  | cons x l ih => exact ih (hf p x h)

theorem getD {x : Option State} (h : s.Canonical) (hx : SomeCanonical x) : (x.getD s).Canonical := by
  cases x with
  | none => exact h
  | some r => exact hx r rfl

theorem fst {β : Type} {p : State × β} {y : β} (h : p.1.Canonical) (hp : p = (r, y)) : r.Canonical := by
  subst hp; exact h

theorem snd {β : Type} {p : β × State} {y : β} (h : p.2.Canonical) (hp : p = (y, r)) : r.Canonical := by
  subst hp; exact h

theorem iteFst {β : Type} {p : Prop} [Decidable p] {x y : State × β} (h : x.1.Canonical) (h' : y.1.Canonical) :
    (if p then x else y).1.Canonical := by
  split
  · exact h
  · exact h'

theorem iteSnd {β : Type} {p : Prop} [Decidable p] {x y : β × State} (h : x.2.Canonical) (h' : y.2.Canonical) :
    (if p then x else y).2.Canonical := by
  split
  · exact h
  · exact h'

theorem someOf (h : s.Canonical) : SomeCanonical (some s) := fun _ hr => Option.some.inj hr ▸ h

theorem okOf {ε : Type} (h : s.Canonical) : OkCanonical (.ok s : Except ε State) := fun _ hr => Except.ok.inj hr ▸ h

theorem nextOf (h : s.Canonical) : NextCanonical (.next s) := fun _ hr => Host.Outcome.next.inj hr ▸ h

end State.Canonical

theorem SomeCanonical.ofNone : SomeCanonical none := fun _ h => nomatch h

theorem SomeCanonical.ite {p : Prop} [Decidable p] {x y : Option State} (h : SomeCanonical x) (h' : SomeCanonical y) :
    SomeCanonical (if p then x else y) := by
  split
  · exact h
  · exact h'

theorem SomeCanonical.map {α : Type} {x : Option α} {f : α → State} (hf : ∀ a, (f a).Canonical) : SomeCanonical (x.map f) := by
  intro s hs
  obtain ⟨a, -, rfl⟩ := Option.map_eq_some_iff.mp hs
  exact hf a

theorem OkCanonical.ofError {ε : Type} {e : ε} : OkCanonical (.error e : Except ε State) := fun _ h => nomatch h

theorem OkCanonical.ite {ε : Type} {p : Prop} [Decidable p] {x y : Except ε State} (h : OkCanonical x) (h' : OkCanonical y) :
    OkCanonical (if p then x else y) := by
  split
  · exact h
  · exact h'

theorem NextCanonical.ofRefused {r : Refusal} : NextCanonical (.refused r) := fun _ h => nomatch h

theorem NextCanonical.ite {p : Prop} [Decidable p] {x y : Host.Outcome State Fault Refusal} (h : NextCanonical x)
    (h' : NextCanonical y) : NextCanonical (if p then x else y) := by
  split
  · exact h
  · exact h'

/-! ### The state's own operations -/

theorem State.Canonical.store {s : State} {a n v : Nat} (h : s.Canonical) : (s.store a n v).Canonical :=
  memWf_store _ _ _ _ h

theorem State.Canonical.setTag {s : State} {a : Nat} {b : Bool} (h : s.Canonical) : (s.setTag a b).Canonical :=
  memWf_setTag _ _ _ h

theorem State.Canonical.storeCap {s : State} {a : Nat} {v : Val} (h : s.Canonical) : (s.storeCap a v).Canonical :=
  memWf_storeCap _ _ _ h

theorem State.Canonical.setFe {s : State} {a : Nat} {full : Bool} (h : s.Canonical) : (s.setFe a full).Canonical :=
  h.of_mem (State.setFe_mem ..)

theorem State.Canonical.setPoison {s : State} {a : Nat} {b : Bool} (h : s.Canonical) : (s.setPoison a b).Canonical :=
  h.of_mem (State.setPoison_mem ..)

theorem State.Canonical.zeroRange {s : State} {a n : Nat} (h : s.Canonical) : (s.zeroRange a n).Canonical :=
  memWf_zeroRange _ _ _ h

theorem State.Canonical.setThread {s : State} {t : Nat} {th : Thread} (h : s.Canonical) : (s.setThread t th).Canonical :=
  h.of_mem (State.setThread_mem ..)

theorem State.Canonical.dropThread {s : State} {t : Nat} (h : s.Canonical) : (s.dropThread t).Canonical :=
  h.of_mem (State.dropThread_mem ..)

theorem State.Canonical.modThread {s : State} {t : Nat} {f : Thread → Thread} (h : s.Canonical) : (s.modThread t f).Canonical :=
  h.of_mem (State.modThread_mem ..)

theorem State.Canonical.setCore {s : State} {c : Nat} {k : Core} (h : s.Canonical) : (s.setCore c k).Canonical :=
  h.of_mem (State.setCore_mem ..)

theorem State.Canonical.modCore {s : State} {c : Nat} {f : Core → Core} (h : s.Canonical) : (s.modCore c f).Canonical :=
  h.of_mem (State.modCore_mem ..)

theorem State.Canonical.setHome {s : State} {hm : Nat} {k : Home} (h : s.Canonical) : (s.setHome hm k).Canonical :=
  h.of_mem (State.setHome_mem ..)

theorem State.Canonical.modHome {s : State} {hm : Nat} {f : Home → Home} (h : s.Canonical) : (s.modHome hm f).Canonical :=
  h.of_mem (State.modHome_mem ..)

theorem State.Canonical.setStation {s : State} {c : Nat} {k : Station} (h : s.Canonical) : (s.setStation c k).Canonical :=
  h.of_mem (State.setStation_mem ..)

theorem State.Canonical.modStation {s : State} {c : Nat} {f : Station → Station} (h : s.Canonical) :
    (s.modStation c f).Canonical :=
  h.of_mem (State.modStation_mem ..)

theorem State.Canonical.modDev {s : State} {f : Device → Device} (h : s.Canonical) : (s.modDev f).Canonical :=
  h.of_mem (State.modDev_mem ..)

theorem State.Canonical.emit {s : State} {o : Output} (h : s.Canonical) : (s.emit o).Canonical :=
  h.of_mem (State.emit_mem ..)

theorem State.Canonical.signal {s : State} {vector link : Nat} (h : s.Canonical) : (s.signal vector link).Canonical :=
  h.of_mem (State.signal_mem ..)

theorem State.Canonical.draw {s : State} (h : s.Canonical) : s.draw.2.Canonical := .of_mem h rfl

theorem State.Canonical.countCore {s : State} {c k n : Nat} (h : s.Canonical) : (s.countCore c k n).Canonical :=
  h.of_mem (State.countCore_mem ..)

theorem State.Canonical.countHome {s : State} {hm k n : Nat} (h : s.Canonical) : (s.countHome hm k n).Canonical :=
  h.of_mem (State.countHome_mem ..)

theorem State.Canonical.countStation {s : State} {hm k n : Nat} (h : s.Canonical) : (s.countStation hm k n).Canonical :=
  h.of_mem (State.countStation_mem ..)

theorem State.Canonical.sampleCore {s : State} {c source v : Nat} (h : s.Canonical) : (s.sampleCore c source v).Canonical :=
  h.modCore

theorem State.Canonical.sampleHome {s : State} {hm source v : Nat} (h : s.Canonical) : (s.sampleHome hm source v).Canonical :=
  h.modHome

/-! ### Translation, near slices and messages -/

theorem State.Canonical.waitRaise {s : State} {va : Word} {n : Nat} (h : s.Canonical) : (s.waitRaise va n).Canonical :=
  .ite (.of_mem h rfl) h

theorem State.Canonical.translate {s : State} {t : Nat} {va : Word} (h : s.Canonical) : OkCanonical (translate s t va) :=
  fun _ hr => h.of_mem (translate_mem hr)

theorem State.Canonical.translatePages {s : State} {t : Nat} {va : Word} {k : Nat} (h : s.Canonical) :
    OkCanonical (translatePages s t va k) :=
  fun _ hr => h.of_mem (translatePages_mem hr)

theorem State.Canonical.translateSpan {s : State} {t : Nat} {va : Word} {n : Nat} (h : s.Canonical) :
    OkCanonical (translateSpan s t va n) := h.translatePages

theorem State.Canonical.send {s : State} {src dst : Place} {owner : Owner} {p : Payload} (h : s.Canonical) :
    (s.send src dst owner p).Canonical :=
  h.of_mem (State.send_mem ..)

theorem State.Canonical.sendIn {s : State} {part : Nat} {src dst : Place} {owner : Owner} {p : Payload} (h : s.Canonical) :
    (s.sendIn part src dst owner p).Canonical :=
  h.of_mem (State.sendIn_mem ..)

theorem State.Canonical.dropMsg {s : State} {id : Nat} (h : s.Canonical) : (s.dropMsg id).Canonical :=
  h.of_mem (State.dropMsg_mem ..)

theorem State.Canonical.writeBack {s : State} {c : Nat} {va : Word} {dom : BitVec 16} {clear : Bool} {waiter : Option
    (Nat × Nat)} (h : s.Canonical) :
    (s.writeBack c va dom clear waiter).Canonical := h.modCore.send

theorem State.Canonical.evictLine {s : State} {c : Nat} {l : NearLine} (h : s.Canonical) : (s.evictLine c l).Canonical :=
  (h.foldl (fun _ _ hs => .ite hs.writeBack hs)).modCore

theorem State.Canonical.writeBackAll {s : State} {c : Nat} (h : s.Canonical) : (s.writeBackAll c).Canonical :=
  (h.foldl (fun _ _ hs => hs.writeBack)).modCore

theorem State.Canonical.ensureLine {s : State} {c : Nat} {va : Word} {dom : BitVec 16} (h : s.Canonical) :
    SomeCanonical (s.ensureLine c va dom) := by
  unfold State.ensureLine
  refine .ite h.modCore.someOf (.ite h.modCore.someOf ?_)
  split
  · exact h.evictLine.modCore.someOf
  · exact .ofNone

theorem State.Canonical.dropBytes {s : State} {c : Nat} {va : Word} {dom : BitVec 16} {mask : BitVec 32} (h : s.Canonical) :
    (s.dropBytes c va dom mask).Canonical := h.modCore

theorem State.Canonical.dropSent {s : State} {c : Nat} {va : Word} {me : Owner} {mask : BitVec 32} (h : s.Canonical) :
    (s.dropSent c va me mask).Canonical := .of_mem h rfl

theorem State.Canonical.acquireInv {s : State} {c : Nat} {inScope : Nat → Bool} (h : s.Canonical) :
    (s.acquireInv c inScope).Canonical := h.modCore

theorem State.Canonical.plainStore {s : State} {t opId : Nat} {va : Word} {mask : BitVec 32} {data : BitVec 256}
    {tag : Option Bool} (h : s.Canonical) :
    (s.plainStore t opId va mask data tag).1.Canonical := by
  unfold State.plainStore
  split
  · exact h
  · refine .iteFst h.send.modThread (.iteFst (.modThread (.send (.ite h (.ite h.writeBack h.modCore)))) ?_)
    dsimp only
    split
    · exact .modThread (.send (.countCore (.ite h.writeBack h)))
    · next heq =>
      exact .iteFst (State.Canonical.ensureLine (.ite h.writeBack h) _ heq).modCore.modThread (State.Canonical.ensureLine (.ite
          h.writeBack h) _ heq).modCore.modThread.modThread.send

theorem State.Canonical.plainRun {s : State} {t opId : Nat} {tag : Option Bool} {fuel : Nat} {va : Word} {n v : Nat}
    (h : s.Canonical) : (s.plainRun t opId tag fuel va n v).1.Canonical := by
  induction fuel generalizing s va n v with
  | zero => exact h
  | succ fuel ih =>
    unfold State.plainRun
    exact .iteFst h (ih h.plainStore)

theorem State.Canonical.surrender {s : State} {c : Nat} {va : Word} {dom : BitVec 16} (h : s.Canonical) :
    (s.surrender c va dom).Canonical := .ite h.writeBack h.modCore

theorem State.Canonical.markReleased {s : State} {c : Nat} {me : Owner} (h : s.Canonical) : (s.markReleased c me).Canonical :=
  h.modCore

/-! ### Homes: lines, registrations, buffered stores and pulls -/

theorem State.Canonical.lineWritten {s : State} {loc : Nat} (h : s.Canonical) : (s.lineWritten loc).Canonical :=
  h.of_mem (lineWritten_mem ..)

theorem State.Canonical.dropViews {s : State} {hm : Nat} {va : Word} {n : Nat} (h : s.Canonical) :
    (s.dropViews hm va n).Canonical :=
  h.of_mem (dropViews_mem ..)

theorem State.Canonical.unregister {s : State} {loc : Nat} {me : Owner} (h : s.Canonical) : (s.unregister loc me).Canonical :=
  h.of_mem (unregister_mem ..)

theorem State.Canonical.forget {s : State} {me : Owner} (h : s.Canonical) : (s.forget me).Canonical := .of_mem h rfl

theorem State.Canonical.register {s : State} {loc : Nat} {me : Owner} (h : s.Canonical) : (s.register loc me).1.Canonical :=
  h.of_mem (register_mem ..)

theorem State.Canonical.wakeUp {s : State} {hm : Nat} {r : WaitRec} {v : Word} {acq : Bool} (h : s.Canonical) :
    (s.wakeUp hm r v acq).Canonical :=
  h.of_mem (wakeUp_mem ..)

theorem State.Canonical.serveWaitne {s : State} {loc : Nat} (h : s.Canonical) : (s.serveWaitne loc).Canonical :=
  h.of_mem (serveWaitne_mem ..)

theorem State.Canonical.wroteAt {s : State} {loc n : Nat} (h : s.Canonical) : (s.wroteAt loc n).Canonical :=
  h.of_mem (wroteAt_mem ..)

theorem State.Canonical.wrote {s : State} {va : Word} {loc n : Nat} (h : s.Canonical) : (s.wrote va loc n).Canonical :=
  h.of_mem (wrote_mem ..)

theorem State.Canonical.fillWord {s : State} {va : Word} {loc : Nat} {v : Word} (h : s.Canonical) :
    SomeCanonical (s.fillWord va loc v) :=
  .ite .ofNone (State.Canonical.someOf (.ite (h.store.setFe.wrote.modHome.foldl (fun _ _ hs => hs.wakeUp)).setFe
    (h.store.setFe.wrote.modHome.foldl (fun _ _ hs => hs.wakeUp))))

theorem State.Canonical.addWait {s : State} {hm : Nat} {r : WaitRec} (h : s.Canonical) : SomeCanonical (s.addWait hm r) :=
  .ite h.setHome.someOf (.ite h.setHome.countHome.someOf .ofNone)

theorem State.Canonical.storeMasked {s : State} {loc : Nat} {mask : BitVec 32} {data : BitVec 256} {tags : BitVec 2}
    (h : s.Canonical) :
    (s.storeMasked loc mask data tags).Canonical :=
  memWf_storeMasked _ _ _ _ _ h

theorem State.Canonical.flushBuffer {s : State} {hm sector : Nat} (h : s.Canonical) : (s.flushBuffer hm sector).Canonical :=
  memWf_flushBuffer _ _ _ h

theorem State.Canonical.pullFrom {s : State} {hm sector : Nat} {cores : List Nat} (h : s.Canonical) :
    (s.pullFrom hm sector cores).Canonical :=
  h.of_mem (pullFrom_mem ..)

theorem State.Canonical.startPull {s : State} {hm sector : Nat} (h : s.Canonical) : (s.startPull hm sector).Canonical :=
  h.pullFrom

theorem State.Canonical.forcePull {s : State} {hm : Nat} {b : DirEntry × List Nat} (h : s.Canonical) :
    (s.forcePull hm b).Canonical :=
  h.of_mem (forcePull_mem ..)

theorem State.Canonical.recordRelease {s : State} {hm sector core : Nat} (h : s.Canonical) :
    (s.recordRelease hm sector core).Canonical :=
  h.of_mem (recordRelease_mem ..)

/-! ### Management writes -/

theorem State.Canonical.pmapWrite {s : State} {n : Nat} {v : Word} (h : s.Canonical) : (pmapWrite s n v).Canonical :=
  .ite h h.modDev

theorem State.Canonical.pmfoWrite {s : State} {n : Nat} {v : Word} (h : s.Canonical) : (pmfoWrite s n v).Canonical :=
  .ite h h.modDev

theorem State.Canonical.failQueued {s : State} {n : Nat} (h : s.Canonical) : (s.failQueued n).Canonical := .of_mem h rfl

theorem State.Canonical.arqStore {s : State} {n off : Nat} {v : Word} (h : s.Canonical) : (s.arqStore n off v).Canonical :=
  .modDev (.ite h.failQueued h)

theorem State.Canonical.driveOut {s : State} {n : Nat} {up : Bool} (h : s.Canonical) : (s.driveOut n up).Canonical := by
  unfold State.driveOut
  dsimp only
  split
  · exact .ite h.failQueued.modDev h.modDev
  · exact h.modDev

theorem State.Canonical.setStack {s : State} {k : Nat} {x : Stack} (h : s.Canonical) : (s.setStack k x).Canonical := h.modDev

theorem State.Canonical.mgmtStore {s : State} {off : Nat} {v : Word} (h : s.Canonical) :
    (Machine.mgmtStore s off v).Canonical := by
  unfold Machine.mgmtStore
  dsimp only
  refine .ite h (.ite ?device (.ite h.modDev (.ite ?core (.ite ?station (.ite ?home (.ite ?stack h))))))
  case device =>
    exact .ite h.modDev (.ite h.modDev (.ite h.modDev (.ite h.pmapWrite (.ite h.pmfoWrite (.ite (.ite (.of_mem h rfl) h.modDev)
      (.ite h.modDev (.ite h.modDev (.ite h.arqStore (.ite h.modDev (.ite h.modDev h))))))))))
  case core => exact .ite h.modCore (.ite h.modCore h)
  case station => exact .ite h.setStation (.ite h.setStation (.ite h.setStation h))
  case home => exact .ite h.modHome (.ite h.modHome (.ite h.modHome h))
  case stack => exact .ite h.setStack (.ite h.setStack h)

theorem State.Canonical.mgmtWrite {s : State} {off : Nat} {v : Word} (h : s.Canonical) : (mgmtWrite s off v).Canonical :=
  .ite h.modDev h.mgmtStore.modDev

/-! ### Reads and writes in one go, ends of threads, dump records and traps -/

theorem State.Canonical.eccError {s : State} {hm line i e : Nat} (h : s.Canonical) : (s.eccError hm line i e).Canonical :=
  h.of_mem (eccError_mem ..)

theorem State.Canonical.eccLine {s : State} {hm line : Nat} {ecc : BitVec 8} (h : s.Canonical) :
    (s.eccLine hm line ecc).Canonical :=
  h.of_mem (eccLine_mem ..)

theorem State.Canonical.fillLine {s : State} {x : LineKey} {ecc : BitVec 8} (h : s.Canonical) : (s.fillLine x ecc).Canonical :=
  h.of_mem (fillLine_mem ..)

theorem State.Canonical.needLine {s : State} {loc : Nat} {write : Bool} (h : s.Canonical) : (s.needLine loc write).Canonical :=
  h.of_mem (needLine_mem ..)

theorem State.Canonical.unregisterAll {s : State} {me : Owner} {gone : Nat → Nat → Bool} (h : s.Canonical) :
    (s.unregisterAll me gone).Canonical := .of_mem h rfl

theorem State.Canonical.settleRegs {s : State} {t : Nat} {th : Thread} (h : s.Canonical) : (s.settleRegs t th).Canonical :=
  h.unregisterAll

theorem State.Canonical.settleCore {s : State} {c : Nat} (h : s.Canonical) : (s.settleCore c).Canonical :=
  h.of_mem (settleCore_mem ..)

theorem State.Canonical.wbackAt {s : State} {core : Nat} {va : Word} {mask : BitVec 32} {data : BitVec 256} {tags : BitVec 2}
    {owner : Owner} {clear : Bool} (h : s.Canonical) :
    (s.wbackAt core va mask data tags owner clear).Canonical :=
  memWf_wbackAt _ _ _ _ _ _ _ _ h

theorem State.Canonical.landSent {s : State} {hit : Nat → Owner → Bool → Bool} (h : s.Canonical) : (s.landSent hit).Canonical :=
  memWf_landSent _ _ h

theorem State.Canonical.landHeld {s : State} {c : Nat} {va : Word} {dom : BitVec 16} {clear : Bool} (h : s.Canonical) :
    (s.landHeld c va dom clear).Canonical :=
  memWf_landHeld _ _ _ _ _ h

theorem State.Canonical.pullCore {s : State} {c : Nat} (h : s.Canonical) : (s.pullCore c).Canonical :=
  memWf_pullCore _ _ h

theorem State.Canonical.spill {s : State} {t : Nat} {th : Thread} (h : s.Canonical) : (s.spill t th).Canonical :=
  h.landSent.settleRegs.foldl (fun _ _ hs => hs.landHeld)

theorem State.Canonical.pullNow {s : State} {hm sector : Nat} (h : s.Canonical) : (s.pullNow hm sector).Canonical :=
  memWf_pullNow _ _ _ h

theorem State.Canonical.homeRead {s : State} {loc : Nat} (h : s.Canonical) : (s.homeRead loc).Canonical :=
  memWf_homeRead _ _ h

theorem State.Canonical.pullSpan {s : State} {c : Nat} {va : Word} {n : Nat} (h : s.Canonical) :
    (s.pullSpan c va n).Canonical := by
  unfold State.pullSpan
  refine h.waitRaise.foldl (fun s1 x1 hs => ?_)
  split
  · exact hs.homeRead
  · exact hs

theorem State.Canonical.readPhys {s : State} {loc n : Nat} (h : s.Canonical) : (s.readPhys loc n).Canonical :=
  memWf_readPhys _ _ _ h

theorem State.Canonical.walkReads {s : State} {va table : Nat} {l : List (Nat × Nat × Nat)} (h : s.Canonical) :
    (s.walkReads va table l).Canonical := by
  induction l generalizing s table with
  | nil => exact h
  | cons x rest ih =>
    unfold State.walkReads
    exact .ite (ih h.readPhys) h.readPhys

theorem State.Canonical.walkNow {s : State} {va : Nat} (h : s.Canonical) : (s.walkNow va).Canonical := h.walkReads

theorem State.Canonical.walkPages {s : State} {pages : List Nat} (h : s.Canonical) : (s.walkPages pages).Canonical :=
  h.foldl (fun _ _ hs => hs.walkNow)

theorem State.Canonical.leaseRead {s : State} {dom : BitVec 16} (h : s.Canonical) : (s.leaseRead dom).Canonical :=
  memWf_leaseRead _ _ h

theorem State.Canonical.writeSector {s : State} {t : Nat} {va : Word} {g0 g1 : Val} (h : s.Canonical) :
    OkCanonical (writeSector s t va g0 g1) := by
  unfold Machine.writeSector
  split
  · exact .ofError
  · dsimp only
    split
    · exact .ofError
    · split
      · exact .ofError
      · refine .ite ?_ (State.Canonical.okOf (.of_mem (.modThread (.wrote (.storeMasked (.flushBuffer (.needLine (.waitRaise
          (.dropSent (.ite h h.dropBytes)))))))) rfl))
        split
        · exact .ofError
        · exact State.Canonical.okOf (.modThread (.register (.modThread (.wrote (.storeMasked (.flushBuffer (.needLine (.waitRaise
            (.dropSent (.ite h h.dropBytes))))))))))
        · exact State.Canonical.okOf (.modThread (.register (.modThread (.wrote (.storeMasked (.flushBuffer (.needLine (.waitRaise
            (.dropSent (.ite h h.dropBytes))))))))))

theorem State.Canonical.writeGranules {s : State} {t : Nat} {va : Word} {l : List Val} (h : s.Canonical) :
    OkCanonical (Machine.writeGranules s t va l) := by
  induction l using List.twoStepInduction generalizing s va with
  | nil => exact h.okOf
  | singleton a => exact h.writeSector
  | cons_cons a b rest ih =>
    unfold Machine.writeGranules
    split
    · exact .ofError
    · next heq => exact ih (h.writeSector _ heq)

theorem State.Canonical.rawGranules {s : State} {loc : Nat} {l : List Val} (h : s.Canonical) :
    (s.rawGranules loc l).Canonical :=
  memWf_rawGranules _ _ _ h

theorem State.Canonical.putGranules {s : State} {loc : Nat} {l : List Val} (h : s.Canonical) : (s.putGranules loc l).Canonical :=
  memWf_putGranules _ _ _ h

theorem State.Canonical.pinPage {s : State} {up : Bool} {page : Nat} (h : s.Canonical) : (s.pinPage up page).Canonical := by
  unfold State.pinPage
  split
  · exact h
  · exact h.modHome

theorem State.Canonical.pinRanges {s : State} {up : Bool} {ranges : List Quad} (h : s.Canonical) :
    (s.pinRanges up ranges).Canonical := h.walkPages.foldl (fun _ _ hs => hs.pinPage)

theorem State.Canonical.zeroSpans {s : State} {c : Nat} {ranges : List Quad} (h : s.Canonical) :
    (s.zeroSpans c ranges).Canonical := h.foldl (fun _ _ hs => hs.zeroRange)

theorem State.Canonical.zeroLanes {s : State} {c : Nat} {units : List Nat} (h : s.Canonical) : (s.zeroLanes c units).Canonical :=
  h.foldl (fun _ _ hs => hs.foldl (fun _ _ hs1 => hs1.zeroRange))

theorem State.Canonical.dropPlb {s : State} {t : Nat} (h : s.Canonical) : (s.dropPlb t).Canonical := h.modCore

theorem State.Canonical.servePhase {s : State} {hm loc gen : Nat} (h : s.Canonical) : (s.servePhase hm loc gen).Canonical :=
  h.modHome.foldl (fun _ _ hs => hs.wakeUp)

theorem State.Canonical.groupTest {s : State} {va : Word} {loc : Nat} (h : s.Canonical) : (s.groupTest va loc).Canonical :=
  .ite h.store.store.wrote.servePhase h

theorem State.Canonical.groupLeave {s : State} {va : Word} {loc : Nat} (h : s.Canonical) : (s.groupLeave va loc).1.Canonical :=
  .iteFst h h.store.wrote.groupTest

theorem State.Canonical.clearOwners {s : State} {c : Nat} {me : Owner} (h : s.Canonical) : (s.clearOwners c me).Canonical :=
  h.of_mem (State.clearOwners_mem ..)

theorem State.Canonical.push {s : State} {c : Nat} {me : Owner} {dom : BitVec 16} {d : Opn} {v : Val} (h : s.Canonical) :
    (s.push c me dom d v).Canonical :=
  h.of_mem (push_mem ..)

theorem State.Canonical.startOp {s : State} {t : Nat} {o : Op} {la : Nat} (h : s.Canonical) : (s.startOp t o la).Canonical :=
  h.of_mem (startOp_mem ..)

theorem State.Canonical.putNow {s : State} {t : Nat} {d : Opn} {v : Val} (h : s.Canonical) : (s.putNow t d v).Canonical :=
  h.of_mem (putNow_mem ..)

theorem State.Canonical.putDest {s : State} {t : Nat} {d : Opn} {v : Val} (h : s.Canonical) : (s.putDest t d v).Canonical :=
  h.of_mem (putDest_mem ..)

theorem State.Canonical.dump {s : State} {dom : BitVec 16} {owner : Owner} {kind core : Nat} {causes : List Cause}
    {context : List Val} (h : s.Canonical) :
    (s.dump dom owner kind core causes context).1.Canonical :=
  memWf_dump _ _ _ _ _ _ _ h

theorem State.Canonical.causeRecord {s : State} {dom : BitVec 16} {owner : Owner} {core : Nat} {c : Cause} (h : s.Canonical) :
    (s.causeRecord dom owner core c).Canonical := h.dump

theorem State.Canonical.flushThread {s : State} {t : Nat} {th : Thread} (h : s.Canonical) : (s.flushThread t th).Canonical :=
  (h.landSent.foldl (fun _ _ hs => hs.landHeld)).forget

theorem State.Canonical.completionRecord {s : State} {t : Nat} {th : Thread} {status : BitVec 8} (h : s.Canonical) :
    (s.completionRecord t th status).Canonical := by
  unfold State.completionRecord
  refine .ite ?_ h
  dsimp only
  split
  · exact .signal (.ite h h.emit)
  · exact .ite h h.emit

theorem State.Canonical.dropWaits {s : State} {w : Waiter} (h : s.Canonical) : (s.dropWaits w).Canonical := .of_mem h rfl

theorem State.Canonical.endLeave {s : State} {t : Nat} {th : Thread} {pc : Word} (h : s.Canonical) :
    (s.endLeave t th pc).Canonical := by
  unfold State.endLeave
  refine .ite h (.ite h.causeRecord ?_)
  dsimp only
  split
  · exact h.pullSpan.causeRecord
  · split
    · exact h.pullSpan.causeRecord
    · exact h.pullSpan.flushBuffer.groupLeave

/-- What the end of a thread settles once its group and its tiles are left. -/
theorem State.Canonical.endSettled {s : State} {t c : Nat} {th : Thread} {status : BitVec 8} {f : Core → Core} {lanes : List Nat}
    {w : Waiter} (h : s.Canonical) :
    (((((s.completionRecord t th status).modCore c f).zeroLanes c lanes).dropPlb t).dropWaits w).Canonical :=
  h.completionRecord.modCore.zeroLanes.dropPlb.dropWaits

theorem State.Canonical.endThread {s : State} {t : Nat} {status : BitVec 8} {pc : Word} (h : s.Canonical) :
    (s.endThread t status pc).Canonical := by
  unfold State.endThread
  split
  · exact h
  · next th heq =>
    have hl {f : Core → Core} : ((s.endLeave t th pc).modCore (tcore t) f).Canonical := h.endLeave.modCore
    refine .dropThread (.ite ?_ (.zeroSpans (.endSettled (.ite hl hl.pinRanges))))
    dsimp only
    split
    · exact .ite (.ite (.zeroSpans (.modCore (.endSettled (.ite hl hl.pinRanges)))) (.modCore (.endSettled (.ite hl hl.pinRanges))))
        (.zeroSpans (.endSettled (.ite hl hl.pinRanges)))
    · exact .zeroSpans (.endSettled (.ite hl hl.pinRanges))

theorem State.Canonical.modTile {s : State} {c i : Nat} {f : Tile → Tile} (h : s.Canonical) : (s.modTile c i f).Canonical :=
  h.modCore

theorem State.Canonical.claimTile {s : State} {t : Nat} {th : Thread} {i : Nat} (h : s.Canonical) :
    (s.claimTile t th i).1.Canonical := .ite h.modTile h

theorem State.Canonical.queueClaim {s : State} {t : Nat} {th : Thread} {i : Nat} (h : s.Canonical) :
    (s.queueClaim t th i).Canonical := .ite h h.claimTile.modCore

theorem State.Canonical.startTrap {s : State} {t : Nat} {code : Option Code} {cause : Word} {held : List Entry} {fpc next : Word}
    {again fatal : Bool} (h : s.Canonical) :
    (s.startTrap t code cause held fpc next again fatal).Canonical := by
  unfold State.startTrap
  split
  · exact h
  · exact .setThread (.ite h.modCore h)

theorem State.Canonical.writeFrame {s : State} {t : Nat} {p : TrapPlan} (h : s.Canonical) : OkCanonical (writeFrame s t p) := by
  unfold Machine.writeFrame
  refine .ite .ofError ?_
  split
  · exact .ofError
  · split
    · exact .ofError
    · next heq => exact (h.writeGranules _ heq).okOf

theorem State.Canonical.fatalEnd {s : State} {t : Nat} {p : TrapPlan} {chain : List Cause} (h : s.Canonical) :
    (s.fatalEnd t p chain).Canonical := h.setThread.dump.flushThread.endThread

theorem State.Canonical.failDrain {s : State} {t : Nat} {th : Thread} {code : Code} {pc addr : Word} (h : s.Canonical) :
    (s.failDrain t th code pc addr).Canonical := by
  unfold State.failDrain
  refine .dropThread (.dropPlb (.flushThread (.dump ?_)))
  split
  · exact h.modCore
  · exact h

theorem State.Canonical.sampleLoads {s : State} {t : Nat} {ops : List Op} (h : s.Canonical) :
    (s.sampleLoads t ops).Canonical := by
  unfold State.sampleLoads
  refine h.foldl (fun s1 x1 hs => ?_)
  split
  · exact .ite hs.sampleCore hs
  · exact hs

theorem State.Canonical.enterTrap {s : State} {t : Nat} (h : s.Canonical) : (s.enterTrap t).Canonical := by
  unfold State.enterTrap
  split
  · exact h
  · split
    · refine .ite h.sampleLoads.setThread.failDrain ?_
      split
      · exact h.sampleLoads.setThread.fatalEnd
      · refine .ite h.sampleLoads.setThread.fatalEnd ?_
        dsimp only
        split
        · exact h.sampleLoads.setThread.leaseRead.fatalEnd
        · split
          · exact h.sampleLoads.setThread.leaseRead.fatalEnd
          · exact h.sampleLoads.setThread.leaseRead.fatalEnd
          · next heq => exact (h.sampleLoads.setThread.leaseRead.writeFrame _ heq).modThread
    · exact h

theorem State.Canonical.trapNow {s : State} {t : Nat} (h : s.Canonical) : (s.trapNow t).Canonical := by
  unfold State.trapNow
  split
  · exact .ite h.enterTrap h
  · exact h

theorem State.Canonical.faultUnit {s : State} {t : Nat} {th : Thread} {code : Code} {cause : Word} (h : s.Canonical) :
    (s.faultUnit t th code cause).Canonical := h.setThread.startTrap.trapNow

theorem State.Canonical.softTrap {s : State} {t : Nat} {again : Bool} {code : Code} {imm : Word} (h : s.Canonical) :
    (s.softTrap t again code imm).Canonical := h.startTrap.trapNow

theorem State.Canonical.flushEntry {s : State} {t : Nat} {e : Entry} (h : s.Canonical) : (s.flushEntry t e).Canonical :=
  .ite (h.modThread.foldl (fun _ _ hs => hs.putNow)) h.modThread

theorem State.Canonical.flushEntries {s : State} {t fuel : Nat} (h : s.Canonical) : (s.flushEntries t fuel).Canonical := by
  induction fuel generalizing s with
  | zero => exact h
  | succ fuel ih =>
    unfold State.flushEntries
    split
    · exact h
    · split
      · exact .ite h (.ite (ih h.setThread.flushEntry) (.ite (ih h.setThread.flushEntry) h))
      · exact h

theorem State.Canonical.returnFromTrap {s : State} {t : Nat} {th : Thread} {v : Val} (h : s.Canonical) :
    OkCanonical (s.returnFromTrap t th v) := by
  unfold State.returnFromTrap
  dsimp only
  split
  · exact .ofError
  · refine .ite .ofError ?_
    split
    · exact .ofError
    · split
      · exact .ofError
      · split
        · exact .ofError
        · exact .ite .ofError h.pullSpan.pullSpan.setThread.flushEntries.okOf

end Sys2Proof.Machine
end

section
/-!
Storage keeps its canonical form through the issue of a unit, what is performed at homes, engines, matrix operations, ready sets and
tables.
-/

namespace Sys2Proof.Machine

/-! ### The issue of a unit -/

theorem State.Canonical.pop {s : State} {c : Nat} {dom : BitVec 16} {x : Opn} (h : s.Canonical) :
    (s.pop c dom x).2.Canonical := by
  unfold State.pop
  split
  · exact h.setCore
  · exact h.setCore
  · exact h

theorem State.Canonical.purge {s : State} {c : Nat} {dom : BitVec 16} {f : Fields} (h : s.Canonical) :
    (s.purge c dom f).Canonical := h.foldl (fun _ _ hs => .ite hs.pop hs)

theorem State.Canonical.readField {s : State} {t : Nat} {th : Thread} {f : Field} (h : s.Canonical) :
    (readField s t th f).2.Canonical := by
  unfold Machine.readField
  refine .iteSnd h.pop ?_
  split
  · exact h
  · exact h
  · exact h
  · exact h
  · exact h
  · exact h
  · exact h

theorem State.Canonical.readVals {s : State} {t : Nat} {th : Thread} {i : Instr} {f : Fields} (h : s.Canonical) :
    (readVals s t th i f).2.Canonical := h.readField.readField.readField.readField.readField

theorem State.Canonical.depart {s : State} {t : Nat} {th : Thread} {hm : Nat} (h : s.Canonical) : (s.depart t th hm).Canonical :=
  h.spill.dropPlb.dropThread.sendIn

theorem State.Canonical.stopUnit {s : State} {t : Nat} {th : Thread} {i : Instr} {stop : Stop} (h : s.Canonical) :
    (s.stopUnit t th i stop).Canonical := by
  unfold State.stopUnit
  split
  · exact h.faultUnit
  · exact h.setThread.countCore
  · exact h.setThread
  · refine .setThread ?_
    split
    · exact .countCore (.ite h.purge h)
    · exact .queueClaim (.ite h.purge h)
    · exact .ite h.purge h
  · exact h.depart

theorem State.Canonical.begin {s : State} {t : Nat} {th : Thread} {i : Instr} (h : s.Canonical) :
    (s.begin t th i).2.Canonical := by
  have h0 : State.Canonical { s with issuing := false } := .of_mem h rfl
  unfold State.begin
  refine .countCore (.setThread ?_)
  split
  · exact h0
  · exact h0.readVals

theorem State.Canonical.skip {s : State} {t : Nat} {th : Thread} (h : s.Canonical) : (s.skip t th).Canonical := by
  unfold State.skip
  exact .countCore (.setThread (.of_mem h rfl))

/-- The issue of an instruction whose effect keeps storage canonical. -/
theorem State.Canonical.issueBy {s : State} {t : Nat} {th : Thread} {i : Instr} {eff : Effect} (h : s.Canonical)
    (heff : EffectCanonical eff) : (s.issueBy t th i eff).Canonical := by
  have h0 : State.Canonical { s with issuing := false } := .of_mem h rfl
  unfold State.issueBy
  dsimp only
  split
  · exact h0.stopUnit
  · refine .ite h.skip ?_
    split
    · next heq => exact heff _ _ _ h.begin _ heq
    · exact h0.stopUnit

theorem State.Canonical.issue {s : State} {i : Instr} {eff : Effect} (h : s.Canonical) (heff : EffectCanonical eff) :
    NextCanonical (Machine.issue i s eff) := by
  unfold Machine.issue
  split
  · exact .ofRefused
  · exact (h.issueBy heff).nextOf

theorem State.Canonical.deferResult {s : State} {t : Nat} {dests : List Opn} {vs : List Val} {fl : Flags} {la : BitVec 4}
    (h : s.Canonical) :
    (s.deferResult t dests vs fl la).Canonical :=
  h.of_mem (deferResult_mem ..)

theorem State.Canonical.finish {t : Nat} {d : Opn} {v : Val} {s : State} (h : s.Canonical) : OkCanonical (finish t d v s) :=
  h.putDest.okOf

theorem State.Canonical.raise {s : State} {t : Nat} {f : Flags} (h : s.Canonical) : (s.raise t f).Canonical := h.modThread

/-! ### Flags -/

theorem State.Canonical.abandonTrap : OkCanonical abandonTrap := .ofError

theorem State.Canonical.settleFloat {s : State} {t : Nat} {f : Flags} {g : Prng} (h : s.Canonical) :
    (s.settleFloat t f g).Canonical := h.modThread

/-! ### The integer family -/

theorem EffectCanonical.intEffect {o : IntOps} {sx : Bool} {f : Word → Word → Word} : EffectCanonical (intEffect o sx f) :=
  fun _ _ _ hs => hs.finish

theorem EffectCanonical.divEffect {o : IntOps} {sx : Bool} {f : Word → Word → Word} : EffectCanonical (divEffect o sx f) :=
  fun _ _ _ hs => hs.deferResult.okOf

theorem EffectCanonical.unEffect {o : UnOps} {f : Word → Word} : EffectCanonical (unEffect o f) := fun _ _ _ hs => hs.finish

/-! ### Packed groups -/

theorem State.Canonical.putGroup {s : State} {d : Opn} {n bits : Nat} (h : s.Canonical) : (s.putGroup d n bits).Canonical :=
  h.of_mem (putGroup_mem ..)

theorem State.Canonical.packedResult {p : Pfx} {t : BitVec 6} {w : Nat} {scan : List Nat} {fs : List ElemFn} {d : Opn} {n : Nat}
    {th : Thread} {s : State} (h : s.Canonical) :
    OkCanonical (packedResult p t w scan fs d n th s) := .ite State.Canonical.abandonTrap h.putGroup.settleFloat.okOf

theorem EffectCanonical.arithEffect {i : Instr} {fn : ArithFn} {k : Pk} {b : Opn} {bs : Bool} :
    EffectCanonical (arithEffect i fn k b bs) := fun _ _ _ hs => hs.packedResult

theorem EffectCanonical.signEffect {i : Instr} {neg : Bool} {k : Pk} : EffectCanonical (signEffect i neg k) :=
  fun _ _ _ hs => hs.packedResult

theorem EffectCanonical.bitsEffect {k : Pk} {b : Opn} {bs : Bool} {f : Nat → Nat → Nat} : EffectCanonical (bitsEffect k b bs f) :=
  fun _ _ _ hs => hs.putGroup.okOf

theorem EffectCanonical.shiftEffect {i : Instr} {right : Bool} {k : Pk} {b : SrcB} : EffectCanonical (shiftEffect i right k b) :=
  fun _ _ _ hs => hs.putGroup.okOf

theorem EffectCanonical.stepwiseEffect {k : Pk} {la : BitVec 4} {f : Nat → Nat × Flags} :
    EffectCanonical (stepwiseEffect k la f) := fun _ _ _ hs => .ite State.Canonical.abandonTrap hs.deferResult.okOf

/-! ### Curve codes -/

theorem EffectCanonical.curveEffect {d : Opn} {codes : Vals → List Quad} {k : Vals → Except Code Quad} :
    EffectCanonical (curveEffect d codes k) := by
  unfold Machine.curveEffect
  refine fun v _ s hs => ?_
  dsimp only
  split
  · exact .ofError
  · split
    · exact hs.finish
    · exact .ofError

/-! ### Mark cells -/

theorem State.Canonical.modMark {s : State} {dom : Nat} {f : MarkDomain → MarkDomain} (h : s.Canonical) :
    (s.modMark dom f).Canonical := h.modDev

theorem State.Canonical.putCell {s : State} {va : Word} {loc w : Nat} (h : s.Canonical) : (s.putCell va loc w).Canonical :=
  memWf_putCell _ _ _ _ h

theorem State.Canonical.updateCell {s : State} {hm dom c : Nat} {f : Nat → Nat} (h : s.Canonical) :
    (s.updateCell hm dom c f).1.Canonical := by
  unfold State.updateCell
  dsimp only
  split
  · exact h
  · exact h.homeRead.needLine.putCell

theorem State.Canonical.updateCells {s : State} {hm dom : Nat} {cs : List Nat} (h : s.Canonical) :
    (s.updateCells hm dom cs).1.Canonical := by
  induction cs generalizing s with
  | nil => exact h
  | cons c rest ih => exact ih h.updateCell

/-! ### Accesses performed at their homes -/

theorem State.Canonical.noteAwaited {s : State} {hm : Nat} {m : Msg} (h : s.Canonical) : SomeCanonical (s.noteAwaited hm m) := by
  unfold State.noteAwaited
  split
  · exact .ite h.recordRelease.modThread.someOf .ofNone
  · exact .ofNone

theorem State.Canonical.flushAll {s : State} {c : Nat} {vas : List Word} (h : s.Canonical) : (s.flushAll c vas).Canonical := by
  unfold State.flushAll
  refine h.foldl (fun s1 x1 hs => ?_)
  split
  · exact hs.flushBuffer
  · exact hs

theorem State.Canonical.installClean {s : State} {c : Nat} {va : Word} {dom : BitVec 16} {bytes : Nat} {tags : BitVec 2}
    (h : s.Canonical) :
    (s.installClean c va dom bytes tags).Canonical := .ite h h.modCore

theorem State.Canonical.putTopk {s : State} {loc : Nat} {l : List (Nat × Nat)} (h : s.Canonical) : (s.putTopk loc l).Canonical :=
  h.foldl (fun _ _ hs => hs.store.store)

theorem State.Canonical.topkInsert {s : State} {c : Nat} {me : Owner} {va : Word} {loc : Nat} {top : Int} {sc id : BitVec 32}
    (h : s.Canonical) :
    (s.topkInsert c me va loc top sc id).1.Canonical := by
  unfold State.topkInsert
  refine .iteFst h (.iteFst h (.iteFst h ?_))
  split
  · exact h
  · exact .iteFst h h.flushAll.putTopk.store.store.wrote

theorem State.Canonical.portAccess {s : State} {o : Op} (h : s.Canonical) : (s.portAccess o).1.Canonical := by
  have h1 : State.Canonical { s with draws := s.draws + 1 } := .of_mem h rfl
  unfold State.portAccess
  refine .iteFst (.iteFst ?_ ?_) (.iteFst h (.iteFst h1 (.iteFst h1 ?_)))
  · split
    · exact .ite h.mgmtWrite h
    · exact h
  · split
    · exact h.emit
    · exact h1
  · split
    · exact h1.emit
    · exact h1

theorem State.Canonical.noteRelease {s : State} {rel : Bool} {loc core : Nat} (h : s.Canonical) :
    (s.noteRelease rel loc core).Canonical :=
  h.of_mem (noteRelease_mem ..)

theorem State.Canonical.leaveWait {s : State} {hm loc : Nat} {kind : WaitKind} {t : Nat} {o : Op} (h : s.Canonical) :
    (s.leaveWait hm loc kind t o).1.Canonical := by
  unfold State.leaveWait
  split
  · next heq => exact h.addWait _ heq
  · exact h.countHome

theorem State.Canonical.groupAct {s : State} {hm t : Nat} {th : Thread} {o : Op} {loc : Nat} (h : s.Canonical) :
    (s.groupAct hm t th o loc).1.Canonical := by
  unfold State.groupAct
  dsimp only
  split
  · exact .iteFst h (.iteFst h h.store.wrote.modThread)
  · exact .iteFst h h.groupLeave.modThread
  · refine .iteFst h.store.store.wrote.servePhase ?_
    split
    · next heq => exact (h.addWait _ heq).store.wrote
    · exact h.countHome

theorem State.Canonical.markAct {s : State} {hm t : Nat} {o : Op} (h : s.Canonical) : (s.markAct hm t o).1.Canonical := by
  unfold State.markAct
  dsimp only
  split
  · exact .iteFst h (.iteFst h h.updateCell.sampleHome)
  · exact .iteFst h (.iteFst h h.updateCell)
  · exact .iteFst h (.iteFst h h.updateCell)
  · refine .iteFst h ?_
    split
    · exact h
    · exact h.updateCells.modThread
  · refine .iteFst h ?_
    split
    · exact h
    · exact h.updateCells.modThread
  · exact h

theorem State.Canonical.prefetch {s : State} {c : Nat} {dom : BitVec 16} {home : Bool} {va : Word} (h : s.Canonical) :
    (s.prefetch c dom home va).Canonical := by
  unfold State.prefetch
  refine .ite h ?_
  dsimp only
  split
  · exact h.flushAll
  · next heq =>
    refine (h.flushAll.ensureLine _ heq).foldl (fun s1 x1 hs => ?_)
    split
    · exact hs.installClean
    · exact hs

theorem State.Canonical.dropOthers {s : State} {t : Nat} {va : Word} {mask : BitVec 32} (h : s.Canonical) :
    (s.dropOthers t va mask).Canonical := by
  unfold State.dropOthers
  split
  · exact .ite h.dropBytes h
  · exact h

theorem State.Canonical.dropSpan {s : State} {t : Nat} {va : Word} {n : Nat} (h : s.Canonical) : (s.dropSpan t va n).Canonical :=
  h.of_mem (dropSpan_mem ..)

theorem State.Canonical.perform {s : State} {hm t : Nat} {th : Thread} {o : Op} (h : s.Canonical) :
    (s.perform hm t th o).1.Canonical := by
  unfold State.perform
  dsimp only
  refine .iteFst h.portAccess ?_
  split
  case h_1 => exact h.markAct
  case h_2 => exact h.markAct
  case h_3 => exact h.markAct
  case h_4 => exact h.markAct
  case h_5 => exact h.markAct
  case h_6 => exact h.prefetch
  case h_7 =>
    split
    · exact h
    · exact h
    · exact h.flushAll.installClean
  case h_8 =>
    have hs : (if o.act.readsWords || o.act.fills then s.flushAll (tcore t) (sectorsOf o.va o.act.span) else s).Canonical :=
      .ite h.flushAll h
    generalize opCheck s (tcore t) (th.owner t) o.va o.act.span = r
    cases r with
    | error f =>
      dsimp only
      exact h
    | ok loc =>
      dsimp only
      generalize (if o.act.readsWords || o.act.fills then s.flushAll (tcore t) (sectorsOf o.va o.act.span) else s) = s1 at hs ⊢
      generalize o.act = a
      cases a
      case loadCap keep => exact hs.installClean
      case storeRel n v => exact hs.dropOthers.noteRelease.modHome
      case amo fn n v ord => exact hs.dropSpan.store.wrote.noteRelease
      case cas n old new ord => exact .noteRelease (.ite hs.dropSpan.store.wrote hs.dropSpan)
      case wld take => exact .iteFst (.ite hs.setFe hs) hs.leaveWait
      case fill v =>
        dsimp only
        split
        · next heq => exact (hs.fillWord _ heq).dropOthers.noteRelease
        · exact hs
      case empty => exact hs.setFe
      case waitne cmp => exact .iteFst hs hs.leaveWait
      case topkins sc id => exact hs.dropSpan.topkInsert
      case join => exact hs.dropSpan.groupAct
      case leave => exact hs.dropSpan.groupAct
      case gbar => exact hs.dropSpan.groupAct
      all_goals exact hs

theorem State.Canonical.opStep {s : State} {t op : Nat} {vs : List Val} (h : s.Canonical) : (s.opStep t op vs).Canonical :=
  h.modThread

theorem State.Canonical.refuseOp {s : State} {t op : Nat} {c : Code} {a : Word} (h : s.Canonical) :
    (s.refuseOp t op c a).Canonical := by
  unfold State.refuseOp
  split
  · refine .modThread ?_
    split
    · exact h.modCore
    · exact h
  · exact h

theorem State.Canonical.takeReply {s : State} {t op : Nat} {r : Reply} (h : s.Canonical) : (s.takeReply t op r).Canonical := by
  unfold State.takeReply
  split
  · exact h.opStep
  · exact h.refuseOp
  · exact h.modThread
  · exact h.modThread

theorem State.Canonical.performWriteAlone {s : State} {m : Msg} {t : Nat} {va : Word} {mask : BitVec 32} {data : BitVec 256}
    {tag : Option Bool} {hm loc : Nat} (h : s.Canonical) :
    (State.performWrite.alone s m t va mask data tag hm loc).1.Canonical := by
  have hw : ((((s.dropOthers t va mask).flushBuffer hm (loc / 32)).storeMasked loc mask data (mergeTags mask 0 tag)).wrote va loc
      32).Canonical := h.dropOthers.flushBuffer.storeMasked.wrote
  unfold State.performWrite.alone
  exact .iteFst (.iteFst hw (.modThread (.register hw))) (.of_mem hw rfl)

theorem State.Canonical.performWrite {s : State} {m : Msg} {t : Nat} {va : Word} {mask : BitVec 32} {data : BitVec 256}
    {tag : Option Bool} (h : s.Canonical) : (s.performWrite m t va mask data tag).1.Canonical := by
  unfold State.performWrite
  split
  · exact h
  · dsimp only
    split
    · exact h
    · split
      · exact .iteFst h.modHome h.performWriteAlone
      · exact h.performWriteAlone

/-! ### Engines -/

theorem State.Canonical.modEng {s : State} {c : Nat} {id : BitVec 16} {f : EngOp → EngOp} (h : s.Canonical) :
    (s.modEng c id f).Canonical := h.modCore

theorem State.Canonical.acceptEngine {s : State} {c : Nat} {e : EngOp} (h : s.Canonical) : (s.acceptEngine c e).1.Canonical :=
  h.modCore

theorem State.Canonical.nextElement {s : State} {c : Nat} {e : EngOp} (h : s.Canonical) : (s.nextElement c e).Canonical :=
  .ite h.send h

theorem State.Canonical.failEng {s : State} {c : Nat} {id : BitVec 16} {code : Code} (h : s.Canonical) :
    (s.failEng c id code).Canonical := h.modEng

theorem State.Canonical.elementRead {s : State} {c : Nat} {id : BitVec 16} {va : Word} (h : s.Canonical) :
    (s.elementRead c id va).Canonical := by
  unfold State.elementRead
  split
  · exact h
  · dsimp only
    split
    · exact h.failEng
    · exact h.failEng
    · exact h.flushAll.send

theorem State.Canonical.payloadWrite {s : State} {c : Nat} {id : BitVec 16} {va : Word} {n v : Nat} (h : s.Canonical) :
    (s.payloadWrite c id va n v).1.Canonical := by
  unfold State.payloadWrite
  dsimp only
  split
  · exact h
  · split
    · exact h
    · exact .ite h.flushBuffer.storeMasked.wrote.register (.of_mem h.flushBuffer.storeMasked.wrote rfl)

theorem State.Canonical.elementWrite {s : State} {c : Nat} {id : BitVec 16} {va : Word} {v : Nat} (h : s.Canonical) :
    (s.elementWrite c id va v).Canonical := by
  unfold State.elementWrite
  split
  · exact h
  · dsimp only
    split
    · exact h.payloadWrite.failEng
    · exact h.payloadWrite.modEng.nextElement

theorem State.Canonical.driveFail {s : State} {n : Nat} {dword : BitVec 32} (h : s.Canonical) : (s.driveFail n dword).Canonical :=
  h.modDev

theorem State.Canonical.putPiece {s : State} {va : Word} {bytes : List Byte} (h : s.Canonical) :
    (s.putPiece va bytes).Canonical := by
  unfold State.putPiece
  split
  · exact h.flushBuffer.storeMasked.wrote
  · exact h

theorem State.Canonical.putSpan {s : State} {va : Word} {bytes : List Byte} (h : s.Canonical) :
    (s.putSpan va bytes).Canonical := by
  unfold State.putSpan
  refine h.foldl (fun s1 x1 hs => .putPiece ?_)
  split
  · exact hs.needLine
  · exact hs

theorem State.Canonical.sendCommand {s : State} {c : Nat} {e : EngOp} {first count progress : Nat} (h : s.Canonical) :
    (s.sendCommand c e first count progress).Canonical :=
  .ite h.failEng (.emit (.driveOut (.modEng (.modDev (.putSpan (.ite h h.putSpan))))))

theorem State.Canonical.folioFor {s : State} {c : Nat} {e : EngOp} (h : s.Canonical) : (s.folioFor c e).1.Canonical := by
  unfold State.folioFor
  generalize e.kind = k
  cases k with
  | arcout =>
    dsimp only
    have hs := h.pullSpan (c := c) (va := capCursor e.a.bits) (n := 2 ^ 18)
    generalize s.pullSpan c (capCursor e.a.bits) (2 ^ 18) = s1 at hs
    generalize pageCheck s1 c (engineOwner c e.id) (capCursor e.a.bits) = f
    cases f with
    | none =>
      dsimp only
      generalize List.map _ _ = l
      exact hs.flushAll
    | some f => exact hs
  | _ => exact h

theorem State.Canonical.submit {s : State} {c : Nat} {e : EngOp} (h : s.Canonical) : SomeCanonical (s.submit c e) := by
  unfold State.submit
  split
  · exact h.failEng.someOf
  · refine .ite .ofNone ?_
    dsimp only
    split
    · exact h.folioFor.failEng.someOf
    · exact .map (fun _ => .sendCommand (.ite h.folioFor h.folioFor.putSpan))

theorem State.Canonical.submitRest {s : State} {c : Nat} {e : EngOp} (h : s.Canonical) : SomeCanonical (s.submitRest c e) :=
  .ite h.sendCommand.someOf .ofNone

theorem State.Canonical.nextCommand {s : State} {c : Nat} {e : EngOp} (h : s.Canonical) : SomeCanonical (s.nextCommand c e) :=
  .ite .ofNone (.ite h.submit h.submitRest)

theorem State.Canonical.startEngine {s : State} {c : Nat} {e : EngOp} (h : s.Canonical) : (s.startEngine c e).Canonical := by
  unfold State.startEngine
  dsimp only
  split
  · exact h.modEng.nextElement
  · exact h.modEng.getD h.modEng.nextCommand

theorem State.Canonical.restorePage {s : State} {c : Nat} {id : BitVec 16} {va : Word} {l : List Byte} (h : s.Canonical) :
    (s.restorePage c id va l).1.Canonical := by
  unfold State.restorePage
  refine .foldlFst h fun p x hp => ?_
  split
  · exact hp
  · dsimp only
    split
    · exact hp.payloadWrite.foldl fun _ _ hs => hs.setFe
    · exact hp.payloadWrite

theorem State.Canonical.completeWord {s : State} {c : Nat} {me : Owner} {mode : Compl} {va v : Word} (h : s.Canonical) :
    (s.completeWord c me mode va v).1.Canonical := by
  unfold State.completeWord
  split
  · exact h
  · exact h
  · split
    · exact h
    · refine .iteFst ?_ h.waitRaise.needLine.flushBuffer.store.wrote
      split
      · next heq => exact h.waitRaise.needLine.flushBuffer.fillWord _ heq
      · exact h.waitRaise.needLine.flushBuffer

theorem State.Canonical.endEngine {s : State} {c : Nat} {e : EngOp} (h : s.Canonical) : (s.endEngine c e).Canonical :=
  .modCore (.ite h.forget.completeWord.causeRecord h.forget.completeWord)

/-! ### Matrix operations -/

theorem State.Canonical.keepPins {s : State} {c : Nat} {keep : List Nat} (h : s.Canonical) : (s.keepPins c keep).Canonical :=
  h.modCore

theorem State.Canonical.pinSector {s : State} {t : Nat} {th : Thread} {va : Word} (h : s.Canonical) :
    (s.pinSector t th va).Canonical := by
  unfold State.pinSector
  dsimp only
  split
  · next heq => exact .modCore (.ite (h.ensureLine _ heq).installClean (h.ensureLine _ heq).installClean)
  · exact h.countCore
  · exact h

theorem State.Canonical.pinRuns {s : State} {t : Nat} {th : Thread} {runs : List (Word × Nat)} (h : s.Canonical) :
    (s.pinRuns t th runs).Canonical := h.foldl (fun _ _ hs => hs.pinSector)

theorem State.Canonical.pullRuns {s : State} {c : Nat} {runs : List (Word × Nat)} (h : s.Canonical) :
    (s.pullRuns c runs).Canonical := h.foldl (fun _ _ hs => hs.pullSpan)

theorem State.Canonical.startMatrix {s : State} {t : Nat} {th : Thread} {op : Nat} {m : MatrixJob} (h : s.Canonical) :
    (s.startMatrix t th op m).Canonical :=
  .modCore (.modThread (.ite (.pullSpan (.ite h.pullRuns.pullRuns.pinRuns h.pullRuns.pullRuns)) (.ite h.pullRuns.pullRuns.pinRuns
    h.pullRuns.pullRuns)))

theorem State.Canonical.chargeMatrix {s : State} {t cycles : Nat} (h : s.Canonical) : (s.chargeMatrix t cycles).Canonical :=
  h.modThread.countCore

theorem State.Canonical.unclaim {s : State} {c i : Nat} {claimed : Bool} (h : s.Canonical) : (s.unclaim c i claimed).Canonical :=
  h.modTile

theorem State.Canonical.completeMatrix {s : State} {t : Nat} {o : Op} {m : MatrixJob} (h : s.Canonical) :
    (s.completeMatrix t o m).Canonical := by
  unfold State.completeMatrix
  dsimp only
  split
  · exact h.keepPins.modCore.chargeMatrix.unclaim.modThread
  · exact (h.keepPins.modCore.chargeMatrix.countCore.foldl (fun _ _ hs => hs.sampleCore)).modTile.modThread

theorem State.Canonical.stepMatrix {s : State} {t : Nat} {th : Thread} {o : Op} {m : MatrixJob} (h : s.Canonical) :
    (s.stepMatrix t th o m).Canonical :=
  .ite (.completeMatrix (.of_mem (.ite (.pullRuns (.pullRuns (.ite h.pullSpan h))) (.pinRuns (.pullRuns (.pullRuns (.ite
    h.pullSpan h))))) rfl)) (.modThread (.keepPins (.of_mem (.ite (.pullRuns (.pullRuns (.ite h.pullSpan h))) (.pinRuns (.pullRuns
    (.pullRuns (.ite h.pullSpan h))))) rfl)))

/-! ### Ready sets and parked threads -/

theorem State.Canonical.putStation {s : State} {cl : Nat} {k : Station} (h : s.Canonical) : (s.putStation cl k).Canonical :=
  .ite h.setStation h.setStation.putGranules

theorem State.Canonical.startTask {s : State} {c slot : Nat} {e : ReadyEntry} (h : s.Canonical) :
    (s.startTask c slot e).Canonical :=
  .acquireInv (.setThread (.ite h.leaseRead.draw.modCore.countStation h.leaseRead.draw.modCore))

theorem State.Canonical.putChanged {s : State} {loc : Nat} {l old : List Val} (h : s.Canonical) :
    (s.putChanged loc l old).Canonical := by
  induction l generalizing s loc old with
  | nil => exact h
  | cons v r ih => exact ih (.ite h h.putGranules)

theorem State.Canonical.putStored {s : State} {cl i : Nat} {e : StoreEntry} (h : s.Canonical) : (s.putStored cl i e).Canonical :=
  h.putChanged.modStation

theorem State.Canonical.requeue {s : State} {cl i : Nat} (h : s.Canonical) : (s.requeue cl i).Canonical := by
  unfold State.requeue
  dsimp only
  split
  · exact .ite h.putStation h
  · exact h

theorem State.Canonical.requeueAll {s : State} {cl : Nat} (h : s.Canonical) : (s.requeueAll cl).Canonical :=
  h.foldl (fun _ _ hs => hs.requeue)

theorem State.Canonical.resumeStored {s : State} {cl i c slot : Nat} (h : s.Canonical) :
    (s.resumeStored cl i c slot).Canonical := by
  unfold State.resumeStored
  split
  · exact h
  · exact .ite (.acquireInv (.setThread (.ite h.modStation h.modStation.spill))) (.trapNow (.startTrap (.acquireInv (.setThread
      (.ite h.modStation h.modStation.spill)))))

/-! ### LEASE, PLBINV, PGMOVE and revocation -/

theorem State.Canonical.mapCores {s : State} {f : Core → Core} (h : s.Canonical) : (s.mapCores f).Canonical := .of_mem h rfl

theorem State.Canonical.mapThreads {s : State} {f : Thread → Thread} (h : s.Canonical) : (s.mapThreads f).Canonical :=
  .of_mem h rfl

theorem State.Canonical.mapMarks {s : State} {f : MarkDomain → MarkDomain} (h : s.Canonical) : (s.mapMarks f).Canonical :=
  h.modDev

theorem State.Canonical.dropPlbAll {s : State} {hit : Nat → PlbEntry → Bool} (h : s.Canonical) : (s.dropPlbAll hit).Canonical :=
  .of_mem h rfl

theorem State.Canonical.putLeaf {s : State} {a w : Nat} (h : s.Canonical) : (s.putLeaf a w).Canonical :=
  h.needLine.flushBuffer.store.wroteAt

theorem State.Canonical.dropFrame {s : State} {hm f page : Nat} (h : s.Canonical) : (s.dropFrame hm f page).Canonical := h.modHome

theorem State.Canonical.unmapPages {s : State} {pages : List Nat} (h : s.Canonical) : (s.unmapPages pages).Canonical := by
  unfold State.unmapPages
  refine ((h.foldl (fun s1 x1 hs => ?_)).foldl (fun s1 x1 hs => ?_)).dropPlbAll
  · split
    · exact hs.dropFrame.modHome
    · exact hs
  · split
    · exact hs.putLeaf
    · exact hs

theorem State.Canonical.revokeThread {s : State} {t : Nat} (h : s.Canonical) : (s.revokeThread t).Canonical := by
  unfold State.revokeThread
  split
  · exact h
  · split
    · exact h
    · exact h.setThread.dropWaits.trapNow
    · exact h.setThread.dropWaits.startTrap.trapNow

theorem State.Canonical.endGone {s : State} {core slot : Nat} {th : Thread} {code : Code} {drained : Bool} (h : s.Canonical) :
    (s.endGone core slot th code drained).Canonical :=
  .completionRecord (.ite h.dump.flushThread.endLeave h.dump.flushThread.endLeave.pinRanges)

theorem State.Canonical.endAway {s : State} {core slot : Nat} {th : Thread} {code : Code} (h : s.Canonical) :
    (s.endAway core slot th code).Canonical := h.endGone.modCore.zeroLanes.zeroSpans

theorem State.Canonical.revokeStored {s : State} {hit : Thread → Bool} (h : s.Canonical) : (s.revokeStored hit).Canonical :=
  h.foldl (fun _ _ hs => hs.foldl (fun _ _ hs1 => .ite hs1.endAway.dropWaits.modStation hs1))

theorem State.Canonical.revokeAway {s : State} {hit : Thread → Bool} (h : s.Canonical) : (s.revokeAway hit).Canonical := by
  unfold State.revokeAway
  refine (h.foldl (fun s1 x1 hs => ?_)).foldl (fun s1 x1 hs => hs.foldl (fun s1 x1 hs1 => .ite hs1.modCore.endAway hs1))
  split
  · exact .ite hs.dropMsg.endAway hs
  · exact hs

theorem State.Canonical.dropOps {s : State} {ops : List Nat} (h : s.Canonical) : (s.dropOps ops).Canonical := .of_mem h rfl

theorem State.Canonical.revokeSaved {s : State} {hit : Thread → Bool} {hitR : List Quad → Bool} {failE : EngOp → EngOp}
    {failD : Drain → Drain} (h : s.Canonical) :
    (s.revokeSaved hit hitR failE failD).Canonical :=
  .of_mem (h.foldl (fun _ _ hs => (hs.foldl (fun _ _ hs1 => hs1.pinRanges)).foldl (fun _ _ hs1 => .ite hs1 hs1.endGone.dropOps)))
    rfl

theorem State.Canonical.revokeCaught {s : State} {hit : Thread → Bool} (h : s.Canonical) : (s.revokeCaught hit).Canonical :=
  .of_mem (h.foldl (fun _ _ hs => hs.endGone)) rfl

theorem State.Canonical.revokeReady {s : State} {hit : List Quad → Bool} (h : s.Canonical) : (s.revokeReady hit).Canonical :=
  h.foldl (fun _ _ hs => (hs.foldl (fun _ _ hs1 => hs1.pinRanges)).putStation)

theorem State.Canonical.revokeAll {s : State} {t : Nat} {task : Word} {pages : List Nat} (h : s.Canonical) :
    (s.revokeAll t task pages).Canonical :=
  h.mapCores.revokeStored.revokeAway.revokeCaught.revokeReady.revokeSaved.foldl (fun _ _ hs => hs.revokeThread)

theorem State.Canonical.dropCovering {s : State} {t : Nat} {pages : List Nat} (h : s.Canonical) :
    (s.dropCovering t pages).Canonical := by
  unfold State.dropCovering
  split
  · exact h
  · exact h.pinRanges.setThread

theorem State.Canonical.zeroPage {s : State} {page : Nat} (h : s.Canonical) : (s.zeroPage page).Canonical := by
  unfold State.zeroPage
  split
  · exact h.modHome.zeroRange.dropViews.foldl (fun _ _ hs => hs.modHome)
  · exact h

theorem State.Canonical.leaseAct {s : State} {t : Nat} {th : Thread} {op : Nat} {a : Val} {dom : BitVec 16} (h : s.Canonical) :
    (s.leaseAct t th op a dom).1.Canonical := by
  unfold State.leaseAct
  dsimp only
  split
  · exact .iteFst h (.iteFst h h.modThread.pinRanges)
  · split
    · exact h
    · exact h.modThread.pinRanges.dropPlbAll
  · exact .iteFst h (.iteFst h h.unmapPages)
  · exact .iteFst h (.iteFst h.revokeAll.dropCovering.unmapPages h.revokeAll)
  · refine .iteFst h (.iteFst h ((h.foldl (fun s1 x1 hs => ?_)).foldl (fun s1 x1 hs => hs.zeroPage)).dropPlbAll)
    split
    · exact hs.putLeaf
    · exact hs

theorem State.Canonical.plbInvalidate {s : State} {scope : PlbScope} {arg : Word} (h : s.Canonical) :
    (s.plbInvalidate scope arg).1.Canonical :=
  h.of_mem rfl

theorem State.Canonical.copyFrame {s : State} {src dst : Nat} (h : s.Canonical) : (s.copyFrame src dst).Canonical :=
  memWf_copyFrame _ _ _ h

theorem State.Canonical.moveRecords {s : State} {hm src h2 dst : Nat} (h : s.Canonical) :
    (s.moveRecords hm src h2 dst).Canonical := .modHome (.modHome (.of_mem h rfl))

theorem State.Canonical.awaitMore {s : State} {t op : Nat} (h : s.Canonical) : (s.awaitMore t op).Canonical := h.modThread

theorem State.Canonical.bankAt {s : State} {hm : Nat} {m : Msg} (h : s.Canonical) : (s.bankAt hm m).Canonical := by
  unfold State.bankAt
  split
  · exact h.modThread
  · exact h

theorem State.Canonical.forwardMarks {s : State} {page hm h2 : Nat} {news : List Nat} (h : s.Canonical) :
    (s.forwardMarks page hm h2 news).Canonical := by
  unfold State.forwardMarks
  refine h.foldl (fun s1 x1 hs => .ite hs ?_)
  split
  · split
    · dsimp only
      split
      · exact .ite hs.sendIn.awaitMore.bankAt hs
      · exact hs
    · exact hs
  · exact .ite hs.sendIn.awaitMore hs
  · exact hs

theorem State.Canonical.forwardPage {s : State} {page hm h2 : Nat} (h : s.Canonical) : (s.forwardPage page hm h2).Canonical :=
  .foldl (.of_mem h rfl) (fun _ _ hs => hs.bankAt)

theorem State.Canonical.storeLease {s : State} {loc : Nat} {th : Thread} (h : s.Canonical) : (s.storeLease loc th).Canonical :=
  h.readPhys.store.wroteAt

theorem State.Canonical.moveStore {s : State} {page : Nat} {k : Station} (h : s.Canonical) :
    (s.moveStore page k).1.Canonical := by
  unfold State.moveStore
  exact .foldlFst h fun _ _ hp => .iteFst hp.storeLease hp

theorem State.Canonical.leaseSaved {s : State} {v : Saved} {n : Nat} {x : Nat × Thread} (h : s.Canonical) :
    (s.leaseSaved v n x).Canonical := by
  unfold State.leaseSaved
  dsimp only
  split
  · exact h.storeLease.readPhys.store.wroteAt
  · exact h

theorem State.Canonical.moveSaved {s : State} {page : Nat} {v : Saved} (h : s.Canonical) : (s.moveSaved page v).1.Canonical := by
  unfold State.moveSaved
  exact .foldl (.foldlFst h fun _ _ hp => hp.moveStore) fun _ _ hs => hs.leaseSaved

theorem State.Canonical.countMove {s : State} {page : Nat} (h : s.Canonical) : (s.countMove page).Canonical := by
  unfold State.countMove
  have hs : ((s.mapThreads (fun th => th.moved page)).mapCores (fun k => k.moved page)).Canonical := h.mapThreads.mapCores
  refine .of_mem ?_ rfl
  exact .foldlFst (.foldl (hs.of_mem rfl) fun _ _ hs => hs.moveStore.setStation) fun _ _ hp => hp.moveSaved

theorem State.Canonical.moveTicks {s : State} {hm h2 : Nat} {news : List Nat} (h : s.Canonical) :
    (s.moveTicks hm h2 news).Canonical := h.modHome

theorem State.Canonical.movePage {s : State} {t page h2 f2 : Nat} (h : s.Canonical) : (s.movePage t page h2 f2).1.Canonical := by
  unfold State.movePage
  split
  · next l hm f hl hf =>
    refine .iteFst h (.iteFst h (.iteFst h (.iteFst h (.iteFst h (.mapMarks (.countMove (.mapCores ?_)))))))
    have hcopy {l : List Nat} {src dst : Nat} : ((l.foldl (fun s x => s.flushBuffer hm x) s).copyFrame src dst).Canonical :=
      (h.foldl fun _ _ hs => hs.flushBuffer).copyFrame
    exact hcopy.moveRecords.dropFrame.putLeaf.modHome.modHome.moveTicks.dropPlbAll.forwardPage.forwardMarks
  · exact h

/-! ### Releases and what follows them -/

theorem State.Canonical.setPhase {s : State} {t op : Nat} {p : Phase} (h : s.Canonical) : (s.setPhase t op p).Canonical :=
  h.modThread

theorem State.Canonical.setBank {s : State} {t : Nat} {va : Word} (h : s.Canonical) : (s.setBank t va).Canonical :=
  h.of_mem (setBank_mem ..)

theorem State.Canonical.sendAccess {s : State} {t op : Nat} {va : Word} (h : s.Canonical) : (s.sendAccess t op va).Canonical := by
  unfold State.sendAccess
  split
  · exact h
  · exact .setPhase (.send (.ite h.setBank h))

theorem State.Canonical.dropOwn {s : State} {t : Nat} {th : Thread} {va : Word} {n : Nat} (h : s.Canonical) :
    (s.dropOwn t th va n).Canonical := .ite h h.dropBytes

theorem State.Canonical.markPending {s : State} {t : Nat} {th : Thread} {va : Word} (h : s.Canonical) :
    (s.markPending t th va).Canonical := .ite h h.modCore

theorem State.Canonical.afterRelease {s : State} {t : Nat} {th : Thread} {o : Op} (h : s.Canonical) :
    (s.afterRelease t th o).Canonical := by
  unfold State.afterRelease
  generalize o.act = a
  cases a
  case storeRel n v => exact h.dropOwn.markPending.sendAccess
  case fill v => exact h.dropOwn.sendAccess
  case matrix m => exact h.startMatrix.setPhase
  case fence | spawn | yield | endTask | hend | engine | mdrain | lease | plbinv | pgmove => exact h.setPhase
  all_goals exact h.sendAccess

theorem State.Canonical.endEpoch {s : State} {t : Nat} (h : s.Canonical) : (s.endEpoch t).Canonical := h.modThread

theorem State.Canonical.newEpoch {s : State} {t : Nat} (h : s.Canonical) : (s.newEpoch t).Canonical := h.modThread

theorem State.Canonical.flushDone {s : State} {t : Nat} {th : Thread} {o : Op} {sc : FenceScope} (h : s.Canonical) :
    (s.flushDone t th o sc).Canonical := .afterRelease (.ite h.unregisterAll.newEpoch h.unregisterAll.modThread.endEpoch)

theorem State.Canonical.awaitSent {s : State} {t : Nat} {th : Thread} {op : Nat} {inScope : Nat → Bool} (h : s.Canonical) :
    (s.awaitSent t th op inScope).1.Canonical := .of_mem h rfl

theorem State.Canonical.coverSent {s : State} {me : Owner} (h : s.Canonical) : (s.coverSent me).Canonical := .of_mem h rfl

theorem State.Canonical.probesDone {s : State} {t : Nat} {th : Thread} {o : Op} (h : s.Canonical) :
    (s.probesDone t th o).Canonical := by
  unfold State.probesDone
  dsimp only
  split
  · exact .ite (h.awaitSent.foldl (fun _ _ hs => hs.writeBack)).flushDone (h.awaitSent.foldl (fun _ _ hs =>
      hs.writeBack)).setPhase
  · exact h.markReleased.coverSent.newEpoch.afterRelease

theorem State.Canonical.launch {s : State} {t : Nat} {o : Op} {la : Nat} (h : s.Canonical) : (s.launch t o la).Canonical := by
  unfold State.launch
  dsimp only
  split
  · exact h.startOp
  · exact h.startOp.afterRelease
  · exact .ite (h.startOp.foldl (fun _ _ hs => hs.send)).probesDone (h.startOp.foldl (fun _ _ hs => hs.send)).setPhase

theorem State.Canonical.completeOut {s : State} {t : Nat} {o : Op} {vs : List Val} (h : s.Canonical) :
    (s.completeOut t o vs).Canonical :=
  .ite h.setPhase (.modThread (.ite (h.foldl (fun _ _ hs => hs.putNow)).acquireInv.endEpoch (h.foldl (fun _ _ hs => hs.putNow))))

theorem State.Canonical.spawnAct {s : State} {t : Nat} {th : Thread} {a : Val} {count : Word} {cluster : Nat} (h : s.Canonical) :
    (s.spawnAct t th a count cluster).1.Canonical := by
  unfold State.spawnAct
  dsimp only
  split
  · exact h.pullSpan
  · split
    · exact h.pullSpan.requeueAll.pullSpan
    · exact .iteFst h.pullSpan.requeueAll.pullSpan (.iteFst h.pullSpan.requeueAll.pullSpan (.iteFst h.pullSpan.requeueAll.pullSpan
        h.pullSpan.requeueAll.pullSpan.putStation))

theorem State.Canonical.trapInstead {s : State} {t : Nat} {o : Op} (h : s.Canonical) : (s.trapInstead t o).Canonical :=
  h.modThread.startTrap.trapNow

theorem State.Canonical.yieldAct {s : State} {t : Nat} {o : Op} {dl : Word} (h : s.Canonical) : (s.yieldAct t o dl).Canonical :=
  h.modThread

theorem State.Canonical.hendAct {s : State} {t : Nat} {th : Thread} (h : s.Canonical) : (s.hendAct t th).Canonical := by
  unfold State.hendAct
  dsimp only
  split
  · exact h
  · exact h.modTile.modCore.forget.dropPlb.dropThread

theorem State.Canonical.queueDrain {s : State} {t : Nat} {th : Thread} {tile : Nat} {id : BitVec 16} {compl : Val}
    (h : s.Canonical) :
    (s.queueDrain t th tile id compl).Canonical := h.modCore

theorem State.Canonical.drainAct {s : State} {t tile : Nat} (h : s.Canonical) : (s.drainAct t tile).Canonical := h.modTile.modCore

theorem State.Canonical.fillDrain {s : State} {c : Nat} {d : Drain} (h : s.Canonical) : (s.fillDrain c d).Canonical := by
  unfold State.fillDrain
  refine .ite h (.ite h.causeRecord ?_)
  dsimp only
  split
  · exact h.completeWord.causeRecord
  · exact h.completeWord

theorem State.Canonical.settleDrain {s : State} {c : Nat} {d : Drain} (h : s.Canonical) : (s.settleDrain c d).Canonical :=
  .ite h (.ite h.modCore.fillDrain h.modCore.fillDrain.pinRanges)

theorem State.Canonical.settleDrains {s : State} {c : Nat} (h : s.Canonical) : (s.settleDrains c).Canonical :=
  h.foldl (fun _ _ hs => hs.settleDrain)

theorem State.Canonical.finishAct {s : State} {t : Nat} {th : Thread} {o : Op} (h : s.Canonical) :
    SomeCanonical (s.finishAct t th o) := by
  unfold State.finishAct
  dsimp only
  generalize o.act = a
  cases a
  case fence k sc => exact .ite .ofNone (State.Canonical.someOf (.completeOut (.ite h h.acquireInv.endEpoch)))
  case spawn a n cl =>
    dsimp only
    split
    · exact h.spawnAct.completeOut.someOf
    · exact h.spawnAct.modThread.someOf
    · exact .ofNone
  case yield dl => exact .ite h.yieldAct.someOf (.ite h.trapInstead.someOf .ofNone)
  case endTask => exact .ite h.modThread.endThread.settleDrains.someOf (.ite h.trapInstead.someOf .ofNone)
  case hend => exact .ite h.hendAct.settleDrains.someOf (.ite h.trapInstead.someOf .ofNone)
  case engine e => exact h.acceptEngine.completeOut.someOf
  case mdrain tile n v => exact h.drainAct.completeOut.someOf
  case dump => exact .ite h.dump.completeOut.someOf .ofNone
  case lease op a dom =>
    refine .ite .ofNone ?_
    split
    · exact h.walkPages.leaseAct.completeOut.someOf
    · exact .ite .ofNone h.walkPages.leaseAct.modThread.someOf
  case plbinv sc arg => exact h.plbInvalidate.completeOut.someOf
  case pgmove page hm f => exact .ite .ofNone h.walkPages.movePage.completeOut.someOf
  all_goals exact h.completeOut.someOf

end Sys2Proof.Machine
end

section
/-!
Storage keeps its canonical form through what the instructions and events share.
-/

namespace Sys2Proof.Machine

/-! ### Loads, stores and travel -/

theorem State.Canonical.accessStep {s : State} {th : Thread} {a : Val} {w : Want} {va : Word} {n align : Nat} {posted : Bool}
    (h : s.Canonical) :
    OkCanonical (accessStep s th a w va n align posted) :=
  fun _ hr => h.of_mem (accessStep_mem hr)

theorem State.Canonical.roomFor {s : State} {t : Nat} {va : Word} (h : s.Canonical) : (s.roomFor t va).Canonical := by
  unfold State.roomFor
  split
  · refine .ite h ?_
    split
    · next heq => exact h.ensureLine _ heq
    · exact h.countCore
  · exact h

theorem State.Canonical.post {s : State} {t : Nat} {o : Op} {k : State → State × Nat} (h : s.Canonical)
    (hk : ∀ s, s.Canonical → (k s).1.Canonical) : (s.post t o k).Canonical := by
  unfold State.post
  exact .ite (hk _ h.startOp).modThread (hk _ h.startOp).setPhase

theorem State.Canonical.plainSectors {s : State} {t op : Nat} {vas : List Word} {data : BitVec 256} (h : s.Canonical) :
    (Machine.plainSectors t op vas data s).1.Canonical := by
  unfold Machine.plainSectors
  exact .foldlFst h fun _ _ hp => hp.plainStore

theorem State.Canonical.withTravel {s : State} {go : Bool} {stop : Stop} {va : Word} {th : Thread} {k : State → Except Stop State}
    (h : s.Canonical) (hk : ∀ s, s.Canonical → OkCanonical (k s)) : OkCanonical (Machine.withTravel go stop va th s k) := by
  unfold Machine.withTravel
  split
  · exact .ofError
  · exact hk _ h.modThread

/-! ### Atomics and full/empty words -/

theorem State.Canonical.issueHome {t : Nat} {o : Op} {la : BitVec 4} {s : State} (h : s.Canonical) :
    OkCanonical (issueHome t o la s) := h.launch.okOf

theorem State.Canonical.giveUp {s : State} {t : Nat} {th : Thread} {va : Word} (h : s.Canonical) : (s.giveUp t th va).Canonical :=
  .ite h.surrender h

/-! ### Engine instructions -/

theorem State.Canonical.toEngine {d : Opn} {e : EngOp} {s : State} (h : s.Canonical) : OkCanonical (toEngine d e s) :=
  .ite .ofError h.launch.okOf

theorem State.Canonical.fillWays {s : State} {hm : Nat} {v : Conversion} (h : s.Canonical) : (s.fillWays hm v).Canonical := by
  unfold State.fillWays
  refine .ite h ?_
  dsimp only
  split
  · exact h.completeWord.causeRecord
  · exact h.completeWord

theorem State.Canonical.convert {s : State} {hm : Nat} {v : Conversion} (h : s.Canonical) : (s.convert hm v).1.Canonical :=
  .iteFst h (.iteFst h (.iteFst h.fillWays (.ite h.setHome.zeroRange h.setHome)))

theorem State.Canonical.storeEntries {s : State} {t op : Nat} {va : Word} {es : List (BitVec 256)} (h : s.Canonical) :
    (Machine.storeEntries t op va es s).1.Canonical := by
  unfold Machine.storeEntries
  exact .foldlFst h fun _ _ hp => hp.plainStore

/-! ### Mark instructions -/

theorem State.Canonical.dropCell {s : State} {t : Nat} {th : Thread} {va : Word} (h : s.Canonical) :
    (s.dropCell t th va).Canonical := .ite h.surrender h

theorem State.Canonical.sendMark {cls : OpClass} {act : Act} {dom c : Nat} {dests : List Opn} {v : Vals} {b d : Val}
    {la : BitVec 4} {s : State} (h : s.Canonical) :
    OkCanonical (sendMark cls act dom c dests v b d la s) := by
  unfold Machine.sendMark
  dsimp only
  split
  · exact .ofError
  · split
    · next heq _ _ => exact (h.translate _ heq).okOf
    · next heq _ _ _ => exact .ite .ofError (h.translate _ heq).dropCell.issueHome

theorem State.Canonical.sendBox {act : Act} {dom : Nat} {o : SenseOps} {v : Vals} {cont : Quad} {none_ : Bool} {s : State}
    (h : s.Canonical) :
    OkCanonical (sendBox act dom o v cont none_ s) := by
  unfold Machine.sendBox
  refine .ite h.startOp.okOf ?_
  split
  · exact .ofError
  · next heq _ => exact (h.translate _ heq).okOf
  · next heq _ => exact ((h.translate _ heq).startOp.foldl (fun _ _ hs => hs.modThread.send)).setPhase.okOf

theorem State.Canonical.addWork {s : State} {hs : List Nat} {w : BindWork} (h : s.Canonical) : (s.addWork hs w).Canonical :=
  h.foldl (fun _ _ hs1 => hs1.modHome)

theorem State.Canonical.bindOp {t dom : Nat} {d : Opn} {bind : Bool} {hs : List Nat} {s : State} (h : s.Canonical) :
    (bindOp t dom d bind hs s).Canonical := h.modThread.startOp.addWork

theorem State.Canonical.yieldCells {s : State} {dom : BitVec 16} {d : MarkDomain} (h : s.Canonical) :
    (s.yieldCells dom d).Canonical := h.foldl (fun _ _ hs => hs.surrender)

/-! ### Tiles -/

theorem EffectCanonical.mmaEffect {kind : Nat} {o : MmaOps} : EffectCanonical (mmaEffect kind o) := by
  unfold Machine.mmaEffect
  refine fun v th s hs => ?_
  dsimp only
  split
  · exact .ofError
  · refine .ite .ofError ?_
    split
    · exact .ofError
    · exact hs.claimTile.setCore.modTile.launch.okOf

theorem State.Canonical.setBanks {s : State} {t : Nat} {va : Word} {n : Nat} (h : s.Canonical) : (s.setBanks t va n).Canonical :=
  h.foldl (fun _ _ hs => hs.setBank)

theorem State.Canonical.failRows {s : State} {t : Nat} {o : Op} {tile : Nat} {f : Code × Word} (h : s.Canonical) :
    (s.failRows t o tile f).Canonical := h.unclaim.setPhase

theorem State.Canonical.rowArrives {s : State} {t : Nat} {o : Op} {left tile : Nat} {bf16 pass : Bool} {shape : BitVec 3}
    (h : s.Canonical) :
    (s.rowArrives t o left tile bf16 pass shape).Canonical := .ite h.failRows (.ite h.setPhase h.modTile.modThread)

/-! ### Scheduling -/

theorem EffectCanonical.sched {eff : Effect} (h : EffectCanonical eff) : EffectCanonical (Machine.sched eff) :=
  fun v th s hs => .ite .ofError (h v th s hs)

theorem State.Canonical.outResult {s : State} {t : Nat} {dests : List Opn} {vs : List Val} (h : s.Canonical) :
    (s.outResult t dests vs).Canonical := h.startOp

theorem EffectCanonical.groupEffect {act : Act} {acq : Bool} {d : Opn} : EffectCanonical (groupEffect act acq d) := by
  unfold Machine.groupEffect
  refine fun v th s hs => ?_
  dsimp only
  split
  · exact .ofError
  · refine .ite .ofError ?_
    split
    · exact .ofError
    · next heq => exact (hs.accessStep _ heq).giveUp.issueHome

/-! ### System instructions -/

theorem EffectCanonical.softEffect {code : Code} {imm : BitVec 16} : EffectCanonical (softEffect code imm) :=
  fun _ _ _ hs => .ite .ofError hs.softTrap.okOf

theorem EffectCanonical.leaseEffect {op : Nat} {o : LeaseOps} : EffectCanonical (leaseEffect op o) := by
  unfold Machine.leaseEffect
  refine fun v th s hs => .ite .ofError ?_
  split
  · exact .ofError
  · exact hs.launch.okOf

/-! ### Events of threads -/

theorem NextCanonical.happens {x : Option State} (h : SomeCanonical x) : NextCanonical (Machine.happens x) := by
  cases x with
  | none => exact .ofRefused
  | some s => exact (h s rfl).nextOf

theorem State.Canonical.whenever {c : Bool} {s : State} (h : s.Canonical) : SomeCanonical (whenever c s) := .ite h.someOf .ofNone

theorem State.Canonical.fetchMiss {s : State} {t : Nat} {th : Thread} (h : s.Canonical) : SomeCanonical (s.fetchMiss t th) := by
  unfold State.fetchMiss
  split
  · exact .ite (State.Canonical.someOf (.countCore (.setThread (.of_mem h rfl)))) .ofNone
  · exact .ofNone

theorem State.Canonical.fetchFill {s : State} {t : Nat} {th : Thread} (h : s.Canonical) : (s.fetchFill t th).Canonical := by
  unfold State.fetchFill
  dsimp only
  split
  · exact h
  · refine .ite h.modCore ?_
    split
    · exact h.pullSpan
    · refine .ite h.pullSpan ?_
      split
      · next heq => exact (h.pullSpan.ensureLine _ heq).installClean
      · exact h.pullSpan.countCore

theorem State.Canonical.faultNext {s : State} {t : Nat} {th : Thread} {code : Code} {cause : Word} (h : s.Canonical) :
    (s.faultNext t th code cause).Canonical := .faultUnit (.of_mem h rfl)

theorem State.Canonical.holdTurn {s : State} {t : Nat} {th : Thread} {presence : Bool} (h : s.Canonical) :
    (s.holdTurn t th presence).Canonical := .ite h.setThread.countCore h.setThread

theorem State.Canonical.turn {s : State} {t : Nat} {th : Thread} (h : s.Canonical) : (s.turn t th).Canonical := by
  unfold State.turn
  refine .ite h.startTrap.trapNow ?_
  dsimp only
  split
  · exact h.flushEntries
  · exact .ite h.flushEntries.holdTurn (.ite h.flushEntries.faultNext (.ite h.flushEntries.holdTurn (.ite h.flushEntries.holdTurn
      (.of_mem h.flushEntries.modThread rfl))))

theorem State.Canonical.budgetTurn {s : State} {t : Nat} (h : s.Canonical) : SomeCanonical (s.budgetTurn t) := by
  unfold State.budgetTurn
  dsimp only
  split
  · exact h.flushEntries.faultNext.whenever
  · exact .ofNone

theorem State.Canonical.arrive {s : State} {t : Nat} {o : Op} {vs : List Val} (h : s.Canonical) : (s.arrive t o vs).Canonical :=
  .ite (h.foldl (fun _ _ hs => hs.putNow)).modThread.sampleCore (h.foldl (fun _ _ hs => hs.putNow)).modThread

theorem State.Canonical.settleAll {s : State} (h : s.Canonical) : s.settleAll.Canonical := h.foldl (fun _ _ hs => hs.settleDrains)

theorem State.Canonical.unpark {s : State} {t : Nat} (h : s.Canonical) : (s.unpark t).Canonical := h.modThread

theorem State.Canonical.fillPlb {s : State} {t : Nat} {th : Thread} {page : Nat} {va : Word} {since : Nat} (h : s.Canonical) :
    (s.fillPlb t th page va since).Canonical := by
  rw [State.fillPlb]
  have hw := h.walkNow (va := page * 2 ^ 18)
  generalize s.walkNow (page * 2 ^ 18) = s1 at hw ⊢
  cases leafOf s1 page with
  | none => exact .ite hw.faultNext (.ite hw.setThread hw.faultNext)
  | some l => exact .ite (.ite hw.faultNext (.ite hw.setThread hw.faultNext)) hw.setThread.modCore.sampleCore

/-! ### Events of homes -/

theorem State.Canonical.touchLines {s : State} {ls : List LineKey} (h : s.Canonical) : (s.touchLines ls).Canonical :=
  h.foldl (fun _ _ hs => hs.modHome)

theorem State.Canonical.tickHome {s : State} {hm t : Nat} {o : Op} {dom : Nat} (h : s.Canonical) :
    (s.tickHome hm t o dom).Canonical :=
  .ite h.takeReply (.ite (h.modMark.modThread.foldl (fun _ _ hs => hs.send)).setPhase (h.modMark.modThread.foldl (fun _ _ hs =>
    hs.send)).setPhase)

theorem State.Canonical.windowPiece {s : State} {src : Outside} {off : Nat} {va : Word} {bytes : List Byte} (h : s.Canonical) :
    (s.windowPiece src off va bytes).Canonical := by
  unfold State.windowPiece
  dsimp only
  split
  · refine .ite h.emit ?_
    split
    · exact h.putPiece
    · exact h.putPiece.emit
  · exact h.emit

theorem State.Canonical.access {s : State} {m : Msg} {hm : Nat} (h : s.Canonical) : (s.access m hm).Canonical := by
  unfold State.access
  split
  · split
    · split
      · exact h.tickHome
      · exact h.perform.takeReply
    · exact h
  · exact h.performWrite.takeReply
  · exact h.elementRead
  · exact h.elementWrite
  · exact h.windowPiece
  · exact h

theorem State.Canonical.startPulls {s : State} {ps : List (Nat × Nat × Bool)} (h : s.Canonical) : (s.startPulls ps).Canonical :=
  h.foldl (fun _ _ hs => .ite hs hs.startPull)

theorem State.Canonical.registerAt {s : State} {m : Msg} {t op : Nat} {va : Word} {mask : BitVec 32} (h : s.Canonical) :
    (s.registerAt m t op va mask).Canonical := by
  unfold State.registerAt
  dsimp only
  split
  · exact h
  · exact h.takeReply
  · split
    · exact h.dropBytes.dropSent.modThread.takeReply
    · refine .ite h.takeReply ?_
      split
      · exact .takeReply (.ite h.register.modThread.writeBack h.register.modThread)
      · exact h.register.takeReply

theorem State.Canonical.probeAt {s : State} {m : Msg} {hm t op : Nat} (h : s.Canonical) : (s.probeAt m hm t op).Canonical :=
  .send (.of_mem h rfl)

theorem State.Canonical.echoed {s : State} {t op : Nat} (h : s.Canonical) : (s.echoed t op).Canonical := by
  unfold State.echoed
  split
  · split
    · exact .ite h.probesDone h.setPhase
    · exact h
  · exact h

theorem State.Canonical.flushedOne {s : State} {t op : Nat} (h : s.Canonical) : (s.flushedOne t op).Canonical := by
  unfold State.flushedOne
  split
  · split
    · exact .ite h.flushDone h.setPhase
    · exact h
  · exact h

theorem State.Canonical.pulled {s : State} {m c home sector : Nat} {sent : Bool} (h : s.Canonical) :
    SomeCanonical (s.pulled m c home sector sent) := by
  unfold State.pulled
  dsimp only
  split
  · exact .ite (.ite .ofNone (State.Canonical.someOf (.of_mem (.ite h h.settleCore) rfl))) (State.Canonical.someOf (.send
      (.dropMsg (.ite h h.settleCore))))
  · exact State.Canonical.someOf (.of_mem (.foldl (.ite h h.settleCore) (fun _ _ hs => hs.writeBack)) rfl)

theorem State.Canonical.pullAnswered {s : State} {home sector core : Nat} (h : s.Canonical) :
    (s.pullAnswered home sector core).Canonical := h.modHome

theorem State.Canonical.refuseMsg {s : State} {m : Msg} {c : Code} {va : Word} (h : s.Canonical) :
    (s.refuseMsg m c va).Canonical := by
  unfold State.refuseMsg
  split
  · exact h.flushedOne
  · exact h.takeReply
  · exact h.takeReply
  · exact h.failEng
  · exact h.failEng
  · exact h.emit
  · exact h

theorem State.Canonical.walkPage {s : State} {m : Msg} {va : Word} (h : s.Canonical) : (s.walkPage m va).Canonical := by
  rw [State.walkPage]
  have hw := h.walkNow (va := va56 va)
  generalize s.walkNow (va56 va) = s1 at hw ⊢
  cases framePlace s1 (va56 va / 2 ^ 18) with
  | none => exact hw.dropMsg.refuseMsg
  | some p => exact .ite hw.dropMsg.refuseMsg hw.modHome

theorem State.Canonical.wakeStored {s : State} {cl i op : Nat} {v : Word} (h : s.Canonical) :
    (s.wakeStored cl i op v).Canonical := by
  unfold State.wakeStored
  split
  · exact h
  · exact h.putStored.requeue

theorem State.Canonical.delivered {s : State} {who : Waiter} {op : Nat} {v : Word} (h : s.Canonical) :
    (s.delivered who op v).Canonical := by
  unfold State.delivered
  split
  · split
    · exact .ite h.setPhase h.completeOut
    · exact h
  · exact h.wakeStored

/-! ### Events of queues -/

theorem State.Canonical.redirect {s : State} {t cl i : Nat} (h : s.Canonical) : (s.redirect t cl i).Canonical := .of_mem h rfl

theorem State.Canonical.swapOut {s : State} {t : Nat} {th : Thread} {w : Swap} {i : Nat} (h : s.Canonical) :
    (s.swapOut t th w i).Canonical := h.redirect.dropPlb.dropThread.putStored.requeue

theorem State.Canonical.intake {s : State} {queue link off : Nat} {bytes : List Byte} (h : s.Canonical) :
    (s.intake queue link off bytes).Canonical := by
  unfold State.intake
  refine .ite h (.ite h.modDev ?_)
  dsimp only
  split
  · exact h.requeueAll.pullSpan.putStation
  · exact h.requeueAll.pullSpan.modDev

theorem State.Canonical.arriveTravel {s : State} {c slot : Nat} {p : Packed} (h : s.Canonical) :
    (s.arriveTravel c slot p).Canonical := h.modCore.setThread.acquireInv

theorem State.Canonical.startMember {s : State} {c slot : Nat} {w : CrewState} (h : s.Canonical) :
    (s.startMember c slot w).Canonical := by
  unfold State.startMember
  dsimp only
  split
  · exact .ite h.modStation.modCore.setThread.pinRanges.acquireInv.modThread.completeOut
      h.modStation.modCore.setThread.pinRanges.acquireInv.setPhase
  · exact h.modStation.modCore.setThread.pinRanges.acquireInv

theorem State.Canonical.startEntry {s : State} {c slot : Nat} {e : ReadyEntry} (h : s.Canonical) :
    (s.startEntry c slot e).Canonical := by
  unfold State.startEntry
  dsimp only
  split
  · exact h.putStation.requeueAll.resumeStored
  · exact h.putStation.requeueAll.startTask

theorem State.Canonical.offer {s : State} {c slot : Nat} (h : s.Canonical) : SomeCanonical (s.offer c slot) := by
  unfold State.offer
  split
  · exact h.arriveTravel.someOf
  · exact h.startMember.someOf
  · exact h.startEntry.someOf
  · exact .ofNone

theorem State.Canonical.steal {s : State} {thief j v : Nat} (h : s.Canonical) : (s.steal thief j v).Canonical :=
  .send (.modStation (.ite h h.putStation.requeueAll))

theorem State.Canonical.stolen {s : State} {cl : Nat} {es : List ReadyEntry} (h : s.Canonical) : (s.stolen cl es).Canonical :=
  h.putStation.countStation

/-! ### Events of units -/

theorem State.Canonical.modDrain {s : State} {c tile : Nat} {f : Drain → Drain} (h : s.Canonical) :
    (s.modDrain c tile f).Canonical := h.modCore

theorem State.Canonical.dispatchRow {s : State} {c slot : Nat} {d : Drain} (h : s.Canonical) :
    (s.dispatchRow c slot d).Canonical := by
  unfold State.dispatchRow
  dsimp only
  split
  · exact h.modDrain.settleDrains
  · exact h.modDrain.setThread.modCore.acquireInv

theorem State.Canonical.overrun {s : State} {t : Nat} {th : Thread} (h : s.Canonical) : (s.overrun t th).Canonical :=
  h.setThread.dropWaits.startTrap

theorem State.Canonical.refit {s : State} {cl : Nat} (h : s.Canonical) : (s.refit cl).Canonical := h.putStation

theorem State.Canonical.repartDone {s : State} {core t : Nat} {th : Thread} {o : Op} {p : Nat} (h : s.Canonical) :
    (s.repartDone core t th o p).Canonical := h.modCore.dropThread.setThread.completeOut.refit

theorem State.Canonical.converted {s : State} {hm : Nat} {v : Conversion} (h : s.Canonical) : (s.converted hm v).Canonical :=
  .fillWays (.modHome (.ite h.zeroRange h))

theorem State.Canonical.sweepCell {s : State} {dom c n0 n1 : Nat} (h : s.Canonical) : (s.sweepCell dom c n0 n1).Canonical := by
  unfold State.sweepCell
  dsimp only
  split
  · exact h
  · exact .ite h (.putCell (.flushBuffer (.ite h h.needLine)))

theorem State.Canonical.sweepTimed {s old : State} (h : s.Canonical) : (s.sweepTimed old).Canonical :=
  h.foldl (fun _ _ hs => .ite hs (hs.foldl (fun _ _ hs1 => .ite hs1 hs1.sweepCell)))

theorem State.Canonical.tickTime {s : State} (h : s.Canonical) : s.tickTime.Canonical := .sweepTimed (.of_mem h rfl)

theorem State.Canonical.applyTick {s : State} {hm dom gen n t op : Nat} (h : s.Canonical) :
    (s.applyTick hm dom gen n t op).Canonical := .takeReply (.ite (.modHome (.ite h.updateCells h)) h)

theorem State.Canonical.rewriteCell {s : State} {hm dom c : Nat} (h : s.Canonical) : (s.rewriteCell hm dom c).Canonical := by
  unfold State.rewriteCell
  dsimp only
  split
  · exact h.homeRead.needLine.putCell
  · exact h

theorem State.Canonical.endWork {s : State} {hm : Nat} {w : BindWork} (h : s.Canonical) : (s.endWork hm w).Canonical := h.modHome

theorem State.Canonical.setRide {s : State} {m : Nat} {f : Msg → Msg} (h : s.Canonical) : (s.setRide m f).Canonical :=
  .of_mem h rfl

theorem State.Canonical.eject {s : State} {x : Msg} (h : s.Canonical) : (s.eject x).Canonical := .of_mem h rfl

theorem State.Canonical.sampleTransit {s : State} {m : Msg} (h : s.Canonical) : (s.sampleTransit m).Canonical := by
  unfold State.sampleTransit
  split
  · exact h.sampleCore
  · exact h

/-! ### Gang switches -/

theorem State.Canonical.capture {s : State} {m : Msg} {key : Nat} (h : s.Canonical) : (s.capture m key).Canonical :=
  h.of_mem rfl

theorem State.Canonical.clearPage {s : State} {c : Nat} {va : Word} (h : s.Canonical) : (s.clearPage c va).Canonical :=
  memWf_clearPage _ _ _ h

theorem State.Canonical.putArea {s : State} {c : Nat} {va : Word} {l : List Val} (h : s.Canonical) :
    (s.putArea c va l).Canonical :=
  memWf_putArea _ _ _ _ h

theorem State.Canonical.putPieces {s : State} {c : Nat} {va : Word} {ps : List (Nat × List Val)} (h : s.Canonical) :
    (s.putPieces c va ps).Canonical := h.foldl (fun _ _ hs => hs.putArea)

theorem State.Canonical.savePart {s : State} {g : Gang} (h : s.Canonical) : (s.savePart g).Canonical :=
  .of_mem (((h.foldl (fun _ _ hs => hs.clearPage)).putPieces.putArea.putArea.foldl (fun _ _ hs => (hs.foldl (fun _ _ hs1 => .ite
    hs1.driveOut hs1)).modCore)).foldl (fun _ _ hs => hs.modStation)) rfl

theorem State.Canonical.copyArea {s : State} {c : Nat} {va : Word} {loc n : Nat} (h : s.Canonical) :
    (s.copyArea c va loc n).Canonical := by
  unfold State.copyArea
  refine h.foldl (fun s1 x1 hs => ?_)
  split
  · exact hs.putGranules
  · exact hs

theorem State.Canonical.install {s : State} {va : Word} {c0 : Nat} {v : Saved} {q part : Nat} {msgs : List Msg} (h : s.Canonical) :
    (s.install va c0 v q part msgs).Canonical := by
  unfold State.install
  refine .foldl (.foldl (.of_mem (((h.foldl (fun _ _ hs => hs.modCore.zeroRange.copyArea.copyArea)).foldl (fun _ _ hs =>
      hs.setStation)).foldl (fun _ _ hs => hs.setThread)) rfl) (fun _ _ hs => hs.foldl (fun _ _ hs1 => .ite hs1.nextElement hs1)))
      (fun s1 x1 hs => ?_)
  dsimp only
  split
  · exact hs.startTrap.trapNow
  · exact hs

theorem State.Canonical.loadPart {s : State} {g : Gang} {b : Val} (h : s.Canonical) : (s.loadPart g b).1.Canonical := by
  rw [State.loadPart]
  refine .iteFst h (.iteFst h ?_)
  dsimp only
  exact h.install

theorem State.Canonical.gangDone {s : State} {g : Gang} {value : Nat} (h : s.Canonical) : (s.gangDone g value).Canonical := by
  unfold State.gangDone
  refine .ite h ?_
  dsimp only
  split
  · exact h.completeWord.causeRecord
  · exact h.completeWord.signal

/-! ### Events of the device -/

theorem State.Canonical.markSpare {s old : State} (h : s.Canonical) : (s.markSpare old).Canonical :=
  h.of_mem (markSpare_mem ..)

theorem State.Canonical.resetBase {s : State} : s.resetBase.Canonical :=
  memWf_resetBase s

theorem State.Canonical.resetAgain {s : State} : s.resetAgain.Canonical :=
  memWf_resetAgain s

theorem State.Canonical.maintain {s : State} : s.maintain.Canonical :=
  .markSpare (.modDev .resetBase)

theorem State.Canonical.shiftLane {s : State} {stack lane : Nat} (h : s.Canonical) : (s.shiftLane stack lane).Canonical :=
  h.setStack.modHome.markSpare

theorem State.Canonical.windowRead {s : State} {off n : Nat} (h : s.Canonical) : (s.windowRead off n).1.Canonical :=
  .iteFst h.pullSpan h.pullSpan

theorem State.Canonical.windowWrite {s : State} {src : Outside} {off : Nat} {bytes : List Byte} (h : s.Canonical) :
    (s.windowWrite src off bytes).Canonical := by
  unfold State.windowWrite
  refine h.foldl (fun s1 x1 hs => ?_)
  dsimp only
  split
  · exact .of_mem hs rfl
  · exact hs

/-- Of the state and the reply, where there are any, the state has canonical storage. -/
def ReplyCanonical {β : Type} (x : Option (State × β)) : Prop := ∀ r, x = some r → r.1.Canonical

theorem ReplyCanonical.ofNone {β : Type} : ReplyCanonical (none : Option (State × β)) := fun _ h => nomatch h

theorem ReplyCanonical.ofSome {β : Type} {p : State × β} (h : p.1.Canonical) : ReplyCanonical (some p) :=
  fun _ hr => Option.some.inj hr ▸ h

theorem ReplyCanonical.ite {β : Type} {p : Prop} [Decidable p] {x y : Option (State × β)} (h : ReplyCanonical x)
    (h' : ReplyCanonical y) : ReplyCanonical (if p then x else y) := by
  split
  · exact h
  · exact h'

theorem State.Canonical.window {s : State} {src : Outside} {off len : Nat} {data : Option (List Byte)} (h : s.Canonical) :
    ReplyCanonical (s.window src off len data) := by
  unfold State.window
  refine .ite (.ofSome (.ite h.walkPages h)) ?_
  cases data with
  | none => exact .ite .ofNone (.ofSome (.windowRead (.ite h.walkPages h)))
  | some b => exact .ite (.ofSome (.ite h.walkPages h)) (.ofSome (.windowWrite (.ite h.walkPages h)))

theorem State.Canonical.msixWrite {s : State} {link vector : Nat} {e : Quad} (h : s.Canonical) :
    (s.msixWrite link vector e).Canonical := .ite h.modDev.modDev.signal h.modDev

theorem State.Canonical.barWrite {s : State} {link bar off : Nat} {bytes : List Byte} (h : s.Canonical) :
    (s.barWrite link bar off bytes).Canonical := .ite (.ite h.mgmtWrite h) (.ite h.intake (.ite h.msixWrite h))

theorem State.Canonical.hostAccess {s : State} {link bar off len : Nat} {data : Option (List Byte)} (h : s.Canonical) :
    SomeCanonical (s.hostAccess link bar off len data) := by
  unfold State.hostAccess
  refine .ite (fun r hr => ?_) (.ite h.emit.someOf ?_)
  · obtain ⟨x, hx, rfl⟩ := Option.map_eq_some_iff.mp hr
    split
    · exact (h.window _ hx).emit
    · exact h.window _ hx
    · exact (h.window _ hx).emit
  · split
    · exact h.emit.someOf
    · exact .ite .ofNone h.barWrite.someOf

theorem State.Canonical.folioRead {s : State} {c : Nat} {e : EngOp} {folio : List Byte} (h : s.Canonical) :
    (s.folioRead c e folio).Canonical := by
  unfold State.folioRead
  refine .ite h (.ite h.failEng ?_)
  have hr := h.restorePage (c := c) (id := e.id) (va := capCursor e.a.bits) (l := folio)
  generalize s.restorePage c e.id (capCursor e.a.bits) folio = r at hr ⊢
  obtain ⟨r1, f⟩ := r
  cases f with
  | some f => exact hr.failEng
  | none => exact hr

theorem State.Canonical.driveWrites {s : State} {e : EngOp} {dword : BitVec 32} {data : List Byte} (h : s.Canonical) :
    (s.driveWrites e dword data).Canonical := .emit (.modDev (.of_mem h.putSpan.putSpan rfl))

theorem State.Canonical.commandDone {s : State} {c : Nat} {e : EngOp} (h : s.Canonical) : (s.commandDone c e).Canonical :=
  .ite h.modEng (.ite h.modEng (.ite h.failEng.modEng h.folioRead.modEng))

theorem State.Canonical.driveAnswer {s : State} {c : Nat} {e : EngOp} {status : BitVec 32} {data : List Byte} (h : s.Canonical) :
    (s.driveAnswer c e status data).Canonical :=
  .driveOut (.ite h.driveWrites.driveFail.failEng.modEng (.ite h.driveWrites.modEng h.driveWrites.commandDone))

theorem State.Canonical.mgmtEvent {s : State} {k : MgmtClass} {off : Nat} {v : Word} (h : s.Canonical) :
    NextCanonical (Machine.mgmtEvent k off v s) :=
  .happens h.mgmtWrite.whenever

/-! ### Steps that meet a stalled bank -/

theorem NextCanonical.orStall {o other : Host.Outcome State Fault Refusal} (h : NextCanonical o) (h' : NextCanonical other) :
    NextCanonical (Machine.orStall o other) := by
  cases o with
  | next s => exact .ite h' h
  | _ => exact h

/-! ### The capability family -/

theorem State.Canonical.finishCap {d : Opn} {v : Val} {s : State} (h : s.Canonical) : OkCanonical (finishCap d v s) := h.finish

theorem State.Canonical.capTrap {c : Code} : OkCanonical (capTrap c) := .ofError

theorem EffectCanonical.cursorEffect {d : Opn} {new : Vals → Word} : EffectCanonical (cursorEffect d new) :=
  fun _ _ _ hs => .ite State.Canonical.capTrap hs.finishCap

/-! ### The control family -/

theorem State.Canonical.jumpRel {s : State} {th : Thread} {a : Int} {k : State → State} (h : s.Canonical)
    (hk : ∀ s, s.Canonical → (k s).Canonical) : OkCanonical (Machine.jumpRel s th a k) := by
  unfold Machine.jumpRel
  split
  · exact .ofError
  · exact (hk _ h.modThread).okOf

theorem EffectCanonical.branchEffect {w : Nat} {off : BitVec w} {cond : Word → Word → Bool} :
    EffectCanonical (branchEffect off cond) := fun _ _ _ hs => .ite (hs.jumpRel (fun _ hs1 => hs1)) hs.okOf

/-! ### Lane slices -/

theorem EffectCanonical.laneEffect {o : LaneOps} {k : List (Nat × Nat) → Thread → State → Except Stop State}
    (hk : ∀ l th s, s.Canonical → OkCanonical (k l th s)) : EffectCanonical (Machine.laneEffect o k) := by
  intro v th s hs
  unfold Machine.laneEffect
  dsimp only
  split
  · exact .ofError
  · exact hk _ th s hs

theorem State.Canonical.storeLanes {th : Thread} {s : State} {l : List ((Nat × Nat) × Nat)} (h : s.Canonical) :
    (storeLanes th s l).Canonical := h.foldl (fun _ _ hs => hs.store)

end Sys2Proof.Machine
end

section
/-!
Storage keeps its canonical form through the instructions whose effect has cases of its own; the others stand in
`State.Canonical.exec`.
-/

namespace Sys2Proof.Machine

/-! ### Packed groups -/

theorem State.Canonical.execVcvt {k : Pk} {c : Opn} {src : BitVec 6} {mask scl : Bool} {s : State} (h : s.Canonical) :
    NextCanonical (execVcvt k c src mask scl s) :=
  h.issue (fun _ _ _ hs => .ite hs.putGroup.settleFloat.okOf (.ite State.Canonical.abandonTrap hs.putGroup.settleFloat.okOf))

/-! ### Curve codes -/

theorem State.Canonical.execCqnext {o : BoxOps} {s : State} (h : s.Canonical) : NextCanonical (execCqnext o s) := by
  unfold Machine.execCqnext
  refine h.issue (fun v _ s hs => ?_)
  split
  · exact .ofError
  · exact hs.deferResult.okOf

theorem State.Canonical.execCqflags {o : UnOps} {s : State} (h : s.Canonical) : NextCanonical (execCqflags o s) := by
  unfold Machine.execCqflags
  refine h.issue (fun v _ s hs => ?_)
  split
  · exact .ofError
  · exact hs.putGroup.modThread.okOf

/-! ### Loads, stores and travel -/

theorem State.Canonical.execLd {m : MemOps} {sz : BitVec 3} {sx go : Bool} {s : State} (h : s.Canonical) :
    NextCanonical (execLd m sz sx go s) := by
  unfold Machine.execLd
  refine h.issue (fun v th s hs => ?_)
  dsimp only
  split
  · exact .ofError
  · next heq =>
    refine (hs.accessStep _ heq).withTravel (fun s1 hs1 => ?_)
    split
    · exact hs1.modCore.setBank.deferResult.okOf
    · exact hs1.roomFor.launch.okOf

theorem State.Canonical.execSt {m : MemOps} {sz : BitVec 3} {go : Bool} {s : State} (h : s.Canonical) :
    NextCanonical (execSt m sz go s) := by
  unfold Machine.execSt
  refine h.issue (fun v th s hs => ?_)
  dsimp only
  split
  · exact .ofError
  · next heq =>
    exact (hs.accessStep _ heq).withTravel (fun _ hs1 => .ite hs1.launch.okOf (hs1.post (fun _ hs1 => hs1.plainRun)).okOf)

theorem State.Canonical.execLda {m : MemOps} {sz : BitVec 3} {s : State} (h : s.Canonical) : NextCanonical (execLda m sz s) := by
  unfold Machine.execLda
  refine h.issue (fun v th s hs => ?_)
  dsimp only
  split
  · exact .ofError
  · next heq => exact (hs.accessStep _ heq).launch.okOf

theorem State.Canonical.execStl {m : MemOps} {sz : BitVec 3} {s : State} (h : s.Canonical) : NextCanonical (execStl m sz s) := by
  unfold Machine.execStl
  refine h.issue (fun v th s hs => ?_)
  dsimp only
  split
  · exact .ofError
  · next heq => exact (hs.accessStep _ heq).launch.okOf

theorem State.Canonical.execLdcap {m : MemOps} {s : State} (h : s.Canonical) : NextCanonical (execLdcap m s) := by
  unfold Machine.execLdcap
  refine h.issue (fun v th s hs => ?_)
  dsimp only
  split
  · exact .ofError
  · split
    · next heq _ _ _ => exact (hs.accessStep _ heq).modCore.setBank.deferResult.okOf
    · next heq _ _ => exact (hs.accessStep _ heq).roomFor.launch.okOf

theorem State.Canonical.execStcap {m : MemOps} {s : State} (h : s.Canonical) : NextCanonical (execStcap m s) := by
  unfold Machine.execStcap
  refine h.issue (fun v th s hs => ?_)
  dsimp only
  split
  · exact .ofError
  · split
    · exact .ofError
    · next heq => exact .ite (hs.accessStep _ heq).launch.okOf ((hs.accessStep _ heq).post (fun _ hs1 => hs1.plainRun)).okOf

theorem State.Canonical.execPref {m : MemOps} {home : Bool} {s : State} (h : s.Canonical) :
    NextCanonical (execPref m home s) := by
  unfold Machine.execPref
  refine h.issue (fun v th s hs => .ite hs.okOf ?_)
  split
  · exact .ofError
  · next heq => exact .ite .ofError (hs.translate _ heq).launch.okOf

theorem State.Canonical.execZline {m : MemOps} {s : State} (h : s.Canonical) : NextCanonical (execZline m s) := by
  unfold Machine.execZline
  refine h.issue (fun v th s hs => ?_)
  dsimp only
  split
  · exact .ofError
  · next heq => exact ((hs.accessStep _ heq).post (fun _ hs1 => hs1.plainSectors)).okOf

theorem State.Canonical.execMig {m : MemOps} {s : State} (h : s.Canonical) : NextCanonical (execMig m s) := by
  unfold Machine.execMig
  refine h.issue (fun v th s hs => ?_)
  dsimp only
  split
  · exact .ofError
  · split
    · exact .ofError
    · next heq => exact (hs.translate _ heq).withTravel (fun _ hs1 => hs1.okOf)

/-! ### Atomics and full/empty words -/

theorem State.Canonical.execAmo {o : AmoOps} {s : State} (h : s.Canonical) : NextCanonical (execAmo o s) := by
  unfold Machine.execAmo
  refine h.issue (fun v th s hs => ?_)
  dsimp only
  split
  · exact .ofError
  · next heq => exact (hs.accessStep _ heq).giveUp.issueHome

theorem State.Canonical.execCas {o : CasOps} {s : State} (h : s.Canonical) : NextCanonical (execCas o s) := by
  unfold Machine.execCas
  refine h.issue (fun v th s hs => ?_)
  dsimp only
  split
  · exact .ofError
  · next heq => exact (hs.accessStep _ heq).giveUp.issueHome

theorem State.Canonical.execTopkins {o : TopkOps} {s : State} (h : s.Canonical) : NextCanonical (execTopkins o s) := by
  unfold Machine.execTopkins
  refine h.issue (fun v th s hs => ?_)
  dsimp only
  split
  · exact .ofError
  · next heq => exact ((hs.accessStep _ heq).foldl (fun _ _ hs1 => hs1.giveUp)).issueHome

theorem State.Canonical.execWld {m : MemOps} {take : Bool} {s : State} (h : s.Canonical) : NextCanonical (execWld m take s) := by
  unfold Machine.execWld
  refine h.issue (fun v th s hs => ?_)
  dsimp only
  split
  · exact .ofError
  · next heq => exact (hs.accessStep _ heq).issueHome

theorem State.Canonical.execFill {m : MemOps} {s : State} (h : s.Canonical) : NextCanonical (execFill m s) := by
  unfold Machine.execFill
  refine h.issue (fun v th s hs => ?_)
  dsimp only
  split
  · exact .ofError
  · next heq => exact (hs.accessStep _ heq).issueHome

theorem State.Canonical.execEmpty {m : MemOps} {s : State} (h : s.Canonical) : NextCanonical (execEmpty m s) := by
  unfold Machine.execEmpty
  refine h.issue (fun v th s hs => ?_)
  dsimp only
  split
  · exact .ofError
  · next heq => exact (hs.accessStep _ heq).issueHome

theorem State.Canonical.execFest {m : MemOps} {s : State} (h : s.Canonical) : NextCanonical (execFest m s) := by
  unfold Machine.execFest
  refine h.issue (fun v th s hs => ?_)
  dsimp only
  split
  · exact .ofError
  · next heq => exact (hs.accessStep _ heq).issueHome

theorem State.Canonical.execWaitne {o : WaitneOps} {s : State} (h : s.Canonical) : NextCanonical (execWaitne o s) := by
  unfold Machine.execWaitne
  refine h.issue (fun v th s hs => ?_)
  dsimp only
  split
  · exact .ofError
  · next heq => exact (hs.accessStep _ heq).issueHome

/-! ### Engine instructions -/

theorem State.Canonical.execCopy {o : EngOps} {s : State} (h : s.Canonical) : NextCanonical (execCopy o s) := by
  unfold Machine.execCopy
  refine h.issue (fun v th s hs => ?_)
  dsimp only
  split
  · exact .ofError
  · split
    · exact .ofError
    · split
      · exact .ofError
      · exact hs.toEngine

theorem State.Canonical.execArcout {o : EngOps} {s : State} (h : s.Canonical) : NextCanonical (execArcout o s) := by
  unfold Machine.execArcout
  refine h.issue (fun v th s hs => ?_)
  dsimp only
  split
  · exact .ofError
  · refine .ite .ofError ?_
    split
    · exact .ofError
    · exact hs.toEngine

theorem State.Canonical.execArcin {o : ArcinOps} {s : State} (h : s.Canonical) : NextCanonical (execArcin o s) := by
  unfold Machine.execArcin
  refine h.issue (fun v th s hs => ?_)
  split
  · exact .ofError
  · split
    · exact .ofError
    · exact hs.toEngine

theorem State.Canonical.execArcdrop {o : DropOps} {s : State} (h : s.Canonical) : NextCanonical (execArcdrop o s) := by
  unfold Machine.execArcdrop
  refine h.issue (fun v th s hs => ?_)
  split
  · exact .ofError
  · exact hs.toEngine

theorem State.Canonical.execWayconv {p : Pfx} {d a : Opn} {ways : BitVec 4} {s : State} (h : s.Canonical) :
    NextCanonical (execWayconv p d a ways s) := by
  unfold Machine.execWayconv
  refine h.issue (fun v th s hs => .ite .ofError ?_)
  split
  · exact .ofError
  · exact hs.convert.finish

theorem State.Canonical.execCqsplit {o : SplitOps} {s : State} (h : s.Canonical) : NextCanonical (execCqsplit o s) := by
  unfold Machine.execCqsplit
  refine h.issue (fun v th s hs => ?_)
  dsimp only
  split
  · exact .ofError
  · exact .ofError
  · split
    · exact .ofError
    · next heq => exact (hs.accessStep _ heq).startOp.storeEntries.setPhase.okOf

/-! ### Mark instructions -/

theorem State.Canonical.execMdep {o : MarkOps} {s : State} (h : s.Canonical) : NextCanonical (execMdep o s) := by
  unfold Machine.execMdep
  refine h.issue (fun v th s hs => ?_)
  dsimp only
  split
  · exact .ofError
  · exact hs.sendMark

theorem State.Canonical.execMerase {o : MarkOps} {s : State} (h : s.Canonical) : NextCanonical (execMerase o s) := by
  unfold Machine.execMerase
  refine h.issue (fun v th s hs => ?_)
  dsimp only
  split
  · exact .ofError
  · exact hs.sendMark

theorem State.Canonical.execMread {o : MarkOps} {s : State} (h : s.Canonical) : NextCanonical (execMread o s) := by
  unfold Machine.execMread
  refine h.issue (fun v th s hs => ?_)
  dsimp only
  split
  · exact .ofError
  · exact hs.sendMark

theorem State.Canonical.execMsense {o : SenseOps} {s : State} (h : s.Canonical) : NextCanonical (execMsense o s) := by
  unfold Machine.execMsense
  refine h.issue (fun v th s hs => ?_)
  dsimp only
  split
  · exact .ofError
  · exact hs.sendBox

theorem State.Canonical.execMsamp {o : SenseOps} {s : State} (h : s.Canonical) : NextCanonical (execMsamp o s) := by
  unfold Machine.execMsamp
  refine h.issue (fun v th s hs => ?_)
  dsimp only
  split
  · exact .ofError
  · exact hs.modThread.sendBox

theorem State.Canonical.execMtick {o : DomOps} {s : State} (h : s.Canonical) : NextCanonical (execMtick o s) := by
  unfold Machine.execMtick
  refine h.issue (fun v th s hs => .ite .ofError ?_)
  split
  · exact .ofError
  · refine .ite hs.finish ?_
    split
    · exact .ofError
    · next heq => exact (hs.translate _ heq).issueHome

theorem State.Canonical.execMbind {o : DomOps} {s : State} (h : s.Canonical) : NextCanonical (execMbind o s) := by
  unfold Machine.execMbind
  refine h.issue (fun v th s hs => ?_)
  dsimp only
  split
  · exact .ofError
  · refine .ite .ofError ?_
    split
    · exact .ofError
    · refine .ite .ofError ?_
      split
      · exact .ofError
      · exact .ite hs.pullSpan.finish (hs.pullSpan.modMark.yieldCells.foldl (fun _ _ hs1 => hs1.modHome)).bindOp.okOf

/-! ### Tiles -/

theorem State.Canonical.execMacz {p : Pfx} {d : Opn} {rel : Bool} {s : State} (h : s.Canonical) :
    NextCanonical (execMacz p d rel s) := by
  unfold Machine.execMacz
  refine h.issue (fun _ th s hs => ?_)
  dsimp only
  split
  · exact .ofError
  · exact hs.claimTile.modTile.okOf

theorem State.Canonical.execMacld {o : MacldOps} {s : State} (h : s.Canonical) : NextCanonical (execMacld o s) := by
  unfold Machine.execMacld
  refine h.issue (fun v th s hs => ?_)
  dsimp only
  split
  · exact .ofError
  · split
    · exact .ofError
    · next heq =>
      exact .ite .ofError (((hs.accessStep _ heq).foldl (fun _ _ hs1 => hs1.pullSpan)).claimTile.modTile.foldl (fun _ _ hs1 =>
          hs1.setBanks)).startOp.okOf

theorem State.Canonical.execMacst {o : MacstOps} {s : State} (h : s.Canonical) : NextCanonical (execMacst o s) := by
  refine h.issue fun v th s hs => ?_
  dsimp only
  split
  · exact .ofError
  · split
    · exact .ofError
    · next r heq =>
      refine State.Canonical.okOf (.ite (.modTile (.raise (.post ?_ fun _ hs => ?_))) (.raise (.post ?_ fun _ hs => ?_)))
      · exact (hs.accessStep _ heq).claimTile
      · exact .foldlFst hs fun _ _ hp => hp.plainRun
      · exact (hs.accessStep _ heq).claimTile
      · exact .foldlFst hs fun _ _ hp => hp.plainRun

theorem State.Canonical.execMhset {p : Pfx} {a b : Opn} {s : State} (h : s.Canonical) : NextCanonical (execMhset p a b s) := by
  unfold Machine.execMhset
  refine h.issue (fun v th s hs => ?_)
  split
  · exact .ofError
  · exact hs.modCore.okOf

theorem State.Canonical.execMdrain {p : Pfx} {d a : Opn} {id : BitVec 16} {s : State} (h : s.Canonical) :
    NextCanonical (execMdrain p d a id s) := by
  unfold Machine.execMdrain
  refine h.issue (fun v th s hs => ?_)
  dsimp only
  split
  · exact .ofError
  · refine .ite .ofError (.ite .ofError ?_)
    split
    · exact .ofError
    · exact hs.claimTile.queueDrain.launch.okOf

/-! ### Scheduling -/

theorem State.Canonical.execSpawn {o : SchedOps} {c : Opn} {cl : BitVec 8} {s : State} (h : s.Canonical) :
    NextCanonical (execSpawn o c cl s) := by
  unfold Machine.execSpawn
  refine h.issue (.sched (fun v th s hs => ?_))
  dsimp only
  split
  · exact .ofError
  · next heq => exact (hs.accessStep _ heq).launch.okOf

theorem State.Canonical.execCrew {o : SchedOps} {n : Option (BitVec 16)} {s : State} (h : s.Canonical) :
    NextCanonical (execCrew o n s) := by
  unfold Machine.execCrew
  refine h.issue (.sched (fun v th s hs => .ite .ofError ?_))
  split
  · exact .ofError
  · exact .ite hs.outResult.okOf hs.modCore.startOp.okOf

/-! ### System instructions -/

theorem State.Canonical.execWrs {a : Opn} {n : BitVec 12} {s : State} (h : s.Canonical) : NextCanonical (execWrs a n s) := by
  unfold Machine.execWrs
  refine h.issue (fun v th s hs => ?_)
  split
  · exact .ofError
  · exact .ite .ofError (.ite hs.modThread.okOf hs.modCore.okOf)

theorem State.Canonical.execGang {o : GangOps} {s : State} (h : s.Canonical) : NextCanonical (execGang o s) := by
  unfold Machine.execGang
  refine h.issue (fun v th s hs => .ite .ofError ?_)
  split
  · exact .ofError
  · split
    · exact .ofError
    · exact State.Canonical.finish (.ite (.of_mem hs rfl) hs)

theorem State.Canonical.execPgmove {d a b : Opn} {s : State} (h : s.Canonical) : NextCanonical (execPgmove d a b s) := by
  unfold Machine.execPgmove
  refine h.issue (fun v th s hs => .ite .ofError ?_)
  split
  · exact .ofError
  · exact hs.launch.okOf

/-! ### The capability family -/

theorem State.Canonical.execCsetb {o : IntOps} {s : State} (h : s.Canonical) : NextCanonical (execCsetb o s) := by
  unfold Machine.execCsetb
  refine h.issue (fun v _ s hs => ?_)
  split
  · exact hs.finishCap
  · exact State.Canonical.capTrap

theorem State.Canonical.execCseal {o : BinOps} {entry : Bool} {s : State} (h : s.Canonical) :
    NextCanonical (execCseal o entry s) := by
  unfold Machine.execCseal
  refine h.issue (fun v _ s hs => ?_)
  split
  · exact State.Canonical.capTrap
  · exact hs.finishCap

theorem State.Canonical.execCunseal {o : BinOps} {s : State} (h : s.Canonical) : NextCanonical (execCunseal o s) := by
  unfold Machine.execCunseal
  refine h.issue (fun v _ s hs => ?_)
  split
  · exact State.Canonical.capTrap
  · exact hs.finishCap

/-! ### The control family -/

theorem State.Canonical.execJmpc {d a : Opn} {s : State} (h : s.Canonical) : NextCanonical (execJmpc d a s) := by
  unfold Machine.execJmpc
  refine h.issue (fun v th s hs => ?_)
  split
  · exact .ofError
  · exact hs.modThread.putDest.okOf

/-! ### Lane slices -/

theorem State.Canonical.execLadd {o : LaneOps} {s : State} (h : s.Canonical) : NextCanonical (execLadd o s) :=
  h.issue (.laneEffect (fun _ _ _ hs => .ite State.Canonical.abandonTrap hs.storeLanes.settleFloat.okOf))

end Sys2Proof.Machine
end

section
/-!
Every event, and with it every step, keeps storage in its canonical form.
-/

namespace Sys2Proof.Machine

/-! ### Events of threads -/

theorem State.Canonical.execThreadTurn {t : Nat} {s : State} (h : s.Canonical) : NextCanonical (execThreadTurn t s) := by
  unfold Machine.execThreadTurn
  refine .happens ?_
  split
  · exact h.turn.whenever
  · exact .ofNone

theorem State.Canonical.execBudgetTrap {t : Nat} {s : State} (h : s.Canonical) : NextCanonical (execBudgetTrap t s) := by
  unfold Machine.execBudgetTrap
  refine .happens ?_
  split
  · exact .ite h.budgetTurn .ofNone
  · exact .ofNone

theorem State.Canonical.execTrapEntry {t : Nat} {s : State} (h : s.Canonical) : NextCanonical (execTrapEntry t s) := by
  unfold Machine.execTrapEntry
  refine .happens ?_
  split
  · exact h.enterTrap.settleDrains.whenever
  · exact .ofNone

theorem State.Canonical.execResultArrival {t op : Nat} {s : State} (h : s.Canonical) :
    NextCanonical (execResultArrival t op s) := by
  unfold Machine.execResultArrival
  refine .happens ?_
  split
  · split
    · exact h.arrive.whenever
    · exact .ofNone
  · exact .ofNone

theorem State.Canonical.execPostedAck {t op : Nat} {s : State} (h : s.Canonical) : NextCanonical (execPostedAck t op s) := by
  unfold Machine.execPostedAck
  refine .happens ?_
  split
  · split
    · exact h.arrive.whenever
    · exact .ofNone
  · exact .ofNone

theorem State.Canonical.execHomeRefusal {t op : Nat} {s : State} (h : s.Canonical) : NextCanonical (execHomeRefusal t op s) := by
  unfold Machine.execHomeRefusal
  refine .happens ?_
  split
  · split
    · refine State.Canonical.someOf (.modThread ?_)
      split
      · exact h.unclaim
      · exact h
    · exact .ofNone
  · exact .ofNone

theorem State.Canonical.execHomeAcknowledgement {t op : Nat} {s : State} (h : s.Canonical) :
    NextCanonical (execHomeAcknowledgement t op s) := by
  refine .happens (.ite .ofNone ?_)
  split
  · split
    · exact .whenever (.ite h.arrive h.completeOut)
    · refine .ite h.modThread.someOf fun r hr => ?_
      obtain ⟨x, hx, rfl⟩ := Option.map_eq_some_iff.mp hr
      exact .ite (h.finishAct _ hx).settleAll (h.finishAct _ hx)
    · exact .ofNone
  · exact .ofNone

theorem State.Canonical.execWaitResend {t : Nat} {s : State} (h : s.Canonical) : NextCanonical (execWaitResend t s) := by
  unfold Machine.execWaitResend
  refine .happens ?_
  split
  · split
    · exact h.modThread.sendAccess.whenever
    · exact .ofNone
  · exact .ofNone

theorem State.Canonical.execParkResume {t : Nat} {s : State} (h : s.Canonical) : NextCanonical (execParkResume t s) := by
  unfold Machine.execParkResume
  refine .happens ?_
  split
  · split
    · exact h.unpark.whenever
    · exact .ofNone
  · exact .ofNone

theorem State.Canonical.execSleepExpiry {t : Nat} {s : State} (h : s.Canonical) : NextCanonical (execSleepExpiry t s) := by
  unfold Machine.execSleepExpiry
  refine .happens ?_
  split
  · split
    · exact h.modThread.whenever
    · exact .ofNone
  · exact .ofNone

theorem State.Canonical.execPlbFill {t : Nat} {s : State} (h : s.Canonical) : NextCanonical (execPlbFill t s) := by
  unfold Machine.execPlbFill
  refine .happens ?_
  split
  · split
    · exact h.fillPlb.someOf
    · exact .ofNone
  · exact .ofNone

/-! ### Events of homes -/

theorem State.Canonical.execHomeAccess {m : Nat} {s : State} (h : s.Canonical) : NextCanonical (execHomeAccess m s) := by
  unfold Machine.execHomeAccess
  refine .happens ?_
  split
  · refine .ite .ofNone ?_
    split
    · exact h.forcePull.whenever
    · exact .ite (h.getD h.noteAwaited).dropMsg.touchLines.access.someOf (h.getD h.noteAwaited).startPulls.whenever
  · exact .ofNone

theorem State.Canonical.execRegistration {m : Nat} {s : State} (h : s.Canonical) : NextCanonical (execRegistration m s) := by
  unfold Machine.execRegistration
  refine .happens ?_
  split
  · split
    · exact h.dropMsg.registerAt.someOf
    · exact .ofNone
  · exact .ofNone

theorem State.Canonical.execProbe {m : Nat} {s : State} (h : s.Canonical) : NextCanonical (execProbe m s) := by
  unfold Machine.execProbe
  refine .happens ?_
  split
  · split
    · exact h.dropMsg.probeAt.someOf
    · exact .ofNone
  · exact .ofNone

theorem State.Canonical.execProbeEcho {m : Nat} {s : State} (h : s.Canonical) : NextCanonical (execProbeEcho m s) := by
  unfold Machine.execProbeEcho
  refine .happens ?_
  split
  · split
    · exact h.dropMsg.echoed.someOf
    · exact .ofNone
  · exact .ofNone

theorem State.Canonical.execWriteBack {m : Nat} {s : State} (h : s.Canonical) : NextCanonical (execWriteBack m s) := by
  unfold Machine.execWriteBack
  refine .happens ?_
  split
  · refine .ite .ofNone ?_
    split
    · refine State.Canonical.someOf ?_
      split
      · exact h.dropMsg.wbackAt.flushedOne
      · exact h.dropMsg.wbackAt
    · exact .ofNone
  · exact .ofNone

theorem State.Canonical.execPull {m : Nat} {s : State} (h : s.Canonical) : NextCanonical (execPull m s) := by
  unfold Machine.execPull
  refine .happens ?_
  split
  · split
    · exact h.pulled
    · exact .ofNone
  · exact .ofNone

theorem State.Canonical.execPullReply {m : Nat} {s : State} (h : s.Canonical) : NextCanonical (execPullReply m s) := by
  unfold Machine.execPullReply
  refine .happens ?_
  split
  · split
    · exact h.dropMsg.pullAnswered.someOf
    · exact .ofNone
  · exact .ofNone

theorem State.Canonical.execHomeWalk {m : Nat} {s : State} (h : s.Canonical) : NextCanonical (execHomeWalk m s) := by
  unfold Machine.execHomeWalk
  refine .happens ?_
  split
  · split
    · exact h.walkPage.whenever
    · exact .ofNone
  · exact .ofNone

theorem State.Canonical.execWaitRecordDelivery {m : Nat} {s : State} (h : s.Canonical) :
    NextCanonical (execWaitRecordDelivery m s) := by
  unfold Machine.execWaitRecordDelivery
  refine .happens ?_
  split
  · split
    · exact h.dropMsg.sampleCore.delivered.whenever
    · exact .ofNone
  · exact .ofNone

/-! ### Events of queues -/

theorem State.Canonical.execSwapOut {t : Nat} {s : State} (h : s.Canonical) : NextCanonical (execSwapOut t s) := by
  unfold Machine.execSwapOut
  refine .happens ?_
  split
  · split
    · refine .ite .ofNone ?_
      split
      · exact h.swapOut.someOf
      · exact h.modThread.countStation.whenever
    · exact .ofNone
  · exact .ofNone

theorem State.Canonical.execSwappedWake {cluster entry : Nat} {s : State} (h : s.Canonical) :
    NextCanonical (execSwappedWake cluster entry s) := by
  unfold Machine.execSwappedWake
  refine .happens ?_
  split
  · exact .ite .ofNone (.ite h.requeue.whenever h.modStation.requeue.whenever)
  · exact .ofNone

theorem State.Canonical.execStagingDone {cluster : Nat} {task : Word} {s : State} (h : s.Canonical) :
    NextCanonical (execStagingDone cluster task s) := by
  unfold Machine.execStagingDone
  refine .happens ?_
  split
  · exact h.walkPages.pinRanges.putStation.whenever
  · exact .ofNone

theorem State.Canonical.execCrewMemberStart {core slot : Nat} {s : State} (h : s.Canonical) :
    NextCanonical (execCrewMemberStart core slot s) := by
  unfold Machine.execCrewMemberStart
  refine .happens ?_
  split
  · exact h.startMember.whenever
  · exact .ofNone

theorem State.Canonical.execTravelArrival {m : Nat} {s : State} (h : s.Canonical) : NextCanonical (execTravelArrival m s) := by
  unfold Machine.execTravelArrival
  refine .happens ?_
  split
  · split
    · exact .ite h.dropMsg.modCore.someOf (State.Canonical.someOf (.of_mem h rfl))
    · exact .ofNone
  · exact .ofNone

theorem State.Canonical.execStealRequest {cluster : Nat} {s : State} (h : s.Canonical) :
    NextCanonical (execStealRequest cluster s) := by
  unfold Machine.execStealRequest
  refine .happens ?_
  split
  · exact h.steal.whenever
  · exact .ofNone

theorem State.Canonical.execStealReply {m : Nat} {s : State} (h : s.Canonical) : NextCanonical (execStealReply m s) := by
  unfold Machine.execStealReply
  refine .happens ?_
  split
  · split
    · exact h.requeueAll.dropMsg.stolen.whenever
    · exact .ofNone
  · exact .ofNone

/-! ### Events of units -/

theorem State.Canonical.execEngineStart {core : Nat} {s : State} (h : s.Canonical) : NextCanonical (execEngineStart core s) := by
  refine .happens (.ite .ofNone ?_)
  split
  · next r heq =>
    obtain ⟨l, e, l', -, hr, -⟩ := List.findSome?_eq_some_iff.mp heq
    exact (h.nextCommand _ hr).someOf
  · exact .map fun _ => h.startEngine

theorem State.Canonical.execEngineCompletion {core id : Nat} {s : State} (h : s.Canonical) :
    NextCanonical (execEngineCompletion core id s) := by
  unfold Machine.execEngineCompletion
  refine .happens ?_
  split
  · exact h.endEngine.whenever
  · exact .ofNone

theorem State.Canonical.execMacldRowArrival {t op : Nat} {s : State} (h : s.Canonical) :
    NextCanonical (execMacldRowArrival t op s) := by
  unfold Machine.execMacldRowArrival
  refine .happens ?_
  split
  · split
    · exact h.rowArrives.whenever
    · exact .ofNone
  · exact .ofNone

theorem State.Canonical.execRowHandlerDispatch {core slot : Nat} {s : State} (h : s.Canonical) :
    NextCanonical (execRowHandlerDispatch core slot s) := by
  unfold Machine.execRowHandlerDispatch
  refine .happens ?_
  split
  · exact h.dispatchRow.whenever
  · exact .ofNone

theorem State.Canonical.execHandlerOverrun {core slot : Nat} {s : State} (h : s.Canonical) :
    NextCanonical (execHandlerOverrun core slot s) := by
  unfold Machine.execHandlerOverrun
  refine .happens ?_
  split
  · split
    · exact h.overrun.whenever
    · exact .ofNone
  · exact .ofNone

theorem State.Canonical.execRepartComplete {core : Nat} {s : State} (h : s.Canonical) :
    NextCanonical (execRepartComplete core s) := by
  unfold Machine.execRepartComplete
  refine .happens ?_
  split
  · exact .ite h.modCore.trapInstead.whenever (.ite .ofNone (.ite h.modCore.completeOut.someOf h.repartDone.whenever))
  · exact .ofNone

theorem State.Canonical.execTickMessage {m : Nat} {s : State} (h : s.Canonical) : NextCanonical (execTickMessage m s) := by
  unfold Machine.execTickMessage
  refine .happens ?_
  split
  · split
    · exact h.dropMsg.applyTick.whenever
    · exact .ofNone
  · exact .ofNone

theorem State.Canonical.execMbindRewrite {home dom : Nat} {s : State} (h : s.Canonical) :
    NextCanonical (execMbindRewrite home dom s) := by
  unfold Machine.execMbindRewrite
  refine .happens ?_
  split
  · exact (h.foldl (fun _ _ hs => hs.rewriteCell)).endWork.takeReply.whenever
  · exact .ofNone

theorem State.Canonical.execMunbindHome {home dom : Nat} {s : State} (h : s.Canonical) :
    NextCanonical (execMunbindHome home dom s) := by
  unfold Machine.execMunbindHome
  refine .happens ?_
  split
  · exact h.updateCells.endWork.takeReply.whenever
  · exact .ofNone

theorem State.Canonical.execLinkDelivery {core : Nat} {side : Side} {s : State} (h : s.Canonical) :
    NextCanonical (execLinkDelivery core side s) := by
  unfold Machine.execLinkDelivery
  refine .happens ?_
  split
  · exact h.modCore.modCore.whenever
  · exact .ofNone

theorem State.Canonical.execLoopInsertion {m : Nat} {s : State} (h : s.Canonical) : NextCanonical (execLoopInsertion m s) := by
  unfold Machine.execLoopInsertion
  refine .happens ?_
  split
  · refine .ite .ofNone ?_
    split
    · exact h.setRide.whenever
    · exact .ite h.someOf (.ite h.eject.sampleTransit.someOf h.setRide.someOf)
    · exact .ofNone
  · exact .ofNone

theorem State.Canonical.execSlotReservation {m : Nat} {s : State} (h : s.Canonical) :
    NextCanonical (execSlotReservation m s) := by
  unfold Machine.execSlotReservation
  refine .happens ?_
  split
  · split
    · exact h.setRide.whenever
    · exact .ofNone
  · exact .ofNone

/-! ### Gang switches -/

theorem State.Canonical.execGangStop {part : Nat} {s : State} (h : s.Canonical) : NextCanonical (execGangStop part s) := by
  unfold Machine.execGangStop
  refine .happens ?_
  split
  · exact State.Canonical.whenever (.of_mem ((h.foldl (fun _ _ hs => .modCore (.ite hs hs.writeBackAll))).foldl (fun _ _ hs =>
      hs.modStation)) rfl)
  · exact .ofNone

theorem State.Canonical.execFalloutCapture {m : Nat} {s : State} (h : s.Canonical) : NextCanonical (execFalloutCapture m s) := by
  unfold Machine.execFalloutCapture
  refine .happens ?_
  split
  · exact .map (fun _ => h.capture)
  · exact .ofNone

theorem State.Canonical.execGangLoad {part : Nat} {s : State} (h : s.Canonical) : NextCanonical (execGangLoad part s) := by
  unfold Machine.execGangLoad
  refine .happens ?_
  split
  · refine .ite .ofNone (State.Canonical.someOf (.gangDone ?_))
    dsimp only
    split
    · exact .of_mem h.savePart.loadPart rfl
    · exact .of_mem h.savePart rfl
  · exact .ofNone

/-! ### Events of the device -/

theorem State.Canonical.execDeviceReset {s : State} : NextCanonical (execDeviceReset s) :=
  .happens (State.Canonical.someOf .resetAgain)

theorem State.Canonical.execMaintenanceReset {s : State} : NextCanonical (execMaintenanceReset s) :=
  .happens (State.Canonical.someOf .maintain)

theorem State.Canonical.execPeerWindowAccess {port off len : Nat} {data : Option (List Byte)} {s : State} (h : s.Canonical) :
    NextCanonical (execPeerWindowAccess port off len data s) := by
  refine .happens (.ite .ofNone fun r hr => ?_)
  obtain ⟨x, hx, rfl⟩ := Option.map_eq_some_iff.mp hr
  split
  · exact (h.window _ hx).emit
  · exact h.window _ hx
  · exact (h.window _ hx).emit

theorem State.Canonical.execArchiveDriveCompletion {core id : Nat} {status : BitVec 32} {folio : List Byte} {s : State}
    (h : s.Canonical) :
    NextCanonical (execArchiveDriveCompletion core id status folio s) := by
  unfold Machine.execArchiveDriveCompletion
  refine .happens ?_
  split
  · exact h.driveAnswer.whenever
  · exact .ofNone

theorem State.Canonical.execArchiveTimeout {core id : Nat} {s : State} (h : s.Canonical) :
    NextCanonical (execArchiveTimeout core id s) := by
  unfold Machine.execArchiveTimeout
  refine .happens ?_
  split
  · exact h.failEng.modEng.driveFail.driveOut.whenever
  · exact .ofNone

theorem State.Canonical.execHwinWrite {v : Word} {s : State} (h : s.Canonical) : NextCanonical (execHwinWrite v s) := h.mgmtEvent

theorem State.Canonical.execPwrlimWrite {v : Word} {s : State} (h : s.Canonical) : NextCanonical (execPwrlimWrite v s) :=
  h.mgmtEvent

/-! ### The step -/

/-- Every instruction and every event keeps storage canonical: an issue by what its effect keeps, an event by the states of its
branches. -/
theorem State.Canonical.exec {i : Instr} {s : State} (h : s.Canonical) : NextCanonical (Machine.exec i s) :=
  match i with
| .add _ => h.issue .intEffect
  | .sub _ => h.issue .intEffect
  | .mul _ => h.issue .intEffect
  | .mulh _ => h.issue .intEffect
  | .mulhu _ => h.issue .intEffect
  | .div _ => h.issue .divEffect
  | .divu _ => h.issue .divEffect
  | .rem _ => h.issue .divEffect
  | .remu _ => h.issue .divEffect
  | .and _ => h.issue .intEffect
  | .or _ => h.issue .intEffect
  | .xor _ => h.issue .intEffect
  | .andn _ => h.issue .intEffect
  | .shl _ => h.issue .intEffect
  | .shr _ => h.issue .intEffect
  | .sra _ => h.issue .intEffect
  | .rotr _ => h.issue .intEffect
  | .min _ => h.issue .intEffect
  | .max _ => h.issue .intEffect
  | .minu _ => h.issue .intEffect
  | .maxu _ => h.issue .intEffect
  | .clz _ => h.issue .unEffect
  | .ctz _ => h.issue .unEffect
  | .popc _ => h.issue .unEffect
  | .abs _ => h.issue .unEffect
  | .sext _ => h.issue .intEffect
  | .zext _ => h.issue .intEffect
  | .bfx _ => h.issue (fun _ _ _ hs => hs.finish)
  | .bfi _ => h.issue (fun _ _ _ hs => hs.finish)
  | .cmpeq _ => h.issue .intEffect
  | .cmpne _ => h.issue .intEffect
  | .cmplt _ => h.issue .intEffect
  | .cmpltu _ => h.issue .intEffect
  | .cmple _ => h.issue .intEffect
  | .cmpleu _ => h.issue .intEffect
  | .sel _ => h.issue (fun _ _ _ hs => hs.finish)
  | .mov _ => h.issue (fun _ _ _ hs => hs.finish)
  | .li _ _ _ _ => h.issue (fun _ _ _ hs => hs.finish)
  | .liw _ _ _ _ => h.issue (fun _ _ _ hs => hs.finish)
  | .time _ _ => h.issue (fun _ _ _ hs => hs.finish)
  | .rand _ _ => h.issue (fun _ _ _ hs => hs.modThread.finish)
  | .br _ => h.issue .branchEffect
  | .beq _ _ _ => h.issue .branchEffect
  | .bne _ _ _ => h.issue .branchEffect
  | .blt _ _ _ => h.issue .branchEffect
  | .bge _ _ _ => h.issue .branchEffect
  | .bltu _ _ _ => h.issue .branchEffect
  | .bgeu _ _ _ => h.issue .branchEffect
  | .bz _ _ => h.issue .branchEffect
  | .bnz _ _ => h.issue .branchEffect
  | .call _ _ => h.issue (fun _ _ _ hs => hs.jumpRel (fun _ hs1 => hs1.putDest))
  | .jmpc _ _ => h.execJmpc
  | .loop _ _ => h.issue (fun _ _ _ hs => .ite (hs.jumpRel (fun _ hs1 => hs1.putDest)) hs.putDest.okOf)
  | .nop => h.issue (fun _ _ _ hs => hs.okOf)
  | .cgeta _ => h.issue .unEffect
  | .cgetb _ => h.issue (fun _ _ _ hs => hs.finish)
  | .cgett _ => h.issue (fun _ _ _ hs => hs.finish)
  | .cgetp _ => h.issue (fun _ _ _ hs => hs.finish)
  | .cseta _ => h.issue .cursorEffect
  | .cinc _ => h.issue .cursorEffect
  | .csetb _ => h.execCsetb
  | .candp _ => h.issue (fun _ _ _ hs => .ite State.Canonical.capTrap hs.finishCap)
  | .cseal _ _ => h.execCseal
  | .cunseal _ => h.execCunseal
  | .ctest _ => h.issue (fun _ _ _ hs => hs.finish)
  | .cclrt _ => h.issue (fun _ _ _ hs => hs.finish)
  | .csub _ => h.issue (fun _ _ _ hs => hs.finish)
  | .vadd _ _ _ => h.issue .arithEffect
  | .vsub _ _ _ => h.issue .arithEffect
  | .vmul _ _ _ => h.issue .arithEffect
  | .vfma _ _ _ _ => h.issue (fun _ _ _ hs => hs.packedResult)
  | .vmin _ _ _ => h.issue .arithEffect
  | .vmax _ _ _ => h.issue .arithEffect
  | .vabs _ => h.issue .signEffect
  | .vneg _ => h.issue .signEffect
  | .vand _ _ _ => h.issue .bitsEffect
  | .vor _ _ _ => h.issue .bitsEffect
  | .vxor _ _ _ => h.issue .bitsEffect
  | .vshl _ _ => h.issue .shiftEffect
  | .vshr _ _ => h.issue .shiftEffect
  | .vcmp _ _ _ _ => h.issue (fun _ _ _ hs => hs.packedResult)
  | .vsel _ _ _ => h.issue (fun _ _ _ hs => hs.putGroup.okOf)
  | .vcvt _ _ _ _ _ => h.execVcvt
  | .vscale _ _ => h.issue (fun _ _ _ hs => hs.packedResult)
  | .vred _ _ => h.issue (fun _ _ _ hs => hs.packedResult)
  | .vexp2 _ _ => h.issue .stepwiseEffect
  | .vrcp _ _ => h.issue .stepwiseEffect
  | .vrsq _ _ => h.issue .stepwiseEffect
  | .vperm _ _ => h.issue (fun _ _ _ hs => hs.putGroup.okOf)
  | .vbcast _ _ => h.issue (fun _ _ _ hs => hs.putGroup.okOf)
  | .vpack _ _ => h.issue (fun _ _ _ hs => hs.putGroup.okOf)
  | .vunpk _ _ => h.issue (fun _ _ _ hs => hs.putGroup.okOf)
  | .plnenc _ => h.issue (fun _ _ _ hs => hs.putGroup.okOf)
  | .plndec _ _ => h.issue (fun _ _ _ hs => hs.putGroup.okOf)
  | .vverd _ _ => h.issue (fun _ _ _ hs => State.Canonical.okOf (.ite hs.putGroup hs.putGroup))
  | .lld _ => h.issue (.laneEffect (fun _ _ _ hs => hs.deferResult.okOf))
  | .lst _ => h.issue (.laneEffect (fun _ _ _ hs => hs.storeLanes.okOf))
  | .ladd _ => h.execLadd
  | .cqpack _ _ _ _ => h.issue (fun _ _ _ hs => hs.finish)
  | .cqext _ _ _ _ _ => h.issue .curveEffect
  | .cqadd _ _ _ _ _ => h.issue .curveEffect
  | .cqsub _ _ _ _ _ => h.issue .curveEffect
  | .cqcmp _ => h.issue .curveEffect
  | .cqinbox _ => h.issue .curveEffect
  | .cqnext _ => h.execCqnext
  | .cqsplit _ => h.execCqsplit
  | .cqsetd _ _ _ _ => h.issue (fun _ _ _ hs => hs.finish)
  | .cqtrunc _ _ _ _ _ => h.issue .curveEffect
  | .cqflags _ => h.execCqflags
  | .ld _ _ _ _ => h.execLd
  | .st _ _ _ => h.execSt
  | .lda _ _ => h.execLda
  | .stl _ _ => h.execStl
  | .ldcap _ => h.execLdcap
  | .stcap _ => h.execStcap
  | .amo _ => h.execAmo
  | .cas _ => h.execCas
  | .wld _ _ => h.execWld
  | .fill _ => h.execFill
  | .empty _ => h.execEmpty
  | .fest _ => h.execFest
  | .waitne _ => h.execWaitne
  | .fence _ _ _ => h.issue (fun _ _ _ hs => hs.launch.okOf)
  | .pref _ _ => h.execPref
  | .zline _ => h.execZline
  | .topkins _ => h.execTopkins
  | .copy _ => h.execCopy
  | .arcout _ => h.execArcout
  | .arcin _ => h.execArcin
  | .arcdrop _ => h.execArcdrop
  | .engst _ => h.issue (fun _ _ _ hs => hs.deferResult.okOf)
  | .mig _ => h.execMig
  | .wayconv _ _ _ _ => h.execWayconv
  | .mdep _ => h.execMdep
  | .msense _ => h.execMsense
  | .msamp _ => h.execMsamp
  | .mread _ => h.execMread
  | .merase _ => h.execMerase
  | .mtick _ => h.execMtick
  | .mbind _ => h.execMbind
  | .munbind _ _ _ => h.issue (fun _ _ _ hs => .ite hs.finish (.ite .ofError hs.modMark.yieldCells.bindOp.okOf))
  | .mmaT32 _ => h.issue .mmaEffect
  | .mmaT64 _ => h.issue .mmaEffect
  | .mmaT128 _ => h.issue .mmaEffect
  | .mmaW _ => h.issue .mmaEffect
  | .mmaH _ => h.issue .mmaEffect
  | .mmaQ _ => h.issue .mmaEffect
  | .mmaQ8 _ => h.issue .mmaEffect
  | .mmaT16 _ => h.issue .mmaEffect
  | .smmaT32 _ => h.issue .mmaEffect
  | .smmaT64 _ => h.issue .mmaEffect
  | .smmaQ _ => h.issue .mmaEffect
  | .macz _ _ _ => h.execMacz
  | .macld _ => h.execMacld
  | .macst _ => h.execMacst
  | .mdrain _ _ _ _ => h.execMdrain
  | .mhset _ _ _ => h.execMhset
  | .hend => h.issue (fun _ _ _ hs => .ite .ofError (.ite .ofError hs.launch.okOf))
  | .vbound _ => h.issue (fun _ _ _ hs => .ite .ofError hs.finish)
  | .spawn _ _ _ => h.execSpawn
  | .yield _ => h.issue (.sched (fun _ _ _ hs => hs.launch.okOf))
  | .endTask _ => h.issue (.sched (fun _ _ _ hs => .ite .ofError hs.launch.okOf))
  | .join _ => h.issue (.sched .groupEffect)
  | .leave _ => h.issue (.sched .groupEffect)
  | .gbar _ => h.issue (.sched .groupEffect)
  | .crew _ _ => h.execCrew
  | .qstatSet _ => h.issue (.sched (fun _ _ _ hs => hs.outResult.okOf))
  | .qstatTask _ => h.issue (.sched (fun _ _ _ hs => hs.outResult.okOf))
  | .sleep _ _ => h.issue (.sched (fun _ _ _ hs => .ite hs.okOf hs.modThread.okOf))
  | .trap _ => h.issue .softEffect
  | .rte _ => h.issue (fun _ _ _ hs => .ite .ofError hs.returnFromTrap)
  | .rds _ _ => h.issue (fun _ _ _ hs => .ite .ofError hs.finish)
  | .wrs _ _ => h.execWrs
  | .repart _ _ => h.issue (fun _ _ _ hs => .ite .ofError (.ite .ofError hs.modCore.startOp.okOf))
  | .plbinv _ _ _ _ => h.issue (fun _ _ _ hs => .ite .ofError hs.launch.okOf)
  | .gang _ => h.execGang
  | .dump _ => h.issue (fun _ _ _ hs => hs.startOp.okOf)
  | .halt _ => h.issue (fun _ _ _ hs => hs.startTrap.trapNow.okOf)
  | .brk _ => h.issue .softEffect
  | .leaseAdd _ => h.issue .leaseEffect
  | .leaseDrop _ => h.issue .leaseEffect
  | .leaseUnmap _ => h.issue .leaseEffect
  | .leaseUnmapForce _ => h.issue .leaseEffect
  | .leaseDom _ => h.issue .leaseEffect
  | .pgmove _ _ _ => h.execPgmove
  | .threadTurn _ => h.execThreadTurn
  | .budgetTrap _ => h.execBudgetTrap
  | .trapEntry _ => h.execTrapEntry
  | .resultArrival _ _ => h.execResultArrival
  | .postedAck _ _ => h.execPostedAck
  | .homeRefusal _ _ => h.execHomeRefusal
  | .homeAcknowledgement _ _ => h.execHomeAcknowledgement
  | .homeAccess _ => h.execHomeAccess
  | .registration _ => h.execRegistration
  | .probe _ => h.execProbe
  | .probeEcho _ => h.execProbeEcho
  | .pull _ => h.execPull
  | .pullReply _ => h.execPullReply
  | .writeBack _ => h.execWriteBack
  | .releaseStoreWritten _ _ => .happens h.flushBuffer.whenever
  | .hbmFill _ _ _ => .happens h.fillLine.whenever
  | .plbFill _ => h.execPlbFill
  | .homeWalk _ => h.execHomeWalk
  | .waitRecordDelivery _ => h.execWaitRecordDelivery
  | .waitResend _ => h.execWaitResend
  | .parkResume _ => h.execParkResume
  | .swapOut _ => h.execSwapOut
  | .swappedWake _ _ => h.execSwappedWake
  | .sleepExpiry _ => h.execSleepExpiry
  | .intakeRecord _ _ _ _ => .happens h.intake.whenever
  | .stagingDone _ _ => h.execStagingDone
  | .slotOffer _ _ => .happens (.ite h.offer .ofNone)
  | .crewMemberStart _ _ => h.execCrewMemberStart
  | .travelArrival _ => h.execTravelArrival
  | .stealRequest _ => h.execStealRequest
  | .stealReply _ => h.execStealReply
  | .engineStart _ => h.execEngineStart
  | .engineCompletion _ _ => h.execEngineCompletion
  | .matrixCompletion _ => .happens (.map (fun _ => .ite h.stepMatrix.writeBackAll h.stepMatrix))
  | .macldRowArrival _ _ => h.execMacldRowArrival
  | .rowHandlerDispatch _ _ => h.execRowHandlerDispatch
  | .handlerOverrun _ _ => h.execHandlerOverrun
  | .repartComplete _ => h.execRepartComplete
  | .wayconvCompletion _ => .happens (.map (fun _ => h.converted))
  | .timedTick _ _ => .happens h.modHome.whenever
  | .tickMessage _ => h.execTickMessage
  | .coolingSweep _ _ _ => .happens h.updateCell.whenever
  | .mbindRewrite _ _ => h.execMbindRewrite
  | .munbindHome _ _ => h.execMunbindHome
  | .gangStop _ => h.execGangStop
  | .falloutCapture _ => h.execFalloutCapture
  | .gangLoad _ => h.execGangLoad
  | .linkDelivery _ _ => h.execLinkDelivery
  | .loopInsertion _ => h.execLoopInsertion
  | .slotReservation _ => h.execSlotReservation
  | .hbmRefresh _ _ => .happens h.modHome.whenever
  | .alertBackOffEnd _ _ => .happens (.map (fun _ => h.modHome.sampleHome))
  | .liveShift _ _ => .happens h.shiftLane.whenever
  | .liveShiftDone _ => .happens h.modHome.whenever
  | .archiveTimeout _ _ => h.execArchiveTimeout
  | .capturePeriodicSample _ _ _ => .happens (.ite h.modHome.whenever h.modCore.whenever)
  | .deviceReset => State.Canonical.execDeviceReset
  | .maintenanceReset => State.Canonical.execMaintenanceReset
  | .alertBackOff _ _ => .happens h.modHome.countHome.whenever
  | .linkCrcError _ _ => .happens h.setStack.whenever
  | .hostWindowAccess _ _ _ _ => .happens (.ite .ofNone h.hostAccess)
  | .peerWindowAccess _ _ _ _ => h.execPeerWindowAccess
  | .peerLinkUp _ _ => .happens h.modDev.whenever
  | .peerLinkLoss _ => .happens (h.modDev.foldl (fun _ _ hs => hs.dropMsg.takeReply)).whenever
  | .archiveDriveCompletion _ _ _ _ => h.execArchiveDriveCompletion
  | .d3hotEntry => .happens h.modDev.whenever
  | .powerLimit _ => .happens h.modDev.signal.whenever
  | .attgo => .happens h.mgmtWrite.someOf
  | .attestReady => .happens h.modDev.whenever
  | .nonceWrite _ _ => .happens h.mgmtWrite.whenever
  | .counterClear _ => h.mgmtEvent
  | .captureSnap _ _ => h.mgmtEvent
  | .captureEnable _ _ => h.mgmtEvent
  | .inqcfgWrite _ _ => h.mgmtEvent
  | .areaRegisterWrite _ _ => h.mgmtEvent
  | .formatWindowWrite _ _ => h.mgmtEvent
  | .pmapWrite _ _ => h.mgmtEvent
  | .hwinWrite _ => h.execHwinWrite
  | .arqcfgWrite _ _ => h.mgmtEvent
  | .pwrlimWrite _ => h.execPwrlimWrite
  | .lanecrcClear _ _ => .happens h.mgmtWrite.whenever
  | .mgmtRegisterWrite _ _ => .happens h.mgmtWrite.whenever
  | .d3hotExit => .happens h.modDev.someOf
  | .powerBelowLimit _ => .happens h.modDev.whenever

/-- A turn keeps storage canonical: a page missed, a unit fetched and issued, or one that does not decode. -/
theorem State.Canonical.stepTurn {s : State} {th : Thread} (h : s.Canonical) : NextCanonical (Machine.stepTurn s th) := by
  unfold Machine.stepTurn
  split
  · next heq => exact (h.fetchMiss _ heq).nextOf
  · refine .orStall ?_ (State.Canonical.nextOf (.of_mem h rfl))
    split
    · exact .exec (.of_mem h.fetchFill rfl)
    · exact State.Canonical.nextOf (.faultUnit (.of_mem h.fetchFill rfl))

theorem State.Canonical.stepEvent {s : State} {i : Instr} (h : s.Canonical) : NextCanonical (Machine.stepEvent s i) :=
  .ite h.nextOf (.orStall h.exec .ofRefused)

theorem State.Canonical.step {s : State} (h : s.Canonical) : NextCanonical (Machine.step s) := by
  unfold Machine.step
  dsimp only
  split
  · exact h.tickTime.stepTurn
  · split
    · exact State.Canonical.stepEvent (.of_mem h.tickTime rfl)
    · split
      · exact h.tickTime.stepEvent
      · exact h.tickTime.nextOf

/-- Settles O53: each function that a step runs keeps storage canonical, so the step does. -/
theorem stepsKeepMemoryCanonical : Obligations.StepsKeepMemoryCanonical := by
  unfold Obligations.StepsKeepMemoryCanonical
  intro s s' hs hstep
  exact State.Canonical.step hs s' hstep

end Sys2Proof.Machine
end
